-- ==== Sys2Proof/Word.lean ====
section
/-! DEFINITION. The word types of the K9 (R6, R68): bytes, 32-bit and 64-bit registers, 128-bit tile records. -/

namespace Sys2Proof

/-- A byte of memory (R6). -/
abbrev Byte := BitVec 8

/-- A field of a main, near or mask register (R19). -/
abbrev W32 := BitVec 32

/-- A scalar register, a program counter, a special register (R19). -/
abbrev W64 := BitVec 64

/-- A tile record (R50). -/
abbrev W128 := BitVec 128

end Sys2Proof
end

