-- ==== Sys2Proof/Config.lean ====
section
/-! DEFINITION. What the spec leaves open or fixes outside itself: free values (opaque, no proof can see them), the
cryptographic functions the spec cites by standard, and the device's fused constants. -/

namespace Sys2Proof

/-- The free values of log entry 3: the k-th value the manual leaves open. Nothing constrains it. -/
opaque Config.freeValue : Nat → W64

/-- Which of two lanes of an isolated task keeps a unit that both store to: the spec leaves it open but wants the same bytes on
every run (R111, R186), so it depends on the unit's address and the later lane alone (log entry 10). -/
opaque Config.laneWins : (addr lane : Nat) → Bool

/-- The bytes of save records, by the record's number and the offset (R410, log entry 30). -/
opaque Config.recordByte : (image offset : Nat) → Byte

/-- The wing on which a work list of a context first stands (R411, log entry 38). -/
opaque Config.listWing : (asid list : Nat) → Nat

/-- Whether an HSS signature verifies over the SHA-256 of the image under the vendor root key fused into the ROM (R415, log
entry 18). -/
opaque Config.hssVerify : (digest signature : List Byte) → Bool

/-- The identity key's signature at a leaf index (R418, log entry 18): two levels of height 20, so the index names a leaf of
each (`leaf / 2 ^ 20` above, `leaf % 2 ^ 20` below). -/
opaque Config.hssSign : (upper lower : Nat) → (message : List Byte) → List Byte

/-- The number of the vendor registry under which the signature algorithm is offered (R419), not given in the spec (log entry
35). -/
opaque Config.vendorRegistry : Byte

/-- The seven type bits that each measurement's representation byte carries beside the raw bit-stream bit (R417), not given in the
spec (log entry 35). -/
opaque Config.measType : (index : Nat) → BitVec 7

/-- The certificate chain of slot 0 (R419), not given in the spec (log entry 18). -/
opaque Config.certChain : List Byte

/-- The measurement of the boot ROM (R417, index 1), not given in the spec (log entry 18). -/
opaque Config.romMeasurement : BitVec 256

/-- The fused FLOOR of R414 at first power-on (log entry 1). -/
opaque Config.fusedFloor : BitVec 8

end Sys2Proof
end

