-- ==== Sys2Proof/Syntax.lean ====
section
/-! DEFINITION. The syntax of Molrov: operands and field values with their manual names, and the one inductive
`Instr` with a constructor for every row of the opcode table: the encoded instructions (R225) and the events. -/

namespace Sys2Proof

/-- The execution-scope field SCP (R27). -/
inductive Scope where
  | lane | gang | set | team
  deriving DecidableEq, Repr

/-- The type codes TY (R69), in code order 0x00 to 0x0F. -/
inductive Ty where
  | b32 | b64 | i8 | i16 | i32 | i64 | n8 | n16 | n32 | n64 | h16x2 | bf16x2 | f32 | f64 | f32x2 | l6x4
  deriving DecidableEq, Repr

/-- The rounding field RM (R71); `dyn` is 111, which uses FPMODE. -/
inductive Rm where
  | rne | rtz | rdn | rup | rna | dyn
  deriving DecidableEq, Repr

/-- The COND values of R234. -/
inductive Cond where
  | al | eq | ne | lt | ge | gt | le | ltn | gen | gtn | len | vs | vc | prq | nprq | brk | nbrk | done | ndone | tmo | ntmo | dns | ndns
  deriving DecidableEq, Repr

/-- The access sizes SZ (R237), in code order. -/
inductive Size where
  | b8 | b16 | b32 | b64 | b128 | i8 | i16
  deriving DecidableEq, Repr

/-- The ordering field ORD (R108), in code order. -/
inductive MemOrder where
  | weak | rlx | acq | rel | acqRel
  deriving DecidableEq, Repr

/-- The visibility field VIS (R113), in code order. -/
inductive Vis where
  | team | device | system
  deriving DecidableEq, Repr

/-- The cache hint CH (R238), in code order. -/
inductive Hint where
  | none | stream | keep
  deriving DecidableEq, Repr

/-- The address space SPACE (R90), in code order. -/
inductive Space where
  | global | spad | stack
  deriving DecidableEq, Repr

/-- Tile and element formats (R50, R298), in code order; `i32` is 0x6 in ACCRD, ACCWR and STASH. -/
inductive Fmt where
  | l6 | i8 | bf16 | f16 | f32 | f64 | i32
  deriving DecidableEq, Repr

/-- The FN of SSHF and SHF. -/
inductive ShiftOp where
  | shl | shr | sar | rol
  deriving DecidableEq, Repr

/-- The FN of SBIT and IBIT. -/
inductive BitOp where
  | popc | clz | ctz | brev
  deriving DecidableEq, Repr

/-- The FN of SFOP (R251). -/
inductive SfopOp where
  | add | sub | mul | fma | min | max | cmp | cvt
  deriving DecidableEq, Repr

/-- The FN of MOP (R253). -/
inductive MaskOp where
  | mset | mand | mor | mxor | mnot | mpopc | mfroms | mtos
  deriving DecidableEq, Repr

/-- The FN of ICMP, and 0 to 5 of FCMP (R260, R264). -/
inductive CmpOp where
  | eq | ne | lt | le | gt | ge | ord | uno
  deriving DecidableEq, Repr

/-- The FN of BFX (R260). -/
inductive BfxOp where
  | s | n | ins
  deriving DecidableEq, Repr

/-- The FN of FSGN (R264). -/
inductive SgnOp where
  | abs | neg | copysign
  deriving DecidableEq, Repr

/-- The FN of SHFL (R271). -/
inductive ShflOp where
  | idx | up | down | xor
  deriving DecidableEq, Repr

/-- The FN of XVOTE (R273). -/
inductive VoteOp where
  | any | all | ballot | uni
  deriving DecidableEq, Repr

/-- The reduction operations of R273. -/
inductive RedOp where
  | add | min | max | and | or | xor
  deriving DecidableEq, Repr

/-- The operations of R231. -/
inductive AtomOp where
  | add | and | or | xor | min | max | exch
  deriving DecidableEq, Repr

/-- The atomic types of R231, in code order. -/
inductive AtomTy where
  | n32 | i32 | n64 | i64 | f32 | f64 | h16x2 | bf16x2
  deriving DecidableEq, Repr

/-- The shape of COPY (FN[1:0]). -/
inductive CopyShape where
  | d1 | d2 | d3
  deriving DecidableEq, Repr

/-- The FN of SCATTER (R162). -/
inductive ScatterMode where
  | st | addF32 | addF64 | addI32 | addI64
  deriving DecidableEq, Repr

/-- The kind field FN[5:4] of TDEF (R304). -/
inductive TdefKind where
  | zero | dense | acc
  deriving DecidableEq, Repr

/-- The FN of TGET (R306). -/
inductive TgetPart where
  | lo | hi | kind | rank
  deriving DecidableEq, Repr

/-- The FN[2:0] of COLL (R225). -/
inductive CollOp where
  | allreduce | redscat | allgather | bcast | alltoall
  deriving DecidableEq, Repr

/-- The counters of R256, in code order. -/
inductive PerfCtr where
  | gissue | gparted | l1miss | roommiss | tlbmiss | bankround | planeskip | zerotile | linepar | remoteline | gatherdedup
  deriving DecidableEq, Repr

/-- The special registers of R235. -/
inductive SReg where
  | laneid | sliceid | gangid | teamid | gridid | ctxid | launchv | clock | cc | fpmode | flags | stkptr | stklim | prq | prdl | trcause | trpc | traddr | trskid | trapplied | trinfo | trapvec | setinfo
  deriving DecidableEq, Repr

/-- An operand specifier of 11 bits (R219): the file and the index, or a signed short immediate. -/
inductive Operand where
  | v (i : BitVec 8) | n (i : BitVec 8) | b (i : BitVec 8) | s (i : BitVec 8) | x (i : BitVec 8) | t (i : BitVec 8)
  | m (i : BitVec 3) | g (i : BitVec 3) | imm (i : BitVec 8)
  deriving DecidableEq, Repr

/-- The 10-bit specifier E of format T (R218). -/
inductive ExtOperand where
  | v (i : BitVec 8) | s (i : BitVec 8) | t (i : BitVec 8)
  deriving DecidableEq, Repr

/-- The B operand of formats R and I: a specifier, or the IMM32 of the I form (R215). -/
inductive Src where
  | op (o : Operand) | imm32 (w : W32)
  deriving DecidableEq, Repr

/-- The common header less OPC (R213). -/
structure Hdr where
  scp  : Scope
  la   : BitVec 4
  msel : BitVec 3
  mneg : Bool
  deriving DecidableEq, Repr

/-- The operand fields of formats R and I (R214); an unused operand is v0, whose specifier is zero (R217). -/
structure FmtR where
  d   : Operand
  a   : Operand
  b   : Src
  c   : Operand
  ty  : Ty
  rm  : Rm
  sat : Bool
  ccw : Bool
  xt  : BitVec 16
  deriving DecidableEq, Repr

/-- The operand fields of format M (R214). -/
structure FmtM where
  d     : Operand
  a     : Operand
  b     : Operand
  sz    : Size
  ord   : MemOrder
  vis   : Vis
  ch    : Hint
  space : Space
  off   : BitVec 24
  deriving DecidableEq, Repr

/-- The operand fields of format T (R214, R218). -/
structure FmtT where
  d   : Operand
  a   : Operand
  b   : Operand
  c   : Operand
  e   : ExtOperand
  imm : BitVec 16
  deriving DecidableEq, Repr

/-- A unit that issues: a gang while it is ganged, or one slice of a parted gang (R226). -/
structure UnitId where
  team  : Nat
  gang  : Nat
  slice : Option Nat
  deriving DecidableEq, Repr

/-- What a collective chunk carries (R165, R166, R336, R383). -/
inductive ChunkKind where
  | reduce    -- a partial fold of one chunk, travelling the ring
  | gather    -- a finished chunk, travelling the ring
  | direct    -- a whole buffer of the latency path
  | move      -- the moved elements of a broadcast or an all-to-all
  deriving DecidableEq, Repr

/-- One chunk on the span: group, map epoch and sequence number (R383), the ring position or chunk number it
belongs to, and its elements as bit patterns. -/
structure Chunk where
  ctx   : Nat
  group : Nat
  epoch : Nat
  seq   : Nat
  kind  : ChunkKind
  index : Nat
  data  : List W64
  deriving DecidableEq, Repr

/-- What a flood says of the liveness set (R339, R382): the ranks declared dead, and those returned to service. -/
structure Flood where
  down : BitVec 256
  up   : BitVec 256
  deriving DecidableEq, Repr

/-- One step of the part: an encoded instruction (R225), or an event of the opcode table. -/
inductive Instr where
  -- control (R240 to R245)
  | nop
  | bra (h : Hdr) (disp : W32)
  | bcc (h : Hdr) (cond : Cond) (disp : W32)
  | bmz (h : Hdr) (disp : W32)
  | bmnz (h : Hdr) (disp : W32)
  | bind (h : Hdr) (a : Operand)
  | call (h : Hdr) (disp : W32)
  | calli (h : Hdr) (a : Operand)
  | ret (h : Hdr)
  | regang (h : Hdr)
  | exit (h : Hdr)
  | yield (h : Hdr)
  | enter (h : Hdr) (size : W32)
  | leave (h : Hdr)
  | bkpt (h : Hdr)
  | trap (h : Hdr) (code : W32)
  -- scalar and system (R246 to R256)
  | smov (h : Hdr) (hi : Bool) (f : FmtR)
  | sadd (h : Hdr) (f : FmtR)
  | ssub (h : Hdr) (f : FmtR)
  | smul (h : Hdr) (hi : Bool) (f : FmtR)
  | smad (h : Hdr) (f : FmtR)
  | sdiv (h : Hdr) (f : FmtR)
  | srem (h : Hdr) (f : FmtR)
  | slop (h : Hdr) (lut : Byte) (f : FmtR)
  | sshf (h : Hdr) (k : ShiftOp) (f : FmtR)
  | scmp (h : Hdr) (f : FmtR)
  | ssel (h : Hdr) (cond : Cond) (f : FmtR)
  | smin (h : Hdr) (f : FmtR)
  | smax (h : Hdr) (f : FmtR)
  | sbit (h : Hdr) (k : BitOp) (f : FmtR)
  | sfop (h : Hdr) (k : SfopOp) (f : FmtR)
  | sget (h : Hdr) (r : SReg) (f : FmtR)
  | sset (h : Hdr) (r : SReg) (f : FmtR)
  | mop (h : Hdr) (k : MaskOp) (f : FmtR)
  -- lane integer (R259)
  | iadd (h : Hdr) (f : FmtR)
  | isub (h : Hdr) (f : FmtR)
  | imul (h : Hdr) (hi : Bool) (f : FmtR)
  | imad (h : Hdr) (f : FmtR)
  | imin (h : Hdr) (f : FmtR)
  | imax (h : Hdr) (f : FmtR)
  | iabs (h : Hdr) (f : FmtR)
  | ineg (h : Hdr) (f : FmtR)
  | lop (h : Hdr) (lut : Byte) (f : FmtR)
  | shf (h : Hdr) (k : ShiftOp) (f : FmtR)
  | icmp (h : Hdr) (p : CmpOp) (f : FmtR)
  | sel (h : Hdr) (f : FmtR)
  | ibit (h : Hdr) (k : BitOp) (f : FmtR)
  | bfx (h : Hdr) (k : BfxOp) (f : FmtR)
  | lea (h : Hdr) (f : FmtR)
  | idiv (h : Hdr) (rem : Bool) (f : FmtR)
  | idot (h : Hdr) (f : FmtR)
  | mov (h : Hdr) (f : FmtR)
  -- lane floating point (R262)
  | fadd (h : Hdr) (f : FmtR)
  | fsub (h : Hdr) (f : FmtR)
  | fmul (h : Hdr) (f : FmtR)
  | fma (h : Hdr) (f : FmtR)
  | fms (h : Hdr) (f : FmtR)
  | fnma (h : Hdr) (f : FmtR)
  | fnms (h : Hdr) (f : FmtR)
  | fmin (h : Hdr) (f : FmtR)
  | fmax (h : Hdr) (f : FmtR)
  | fsgn (h : Hdr) (k : SgnOp) (f : FmtR)
  | fcmp (h : Hdr) (p : CmpOp) (f : FmtR)
  | fclass (h : Hdr) (f : FmtR)
  | fdiv (h : Hdr) (f : FmtR)
  | fsqrt (h : Hdr) (f : FmtR)
  | frcp (h : Hdr) (f : FmtR)
  | frsq (h : Hdr) (f : FmtR)
  | fexp2 (h : Hdr) (f : FmtR)
  | flog2 (h : Hdr) (f : FmtR)
  | fscale (h : Hdr) (f : FmtR)
  | frnd (h : Hdr) (f : FmtR)
  -- conversion and packing (R266 to R268)
  | cvtf (h : Hdr) (src : Ty) (f : FmtR)
  | cvti (h : Hdr) (src : Ty) (f : FmtR)
  | cvtn (h : Hdr) (src : Ty) (f : FmtR)
  | cvtl (h : Hdr) (enc : Bool) (f : FmtR)
  | pack (h : Hdr) (src : Ty) (f : FmtR)
  | unpk (h : Hdr) (elt : Ty) (f : FmtR)
  -- lane movement (R269 to R276)
  | shfl (h : Hdr) (k : ShflOp) (f : FmtR)
  | bcast (h : Hdr) (f : FmtR)
  | xvote (h : Hdr) (k : VoteOp) (f : FmtR)
  | xred (h : Hdr) (op : RedOp) (f : FmtR)
  | xscan (h : Hdr) (op : RedOp) (excl : Bool) (f : FmtR)
  | confl (h : Hdr) (f : FmtR)
  | cmprs (h : Hdr) (f : FmtR)
  | expnd (h : Hdr) (f : FmtR)
  | xmov (h : Hdr) (f : FmtR)
  | setdecl (h : Hdr) (f : FmtT)
  -- memory and atomics (R277 to R288)
  | ld (h : Hdr) (f : FmtM)
  | st (h : Hdr) (f : FmtM)
  | lds (h : Hdr) (f : FmtM)
  | sts (h : Hdr) (f : FmtM)
  | ldu (h : Hdr) (f : FmtM)
  | stu (h : Hdr) (f : FmtM)
  | ldl (h : Hdr) (f : FmtM)
  | stl (h : Hdr) (f : FmtM)
  | stash (h : Hdr) (fmt : Fmt) (f : FmtM)
  | pld (h : Hdr) (room : Bool) (f : FmtM)
  | fence (h : Hdr) (f : FmtM)
  | cmaint (h : Hdr) (all : Bool) (f : FmtM)
  | atom (h : Hdr) (op : AtomOp) (ty : AtomTy) (f : FmtM)
  | acas (h : Hdr) (ty : AtomTy) (f : FmtM)
  | mred (h : Hdr) (op : AtomOp) (ty : AtomTy) (f : FmtM)
  | atoms (h : Hdr) (op : AtomOp) (ty : AtomTy) (f : FmtM)
  | acass (h : Hdr) (ty : AtomTy) (f : FmtM)
  -- engines, abars, work lists (R289 to R297)
  | copy (h : Hdr) (shape : CopyShape) (out : Bool) (yld : Bool) (f : FmtT)
  | gather (h : Hdr) (f : FmtT)
  | scatter (h : Hdr) (mode : ScatterMode) (f : FmtT)
  | abinit (h : Hdr) (f : FmtT)
  | abarr (h : Hdr) (f : FmtT)
  | abwait (h : Hdr) (f : FmtT)
  | abexp (h : Hdr) (f : FmtT)
  | abtest (h : Hdr) (f : FmtT)
  | wapp (h : Hdr) (f : FmtT)
  | wpop (h : Hdr) (steal : Bool) (f : FmtT)
  -- tiles, matrix and rank (R298 to R322)
  | tdef (h : Hdr) (kind : TdefKind) (fmt : Fmt) (f : FmtT)
  | tldr (h : Hdr) (f : FmtT)
  | tstr (h : Hdr) (f : FmtT)
  | tget (h : Hdr) (part : TgetPart) (f : FmtT)
  | mma (h : Hdr) (f : FmtT)
  | tmul (h : Hdr) (f : FmtT)
  | accrd (h : Hdr) (fmt : Fmt) (f : FmtT)
  | accwr (h : Hdr) (fmt : Fmt) (f : FmtT)
  | accz (h : Hdr) (f : FmtT)
  | accrel (h : Hdr) (f : FmtT)
  | mbatch (h : Hdr) (f : FmtT)
  | mwait (h : Hdr) (f : FmtT)
  | cturn (h : Hdr) (fmt : Fmt) (tr : Bool) (f : FmtT)
  | tmv (h : Hdr) (f : FmtT)
  | tadd (h : Hdr) (f : FmtT)
  | tscl (h : Hdr) (f : FmtT)
  | trnd (h : Hdr) (abs : Bool) (f : FmtT)
  | tdense (h : Hdr) (f : FmtT)
  | tzero (h : Hdr) (f : FmtT)
  | tnorm (h : Hdr) (f : FmtT)
  | tpool (h : Hdr) (fmt : Fmt) (f : FmtT)
  | tfree (h : Hdr) (f : FmtT)
  | ttrn (h : Hdr) (f : FmtT)
  -- synchronisation, collectives, launch (R323 to R351)
  | bar (h : Hdr) (f : FmtT)
  | gnew (h : Hdr) (f : FmtT)
  | gjoin (h : Hdr) (f : FmtT)
  | gleave (h : Hdr) (f : FmtT)
  | gbar (h : Hdr) (f : FmtT)
  | gvote (h : Hdr) (all : Bool) (f : FmtT)
  | gred (h : Hdr) (op : RedOp) (f : FmtT)
  | greset (h : Hdr) (f : FmtT)
  | ginfo (h : Hdr) (f : FmtT)
  | qdef (h : Hdr) (f : FmtT)
  | qpush (h : Hdr) (try_ : Bool) (f : FmtT)
  | qpop (h : Hdr) (try_ : Bool) (f : FmtT)
  | sleep (h : Hdr) (f : FmtT)
  | coll (h : Hdr) (op : CollOp) (red : RedOp) (f : FmtT)
  | xput (h : Hdr) (f : FmtT)
  | xget (h : Hdr) (f : FmtT)
  | trigarm (h : Hdr) (f : FmtT)
  | trigcnt (h : Hdr) (f : FmtT)
  | trigdis (h : Hdr) (f : FmtT)
  | launch (h : Hdr) (f : FmtT)
  | cjoin (h : Hdr) (f : FmtT)
  | spanmap (h : Hdr) (f : FmtT)
  | spanst (h : Hdr) (f : FmtT)
  | labort (h : Hdr) (f : FmtT)
  -- system (R254 to R256)
  | rte (h : Hdr)
  | trq (h : Hdr) (drop : Bool) (f : FmtR)
  | perf (h : Hdr) (ctr : PerfCtr) (f : FmtR)
  -- events inside the part and at its edges (95_what_each_step_holds.md)
  | handlerEntry (team gang : Nat)
  | pageFaultResolved (ctx : Nat) (page : Nat) (ok : Bool)
  | wappLand (ctx idx : Nat)
  | quiescenceDone (ctx : Nat)
  | matrixOpComplete (team op : Nat)
  | sleepExpiry (u : UnitId)
  | collStagingGrant (coll : Nat)
  | chunkArrival (c : Chunk)
  | collTimeout (coll : Nat)
  | xputReceive (ctx : Nat) (addr : W64) (data : List Byte) (notify : Option Nat)
  | xgetRequest (ctx : Nat) (addr : W64) (len : Nat)
  | triggerActionComplete (ctx idx : Nat) (err : Byte)
  | engineLand (team op seg : Nat)
  | engineArrival (team op : Nat)
  | fixupReplay (team op : Nat)
  | copyYieldResume (team op : Nat)
  | dispatch (ctx idx : Nat)
  | teamPlace (launch grid core : Nat)
  | teamRetire (team : Nat)
  | launchCommit (launch : Nat)
  | poolFull (launch : Nat)
  | irrevocablePublish (launch : Nat)
  | prqDeadline (team : Nat)
  | saveDrainTimeout (team : Nat)
  | parkPreempt (team : Nat)
  | teamRestore (team core : Nat)
  | hdmRead (addr len : Nat)
  | hdmWrite (addr : Nat) (data : List Byte)
  | qrsv (slot queue : Nat)
  | qdb (slot queue : Nat)
  | queuePollTimer (slot queue : Nat)
  | qreset (slot queue : Nat) (val : W64)
  | ckpt (ctx idx : Nat)
  | recompute (ctx idx : Nat)
  | replayNext (ctx : Nat)
  | registerWrite (bar : Bool) (off : Nat) (val : W64)
  | ctxLoad (slot : Nat)
  | ctxSave (slot : Nat)
  | ctxSaveDone (slot : Nat)
  | ctxResume (slot : Nat)
  | ctxKill (slot : Nat)
  | ctxUnload (slot : Nat)
  | ctxUpool (slot : Nat)
  | tlbMark (val : W64)
  | tlbMarkDrained
  | tlbConfirm (val : W64)
  | bncrp (slot : Nat) (val : W64)
  | trgownWrite (wing idx : Nat) (val : W64)
  | ctrownWrite (wing idx : Nat) (val : W64)
  | wingDrain (wing : Nat)
  | wingDrained (wing : Nat)
  | wingReset (wing : Nat)
  | wingResetDone (wing : Nat)
  | wingOnline (wing : Nat)
  | rowretGo (val : W64)
  | rowCopyDone
  | retrain (port : Nat)
  | retrainDone (port : Nat)
  | spanctlDisable (port : Nat) (on : Bool)
  | corectlDis (core : Nat) (on : Bool)
  | peerDeadTimeout (rank : Nat)
  | livenessFlood (flood : Flood)
  | spanrjGo (rank : Nat) (running : Bool)
  | modeWrite (val : W64)
  | eccChangeDone
  | clockCapChange
  | thermalSample (core temp : Nat)
  | droopFlag (core : Nat) (raised : Bool)
  | droopHoldExpiry (core : Nat)
  | longLatencyResult (u : UnitId) (idx : Nat)
  | remoteLineRequest (ctx addr : Nat) (write : Option (List Byte))
  | signTokenRefill
  | powerOn
  | deviceReset
  | bootctlGo
  | bootImageLoaded (image : List Byte) (fetchFault : Bool)
  | getVersion (box : Nat)
  | getCapabilities (box : Nat)
  | negotiateAlgorithms (box : Nat)
  | getDigests (box : Nat)
  | getCertificate (box slot : Nat)
  | challenge (box : Nat) (nonce : List Byte)
  | getMeasurements (box index : Nat) (signed : Bool) (nonce : List Byte)
  | idleFlit (rank : Nat)
  | powerLoss
  | cstopClear (slot queue : Nat)
  deriving DecidableEq, Repr

end Sys2Proof
end

