-- ==== Sys2Proof/Machine/Codes.lean ====
section
/-! DEFINITION. The numeric codes of the field values and operand specifiers (R27, R69, R71, R108, R113, R219, R230 to
R238), each table once, read in both directions by the decoder and the encoder. -/

namespace Sys2Proof

/-- The value that a code table gives a number. -/
def codeToVal {α : Type} (tab : List (Nat × α)) (n : Nat) : Option α := (tab.find? (fun p => p.1 == n)).map Prod.snd

/-- The number that a code table gives a value. -/
def valToCode {α : Type} [DecidableEq α] (tab : List (Nat × α)) (a : α) : Nat :=
  ((tab.find? (fun p => decide (p.2 = a))).map Prod.fst).getD 0

/-- A list as a code table, the codes counting from zero. -/
def seqTable {α : Type} (l : List α) : List (Nat × α) := (List.range l.length).zip l

/-- R27. -/
def scopeTab : List (Nat × Scope) := seqTable [.lane, .gang, .set, .team]
/-- R69. -/
def tyTab : List (Nat × Ty) :=
  seqTable [.b32, .b64, .i8, .i16, .i32, .i64, .n8, .n16, .n32, .n64, .h16x2, .bf16x2, .f32, .f64, .f32x2, .l6x4]
/-- R71. -/
def rmTab : List (Nat × Rm) := [(0, .rne), (1, .rtz), (2, .rdn), (3, .rup), (4, .rna), (7, .dyn)]
/-- R234. -/
def condTab : List (Nat × Cond) :=
  seqTable [.al, .eq, .ne, .lt, .ge, .gt, .le, .ltn, .gen, .gtn, .len, .vs, .vc] ++
  [(0x10, .prq), (0x11, .nprq), (0x12, .brk), (0x13, .nbrk), (0x14, .done), (0x15, .ndone), (0x16, .tmo), (0x17, .ntmo),
   (0x18, .dns), (0x19, .ndns)]
/-- R237. -/
def sizeTab : List (Nat × Size) := seqTable [.b8, .b16, .b32, .b64, .b128, .i8, .i16]
/-- R108. -/
def ordTab : List (Nat × MemOrder) := seqTable [.weak, .rlx, .acq, .rel, .acqRel]
/-- R113. -/
def visTab : List (Nat × Vis) := seqTable [.team, .device, .system]
/-- R238. -/
def hintTab : List (Nat × Hint) := seqTable [.none, .stream, .keep]
/-- R90. -/
def spaceTab : List (Nat × Space) := seqTable [.global, .spad, .stack]
/-- R50, R298. -/
def fmtTab : List (Nat × Fmt) := seqTable [.l6, .i8, .bf16, .f16, .f32, .f64, .i32]
/-- R225, R248. -/
def shiftTab : List (Nat × ShiftOp) := seqTable [.shl, .shr, .sar, .rol]
/-- R225, R248. -/
def bitTab : List (Nat × BitOp) := seqTable [.popc, .clz, .ctz, .brev]
/-- R251. -/
def sfopTab : List (Nat × SfopOp) := seqTable [.add, .sub, .mul, .fma, .min, .max, .cmp, .cvt]
/-- R253. -/
def mopTab : List (Nat × MaskOp) := seqTable [.mset, .mand, .mor, .mxor, .mnot, .mpopc, .mfroms, .mtos]
/-- R225, R264. -/
def cmpTab : List (Nat × CmpOp) := seqTable [.eq, .ne, .lt, .le, .gt, .ge, .ord, .uno]
/-- R260. -/
def bfxTab : List (Nat × BfxOp) := seqTable [.s, .n, .ins]
/-- R264. -/
def sgnTab : List (Nat × SgnOp) := seqTable [.abs, .neg, .copysign]
/-- R271. -/
def shflTab : List (Nat × ShflOp) := seqTable [.idx, .up, .down, .xor]
/-- R273. -/
def voteTab : List (Nat × VoteOp) := seqTable [.any, .all, .ballot, .uni]
/-- R273. -/
def redTab : List (Nat × RedOp) := seqTable [.add, .min, .max, .and, .or, .xor]
/-- R231. -/
def atomTab : List (Nat × AtomOp) := seqTable [.add, .and, .or, .xor, .min, .max, .exch]
/-- R231. -/
def atomTyTab : List (Nat × AtomTy) := seqTable [.n32, .i32, .n64, .i64, .f32, .f64, .h16x2, .bf16x2]
/-- R225: 00 is reserved. -/
def shapeTab : List (Nat × CopyShape) := [(1, .d1), (2, .d2), (3, .d3)]
/-- R225. -/
def scatterTab : List (Nat × ScatterMode) := seqTable [.st, .addF32, .addF64, .addI32, .addI64]
/-- R225. -/
def tdefTab : List (Nat × TdefKind) := seqTable [.zero, .dense, .acc]
/-- R225. -/
def tgetTab : List (Nat × TgetPart) := seqTable [.lo, .hi, .kind, .rank]
/-- R225. -/
def collTab : List (Nat × CollOp) := seqTable [.allreduce, .redscat, .allgather, .bcast, .alltoall]
/-- R256. -/
def perfTab : List (Nat × PerfCtr) :=
  seqTable [.gissue, .gparted, .l1miss, .roommiss, .tlbmiss, .bankround, .planeskip, .zerotile, .linepar, .remoteline,
    .gatherdedup]
/-- R235. -/
def sregTab : List (Nat × SReg) :=
  [(0x00, .laneid), (0x01, .sliceid), (0x02, .gangid), (0x03, .teamid), (0x04, .gridid), (0x05, .ctxid), (0x06, .launchv),
   (0x07, .clock), (0x08, .cc), (0x10, .fpmode), (0x11, .flags), (0x18, .stkptr), (0x19, .stklim), (0x20, .prq), (0x21, .prdl),
   (0x28, .trcause), (0x29, .trpc), (0x2A, .traddr), (0x2B, .trskid), (0x2C, .trapplied), (0x2D, .trinfo), (0x2E, .trapvec),
   (0x30, .setinfo)]

/-- The 11-bit code of an operand specifier (R219): file in [10:8], index in [7:0]. -/
def Operand.code : Operand → Nat
  | .v i => i.toNat
  | .n i => 0x100 + i.toNat
  | .b i => 0x200 + i.toNat
  | .s i => 0x300 + i.toNat
  | .x i => 0x400 + i.toNat
  | .t i => 0x500 + i.toNat
  | .m i => 0x600 + i.toNat
  | .g i => 0x608 + i.toNat
  | .imm i => 0x700 + i.toNat

/-- The specifier of an 11-bit code; indices 16 to 255 of file 110 are reserved (R219). -/
def Operand.ofCode (n : Nat) : Option Operand :=
  let i : BitVec 8 := BitVec.ofNat 8 (n % 256)
  match n / 256 with
  | 0 => some (.v i)
  | 1 => some (.n i)
  | 2 => some (.b i)
  | 3 => some (.s i)
  | 4 => some (.x i)
  | 5 => some (.t i)
  | 6 => if n % 256 < 8 then some (.m (BitVec.ofNat 3 (n % 256)))
         else if n % 256 < 16 then some (.g (BitVec.ofNat 3 (n % 256 - 8))) else none
  | 7 => some (.imm i)
  | _ => none

/-- The 10-bit code of E (R218). -/
def ExtOperand.code : ExtOperand → Nat
  | .v i => i.toNat
  | .s i => 0x100 + i.toNat
  | .t i => 0x200 + i.toNat

/-- The specifier of E; file 11 is reserved (R218). -/
def ExtOperand.ofCode (n : Nat) : Option ExtOperand :=
  match n / 256 with
  | 0 => some (.v (BitVec.ofNat 8 (n % 256)))
  | 1 => some (.s (BitVec.ofNat 8 (n % 256)))
  | 2 => some (.t (BitVec.ofNat 8 (n % 256)))
  | _ => none

/-- The unused operand, whose specifier is zero (R217). -/
def Operand.zero : Operand := .v 0

/-- The unused B operand of formats R and I. -/
def Src.zero : Src := .op (.v 0)

/-- The unused E operand. -/
def ExtOperand.zero : ExtOperand := .v 0

end Sys2Proof
end

