-- ==== Sys2Proof/Machine/Legal.lean ====
section
/-! DEFINITION. The illegal-instruction conditions of R239 on the fields of a decoded instruction, one row per
instruction (R213, R217, R221, R225, R227, R237, R238 and the instruction chapters), and the legal scopes of R225.
Readings of the spec that this file follows: log entry 36. -/

namespace Sys2Proof

/-- What the fields of a format R or I instruction may hold. -/
structure RuleR where
  d     : Bool := true
  a     : Bool := true
  b     : Bool := false
  c     : Bool := false
  iform : Bool := false
  immA  : Bool := true
  tys   : List Ty
  round : Bool := false
  sat   : Bool := false
  ccw   : Bool := false
  set   : Bool := false

/-- MSEL and MNEG are zero on a mask-free instruction (R213), and LA is zero outside the list of R221. -/
def Hdr.ok (h : Hdr) (masked la : Bool) : Bool :=
  (masked || (h.msel == 0 && !h.mneg)) && (la || h.la == 0)

/-- The set-number bits of XT or IMM16 (R227): a number at SET scope, zero elsewhere. -/
def setBitsOk (h : Hdr) (set : Bool) (x : BitVec 16) : Bool :=
  if set && h.scp == .set then decide (x.toNat < 8) else x == 0

/-- Format R and I fields against their rule (R214 to R217, R69 to R71). -/
def FmtR.ok (h : Hdr) (f : FmtR) (k : RuleR) : Bool :=
  (k.d || f.d == .zero) && (k.c || f.c == .zero) &&
  (match f.b with
   | .op o => (k.a || f.a == .zero) && (k.b || o == .zero) && setBitsOk h k.set f.xt
   | .imm32 _ => k.iform && ((k.a && k.immA) || f.a == .zero) && f.c == .zero && !f.sat && f.xt == 0) &&
  k.tys.contains f.ty && (k.round || f.rm == .dyn) && (k.sat || !f.sat) && (k.ccw || !f.ccw)

def tyInt : List Ty := [.i32, .i64, .n32, .n64]
def tyB : List Ty := [.b32, .b64]
def tyNat : List Ty := [.n32, .n64]
def tyF : List Ty := [.f32, .f64, .f32x2, .h16x2, .bf16x2]
def tyF2 : List Ty := [.f32, .f64]

/-- What the fields of a format M instruction may hold (R278). -/
structure RuleM where
  d     : Bool := true
  a     : Bool := true
  b     : Bool := true
  off   : Bool := true
  szs   : List Size
  ords  : List MemOrder := [.weak]
  hint  : Bool := true
  space : List Space := [.global]

/-- Format M fields against their rule (R108, R237, R238, R278). -/
def FmtM.ok (f : FmtM) (k : RuleM) : Bool :=
  (k.d || f.d == .zero) && (k.a || f.a == .zero) && (k.b || f.b == .zero) && (k.off || f.off == 0) &&
  k.szs.contains f.sz && k.ords.contains f.ord && (k.hint || f.ch == .none) && k.space.contains f.space

def szLoad : List Size := [.b8, .b16, .b32, .b64, .b128, .i8, .i16]
def szStore : List Size := [.b8, .b16, .b32, .b64, .b128]
def ordLoad : List MemOrder := [.weak, .rlx, .acq]
def ordStore : List MemOrder := [.weak, .rlx, .rel]
def ordAny : List MemOrder := [.weak, .rlx, .acq, .rel, .acqRel]

/-- What the fields of a format T instruction may hold (R293, R298, R323). -/
structure RuleT where
  d   : Bool := false
  a   : Bool := false
  b   : Bool := false
  c   : Bool := false
  e   : Bool := false
  imm : BitVec 16 → Bool := fun x => x == 0

/-- Format T fields against their rule. -/
def FmtT.ok (f : FmtT) (k : RuleT) : Bool :=
  (k.d || f.d == .zero) && (k.a || f.a == .zero) && (k.b || f.b == .zero) && (k.c || f.c == .zero) &&
  (k.e || f.e == .zero) && k.imm f.imm

/-- The access size that R231 gives an atomic type. -/
def AtomTy.size : AtomTy → Size
  | .n64 | .i64 | .f64 => .b64
  | _ => .b32

/-- Whether an atomic type is a float type (R231). -/
def AtomTy.isFloat : AtomTy → Bool
  | .f32 | .f64 | .h16x2 | .bf16x2 => true
  | _ => false

/-- R231: the float types take add, min and max only, and exch only where the instruction allows it. -/
def atomFnOk (op : AtomOp) (ty : AtomTy) (exch : Bool) : Bool :=
  match op with
  | .add | .min | .max => true
  | .exch => exch && !ty.isFloat
  | _ => !ty.isFloat

/-- R273: the types of a reduction, and whether it rounds. -/
def redTys : RedOp → List Ty
  | .add | .min | .max => tyInt ++ tyF
  | _ => tyB ++ tyInt

def Ty.isFloat : Ty → Bool
  | .h16x2 | .bf16x2 | .f32 | .f64 | .f32x2 => true
  | _ => false

def redRounds (op : RedOp) (ty : Ty) : Bool := op == .add && ty.isFloat

/-- R266: the legal (source, destination) pairs of CVTF, CVTI and CVTN; the Bool says whether the pair rounds. -/
def cvtfPair : Ty → Ty → Option Bool
  | .f32, .f64 | .h16x2, .f32x2 | .bf16x2, .f32x2 => some false
  | .f64, .f32 | .f32x2, .h16x2 | .f32x2, .bf16x2 | .h16x2, .bf16x2 | .bf16x2, .h16x2 => some true
  | _, _ => none

def tyIntAny : List Ty := [.i8, .i16, .i32, .i64, .n8, .n16, .n32, .n64]

/-- R268: the legal (packed, unpacked) pairs of PACK and UNPK. -/
def packPair : Ty → Ty → Bool
  | .h16x2, .f32 | .bf16x2, .f32 | .l6x4, .n32 => true
  | _, _ => false

/-- The formats that the FN of TDEF, CTURN and TPOOL may name (R50: 0x6 and above reserved). -/
def Fmt.isTile (f : Fmt) : Bool := f != .i32

/-- R329: the type in IMM16[4:0] of GRED. -/
def gredTy (op : RedOp) (x : BitVec 16) : Bool :=
  if x.toNat < 32 then
    match codeToVal tyTab x.toNat with
    | some t => (tyInt ++ tyF2).contains t && (redTys op).contains t
    | none => false
  else false

/-- R342: bits [14:12] of a notifying IMM16 are zero, and all of IMM16 is zero without notification. -/
def notifyOk (x : BitVec 16) : Bool := if x.msb then (x.extractLsb' 12 3 == 0) else x == 0

/-- The fields of an encoded instruction hold only what R239 allows. An event's arguments are unrestricted here. -/
def Instr.fieldsOk : Instr → Bool
  | .nop => true
  | .bra h _ | .bcc h _ _ | .call h _ | .bind h _ | .calli h _ | .ret h | .regang h | .exit h | .yield h
  | .enter h _ | .leave h | .trap h _ | .rte h => h.ok false false
  | .bmz h _ | .bmnz h _ | .bkpt h => h.ok true false
  | .smov h _ f => h.ok false false && f.ok h { iform := true, immA := false, tys := [.b64], ccw := true, set := true }
  | .sadd h f | .ssub h f =>
      h.ok false false && f.ok h { b := true, iform := true, tys := tyInt, sat := true, ccw := true, set := true }
  | .smul h hi f => h.ok false false && f.ok h { b := true, iform := true, tys := tyInt, sat := !hi, ccw := true, set := true }
  | .smad h f => h.ok false false && f.ok h { b := true, c := true, tys := tyInt, sat := true, ccw := true, set := true }
  | .sdiv h f | .srem h f => h.ok false true && f.ok h { b := true, tys := tyInt, ccw := true, set := true }
  | .slop h _ f => h.ok false false && f.ok h { b := true, c := true, tys := tyB, ccw := true, set := true }
  | .sshf h _ f => h.ok false false && f.ok h { b := true, iform := true, tys := tyInt, ccw := true, set := true }
  | .scmp h f => h.ok false false && f.ok h { d := false, b := true, iform := true, tys := tyInt, set := true }
  | .ssel h _ f => h.ok false false && f.ok h { b := true, tys := [.b64], set := true }
  | .smin h f | .smax h f => h.ok false false && f.ok h { b := true, iform := true, tys := tyInt, ccw := true, set := true }
  | .sbit h _ f => h.ok false false && f.ok h { tys := tyNat, ccw := true, set := true }
  | .sfop h k f => h.ok false false && f.ok h
      { d := k != .cmp, b := k != .cvt, c := k == .fma, tys := tyF2, ccw := k != .cmp, set := true,
        round := !(k == .min || k == .max || k == .cmp) }
  | .sget h r f => h.ok true false && f.ok h { a := r == .setinfo, b := r == .setinfo, tys := [.b32], set := true }
  | .sset h _ f => h.ok false false && f.ok h { d := false, tys := [.b32], set := true }
  | .mop h k f => h.ok false false && f.ok h
      { b := k == .mand || k == .mor || k == .mxor, tys := [.b32], ccw := true, set := true }
  | .iadd h f | .isub h f => h.ok true false && f.ok h { b := true, iform := true, tys := tyInt, sat := true }
  | .imul h hi f => h.ok true false && f.ok h { b := true, iform := true, tys := tyInt, sat := !hi }
  | .imad h f => h.ok true false && f.ok h { b := true, c := true, tys := tyInt, sat := true }
  | .imin h f | .imax h f => h.ok true false && f.ok h { b := true, iform := true, tys := tyInt }
  | .iabs h f | .ineg h f => h.ok true false && f.ok h { tys := [.i32, .i64], sat := true }
  | .lop h _ f => h.ok true false && f.ok h { b := true, c := true, tys := tyB }
  | .shf h _ f => h.ok true false && f.ok h { b := true, iform := true, tys := tyInt ++ tyB }
  | .icmp h p f => h.ok true false && p != .ord && p != .uno && f.ok h { b := true, iform := true, tys := tyInt }
  | .sel h f => h.ok true false && f.ok h { b := true, c := true, tys := tyB }
  | .ibit h _ f => h.ok true false && f.ok h { tys := tyNat }
  | .bfx h k f => h.ok true false && f.ok h { b := k == .ins, c := true, tys := tyNat }
  | .lea h f => h.ok true false && f.ok h { b := true, c := true, tys := [.i64, .n64] }
  | .idiv h _ f => h.ok true true && f.ok h { b := true, tys := tyInt }
  | .idot h f => h.ok true false && f.ok h { b := true, c := true, tys := [.i32, .n32], sat := true }
  | .mov h f => h.ok true false && f.ok h { iform := true, immA := false, tys := tyInt ++ tyB ++ tyF2 }
  | .fadd h f | .fsub h f | .fmul h f => h.ok true false && f.ok h { b := true, iform := true, tys := tyF, round := true }
  | .fma h f | .fms h f | .fnma h f | .fnms h f => h.ok true false && f.ok h { b := true, c := true, tys := tyF, round := true }
  | .fmin h f | .fmax h f => h.ok true false && f.ok h { b := true, iform := true, tys := tyF }
  | .fsgn h k f => h.ok true false && f.ok h { b := k == .copysign, tys := tyF }
  | .fcmp h _ f => h.ok true false && f.ok h { b := true, tys := tyF2 }
  | .fclass h f => h.ok true false && f.ok h { tys := tyF2 }
  | .fdiv h f => h.ok true true && f.ok h { b := true, tys := tyF2, round := true }
  | .fsqrt h f | .frcp h f | .frsq h f => h.ok true true && f.ok h { tys := tyF2, round := true }
  | .fexp2 h f | .flog2 h f => h.ok true true && f.ok h { tys := [.f32], round := true }
  | .fscale h f => h.ok true false && f.ok h { b := true, tys := [.f32, .f64, .f32x2], round := true }
  | .frnd h f => h.ok true false && f.ok h { tys := [.f32, .f64, .f32x2], round := true }
  | .cvtf h src f => h.ok true false &&
      (match cvtfPair src f.ty with | some r => f.ok h { tys := [f.ty], round := r } | none => false)
  | .cvti h src f => h.ok true false && tyF2.contains src && f.ok h { tys := tyIntAny, round := true }
  | .cvtn h src f => h.ok true false && tyIntAny.contains src && f.ok h { tys := tyF2, round := true }
  | .cvtl h _ f => h.ok true false && f.ok h { b := true, tys := [.f32] }
  | .pack h src f => h.ok true false && packPair f.ty src &&
      f.ok h { b := true, c := f.ty == .l6x4, tys := [f.ty], round := f.ty != .l6x4 }
  | .unpk h elt f => h.ok true false && packPair f.ty elt && f.ok h { b := true, tys := [f.ty] }
  | .shfl h _ f => h.ok true true && f.ok h { b := true, tys := tyB, set := true }
  | .bcast h f => h.ok true false && f.ok h { b := true, tys := tyB, set := true }
  | .xvote h _ f => h.ok true true && f.ok h { tys := tyB, set := true }
  | .xred h op f => h.ok true true && f.ok h { tys := redTys op, round := redRounds op f.ty, set := true }
  | .xscan h op _ f => h.ok true true && f.ok h { tys := redTys op, round := redRounds op f.ty, set := true }
  | .confl h f | .cmprs h f | .expnd h f => h.ok true false && f.ok h { tys := tyB }
  | .xmov h f => h.ok true false && f.ok h { b := true, tys := tyB, set := true }
  | .setdecl h f => h.ok false false && f.ok { a := true, b := true, imm := fun x => decide (x.toNat < 8) }
  | .ld h f => h.ok true true && f.ok { szs := szLoad, ords := ordLoad }
  | .st h f => h.ok true false && f.ok { szs := szStore, ords := ordStore }
  | .lds h f => h.ok true true && f.ok { szs := szLoad, ords := ordLoad, space := [.spad] }
  | .sts h f => h.ok true false && f.ok { szs := szStore, ords := ordStore, space := [.spad] }
  | .ldu h f => h.ok false true && f.ok { szs := szLoad, ords := ordLoad, space := [.global, .spad] }
  | .stu h f => h.ok false false && f.ok { szs := szStore, ords := ordStore, space := [.global, .spad] }
  | .ldl h f => h.ok true true && f.ok { szs := szLoad, hint := false, space := [.stack] }
  | .stl h f => h.ok true false && f.ok { szs := szStore, hint := false, space := [.stack] }
  | .stash h _ f => h.ok false false && f.ok { szs := [.b8], ords := ordStore }
  | .pld h _ f => h.ok true false && f.ok { d := false, szs := szStore }
  | .fence h f => h.ok false false &&
      f.ok { d := false, a := false, b := false, off := false, szs := [.b8], ords := [.acq, .rel, .acqRel], hint := false }
  | .cmaint h all f => h.ok true false && f.ok { d := false, a := !all, b := !all, off := !all, szs := [.b8] }
  | .atom h op ty f => h.ok true true && atomFnOk op ty true && f.ok { szs := [ty.size], ords := ordAny, hint := false }
  | .acas h ty f => h.ok true true && !ty.isFloat && f.ok { szs := [ty.size], ords := ordAny, hint := false }
  | .mred h op ty f => h.ok true false && atomFnOk op ty false &&
      f.ok { d := false, szs := [ty.size], ords := ordAny, hint := false }
  | .atoms h op ty f => h.ok true true && atomFnOk op ty true &&
      f.ok { szs := [ty.size], ords := ordAny, hint := false, space := [.spad] }
  | .acass h ty f => h.ok true true && !ty.isFloat &&
      f.ok { szs := [ty.size], ords := ordAny, hint := false, space := [.spad] }
  | .copy h _ _ yld f => h.ok false false &&
      f.ok { d := true, a := true, b := true, c := !yld, e := true, imm := fun x => yld || x == 0 }
  | .gather h f | .scatter h _ f => h.ok false false && f.ok { d := true, a := true, b := true, c := true, e := true }
  | .abinit h f | .abexp h f => h.ok false false && f.ok { a := true, b := true }
  | .abarr h f => h.ok false false && f.ok { a := true }
  | .abwait h f | .abtest h f => h.ok false false && f.ok { d := true, a := true, b := true }
  | .wapp h f => h.ok true false && f.ok { a := true, b := true }
  | .wpop h _ f => h.ok false false && f.ok { d := true, a := true }
  | .tdef h kind fmt f => h.ok false false && fmt.isTile &&
      f.ok { d := true, a := kind == .dense, b := kind == .dense && fmt == .l6 }
  | .tldr h f | .tstr h f => h.ok false false && f.ok { d := true, a := true, c := true, imm := fun _ => true }
  | .tget h _ f => h.ok false true && f.ok { d := true, a := true }
  | .mma h f => h.ok true false && f.ok { d := true, a := true, b := true, c := true, imm := fun x => setBitsOk h true x }
  | .tmul h f | .tadd h f | .tscl h f => h.ok false false && f.ok { d := true, a := true, b := true }
  | .tmv h f => h.ok true false && f.ok { d := true, a := true, b := true }
  | .accrd h _ f => h.ok true true && f.ok { d := true, a := true }
  | .accwr h _ f => h.ok true false && f.ok { d := true, a := true }
  | .accz h f | .accrel h f | .mbatch h f | .tzero h f | .tfree h f => h.ok false false && f.ok { d := true }
  | .mwait h f => h.ok false false && f.ok { a := true }
  | .cturn h fmt _ f => h.ok true false && fmt.isTile &&
      f.ok { d := true, a := true, b := (match f.d with | .s _ => false | _ => true), imm := fun _ => true }
  | .trnd h _ f => h.ok false false && f.ok { d := true, b := true }
  | .tdense h f | .ttrn h f => h.ok false false && f.ok { d := true, a := true }
  | .tnorm h f => h.ok false true && f.ok { d := true, a := true }
  | .tpool h fmt f => h.ok false false && fmt.isTile && f.ok { a := true, b := true }
  | .bar h f => h.ok false false && f.ok { imm := fun x => setBitsOk h true x }
  | .gnew h f => h.ok false false && f.ok { d := true, imm := fun x => setBitsOk h true x }
  | .gjoin h f => h.ok false false &&
      f.ok { d := true, a := true, b := f.imm == 1, imm := fun x => decide (x.toNat < 2) }
  | .gleave h f => h.ok false false && f.ok { a := true }
  | .gbar h f => h.ok false false && f.ok { d := true, a := true }
  | .gvote h _ f => h.ok false true && f.ok { d := true, a := true, b := true }
  | .gred h op f => h.ok false true && f.ok { d := true, a := true, b := true, imm := gredTy op }
  | .greset h f => h.ok false false && f.ok { d := true }
  | .ginfo h f => h.ok false false && f.ok { d := true, a := true, b := true }
  | .qdef h f => h.ok false false &&
      f.ok { d := true, a := true, b := true, c := true, imm := fun x => decide (x.toNat < 32) }
  | .qpush h _ f => h.ok false false && f.ok { a := true, imm := fun x => decide (x.toNat < 32) }
  | .qpop h _ f => h.ok false false && f.ok { d := true, imm := fun x => decide (x.toNat < 32) }
  | .sleep h f => h.ok false false && f.ok { a := true }
  | .coll h op red f => h.ok false false && f.ok { d := true, a := true, b := true, c := true, e := true } &&
      (match op with
       | .allreduce | .redscat => red == .add || red == .min || red == .max
       | _ => red == .add)
  | .xput h f => h.ok false false && f.ok { d := true, a := true, b := true, c := true, e := true, imm := notifyOk }
  | .xget h f => h.ok false false && f.ok { d := true, a := true, b := true, c := true, e := true }
  | .trigarm h f => h.ok false false && f.ok { a := true, b := true }
  | .trigcnt h f => h.ok false false && f.ok { d := true, a := true, b := true, imm := fun x => decide (x.toNat < 2) }
  | .trigdis h f => h.ok false false && f.ok { d := true, a := true }
  | .launch h f | .cjoin h f => h.ok false false && f.ok { d := true, a := true }
  | .spanmap h f => h.ok false false && f.ok { a := true, b := true, c := true }
  | .spanst h f => h.ok false false && f.ok { d := true, b := true }
  | .labort h f => h.ok false false && f.ok { a := true }
  | .trq h drop f => h.ok false false && f.ok h { d := !drop, b := !drop, tys := [.b32] }
  | .perf h _ f => h.ok false false && f.ok h { a := false, tys := [.b32] }
  | _ => true

/-- The major opcodes that carry the I form or the R form by the B operand; everything else has one form. -/
def Instr.iformSet : Instr → Bool
  | .smov h _ f | .sadd h f | .ssub h f | .smul h _ f | .sshf h _ f | .scmp h f | .smin h f | .smax h f =>
      h.scp == .set && (match f.b with | .imm32 _ => true | .op _ => false)
  | _ => false

/-- The scopes that the map of R225 allows a major opcode; an I-form instruction is not legal at SET scope (R226). -/
def scopesL : List Scope := [.lane]
def scopesG : List Scope := [.gang]
def scopesGST : List Scope := [.gang, .set, .team]

end Sys2Proof
end

