-- ==== Sys2Proof/WellFormed.lean ====
section
/-! DEFINITION. What makes a term of `Instr` an instruction of the manual: its fields pass every illegal-instruction
check of R239 (Machine/Legal.lean holds the table), and an event names a part that the device has. -/

namespace Sys2Proof

/-- The bounds of an event's arguments: wings, cores, ports, ranks, slots and queues of R1, R387, R411, R412; 16-bit ASIDs. -/
def Instr.eventOk : Instr → Bool
  | .pageFaultResolved c _ _ | .wappLand c _ | .quiescenceDone c | .dispatch c _ | .ckpt c _ | .recompute c _
  | .replayNext c | .ctxLoad c | .ctxSave c | .ctxSaveDone c | .ctxResume c | .ctxKill c | .ctxUnload c | .ctxUpool c
  | .bncrp c _ | .triggerActionComplete c _ _ => decide (c < 256)
  | .xputReceive a _ _ _ | .xgetRequest a _ _ | .remoteLineRequest a _ _ => decide (a < 65536)
  | .chunkArrival c => decide (c.ctx < 65536) && decide (c.group < 64)
  | .qrsv s q | .qdb s q | .queuePollTimer s q | .qreset s q _ | .cstopClear s q => decide (s < 256) && decide (q < 64)
  | .trgownWrite w i _ => decide (w < 4) && decide (i < 256)
  | .ctrownWrite w i _ => decide (w < 4) && decide (i < 1024)
  | .wingDrain w | .wingDrained w | .wingReset w | .wingResetDone w | .wingOnline w => decide (w < 4)
  | .retrain p | .retrainDone p | .spanctlDisable p _ => decide (p < 16)
  | .corectlDis c _ | .thermalSample c _ | .droopFlag c _ | .droopHoldExpiry c | .teamPlace _ _ c | .teamRestore _ c =>
      decide (c < 640)
  | .peerDeadTimeout r | .spanrjGo r _ | .idleFlit r => decide (r < 256)
  | _ => true

/-- Whether an instruction is encoded in a slot (R225), or is an event. -/
def Instr.isEvent : Instr → Bool
  | .handlerEntry .. | .pageFaultResolved .. | .wappLand .. | .quiescenceDone .. | .matrixOpComplete .. | .sleepExpiry ..
  | .collStagingGrant .. | .chunkArrival .. | .collTimeout .. | .xputReceive .. | .xgetRequest ..
  | .triggerActionComplete .. | .engineLand .. | .engineArrival .. | .fixupReplay .. | .copyYieldResume .. | .dispatch ..
  | .teamPlace .. | .teamRetire .. | .launchCommit .. | .poolFull .. | .irrevocablePublish .. | .prqDeadline ..
  | .saveDrainTimeout .. | .parkPreempt .. | .teamRestore .. | .hdmRead .. | .hdmWrite .. | .qrsv .. | .qdb ..
  | .queuePollTimer .. | .qreset .. | .ckpt .. | .recompute .. | .replayNext .. | .registerWrite .. | .ctxLoad ..
  | .ctxSave .. | .ctxSaveDone .. | .ctxResume .. | .ctxKill .. | .ctxUnload .. | .ctxUpool .. | .tlbMark ..
  | .tlbMarkDrained | .tlbConfirm .. | .bncrp .. | .trgownWrite .. | .ctrownWrite .. | .wingDrain .. | .wingDrained ..
  | .wingReset .. | .wingResetDone .. | .wingOnline .. | .rowretGo .. | .rowCopyDone | .retrain .. | .retrainDone ..
  | .spanctlDisable .. | .corectlDis .. | .peerDeadTimeout .. | .livenessFlood .. | .spanrjGo .. | .modeWrite ..
  | .eccChangeDone | .clockCapChange | .thermalSample .. | .droopFlag .. | .droopHoldExpiry .. | .powerOn | .deviceReset
  | .bootctlGo | .bootImageLoaded .. | .getVersion .. | .getCapabilities .. | .negotiateAlgorithms .. | .getDigests ..
  | .getCertificate .. | .challenge .. | .getMeasurements .. | .signTokenRefill | .longLatencyResult ..
  | .remoteLineRequest .. | .idleFlit .. | .powerLoss | .cstopClear .. => true
  | _ => false

/-- Well-formedness: R239 on an encoded instruction, the bounds of its arguments on an event. -/
def Instr.WellFormed (i : Instr) : Bool := i.fieldsOk && i.eventOk

end Sys2Proof
end

