-- ==== Sys2Proof/Decode.lean ====
section
/-! DEFINITION. The decoder of a 96-bit slot, total on any word and rejecting what R239 calls an illegal instruction,
and the encoder written from the same tables (R204, R213 to R219, R225 to R239). -/

namespace Sys2Proof

/-- Fields of given widths laid side by side, the first at the least significant end. -/
def packFields : List (Nat × Nat) → Nat
  | [] => 0
  | (w, v) :: r => v % 2 ^ w + 2 ^ w * packFields r

/-- The fields of a word, by their widths. -/
def unpackFields : List Nat → Nat → List Nat
  | [], _ => []
  | w :: ws, n => n % 2 ^ w :: unpackFields ws (n / 2 ^ w)

/-- R213: OPC, SCP, LA, MSEL, MNEG. -/
def layoutH : List Nat := [8, 2, 4, 3, 1]
/-- R214, format R: D, A, B, C, TY, RM, SAT, CCW, FN, XT. -/
def layoutR : List Nat := layoutH ++ [11, 11, 11, 11, 5, 3, 1, 1, 8, 16]
/-- R214, format I: D, A, FN, TY, RM, CCW, IF, reserved, IMM32. -/
def layoutI : List Nat := layoutH ++ [11, 11, 8, 5, 3, 1, 1, 6, 32]
/-- R214, format M: D, A, B, SZ, ORD, VIS, CH, SPACE, FN, OFF24. -/
def layoutM : List Nat := layoutH ++ [11, 11, 11, 4, 3, 2, 2, 2, 8, 24]
/-- R214, format B: COND, reserved, A, reserved, DISP32. -/
def layoutB : List Nat := layoutH ++ [6, 5, 11, 24, 32]
/-- R214, format T: D, A, B, C, FN, E, IMM16. -/
def layoutT : List Nat := layoutH ++ [11, 11, 11, 11, 8, 10, 16]

/-- A slot with its fields read, before the opcode map gives it a meaning. -/
inductive RawWord where
  | r (opc fn : Nat) (h : Hdr) (f : FmtR)
  | i (opc : Nat) (h : Hdr) (imm : W32)
  | m (opc fn : Nat) (h : Hdr) (f : FmtM)
  | b (opc cond : Nat) (h : Hdr) (a : Operand) (disp : W32)
  | t (opc fn : Nat) (h : Hdr) (f : FmtT)
  deriving DecidableEq, Repr

/-- The header fields of a word. -/
def Hdr.fields (opc : Nat) (h : Hdr) : List (Nat × Nat) :=
  [(8, opc), (2, valToCode scopeTab h.scp), (4, h.la.toNat), (3, h.msel.toNat), (1, h.mneg.toNat)]

/-- The header that the fields of a word give. -/
def Hdr.ofFields (scp la msel mneg : Nat) : Option Hdr :=
  (codeToVal scopeTab scp).map fun s => { scp := s, la := BitVec.ofNat 4 la, msel := BitVec.ofNat 3 msel, mneg := mneg == 1 }

/-- The word of a raw instruction (R214, R215). -/
def RawWord.pack : RawWord → Nat
  | .r opc fn h f =>
    match f.b with
    | .op o => packFields (h.fields opc ++
        [(11, f.d.code), (11, f.a.code), (11, o.code), (11, f.c.code), (5, valToCode tyTab f.ty), (3, valToCode rmTab f.rm),
         (1, f.sat.toNat), (1, f.ccw.toNat), (8, fn), (16, f.xt.toNat)])
    | .imm32 v => packFields (h.fields opc ++
        [(11, f.d.code), (11, f.a.code), (8, fn), (5, valToCode tyTab f.ty), (3, valToCode rmTab f.rm), (1, f.ccw.toNat),
         (1, 1), (6, 0), (32, v.toNat)])
  | .i opc h imm => packFields (h.fields opc ++
      [(11, 0), (11, 0), (8, 0), (5, 0), (3, 7), (1, 0), (1, 0), (6, 0), (32, imm.toNat)])
  | .m opc fn h f => packFields (h.fields opc ++
      [(11, f.d.code), (11, f.a.code), (11, f.b.code), (4, valToCode sizeTab f.sz), (3, valToCode ordTab f.ord),
       (2, valToCode visTab f.vis), (2, valToCode hintTab f.ch), (2, valToCode spaceTab f.space), (8, fn), (24, f.off.toNat)])
  | .b opc cond h a disp => packFields (h.fields opc ++ [(6, cond), (5, 0), (11, a.code), (24, 0), (32, disp.toNat)])
  | .t opc fn h f => packFields (h.fields opc ++
      [(11, f.d.code), (11, f.a.code), (11, f.b.code), (11, f.c.code), (8, fn), (10, f.e.code), (16, f.imm.toNat)])

/-- The format of a major opcode by the map of R225; `ri` has both forms (R215). -/
inductive OpFormat where
  | r | ri | i | m | b | t
  deriving DecidableEq, Repr

/-- R225. -/
def opFormat (opc : Nat) : Option OpFormat :=
  if opc == 0x0C || opc == 0x0F then some .i
  else if opc < 0x10 || opc == 0xF0 then some .b
  else if [0x10, 0x11, 0x12, 0x13, 0x17, 0x18, 0x1A, 0x20, 0x21, 0x22, 0x24, 0x27, 0x28, 0x2F, 0x40, 0x41, 0x42, 0x44].contains opc
    then some .ri
  else if opc < 0x30 || (0x40 ≤ opc && opc < 0x50) || (0x60 ≤ opc && opc < 0x66) || (0x70 ≤ opc && opc < 0x79)
    || opc == 0xF1 || opc == 0xF2 then some .r
  else if (0x80 ≤ opc && opc < 0x8C) || (0x90 ≤ opc && opc < 0x95) then some .m
  else if opc == 0x79 || (0xA0 ≤ opc && opc < 0xAA) || (0xB0 ≤ opc && opc < 0xBE) || (0xC0 ≤ opc && opc < 0xC9)
    || (0xD0 ≤ opc && opc < 0xDD) || (0xE0 ≤ opc && opc < 0xEB) then some .t
  else none

/-- The R form of a word. -/
def unpackR (w : Nat) : Option RawWord :=
  match unpackFields layoutR w with
  | [opc, scp, la, msel, mneg, d, a, b, c, ty, rm, sat, ccw, fn, xt] => do
    let h ← Hdr.ofFields scp la msel mneg
    let d ← Operand.ofCode d
    let a ← Operand.ofCode a
    let b ← Operand.ofCode b
    let c ← Operand.ofCode c
    let ty ← codeToVal tyTab ty
    let rm ← codeToVal rmTab rm
    some (.r opc fn h { d := d, a := a, b := .op b, c := c, ty := ty, rm := rm, sat := sat == 1, ccw := ccw == 1,
                        xt := BitVec.ofNat 16 xt })
  | _ => none

/-- The I form of a word of an opcode that has both forms; the reserved field must be zero. -/
def unpackI (w : Nat) : Option RawWord :=
  match unpackFields layoutI w with
  | [opc, scp, la, msel, mneg, d, a, fn, ty, rm, ccw, _, res, imm] => do
    let h ← Hdr.ofFields scp la msel mneg
    let d ← Operand.ofCode d
    let a ← Operand.ofCode a
    let ty ← codeToVal tyTab ty
    let rm ← codeToVal rmTab rm
    if res == 0 then
      some (.r opc fn h { d := d, a := a, b := .imm32 (BitVec.ofNat 32 imm), c := .v 0, ty := ty, rm := rm, sat := false,
                          ccw := ccw == 1, xt := 0 })
    else none
  | _ => none

/-- A word of ENTER or TRAP, which have the I form only (R215, R244, R245). -/
def unpackIOnly (w : Nat) : Option RawWord :=
  match unpackFields layoutI w with
  | [opc, scp, la, msel, mneg, d, a, fn, ty, rm, ccw, ib, res, imm] => do
    let h ← Hdr.ofFields scp la msel mneg
    if d == 0 && a == 0 && fn == 0 && ty == 0 && rm == 7 && ccw == 0 && ib == 0 && res == 0 then
      some (.i opc h (BitVec.ofNat 32 imm))
    else none
  | _ => none

/-- A word of format M. -/
def unpackM (w : Nat) : Option RawWord :=
  match unpackFields layoutM w with
  | [opc, scp, la, msel, mneg, d, a, b, sz, ord, vis, ch, space, fn, off] => do
    let h ← Hdr.ofFields scp la msel mneg
    let d ← Operand.ofCode d
    let a ← Operand.ofCode a
    let b ← Operand.ofCode b
    let sz ← codeToVal sizeTab sz
    let ord ← codeToVal ordTab ord
    let vis ← codeToVal visTab vis
    let ch ← codeToVal hintTab ch
    let space ← codeToVal spaceTab space
    some (.m opc fn h { d := d, a := a, b := b, sz := sz, ord := ord, vis := vis, ch := ch, space := space,
                        off := BitVec.ofNat 24 off })
  | _ => none

/-- A word of format B. -/
def unpackB (w : Nat) : Option RawWord :=
  match unpackFields layoutB w with
  | [opc, scp, la, msel, mneg, cond, r1, a, r2, disp] => do
    let h ← Hdr.ofFields scp la msel mneg
    let a ← Operand.ofCode a
    if r1 == 0 && r2 == 0 then some (.b opc cond h a (BitVec.ofNat 32 disp)) else none
  | _ => none

/-- A word of format T. -/
def unpackT (w : Nat) : Option RawWord :=
  match unpackFields layoutT w with
  | [opc, scp, la, msel, mneg, d, a, b, c, fn, e, imm] => do
    let h ← Hdr.ofFields scp la msel mneg
    let d ← Operand.ofCode d
    let a ← Operand.ofCode a
    let b ← Operand.ofCode b
    let c ← Operand.ofCode c
    let e ← ExtOperand.ofCode e
    some (.t opc fn h { d := d, a := a, b := b, c := c, e := e, imm := BitVec.ofNat 16 imm })
  | _ => none

/-- The raw fields of a slot word, by the format of its opcode; bit 57 selects the I form (R215). -/
def unpackSlot (w : Nat) : Option RawWord :=
  match opFormat (w % 256) with
  | some .r => unpackR w
  | some .ri => if (w / 2 ^ 57) % 2 == 1 then unpackI w else unpackR w
  | some .i => unpackIOnly w
  | some .m => unpackM w
  | some .b => unpackB w
  | some .t => unpackT w
  | none => none

/-- A function code that must be zero. -/
def fnZero (fn : Nat) (i : Instr) : Option Instr := if fn == 0 then some i else none

/-- A function code of one bit. -/
def fnBool (fn : Nat) (k : Bool → Instr) : Option Instr :=
  if fn == 0 then some (k false) else if fn == 1 then some (k true) else none

/-- A function code read by a table. -/
def fnTab {α : Type} (tab : List (Nat × α)) (fn : Nat) (k : α → Instr) : Option Instr := (codeToVal tab fn).map k

/-- R231: operation and type of an atomic. -/
def fnAtom (fn : Nat) (k : AtomOp → AtomTy → Instr) : Option Instr := do
  let op ← codeToVal atomTab (fn % 16)
  let ty ← codeToVal atomTyTab (fn / 16)
  some (k op ty)

/-- R231: ACAS and ACASS carry operation code 0. -/
def fnCas (fn : Nat) (k : AtomTy → Instr) : Option Instr :=
  if fn % 16 == 0 then (codeToVal atomTyTab (fn / 16)).map k else none

/-- The instruction that the opcode map of R225 gives a raw word, before the checks of R239 on its fields. -/
def RawWord.toInstr : RawWord → Option Instr
  | .r opc fn h f =>
    match opc with
    | 0x10 => fnBool fn (fun k => .smov h k f)
    | 0x11 => fnZero fn (.sadd h f)
    | 0x12 => fnZero fn (.ssub h f)
    | 0x13 => fnBool fn (fun k => .smul h k f)
    | 0x14 => fnZero fn (.smad h f)
    | 0x15 => if fn == 0 then some (.sdiv h f) else if fn == 1 then some (.srem h f) else none
    | 0x16 => some (.slop h (BitVec.ofNat 8 fn) f)
    | 0x17 => fnTab shiftTab fn (fun k => .sshf h k f)
    | 0x18 => fnZero fn (.scmp h f)
    | 0x19 => fnTab condTab fn (fun k => .ssel h k f)
    | 0x1A => if fn == 0 then some (.smin h f) else if fn == 1 then some (.smax h f) else none
    | 0x1B => fnTab bitTab fn (fun k => .sbit h k f)
    | 0x1C => fnTab sfopTab fn (fun k => .sfop h k f)
    | 0x1D => fnTab sregTab fn (fun k => .sget h k f)
    | 0x1E => fnTab sregTab fn (fun k => .sset h k f)
    | 0x1F => fnTab mopTab fn (fun k => .mop h k f)
    | 0x20 => fnZero fn (.iadd h f)
    | 0x21 => fnZero fn (.isub h f)
    | 0x22 => fnBool fn (fun k => .imul h k f)
    | 0x23 => fnZero fn (.imad h f)
    | 0x24 => if fn == 0 then some (.imin h f) else if fn == 1 then some (.imax h f) else none
    | 0x25 => if fn == 0 then some (.iabs h f) else if fn == 1 then some (.ineg h f) else none
    | 0x26 => some (.lop h (BitVec.ofNat 8 fn) f)
    | 0x27 => fnTab shiftTab fn (fun k => .shf h k f)
    | 0x28 => fnTab cmpTab fn (fun k => .icmp h k f)
    | 0x29 => fnZero fn (.sel h f)
    | 0x2A => fnTab bitTab fn (fun k => .ibit h k f)
    | 0x2B => fnTab bfxTab fn (fun k => .bfx h k f)
    | 0x2C => fnZero fn (.lea h f)
    | 0x2D => fnBool fn (fun k => .idiv h k f)
    | 0x2E => fnZero fn (.idot h f)
    | 0x2F => fnZero fn (.mov h f)
    | 0x40 => fnZero fn (.fadd h f)
    | 0x41 => fnZero fn (.fsub h f)
    | 0x42 => fnZero fn (.fmul h f)
    | 0x43 => if fn == 0 then some (.fma h f) else if fn == 1 then some (.fms h f) else if fn == 2 then some (.fnma h f) else if fn == 3 then some (.fnms h f) else none
    | 0x44 => if fn == 0 then some (.fmin h f) else if fn == 1 then some (.fmax h f) else none
    | 0x45 => fnTab sgnTab fn (fun k => .fsgn h k f)
    | 0x46 => fnTab cmpTab fn (fun k => .fcmp h k f)
    | 0x47 => fnZero fn (.fclass h f)
    | 0x48 => fnZero fn (.fdiv h f)
    | 0x49 => fnZero fn (.fsqrt h f)
    | 0x4A => fnZero fn (.frcp h f)
    | 0x4B => fnZero fn (.frsq h f)
    | 0x4C => fnZero fn (.fexp2 h f)
    | 0x4D => fnZero fn (.flog2 h f)
    | 0x4E => fnZero fn (.fscale h f)
    | 0x4F => fnZero fn (.frnd h f)
    | 0x60 => fnTab tyTab fn (fun k => .cvtf h k f)
    | 0x61 => fnTab tyTab fn (fun k => .cvti h k f)
    | 0x62 => fnTab tyTab fn (fun k => .cvtn h k f)
    | 0x63 => fnBool fn (fun k => .cvtl h k f)
    | 0x64 => fnTab tyTab fn (fun k => .pack h k f)
    | 0x65 => fnTab tyTab fn (fun k => .unpk h k f)
    | 0x70 => fnTab shflTab fn (fun k => .shfl h k f)
    | 0x71 => fnZero fn (.bcast h f)
    | 0x72 => fnTab voteTab fn (fun k => .xvote h k f)
    | 0x73 => fnTab redTab fn (fun k => .xred h k f)
    | 0x74 => if fn < 16 then (codeToVal redTab (fn % 8)).map (fun op => .xscan h op (fn / 8 == 1) f) else none
    | 0x75 => fnZero fn (.confl h f)
    | 0x76 => fnZero fn (.cmprs h f)
    | 0x77 => fnZero fn (.expnd h f)
    | 0x78 => fnZero fn (.xmov h f)
    | 0xF1 => fnBool fn (fun k => .trq h k f)
    | 0xF2 => fnTab perfTab fn (fun k => .perf h k f)
    | _ => none
  | .i opc h imm => if opc == 0x0C then some (.enter h imm) else if opc == 0x0F then some (.trap h imm) else none
  | .m opc fn h f =>
    match opc with
    | 0x80 => fnZero fn (.ld h f)
    | 0x81 => fnZero fn (.st h f)
    | 0x82 => fnZero fn (.lds h f)
    | 0x83 => fnZero fn (.sts h f)
    | 0x84 => fnZero fn (.ldu h f)
    | 0x85 => fnZero fn (.stu h f)
    | 0x86 => fnZero fn (.ldl h f)
    | 0x87 => fnZero fn (.stl h f)
    | 0x88 => fnTab fmtTab fn (fun k => .stash h k f)
    | 0x89 => fnBool fn (fun k => .pld h k f)
    | 0x8A => fnZero fn (.fence h f)
    | 0x8B => fnBool fn (fun k => .cmaint h k f)
    | 0x90 => fnAtom fn (fun op ty => .atom h op ty f)
    | 0x91 => fnCas fn (fun ty => .acas h ty f)
    | 0x92 => fnAtom fn (fun op ty => .mred h op ty f)
    | 0x93 => fnAtom fn (fun op ty => .atoms h op ty f)
    | 0x94 => fnCas fn (fun ty => .acass h ty f)
    | _ => none
  | .b opc cond h a disp =>
    match opc with
    | 0x00 => if cond == 0 && h == { scp := .lane, la := 0, msel := 0, mneg := false } && a == .zero && disp == 0 then some .nop else none
    | 0x01 => if cond == 0 && a == .zero then some (.bra h disp) else none
    | 0x02 => if a == .zero then (codeToVal condTab cond).map (fun c => .bcc h c disp) else none
    | 0x03 => if cond == 0 && a == .zero then some (.bmz h disp) else none
    | 0x04 => if cond == 0 && a == .zero then some (.bmnz h disp) else none
    | 0x05 => if cond == 0 && disp == 0 then some (.bind h a) else none
    | 0x06 => if cond == 0 && a == .zero then some (.call h disp) else none
    | 0x07 => if cond == 0 && disp == 0 then some (.calli h a) else none
    | 0x08 => if cond == 0 && a == .zero && disp == 0 then some (.ret h) else none
    | 0x09 => if cond == 0 && a == .zero && disp == 0 then some (.regang h) else none
    | 0x0A => if cond == 0 && a == .zero && disp == 0 then some (.exit h) else none
    | 0x0B => if cond == 0 && a == .zero && disp == 0 then some (.yield h) else none
    | 0x0D => if cond == 0 && a == .zero && disp == 0 then some (.leave h) else none
    | 0x0E => if cond == 0 && a == .zero && disp == 0 then some (.bkpt h) else none
    | 0xF0 => if cond == 0 && a == .zero && disp == 0 then some (.rte h) else none
    | _ => none
  | .t opc fn h f =>
    match opc with
    | 0x79 => fnZero fn (.setdecl h f)
    | 0xA0 => if fn < 16 then (codeToVal shapeTab (fn % 4)).map (fun s => .copy h s (fn / 4 % 2 == 1) (fn / 8 == 1) f) else none
    | 0xA1 => fnZero fn (.gather h f)
    | 0xA2 => fnTab scatterTab fn (fun k => .scatter h k f)
    | 0xA3 => fnZero fn (.abinit h f)
    | 0xA4 => fnZero fn (.abarr h f)
    | 0xA5 => fnZero fn (.abwait h f)
    | 0xA6 => fnZero fn (.abexp h f)
    | 0xA7 => fnZero fn (.abtest h f)
    | 0xA8 => fnZero fn (.wapp h f)
    | 0xA9 => fnBool fn (fun k => .wpop h k f)
    | 0xB0 => do
      let kind ← codeToVal tdefTab (fn / 16)
      let fmt ← codeToVal fmtTab (fn % 16)
      some (.tdef h kind fmt f)
    | 0xB1 => fnZero fn (.tldr h f)
    | 0xB2 => fnZero fn (.tstr h f)
    | 0xB3 => fnTab tgetTab fn (fun k => .tget h k f)
    | 0xB4 => fnZero fn (.mma h f)
    | 0xB5 => fnZero fn (.tmul h f)
    | 0xB6 => fnTab fmtTab fn (fun k => .accrd h k f)
    | 0xB7 => fnTab fmtTab fn (fun k => .accwr h k f)
    | 0xB8 => fnZero fn (.accz h f)
    | 0xB9 => fnZero fn (.accrel h f)
    | 0xBA => fnZero fn (.mbatch h f)
    | 0xBB => fnZero fn (.mwait h f)
    | 0xBC => if fn < 32 then (codeToVal fmtTab (fn % 16)).map (fun fmt => .cturn h fmt (fn / 16 == 1) f) else none
    | 0xBD => fnZero fn (.tmv h f)
    | 0xC0 => fnZero fn (.tadd h f)
    | 0xC1 => fnZero fn (.tscl h f)
    | 0xC2 => fnBool fn (fun k => .trnd h k f)
    | 0xC3 => fnZero fn (.tdense h f)
    | 0xC4 => fnZero fn (.tzero h f)
    | 0xC5 => fnZero fn (.tnorm h f)
    | 0xC6 => fnTab fmtTab fn (fun k => .tpool h k f)
    | 0xC7 => fnZero fn (.tfree h f)
    | 0xC8 => fnZero fn (.ttrn h f)
    | 0xD0 => fnZero fn (.bar h f)
    | 0xD1 => fnZero fn (.gnew h f)
    | 0xD2 => fnZero fn (.gjoin h f)
    | 0xD3 => fnZero fn (.gleave h f)
    | 0xD4 => fnZero fn (.gbar h f)
    | 0xD5 => fnBool fn (fun k => .gvote h k f)
    | 0xD6 => fnTab redTab fn (fun k => .gred h k f)
    | 0xD7 => fnZero fn (.greset h f)
    | 0xD8 => fnZero fn (.ginfo h f)
    | 0xD9 => fnZero fn (.qdef h f)
    | 0xDA => fnBool fn (fun k => .qpush h k f)
    | 0xDB => fnBool fn (fun k => .qpop h k f)
    | 0xDC => fnZero fn (.sleep h f)
    | 0xE0 => do
      let op ← codeToVal collTab (fn % 8)
      let red ← codeToVal redTab (fn / 8)
      some (.coll h op red f)
    | 0xE1 => fnZero fn (.xput h f)
    | 0xE2 => fnZero fn (.xget h f)
    | 0xE3 => fnZero fn (.trigarm h f)
    | 0xE4 => fnZero fn (.trigcnt h f)
    | 0xE5 => fnZero fn (.trigdis h f)
    | 0xE6 => fnZero fn (.launch h f)
    | 0xE7 => fnZero fn (.cjoin h f)
    | 0xE8 => fnZero fn (.spanmap h f)
    | 0xE9 => fnZero fn (.spanst h f)
    | 0xEA => fnZero fn (.labort h f)
    | _ => none

/-- The raw word of an encoded instruction; an event has none. -/
def Instr.toRaw : Instr → Option RawWord
  | .nop => some (.b 0x00 0 { scp := .lane, la := 0, msel := 0, mneg := false } .zero 0)
  | .bra h disp => some (.b 0x01 0 h .zero disp)
  | .bcc h c disp => some (.b 0x02 (valToCode condTab c) h .zero disp)
  | .bmz h disp => some (.b 0x03 0 h .zero disp)
  | .bmnz h disp => some (.b 0x04 0 h .zero disp)
  | .bind h a => some (.b 0x05 0 h a 0)
  | .call h disp => some (.b 0x06 0 h .zero disp)
  | .calli h a => some (.b 0x07 0 h a 0)
  | .ret h => some (.b 0x08 0 h .zero 0)
  | .regang h => some (.b 0x09 0 h .zero 0)
  | .exit h => some (.b 0x0A 0 h .zero 0)
  | .yield h => some (.b 0x0B 0 h .zero 0)
  | .leave h => some (.b 0x0D 0 h .zero 0)
  | .bkpt h => some (.b 0x0E 0 h .zero 0)
  | .rte h => some (.b 0xF0 0 h .zero 0)
  | .enter h imm => some (.i 0x0C h imm)
  | .trap h imm => some (.i 0x0F h imm)
  | .smov h k f => some (.r 0x10 k.toNat h f)
  | .sadd h f => some (.r 0x11 0 h f)
  | .ssub h f => some (.r 0x12 0 h f)
  | .smul h k f => some (.r 0x13 k.toNat h f)
  | .smad h f => some (.r 0x14 0 h f)
  | .sdiv h f => some (.r 0x15 0 h f)
  | .srem h f => some (.r 0x15 1 h f)
  | .slop h lut f => some (.r 0x16 lut.toNat h f)
  | .sshf h k f => some (.r 0x17 (valToCode shiftTab k) h f)
  | .scmp h f => some (.r 0x18 0 h f)
  | .ssel h k f => some (.r 0x19 (valToCode condTab k) h f)
  | .smin h f => some (.r 0x1A 0 h f)
  | .smax h f => some (.r 0x1A 1 h f)
  | .sbit h k f => some (.r 0x1B (valToCode bitTab k) h f)
  | .sfop h k f => some (.r 0x1C (valToCode sfopTab k) h f)
  | .sget h k f => some (.r 0x1D (valToCode sregTab k) h f)
  | .sset h k f => some (.r 0x1E (valToCode sregTab k) h f)
  | .mop h k f => some (.r 0x1F (valToCode mopTab k) h f)
  | .iadd h f => some (.r 0x20 0 h f)
  | .isub h f => some (.r 0x21 0 h f)
  | .imul h k f => some (.r 0x22 k.toNat h f)
  | .imad h f => some (.r 0x23 0 h f)
  | .imin h f => some (.r 0x24 0 h f)
  | .imax h f => some (.r 0x24 1 h f)
  | .iabs h f => some (.r 0x25 0 h f)
  | .ineg h f => some (.r 0x25 1 h f)
  | .lop h lut f => some (.r 0x26 lut.toNat h f)
  | .shf h k f => some (.r 0x27 (valToCode shiftTab k) h f)
  | .icmp h k f => some (.r 0x28 (valToCode cmpTab k) h f)
  | .sel h f => some (.r 0x29 0 h f)
  | .ibit h k f => some (.r 0x2A (valToCode bitTab k) h f)
  | .bfx h k f => some (.r 0x2B (valToCode bfxTab k) h f)
  | .lea h f => some (.r 0x2C 0 h f)
  | .idiv h k f => some (.r 0x2D k.toNat h f)
  | .idot h f => some (.r 0x2E 0 h f)
  | .mov h f => some (.r 0x2F 0 h f)
  | .fadd h f => some (.r 0x40 0 h f)
  | .fsub h f => some (.r 0x41 0 h f)
  | .fmul h f => some (.r 0x42 0 h f)
  | .fma h f => some (.r 0x43 0 h f)
  | .fms h f => some (.r 0x43 1 h f)
  | .fnma h f => some (.r 0x43 2 h f)
  | .fnms h f => some (.r 0x43 3 h f)
  | .fmin h f => some (.r 0x44 0 h f)
  | .fmax h f => some (.r 0x44 1 h f)
  | .fsgn h k f => some (.r 0x45 (valToCode sgnTab k) h f)
  | .fcmp h k f => some (.r 0x46 (valToCode cmpTab k) h f)
  | .fclass h f => some (.r 0x47 0 h f)
  | .fdiv h f => some (.r 0x48 0 h f)
  | .fsqrt h f => some (.r 0x49 0 h f)
  | .frcp h f => some (.r 0x4A 0 h f)
  | .frsq h f => some (.r 0x4B 0 h f)
  | .fexp2 h f => some (.r 0x4C 0 h f)
  | .flog2 h f => some (.r 0x4D 0 h f)
  | .fscale h f => some (.r 0x4E 0 h f)
  | .frnd h f => some (.r 0x4F 0 h f)
  | .cvtf h k f => some (.r 0x60 (valToCode tyTab k) h f)
  | .cvti h k f => some (.r 0x61 (valToCode tyTab k) h f)
  | .cvtn h k f => some (.r 0x62 (valToCode tyTab k) h f)
  | .cvtl h k f => some (.r 0x63 k.toNat h f)
  | .pack h k f => some (.r 0x64 (valToCode tyTab k) h f)
  | .unpk h k f => some (.r 0x65 (valToCode tyTab k) h f)
  | .shfl h k f => some (.r 0x70 (valToCode shflTab k) h f)
  | .bcast h f => some (.r 0x71 0 h f)
  | .xvote h k f => some (.r 0x72 (valToCode voteTab k) h f)
  | .xred h k f => some (.r 0x73 (valToCode redTab k) h f)
  | .xscan h op excl f => some (.r 0x74 (valToCode redTab op + 8 * excl.toNat) h f)
  | .confl h f => some (.r 0x75 0 h f)
  | .cmprs h f => some (.r 0x76 0 h f)
  | .expnd h f => some (.r 0x77 0 h f)
  | .xmov h f => some (.r 0x78 0 h f)
  | .trq h k f => some (.r 0xF1 k.toNat h f)
  | .perf h k f => some (.r 0xF2 (valToCode perfTab k) h f)
  | .ld h f => some (.m 0x80 0 h f)
  | .st h f => some (.m 0x81 0 h f)
  | .lds h f => some (.m 0x82 0 h f)
  | .sts h f => some (.m 0x83 0 h f)
  | .ldu h f => some (.m 0x84 0 h f)
  | .stu h f => some (.m 0x85 0 h f)
  | .ldl h f => some (.m 0x86 0 h f)
  | .stl h f => some (.m 0x87 0 h f)
  | .stash h k f => some (.m 0x88 (valToCode fmtTab k) h f)
  | .pld h k f => some (.m 0x89 k.toNat h f)
  | .fence h f => some (.m 0x8A 0 h f)
  | .cmaint h k f => some (.m 0x8B k.toNat h f)
  | .atom h op ty f => some (.m 0x90 (valToCode atomTab op + 16 * valToCode atomTyTab ty) h f)
  | .acas h ty f => some (.m 0x91 (16 * valToCode atomTyTab ty) h f)
  | .mred h op ty f => some (.m 0x92 (valToCode atomTab op + 16 * valToCode atomTyTab ty) h f)
  | .atoms h op ty f => some (.m 0x93 (valToCode atomTab op + 16 * valToCode atomTyTab ty) h f)
  | .acass h ty f => some (.m 0x94 (16 * valToCode atomTyTab ty) h f)
  | .setdecl h f => some (.t 0x79 0 h f)
  | .copy h s out y f => some (.t 0xA0 (valToCode shapeTab s + 4 * out.toNat + 8 * y.toNat) h f)
  | .gather h f => some (.t 0xA1 0 h f)
  | .scatter h k f => some (.t 0xA2 (valToCode scatterTab k) h f)
  | .abinit h f => some (.t 0xA3 0 h f)
  | .abarr h f => some (.t 0xA4 0 h f)
  | .abwait h f => some (.t 0xA5 0 h f)
  | .abexp h f => some (.t 0xA6 0 h f)
  | .abtest h f => some (.t 0xA7 0 h f)
  | .wapp h f => some (.t 0xA8 0 h f)
  | .wpop h k f => some (.t 0xA9 k.toNat h f)
  | .tdef h kind fmt f => some (.t 0xB0 (16 * valToCode tdefTab kind + valToCode fmtTab fmt) h f)
  | .tldr h f => some (.t 0xB1 0 h f)
  | .tstr h f => some (.t 0xB2 0 h f)
  | .tget h k f => some (.t 0xB3 (valToCode tgetTab k) h f)
  | .mma h f => some (.t 0xB4 0 h f)
  | .tmul h f => some (.t 0xB5 0 h f)
  | .accrd h k f => some (.t 0xB6 (valToCode fmtTab k) h f)
  | .accwr h k f => some (.t 0xB7 (valToCode fmtTab k) h f)
  | .accz h f => some (.t 0xB8 0 h f)
  | .accrel h f => some (.t 0xB9 0 h f)
  | .mbatch h f => some (.t 0xBA 0 h f)
  | .mwait h f => some (.t 0xBB 0 h f)
  | .cturn h fmt tr f => some (.t 0xBC (valToCode fmtTab fmt + 16 * tr.toNat) h f)
  | .tmv h f => some (.t 0xBD 0 h f)
  | .tadd h f => some (.t 0xC0 0 h f)
  | .tscl h f => some (.t 0xC1 0 h f)
  | .trnd h k f => some (.t 0xC2 k.toNat h f)
  | .tdense h f => some (.t 0xC3 0 h f)
  | .tzero h f => some (.t 0xC4 0 h f)
  | .tnorm h f => some (.t 0xC5 0 h f)
  | .tpool h k f => some (.t 0xC6 (valToCode fmtTab k) h f)
  | .tfree h f => some (.t 0xC7 0 h f)
  | .ttrn h f => some (.t 0xC8 0 h f)
  | .bar h f => some (.t 0xD0 0 h f)
  | .gnew h f => some (.t 0xD1 0 h f)
  | .gjoin h f => some (.t 0xD2 0 h f)
  | .gleave h f => some (.t 0xD3 0 h f)
  | .gbar h f => some (.t 0xD4 0 h f)
  | .gvote h k f => some (.t 0xD5 k.toNat h f)
  | .gred h k f => some (.t 0xD6 (valToCode redTab k) h f)
  | .greset h f => some (.t 0xD7 0 h f)
  | .ginfo h f => some (.t 0xD8 0 h f)
  | .qdef h f => some (.t 0xD9 0 h f)
  | .qpush h k f => some (.t 0xDA k.toNat h f)
  | .qpop h k f => some (.t 0xDB k.toNat h f)
  | .sleep h f => some (.t 0xDC 0 h f)
  | .coll h op red f => some (.t 0xE0 (valToCode collTab op + 8 * valToCode redTab red) h f)
  | .xput h f => some (.t 0xE1 0 h f)
  | .xget h f => some (.t 0xE2 0 h f)
  | .trigarm h f => some (.t 0xE3 0 h f)
  | .trigcnt h f => some (.t 0xE4 0 h f)
  | .trigdis h f => some (.t 0xE5 0 h f)
  | .launch h f => some (.t 0xE6 0 h f)
  | .cjoin h f => some (.t 0xE7 0 h f)
  | .spanmap h f => some (.t 0xE8 0 h f)
  | .spanst h f => some (.t 0xE9 0 h f)
  | .labort h f => some (.t 0xEA 0 h f)
  | _ => none

/-- The instruction of a 96-bit slot word, or none where the word is an illegal instruction (R239). -/
def decodeSlot (w : Nat) : Option Instr :=
  match (unpackSlot w).bind RawWord.toInstr with
  | some i => if i.fieldsOk then some i else none
  | none => none

/-- The slot word of an encoded instruction. -/
def encodeSlot (i : Instr) : Option Nat := i.toRaw.map RawWord.pack

/-- The decoder on a word whose table row gives it `nbits` bits: the bits above are zero (a slot has 96, R204). -/
def decodeTableWord (nbits w : Nat) : Option Instr := decodeSlot (w % 2 ^ nbits % 2 ^ 96)

end Sys2Proof
end

