-- ==== Sys2Proof/Machine/Sparse.lean ====
section
/-! DEFINITION. Sparse tables: lists of (key, value) pairs with strictly rising keys. Every store of the machine that is
addressed by a number (memory, scratchpad, stack, register files, tables of records) is one of these. -/

namespace Sys2Proof

/-- A table from numbers to values, keys strictly rising. -/
abbrev Tab (α : Type) := List (Nat × α)

/-- The entry of a key. -/
def Tab.find? {α : Type} (t : Tab α) (k : Nat) : Option α :=
  match t with
  | [] => none
  | (i, a) :: r => if i = k then some a else Tab.find? r k

/-- The table with an entry written, in its place. -/
def Tab.put {α : Type} (t : Tab α) (k : Nat) (v : α) : Tab α :=
  match t with
  | [] => [(k, v)]
  | (i, a) :: r => if i < k then (i, a) :: Tab.put r k v else if i = k then (k, v) :: r else (k, v) :: (i, a) :: r

/-- The table without a key. -/
def Tab.del {α : Type} (t : Tab α) (k : Nat) : Tab α :=
  match t with
  | [] => []
  | (i, a) :: r => if i = k then Tab.del r k else (i, a) :: Tab.del r k

/-- Reading with a value for the keys that are not listed. -/
def Tab.get {α : Type} (t : Tab α) (d : α) (k : Nat) : α := (Tab.find? t k).getD d

/-- Writing so that an entry equal to the unlisted value is not listed (the canonical form). -/
def Tab.set {α : Type} [DecidableEq α] (t : Tab α) (d : α) (k : Nat) (v : α) : Tab α :=
  if v = d then Tab.del t k else Tab.put t k v

/-- Changing an entry that is there. -/
def Tab.modify {α : Type} (t : Tab α) (k : Nat) (f : α → α) : Tab α :=
  match Tab.find? t k with
  | some a => Tab.put t k (f a)
  | none => t

/-- Changing an entry of a table that has a value for unlisted keys. -/
def Tab.adjust {α : Type} [DecidableEq α] (t : Tab α) (d : α) (k : Nat) (f : α → α) : Tab α :=
  Tab.set t d k (f (Tab.get t d k))

/-- The keys, in order. -/
def Tab.keys {α : Type} (t : Tab α) : List Nat := t.map Prod.fst

/-- Several entries written one after another. -/
def Tab.putAll {α : Type} (t : Tab α) (l : List (Nat × α)) : Tab α := l.foldl (fun t p => Tab.put t p.1 p.2) t

/-- Entries written one after another in the canonical form. -/
def Tab.setAll {α : Type} [DecidableEq α] (t : Tab α) (d : α) (l : List (Nat × α)) : Tab α :=
  l.foldl (fun t p => Tab.set t d p.1 p.2) t

/-- Keys strictly rising. -/
def Tab.sorted {α : Type} (t : Tab α) : Bool :=
  match t with
  | [] => true
  | (i, _) :: r => (match r with | [] => true | (j, _) :: _ => decide (i < j)) && Tab.sorted r

/-- The canonical form: keys strictly rising, and no entry equal to what an unlisted key reads as. -/
def Tab.wf {α : Type} [DecidableEq α] (d : α) (t : Tab α) : Bool := Tab.sorted t && t.all (fun p => decide (p.2 ≠ d))

/-- A run of consecutive keys read with the unlisted value. -/
def Tab.range {α : Type} (t : Tab α) (d : α) (k n : Nat) : List α := (List.range n).map (fun i => Tab.get t d (k + i))

/-- A run of consecutive keys written in the canonical form. -/
def Tab.setRange {α : Type} [DecidableEq α] (t : Tab α) (d : α) (k : Nat) (vs : List α) : Tab α :=
  Tab.setAll t d ((List.range vs.length).zip vs |>.map (fun p => (k + p.1, p.2)))

/-- The number represented by bytes, least significant first (R6). -/
def leNat (bs : List (BitVec 8)) : Nat := bs.foldr (fun b n => b.toNat + 256 * n) 0

/-- `n` bytes of a number, least significant first (R6). -/
def leBytes (n v : Nat) : List (BitVec 8) :=
  match n with
  | 0 => []
  | n + 1 => BitVec.ofNat 8 v :: leBytes n (v / 256)

/-- The field of `w` bits from bit `lo` of a number. -/
def bits (v lo w : Nat) : Nat := v / 2 ^ lo % 2 ^ w

/-- One bit of a number. -/
def bitAt (v i : Nat) : Bool := v / 2 ^ i % 2 == 1

/-- The signed reading of a field of `w` bits. -/
def signedOf (w v : Nat) : Int := let x := v % 2 ^ w; if x < 2 ^ (w - 1) then x else (x : Int) - (2 ^ w : Nat)

/-- The 64-bit pattern of an integer, modulo 2^64. -/
def w64 (i : Int) : BitVec 64 := BitVec.ofInt 64 i

/-- The indices of the set bits of a mask of `n` bits, ascending. -/
def onesOf (n m : Nat) : List Nat := (List.range n).filter (fun i => bitAt m i)

/-- The mask with the listed bits set. -/
def maskOf (l : List Nat) : Nat := l.eraseDups.foldl (fun m i => m + 2 ^ i) 0

/-- The position of the first element that satisfies a test. -/
def indexOf? {α : Type} (p : α → Bool) (l : List α) : Option Nat :=
  match l with
  | [] => none
  | a :: r => if p a then some 0 else (indexOf? p r).map (· + 1)

end Sys2Proof
end

