-- ==== Sys2Proof/Machine/Float.lean ====
section
/-! DEFINITION. Numbers: exact values, RoundTo (R72, R81), the exceptions of R73, and the operations of R251, R263 and
R264 on bit patterns. A finite value is a sign, a natural magnitude and a power of two, so every sum and product is
exact before it is rounded once.
Readings of the spec that this file follows: log entry 37. -/

namespace Sys2Proof

/-- An exact value: a NaN (signalling or quiet), an infinity, or (-1)^s m 2^e. -/
inductive Num where
  | nan (sig : Bool)
  | inf (s : Bool)
  | fin (s : Bool) (m : Nat) (e : Int)
  deriving DecidableEq, Repr

/-- A float format of R68: precision with the hidden bit, and exponent width. -/
structure FSpec where
  p  : Nat
  eb : Nat
  deriving DecidableEq, Repr

def specF16 : FSpec := { p := 11, eb := 5 }
def specBF16 : FSpec := { p := 8, eb := 8 }
def specF32 : FSpec := { p := 24, eb := 8 }
def specF64 : FSpec := { p := 53, eb := 11 }

def FSpec.width (F : FSpec) : Nat := F.p + F.eb
def FSpec.bias (F : FSpec) : Nat := 2 ^ (F.eb - 1) - 1
def FSpec.emin (F : FSpec) : Int := 1 - (F.bias : Int)
def FSpec.expOnes (F : FSpec) : Nat := 2 ^ F.eb - 1

/-- The exceptions of R73: NV, DZ, OF, UF, NX from bit 0. -/
abbrev Exc := BitVec 5
def Exc.nv : Exc := 1
def Exc.dz : Exc := 2
def Exc.of : Exc := 4
def Exc.uf : Exc := 8
def Exc.nx : Exc := 16

/-- The value of a bit pattern (R68). -/
def FSpec.decode (F : FSpec) (w : Nat) : Num :=
  let s := bitAt w (F.width - 1)
  let e := bits w (F.p - 1) F.eb
  let f := bits w 0 (F.p - 1)
  if e = F.expOnes then (if f = 0 then .inf s else .nan (!bitAt f (F.p - 2)))
  else if e = 0 then .fin s f (F.emin - (F.p - 1 : Nat))
  else .fin s (f + 2 ^ (F.p - 1)) ((e : Int) - F.bias - (F.p - 1 : Nat))

/-- The canonical quiet NaN of R76. -/
def FSpec.qnan (F : FSpec) : Nat := F.expOnes * 2 ^ (F.p - 1) + 2 ^ (F.p - 2)

/-- A quiet NaN with a payload (R77); an index that does not fit is all ones. -/
def FSpec.nanPayload (F : FSpec) (i : Nat) : Nat := F.qnan + (if i < 2 ^ (F.p - 2) then i else 2 ^ (F.p - 2) - 1)

def FSpec.signBit (F : FSpec) (s : Bool) : Nat := if s then 2 ^ (F.width - 1) else 0
def FSpec.infinity (F : FSpec) (s : Bool) : Nat := F.signBit s + F.expOnes * 2 ^ (F.p - 1)
def FSpec.maxFinite (F : FSpec) (s : Bool) : Nat := F.signBit s + F.expOnes * 2 ^ (F.p - 1) - 1
def FSpec.isNan (F : FSpec) (w : Nat) : Bool := match F.decode w with | .nan _ => true | _ => false

/-- Whether a magnitude with a discarded part is rounded up (R71): `odd` is the kept part's low bit, `c` compares the
discarded part with one half. -/
def roundsUp (rm : Rm) (s odd : Bool) (c : Ordering) : Bool :=
  match rm with
  | .rtz => false
  | .rdn => s
  | .rup => !s
  | .rna => c != .lt
  | .rne | .dyn => c == .gt || (c == .eq && odd)

/-- A magnitude m 2^e in units of 2^q, rounded, and whether it was inexact. -/
def quantize (rm : Rm) (s : Bool) (m : Nat) (e q : Int) : Nat × Bool :=
  if q ≤ e then (m * 2 ^ (e - q).toNat, false)
  else
    let sh := (q - e).toNat
    if m.log2 + 2 < sh then ((if m ≠ 0 && roundsUp rm s false .lt then 1 else 0), m != 0)
    else
      let k := m / 2 ^ sh
      let r := m % 2 ^ sh
      if r = 0 then (k, false)
      else (k + (if roundsUp rm s (k % 2 == 1) (compare (2 * r) (2 ^ sh)) then 1 else 0), true)

/-- RoundTo of a finite value to a format (R72, R81): the pattern and the exceptions. Tininess is after rounding. -/
def FSpec.roundFin (F : FSpec) (rm : Rm) (s : Bool) (m : Nat) (e : Int) : Nat × Exc :=
  if m = 0 then (F.signBit s, 0)
  else
    let t : Int := (F.p - 1 : Nat)
    let l : Int := (m.log2 : Int) + e
    let q := max (l - t) (F.emin - t)
    let (sig0, inx) := quantize rm s m e q
    let (sig, q) := if sig0 ≥ 2 ^ F.p then (sig0 / 2, q + 1) else (sig0, q)
    let unb := (quantize rm s m e (l - t)).1
    let tiny := l < F.emin && !(l + 1 = F.emin && unb = 2 ^ F.p)
    let nx : Exc := if inx then Exc.nx else 0
    let uf : Exc := if inx && tiny then Exc.uf else 0
    if sig < 2 ^ (F.p - 1) then (F.signBit s + sig, nx ||| uf)
    else
      let be := q + t + F.bias
      if be ≥ F.expOnes then
        let toInf := match rm with | .rtz => false | .rdn => s | .rup => !s | _ => true
        ((if toInf then F.infinity s else F.maxFinite s), Exc.of ||| Exc.nx)
      else (F.signBit s + be.toNat * 2 ^ (F.p - 1) + (sig - 2 ^ (F.p - 1)), nx ||| uf)

/-- RoundTo of any value; a NaN gives the canonical NaN (R76), with NV when it was signalling. -/
def FSpec.round (F : FSpec) (rm : Rm) : Num → Nat × Exc
  | .nan sig => (F.qnan, if sig then Exc.nv else 0)
  | .inf s => (F.infinity s, 0)
  | .fin s m e => F.roundFin rm s m e

/-- A finite value with its trailing zeros removed, the form in which a slot holds it. -/
def stripZeros (fuel : Nat) (m : Nat) (e : Int) : Nat × Int :=
  match fuel with
  | 0 => (m, e)
  | k + 1 => if m = 0 then (0, 0) else if m % 2 = 0 then stripZeros k (m / 2) (e + 1) else (m, e)

/-- The canonical form of a value: an odd magnitude, or zero with exponent zero; NaNs are one. -/
def Num.canon : Num → Num
  | .nan _ => .nan false
  | .inf s => .inf s
  | .fin s m e => let (m', e') := stripZeros (m.log2 + 1) m e; .fin s m' e'

/-- RoundTo to an accumulator format of precision p, whose exponent is unbounded in effect (R81, R84). -/
def roundAcc (p : Nat) : Num → Num
  | .nan _ => .nan false
  | .inf s => .inf s
  | .fin s m e =>
    if m = 0 then .fin s 0 0
    else
      let q : Int := (m.log2 : Int) + e - (p - 1 : Nat)
      (Num.fin s (quantize .rne s m e q).1 q).canon

def Num.isNan : Num → Bool
  | .nan _ => true
  | _ => false

def Num.isSig : Num → Bool
  | .nan sig => sig
  | _ => false

def Num.isZero : Num → Bool
  | .fin _ m _ => m == 0
  | _ => false

def Num.sign : Num → Bool
  | .nan _ => false
  | .inf s => s
  | .fin s _ _ => s

def Num.neg : Num → Num
  | .nan sig => .nan sig
  | .inf s => .inf (!s)
  | .fin s m e => .fin (!s) m e

/-- The value m 2^e as a signed integer in units of 2^q, for q ≤ e. -/
def scaleTo (s : Bool) (m : Nat) (e q : Int) : Int :=
  let v : Int := (m * 2 ^ (e - q).toNat : Nat)
  if s then -v else v

/-- The exact sum, and NV for infinities of opposite sign (R263). An exact zero sum is -0 only when both terms are -0, or
under RDN. -/
def Num.add (rm : Rm) : Num → Num → Num × Exc
  | .nan a, .nan b => (.nan false, if a || b then Exc.nv else 0)
  | .nan a, _ => (.nan false, if a then Exc.nv else 0)
  | _, .nan b => (.nan false, if b then Exc.nv else 0)
  | .inf s, .inf t => if s = t then (.inf s, 0) else (.nan false, Exc.nv)
  | .inf s, _ => (.inf s, 0)
  | _, .inf t => (.inf t, 0)
  | .fin s m e, .fin t n f =>
    if m = 0 && n = 0 then (.fin (if s = t then s else rm = .rdn) 0 0, 0)
    else if m = 0 then (.fin t n f, 0)
    else if n = 0 then (.fin s m e, 0)
    else
      let q := min e f
      let v := scaleTo s m e q + scaleTo t n f q
      if v = 0 then (.fin (rm = .rdn) 0 0, 0) else (.fin (v < 0) v.natAbs q, 0)

/-- The exact product, and NV for zero times infinity (R263). -/
def Num.mul : Num → Num → Num × Exc
  | .nan a, .nan b => (.nan false, if a || b then Exc.nv else 0)
  | .nan a, _ => (.nan false, if a then Exc.nv else 0)
  | _, .nan b => (.nan false, if b then Exc.nv else 0)
  | .inf s, .inf t => (.inf (s != t), 0)
  | .inf s, .fin t n _ => if n = 0 then (.nan false, Exc.nv) else (.inf (s != t), 0)
  | .fin s m _, .inf t => if m = 0 then (.nan false, Exc.nv) else (.inf (s != t), 0)
  | .fin s m e, .fin t n f => (.fin (s != t) (m * n) (e + f), 0)

/-- The mathematical order of two values that are not NaNs; zeros are equal. -/
def Num.cmp : Num → Num → Ordering
  | .fin s m e, .fin t n f =>
    let q := min e f
    compare (scaleTo s m e q) (scaleTo t n f q)
  | .inf s, .inf t => if s = t then .eq else if s then .lt else .gt
  | .inf s, _ => if s then .lt else .gt
  | _, .inf t => if t then .gt else .lt
  | _, _ => .eq

/-- FADD, SFOP.add (R251, R263). -/
def FSpec.fadd (F : FSpec) (rm : Rm) (a b : Nat) : Nat × Exc :=
  let (v, x) := Num.add rm (F.decode a) (F.decode b)
  let (r, y) := F.round rm v
  (r, x ||| y)

/-- A pattern with its sign inverted, for FSUB and the FMA family. -/
def FSpec.flip (F : FSpec) (a : Nat) : Nat := if bitAt a (F.width - 1) then a - 2 ^ (F.width - 1) else a + 2 ^ (F.width - 1)

/-- FSUB (R263). -/
def FSpec.fsub (F : FSpec) (rm : Rm) (a b : Nat) : Nat × Exc := F.fadd rm a (F.flip b)

/-- FMUL (R263). -/
def FSpec.fmul (F : FSpec) (rm : Rm) (a b : Nat) : Nat × Exc :=
  let (v, x) := Num.mul (F.decode a) (F.decode b)
  let (r, y) := F.round rm v
  (r, x ||| y)

/-- The FMA family (R263): `np` negates the product, `nc` the addend. -/
def FSpec.fma (F : FSpec) (rm : Rm) (np nc : Bool) (a b c : Nat) : Nat × Exc :=
  let (p, x) := Num.mul (F.decode a) (F.decode b)
  let p := if np then p.neg else p
  let z := F.decode c
  let z := if nc then z.neg else z
  let (v, y) := Num.add rm p z
  let (r, w) := F.round rm v
  (r, x ||| y ||| w)

/-- The quotient of two finite nonzero values to `k` bits with a sticky bit below them. -/
def divBits (k m n : Nat) : Nat :=
  let a := m * 2 ^ k
  2 * (a / n) + (if a % n = 0 then 0 else 1)

/-- FDIV and FRCP (R263). -/
def FSpec.fdivNum (F : FSpec) (rm : Rm) (x y : Num) : Nat × Exc :=
  match x, y with
  | .nan a, .nan b => (F.qnan, if a || b then Exc.nv else 0)
  | .nan a, _ => (F.qnan, if a then Exc.nv else 0)
  | _, .nan b => (F.qnan, if b then Exc.nv else 0)
  | .inf _, .inf _ => (F.qnan, Exc.nv)
  | .inf s, .fin t _ _ => (F.infinity (s != t), 0)
  | .fin s _ _, .inf t => (F.signBit (s != t), 0)
  | .fin s m e, .fin t n f =>
    if n = 0 then (if m = 0 then (F.qnan, Exc.nv) else (F.infinity (s != t), Exc.dz))
    else if m = 0 then (F.signBit (s != t), 0)
    else
      let k := n.log2 + F.p + 3
      F.roundFin rm (s != t) (divBits k m n) (e - f - k - 1)

def FSpec.fdiv (F : FSpec) (rm : Rm) (a b : Nat) : Nat × Exc := F.fdivNum rm (F.decode a) (F.decode b)
def FSpec.frcp (F : FSpec) (rm : Rm) (a : Nat) : Nat × Exc := F.fdivNum rm (.fin false 1 0) (F.decode a)

/-- The integer square root, one bit at a time from bit `k - 1`. -/
def isqrtFrom (k : Nat) (n r : Nat) : Nat :=
  match k with
  | 0 => r
  | k + 1 => if (r + 2 ^ k) * (r + 2 ^ k) ≤ n then isqrtFrom k n (r + 2 ^ k) else isqrtFrom k n r

def isqrt (n : Nat) : Nat := isqrtFrom (n.log2 / 2 + 1) n 0

/-- √(m 2^e) to at least `k` bits with a sticky bit, as a magnitude and an exponent. -/
def sqrtBits (k : Nat) (m : Nat) (e : Int) : Nat × Int :=
  let sh := 2 * k + (if (e % 2 == 0) then 0 else 1)
  let n := m * 2 ^ sh
  let r := isqrt n
  (2 * r + (if r * r = n then 0 else 1), (e - sh) / 2 - 1)

/-- FSQRT (R263). -/
def FSpec.fsqrt (F : FSpec) (rm : Rm) (a : Nat) : Nat × Exc :=
  match F.decode a with
  | .nan sig => (F.qnan, if sig then Exc.nv else 0)
  | .inf s => if s then (F.qnan, Exc.nv) else (F.infinity false, 0)
  | .fin s m e =>
    if m = 0 then (F.signBit s, 0)
    else if s then (F.qnan, Exc.nv)
    else
      let (r, f) := sqrtBits (F.p + 2) m e
      F.roundFin rm false r f

/-- FRSQ (R263): 1 ÷ √a rounded once; the root is irrational or exact, and the quotient keeps a sticky bit. -/
def FSpec.frsq (F : FSpec) (rm : Rm) (a : Nat) : Nat × Exc :=
  match F.decode a with
  | .nan sig => (F.qnan, if sig then Exc.nv else 0)
  | .inf s => if s then (F.qnan, Exc.nv) else (F.signBit false, 0)
  | .fin s m e =>
    if m = 0 then (F.infinity s, Exc.dz)
    else if s then (F.qnan, Exc.nv)
    else
      -- 1/√(m 2^e) = √(2^(2k+o) / m) 2^((-e-2k-o)/2), the integer part of the root taken with a sticky bit
      let o := if (e % 2 == 0) then 0 else 1
      let k := m.log2 + F.p + 3
      let n := 2 ^ (2 * k + o)
      let r := isqrt (n / m)
      F.roundFin rm false (2 * r + (if r * r * m = n then 0 else 1)) ((-e - (2 * k + o : Nat)) / 2 - 1)

/-- The bits of working precision of FEXP2 and FLOG2 (log entry 24). -/
def transBits : Nat := 256

/-- ln 2 in units of 2^-transBits, from the series of 1/(k 2^k). -/
def ln2Fixed : Nat :=
  ((List.range (transBits + 16)).map (fun k => 2 ^ (transBits + 32) / ((k + 1) * 2 ^ (k + 1)))).foldl (· + ·) 0 / 2 ^ 32

/-- The Taylor sum of exp y, y in units of 2^-transBits. -/
def expSeries (fuel k : Nat) (term y : Nat) : Nat :=
  match fuel with
  | 0 => 0
  | n + 1 => term + expSeries n (k + 1) (term * y / 2 ^ transBits / (k + 1)) y

/-- The sum of z^(2k+1)/(2k+1), z in units of 2^-transBits. -/
def atanhSeries (fuel k : Nat) (pow zz : Nat) : Nat :=
  match fuel with
  | 0 => 0
  | n + 1 => pow / (2 * k + 1) + atanhSeries n (k + 1) (pow * zz / 2 ^ transBits) zz

/-- FEXP2 (R263): the exact value of 2^a rounded once (log entry 24). -/
def FSpec.fexp2 (F : FSpec) (rm : Rm) (a : Nat) : Nat × Exc :=
  match F.decode a with
  | .nan sig => (F.qnan, if sig then Exc.nv else 0)
  | .inf s => if s then (F.signBit false, 0) else (F.infinity false, 0)
  | .fin s m e =>
    if m = 0 then F.roundFin rm false 1 0
    else if (m.log2 : Int) + e > 40 then F.roundFin rm false 1 (if s then -(2 ^ 40 : Nat) else (2 ^ 40 : Nat))
    else
      -- a = n + f with 0 ≤ f < 1, f in units of 2^-200
      let v := if s then -((m : Int) * 2 ^ (e + 200).toNat) else (m : Int) * 2 ^ (e + 200).toNat
      let n := v.fdiv (2 ^ 200)
      let f := (v.fmod (2 ^ 200)).toNat
      if f = 0 then F.roundFin rm false 1 n
      else
        let y := f * ln2Fixed / 2 ^ 200
        let r := expSeries 90 0 (2 ^ transBits) y
        F.roundFin rm false (2 * r + 1) (n - transBits - 1)

/-- FLOG2 (R263): the exact value of log2 a rounded once (log entry 24). -/
def FSpec.flog2 (F : FSpec) (rm : Rm) (a : Nat) : Nat × Exc :=
  match F.decode a with
  | .nan sig => (F.qnan, if sig then Exc.nv else 0)
  | .inf s => if s then (F.qnan, Exc.nv) else (F.infinity false, 0)
  | .fin s m e =>
    if m = 0 then (F.infinity true, Exc.dz)
    else if s then (F.qnan, Exc.nv)
    else
      let l := m.log2
      let n : Int := (l : Int) + e
      if m = 2 ^ l then
        if n = 0 then (F.signBit false, 0) else F.roundFin rm (n < 0) n.natAbs 0
      else
        let z := (m - 2 ^ l) * 2 ^ transBits / (m + 2 ^ l)
        let lnm := 2 * atanhSeries 100 0 z (z * z / 2 ^ transBits)
        let lg : Int := (lnm * 2 ^ transBits / ln2Fixed : Nat)
        let v : Int := n * (2 ^ transBits : Nat) + lg
        F.roundFin rm (v < 0) (2 * v.natAbs + 1) (-(transBits : Int) - 1)

/-- FSCALE (R263): a × 2^n. -/
def FSpec.fscale (F : FSpec) (rm : Rm) (a : Nat) (n : Int) : Nat × Exc :=
  match F.decode a with
  | .nan sig => (F.qnan, if sig then Exc.nv else 0)
  | .inf s => (F.infinity s, 0)
  | .fin s m e => if m = 0 then (F.signBit s, 0) else F.roundFin rm s m (e + n)

/-- FRND (R263): rounded to an integer value, NX never set. -/
def FSpec.frnd (F : FSpec) (rm : Rm) (a : Nat) : Nat × Exc :=
  match F.decode a with
  | .nan sig => (F.qnan, if sig then Exc.nv else 0)
  | .inf s => (F.infinity s, 0)
  | .fin s m e =>
    if e ≥ 0 then (a, 0)
    else
      let k := (quantize rm s m e 0).1
      ((F.roundFin rm s k 0).1, 0)

/-- The rule of R251 for `.min` (`hi` false) and `.max`: a quiet NaN yields to a number, -0 is below +0. -/
def FSpec.fminmax (F : FSpec) (hi : Bool) (a b : Nat) : Nat × Exc :=
  let x := F.decode a
  let y := F.decode b
  let nv : Exc := if x.isSig || y.isSig then Exc.nv else 0
  if x.isNan && y.isNan then (F.qnan, nv)
  else if x.isNan then (b, nv)
  else if y.isNan then (a, nv)
  else
    let less := match Num.cmp x y with | .lt => true | .gt => false | .eq => x.sign || !y.sign
    ((if less != hi then a else b), nv)

/-- The outcome of a floating comparison: none when unordered; NV for a signalling NaN only (R251, R264). -/
def FSpec.fcompare (F : FSpec) (a b : Nat) : Option Ordering × Exc :=
  let x := F.decode a
  let y := F.decode b
  (if x.isNan || y.isNan then none else some (Num.cmp x y), if x.isSig || y.isSig then Exc.nv else 0)

/-- The predicates of FCMP (R264). -/
def fcmpHolds (p : CmpOp) (o : Option Ordering) : Bool :=
  match p, o with
  | .eq, some .eq => true
  | .ne, some .eq => false
  | .ne, _ => true
  | .lt, some .lt => true
  | .le, some .lt | .le, some .eq => true
  | .gt, some .gt => true
  | .ge, some .gt | .ge, some .eq => true
  | .ord, some _ => true
  | .uno, none => true
  | _, _ => false

/-- The class bit of R264. -/
def FSpec.fclass (F : FSpec) (a : Nat) : Nat :=
  match F.decode a with
  | .nan sig => if sig then 2 ^ 8 else 2 ^ 9
  | .inf s => if s then 1 else 2 ^ 7
  | .fin s m _ =>
    if m = 0 then (if s then 2 ^ 3 else 2 ^ 4)
    else if bits a (F.p - 1) F.eb = 0 then (if s then 2 ^ 2 else 2 ^ 5)
    else if s then 2 else 2 ^ 6

/-- Conversion between float formats (R266). -/
def fconv (F G : FSpec) (rm : Rm) (a : Nat) : Nat × Exc := G.round rm (F.decode a)

/-- An integer rounded to a format (R266, CVTN). -/
def FSpec.ofInt (F : FSpec) (rm : Rm) (i : Int) : Nat × Exc := F.roundFin rm (i < 0) i.natAbs 0

/-- A value rounded to an integer and clamped to a range (R70, R266): NV when it clamps or meets a NaN, NX when only
rounding changed it. -/
def numToInt (rm : Rm) (lo hi : Int) (v : Num) : Int × Exc :=
  match v with
  | .nan _ => (0, Exc.nv)
  | .inf s => ((if s then lo else hi), Exc.nv)
  | .fin s m e =>
    if (m.log2 : Int) + e > 70 then ((if s then lo else hi), Exc.nv)
    else
      let (k, inx) := quantize rm s m e 0
      let i : Int := if s then -(k : Int) else k
      if i < lo then (lo, Exc.nv) else if hi < i then (hi, Exc.nv) else (i, if inx then Exc.nx else 0)

/-- The table T of R78. -/
def lnsT (f : Nat) : Nat := match f with | 0 => 4096 | 1 => 4871 | 2 => 5793 | _ => 6889

/-- The value of an LNS6 code under scale E (R78). -/
def lnsValue (code : Nat) (E : Int) : Num :=
  let m := code % 32
  let s := bitAt code 5
  if m = 0 then (if s then .nan false else .fin false 0 0)
  else
    let q : Int := (m : Int) - 16
    .fin s (lnsT (q.emod 4).toNat) (q.ediv 4 + E - 12)

/-- The product of two LNS6 codes in the log domain (R80). -/
def lnsProduct (a b : Nat) (Ea Eb : Int) : Num :=
  let ma := a % 32
  let mb := b % 32
  let sa := bitAt a 5
  let sb := bitAt b 5
  if (ma = 0 && sa) || (mb = 0 && sb) then .nan false
  else if ma = 0 || mb = 0 then .fin (sa != sb) 0 0
  else
    let q : Int := (ma : Int) - 16 + ((mb : Int) - 16)
    .fin (sa != sb) (lnsT (q.emod 4).toNat) (q.ediv 4 + Ea + Eb - 12)

/-- The FP32 thresholds of R79 as fractions of 2^23: C1, C3, C5, C7. -/
def lnsThresholds : List Nat := [0x8B95C2, 0xA5FED7, 0xC5672A, 0xEAC0C7]

/-- ToLNS6 of R79, on an FP32 pattern. -/
def toLns6 (x : Nat) (E : Int) : Nat × Exc :=
  match specF32.decode x with
  | .nan sig => (0x20, if sig then Exc.nv else 0)
  | .inf s => ((if s then 63 else 31), Exc.nx)
  | .fin s m e =>
    if m = 0 then (0, 0)
    else
      let l := m.log2
      let ex : Int := (l : Int) + e - E
      let below := fun c => m * 2 ^ 23 < c * 2 ^ l       -- g < C, with g = m 2^-l
      let q : Int := 4 * ex + ((lnsThresholds.filter (fun c => !below c)).length : Nat)
      if ex < -4 || (ex = -4 && below 0x8B95C2) then (0, Exc.nx)
      else
        let mm := min (q + 16) 31
        let code := (if s then 32 else 0) + mm.toNat
        let exact := Num.cmp (lnsValue code E) (.fin s m e) = .eq
        (code, if exact then 0 else Exc.nx)

end Sys2Proof
end

