-- ==== Sys2Proof/Machine/State.lean ====
section
/-! DEFINITION. The state of a K9: everything the spec gives the machine, as plain data, and the state after reset.
A field that is the model's own and not the spec's says so. Reset values the spec does not give are named in log entry 1. -/

namespace Sys2Proof.Machine

open Sys2Proof

/-- Why a step stops with a fault. -/
inductive Fault where
  /-- An access to a physical address the spec calls absent (R104), by any agent of this device. Safe: the machine stops. -/
  | absentAddress (addr : Nat)
  /-- `exec` was given an encoded instruction in a state in which no unit of a running team is issuing; `step` never does
  this. Safe: no such step exists on the device. -/
  | noIssuer
  deriving DecidableEq, Repr

/-- Why a step has no meaning. -/
inductive Refusal where
  /-- An instruction that has no meaning yet, raised by the arms of Dispatch only. Safe. -/
  | notModelled (mnemonic : String)
  /-- `exec` was given an event that cannot occur in this state; `step` offers only events that can. Safe. -/
  | notEnabled
  deriving DecidableEq, Repr

/-- What a slice waits for at a scoped instruction (R24, R27, R30). -/
inductive Rendez where
  | regang | gang | set (k : Nat) | team
  deriving DecidableEq, Repr

/-- What a slice is doing between issues. -/
inductive Wait where
  /-- may issue -/
  | ready
  /-- waits at a REGANG or a scoped instruction (R23, R27) -/
  | rendez (k : Rendez)
  /-- the instruction at the pc has not been performed and is tried again; `blocked` says whether R146 counts it -/
  | retry (blocked : Bool)
  /-- a page fault is with the pager (R102, R192); the page's virtual base, and TRADDR -/
  | pager (page : Nat) (addr : W64)
  /-- a translation that is draining (R106, R406) -/
  | drain
  /-- in QPOP on an empty queue (R140) -/
  | queue (q : Nat)
  /-- in a WPOP on an empty list (R44) -/
  | list (l : Nat)
  /-- in a group operation whose phase is open (R134) -/
  | group (slot : Nat)
  /-- WAPP items that have not landed in a full list (R296); the append's number -/
  | append (id : Nat)
  /-- in SLEEP (R334) -/
  | sleep
  /-- in ABWAIT for a phase of the abar at an address (R154) -/
  | abar (a phase : Nat)
  /-- in QPUSH with no allowance (R140) -/
  | room (q : Nat)
  /-- in MWAIT for a batch (R155) -/
  | batch (n : Nat)
  /-- in CJOIN for some grids (R350) -/
  | join (grids : List Nat)
  /-- in COPY.yield (R13) -/
  | copyYield (op : Nat)
  /-- stopped by YIELD with PRQ set (R198, R243) -/
  | yielded
  deriving DecidableEq, Repr

/-- One slice: its program counter and its part in halts and waits (R19, R146, R194). -/
structure Slice where
  pc      : W64 := 0
  live    : Bool := true
  wait    : Wait := .ready
  /-- instructions issued after a halt, and the number the halt allows (R194) -/
  skid    : Nat := 0
  skidMax : Nat := 0
  deriving DecidableEq, Repr

/-- A place a long-latency result goes to (R222); `cc` is the CC bits under a mask. -/
inductive Dest where
  | v (reg lane : Nat) | n (reg lane : Nat) | s (reg : Nat) | m (reg lane : Nat) | cc (mask : Nat)
  deriving DecidableEq, Repr

/-- A long-latency instruction whose results are not yet written: the writes, and how many more instructions each slice
may issue before it must wait (R222). -/
structure Pending where
  writes : List (Dest × W64)
  left   : List Nat
  deriving DecidableEq, Repr

/-- An entry of the pending-trap queue (R192 to R195). -/
structure TrapEntry where
  cause   : Nat
  setflt  : Bool := false
  qovf    : Bool := false
  slice   : Nat
  parted  : Bool
  pc      : W64
  addr    : W64 := 0
  info    : W64 := 0
  applied : W64 := 0
  /-- each slice's resume address where the trap resumes past the instruction (R195) -/
  resume  : List (Option W64) := []
  deriving DecidableEq, Repr

/-- The special registers of the trap record (R193). -/
structure TrapRecord where
  cause   : W64 := 0
  pcs     : List W64 := List.replicate 8 0
  addr    : W64 := 0
  skid    : W64 := 0
  applied : W64 := 0
  info    : W64 := 0
  deriving DecidableEq, Repr

/-- The reset value of a tile register (R20, R50): KIND 00, ACC 0xFFFF. -/
def tileReset : W128 := BitVec.ofNat 128 (0xFFFF * 2 ^ 80)

/-- One gang (R19, R20). -/
structure Gang where
  slices  : List Slice := List.replicate 8 {}
  ganged  : Bool := true
  v       : Tab W32 := []
  n       : Tab W32 := []
  b       : Tab W64 := []
  s       : Tab W64 := []
  m       : Tab W32 := []
  t       : Tab W128 := []
  g       : Tab W32 := []
  cc      : W64 := 0
  fpmode  : W64 := 0
  flags   : W64 := 0
  stkptr  : W64 := 0
  stklim  : W64 := 0
  /-- stack bytes, keyed lane × 2^32 + offset (R100) -/
  stack   : Tab Byte := []
  /-- pending-trap queue, at most 8 entries; the first is the one being handled in handler state (R195) -/
  queue   : List TrapEntry := []
  handler : Bool := false
  /-- whether the gang was ganged when it entered handler state (R195) -/
  savedGanged : Bool := true
  trec    : TrapRecord := {}
  /-- TRAPPLIED of an atomic, and PLAINDONE of a STASH, in progress (R144, R203) -/
  applied : W32 := 0
  plainDone : Bool := false
  /-- those of the instructions that the traps being handled interrupted (R195, R203) -/
  savedApplied : W32 := 0
  savedPlain : Bool := false
  /-- what each slice waited for when the gang entered handler state (R194, R195) -/
  savedWaits : List Wait := []
  /-- long-latency results not yet written (R222) -/
  pend    : List Pending := []
  /-- the last closed batch (R155) -/
  lastBatch : Nat := 0
  gissue  : W64 := 0
  gparted : W64 := 0
  deriving DecidableEq, Repr

/-- A set declaration (R33): the member mask and the base; a mask of zero is no declaration. -/
structure SetDecl where
  mask : Nat := 0
  base : Nat := 0
  deriving DecidableEq, Repr

/-- A team queue (R139, R140). -/
structure QDef where
  ring   : Nat
  depth  : Nat
  mask   : Nat
  /-- allowance of each producer gang -/
  allow  : Tab Nat
  pushes : Nat := 0
  pops   : Nat := 0
  /-- the gang that pushed each entry, oldest first -/
  owners : List Nat := []
  /-- gangs blocked in QPOP and their destination s registers, in the order in which they blocked -/
  waiters : List (Nat × Nat) := []
  deriving DecidableEq, Repr

/-- The factor pool (R57, R59, R61): region, format, block size, block count, the free list, head first, and the returned
blocks that an issued operation still reads, in the order of their return. The links stand in the scratchpad. -/
structure Pool where
  base   : Nat
  fmt    : Fmt
  block  : Nat
  count  : Nat
  free   : List Nat
  late   : List Nat := []
  deriving DecidableEq, Repr

/-- An accumulator slot (R84): its exact elements, keyed 32 × row + column; unlisted elements are +0. -/
abbrev Slot := Tab Num

/-- The value of an unlisted slot element. -/
def slotZero : Num := .fin false 0 0

/-- What an engine operation does with one segment (R103, R158 to R162, R341, R342). -/
inductive SegKind where
  /-- global to scratchpad (COPY, GATHER) -/
  | load
  /-- scratchpad to global (COPY.out, SCATTER.st) -/
  | store
  /-- a gather position whose index is out of range: zeros, RANGE -/
  | zeros
  /-- a scatter position whose index is out of range: nothing, RANGE -/
  | skip
  /-- SCATTER in an add mode -/
  | add (mode : ScatterMode)
  /-- XGET from a rank -/
  | xget (rank : Nat)
  /-- XPUT to a rank -/
  | xput (rank : Nat)
  deriving DecidableEq, Repr

/-- A segment not yet landed: its place in order, its addresses and length. -/
structure Seg where
  ord   : Nat
  kind  : SegKind
  glob  : Nat
  spad  : Nat
  len   : Nat
  deriving DecidableEq, Repr

/-- An engine operation in flight (R120, R153, R158 to R162). -/
structure EngOp where
  gang    : Nat
  /-- abar address, none for COPY.yield -/
  abar    : Option Nat
  /-- the trigger counter named by E, wing × 1024 + number (R289) -/
  counter : Option Nat
  /-- continuation of a COPY.yield (R13) -/
  cont    : Option W64
  /-- whether the operation makes one arrival at its end (SCATTER, XPUT; R153) -/
  arrives : Bool
  /-- whether landed bytes are charged to the abar -/
  charges : Bool
  /-- notified counter of an XPUT: rank and counter (R342) -/
  notify  : Option (Nat × Nat) := none
  /-- 0 copy limit of R159, 1 gather and scatter limit of R289 -/
  gather  : Bool := false
  segs    : List Seg
  /-- the fix-up list (R103) -/
  fix     : List Seg := []
  /-- pages of the fix-up list that the pager has given up (log entry 29) -/
  failed  : List Nat := []
  err     : Byte := 0
  deriving DecidableEq, Repr

/-- What a matrix or rank operation writes into its destination record (R299, R300). -/
inductive MatDst where
  /-- no record changes -/
  | keep
  /-- a record that is known at issue -/
  | record (r : W128)
  /-- `TRND`: the slot taken at issue (R320) -/
  | round (slot : Nat)
  deriving DecidableEq, Repr

/-- A matrix or rank operation issued and not yet complete (R155, R156, R299): the instruction, the operand records and
values read at issue, and what it reads and writes. -/
structure MatOp where
  /-- the gangs that perform it, each with the number of the batch that holds it, in order -/
  gangs   : List (Nat × Nat)
  instr   : Instr
  /-- tile records read at issue, in operand order -/
  recs    : List W128
  /-- register values read at issue, as the instruction's meaning lists them -/
  words   : List W64 := []
  dst     : MatDst := .keep
  /-- the t register whose record is written at completion -/
  treg    : Option Nat := none
  /-- slots written, and slots read only -/
  slots   : List Nat := []
  rslots  : List Nat := []
  /-- pool blocks written, the new chain in order, and pool blocks read -/
  wblocks : List Nat := []
  rblocks : List Nat := []
  /-- chains returned after the result is formed (R59, R300) -/
  ret     : List Nat := []
  /-- scratchpad ranges read and written, and the bytes of the ranges read that have been replaced since issue, each with what
  stood there (R65) -/
  reads   : List (Nat × Nat) := []
  writes  : List (Nat × Nat) := []
  seen    : List (Nat × Byte) := []
  deriving DecidableEq, Repr

/-- A byte an isolated task wrote, with the virtual address it used (R180, R183). -/
structure PlainByte where
  val : Byte
  va  : Nat
  deriving DecidableEq, Repr

/-- A reduced unit of an isolated task (R180): operation, type, contribution, the lowest lane that supplied a NaN to each
element (R77), and the virtual address. -/
structure RedUnit where
  op   : AtomOp
  ty   : AtomTy
  acc  : W64
  nans : List (Option Nat) := []
  va   : Nat
  deriving DecidableEq, Repr

/-- The write set of an isolated-task team, keyed by location (R180). A byte of a reduced unit that is plain too is a plain
byte; the unit's other bytes are reduced. -/
structure WSet where
  plain : Tab PlainByte := []
  red   : Tab RedUnit := []
  deriving DecidableEq, Repr

/-- A team's life after placement (R199, R202). -/
inductive TeamStatus where
  | running
  | saved
  deriving DecidableEq, Repr

/-- A resident or saved team (R19, R20, R36). -/
structure Team where
  launch   : Nat
  ctx      : Nat
  grid     : Nat
  /-- the linear index of R21 -/
  index    : Nat
  core     : Nat
  /-- the gang positions of the core that its gangs occupy, 0 to 191 (R36, R132) -/
  places   : List Nat := []
  status   : TeamStatus := .running
  nregs    : Nat
  spadSize : Nat
  trapvec  : W64
  cohort   : Bool := false
  gangs    : List Gang
  spad     : Tab Byte := []
  /-- pending granules, keyed by granule, with the number of operations or collectives that hold it (R94) -/
  pending  : Tab Nat := []
  sets     : List SetDecl := List.replicate 8 {}
  queues   : Tab QDef := []
  pool     : Option Pool := none
  /-- held accumulator slots (R62) -/
  slots    : Tab Slot := []
  /-- registered abars by address (R150); the 16 bytes stand in the scratchpad -/
  abars    : List Nat := []
  ops      : Tab EngOp := []
  mops     : Tab MatOp := []
  prq      : Bool := false
  prdl     : Nat := 1000
  /-- the dispatcher has pre-empted it while it was parked (R147) -/
  parkedOut : Bool := false
  /-- team halt (R194) -/
  halted   : Bool := false
  /-- write set of an isolated-task team -/
  ws       : WSet := {}
  /-- children launched, in LAUNCH order: grid number (R348, R350) -/
  kids     : List Nat := []
  /-- the save record: its first unit of the save pool, its units, and the number of its image (R410) -/
  saveAt   : Option (Nat × Nat × Nat) := none
  deriving DecidableEq, Repr

/-- A launch record (R388): its 64 bytes as fields. -/
structure LaunchRec where
  code    : W64 := 0
  frame   : W64 := 0
  join    : W64 := 0
  trapvec : W64 := 0
  dims    : W64 := 0
  shape   : W64 := 0
  setptr  : W64 := 0
  attr    : W64 := 0
  deriving DecidableEq, Repr

/-- A grid of a launch tree (R39, R348). -/
structure Grid where
  depth    : Nat := 0
  /-- the launching team and its TEAMID -/
  parent   : Option (Nat × Nat) := none
  /-- the launching team's grid -/
  parentGrid : Option Nat := none
  lrec     : LaunchRec
  sets     : List SetDecl := List.replicate 8 {}
  total    : Nat
  placed   : Nat := 0
  retired  : Nat := 0
  /-- the join counter: children that have not retired (R39) -/
  kids     : Nat := 0
  done     : Bool := false
  status   : Byte := 0
  /-- the launching team's view at the LAUNCH (R181) -/
  base     : Tab Byte := []
  /-- its write sets have been merged into the launching team's (R181) -/
  merged   : Bool := false
  /-- write sets of retired teams by TEAMID (R181, R182) -/
  wsets    : Tab WSet := []
  deriving DecidableEq, Repr

/-- A launch that has been dispatched and has not ended (R171 to R191). -/
structure Launch where
  ctx      : Nat
  /-- the launch queue and the record's place in it -/
  queue    : Nat
  ord      : Nat
  lrec     : LaunchRec
  /-- order of dispatch in the device (R189) -/
  disp     : Nat
  tag      : Nat
  attempt  : Nat
  it       : Bool
  overIrr  : Bool
  irrev    : Bool := false
  nocheck  : Bool
  retry    : Nat
  /-- understory bytes (R173), keyed by location -/
  lines    : Tab Byte := []
  /-- what commits since the dispatch replaced (R179), keyed by location -/
  snap     : Tab Byte := []
  /-- read signature: room × 16384 + bit (R176) -/
  sig      : Tab Unit := []
  grids    : Tab Grid := []
  /-- its top-level grid has retired -/
  ready    : Bool := false
  /-- order of becoming ready to commit (R174, R175); 0 before that -/
  readyAt  : Nat := 0
  held     : Bool := false
  /-- a conflict found while it is held, on which it aborts when it is resumed (R177, R399) -/
  doomed   : Bool := false
  /-- understory lines that a stalled writer wants, 0 for none (R187) -/
  poolNeed : Nat := 0
  /-- the IRREVOCABLE policy applies and publication is awaited (R189) -/
  publishing : Bool := false
  /-- the first merge conflict of child teams: address and the two TEAMIDs (R183) -/
  conflict : Option (Nat × Nat × Nat) := none
  /-- the replay this launch belongs to (R398): its queue -/
  replay   : Option Nat := none
  /-- dispatched record's set table, kept for a segment (R397) -/
  setTable : List SetDecl := List.replicate 8 {}
  deriving DecidableEq, Repr

/-- A record fetched from a queue and not yet dispatched, or waiting to run again (R40, R177, R394). -/
structure ReadyRec where
  queue   : Nat
  ord     : Nat
  lrec    : LaunchRec
  attempt : Nat := 0
  deriving DecidableEq, Repr

/-- A registers block of one launch queue (R393). -/
structure LQueue where
  qbase : W64 := 0
  qcfg  : W64 := 0
  qwp   : Nat := 0
  qrp   : Nat := 0
  ovr   : Bool := false
  cstop : Bool := false
  wait  : Bool := false
  /-- the places of the records that have ended with a status other than COMMITTED and for which the queue has not yet
  stopped (R396) -/
  bad   : List Nat := []
  deriving DecidableEq, Repr

/-- An arrival of a member at a group operation (R134): the instruction, its predicate or operand, its destination. -/
structure Arrival where
  instr : Instr
  val   : W64
  dest  : Option Nat
  deriving DecidableEq, Repr

/-- A member of a group (R133). -/
structure Member where
  launch  : Nat
  team    : Nat
  gang    : Nat
  slot    : Nat
  /-- the phase from which the gang counts -/
  from_   : Nat
  leaving : Bool := false
  arrived : Option Arrival := none
  deriving DecidableEq, Repr

/-- A slot of the group directory (R129 to R137). -/
structure Group where
  gen     : BitVec 16 := 0
  used    : Bool := false
  creator : Nat := 0
  joined  : Bool := false
  broken  : Bool := false
  phase   : Nat := 0
  members : List Member := []
  deriving DecidableEq, Repr

/-- A work list (R43, R44): items oldest first, its home consumer, and the destination of that gang's `WPOP` while it is
blocked there. -/
structure WList where
  items   : List W64 := []
  home    : Option (Nat × Nat) := none
  waiting : Option Nat := none
  deriving DecidableEq, Repr

/-- Appends of one WAPP that have not landed (R43): items left, the appending team and gang. -/
structure Append where
  team  : Nat
  gang  : Nat
  items : List (Nat × W64)
  deriving DecidableEq, Repr

/-- A checkpoint segment (R397). -/
structure Segment where
  complete : Bool := true
  recs     : List (LaunchRec × List SetDecl) := []
  deriving DecidableEq, Repr

/-- A replay of a segment (R398), one per queue. -/
structure Replay where
  rr    : ReadyRec
  lo    : Nat
  hi    : Nat
  scratch : Nat
  todo  : List (LaunchRec × List SetDecl)
  /-- writes of the replayed records so far -/
  view  : Tab Byte := []
  /-- committed memory at the dispatch -/
  mem0    : List Host.Cell := []
  remote0 : List Host.Cell := []
  /-- the launch of the record that is running -/
  running : Option Nat := none
  /-- order of becoming ready to commit (R175); 0 before that -/
  readyAt : Nat := 0
  deriving DecidableEq, Repr

/-- A ring of a span group (R163, R338, R383). -/
structure Ring where
  ranks : Option (List Nat) := none
  epoch : Nat := 0
  seq   : Nat := 0
  deriving DecidableEq, Repr

/-- The action of an armed trigger slot, and its predicate (R168, R343). -/
structure Trigger where
  ctx     : Nat
  /-- leaves: none is "true", else counter and threshold -/
  leaves  : List (Option (Nat × Nat))
  nodeop  : Nat
  act     : Nat
  queue   : Nat
  donectr : Option Nat
  src     : W64
  dst     : W64
  len     : Nat
  rank    : Nat
  status  : W64
  /-- error bits of the words performed so far, once it has fired; `src`, `dst` and `len` are then what is left -/
  err     : Byte := 0
  /-- the words skipped so far, as source and destination, and the pages of them that the pager has given up (R103, R170) -/
  fix     : List (W64 × W64) := []
  failed  : List Nat := []
  deriving DecidableEq, Repr

/-- What the command processor or the trigger unit has still to do in memory, where a page drains, is not resident, or lies on
a wing that is not online (R103, R170, R392, R394, R406, R411). -/
inductive Post where
  /-- a word written at an address; then END is raised, or a counter incremented -/
  | word (at_ : W64) (val : Nat) (intr : Bool) (ctr : Option Nat)
  /-- the launch action of a trigger: its queue, and the address of its record -/
  | enqueue (queue src : Nat)
  /-- a record for a reserved slot of a launch queue -/
  | slot (queue n : Nat) (bytes : List Byte)
  deriving DecidableEq, Repr

/-- Data landed in the bounce ring for a page that is not resident (R103, R408). -/
structure Bounce where
  /-- the last slot's SEQ -/
  upto   : Nat
  /-- counter to increment when BNCRP covers it (R342) -/
  notify : Option Nat
  deriving DecidableEq, Repr

/-- A resident context slot (R402, R403), or an empty one. -/
structure Ctx where
  resident : Bool := false
  asid     : Nat := 0
  ptroot   : Nat := 0
  cellar   : Nat := 0
  cellsz   : Nat := 0
  bncbase  : Nat := 0
  bncslots : Nat := 0
  wlcap    : Nat := 0
  uptab    : Nat := 0
  upcnt    : Nat := 0
  upmax    : Nat := 0
  prdl     : Nat := 0
  tagCtr   : Nat := 0
  queues   : Tab LQueue := []
  istat    : W64 := 0
  imask    : W64 := 0
  faddr    : W64 := 0
  fteam    : W64 := 0
  bncrp    : Nat := 0
  bncSeq   : Nat := 0
  bounces  : List Bounce := []
  /-- transfers that stopped at a full ring: the address at which each goes on, and the last SEQ it has used (R408) -/
  partial_ : Tab Nat := []
  groups   : Tab Group := []
  wlists   : Tab WList := []
  /-- the moves of work lists between wings, oldest first (R411) -/
  wlMoved  : List (Nat × Nat) := []
  inflight : Tab Append := []
  segs     : Tab Segment := []
  /-- the open segment of each queue -/
  openSeg  : Tab Nat := []
  replays  : Tab Replay := []
  ready    : List ReadyRec := []
  /-- the launch queue whose turn is next (R40) -/
  turn     : Nat := 0
  /-- what waits for a page, and the pages that the pager has given up (log entry 27) -/
  posts    : List Post := []
  lost     : List Nat := []
  rings    : Tab Ring := []
  /-- trigger copies and XPUTs fired and not yet complete (R170) -/
  actions  : List Trigger := []
  saving   : Bool := false
  deriving DecidableEq, Repr

/-- A TLB entry (R102, R406, R407). -/
structure TlbEntry where
  asid  : Nat
  /-- virtual base and log2 of the size of the page -/
  page  : Nat
  size  : Nat
  pte   : W64
  /-- physical address of the leaf entry, for ACNT -/
  at_   : Nat
  drain : Bool := false
  fwd   : Nat := 0
  deriving DecidableEq, Repr

/-- A sector held in L1 (R98): the view it was read in, its location, its 32 bytes. -/
structure L1Sector where
  view : Nat
  loc  : Nat
  data : List Byte
  deriving DecidableEq, Repr

/-- A core (R41, R98, R102, R256, R412). -/
structure CoreRec where
  tlb   : List TlbEntry := []
  l1    : List L1Sector := []
  dis   : Bool := false
  hot   : Bool := false
  droop : Bool := false
  droopHold : Bool := false
  /-- last sampled temperature, and whether it was above THOT then (R424, R425) -/
  temp  : Nat := 0
  above : Bool := false
  /-- PERF counters 0x02 to 0x09 by code -/
  perf  : Tab W64 := []
  deriving DecidableEq, Repr

/-- WINGCTL STATE (R411). -/
inductive WingState where
  | online | draining | offline | resetting
  deriving DecidableEq, Repr

/-- A wing (R411, R428). -/
structure Wing where
  state   : WingState := .online
  drained : Bool := false
  err     : Bool := false
  /-- counter updates aimed at the wing while it is not online: counter, add or set, amount -/
  queued  : List (Nat × Bool × Nat) := []
  /-- thermal protection (R428) -/
  prot    : Bool := false
  /-- PERF GATHERDEDUP of the wing's rooms, by room -/
  dedup   : Tab W64 := []
  deriving DecidableEq, Repr

/-- SPANCTL (R412): STATE 0 down, 1 training, 2 up. -/
structure Port where
  state   : Nat := 0
  disable : Bool := false
  peer    : Nat := 0
  /-- the port has been trained, so that PEER is known -/
  known   : Bool := false
  errcnt  : Nat := 0
  deriving DecidableEq, Repr

/-- A collective of this device (R163 to R167, R335 to R337). -/
structure Coll where
  ctx     : Nat
  team    : Nat
  group   : Nat
  epoch   : Nat
  seq     : Nat
  op      : CollOp
  red     : RedOp
  fmt     : Fmt
  n       : Nat
  base    : Nat
  root    : Nat
  abar    : Nat
  ring    : List Nat
  pos     : Nat
  granted : Bool := false
  /-- its timeout has passed while its team was saved (R201) -/
  expired : Bool := false
  /-- chunks that have landed in the buffer for good, or that a reduce-scatter has folded and passed on -/
  landed  : List Nat := []
  /-- whole buffers received on the latency path, by ring position (R166) -/
  direct  : Tab (List W64) := []
  deriving DecidableEq, Repr

/-- What the device sends out: interrupts, host and SPDM answers, span traffic (R392, R400, R419, R383, R425). -/
inductive Output where
  | msix (vector : Nat)
  | hostData (bytes : List Byte) (poison : Bool)
  | qrsv (value : W64)
  | chunk (rank : Nat) (c : Chunk)
  | xput (rank ctx addr : Nat) (bytes : List Byte) (notify : Option Nat)
  | xgetData (bytes : List Byte) (err : Byte)
  | remoteLine (bytes : List Byte) (fault : Bool)
  | spdm (box : Nat) (code : Byte) (payload : List Byte)
  | spdmError (box : Nat) (code : Byte)
  deriving DecidableEq, Repr

/-- The driver's registers of BAR0 (R401, R403, R406). -/
structure Driver where
  ctxbase  : W64 := 0
  /-- CTXCMD SLOT, DONE, ERR and BUSY -/
  ctxSlot  : Nat := 0
  ctxBusy  : Bool := false
  ctxDone  : Bool := false
  ctxErr   : Bool := false
  /-- TLBOP ASID, ALL, ERR and BUSY -/
  tlbAsid  : Nat := 0
  tlbAll   : Bool := false
  tlbBusy  : Bool := false
  tlbErr   : Bool := false
  tlbva    : W64 := 0
  tlbold   : W64 := 0
  savebase : W64 := 0
  savesz   : W64 := 0
  deriving DecidableEq, Repr

/-- Trigger units: ownership, armed slots and counters, keyed wing × 256 + slot and wing × 1024 + counter (R168, R409). -/
structure Triggers where
  trgown   : Tab W64 := []
  ctrown   : Tab W64 := []
  slots    : Tab Trigger := []
  counters : Tab W32 := []
  deriving DecidableEq, Repr

/-- Row repair (R412, R413). -/
structure Repair where
  /-- WING, CHAN, BANK and ROW of ROWRET -/
  rowret : W64 := 0
  busy   : Bool := false
  /-- the row that is being copied, as ROWRET named it -/
  copying : W64 := 0
  fail   : Bool := false
  /-- spare rows used, keyed (wing × 160 + channel) × 32 + bank -/
  spares : Tab Nat := []
  /-- ROWS (R426) -/
  rows   : Nat := 0
  deriving DecidableEq, Repr

/-- The span as this device sees it (R339, R382, R412, R427). -/
structure Span where
  rank   : Nat := 0
  size   : Nat := 1
  live   : BitVec 256 := 1
  epoch  : BitVec 32 := 0
  /-- peers whose 100 µs silence count has run since their last flit (R382) -/
  quiet  : Tab Unit := []
  rjRank : Nat := 0
  rjErr  : Bool := false
  /-- what waits for a port to its rank (R413) -/
  waiting : List (Nat × Output) := []
  ports  : List Port := List.replicate 16 {}
  deriving DecidableEq, Repr

/-- MODE at reset (R421): PWR 10, RETRY 3, THOT 95, every other field 0. -/
def modeReset : W64 := BitVec.ofNat 64 (2 + 3 * 2 ^ 9 + 95 * 2 ^ 13)

/-- Modes, clocks, events and telemetry (R421 to R428). -/
structure Fleet where
  mode      : W64 := modeReset
  busy      : Bool := false
  err       : Bool := false
  /-- the mode word that takes effect when an ECC change completes (R422) -/
  next      : W64 := 0
  evstat    : W64 := 0
  evmask    : W64 := 0
  wpwr      : List W64 := List.replicate 4 0
  pkgpwr    : W64 := 0
  cecc      : W64 := 0
  ueccn     : W64 := 0
  thrtl     : W64 := 0
  /-- every wing is halted by a sensor at 120 °C (R428) -/
  halt      : Bool := false
  /-- matrix and vector clock in MHz, and whether a new cap is still to take effect (R423) -/
  mclk      : Nat := 1800
  vclk      : Nat := 1800
  capPending : Bool := false
  deriving DecidableEq, Repr

/-- What a write replaced in one byte, kept while some agent may still read it (R109 to R116): the model's own record
(log entry 44). -/
structure PastByte where
  /-- the view, as `State.viewKey` gives it, or 1 for the scratchpads -/
  key    : Nat
  loc    : Nat
  /-- the byte that the write replaced -/
  val    : Byte
  /-- the write's place in the order of all unit writes: a unit is written at one instant (R110) -/
  seq    : Nat
  /-- the slices that made the write -/
  writer : List Nat
  /-- when the write was performed for all agents; none while it is not (R109) -/
  at_    : Option Nat := none
  /-- slices that made or read this write or a later one (R112) -/
  seen   : List Nat := []
  deriving DecidableEq, Repr

/-- The order of memory accesses (R109 to R118): the model's own record (log entry 44). A slice's number is
(team × 256 + gang) × 8 + slice. -/
structure Order where
  /-- the last instant: of a performed write or of an ordering event -/
  now   : Nat := 0
  /-- each slice's last ordering event -/
  since : Tab Nat := []
  /-- slices whose last instruction was an ordering event -/
  after : Tab Unit := []
  past  : List PastByte := []
  /-- the unit reads of the instruction being performed: view, location, length, and the first write not read -/
  reads : List (Nat × Nat × Nat × Option Nat) := []
  deriving DecidableEq, Repr

/-- Boot and attestation (R414 to R420). -/
structure Boot where
  powered   : Bool := true
  /-- BOOTCTL STATE: 0 waiting, 1 loading, 2 verifying, 3 running, 4 failed -/
  state     : Nat := 0
  err       : Byte := 0
  svn       : Byte := 0
  floor     : Byte
  addr      : W64 := 0
  len       : W64 := 0
  /-- the on-die copy that runs -/
  sram      : List Byte := []
  /-- measurements 1 to 5 (R417) -/
  meas      : List (BitVec 256) := List.replicate 5 0
  /-- next leaf index of the identity key; 2^40 when exhausted (R418) -/
  leaf      : Nat := 0
  /-- the signed answer whose leaf index is committed and which is not yet released (R418): mailbox, code, index, the body, and
  the bytes that are signed -/
  signing   : Option (Nat × Byte × Nat × List Byte × List Byte) := none
  tokens    : Nat := 64
  deriving DecidableEq, Repr

/-- The whole device. -/
structure State where
  /-- index of the next free value: the model's own field (log entry 3) -/
  free     : Nat
  /-- the unit issuing in this step: the model's own field (log entry 4) -/
  cur      : Option UnitId
  /-- next identity number of a launch, team, operation or dispatch: the model's own field (log entry 4) -/
  nextId   : Nat
  /-- events of outside agents not yet taken: the model's own field (log entry 5) -/
  inbox    : List Instr
  /-- what the device has sent: the model's own field (log entry 5) -/
  out      : List Output
  /-- DRAM bytes by physical address (R104); unlisted bytes read 0 (log entry 2) -/
  mem      : List Host.Cell
  /-- bytes marked uncorrectable (R102, log entry 17) -/
  uncorr   : Tab Unit
  /-- memory of the host and of other devices, by location (log entry 16) -/
  remote   : List Host.Cell
  /-- CLOCK (R235) -/
  clock    : W64
  cores    : Tab CoreRec
  ctxs     : Tab Ctx
  launches : Tab Launch
  teams    : Tab Team
  colls    : Tab Coll
  /-- span chunks held (R383) -/
  chunks   : List Chunk
  wings    : List Wing
  trig     : Triggers
  drv      : Driver
  rep      : Repair
  span     : Span
  /-- replaced bytes and ordering events: the model's own field (log entry 44) -/
  order    : Order
  fleet    : Fleet
  boot     : Boot
  deriving DecidableEq, Repr

/-- The device right after reset: the reset values of the spec's tables, and those of log entries 1 to 5 where the spec
gives none. No context is resident and no team runs (R403, R414). -/
def State.reset : State where
  free := 0
  cur := none
  nextId := 1
  inbox := []
  out := []
  mem := []
  uncorr := []
  remote := []
  clock := 0
  cores := []
  ctxs := []
  launches := []
  teams := []
  colls := []
  chunks := []
  wings := List.replicate 4 {}
  trig := {}
  drv := {}
  rep := {}
  span := {}
  order := {}
  fleet := {}
  boot := { floor := Config.fusedFloor }

end Sys2Proof.Machine
end

