-- ==== Sys2Proof/Machine/Access.lean ====
section
/-! DEFINITION. Named reads and writes of the parts of the state: free values, teams, gangs, slices, registers, cores,
contexts and launches. Every meaning goes through these.
Readings of the spec that this file follows: log entry 15. -/

namespace Sys2Proof.Machine

open Sys2Proof

/-- The next free value, and the state that has used it (log entry 3). -/
def State.pick (s : State) : W64 × State := (Config.freeValue s.free, { s with free := s.free + 1 })

/-- A free choice below `n`, for n > 0. -/
def State.pickBelow (s : State) (n : Nat) : Nat × State :=
  let (x, t) := s.pick
  (x.toNat % n, t)

/-- A new identity number (log entry 4). -/
def State.fresh (s : State) : Nat × State := (s.nextId, { s with nextId := s.nextId + 1 })

/-- Something sent out of the device (log entry 5). -/
def State.send (s : State) (o : Output) : State := { s with out := s.out ++ [o] }

/-- Whether flits for a rank find a way (R413): a port that is up among those whose far end is that rank; where no trained port's
is, any port that is up, for the spec does not say by which way a rank further off is reached (log entry 41). -/
def State.reaches (s : State) (r : Nat) : Bool :=
  let direct := s.span.ports.filter (fun p => p.known && p.peer == r)
  (if direct = [] then s.span.ports else direct).any (fun p => p.state == 2)

/-- Something sent to a rank: it waits while no port reaches that rank (R413). -/
def State.sendTo (s : State) (r : Nat) (o : Output) : State :=
  if s.reaches r then s.send o else { s with span := { s.span with waiting := s.span.waiting ++ [(r, o)] } }

-- teams, gangs, slices

def State.team? (s : State) (id : Nat) : Option Team := Tab.find? s.teams id
def State.modTeam (s : State) (id : Nat) (f : Team → Team) : State := { s with teams := Tab.modify s.teams id f }
def State.modLaunch (s : State) (id : Nat) (f : Launch → Launch) : State := { s with launches := Tab.modify s.launches id f }
def State.launch? (s : State) (id : Nat) : Option Launch := Tab.find? s.launches id

/-- A context slot; a slot never loaded is empty (R403). -/
def State.ctx (s : State) (k : Nat) : Ctx := Tab.get s.ctxs {} k
def State.modCtx (s : State) (k : Nat) (f : Ctx → Ctx) : State := { s with ctxs := Tab.adjust s.ctxs {} k f }

def State.core (s : State) (k : Nat) : CoreRec := Tab.get s.cores {} k
def State.modCore (s : State) (k : Nat) (f : CoreRec → CoreRec) : State := { s with cores := Tab.adjust s.cores {} k f }

def Team.gang (t : Team) (i : Nat) : Gang := t.gangs.getD i {}
def Team.modGang (t : Team) (i : Nat) (f : Gang → Gang) : Team := { t with gangs := t.gangs.modify i f }
def State.gang (s : State) (team i : Nat) : Gang := match s.team? team with | some t => t.gang i | none => {}
def State.modGang (s : State) (team i : Nat) (f : Gang → Gang) : State := s.modTeam team (fun t => t.modGang i f)

def Gang.slice (g : Gang) (i : Nat) : Slice := g.slices.getD i { live := false }
def Gang.modSlice (g : Gang) (i : Nat) (f : Slice → Slice) : Gang := { g with slices := g.slices.modify i f }

/-- The slices that have not exited (R25). -/
def Gang.liveSlices (g : Gang) : List Nat := (List.range 8).filter (fun i => (g.slice i).live)
def Gang.isLive (g : Gang) : Bool := g.slices.any (·.live)
/-- The lanes of a list of slices (R19). -/
def lanesOf (l : List Nat) : List Nat := l.flatMap (fun i => [4 * i, 4 * i + 1, 4 * i + 2, 4 * i + 3])
/-- The live gangs of a team. -/
def Team.liveGangs (t : Team) : List Nat := (List.range t.gangs.length).filter (fun i => (t.gang i).isLive)

/-- Changing several slices of a gang. -/
def Gang.modSlices (g : Gang) (l : List Nat) (f : Slice → Slice) : Gang := l.foldl (fun g i => g.modSlice i f) g

-- registers (R219); the key of a lane register is 32 × index + lane

def Gang.rdV (g : Gang) (r lane : Nat) : W32 := Tab.get g.v 0 (32 * r + lane)
def Gang.wrV (g : Gang) (r lane : Nat) (x : W32) : Gang := { g with v := Tab.set g.v 0 (32 * r + lane) x }
def Gang.rdN (g : Gang) (r lane : Nat) : W32 := Tab.get g.n 0 (32 * r + lane)
def Gang.wrN (g : Gang) (r lane : Nat) (x : W32) : Gang := { g with n := Tab.set g.n 0 (32 * r + lane) x }
def Gang.rdB (g : Gang) (r lane : Nat) : W64 := Tab.get g.b 0 (32 * r + lane)
def Gang.wrB (g : Gang) (r lane : Nat) (x : W64) : Gang := { g with b := Tab.set g.b 0 (32 * r + lane) x }
def Gang.rdS (g : Gang) (r : Nat) : W64 := Tab.get g.s 0 r
def Gang.wrS (g : Gang) (r : Nat) (x : W64) : Gang := { g with s := Tab.set g.s 0 r x }
/-- m0 reads all ones and is never written (R9, R220). -/
def Gang.rdM (g : Gang) (r : Nat) : W32 := if r = 0 then BitVec.allOnes 32 else Tab.get g.m 0 r
def Gang.wrM (g : Gang) (r : Nat) (x : W32) : Gang := if r = 0 then g else { g with m := Tab.set g.m 0 r x }
def Gang.rdT (g : Gang) (r : Nat) : W128 := Tab.get g.t tileReset r
def Gang.wrT (g : Gang) (r : Nat) (x : W128) : Gang := { g with t := Tab.set g.t tileReset r x }
def Gang.rdG (g : Gang) (r : Nat) : W32 := Tab.get g.g 0 r
def Gang.wrG (g : Gang) (r : Nat) (x : W32) : Gang := { g with g := Tab.set g.g 0 r x }

/-- A 64-bit value of an even pair of v registers, low word in the even one (R68). -/
def Gang.rdV2 (g : Gang) (r lane : Nat) : W64 := (g.rdV (r + 1) lane) ++ (g.rdV r lane)
def Gang.wrV2 (g : Gang) (r lane : Nat) (x : W64) : Gang :=
  (g.wrV r lane (x.extractLsb' 0 32)).wrV (r + 1) lane (x.extractLsb' 32 32)
def Gang.rdN2 (g : Gang) (r lane : Nat) : W64 := (g.rdN (r + 1) lane) ++ (g.rdN r lane)
def Gang.wrN2 (g : Gang) (r lane : Nat) (x : W64) : Gang :=
  (g.wrN r lane (x.extractLsb' 0 32)).wrN (r + 1) lane (x.extractLsb' 32 32)

/-- The bypass file shifted in the lanes of some slices, the new b0 given per lane (R228, R258). -/
def Gang.shiftBypass (g : Gang) (lanes : List Nat) (new : Nat → W64) : Gang :=
  lanes.foldl (fun h l =>
    (((h.wrB 3 l (g.rdB 2 l)).wrB 2 l (g.rdB 1 l)).wrB 1 l (g.rdB 0 l)).wrB 0 l (new l)) g

-- CC bits (R232)

def ccZ : Nat := 0
def ccN : Nat := 1
def ccC : Nat := 2
def ccV : Nat := 3
def ccDns : Nat := 4
def ccBrk : Nat := 5
def ccDone : Nat := 6
def ccTmo : Nat := 7

/-- A bit of a 64-bit register written. -/
def setBit (x : W64) (i : Nat) (v : Bool) : W64 :=
  if v then x ||| BitVec.ofNat 64 (2 ^ i) else x &&& ~~~ BitVec.ofNat 64 (2 ^ i)

def Gang.ccBit (g : Gang) (i : Nat) : Bool := bitAt g.cc.toNat i
def Gang.setCc (g : Gang) (i : Nat) (v : Bool) : Gang := { g with cc := setBit g.cc i v }

/-- Exceptions ORed into FLAGS (R74). -/
def Gang.orFlags (g : Gang) (x : Exc) : Gang := { g with flags := g.flags ||| x.setWidth 64 }

-- the issuing unit

/-- The issuing unit with its team, its gang and the slices that issue. -/
structure Issuer where
  unit   : UnitId
  tm     : Team
  g      : Gang
  slices : List Nat
  deriving DecidableEq, Repr

/-- The slices of a unit: the live slices of a ganged gang, or one slice (R226). -/
def unitSlices (g : Gang) (u : UnitId) : List Nat := match u.slice with | some k => [k] | none => g.liveSlices

/-- The unit issuing in this state, if there is one. -/
def State.issuer? (s : State) : Option Issuer :=
  match s.cur with
  | none => none
  | some u =>
    match s.team? u.team with
    | none => none
    | some t =>
      let g := t.gang u.gang
      some { unit := u, tm := t, g := g, slices := unitSlices g u }

def Issuer.team (i : Issuer) : Nat := i.unit.team
def Issuer.gang (i : Issuer) : Nat := i.unit.gang
def Issuer.lanes (i : Issuer) : List Nat := lanesOf i.slices
/-- The slice that a trap of the unit names: its lowest slice (R192). -/
def Issuer.slice (i : Issuer) : Nat := i.slices.headD 0
def Issuer.pc (i : Issuer) : W64 := (i.g.slice i.slice).pc

/-- The effective mask of a header on some lanes of a gang (R9). -/
def Gang.activeIn (g : Gang) (h : Hdr) (lanes : List Nat) : List Nat :=
  let m := (g.rdM h.msel.toNat).toNat
  lanes.filter (fun l => bitAt m l != h.mneg)

/-- The active lanes of the issuing unit. -/
def Issuer.active (i : Issuer) (h : Hdr) : List Nat := i.g.activeIn h i.lanes

-- instruction addresses (R210, R211)

/-- Lin(a) of R211. -/
def linOf (a : W64) : Nat := a.toNat / 64 * 5 + a.toNat % 8
/-- The address of a linear index. -/
def addrOfLin (l : Nat) : W64 := BitVec.ofNat 64 (l / 5 * 64 + l % 5)
/-- The following slot in fall-through order (R205, R212). -/
def nextSlot (a : W64) : W64 := addrOfLin (linOf a + 1)
/-- The byte address of the line of an instruction address (R210). -/
def lineOf (a : W64) : Nat := a.toNat / 64 * 64

-- interrupts (R400, R425)

/-- ISTAT bits. -/
def istatEnd : Nat := 0
def istatOvr : Nat := 1
def istatCstop : Nat := 2
def istatHeld : Nat := 3
def istatCtxerr : Nat := 4
def istatPool : Nat := 5
def istatSegfull : Nat := 6

/-- An ISTAT bit set; a newly set bit that is enabled raises vector k (R400). -/
def State.raiseIstat (s : State) (k bit : Nat) : State :=
  let c := s.ctx k
  let s' := s.modCtx k (fun c => { c with istat := setBit c.istat bit true })
  if !bitAt c.istat.toNat bit && bitAt c.imask.toNat bit then s'.send (.msix k) else s'

/-- EVSTAT bits (R425). -/
def evModedone : Nat := 0
def evTherm : Nat := 1
def evTrip : Nat := 2
def evUecc : Nat := 3
def evLive : Nat := 4
def evWing : Nat := 5

/-- An EVSTAT bit set; a newly set bit that is enabled raises vector 256 + i (R425). -/
def State.raiseEvent (s : State) (i : Nat) : State :=
  let f := s.fleet
  let s' := { s with fleet := { f with evstat := setBit f.evstat i true } }
  if !bitAt f.evstat.toNat i && bitAt f.evmask.toNat i then s'.send (.msix (256 + i)) else s'

-- telemetry and performance counters

/-- A counter that saturates at all ones (R426). -/
def satAdd (x : W64) (n : Nat) : W64 := BitVec.ofNat 64 (min (x.toNat + n) (2 ^ 64 - 1))

/-- The words of DRAM, 4 bytes each, among some locations that hold a byte marked uncorrectable (R425, R426, log entry 17). -/
def State.markedWords (s : State) (locs : List Nat) : Nat :=
  (((locs.filter (fun l => (Tab.find? s.uncorr l).isSome)).map (· / 4)).eraseDups).length

/-- Uncorrectable words have been read: UECC is raised, and UECCN counts them (R425, R426). -/
def State.uncorrectable (s : State) (n : Nat) : State :=
  if n = 0 then s
  else
    let t := s.raiseEvent evUecc
    { t with fleet := { t.fleet with ueccn := satAdd t.fleet.ueccn n } }

/-- Some locations of DRAM have been read (R425). -/
def State.noteRead (s : State) (locs : List Nat) : State := s.uncorrectable (s.markedWords locs)

/-- A per-core performance counter advanced (R256). -/
def State.perfAdd (s : State) (core ctr n : Nat) : State :=
  s.modCore core (fun c => { c with perf := Tab.adjust c.perf 0 ctr (fun x => x + BitVec.ofNat 64 n) })

/-- Wings, by number. -/
def State.wing (s : State) (w : Nat) : Wing := s.wings.getD w {}
def State.modWing (s : State) (w : Nat) (f : Wing → Wing) : State := { s with wings := s.wings.modify w f }
/-- The wing of a core: 160 cores each (R1, R104). -/
def wingOfCore (c : Nat) : Nat := c / 160
/-- The room of a core: 16 cores each. -/
def roomOfCore (c : Nat) : Nat := c / 16

/-- A gang's position in the device (R132): core × 192 plus the partition × 6 plus the position within it. -/
def Team.position (t : Team) (gang : Nat) : Nat := t.core * 192 + t.places.getD gang 0

/-- The gang positions of a core that no team occupies. -/
def State.freePlaces (s : State) (core : Nat) : List Nat :=
  (List.range 192).filter (fun p => s.teams.all (fun q => q.2.core != core || q.2.status != .running || !q.2.places.contains p))

/-- Free positions of a core for some gangs; which ones is not specified (R36). -/
def State.pickPlaces (s : State) (core gangs : Nat) : List Nat × State :=
  let free := s.freePlaces core
  let (k, s) := s.pick
  ((free.drop (k.toNat % 192) ++ free.take (k.toNat % 192)).take gangs, s)

/-- The context slot that an ASID is resident in. -/
def State.slotOfAsid (s : State) (asid : Nat) : Option Nat :=
  (List.find? (fun (p : Nat × Ctx) => p.2.resident && p.2.asid == asid) s.ctxs).map (·.1)

end Sys2Proof.Machine
end

