-- ==== Sys2Proof/Machine/Memory.lean ====
section
/-! DEFINITION. Memory: locations, page walks and the TLB (R102, R104, R405 to R407), the views of R122 and R179, L1
(R98), the read signature (R176), the understory pool (R187), and the scratchpad with its protected ranges (R91 to R96).
Readings of the spec that this file follows: log entries 19 and 37. -/

namespace Sys2Proof.Machine

open Sys2Proof

/-- Why an instruction is not performed. -/
inductive Stop where
  /-- a precise trap: cause code, TRADDR, TRINFO (R192) -/
  | trap (cause : Nat) (addr info : W64)
  /-- a trap whose TRINFO differs among the performing gangs; the exceptions enter FLAGS first (R75, R87, R273) -/
  | trapEach (cause : Nat) (infos : List (Nat × W64)) (exc : Exc)
  /-- stays at its pc and is tried again; `blocked` when R146 counts it as blocked -/
  | retry (blocked : Bool)
  /-- stays at its pc in a wait of its own -/
  | wait (w : Wait)
  /-- page fault on the page with this virtual base, TRADDR (R102) -/
  | page (base : Nat) (addr info : W64)
  /-- a draining translation (R106) -/
  | drain
  /-- a physical address that does not exist (R104) -/
  | absent (addr : Nat)
  /-- that many uncorrectable words were read: UECC, and the poison trap (R102, R425) -/
  | ecc (addr : W64) (words : Nat)
  /-- no understory room for that many lines of a launch (R187) -/
  | pool (launch need : Nat)
  /-- the entry line of the kernel or of the handler has no TGT bit 0: a context error (R212) -/
  | entry
  deriving DecidableEq, Repr

-- trap causes (R192)
def cIllegalInstruction : Nat := 0x01
def cIllegalScope : Nat := 0x02
def cIllegalOperand : Nat := 0x03
def cIllegalTile : Nat := 0x04
def cIllegalLine : Nat := 0x05
def cIllegalBranch : Nat := 0x06
def cFmtdiv : Nat := 0x07
def cFpx : Nat := 0x08
def cAcx : Nat := 0x09
def cStack : Nat := 0x0A
def cArith : Nat := 0x0B
def cStale : Nat := 0x0C
def cIsolation : Nat := 0x0D
def cRendezvous : Nat := 0x0E
def cRegang : Nat := 0x0F
def cLanding : Nat := 0x10
def cPage : Nat := 0x20
def cProtection : Nat := 0x21
def cPoison : Nat := 0x22
def cBreakpoint : Nat := 0x30
def cSoftware : Nat := 0x31
def cEngine : Nat := 0x40

/-- A check that stops with a trap. -/
def trapIf (c : Bool) (cause : Nat) (addr info : W64 := 0) : Except Stop Unit :=
  if c then .error (.trap cause addr info) else .ok ()

def illegalOperandIf (c : Bool) : Except Stop Unit := trapIf c cIllegalOperand

-- locations

/-- Wing bases (R104): 120 GiB per wing. -/
def wingBytes : Nat := 0x1E00000000
/-- Local physical addresses end here; larger locations stand for the host and for other devices (log entry 16). -/
def localEnd : Nat := 2 ^ 52
def hostLoc (p : Nat) : Nat := 2 ^ 60 + p
def rankLoc (rank asid va : Nat) : Nat := 2 ^ 61 + (rank * 2 ^ 16 + asid) * 2 ^ 56 + va

/-- Strong ECC in force (R422). -/
def State.strongEcc (s : State) : Bool := bits s.fleet.mode.toNat 4 2 == 1

/-- Whether a local physical address exists (R104). -/
def State.present (s : State) (p : Nat) : Bool :=
  decide (p < 4 * wingBytes) && !(s.strongEcc && decide (105 * 2 ^ 30 ≤ p % wingBytes))

/-- The channel of a physical address, 0 to 159 within its wing (R104). -/
def channelOf (p : Nat) : Nat := let b := p % wingBytes / 512; (b + 37 * (b / 160)) % 160
/-- The physical address of a channel-local address (R104, NEAR pages). A channel has 768 MiB and a wing 160 channels; what a
NEAR page names beyond them, which the spec leaves open, does not exist: it gets an address past the last wing (log entry 45).
Under strong ECC the addresses from 672 MiB on lie 105 GiB or more above the wing's base and are absent. -/
def nearPhys (wing channel l : Nat) : Nat :=
  let q := l / 512
  let j := (channel + 160 * 37 * (q + 1) - 37 * q) % 160
  if channel < 160 && decide (l < 768 * 2 ^ 20) then wing * wingBytes + (q * 160 + j) * 512 + l % 512
  else 4 * wingBytes + channel * 2 ^ 30 + l
/-- The room of a physical address, 0 to 39 (R104). -/
def roomOf (p : Nat) : Nat := p / wingBytes * 10 + channelOf p / 16

/-- A byte of committed memory (R122). -/
def State.commByte (s : State) (loc : Nat) : Byte :=
  if loc < localEnd then Tab.get s.mem 0 loc else Tab.get s.remote 0 loc

/-- A byte written to committed memory; writing clears an uncorrectable mark (log entry 17). -/
def State.setComm (s : State) (loc : Nat) (v : Byte) : State :=
  if loc < localEnd then { s with mem := Tab.set s.mem 0 loc v, uncorr := Tab.del s.uncorr loc }
  else { s with remote := Tab.set s.remote 0 loc v }

/-- Bytes with their places, from an address on. -/
def cellsAt (a : Nat) (bs : List Byte) : List (Nat × Byte) := (List.range bs.length).zip bs |>.map (fun q => (a + q.1, q.2))

/-- Bytes of committed memory written. -/
def State.setCommAll (s : State) (l : List (Nat × Byte)) : State := l.foldl (fun s p => s.setComm p.1 p.2) s

/-- Whether a location's region can be reached: accesses to a wing that is not online stall (R411). -/
def State.reachable (s : State) (loc : Nat) : Bool := decide (localEnd ≤ loc) || (s.wing (loc / wingBytes)).state == .online

def State.commNat (s : State) (loc n : Nat) : Nat := leNat ((List.range n).map (fun i => s.commByte (loc + i)))

-- page-table entries (R405)

def pteV (e : W64) : Bool := bitAt e.toNat 0
def pteLeaf (e : W64) : Bool := bitAt e.toNat 1
def pteRo (e : W64) : Bool := bitAt e.toNat 2
def pteNx (e : W64) : Bool := bitAt e.toNat 3
def pteImm (e : W64) : Bool := bitAt e.toNat 4
def pteNear (e : W64) : Bool := bitAt e.toNat 5
def pteCp (e : W64) : Nat := bits e.toNat 6 2
def ptePoison (e : W64) : Bool := bitAt e.toNat 8
def pteRemote (e : W64) : Bool := bitAt e.toNat 9
def pteDrain (e : W64) : Bool := bitAt e.toNat 10
def pteHost (e : W64) : Bool := bitAt e.toNat 11

/-- What a walk finds. -/
inductive Walk where
  | leaf (pte : W64) (at_ size : Nat)
  | invalid
  | protection
  | drain
  /-- a table on a wing that is not online (R411) -/
  | stall
  | absent (addr : Nat)
  deriving DecidableEq, Repr

/-- The leaf checks of R405: reserved bits, CP, and the alignment of the frame to the page size. -/
def leafOk (e : W64) (size : Nat) : Bool :=
  let x := e.toNat
  bits x 12 4 == 0 && bits x 52 4 == 0 && pteCp e != 3 &&
  (if pteNear e then bits x 40 12 == 0 && bits x 16 14 % 2 ^ (size - 16) == 0
   else if pteRemote e && !pteHost e then true
   else bits x 16 36 % 2 ^ (size - 16) == 0)

/-- One level of the walk (R405): the remaining levels as (index shift, index bits). -/
def State.walkFrom (s : State) (va table : Nat) : List (Nat × Nat) → Walk
  | [] => .protection
  | (sh, w) :: rest =>
    let a := table + 8 * (va / 2 ^ sh % 2 ^ w)
    if !s.present a then .absent a
    else if !s.reachable a then .stall
    else
      let e : W64 := BitVec.ofNat 64 (s.commNat a 8)
      if pteDrain e then .drain
      else if !pteV e then .invalid
      else if pteLeaf e then
        if sh ≥ 39 then .protection else if leafOk e sh then .leaf e a sh else .protection
      else if bits e.toNat 52 4 != 0 || pteCp e == 3 then .protection
      else s.walkFrom va (bits e.toNat 11 41 * 2 ^ 11) rest

/-- The walk of R405 over its five levels. -/
def State.walk (s : State) (ptroot va : Nat) : Walk :=
  s.walkFrom va ptroot [(48, 8), (39, 9), (30, 9), (21, 9), (16, 5)]

/-- The bytes of the entries that a walk reads. -/
def State.walkBytes (s : State) (va table : Nat) : List (Nat × Nat) → List Nat
  | [] => []
  | (sh, w) :: rest =>
    let a := table + 8 * (va / 2 ^ sh % 2 ^ w)
    let e : W64 := BitVec.ofNat 64 (s.commNat a 8)
    (List.range 8).map (· + a) ++ (if pteV e && !pteLeaf e then s.walkBytes va (bits e.toNat 11 41 * 2 ^ 11) rest else [])

/-- The location of a virtual address under an entry (R104, R405). -/
def pteLoc (e : W64) (size asid va : Nat) : Nat :=
  let off := va % 2 ^ size
  if pteRemote e then
    if pteHost e then hostLoc (bits e.toNat 16 36 * 2 ^ 16 + off) else rankLoc (bits e.toNat 16 8) asid va
  else if pteNear e then nearPhys (bits e.toNat 38 2) (bits e.toNat 30 8) (bits e.toNat 16 14 * 2 ^ 16 + off)
  else bits e.toNat 16 36 * 2 ^ 16 + off

/-- A translated page: its virtual base, log2 of its size, its entry and where the entry stands. -/
structure PageTr where
  base  : Nat
  size  : Nat
  pte   : W64
  at_   : Nat
  asid  : Nat
  /-- found in the core's TLB -/
  hit   : Bool
  deriving DecidableEq, Repr

def PageTr.loc (p : PageTr) (va : Nat) : Nat := pteLoc p.pte p.size p.asid va
def PageTr.covers (p : PageTr) (va : Nat) : Bool := decide (p.base ≤ va) && decide (va < p.base + 2 ^ p.size)

/-- What an access does, for the attribute checks of R102. -/
inductive AccessKind where
  | read | write | fetch
  deriving DecidableEq, Repr

/-- The result of translating one page for an agent. -/
inductive Xlat where
  | page (p : PageTr)
  | fault        -- invalid: page fault
  | protection
  | poison
  | drain
  | stall
  | absent (addr : Nat)
  deriving DecidableEq, Repr

/-- The attribute checks of R102 on an entry. Of a page that is both POISON and RO or NX for the access the spec does not say
which fault is taken: the model takes protection (log entry 45). -/
def checkPte (k : AccessKind) (p : PageTr) : Xlat :=
  if k = .write && pteRo p.pte then .protection
  else if k = .fetch && pteNx p.pte then .protection
  else if ptePoison p.pte then .poison
  else .page p

/-- A translation through a core's TLB, or without one for an engine or the command processor (R102, R106, R405). -/
def State.translate (s : State) (core : Option Nat) (ctx va : Nat) (k : AccessKind) : Xlat :=
  let c := s.ctx ctx
  let entry := match core with
    | some n => (s.core n).tlb.find? (fun (e : TlbEntry) => e.asid == c.asid && decide (e.page ≤ va) && decide (va < e.page + 2 ^ e.size))
    | none => none
  match entry with
  | some e =>
    if e.drain then .drain
    else checkPte k { base := e.page, size := e.size, pte := e.pte, at_ := e.at_, asid := c.asid, hit := true }
  | none =>
    match s.walk c.ptroot va with
    | .leaf pte a size => checkPte k { base := va / 2 ^ size * 2 ^ size, size := size, pte := pte, at_ := a, asid := c.asid, hit := false }
    | .invalid => .fault
    | .protection => .protection
    | .drain => .drain
    | .stall => .stall
    | .absent a => .absent a

/-- A walked translation enters the core's TLB of 512 entries (R102, log entry 28); an uncorrectable entry that the walk has
read raises UECC (R425). -/
def State.fillTlb (s : State) (core : Nat) (p : PageTr) : State :=
  if p.hit then s
  else
    let s := match s.slotOfAsid p.asid with
      | some k => s.noteRead (s.walkBytes p.base (s.ctx k).ptroot [(48, 8), (39, 9), (30, 9), (21, 9), (16, 5)])
      | none => s
    (s.modCore core (fun c =>
      { c with tlb := ({ asid := p.asid, page := p.base, size := p.size, pte := p.pte, at_ := p.at_ } :: c.tlb).take 512 })).perfAdd core 4 1

/-- One 128-byte line forwarded through a REMOTE entry: REMOTELINE, and the wrap of the forward counter (R407). -/
def State.forwardLine (s : State) (core : Nat) (p : PageTr) : State :=
  if !pteRemote p.pte then s
  else
    let s := s.perfAdd core 9 1
    let c := s.core core
    match c.tlb.find? (fun e => e.asid == p.asid && e.page == p.base) with
    | none => s
    | some e =>
      if e.fwd < 63 then s.modCore core (fun c => { c with tlb := c.tlb.map (fun x => if x == e then { x with fwd := x.fwd + 1 } else x) })
      else
        let now : W64 := BitVec.ofNat 64 (s.commNat e.at_ 8)
        if now = e.pte then
          let new := BitVec.ofNat 64 (e.pte.toNat % 2 ^ 56 + min (e.pte.toNat / 2 ^ 56 + 1) 255 * 2 ^ 56)
          let s := s.setCommAll ((List.range 8).zip (leBytes 8 new.toNat) |>.map (fun q => (e.at_ + q.1, q.2)))
          s.modCore core (fun c => { c with tlb := c.tlb.map (fun x => if x == e then { x with fwd := 0, pte := new } else x) })
        else s.modCore core (fun c => { c with tlb := c.tlb.map (fun x => if x == e then { x with fwd := 0 } else x) })

-- views (R122, R126, R173, R179, R180)

/-- An agent of a launch that reads and writes global memory: its launch, and its team in an isolated task. -/
structure Viewer where
  launch : Nat
  team   : Nat
  deriving DecidableEq, Repr

/-- The size in bytes of an atomic type (R231). -/
def atomBytes (ty : AtomTy) : Nat := match ty.size with | .b64 => 8 | _ => 4

/-- One element of a reduction step on unit patterns (R77, R182, R231): the float types by elements, NaN rule by `nan`. -/
def stepFloat (F : FSpec) (op : AtomOp) (a b : Nat) : Nat :=
  match op with
  | .add => (F.fadd .rne a b).1
  | .min => (F.fminmax false a b).1
  | _ => (F.fminmax true a b).1

/-- One step of an atomic operation on unit values (R143, R231). -/
def atomStep (op : AtomOp) (ty : AtomTy) (a b : W64) : W64 :=
  let x := a.toNat
  let y := b.toNat
  let int := fun (w : Nat) (sg : Bool) =>
    let lt := if sg then decide (signedOf w x < signedOf w y) else decide (x < y)
    match op with
    | .add => (x + y) % 2 ^ w
    | .and => x &&& y
    | .or => x ||| y
    | .xor => x ^^^ y
    | .min => if lt then x else y
    | .max => if lt then y else x
    | .exch => y
  BitVec.ofNat 64 (match ty with
    | .n32 => int 32 false
    | .i32 => int 32 true
    | .n64 => int 64 false
    | .i64 => int 64 true
    | .f32 => stepFloat specF32 op x y
    | .f64 => stepFloat specF64 op x y
    | .h16x2 => stepFloat specF16 op (x % 2 ^ 16) (y % 2 ^ 16) + 2 ^ 16 * stepFloat specF16 op (x / 2 ^ 16) (y / 2 ^ 16)
    | .bf16x2 => stepFloat specBF16 op (x % 2 ^ 16) (y % 2 ^ 16) + 2 ^ 16 * stepFloat specBF16 op (x / 2 ^ 16) (y / 2 ^ 16))

/-- The element formats of a float atomic type. -/
def atomSpecs (ty : AtomTy) : List (FSpec × Nat) :=
  match ty with
  | .f32 => [(specF32, 0)]
  | .f64 => [(specF64, 0)]
  | .h16x2 => [(specF16, 0), (specF16, 16)]
  | .bf16x2 => [(specBF16, 0), (specBF16, 16)]
  | _ => []

/-- The value of a unit combined with a contribution, a NaN already there kept unchanged (R77, R182). -/
def combineUnit (op : AtomOp) (ty : AtomTy) (m c : W64) : W64 :=
  match atomSpecs ty with
  | [] => atomStep op ty m c
  | l => BitVec.ofNat 64 ((l.map (fun (F, sh) =>
      let x := bits m.toNat sh F.width
      let y := bits c.toNat sh F.width
      (if F.isNan x then x else if F.isNan y then y else
        let r := stepFloat F op x y
        if F.isNan r then F.qnan else r) * 2 ^ sh)).foldl (· + ·) 0)

/-- A byte of what a replay reads where no record of it has written: committed memory at its dispatch (R398). -/
def Replay.base (r : Replay) (loc : Nat) : Byte := if loc < localEnd then Tab.get r.mem0 0 loc else Tab.get r.remote0 0 loc

/-- A byte of a replay's view (R398). -/
def Replay.byte (r : Replay) (loc : Nat) : Byte := (Tab.find? r.view loc).getD (r.base loc)

/-- A byte below the team's own writes in an isolated task, or below the understory in a shared-view launch: the
launching team's view, the replay's view, the snapshot, committed memory (R179, R181, R398). -/
def State.baseByte (s : State) (L : Launch) (grid : Nat) (loc : Nat) : Byte :=
  let snap := (Tab.find? L.snap loc).getD (s.commByte loc)
  let rep := match L.replay with
    | none => snap
    | some q => match Tab.find? (s.ctx L.ctx).replays q with
      | none => snap
      | some r => r.byte loc
  match Tab.find? L.grids grid with
  | some g => (Tab.find? g.base loc).getD rep
  | none => rep

/-- The reduced unit of a write set that covers a location, with the unit's first location (R180). -/
def WSet.redAt (w : WSet) (loc : Nat) : Option (Nat × RedUnit) :=
  match Tab.find? w.red (loc / 8 * 8) with
  | some r => if loc < loc / 8 * 8 + atomBytes r.ty then some (loc / 8 * 8, r)
              else (Tab.find? w.red (loc / 4 * 4)).map (fun r => (loc / 4 * 4, r))
  | none => (Tab.find? w.red (loc / 4 * 4)).map (fun r => (loc / 4 * 4, r))

/-- A byte of the base view overlaid with a write set (R180). -/
def State.wsByte (s : State) (L : Launch) (grid : Nat) (ws : WSet) (loc : Nat) : Byte :=
  match Tab.find? ws.plain loc with
  | some p => p.val
  | none =>
    match ws.redAt loc with
    | none => s.baseByte L grid loc
    | some (u, r) =>
      let m := BitVec.ofNat 64 (leNat ((List.range (atomBytes r.ty)).map (fun i => s.baseByte L grid (u + i))))
      BitVec.ofNat 8 ((combineUnit r.op r.ty m r.acc).toNat / 256 ^ (loc - u))

/-- A byte in the view of an isolated-task team (R180). -/
def State.itByte (s : State) (L : Launch) (t : Team) (loc : Nat) : Byte := s.wsByte L t.grid t.ws loc

/-- A byte in the view of an agent of a launch; an IMM page and a published launch use committed memory (R122, R189). -/
def State.viewByte (s : State) (w : Viewer) (imm : Bool) (loc : Nat) : Byte :=
  match s.launch? w.launch with
  | none => s.commByte loc
  | some L =>
    if imm || L.irrev then s.commByte loc
    else if L.it then (match s.team? w.team with | some t => s.itByte L t loc | none => s.baseByte L 0 loc)
    else (Tab.find? L.lines loc).getD (s.baseByte L 0 loc)

/-- Whether no record of the replay that a launch belongs to has written a byte (R398). -/
def State.unreplayed (s : State) (L : Launch) (loc : Nat) : Bool :=
  match L.replay.bind (Tab.find? (s.ctx L.ctx).replays) with
  | some r => (Tab.find? r.view loc).isNone
  | none => true

/-- Whether the byte a view shows comes from committed memory (so that its ECC mark counts, R102). -/
def State.fromCommitted (s : State) (w : Viewer) (imm : Bool) (loc : Nat) : Bool :=
  match s.launch? w.launch with
  | none => true
  | some L =>
    if imm || L.irrev then true
    else if L.it then
      (match s.team? w.team with
       | some t => (Tab.find? t.ws.plain loc).isNone && (Tab.find? L.snap loc).isNone && s.unreplayed L loc
       | none => true)
    else (Tab.find? L.lines loc).isNone && s.unreplayed L loc

/-- The key of a view in L1: committed memory, a shared-view launch, or an isolated-task team. -/
def State.viewKey (s : State) (w : Viewer) (imm : Bool) : Nat :=
  match s.launch? w.launch with
  | none => 0
  | some L => if imm || L.irrev then 0 else if L.it then 2 * w.team + 3 else 2 * w.launch + 2

-- read signature (R176)

/-- The two signature bits of a line (R176). -/
def sigBits (p : Nat) : List Nat :=
  let l := p / 128
  let a := bits l 0 14
  let b := bits l 14 14
  let c := bits l 28 14
  [(a ^^^ b) ^^^ c, (5 * a + 3 * b + bits l 28 17) % 16384]

/-- Whether a launch keeps a signature: shared view, checked, not published, not a replay (R176, R178, R179, R189, R398). -/
def Launch.tracked (L : Launch) : Bool := !L.it && !L.nocheck && !L.irrev && L.replay.isNone

/-- A read recorded in the launch's signature (R176). -/
def State.recordRead (s : State) (launch : Nat) (imm : Bool) (loc : Nat) : State :=
  if imm || !decide (loc < localEnd) then s
  else s.modLaunch launch (fun L =>
    if L.tracked then { L with sig := (sigBits loc).foldl (fun t b => Tab.put t (roomOf loc * 16384 + b) ()) L.sig } else L)

/-- Whether a line hits a launch's signature (R176). -/
def Launch.hit (L : Launch) (loc : Nat) : Bool :=
  decide (loc < localEnd) && (sigBits loc).all (fun b => (Tab.find? L.sig (roomOf loc * 16384 + b)).isSome)

-- the understory pool (R187)

/-- The distinct 128-byte lines of a table of locations. -/
def lineCount {α : Type} (t : Tab α) : Nat := ((t.map (fun p => p.1 / 128)).eraseDups).length

/-- The distinct 128-byte lines of a write set. -/
def WSet.lineCount (w : WSet) : Nat := (((Tab.keys w.plain ++ Tab.keys w.red).map (· / 128)).eraseDups).length

/-- The lines that a context's launches hold in its pool (R187): understories and snapshots, and the write sets of resident and
of retired teams. -/
def State.poolUsed (s : State) (ctx : Nat) : Nat :=
  (s.launches.map (fun p => if p.2.ctx = ctx then lineCount p.2.lines + lineCount p.2.snap +
      (p.2.grids.flatMap (fun g => g.2.wsets.map (fun w => w.2.lineCount))).foldl (· + ·) 0 else 0)).foldl (· + ·) 0 +
  (s.teams.map (fun p => if p.2.ctx = ctx then p.2.ws.lineCount else 0)).foldl (· + ·) 0

/-- The lines the pool holds: 2 MiB chunks (R402, R404). -/
def State.poolSize (s : State) (ctx : Nat) : Nat := (s.ctx ctx).upcnt * 2 ^ 14

/-- The new understory lines that writes to these locations by an agent take (R187). -/
def State.newLines (s : State) (w : Viewer) (L : Launch) (locs : List Nat) : Nat :=
  let held := fun l => if L.it then
      (match s.team? w.team with
       | some t => t.ws.plain.any (fun p => p.1 / 128 == l) || t.ws.red.any (fun p => p.1 / 128 == l)
       | none => false)
    else L.lines.any (fun p => p.1 / 128 == l)
  (((locs.map (· / 128)).eraseDups).filter (fun l => !held l)).length

/-- A launch that waits to publish writes nothing, on no page and to no device (R189). Its writers stall, and count as blocked
(R187). -/
def State.mayWrite (s : State) (w : Viewer) : Except Stop Unit :=
  match s.launch? w.launch with
  | none => .ok ()
  | some L => if L.publishing then .error (.retry true) else .ok ()

/-- Whether writes to these locations by an agent find room in the pool (R187). A published launch needs none. -/
def State.poolCheck (s : State) (w : Viewer) (locs : List Nat) : Except Stop Unit :=
  match s.launch? w.launch with
  | none => .ok ()
  | some L =>
    if locs = [] || L.irrev then .ok ()
    else
      let n := s.newLines w L locs
      if n = 0 || s.poolUsed L.ctx + n ≤ s.poolSize L.ctx then .ok () else .error (.pool w.launch n)

-- writes

/-- One byte written in the view of an agent of a launch (R122, R173, R180, R189). -/
def State.writeByte (s : State) (w : Viewer) (imm : Bool) (loc va : Nat) (v : Byte) : State :=
  match s.launch? w.launch with
  | none => s.setComm loc v
  | some L =>
    if imm || L.irrev then s.setComm loc v
    else if L.it then
      s.modTeam w.team (fun t => { t with ws := { t.ws with plain := Tab.put t.ws.plain loc { val := v, va := va } } })
    else s.modLaunch w.launch (fun L => { L with lines := Tab.put L.lines loc v })

-- L1 (R98)

def sectorOf (loc : Nat) : Nat := loc / 32 * 32

/-- The L1 copy of a sector in a view. -/
def CoreRec.findL1 (c : CoreRec) (key loc : Nat) : Option L1Sector := c.l1.find? (fun x => x.view == key && x.loc == sectorOf loc)

/-- The L1 copies of a core dropped (CMAINT, acquires, SLEEP, YIELD; R118, R285, R334). -/
def State.dropL1 (s : State) (core : Nat) : State := s.modCore core (fun c => { c with l1 := [] })

/-- The copies of some sectors dropped in one core. -/
def State.dropSector (s : State) (core loc : Nat) : State :=
  s.modCore core (fun c => { c with l1 := c.l1.filter (fun x => x.loc != sectorOf loc) })

/-- The copies of some lines dropped in every core (R123). -/
def State.dropLines (s : State) (locs : List Nat) : State :=
  { s with cores := s.cores.map (fun p =>
      (p.1, { p.2 with l1 := p.2.l1.filter (fun x => !locs.any (fun l => l / 128 == x.loc / 128)) })) }

/-- A store updates the core's own L1 copy of the byte in its view (R98). -/
def State.patchL1 (s : State) (core key loc : Nat) (v : Byte) : State :=
  s.modCore core (fun c => { c with l1 := c.l1.map (fun x =>
    if x.view == key && x.loc == sectorOf loc then { x with data := x.data.set (loc - x.loc) v } else x) })

/-- The 128-byte lines that an L1 holds, each in its view. -/
def CoreRec.l1Lines (c : CoreRec) : List (Nat × Nat) := (c.l1.map (fun x => (x.view, x.loc / 128))).eraseDups

/-- L1 holds 128 KiB: 1024 lines (R98). A line beyond them evicts another, by a free choice (log entry 9). -/
def State.evictL1 (s : State) (core loc : Nat) : State :=
  let lines := (s.core core).l1Lines
  if lines.length ≤ 1024 then s
  else
    let others := lines.filter (fun x => x.2 != loc / 128)
    let (k, s) := s.pickBelow others.length
    s.modCore core (fun c => { c with l1 := c.l1.filter (fun x => others[k]? != some (x.view, x.loc / 128)) })

/-- A sector of a view comes into a core's L1 (R98). -/
def State.refillL1 (s : State) (core : Nat) (w : Viewer) (imm : Bool) (loc : Nat) : State :=
  let key := s.viewKey w imm
  let sector : L1Sector := { view := key, loc := sectorOf loc,
                             data := (List.range 32).map (fun i => s.viewByte w imm (sectorOf loc + i)) }
  (s.modCore core (fun c => { c with l1 := sector :: c.l1.filter (fun x => !(x.view == key && x.loc == sectorOf loc)) })).evictL1 core loc

/-- A line of a view comes into a core's L1, all four sectors of it (R283). -/
def State.refillLine (s : State) (core : Nat) (w : Viewer) (imm : Bool) (loc : Nat) : State :=
  (List.range 4).foldl (fun s k => s.refillL1 core w imm (loc / 128 * 128 + 32 * k)) s

/-- What L1 answers to a load of one sector part: an older copy, where it holds one and has not evicted it, which it may have
done at any time (R98, log entry 9). Otherwise the part is read afresh, and comes into L1. -/
def State.fromL1 (s : State) (core : Nat) (w : Viewer) (imm l1 : Bool) (loc n : Nat) : Option (List Byte) × State :=
  let fresh := (List.range n).map (fun i => s.viewByte w imm (loc + i))
  if !l1 then (none, s.dropSector core loc)
  else
    match (s.core core).findL1 (s.viewKey w imm) loc with
    | none => (none, (s.refillL1 core w imm loc).perfAdd core 2 1)
    | some x =>
      let old := (x.data.drop (loc - x.loc)).take n
      if old = fresh then (none, s)
      else
        let (k, s) := s.pickBelow 2
        if k = 0 then (some old, s) else (none, (s.refillL1 core w imm loc).perfAdd core 2 1)

/-- An address range cut at 32-byte sector boundaries (R110). -/
def sectorParts (fuel : Nat) (va n : Nat) : List (Nat × Nat) :=
  match fuel with
  | 0 => []
  | f + 1 => if n = 0 then [] else
      let k := min n (32 - va % 32)
      (va, k) :: sectorParts f (va + k) (n - k)

-- scratchpad (R91 to R96)

def Team.spadByte (t : Team) (a : Nat) : Byte := Tab.get t.spad 0 a
def Team.spadBytes (t : Team) (a n : Nat) : List Byte := (List.range n).map (fun i => t.spadByte (a + i))
def Team.spadNat (t : Team) (a n : Nat) : Nat := leNat (t.spadBytes a n)

def inRuns (runs : List (Nat × Nat)) (a : Nat) : Bool := runs.any (fun r => decide (r.1 ≤ a) && decide (a < r.1 + r.2))

/-- A matrix or rank operation in flight keeps what is replaced in the bytes that it reads (R65). While a granule is pending the
read waits, so what its landing replaces is not read (R95). -/
def MatOp.saw (op : MatOp) (t : Team) (as : List Nat) : MatOp :=
  { op with seen := op.seen ++ (as.filter (fun a => inRuns op.reads a && Tab.get t.pending 0 (a / 256) == 0)).map (fun a => (a, t.spadByte a)) }

/-- Some scratchpad bytes are about to be replaced. -/
def Team.replacing (t : Team) (as : List Nat) : Team := { t with mops := t.mops.map (fun p => (p.1, p.2.saw t as)) }

/-- Scratchpad bytes written, a range of them or some of them. -/
def Team.setSpad (t : Team) (a : Nat) (bs : List Byte) : Team :=
  { (t.replacing ((List.range bs.length).map (· + a))) with spad := Tab.setRange t.spad 0 a bs }
def Team.setSpadAll (t : Team) (bytes : Tab Byte) : Team := { (t.replacing (Tab.keys bytes)) with spad := Tab.setAll t.spad 0 bytes }

/-- The granules that a byte range touches (R94). -/
def granules (a n : Nat) : List Nat := if n = 0 then [] else (List.range ((a + n - 1) / 256 + 1 - a / 256)).map (· + a / 256)

/-- Whether a range touches a pending granule (R95, R96). -/
def Team.pendingAt (t : Team) (a n : Nat) : Bool := (granules a n).any (fun g => decide (Tab.get t.pending 0 g > 0))

/-- The pending bits of granules set by one more operation, or given up by one (R94). -/
def Team.addPending (t : Team) (gs : List Nat) : Team := { t with pending := gs.foldl (fun p g => Tab.adjust p 0 g (· + 1)) t.pending }
def Team.dropPending (t : Team) (gs : List Nat) : Team := { t with pending := gs.foldl (fun p g => Tab.adjust p 0 g (· - 1)) t.pending }

/-- Whether two byte ranges share a byte. -/
def overlaps (a n b m : Nat) : Bool := decide (a < b + m) && decide (b < a + n) && n != 0 && m != 0

/-- The bytes of the link table: 2 per block, rounded up to 256 (R57). -/
def linkBytes (n : Nat) : Nat := (2 * n + 255) / 256 * 256

/-- The ranges a store, atomic or engine may not write: registered abars, queue rings, the link table (R57, R142, R150). -/
def Team.guarded (t : Team) (a n : Nat) : Bool :=
  t.abars.any (fun x => overlaps a n x 16) || t.queues.any (fun q => overlaps a n q.2.ring (8 * q.2.depth)) ||
  (match t.pool with | some p => overlaps a n p.base (linkBytes p.count) | none => false)

/-- The whole write check of a scratchpad range for an engine or a vector store: outside the allocation, a guarded range,
a pending granule (R91, R96). -/
def Team.spadWriteCheck (t : Team) (a n : Nat) : Except Stop Unit := do
  trapIf (decide (t.spadSize < a + n)) cProtection (BitVec.ofNat 64 a)
  trapIf (t.guarded a n) cProtection (BitVec.ofNat 64 a)
  trapIf (t.pendingAt a n) cLanding (BitVec.ofNat 64 a)

/-- The stack byte of a lane (R100). -/
def stackKey (lane off : Nat) : Nat := lane * 2 ^ 32 + off
def Gang.stackByte (g : Gang) (lane off : Nat) : Byte := Tab.get g.stack 0 (stackKey lane off)
/-- The stack bytes of a lane written. Where a spilled frame stands in the cellar (R4, R100), and a spilled understory line in
the pool, the spec does not say: the model keeps both here in the machine and not in DRAM (log entry 46). -/
def Gang.setStack (g : Gang) (lane off : Nat) (bs : List Byte) : Gang := { g with stack := Tab.setRange g.stack 0 (stackKey lane off) bs }

-- translation of the pages of one instruction (R102)

/-- One access of a lane: address and size in bytes. -/
structure LaneAcc where
  lane : Nat
  va   : Nat
  n    : Nat
  deriving DecidableEq, Repr

/-- The stop that a page's translation gives, with TRADDR of R102: the address of the lowest active lane that touches the
page, or the page's first byte when that access begins on an earlier page. -/
def pageStop (x : Xlat) (a va : Nat) (pageSize : Nat) : Stop :=
  let tr := BitVec.ofNat 64 va
  match x with
  | .fault => .page (a / pageSize * pageSize) tr 0
  | .protection => .trap cProtection tr 0
  | .poison => .trap cPoison tr 0
  | .drain => .drain
  | .absent p => .absent p
  | .page _ | .stall => .retry false

/-- The pages of some accesses, translated in the order of the lowest lane that names each (R102). `a` walks the bytes of
an access by pages of 64 KiB at least. -/
def State.xlatAcc (s : State) (core : Option Nat) (ctx : Nat) (k : AccessKind) (fuel : Nat) (a va endVa : Nat) (done : List PageTr) :
    Except Stop (List PageTr) :=
  match fuel with
  | 0 => .ok done
  | f + 1 =>
    if endVa ≤ a then .ok done
    else match done.find? (·.covers a) with
    | some p => s.xlatAcc core ctx k f (p.base + 2 ^ p.size) va endVa done
    | none =>
      match s.translate core ctx a k with
      | .page p => s.xlatAcc core ctx k f (p.base + 2 ^ p.size) va endVa (done ++ [p])
      | x => .error (pageStop x a (if a = va then va else a) (2 ^ 16))

/-- The pages of all accesses of an instruction (R102). A range that leaves the 56-bit space faults as an invalid page. -/
def State.xlatAll (s : State) (core : Option Nat) (ctx : Nat) (k : AccessKind) (l : List LaneAcc) (done : List PageTr := []) :
    Except Stop (List PageTr) :=
  match l with
  | [] => .ok done
  | x :: r => do
    let d ← s.xlatAcc core ctx k 4 x.va x.va (x.va + x.n) done
    s.xlatAll core ctx k r d

/-- The page of an address among translated pages. -/
def pageOf (ps : List PageTr) (va : Nat) : PageTr :=
  (ps.find? (·.covers va)).getD { base := 0, size := 16, pte := 0, at_ := 0, asid := 0, hit := true }

/-- The local addresses of an access that do not exist (R104). -/
def State.absentIn (s : State) (locs : List Nat) : Option Nat := locs.find? (fun p => decide (p < localEnd) && !s.present p)

/-- The locations of an address range of a context, for an agent outside every launch (R122), or why there are none: of an
access that waits, a draining page, a page that is not resident, or a wing that is not online (R103, R406, R411). -/
def State.outside (s : State) (ctx : Nat) (k : AccessKind) (va n : Nat) : Except Stop (List Nat) := do
  let ps ← s.xlatAll none ctx k [{ lane := 0, va := va, n := n }]
  let locs := (List.range n).map (fun i => (pageOf ps (va + i)).loc (va + i))
  match s.absentIn locs with
  | some a => .error (.absent a)
  | none => if locs.all s.reachable then .ok locs else .error (.retry false)

/-- Whether an access that has stopped will be made later: it stalls, or the pager may bring its page. -/
def Stop.waits : Stop → Bool
  | .drain | .retry _ | .page _ _ _ => true
  | _ => false

/-- Whether an access of the command processor in a context waits: not for a page that the pager has given up (log entry 27). -/
def State.waitsFor (s : State) (ctx : Nat) (x : Stop) : Bool :=
  x.waits && (match x with | .page base _ _ => !(s.ctx ctx).lost.contains base | _ => true)

/-- Committed bytes of an address range of a context, read by an agent outside every launch (R122). -/
def State.readOutside (s : State) (ctx va n : Nat) : Except Stop (List Byte) := do
  let locs ← s.outside ctx .read va n
  .ok (locs.map s.commByte)

/-- Committed bytes written by an agent outside every launch. -/
def State.writeOutside (s : State) (ctx va : Nat) (bs : List Byte) : Except Stop State := do
  let locs ← s.outside ctx .write va bs.length
  .ok (s.setCommAll (locs.zip bs))

/-- The words of an address range that an agent outside every launch has read, noted (R425). -/
def State.noteOutside (s : State) (ctx va n : Nat) : State :=
  match s.outside ctx .read va n with
  | .ok locs => s.noteRead locs
  | .error _ => s

/-- The canonical form of memory: addresses strictly rising, no entry equal to the unlisted byte (log entry 2). -/
abbrev Memory.wf (m : List Host.Cell) : Bool := Tab.wf (0 : Byte) m

end Sys2Proof.Machine
end

