-- ==== Sys2Proof/Machine/Types.lean ====
section
/-! DEFINITION. Operand types (R69): widths, elements, and the combining steps and identities of reductions (R77, R88,
R273), shared by lane reductions, group operations and collectives. -/

namespace Sys2Proof.Machine

open Sys2Proof

/-- The width in bits of a value of a type (R69). -/
def tyWidth : Ty → Nat
  | .i8 | .n8 => 8
  | .i16 | .n16 => 16
  | .b64 | .i64 | .n64 | .f64 | .f32x2 => 64
  | _ => 32

/-- The types whose values take a register pair (R68). -/
def tyPair (t : Ty) : Bool := tyWidth t == 64

def tySigned : Ty → Bool
  | .i8 | .i16 | .i32 | .i64 => true
  | _ => false

/-- The float elements of a type, with their bit positions (R69). -/
def tyElems : Ty → List (FSpec × Nat)
  | .f32 => [(specF32, 0)]
  | .f64 => [(specF64, 0)]
  | .f32x2 => [(specF32, 0), (specF32, 32)]
  | .h16x2 => [(specF16, 0), (specF16, 16)]
  | .bf16x2 => [(specBF16, 0), (specBF16, 16)]
  | _ => []

/-- The value of a pattern in a type, signed or natural. -/
def tyInt (t : Ty) (x : Nat) : Int := if tySigned t then signedOf (tyWidth t) x else ((x % 2 ^ tyWidth t : Nat) : Int)

/-- The range of an integer type. -/
def tyMin (t : Ty) : Int := if tySigned t then -((2 ^ (tyWidth t - 1) : Nat) : Int) else 0
def tyMax (t : Ty) : Int := if tySigned t then ((2 ^ (tyWidth t - 1) : Nat) : Int) - 1 else ((2 ^ tyWidth t : Nat) : Int) - 1

/-- An integer as a pattern of `w` bits. -/
def patOf (w : Nat) (i : Int) : Nat := (i % ((2 ^ w : Nat) : Int)).toNat

/-- A pattern put together from per-element results. -/
def packElems (l : List (Nat × Nat)) : Nat := l.foldl (fun a p => a + p.1 * 2 ^ p.2) 0

/-- The identity of a reduction (R273). -/
def redIdentity (op : RedOp) (t : Ty) : Nat :=
  match op with
  | .and => 2 ^ tyWidth t - 1
  | .or | .xor => 0
  | .add => 0
  | .min => match tyElems t with
    | [] => patOf (tyWidth t) (tyMax t)
    | l => packElems (l.map (fun (F, sh) => (F.infinity false, sh)))
  | .max => match tyElems t with
    | [] => patOf (tyWidth t) (tyMin t)
    | l => packElems (l.map (fun (F, sh) => (F.infinity true, sh)))

/-- A contribution to a reduction: its pattern, and per float element the index of the contributor whose NaN prevails, or
none when no NaN has been met (R77). -/
structure Contrib where
  val  : Nat
  nans : List (Option Nat)
  deriving DecidableEq, Repr

/-- The contribution of index `i` (R77). -/
def contribOf (t : Ty) (i x : Nat) : Contrib :=
  { val := x, nans := (tyElems t).map (fun (F, sh) => if F.isNan (bits x sh F.width) then some i else none) }

/-- The lower of two NaN indices. -/
def minIdx : Option Nat → Option Nat → Option Nat
  | some a, some b => some (min a b)
  | some a, none => some a
  | none, b => b

/-- One combining step on patterns (R273): the value and the exceptions; NaNs among the operands are left to R77. -/
def redStepBits (rm : Rm) (op : RedOp) (t : Ty) (a b : Nat) : Nat × Exc :=
  match tyElems t with
  | [] =>
    let w := tyWidth t
    let less := tyInt t a < tyInt t b
    (match op with
     | .add => (a + b) % 2 ^ w
     | .min => if less then a else b
     | .max => if less then b else a
     | .and => a &&& b
     | .or => a ||| b
     | .xor => a ^^^ b, 0)
  | l =>
    let rs := l.map (fun (F, sh) =>
      let x := bits a sh F.width
      let y := bits b sh F.width
      let r := match op with
        | .add => F.fadd rm x y
        | .min => F.fminmax false x y
        | _ => F.fminmax true x y
      (r, sh))
    (packElems (rs.map (fun p => (p.1.1, p.2))), rs.foldl (fun e p => e ||| p.1.2) 0)

/-- One combining step of contributions: a NaN met anywhere prevails as a NaN until the end (R77). -/
def redStep (rm : Rm) (op : RedOp) (t : Ty) (a b : Contrib) : Contrib × Exc :=
  let (v, e) := redStepBits rm op t a.val b.val
  let nans := (a.nans.zip b.nans).map (fun p => minIdx p.1 p.2)
  let v' := packElems (((tyElems t).zip nans).map (fun ((F, sh), n) =>
    ((match n with | some _ => F.qnan | none => bits v sh F.width), sh)))
  ({ val := (if tyElems t = [] then v else v'), nans := nans }, e)

/-- The result of a reduction: a NaN contributor gives the payload of the lowest index, a NaN produced gives payload 0
(R77). -/
def redResult (t : Ty) (c : Contrib) : Nat :=
  match tyElems t with
  | [] => c.val
  | l => packElems ((l.zip c.nans).map (fun ((F, sh), n) =>
      ((match n with
        | some i => F.nanPayload i
        | none => let x := bits c.val sh F.width; if F.isNan x then F.nanPayload 0 else x), sh)))

/-- A left fold of contributions (R88), with the exceptions of its steps. -/
def redFold (rm : Rm) (op : RedOp) (t : Ty) (first : Contrib) (l : List Contrib) : Contrib × Exc :=
  l.foldl (fun p c => let (r, e) := redStep rm op t p.1 c; (r, p.2 ||| e)) (first, 0)

/-- FPMODE.RMD as a rounding mode (R73). -/
def rmdOf (fpmode : W64) : Rm := (codeToVal rmTab (bits fpmode.toNat 0 3)).getD .rne

/-- The rounding mode of an instruction (R71). -/
def effRm (fpmode : W64) (rm : Rm) : Rm := if rm = .dyn then rmdOf fpmode else rm

/-- The exceptions whose enable bit is set in FPMODE (R73, R75). -/
def enabledExc (fpmode : W64) (e : Exc) : Bool :=
  (bitAt fpmode.toNat 4 && e &&& Exc.nv != 0) || (bitAt fpmode.toNat 5 && e &&& Exc.dz != 0) ||
  (bitAt fpmode.toNat 6 && e &&& Exc.of != 0)

end Sys2Proof.Machine
end

