-- ==== Sys2Proof/Machine/Ending.lean ====
section
/-! DEFINITION. How things end: a gang passing an instruction it waited in, groups breaking (R136), write sets merging
(R181 to R183), grids retiring (R39), launch records ending (R392, R396), and launches aborting (R190, R191).
Readings of the spec that this file follows: log entries 15, 32 and 37. -/

namespace Sys2Proof.Machine

open Sys2Proof

-- passing an instruction

/-- The 32-bit mask of some lanes. -/
def laneMask (lanes : List Nat) : Nat := maskOf lanes

/-- Issue counts and lookahead windows of the slices that pass an instruction (R222, R256); an atomic or a STASH that they
had in progress is over (R144, R203). -/
def Gang.countIssue (g : Gang) (slices : List Nat) : Gang :=
  { g with
    gissue  := g.gissue + BitVec.ofNat 64 (if g.ganged then 1 else slices.length)
    gparted := g.gparted + BitVec.ofNat 64 (if g.ganged then 0 else slices.length)
    applied := g.applied &&& ~~~ BitVec.ofNat 32 (laneMask (lanesOf slices))
    plainDone := false
    pend    := g.pend.map (fun p => { p with left := slices.foldl (fun l i => l.modify i (fun x => if x ≤ 15 then x - 1 else x)) p.left }) }

/-- The slices go on at an address (R205). -/
def Gang.goTo (g : Gang) (slices : List Nat) (pc : W64) : Gang :=
  (g.modSlices slices (fun x => { x with pc := pc, wait := .ready })).countIssue slices

/-- The slices go on at the following slot, each from its own address. -/
def Gang.pass (g : Gang) (slices : List Nat) : Gang :=
  (g.modSlices slices (fun x => { x with pc := nextSlot x.pc, wait := .ready })).countIssue slices

/-- A gang that waited in a GANG-scope instruction completes it: its results are written and its live slices go on. -/
def State.release (s : State) (team gang : Nat) (f : Gang → Gang) : State :=
  s.modGang team gang (fun g => (f g).pass g.liveSlices)

-- groups

/-- The type that GRED names in IMM16[4:0] (R329). -/
def gredTyOf (f : FmtT) : Ty := (codeToVal tyTab (f.imm.toNat % 32)).getD .n64

/-- A result written into the destination of an arrival (R329). -/
def writeArrival (a : Arrival) (x : W64) (g : Gang) : Gang := match a.dest with | some d => g.wrS d x | none => g

/-- What an arrival receives from a broken group (R136, R329). -/
def brokenResult (a : Arrival) (g : Gang) : Gang :=
  (writeArrival a (match a.instr with
    | .gvote _ all _ => if all then 1 else 0
    | .gred _ op f => BitVec.ofNat 64 (redIdentity op (gredTyOf f))
    | _ => 0) g).setCc ccBrk true

def State.group (s : State) (ctx slot : Nat) : Group := Tab.get (s.ctx ctx).groups {} slot
def State.modGroup (s : State) (ctx slot : Nat) (f : Group → Group) : State :=
  s.modCtx ctx (fun c => { c with groups := Tab.adjust c.groups {} slot f })

/-- Every member blocked in an operation of a group completes it with BRK and the identity (R136, R137). -/
def State.releaseBroken (s : State) (ms : List Member) : State :=
  ms.foldl (fun s m => match m.arrived with | some a => s.release m.team m.gang (brokenResult a) | none => s) s

/-- Members removed as killed: the group breaks, pending operations complete, leaving gangs go, and a group without
members is freed (R136). -/
def State.breakGroup (s : State) (ctx slot : Nat) (killed : Member → Bool) : State :=
  let g := s.group ctx slot
  let rest := g.members.filter (fun m => !killed m)
  let stay := (rest.filter (fun m => !m.leaving)).map (fun m => { m with arrived := none })
  (s.modGroup ctx slot (fun g => { g with broken := true, members := stay, used := !stay.isEmpty })).releaseBroken rest

/-- Every group of a context with a killed member breaks (R136). -/
def State.killMembers (s : State) (ctx : Nat) (killed : Member → Bool) : State :=
  (Tab.keys (s.ctx ctx).groups).foldl (fun s k =>
    if (s.group ctx k).used && (s.group ctx k).members.any killed then s.breakGroup ctx k killed else s) s

/-- The groups that some teams created and nobody joined are freed (R131). -/
def State.freeUnjoined (s : State) (ctx : Nat) (teams : List Nat) : State :=
  (Tab.keys (s.ctx ctx).groups).foldl (fun s k =>
    if (s.group ctx k).used && !(s.group ctx k).joined && teams.contains (s.group ctx k).creator then
      s.modGroup ctx k (fun g => { g with used := false })
    else s) s

/-- The work lists that some teams were home of lose their home consumer (R44). -/
def State.dropHomes (s : State) (ctx : Nat) (teams : List Nat) : State :=
  s.modCtx ctx (fun c => { c with wlists := c.wlists.map (fun p =>
    (p.1, match p.2.home with | some (t, _) => if teams.contains t then { p.2 with home := none, waiting := none } else p.2 | none => p.2)) })

/-- Teams taken out of the device, with their collectives, save records and registrations (R131, R191, R202). `killed` gives the
members of groups that are killed with them (R136): none where a team retires, whose gangs have left by `EXIT` and count as
arrived until their phase completes (R133). -/
def State.removeTeams (s : State) (ctx : Nat) (teams : List Nat) (killed : Member → Bool) : State :=
  let s := ((s.killMembers ctx killed).freeUnjoined ctx teams).dropHomes ctx teams
  { s with teams := s.teams.filter (fun p => !teams.contains p.1),
           colls := s.colls.filter (fun p => !teams.contains p.2.team) }

-- write sets (R180 to R183)

def atomTyTy : AtomTy → Ty
  | .n32 => .n32 | .i32 => .i32 | .n64 => .n64 | .i64 => .i64
  | .f32 => .f32 | .f64 => .f64 | .h16x2 => .h16x2 | .bf16x2 => .bf16x2

def atomRed : AtomOp → RedOp
  | .and => .and | .or => .or | .xor => .xor | .min => .min | .max => .max
  | .add | .exch => .add

/-- A reduced unit's committed value and the teams' contributions folded in TEAMID order (R182). -/
def mergeUnit (op : AtomOp) (ty : AtomTy) (m : Nat) (cs : List (Nat × Nat)) : Nat :=
  let t := atomTyTy ty
  let (c, _) := redFold .rne (atomRed op) t (contribOf t 0 m) (cs.map (fun (i, x) => contribOf t i x))
  match tyElems t with
  | [] => c.val
  | l =>
    let r := redResult t c
    packElems (l.map (fun (F, sh) => let x := bits m sh F.width; ((if F.isNan x then x else bits r sh F.width), sh)))

/-- How a team's write set claims a byte (R180): none for plain, else the reduced unit's first location, operation and type. -/
structure Claim where
  loc  : Nat
  va   : Nat
  team : Nat
  how  : Option (Nat × AtomOp × AtomTy)
  deriving DecidableEq, Repr

def WSet.claims (w : WSet) (team : Nat) : List Claim :=
  w.plain.map (fun p => { loc := p.1, va := p.2.va, team := team, how := none }) ++
  w.red.flatMap (fun p => ((List.range (atomBytes p.2.ty)).filter (fun i => (Tab.find? w.plain (p.1 + i)).isNone)).map
    (fun i => { loc := p.1 + i, va := p.2.va + i, team := team, how := some (p.1, p.2.op, p.2.ty) }))

/-- The merge conflict of R183: the lowest conflicting address and the two lowest TEAMIDs that claim it. -/
def mergeConflict (l : List (Nat × WSet)) : Option (Nat × Nat × Nat) :=
  let cs := l.flatMap (fun p => p.2.claims p.1)
  let bad := cs.filterMap (fun c =>
    match cs.filter (fun d => d.loc == c.loc && d.team != c.team) with
    | [] => none
    | others =>
      match others.filter (fun d => d.how.isNone || d.how != c.how) with
      | [] => none
      | o => some (c.va, c.team, (o.map (·.team)).foldl min (o.headD c).team))
  match bad with
  | [] => none
  | b :: r =>
    let va := (r.map (·.1)).foldl min b.1
    let ts := ((bad.filter (fun x => x.1 == va)).flatMap (fun x => [x.2.1, x.2.2])).eraseDups
    let lo := ts.foldl min (ts.headD 0)
    let hi := (ts.filter (· != lo)).foldl min ((ts.filter (· != lo)).headD 0)
    some (va, lo, hi)

/-- The bytes that write sets merge to over a base view (R182). -/
def mergeBytes (base : Nat → Byte) (l : List (Nat × WSet)) : List (Nat × PlainByte) :=
  let plain := l.flatMap (fun p => p.2.plain)
  let units := (l.flatMap (fun p => p.2.red.map (fun q => (q.1, q.2.op, q.2.ty, q.2.va)))).eraseDups
  let red := units.flatMap (fun (u, op, ty, va) =>
    let m := leNat ((List.range (atomBytes ty)).map (fun i => base (u + i)))
    let cs := l.filterMap (fun p => match Tab.find? p.2.red u with
      | some r => if r.op = op && r.ty = ty then some (p.1, r.acc.toNat) else none
      | none => none)
    let r := mergeUnit op ty m cs
    ((List.range (atomBytes ty)).filter (fun i => !plain.any (fun p => p.1 == u + i))).map
      (fun i => (u + i, ({ val := BitVec.ofNat 8 (r / 256 ^ i), va := va + i } : PlainByte))))
  plain ++ red

/-- Reduced units whose bytes are all plain are dropped. -/
def WSet.tidy (w : WSet) : WSet :=
  { w with red := w.red.filter (fun r => (List.range (atomBytes r.2.ty)).any (fun k => (Tab.find? w.plain (r.1 + k)).isNone)) }

/-- Merged bytes replace what a write set held of them, byte by byte (R181). -/
def WSet.absorb (w : WSet) (new : List (Nat × PlainByte)) : WSet := ({ w with plain := Tab.putAll w.plain new } : WSet).tidy

/-- A child grid's write sets merge into the launching team's write set, which stands in its grid once that team has
retired (R181); a conflict is kept for the commit (R183), the first one merged where several child grids have one. A grid is
merged once. The spec leaves open what a byte that child teams only reduced becomes: the model makes it plain, with the
launching team's view at the merge as M (log entry 47). -/
def State.mergeChild (s : State) (launch grid : Nat) : State :=
  match s.launch? launch with
  | none => s
  | some L =>
    match Tab.find? L.grids grid with
    | none => s
    | some g =>
      match g.parent with
      | none => s
      | some (pt, idx) =>
        if !L.it || g.merged then s
        else
          let pg := g.parentGrid.getD 0
          let cur : WSet := match s.team? pt with
            | some t => t.ws
            | none => ((Tab.find? L.grids pg).bind (fun q => Tab.find? q.wsets idx)).getD {}
          let new := cur.absorb (mergeBytes (s.wsByte L pg cur) g.wsets)
          let s := s.modLaunch launch (fun L =>
            { L with conflict := L.conflict.orElse (fun _ => mergeConflict g.wsets),
                     grids := Tab.modify L.grids grid (fun q => { q with merged := true, wsets := [] }) })
          match s.team? pt with
          | some _ => s.modTeam pt (fun t => { t with ws := new })
          | none => s.modLaunch launch (fun L => { L with grids := Tab.modify L.grids pg (fun q => { q with wsets := Tab.put q.wsets idx new }) })

/-- The children of a grid that no CJOIN has merged, in LAUNCH order (R181). -/
def State.mergeChildren (s : State) (launch grid : Nat) : State :=
  match s.launch? launch with
  | none => s
  | some L => (Tab.keys (L.grids.filter (fun p => p.2.parentGrid == some grid && !p.2.merged))).foldl
      (fun s n => s.mergeChild launch n) s

-- the completion word and the end of a record (R392, R396, R400)

def recSeq (r : LaunchRec) : Nat := bits r.attr.toNat 32 32
def recIntr (r : LaunchRec) : Bool := bitAt r.attr.toNat 11

/-- The completion word of R392. -/
def completionWord (r : LaunchRec) (status : Byte) (code : BitVec 16) (attempt : Nat) : Nat :=
  status.toNat + code.toNat * 2 ^ 8 + attempt % 16 * 2 ^ 24 + recSeq r * 2 ^ 32

def State.modQueue (s : State) (ctx q : Nat) (f : LQueue → LQueue) : State :=
  s.modCtx ctx (fun c => { c with queues := Tab.adjust c.queues {} q f })
def State.queue (s : State) (ctx q : Nat) : LQueue := Tab.get (s.ctx ctx).queues {} q

/-- Whether every record of a queue before a place in it has ended (R174, R396). -/
def State.earlierEnded (s : State) (ctx q ord : Nat) : Bool :=
  let c := s.ctx ctx
  c.ready.all (fun r => r.queue != q || decide (ord ≤ r.ord)) &&
  s.launches.all (fun p => p.2.ctx != ctx || p.2.queue != q || p.2.replay.isSome || decide (ord ≤ p.2.ord)) &&
  (match Tab.find? c.replays q with | some r => decide (ord ≤ r.rr.ord) | none => true)

/-- The launch, or the replay, of a queue that now meets every condition of R174 becomes ready to commit (R175). -/
def State.stampReady (s : State) (ctx q : Nat) : State :=
  let due := s.launches.filter (fun p => p.2.ctx == ctx && p.2.queue == q && p.2.replay.isNone && p.2.ready && p.2.readyAt == 0 &&
    s.earlierEnded ctx q p.2.ord)
  match due with
  | (id, _) :: _ => let (n, s) := s.fresh; s.modLaunch id (fun L => { L with readyAt := n })
  | [] =>
    match Tab.find? (s.ctx ctx).replays q with
    | some r =>
      if r.todo.isEmpty && r.running.isNone && r.readyAt == 0 && s.earlierEnded ctx q r.rr.ord then
        let (n, s) := s.fresh
        s.modCtx ctx (fun c => { c with replays := Tab.modify c.replays q (fun r => { r with readyAt := n }) })
      else s
    | none => s

/-- The launch, or else the replay, of a queue that became ready to commit from the number `n` on is put last in the order of
becoming ready. -/
def State.restamp (s : State) (ctx n q : Nat) : State :=
  match s.launches.filter (fun p => p.2.ctx == ctx && p.2.queue == q && p.2.readyAt != 0 && decide (n ≤ p.2.readyAt)) with
  | (id, _) :: _ => let (m, s) := s.fresh; s.modLaunch id (fun L => { L with readyAt := m })
  | [] =>
    match Tab.find? (s.ctx ctx).replays q with
    | some r =>
      if r.readyAt != 0 && decide (n ≤ r.readyAt) then
        let (m, s) := s.fresh
        s.modCtx ctx (fun c => { c with replays := Tab.modify c.replays q (fun r => { r with readyAt := m }) })
      else s
    | none => s

/-- What became ready to commit in one event, from the number `n` on, commits in ascending queue number (R175). -/
def State.inQueueOrder (s : State) (ctx n : Nat) : State := (List.range 64).foldl (fun s q => s.restamp ctx n q) s

/-- Something that waits for a page is kept (log entry 27). -/
def State.post (s : State) (ctx : Nat) (p : Post) : State := s.modCtx ctx (fun c => { c with posts := c.posts ++ [p] })

/-- A word that the command processor or the trigger unit writes at an address: none while the write waits; a page that takes no
write loses the word (log entry 27). -/
def State.putWord (s : State) (ctx : Nat) (at_ : W64) (val : Nat) : Option State :=
  match s.writeOutside ctx at_.toNat (leBytes 8 val) with
  | .ok t => some t
  | .error x => if x.waits then none else some s

/-- The end of a record: its completion word and CTXERR, then END (R392, R400). A word that has to wait is written later, and
END follows it. A record that did not commit is remembered for the SERIAL records after it (R396). -/
def State.endRecord (s : State) (ctx q ord : Nat) (r : LaunchRec) (status : Byte) (code : BitVec 16) (attempt : Nat) : State :=
  let word := completionWord r status code attempt
  let t := if r.join = 0 then some s else s.putWord ctx r.join word
  let s := t.getD (s.post ctx (.word r.join word (recIntr r) none))
  let s := if status = 2 || status = 3 || status = 4 then s.raiseIstat ctx istatCtxerr else s
  let s := if recIntr r && t.isSome then s.raiseIstat ctx istatEnd else s
  (if status = 0 then s else s.modQueue ctx q (fun x => { x with bad := x.bad ++ [ord] })).stampReady ctx q

-- abort (R190, R191)

def stCommitted : Byte := 0x00
def stKilled : Byte := 0x01
def stContext : Byte := 0x02
def stPoison : Byte := 0x03
def stMerge : Byte := 0x04
def stOverflow : Byte := 0x05
def stLabort : Byte := 0x06
def stConflict : Byte := 0x07
def stResource : Byte := 0x08
def stShape : Byte := 0x09
def stAttr : Byte := 0x0A

/-- The launch goes: its teams stop at once, its understory and snapshot are discarded, its engines are cancelled, its
group members are killed, those too that are leaving and whose team has retired (R136, R191). -/
def State.dropLaunch (s : State) (id : Nat) : State :=
  match s.launch? id with
  | none => s
  | some L =>
    let teams := (s.teams.filter (fun p => p.2.launch == id)).map (·.1)
    let s := s.removeTeams L.ctx teams (fun m => m.launch == id)
    { s with launches := Tab.del s.launches id }

/-- Whether an abort with this status is run again (R177, R190). -/
def Launch.reruns (L : Launch) (status : Byte) (code : BitVec 16) : Bool :=
  (status = stConflict || (status = stLabort && code = 1)) && decide (L.attempt < L.retry) && L.replay.isNone

/-- A replay ends with the status of the record that failed (R398). -/
def State.failReplay (s : State) (ctx q : Nat) (status : Byte) (code : BitVec 16) : State :=
  match Tab.find? (s.ctx ctx).replays q with
  | none => s
  | some r =>
    (s.modCtx ctx (fun c => { c with replays := Tab.del c.replays q })).endRecord ctx q r.rr.ord r.rr.lrec status code r.rr.attempt

/-- A launch aborts with a status (R190, R191): a published one ends with CONTEXT and keeps what it wrote; one that is run
again goes back to its place in its queue with the next ATTEMPT; any other record ends. -/
def State.abortLaunch (s : State) (id : Nat) (status : Byte) (code : BitVec 16 := 0) : State :=
  match s.launch? id with
  | none => s
  | some L =>
    let (status, code) := if L.irrev then (stContext, (0 : BitVec 16)) else (status, code)
    let s := s.dropLaunch id
    match L.replay with
    | some q => s.failReplay L.ctx q status code
    | none =>
      if L.reruns status code then
        s.modCtx L.ctx (fun c => { c with ready := { queue := L.queue, ord := L.ord, lrec := L.lrec, attempt := L.attempt + 1 } :: c.ready })
      else s.endRecord L.ctx L.queue L.ord L.lrec status code L.attempt

/-- A conflict aborts a launch (R177). One that is held aborts when it is resumed: until then it neither commits nor aborts
(R399, log entry 40). -/
def State.conflictAbort (s : State) (id : Nat) : State :=
  match s.launch? id with
  | some L => if L.held then s.modLaunch id (fun L => { L with doomed := true }) else s.abortLaunch id stConflict
  | none => s

-- grids (R39)

/-- A grid whose teams and children have all retired is done; a child then lowers its parent's join counter, and the top
grid makes the launch ready (R39, R174, R181). -/
def State.checkGrid (s : State) (launch : Nat) (fuel grid : Nat) : State :=
  match fuel with
  | 0 => s
  | f + 1 =>
    match (s.launch? launch).bind (fun L => Tab.find? L.grids grid) with
    | none => s
    | some g =>
      if g.done || g.placed != g.total || g.retired != g.total || g.kids != 0 then s
      else
        let s := (s.mergeChildren launch grid).modLaunch launch (fun L =>
          { L with grids := Tab.modify L.grids grid (fun g => { g with done := true }) })
        match g.parentGrid with
        | none =>
          let s := s.modLaunch launch (fun L => { L with ready := true })
          (match s.launch? launch with | some L => s.stampReady L.ctx L.queue | none => s)
        | some p =>
          (s.modLaunch launch (fun L => { L with grids := Tab.modify L.grids p (fun g => { g with kids := g.kids - 1 }) })).checkGrid launch f p

end Sys2Proof.Machine
end

