-- ==== Sys2Proof/Machine/Saving.lean ====
section
/-! DEFINITION. Long-latency results (R222, R223), and saving a team (R198 to R200, R410): the cooperative save of a team
whose gangs have all yielded, and the forced save. -/

namespace Sys2Proof.Machine

open Sys2Proof

-- long-latency results (R222)

/-- One long-latency result written. -/
def Gang.writeDest (g : Gang) (p : Dest × W64) : Gang :=
  match p.1 with
  | .v r l => g.wrV r l (p.2.setWidth 32)
  | .n r l => g.wrN r l (p.2.setWidth 32)
  | .s r => g.wrS r p.2
  | .m r l => g.wrM r ((setBit ((g.rdM r).setWidth 64) l (p.2 != 0)).setWidth 32)
  | .cc k => { g with cc := (g.cc &&& ~~~ BitVec.ofNat 64 k) ||| (p.2 &&& BitVec.ofNat 64 k) }

/-- Every pending result of a gang written (R223). -/
def Gang.land (g : Gang) : Gang :=
  { (g.pend.foldl (fun g p => p.writes.foldl Gang.writeDest g) g) with pend := [] }

/-- The pending results whose windows are used up for one of some slices are written; the others stay pending (R222, log
entry 11). -/
def Gang.landDue (g : Gang) (slices : List Nat) : Gang :=
  let due := fun (p : Pending) => slices.any (fun i => p.left.getD i 1 == 0)
  { ((g.pend.filter due).foldl (fun g p => p.writes.foldl Gang.writeDest g) g) with pend := g.pend.filter (fun p => !due p) }

/-- The pending results of the instructions that have a window open in one of some slices are written: those slices close their
windows (R223). -/
def Gang.landOf (g : Gang) (slices : List Nat) : Gang :=
  let due := fun (p : Pending) => slices.any (fun i => decide (p.left.getD i 1000000 ≤ 15))
  { ((g.pend.filter due).foldl (fun g p => p.writes.foldl Gang.writeDest g) g) with pend := g.pend.filter (fun p => !due p) }

/-- The live slices of a gang, as data. -/
def Gang.liveData (g : Gang) : List Slice := g.slices.filter (·.live)

-- saving

/-- Whether R146 counts a slice with this wait as blocked. -/
def Wait.blocked : Wait → Bool
  | .rendez _ | .queue _ | .list _ | .group _ | .append _ | .sleep | .abar _ _ | .room _ | .batch _ | .join _ | .copyYield _ => true
  | .retry b => b
  | .ready | .pager _ _ | .drain | .yielded => false

/-- Whether a gang has yielded (R198, R243): each live slice has stopped at a YIELD or is blocked; not in handler state. -/
def Gang.hasYielded (g : Gang) : Bool := !g.handler && g.liveData.all (fun x => x.wait == .yielded || x.wait.blocked)

/-- Whether a team has yielded (R198). -/
def Team.hasYielded (t : Team) : Bool := t.gangs.all (·.hasYielded)

/-- The size of a team's save record in bytes (R410). -/
def Team.recordBytes (t : Team) : Nat :=
  let sg := t.spadSize / 256
  256 + t.gangs.length * 4096 + t.gangs.length * t.nregs * 128 + sg * 256 + ((sg + 7) / 8 + 63) / 64 * 64 + t.slots.length * 4096 + 16384

def Team.recordUnits (t : Team) : Nat := (t.recordBytes + 65535) / 65536

/-- The lowest place of `n` consecutive units that no save record holds in a pool of `size` units (R410). -/
def freeUnits (held : List (Nat × Nat)) (size n : Nat) : Option Nat :=
  let free := fun u => decide (u + n ≤ size) && !held.any (fun (a, k) => overlaps u n a k)
  match (0 :: held.map (fun (a, k) => a + k)).filter free with
  | [] => none
  | c :: cs => some (cs.foldl min c)

def State.saveRecords (s : State) : List (Nat × Nat) := s.teams.filterMap (fun p => p.2.saveAt.map (fun x => (x.1, x.2.1)))

/-- Where a unit of the save pool stands in memory (R401, R410). -/
def State.unitAt (s : State) (u : Nat) : Nat := s.drv.savebase.toNat + 65536 * u

/-- Whether some units of the save pool can be written: they exist, on a wing that is online. -/
def State.unitsOpen (s : State) (u n : Nat) : Bool :=
  (List.range n).all (fun k => [s.unitAt (u + k), s.unitAt (u + k) + 65535].all (fun a => s.present a && s.reachable a))

/-- Room in the save pool for a team's record (R410). -/
def State.saveRoom (s : State) (t : Team) : Option Nat :=
  (freeUnits s.saveRecords (s.drv.savesz.toNat / 65536) t.recordUnits).filter (fun u => s.unitsOpen u t.recordUnits)

/-- The bytes of a save record: which ones R410 does not say, beyond the sections, so each record's are free values (log entry
30). -/
def imageOf (image n : Nat) : List Byte := (List.range n).map (Config.recordByte image)

/-- Whether a team's save record still holds what the save wrote: its CRC and its version match (R410). -/
def State.imageOk (s : State) (t : Team) : Bool :=
  match t.saveAt with
  | none => true
  | some (u, _, image) =>
    (List.range t.recordBytes).all (fun k => s.commByte (s.unitAt u + k) == Config.recordByte image k &&
      (Tab.find? s.uncorr (s.unitAt u + k)).isNone)

/-- A gang's registers as a save records them: pending results land (R223); a gang that executed YIELD loses n and b in a
cooperative save (R199). -/
def Gang.saved (g : Gang) (coop : Bool) : Gang :=
  let g := g.land
  let y := g.liveData.any (fun x => x.wait == .yielded)
  { g with
      n := if coop && y then [] else g.n
      b := if coop && y then [] else g.b }

/-- A team saved, its record written at some units of the pool (R410). What R200 lists is kept in the team (log entry 30). -/
def State.saveTeam (s : State) (team unit : Nat) (coop : Bool) : State :=
  match s.team? team with
  | none => s
  | some t =>
    let (image, s) := s.fresh
    (s.setCommAll (cellsAt (s.unitAt unit) (imageOf image t.recordBytes))).modTeam team (fun t => { t with
      status := .saved, saveAt := some (unit, t.recordUnits, image), gangs := t.gangs.map (fun g => g.saved coop) })

/-- The teams that are saved and restored together with one (R42): the teams of its COHORT grid, or itself. -/
def State.together (s : State) (team : Nat) : List Nat :=
  match s.team? team with
  | none => []
  | some t =>
    if t.cohort then (s.teams.filter (fun p => p.2.launch == t.launch && p.2.grid == t.grid)).map (·.1) else [team]

/-- A team saved, none where the pool has no room for it (R410); a saved team stays as it is. -/
def State.saveOne (s : State) (coop : Bool) (id : Nat) : Option State :=
  match s.team? id with
  | none => some s
  | some t =>
    if t.status = .saved then some s
    else match s.saveRoom t with
      | none => none
      | some u => some (s.saveTeam id u coop)

/-- Some teams saved one after another, or none of them where the pool has no room for all (R410). -/
def State.saveAll (s : State) (coop : Bool) (teams : List Nat) : Option State :=
  match teams with
  | [] => some s
  | id :: r =>
    match s.saveOne coop id with
    | none => none
    | some t => t.saveAll coop r

/-- The cooperative save (R199): with PRQ set, once every live gang has yielded. -/
def State.trySave (s : State) (team : Nat) : State :=
  match s.team? team with
  | none => s
  | some t =>
    if !t.prq || t.status = .saved || t.liveGangs = [] then s
    else
      let ids := s.together team
      if ids.all (fun id => match s.team? id with | some u => u.hasYielded | none => true) then (s.saveAll true ids).getD s else s

end Sys2Proof.Machine
end

