-- ==== Sys2Proof/Machine/Ops.lean ====
section
/-! DEFINITION. Taking a trap and returning from one (R192 to R196, R399), the scoped rendezvous (R27 to R32, R270), and the
forms in which every instruction is performed: per lane or slice, per gang, or at its scope.
Readings of the spec that this file follows: log entries 15, 19, 20, 32 and 36. -/

namespace Sys2Proof.Machine

open Sys2Proof

abbrev Res := Host.Outcome State Fault Refusal

-- traps (R192 to R196, R399)

/-- A slice that issues nothing more after the halt. -/
def Slice.stops (already : Bool) (x : Slice) : Slice := let n := if already then x.skid else 0; { x with skid := n, skidMax := n }

/-- The halt of R194 reaches some slices of a gang that issue together: they stop, or may issue up to a free number of at most
four instructions more (log entry 13). Slices that wait stop where they wait, and so do those that trap. -/
def State.haltSlices (s : State) (team gang : Nat) (slices : List Nat) (trap already : Bool) : State :=
  if trap || slices.any (fun k => ((s.gang team gang).slice k).wait != .ready) then
    s.modGang team gang (fun g => g.modSlices slices (·.stops already))
  else if already then s
  else
    let (k, s) := s.pickBelow 5
    s.modGang team gang (fun g => g.modSlices slices (fun x => { x with skid := 0, skidMax := k }))

/-- The halt of R194 reaches a gang, in which some slices trap. -/
def State.haltGang (s : State) (team gang : Nat) (stopped : List Nat) : State :=
  let g := s.gang team gang
  let already := match s.team? team with | some t => t.halted | none => false
  if g.ganged then s.haltSlices team gang g.liveSlices (!stopped.isEmpty) already
  else g.liveSlices.foldl (fun s k => s.haltSlices team gang [k] (stopped.contains k) already) s

/-- The team halt of R194. -/
def State.haltTeam (s : State) (team gang : Nat) (stopped : List Nat) : State :=
  match s.team? team with
  | none => s
  | some t =>
    (t.liveGangs.foldl (fun s i => s.haltGang team i (if i = gang then stopped else [])) s).modTeam team (fun t => { t with halted := true })

/-- A context error (R196): the launch ends with status CONTEXT. -/
def State.contextError (s : State) (launch : Nat) : State := s.abortLaunch launch stContext

/-- Whether a launch is an isolated task (R184). -/
def State.isolated (s : State) (launch : Nat) : Bool := match s.launch? launch with | some L => L.it | none => false

/-- HOLD of the launch's record (R389). -/
def Launch.holds (L : Launch) : Bool := bitAt L.lrec.attr.toNat 10

/-- A trap routed to the host: the launch aborts, or every team of its tree is held (R399). A saved team issues nothing, and is
held as it is. -/
def State.trapToHost (s : State) (launch : Nat) : State :=
  match s.launch? launch with
  | none => s
  | some L =>
    if L.holds then
      let teams := (s.teams.filter (fun p => p.2.launch == launch && p.2.status == .running)).map (·.1)
      ((teams.foldl (fun s t => s.haltTeam t 0 []) s).modLaunch launch (fun L => { L with held := true })).raiseIstat L.ctx istatHeld
    else s.abortLaunch launch stContext

/-- An entry joins a pending-trap queue (R195): in program order, and among the slices of a parted gang in ascending SLICEID.
Entries of one slice come in its program order. -/
def queueTrap (q : List TrapEntry) (e : TrapEntry) : List TrapEntry :=
  let before := q.takeWhile (fun x => !(x.parted && e.parted && decide (e.slice < x.slice)))
  before ++ [e] ++ q.drop before.length

/-- QOVF marked in a gang's first entry and in its trap record (R196). -/
def Gang.overflowed (g : Gang) : Gang :=
  { g with queue := g.queue.modifyHead (fun e => { e with qovf := true }), trec := { g.trec with cause := setBit g.trec.cause 9 true } }

/-- Taking a trap (R192 to R196): poison aborts the launch; a trap in handler state, or one that finds the queue full, is a
context error; a page fault, or any trap without a handler, goes to the host; every other trap halts the team and enters
the gang's pending-trap queue. The slices that raised it stop at their instruction. -/
def State.takeTrap (s : State) (team gang : Nat) (slices : List Nat) (e : TrapEntry) : State :=
  match s.team? team with
  | none => s
  | some t =>
    let g := t.gang gang
    if e.cause = cPoison then s.abortLaunch t.launch stPoison
    else if g.handler then s.contextError t.launch
    else if decide (g.queue.length ≥ 8) then (s.modGang team gang Gang.overflowed).contextError t.launch
    else
      let s := s.modGang team gang (fun g => g.modSlices slices (fun x => { x with wait := .ready }))
      if t.trapvec = 0 || e.cause = cPage then (s.haltTeam team gang slices).trapToHost t.launch
      else (s.haltTeam team gang slices).modGang team gang (fun g => { g with queue := queueTrap g.queue e })

/-- TRCAUSE (R193). -/
def trcauseOf (e : TrapEntry) : W64 :=
  BitVec.ofNat 64 (e.cause + (if e.setflt then 2 ^ 8 else 0) + (if e.qovf then 2 ^ 9 else 0) + e.slice % 8 * 2 ^ 10 + (if e.parted then 2 ^ 13 else 0))

/-- The trap record that handler state reads for an entry (R193); `pcs` are the slices' own addresses. -/
def trapRecord (e : TrapEntry) (pcs : List W64) (skid : W64) : TrapRecord :=
  { cause := trcauseOf e, pcs := pcs, addr := e.addr, skid := skid, applied := e.applied, info := e.info }

/-- TRSKID (R193). -/
def Gang.skidWord (g : Gang) : W64 :=
  BitVec.ofNat 64 (((List.range 8).map (fun i => (g.slice i).skid % 16 * 2 ^ (4 * i))).foldl (· + ·) 0)

/-- Whether every slice of a team has stopped after a halt (R194). -/
def Team.stopped (t : Team) : Bool :=
  t.gangs.all (fun g => g.slices.all (fun x => !x.live || x.wait != .ready || decide (x.skidMax ≤ x.skid)))

/-- A gang enters handler state for the first entry of its queue (R195): pending results land (R223), the slices' addresses,
the parted state and what the slices have in progress are saved, and the gang goes on ganged at TRAPVEC. -/
def Gang.enterHandler (g : Gang) (trapvec : W64) : Gang :=
  match g.queue with
  | [] => g
  | e :: _ =>
    let h := g.land
    { (h.modSlices h.liveSlices (fun x => { x with pc := trapvec, wait := .ready })) with
        handler := true, savedGanged := g.ganged, ganged := true,
        savedApplied := g.applied, applied := 0, savedPlain := g.plainDone, plainDone := false, savedWaits := g.slices.map (·.wait),
        trec := trapRecord e (g.slices.map (·.pc)) g.skidWord }

/-- What a gang waited for in a team queue, a work list or a group is withdrawn when it enters handler state: it executes those
instructions again afterwards (R195, log entry 48). -/
def State.cancelWaits (s : State) (ctx team gang : Nat) : State :=
  (s.modTeam team (fun t => { t with queues := t.queues.map (fun (p : Nat × QDef) =>
      (p.1, { p.2 with waiters := p.2.waiters.filter (fun w => w.1 != gang) })) })).modCtx ctx (fun c => { c with
    wlists := c.wlists.map (fun (p : Nat × WList) => (p.1, if p.2.home = some (team, gang) then { p.2 with waiting := none } else p.2)),
    groups := c.groups.map (fun (p : Nat × Group) => (p.1, { p.2 with members := p.2.members.map (fun m =>
      if m.team = team && m.gang = gang && !m.leaving then { m with arrived := none } else m) })) })

/-- The slices' addresses after a handled entry: those that the trap resumes past the instruction are moved (R195). -/
def resumed (e : TrapEntry) (pcs : List W64) : List W64 :=
  (List.range 8).map (fun i => ((e.resume.getD i none)).getD (pcs.getD i 0))

/-- The team resumes when no gang of it is in handler state or holds an entry (R196). -/
def State.resumeTeam (s : State) (team : Nat) : State :=
  s.modTeam team (fun t =>
    if t.gangs.any (fun g => g.handler || !g.queue.isEmpty) then t
    else { t with halted := false, gangs := t.gangs.map (fun g => g.modSlices (List.range 8) (fun x => { x with skid := 0, skidMax := 0 })) })

/-- The slices of a gang that were waiting for room in a full work list when it entered handler state, and whose items have all
landed meanwhile: they have performed their `WAPP` (R296). -/
def Gang.appended (g : Gang) (inflight : Tab Append) : List Nat :=
  g.liveSlices.filter (fun k => match g.savedWaits.getD k .ready with | .append n => (Tab.find? inflight n).isNone | _ => false)

/-- What a slice waits for once its gang has left handler state: an append or a yielded copy that it has issued goes on; any other
instruction that it waited at is executed again (R195, log entry 48). -/
def Wait.kept : Wait → Wait
  | .append n => .append n
  | .copyYield n => .copyYield n
  | _ => .ready

/-- A gang leaves handler state (R195): each slice resumes at its address, in the gang's old parted or ganged state. -/
def Gang.leaveHandler (g : Gang) (pcs : List W64) (inflight : Tab Append) : Gang :=
  let h : Gang := { g with
    slices := (List.range 8).map (fun i =>
      let x := g.slice i
      { x with pc := (if x.live then pcs.getD i 0 else x.pc), wait := (g.savedWaits.getD i .ready).kept, skidMax := x.skid }),
    queue := [], handler := false, ganged := g.savedGanged, trec := {}, gissue := g.gissue + 1,
    applied := g.savedApplied, savedApplied := 0, plainDone := g.savedPlain, savedPlain := false, savedWaits := [] }
  if g.appended inflight = [] then h else h.pass (g.appended inflight)

/-- Returning from the handler (R195): the next entry is handled at TRAPVEC, which is a handler entry again (R223), or the gang
leaves handler state. -/
def State.returnFromTrap (s : State) (team gang : Nat) : State :=
  match s.team? team with
  | none => s
  | some t =>
    let g := t.gang gang
    match g.queue with
    | [] => s
    | e :: rest =>
      let pcs := resumed e g.trec.pcs
      match rest with
      | e' :: _ =>
        s.modGang team gang (fun g =>
          { (g.land.modSlices g.liveSlices (fun x => { x with pc := t.trapvec, wait := .ready })) with
              ganged := true, queue := rest, trec := trapRecord e' pcs g.trec.skid, gissue := g.gissue + 1 })
      | [] => (s.modGang team gang (fun g => g.leaveHandler pcs (s.ctx t.ctx).inflight)).resumeTeam team

-- stopping

/-- Who performs an instruction: the team, its gangs with the slices of each, its header where it has been decoded, and whether
its scope is SET or TEAM. -/
structure Performer where
  team   : Nat
  gangs  : List (Nat × List Nat)
  hdr    : Option Hdr := none
  setflt : Bool := false
  deriving DecidableEq, Repr

/-- The slice that raises a trap (R193): the lowest of some slices that has an active lane, or the lowest where none has one. -/
def Gang.trapSlice (g : Gang) (hdr : Option Hdr) (slices : List Nat) : Nat :=
  ((hdr.bind (fun h => slices.find? (fun k => !(g.activeIn h (lanesOf [k])).isEmpty))).getD (slices.headD 0))

/-- The entry of a trap raised by some slices of a gang (R192, R193). -/
def Gang.trapEntry (g : Gang) (hdr : Option Hdr) (slices : List Nat) (cause : Nat) (addr info : W64) (setflt : Bool := false) : TrapEntry :=
  let k := g.trapSlice hdr slices
  { cause := cause, setflt := setflt, slice := k, parted := !g.ganged, pc := (g.slice k).pc, addr := addr, info := info,
    applied := (g.applied &&& BitVec.ofNat 32 (laneMask (lanesOf slices))).setWidth 64 }

/-- All slices of the performers wait, or are ready again. A slice that waits after a halt issues nothing more (R194). -/
def State.waitAll (s : State) (p : Performer) (w : Wait) : State :=
  p.gangs.foldl (fun s q => s.modGang p.team q.1 (fun g =>
    g.modSlices q.2 (fun x => { x with wait := w, skidMax := if w = .ready then x.skidMax else x.skid }))) s

/-- Some gangs of the performers take a trap. -/
def State.trapAll (s : State) (p : Performer) (cause : Nat) (addr : W64) (info : Nat → W64) : State :=
  p.gangs.foldl (fun s q => s.takeTrap p.team q.1 q.2 ((s.gang p.team q.1).trapEntry p.hdr q.2 cause addr (info q.1) p.setflt)) s

/-- What becomes of an instruction that is not performed (R32, R102, R106, R192). -/
def State.stop (s : State) (p : Performer) (x : Stop) : Res :=
  match x with
  | .trap cause addr info => .next (s.trapAll p cause addr (fun _ => info))
  | .trapEach cause infos exc =>
    .next ((p.gangs.foldl (fun s q => s.modGang p.team q.1 (fun g => g.orFlags exc)) s).trapAll p cause 0
      (fun k => ((infos.find? (fun x => x.1 == k)).map (·.2)).getD 0))
  | .retry b => .next ((s.waitAll p (.retry b)).trySave p.team)
  | .wait w => .next ((s.waitAll p w).trySave p.team)
  | .page base addr _ => .next (s.waitAll p (.pager base addr))
  | .drain => .next (s.waitAll p .drain)
  | .absent a => .fault (.absentAddress a)
  | .ecc addr words => .next ((s.uncorrectable words).trapAll p cPoison addr (fun _ => 0))
  | .entry => .next (match s.team? p.team with | some t => s.contextError t.launch | none => s)
  | .pool launch need => .next (((s.modLaunch launch (fun L => { L with poolNeed := need })).waitAll p (.retry true)).trySave p.team)

/-- Instructions issued after a halt count as skid (R194), and a slice that one of them blocks issues nothing more. An instruction
that raises a precise trap has not been performed and is not counted; `BKPT` and `TRAP` are (log entry 48). -/
def State.countSkid (s t : State) (p : Performer) : State :=
  match s.team? p.team with
  | none => t
  | some tm =>
    if !tm.halted then t
    else p.gangs.foldl (fun t q =>
      if (tm.gang q.1).handler then t
      else t.modGang p.team q.1 (fun g => g.modSlices q.2 (fun x => if x.wait = .ready then { x with skid := x.skid + 1 } else { x with skidMax := x.skid }))) t

/-- The outcome of a performed or stopped instruction. -/
def State.settle (s : State) (p : Performer) (r : Except Stop State) : Res :=
  match r with
  | .ok t => .next ((s.countSkid t p).trySave p.team)
  | .error x => s.stop p x

def Issuer.performer (i : Issuer) (h : Option Hdr := none) : Performer := { team := i.unit.team, gangs := [(i.unit.gang, i.slices)], hdr := h }

/-- The issuing unit goes on at the following slot. -/
def State.passUnit (s : State) (i : Issuer) : State := s.modGang i.unit.team i.unit.gang (fun g => g.pass i.slices)
/-- The issuing unit goes on at an address. -/
def State.goUnit (s : State) (i : Issuer) (pc : W64) : State := s.modGang i.unit.team i.unit.gang (fun g => g.goTo i.slices pc)

/-- An instruction performed per lane or per slice (SCP 00, R226): no rendezvous. -/
def State.perform (s : State) (h : Option Hdr) (f : Issuer → Except Stop State) : Res :=
  match s.issuer? with
  | none => .fault .noIssuer
  | some i => s.settle (i.performer h) (f i)

/-- A trap that a unit raises at the scope of its header before any rendezvous (R27, R29). At SET or TEAM scope it is flagged
SETFLT, and at TEAM scope it enters the queue of every live gang of the team (R32); at SET scope the set that the instruction
would name is not known, or does not hold the gang, so it enters that of the issuing gang alone (log entry 48). -/
def State.scopeTrap (s : State) (i : Issuer) (h : Hdr) (cause : Nat) : Res :=
  let wide := h.scp == .set || h.scp == .team
  let e := i.g.trapEntry (some h) i.slices cause 0 0 wide
  let s := s.takeTrap i.unit.team i.unit.gang i.slices e
  .next (if h.scp = .team then
      (i.tm.liveGangs.filter (· != i.unit.gang)).foldl (fun s j =>
        s.takeTrap i.unit.team j [] { e with parted := !(s.gang i.unit.team j).ganged }) s
    else s)

/-- A LANE-scope instruction; any other scope is illegal (R27, R226). -/
def State.lane (s : State) (h : Hdr) (f : Issuer → Except Stop State) : Res :=
  match s.issuer? with
  | none => .fault .noIssuer
  | some i => if h.scp = .lane then s.settle (i.performer (some h)) (f i) else s.scopeTrap i h cIllegalScope

-- rendezvous (R23, R24, R27 to R30, R270)

/-- Whether a slice waits at a REGANG or scoped instruction. -/
def Slice.atRendez (x : Slice) : Bool := match x.wait with | .rendez _ => true | _ => false
/-- Whether a slice waits at a SET- or TEAM-scope instruction. -/
def Slice.atWide (x : Slice) : Bool := match x.wait with | .rendez (.set _) => true | .rendez .team => true | _ => false

/-- Whether all live slices of a gang wait at one address in one kind of rendezvous (R27, R28). -/
def Gang.arrived (g : Gang) (pc : W64) (k : Rendez) : Bool := g.liveData.all (fun x => x.pc == pc && x.wait == .rendez k)

/-- The regang-mismatch condition (R24). -/
def Gang.mismatch (g : Gang) : Bool :=
  g.liveData.all (·.atRendez) && (match g.liveData with | [] => false | x :: r => r.any (fun y => y.pc != x.pc))

/-- The members of a set or of the team that have not retired. -/
def Team.members (t : Team) (mask : Nat) : List Nat := (onesOf 32 mask).filter (fun i => (t.gang i).isLive)

/-- Whether a rendezvous of some gangs may complete or mismatch: after a halt only among gangs in handler state, for every other
gang stays stopped (R128, R196). -/
def Team.goes (t : Team) (gs : List Nat) : Bool := !t.halted || gs.all (fun j => (t.gang j).handler)

/-- Whether all live slices of a gang wait at one address, at a SET- or TEAM-scope instruction. -/
def Gang.atOne (g : Gang) : Bool :=
  g.liveData.all (·.atWide) && (match g.liveData with | [] => true | x :: r => r.all (fun y => y.pc == x.pc))

/-- The rendezvous-mismatch condition on some gangs (R30): each gang's slices wait at one address, and the addresses differ. -/
def Team.wideMismatch (t : Team) (gs : List Nat) : Bool :=
  let xs := gs.flatMap (fun i => (t.gang i).liveData)
  gs.all (fun i => (t.gang i).atOne) && (match xs with | [] => false | x :: r => r.any (fun y => y.pc != x.pc))

/-- The gangs that receive rendezvous-mismatch (R30): the members of every set, and of the team, on which the test fires. -/
def Team.wideMismatched (t : Team) : List Nat :=
  let groups := (t.sets.filter (fun d => d.mask != 0)).map (fun d => t.members d.mask) ++ [t.liveGangs]
  ((groups.filter (fun gs => t.goes gs && t.wideMismatch gs)).flatMap id).eraseDups

/-- A gang covered by a rendezvous, with its live slices. -/
def Team.cover (t : Team) (k : Rendez) (gang : Nat) : List Nat :=
  match k with
  | .regang | .gang => [gang]
  | .set n => t.members (t.sets.getD n {}).mask
  | .team => t.liveGangs

/-- Traps of the same cause in several gangs, each naming its lowest live slice (R24, R30). -/
def State.mismatchTraps (s : State) (team : Nat) (gs : List Nat) (cause : Nat) (setflt : Bool) : State :=
  gs.foldl (fun s i =>
    let g := s.gang team i
    s.takeTrap team i g.liveSlices (g.trapEntry none g.liveSlices cause 0 0 setflt)) s

/-- The tests that follow an arrival which does not complete a rendezvous: regang-mismatch first, then rendezvous-mismatch (R24,
R30). -/
def State.testRendez (s : State) (team : Nat) (t : Team) : State :=
  match t.liveGangs.filter (fun j => t.goes [j] && (t.gang j).mismatch) with
  | j :: r => s.mismatchTraps team (j :: r) cRegang false
  | [] => s.mismatchTraps team t.wideMismatched cRendezvous true

/-- The scoped rendezvous of R270: the unit arrives; when all have arrived the instruction is performed for the covered
gangs, in member-slot or GANGID order; otherwise the mismatch tests of R24 and R30 apply and the unit waits. -/
def State.rendezvous (s : State) (i : Issuer) (h : Hdr) (k : Rendez) (f : State → Performer → Except Stop State) : Res :=
  let s1 := s.waitAll (i.performer (some h)) (.rendez k)
  match s1.team? i.unit.team with
  | none => .next s1
  | some t =>
    let gs := t.cover k i.unit.gang
    if t.goes gs && gs.all (fun j => (t.gang j).arrived i.pc k) then
      let p : Performer := { team := i.unit.team, gangs := gs.map (fun j => (j, (t.gang j).liveSlices)), hdr := some h,
                             setflt := (match k with | .set _ => true | .team => true | _ => false) }
      let s2 := s1.waitAll p .ready
      s2.settle p (f s2 p)
    else .next ((s1.testRendez i.unit.team t).trySave i.unit.team)

/-- A GANG-scope instruction (R27): a ganged gang performs it at once, a parted one when all its live slices have arrived.
`f` receives the gang as one issuer. -/
def State.gangWide (s : State) (h : Hdr) (f : State → Issuer → Except Stop State) : Res :=
  match s.issuer? with
  | none => .fault .noIssuer
  | some i =>
    if i.g.ganged then s.settle (i.performer (some h)) (f s i)
    else s.rendezvous i h .gang (fun s _ =>
      match s.team? i.unit.team with
      | none => .ok s
      | some t =>
        let g := t.gang i.unit.gang
        f s { unit := { i.unit with slice := none }, tm := t, g := g, slices := g.liveSlices })

/-- A GANG-scope-only instruction. -/
def State.gangOp (s : State) (h : Hdr) (f : State → Issuer → Except Stop State) : Res :=
  match s.issuer? with
  | none => .fault .noIssuer
  | some i =>
    if h.scp = .gang then s.gangWide h f else s.scopeTrap i h cIllegalScope

/-- What a scoped instruction is performed for: the team, the covered live gangs in order, the scope, and the lane space:
the gang of each 32-lane part, none for a retired member (R269). -/
structure Wide where
  p     : Performer
  scope : Scope
  set   : Nat
  tm    : Team
  gangs : List Nat
  parts : List (Option Nat)
  deriving DecidableEq, Repr

/-- A GANG-, SET- or TEAM-scope instruction (R27 to R29): the scope check, the membership check of a SET scope, then the
rendezvous. -/
def State.wideOp (s : State) (h : Hdr) (setNo : Nat) (legal : List Scope) (f : State → Wide → Except Stop State) : Res :=
  match s.issuer? with
  | none => .fault .noIssuer
  | some i =>
    if !legal.contains h.scp then s.scopeTrap i h cIllegalScope
    else
      match h.scp with
      | .lane => s.scopeTrap i h cIllegalScope
      | .gang => s.gangWide h (fun s i =>
          f s { p := i.performer (some h), scope := .gang, set := 0, tm := i.tm, gangs := [i.unit.gang], parts := [some i.unit.gang] })
      | .set =>
        let d := i.tm.sets.getD setNo {}
        if !bitAt d.mask i.unit.gang then s.scopeTrap i h cIllegalOperand
        else s.rendezvous i h (.set setNo) (fun s p =>
          match s.team? i.unit.team with
          | none => .ok s
          | some t => f s { p := p, scope := .set, set := setNo, tm := t, gangs := p.gangs.map (·.1),
                            parts := (onesOf 32 d.mask).map (fun j => if (t.gang j).isLive then some j else none) })
      | .team => s.rendezvous i h .team (fun s p =>
          match s.team? i.unit.team with
          | none => .ok s
          | some t => f s { p := p, scope := .team, set := 0, tm := t, gangs := p.gangs.map (·.1),
                            parts := (List.range t.gangs.length).map (fun j => if (t.gang j).isLive then some j else none) })

/-- All gangs of a scoped instruction go on at the following slot. -/
def State.passAll (s : State) (p : Performer) : State :=
  p.gangs.foldl (fun s q => s.modGang p.team q.1 (fun g => g.pass q.2)) s

/-- A uniform transfer (R242): once for a ganged gang, at a GANG-scope wait of the live slices of a parted one. -/
def State.uniform (s : State) (h : Hdr) (f : State → Issuer → Except Stop State) : Res :=
  match s.issuer? with
  | none => .fault .noIssuer
  | some i => if h.scp = .lane then s.gangWide h f else s.scopeTrap i h cIllegalScope

end Sys2Proof.Machine
end

