-- ==== Sys2Proof/Machine/Flags.lean ====
section
/-! DEFINITION. Condition codes (R232 to R234, R249, R251, R253) and their tests. -/

namespace Sys2Proof.Machine

open Sys2Proof

/-- Z, N, C and V written together. -/
def Gang.setZncv (g : Gang) (z n c v : Bool) : Gang := (((g.setCc ccZ z).setCc ccN n).setCc ccC c).setCc ccV v

/-- The carry and overflow of an operation for CCW = 1 (R249). -/
inductive CarryRule where
  | none
  /-- natural carry out of x + y, and signed overflow of the exact result -/
  | add (x y : Nat)
  /-- no natural borrow in x - y -/
  | sub (x y : Nat)
  deriving DecidableEq, Repr

/-- Z, N, C and V of an integer result of width `w` (R249): `res` the result, `sat` whether it saturated, `rule` the
carry rule on the natural operands. -/
def Gang.setIntCc (g : Gang) (w : Nat) (res : Nat) (sat : Bool) (rule : CarryRule) : Gang :=
  let z := res % 2 ^ w == 0
  let n := bitAt res (w - 1)
  if sat then g.setZncv z n false true
  else match rule with
    | .none => g.setZncv z n false false
    | .add x y =>
      let e := signedOf w x + signedOf w y
      g.setZncv z n (decide (2 ^ w ≤ x + y)) (decide (e ≠ signedOf w (patOf w e)))
    | .sub x y =>
      let e := signedOf w x - signedOf w y
      g.setZncv z n (decide (y ≤ x)) (decide (e ≠ signedOf w (patOf w e)))

/-- CC of a floating-point comparison (R233). -/
def Gang.setCmpCc (g : Gang) (o : Option Ordering) : Gang := g.setZncv (o == some .eq) (o == some .lt) false (o == none)

/-- CC of a floating-point result (R251). -/
def Gang.setFloatCc (g : Gang) (F : FSpec) (r : Nat) : Gang :=
  match F.decode r with
  | .nan _ => g.setZncv false false false false
  | .inf s => g.setZncv false s false false
  | .fin s m _ => g.setZncv (m == 0) (s && m != 0) false false

/-- Cond(COND, CC) of R234; `prq` is the team's PRQ. -/
def condHolds (c : Cond) (cc : W64) (prq : Bool) : Bool :=
  let x := cc.toNat
  let z := bitAt x ccZ
  let n := bitAt x ccN
  let cf := bitAt x ccC
  let v := bitAt x ccV
  match c with
  | .al => true
  | .eq => z
  | .ne => !z
  | .lt => n != v
  | .ge => n == v
  | .gt => !z && n == v
  | .le => z || n != v
  | .ltn => !cf
  | .gen => cf
  | .gtn => cf && !z
  | .len => !cf || z
  | .vs => v
  | .vc => !v
  | .prq => prq
  | .nprq => !prq
  | .brk => bitAt x ccBrk
  | .nbrk => !bitAt x ccBrk
  | .done => bitAt x ccDone
  | .ndone => !bitAt x ccDone
  | .tmo => bitAt x ccTmo
  | .ntmo => !bitAt x ccTmo
  | .dns => bitAt x ccDns
  | .ndns => !bitAt x ccDns

end Sys2Proof.Machine
end

