-- ==== Sys2Proof/Machine/Operands.lean ====
section
/-! DEFINITION. Operand forms (R216, R219, R220, R246, R257): which registers an instruction may name, how a source is read
in a lane, how a destination is written, the bypass file (R228, R258), and results that come late (R222).
Readings of the spec that this file follows: log entry 36. -/

namespace Sys2Proof.Machine

open Sys2Proof

/-- A register pair's index is even (R68). -/
def evenIf (w64 : Bool) (i : Nat) : Bool := !w64 || i % 2 == 0

/-- A lane source of R257: v, n, b, s or a short immediate within R219. -/
def laneSrcOk (nregs : Nat) (w64 : Bool) : Operand → Bool
  | .v i => decide (i.toNat < nregs) && evenIf w64 i.toNat
  | .n i => decide (i.toNat < 8) && evenIf w64 i.toNat
  | .b i => decide (i.toNat < 4)
  | .s i => decide (i.toNat < 128)
  | .imm _ => true
  | _ => false

/-- A lane destination of R257: v, n or b0. -/
def laneDstOk (nregs : Nat) (w64 : Bool) : Operand → Bool
  | .v i => decide (i.toNat < nregs) && evenIf w64 i.toNat
  | .n i => decide (i.toNat < 8) && evenIf w64 i.toNat
  | .b i => i == 0
  | _ => false

/-- The lane destination of a long-latency instruction (R220): no b register. -/
def lateDstOk (nregs : Nat) (w64 : Bool) (o : Operand) : Bool := laneDstOk nregs w64 o && (match o with | .b _ => false | _ => true)

/-- A scalar register operand. -/
def sOk : Operand → Bool | .s i => decide (i.toNat < 128) | _ => false
/-- A scalar source: an s register or a short immediate (R246). -/
def sSrcOk : Operand → Bool | .s i => decide (i.toNat < 128) | .imm _ => true | _ => false
def sIdx : Operand → Nat | .s i => i.toNat | _ => 0
/-- A mask register that may be written (R220). -/
def mDstOk : Operand → Bool | .m i => i != 0 | _ => false
def isImm : Operand → Bool | .imm _ => true | _ => false
def isM : Operand → Bool | .m _ => true | _ => false
def mIdx : Operand → Nat | .m i => i.toNat | _ => 0
def tOk : Operand → Bool | .t i => decide (i.toNat < 16) | _ => false
def tIdx : Operand → Nat | .t i => i.toNat | _ => 0
def gOk : Operand → Bool | .g _ => true | _ => false
def gIdx : Operand → Nat | .g i => i.toNat | _ => 0
/-- The index of any register operand. -/
def Operand.idx : Operand → Nat
  | .v i | .n i | .b i | .s i | .x i | .t i | .imm i => i.toNat
  | .m i | .g i => i.toNat

/-- The value of an 8-bit short immediate. -/
def immVal (i : BitVec 8) : Int := i.toInt

/-- A short immediate read in a type (R220). -/
def immBits (t : Ty) (i : BitVec 8) : Nat :=
  match tyElems t with
  | [] => if t = .l6x4 then (List.range 4).foldl (fun a q => a + i.toNat % 64 * 2 ^ (8 * q)) 0 else patOf (tyWidth t) (immVal i)
  | l => packElems (l.map (fun (F, sh) => ((F.ofInt .rne (immVal i)).1, sh)))

/-- IMM32 read in a type (R216). -/
def imm32Bits (t : Ty) (w : W32) : Nat :=
  match t with
  | .f32 => w.toNat
  | .f32x2 => w.toNat + w.toNat * 2 ^ 32
  | .l6x4 => (List.range 4).foldl (fun a q => a + w.toNat % 64 * 2 ^ (8 * q)) 0
  | _ =>
    match tyElems t with
    | [] => if tySigned t || t = .b32 || t = .b64 then patOf (tyWidth t) w.toInt else w.toNat % 2 ^ tyWidth t
    | l => packElems (l.map (fun (F, sh) => ((fconv specF32 F .rne w.toNat).1, sh)))

/-- A source register read in one lane, 32 or 64 bits (R219, R220, R257). -/
def Gang.rdReg (g : Gang) (w64 : Bool) (o : Operand) (lane : Nat) : Nat :=
  match o with
  | .v i => if w64 then (g.rdV2 i.toNat lane).toNat else (g.rdV i.toNat lane).toNat
  | .n i => if w64 then (g.rdN2 i.toNat lane).toNat else (g.rdN i.toNat lane).toNat
  | .b i => if w64 then (g.rdB i.toNat lane).toNat else (g.rdB i.toNat lane).toNat % 2 ^ 32
  | .s i => if w64 then (g.rdS i.toNat).toNat else (g.rdS i.toNat).toNat % 2 ^ 32
  | .m i => (g.rdM i.toNat).toNat
  | .g i => (g.rdG i.toNat).toNat
  | _ => 0

/-- A lane source read in a type. -/
def Gang.rdLane (g : Gang) (t : Ty) (o : Operand) (lane : Nat) : Nat :=
  match o with
  | .imm i => immBits t i
  | o => g.rdReg (tyPair t) o lane

/-- A lane source of the R or I form (R215). -/
def Gang.rdSrc (g : Gang) (t : Ty) (b : Src) (lane : Nat) : Nat :=
  match b with
  | .op o => g.rdLane t o lane
  | .imm32 w => imm32Bits t w

/-- The legality of a B operand of the R or I form. -/
def laneBOk (nregs : Nat) (w64 : Bool) : Src → Bool
  | .op o => laneSrcOk nregs w64 o
  | .imm32 _ => true

/-- A scalar source read as 64 bits; a short immediate is sign-extended. -/
def Gang.rdScalar (g : Gang) (o : Operand) : W64 :=
  match o with
  | .s i => g.rdS i.toNat
  | .g i => (g.rdG i.toNat).setWidth 64
  | .m i => (g.rdM i.toNat).setWidth 64
  | .imm i => BitVec.ofInt 64 (immVal i)
  | _ => 0

/-- A scalar B operand of the R or I form, in a type (R216, R246). -/
def Gang.rdScalarB (g : Gang) (t : Ty) (b : Src) : W64 :=
  match b with
  | .op o => g.rdScalar o
  | .imm32 w => BitVec.ofNat 64 (imm32Bits (match t with | .i32 | .b32 => .i64 | .n32 => .n64 | x => x) w)

/-- A lane destination written: 32 bits, or a pair (R68); a 32-bit result in b clears the upper half (R228). -/
def Gang.wrLane (g : Gang) (w64 : Bool) (o : Operand) (lane val : Nat) : Gang :=
  match o with
  | .v i => if w64 then g.wrV2 i.toNat lane (BitVec.ofNat 64 val) else g.wrV i.toNat lane (BitVec.ofNat 32 val)
  | .n i => if w64 then g.wrN2 i.toNat lane (BitVec.ofNat 64 val) else g.wrN i.toNat lane (BitVec.ofNat 32 val)
  | _ => g

/-- Results written to a lane destination in some lanes, with the bypass shift of a class-S instruction over all lanes of
the issuing slices (R228, R258): an active lane's b0 receives the result, another lane's the value D holds. -/
def Gang.writeLanes (g : Gang) (w64 : Bool) (d : Operand) (all active : List Nat) (res : Nat → Nat) : Gang :=
  let h := active.foldl (fun h l => h.wrLane w64 d l (res l)) g
  h.shiftBypass all (fun l =>
    if active.contains l then BitVec.ofNat 64 (res l)
    else match d with
      | .b _ => g.rdB 0 l
      | d => BitVec.ofNat 64 (h.rdReg w64 d l))

/-- The places of a late lane result (R222). -/
def lateLane (w64 : Bool) (o : Operand) (lane val : Nat) : List (Dest × W64) :=
  let lo := BitVec.ofNat 64 (val % 2 ^ 32)
  let hi := BitVec.ofNat 64 (val / 2 ^ 32)
  match o with
  | .v i => (.v i.toNat lane, lo) :: (if w64 then [(.v (i.toNat + 1) lane, hi)] else [])
  | .n i => (.n i.toNat lane, lo) :: (if w64 then [(.n (i.toNat + 1) lane, hi)] else [])
  | _ => []

/-- The results of a long-latency instruction of a gang whose `slices` pass it: written at once with LA = 0, else pending
for the next LA instructions of each of those slices (R222). -/
def Gang.passLate (g : Gang) (slices : List Nat) (la : Nat) (ws : List (Dest × W64)) : Gang :=
  if la = 0 then (ws.foldl Gang.writeDest g).pass slices
  else
    let h := g.pass slices
    { h with pend := h.pend ++ [{ writes := ws, left := (List.range 8).map (fun i => if slices.contains i then la else 1000000) }] }

/-- The late form for the issuing unit. -/
def State.passLate (s : State) (i : Issuer) (la : Nat) (ws : List (Dest × W64)) : State :=
  s.modGang i.unit.team i.unit.gang (fun g => g.passLate i.slices la ws)

/-- The issuing gang changed and its unit passed. -/
def State.passWith (s : State) (i : Issuer) (f : Gang → Gang) : State :=
  s.modGang i.unit.team i.unit.gang (fun g => (f g).pass i.slices)

/-- Every covered gang of a scoped instruction changed and passed (R31). -/
def State.passWide (s : State) (p : Performer) (f : Gang → Gang) : State :=
  p.gangs.foldl (fun s q => s.modGang p.team q.1 (fun g => (f g).pass q.2)) s

/-- Results of the active lanes with exceptions (R74, R75): with an enabled exception the arithmetic trap of R75, whose
TRINFO names the lanes that raised one; else the exceptions that enter FLAGS. -/
def laneExc (g : Gang) (gang : Nat) (rs : List (Nat × Nat × Exc)) : Except Stop Exc :=
  let e := rs.foldl (fun e r => e ||| r.2.2) 0
  let bad := rs.filter (fun r => enabledExc g.fpmode r.2.2)
  if bad = [] then .ok e
  else .error (.trapEach cArith [(gang, BitVec.ofNat 64 (laneMask (bad.map (·.1))))] e)

/-- The value computed for a lane. -/
def resultOf (rs : List (Nat × Nat × Exc)) (l : Nat) : Nat := ((rs.find? (fun r => r.1 == l)).map (·.2.1)).getD 0

/-- Whether FPMODE makes the long-latency float operations act as with LA 0 (R223). -/
def laOf (g : Gang) (la : BitVec 4) : Nat := if bits g.fpmode.toNat 4 3 = 0 then la.toNat else 0

/-- The live gang that stands for a scoped instruction's operands (R247). -/
def Wide.rep (w : Wide) : Gang := w.tm.gang (w.gangs.headD 0)

/-- A scalar source of format T: an s register, or a short immediate that is not negative where the range is natural
(R323). -/
def natSrcOk : Operand → Bool
  | .s i => decide (i.toNat < 128)
  | .imm i => !i.msb
  | _ => false

end Sys2Proof.Machine
end

