-- ==== Sys2Proof/Machine/Ordering.lean ====
section
/-! DEFINITION. The order of memory accesses (R108 to R118): a store is performed, unit by unit, at some instant up to its
gang's next ordering event, and a load may be performed at any instant since its own; so a load may return what a write
replaced, as long as no rule makes the write happen before it and coherence holds.
Readings of the spec that this file follows: log entry 44. -/

namespace Sys2Proof.Machine

open Sys2Proof

/-- The view that scratchpad bytes are kept under, and the location of one of them. -/
def spadKey : Nat := 1
def spadLoc (team a : Nat) : Nat := team * 2 ^ 32 + a

/-- The number of a slice among the agents. -/
def agentOf (team gang slice : Nat) : Nat := (team * 256 + gang) * 8 + slice
/-- The slices that an instruction is performed for. -/
def Issuer.agents (i : Issuer) : List Nat := i.slices.map (agentOf i.unit.team i.unit.gang)

/-- The single-copy atomic units of an access (R110), as address and length: a naturally aligned strong access of up to 8
bytes is one unit and one of 16 bytes is two; of any other access each aligned word that lies wholly inside it, and so inside
a sector, is one, and each remaining byte. -/
def unitsOf (strong : Bool) (va n : Nat) : List (Nat × Nat) :=
  if strong && va % n == 0 then (List.range ((n + 7) / 8)).map (fun k => (va + 8 * k, min (n - 8 * k) 8))
  else (List.range n).filterMap (fun k =>
    let w := (va + k) / 4 * 4
    if decide (va ≤ w) && decide (w + 4 ≤ va + n) then (if (va + k) % 4 = 0 then some (w, 4) else none) else some (va + k, 1))

namespace Order

/-- The records of a range of bytes in a view, oldest first. -/
def of (o : Order) (key loc n : Nat) : List PastByte :=
  o.past.filter (fun p => p.key == key && decide (loc ≤ p.loc) && decide (p.loc < loc + n))

/-- A slice's last ordering event; a slice that has issued nothing is up to date. -/
def sinceOf (o : Order) (a : Nat) : Nat := Tab.get o.since o.now a

/-- Whether some slices may read what stood before a write: no write of their own or of which they know, and either not yet
performed or performed since their last ordering event (R109, R112, R116). -/
def hidden (o : Order) (agents : List Nat) (p : PastByte) : Bool :=
  agents.all (fun a => !p.seen.contains a && (match p.at_ with | none => !p.writer.contains a | some t => decide (o.sinceOf a < t)))

/-- The writes of a unit that some slices may not have read, newest first: all from some instant on. -/
def openSeqs (o : Order) (agents : List Nat) (ps : List PastByte) : List Nat :=
  ((ps.map (·.seq)).eraseDups.reverse).takeWhile (fun q => (ps.filter (fun p => p.seq == q)).all (o.hidden agents))

/-- A unit's bytes just before the write `q`: of each byte what the first write from `q` on replaced. -/
def before (ps : List PastByte) (loc q : Nat) (cur : List Byte) : List Byte :=
  ((List.range cur.length).zip cur).map (fun (k, b) =>
    match ps.find? (fun p => p.loc == loc + k && decide (q ≤ p.seq)) with
    | some p => p.val
    | none => b)

/-- What a load of a unit may return, newest first, each with the first write that it does not return (R110, R116). -/
def versions (o : Order) (agents : List Nat) (key loc : Nat) (cur : List Byte) : List (List Byte × Option Nat) :=
  (cur, none) :: (o.openSeqs agents (o.of key loc cur.length)).map (fun q => (before (o.of key loc cur.length) loc q cur, some q))

/-- The records given by `which` performed, and with each the earlier writes of its byte (R112). -/
def perform (o : Order) (which : PastByte → Bool) : Order :=
  let due := o.past.filter (fun p => p.at_.isNone && which p)
  if due = [] then o
  else { o with now := o.now + 1, past := o.past.map (fun p =>
    if p.at_.isNone && due.any (fun d => d.key == p.key && d.loc == p.loc && decide (p.seq ≤ d.seq)) then { p with at_ := some (o.now + 1) } else p) }

/-- Every write so far is performed. -/
def performAll (o : Order) : Order := o.perform (fun _ => true)

/-- Some slices have read a unit up to the write `q`, or all of it: they know the writes before that, and a write of another
agent that they have read has been performed (R112, R114). -/
def readUnit (agents : List Nat) (o : Order) (x : Nat × Nat × Nat × Option Nat) : Order :=
  let old := fun (p : PastByte) => p.key == x.1 && decide (x.2.1 ≤ p.loc) && decide (p.loc < x.2.1 + x.2.2.1) &&
    (match x.2.2.2 with | none => true | some q => decide (p.seq < q))
  let o := o.perform (fun p => old p && !agents.any p.writer.contains)
  { o with past := o.past.map (fun p => if old p then { p with seen := (p.seen ++ agents).eraseDups } else p) }

/-- The reads of an instruction, each lane's by itself (R111), become known when all have been made. -/
def settle (o : Order) (agents : List Nat) : Order := { o.reads.foldl (readUnit agents) o with reads := [] }

/-- Some slices write a unit: what stood there is kept, and they know every write to it (R112). `at_` is whether the write is
performed at once, as an atomic's is (R119). -/
def write (o : Order) (agents : List Nat) (key loc : Nat) (old : List Byte) (atOnce : Bool) : Order :=
  let o := if atOnce then o.perform (fun p => p.key == key && decide (loc ≤ p.loc) && decide (p.loc < loc + old.length)) else o
  let t := o.now + 1
  { o with
    now := t
    past := o.past.map (fun p => if p.key == key && decide (loc ≤ p.loc) && decide (p.loc < loc + old.length) then { p with seen := (p.seen ++ agents).eraseDups } else p) ++
      ((List.range old.length).zip old).map (fun (k, b) =>
        { key := key, loc := loc + k, val := b, seq := t, writer := agents, at_ := if atOnce then some t else none, seen := agents }) }

/-- An ordering event of some slices (R109): their stores are performed, and their later loads are performed after it. Records
that nobody may read any more are dropped; `live` says which slices still run. -/
def event (o : Order) (agents : List Nat) (live : Nat → Bool) : Order :=
  let o := o.perform (fun p => agents.any p.writer.contains)
  let since := (agents.foldl (fun t a => Tab.put t a o.now) o.since).filter (fun p => live p.1)
  { o with since := since, past := o.past.filter (fun p => match p.at_ with | none => true | some t => since.any (fun q => decide (q.2 < t))) }

end Order

/-- How an instruction stands to the order of accesses. -/
inductive OrderKind where
  /-- no ordering event -/
  | plain
  /-- an ordering event of its gang (R109) -/
  | event
  /-- an ordering event whose own accesses are made on memory in which every store so far has been performed -/
  | all
  deriving DecidableEq, Repr

def ordKind : MemOrder → OrderKind
  | .weak | .rlx => .plain
  | .acq | .rel | .acqRel => .event

/-- The ordering events of R109, with the edges of R117, R118, R120 and R121; the instructions that read or write memory
otherwise than by loads, stores and atomics are treated as such events (log entry 44). -/
def orderKind : Instr → OrderKind
  | .ld _ f | .lds _ f | .ldu _ f | .st _ f | .sts _ f | .stu _ f => ordKind f.ord
  | .atom _ _ _ f | .acas _ _ f | .mred _ _ _ f | .atoms _ _ _ f | .acass _ _ f => ordKind f.ord
  | .fence _ _ | .bar _ _ | .gbar _ _ | .regang _ | .sleep _ _ | .yield _ | .exit _ => .event
  | .copy _ _ _ _ _ | .gather _ _ | .scatter _ _ _ | .coll _ _ _ _ | .xput _ _ | .xget _ _ | .stash _ _ _ => .all
  | .abinit _ _ | .abarr _ _ | .abwait _ _ | .abexp _ _ | .abtest _ _ | .qdef _ _ | .qpush _ _ _ | .qpop _ _ _ | .wapp _ _ | .wpop _ _ _ => .all
  | .mma _ _ | .tmul _ _ | .tmv _ _ | .tadd _ _ | .tscl _ _ | .trnd _ _ _ | .tdense _ _ | .tzero _ _ | .tnorm _ _ | .ttrn _ _ | .mwait _ _ => .all
  | .tldr _ _ | .tstr _ _ | .tpool _ _ _ | .tfree _ _ | .spanmap _ _ | .trigarm _ _ | .trigcnt _ _ | .launch _ _ | .cjoin _ _ => .all
  | _ => .plain

/-- The events that touch no memory; every other event is made on memory in which every store so far has been performed (log
entry 44). -/
def eventKind : Instr → OrderKind
  | .handlerEntry _ _ | .longLatencyResult _ _ | .sleepExpiry _ | .pageFaultResolved _ _ _ | .wappLand _ _ | .quiescenceDone _ => .plain
  | .parkPreempt _ | .saveDrainTimeout _ | .peerDeadTimeout _ | .livenessFlood _ | .spanrjGo _ _ | .idleFlit _ => .plain
  | .rowretGo _ | .rowCopyDone | .retrain _ | .retrainDone _ | .spanctlDisable _ _ | .corectlDis _ _ | .qreset _ _ _ => .plain
  | .clockCapChange | .thermalSample _ _ | .droopFlag _ _ | .droopHoldExpiry _ | .signTokenRefill | .getVersion _ => .plain
  | .getCapabilities _ | .negotiateAlgorithms _ | .getDigests _ | .getCertificate _ _ | .challenge _ _ | .getMeasurements _ _ _ _ => .plain
  | _ => .all

end Sys2Proof.Machine
end

