-- ==== Sys2Proof/Machine/MemOps.lean ====
section
/-! DEFINITION. Operations of the memory instructions: addresses (R10, R90, R277), data operands (R237, R278), duplicate
lanes (R111), and loads and stores of global memory and scratchpad (R91 to R98, R102, R122). -/

namespace Sys2Proof.Machine

open Sys2Proof

/-- The bytes of an access size (R237). -/
def sizeBytes : Size → Nat
  | .b8 | .i8 => 1
  | .b16 | .i16 => 2
  | .b32 => 4
  | .b64 => 8
  | .b128 => 16

-- addresses (R277)

/-- The legality of a base register: s; outside GANG scope a v pair in global space, or a single v or n register in the
scratchpad and stack spaces (log entry 31). -/
def baseOk (nregs : Nat) (space : Space) (uniform : Bool) (a : Operand) : Bool :=
  match a with
  | .s i => decide (i.toNat < 128)
  | .v _ => !uniform && laneSrcOk nregs (space == .global) a
  | .n _ => !uniform && space != .global && laneSrcOk nregs false a
  | _ => false

/-- The legality of an index: v, n, s or a short immediate; at GANG scope s or a short immediate. -/
def indexOk (nregs : Nat) (uniform : Bool) (b : Operand) : Bool :=
  match b with
  | .s i => decide (i.toNat < 128)
  | .imm _ => true
  | .v _ | .n _ => !uniform && laneSrcOk nregs false b
  | _ => false

/-- The address of a lane, modulo 2^64 (R277); `useB` is false where B is a data operand (R286). -/
def Gang.address (g : Gang) (space : Space) (a b : Operand) (off : BitVec 24) (useB : Bool) (lane : Nat) : W64 :=
  let base : W64 := match a with
    | .s i => g.rdS i.toNat
    | .v i => if space = .global then g.rdV2 i.toNat lane else (g.rdV i.toNat lane).setWidth 64
    | .n i => (g.rdN i.toNat lane).setWidth 64
    | _ => 0
  let index : W64 := match b with
    | .imm i => i.signExtend 64
    | b => BitVec.ofNat 64 (g.rdReg false b lane)
  base + (if useB then index else 0) + off.signExtend 64

/-- The accesses of some lanes. -/
def Gang.accesses (g : Gang) (f : FmtM) (space : Space) (useB : Bool) (lanes : List Nat) (n : Nat) : List LaneAcc :=
  lanes.map (fun l => { lane := l, va := (g.address space f.a f.b f.off useB l).toNat, n := n })

/-- A trap whose TRADDR is the address of the lowest lane that fails a check (R192). -/
def laneCheck (l : List LaneAcc) (bad : LaneAcc → Bool) (cause : Nat) : Except Stop Unit :=
  match l.find? bad with
  | some x => .error (.trap cause (BitVec.ofNat 64 x.va) 0)
  | none => .ok ()

/-- The global-space check of R90. The spec limits only the address that is formed: an access that starts below 2^56 and runs
past it raises protection too in the model (log entry 45). -/
def globalSpaceOk (accs : List LaneAcc) : Except Stop Unit := laneCheck accs (fun x => decide (2 ^ 56 < x.va + x.n)) cProtection

-- data operands (R237, R278)

/-- The legality of a data register or immediate of `n` bytes. -/
def dataOk (nregs n : Nat) (files : Operand → Bool) (o : Operand) : Bool :=
  files o && (match o with
  | .v i => decide (i.toNat < nregs) && (if n = 16 then i.toNat % 4 == 0 else if n = 8 then i.toNat % 2 == 0 else true)
  | .n i => decide (i.toNat < 8) && (if n = 16 then i.toNat % 4 == 0 else if n = 8 then i.toNat % 2 == 0 else true)
  | .b i => decide (i.toNat < 4) && n != 16
  | .s i => decide (i.toNat < 128) && (n != 16 || i.toNat % 2 == 0)
  | .imm _ => true
  | _ => false)

def fileVN : Operand → Bool | .v _ | .n _ => true | _ => false
def fileVNBSI : Operand → Bool | .v _ | .n _ | .b _ | .s _ | .imm _ => true | _ => false
def fileS : Operand → Bool | .s _ => true | _ => false
def fileSI : Operand → Bool | .s _ | .imm _ => true | _ => false

/-- The low `n` bytes of a data operand in a lane. -/
def Gang.dataNat (g : Gang) (o : Operand) (lane n : Nat) : Nat :=
  (match o with
   | .imm i => patOf 128 (immVal i)
   | .v i => if n = 16 then (g.rdV2 i.toNat lane).toNat + (g.rdV2 (i.toNat + 2) lane).toNat * 2 ^ 64 else (g.rdV2 i.toNat lane).toNat
   | .n i => if n = 16 then (g.rdN2 i.toNat lane).toNat + (g.rdN2 (i.toNat + 2) lane).toNat * 2 ^ 64 else (g.rdN2 i.toNat lane).toNat
   | .b i => (g.rdB i.toNat lane).toNat
   | .s i => (g.rdS i.toNat).toNat + (if n = 16 then (g.rdS (i.toNat + 1)).toNat * 2 ^ 64 else 0)
   | _ => 0) % 2 ^ (8 * n)

/-- A loaded value extended to its destination: by zeros, or by sign for i8 and i16 (R237, R280). -/
def loadExt (sz : Size) (w v : Nat) : Nat :=
  match sz with
  | .i8 => patOf w (signedOf 8 v)
  | .i16 => patOf w (signedOf 16 v)
  | _ => v

/-- The places of a loaded value in a lane destination: one, two or four registers. -/
def loadLane (sz : Size) (d : Operand) (lane v : Nat) : List (Dest × W64) :=
  let words := match sz with | .b64 => 2 | .b128 => 4 | _ => 1
  let x := loadExt sz 32 v
  (List.range words).map (fun k =>
    ((match d with | .n i => Dest.n (i.toNat + k) lane | d => Dest.v (Operand.idx d + k) lane), BitVec.ofNat 64 (x / 2 ^ (32 * k) % 2 ^ 32)))

/-- The places of a loaded value in an s destination (R280). -/
def loadScalar (sz : Size) (d : Operand) (v : Nat) : List (Dest × W64) :=
  let x := loadExt sz 64 v
  (.s (sIdx d), BitVec.ofNat 64 (x % 2 ^ 64)) :: (if sz = .b128 then [(.s (sIdx d + 1), BitVec.ofNat 64 (x / 2 ^ 64))] else [])

-- duplicate lanes (R111)

/-- The bytes of one lane's piece of a unit added to those already stored: a unit that another lane has written keeps its
value or takes this lane's, by a free choice; in an isolated task by one that is the same on every run (log entry 10). -/
def storePiece (it : Bool) (lane : Nat) (acc : Tab Byte × State) (piece : List (Nat × Byte)) : Tab Byte × State :=
  let (t, s) := acc
  let (old, new) := piece.partition (fun p => (Tab.find? t p.1).isSome)
  if old = [] then (Tab.putAll t new, s)
  else if it then (Tab.putAll t (if Config.laneWins ((piece.map (·.1)).headD 0) lane then piece else new), s)
  else
    let (k, s) := s.pickBelow 2
    (Tab.putAll t (if k = 0 then new else piece), s)

/-- The single-copy unit of a store (R110, R111): an aligned word, or the aligned whole of a strong access. -/
def storeUnit (ord : MemOrder) (x : LaneAcc) : Nat := if ord = .weak || x.va % x.n != 0 then 4 else min x.n 8

/-- The bytes that a store of several lanes leaves, unit by unit. -/
def State.resolveStores (s : State) (ord : MemOrder) (it : Bool) (l : List LaneAcc) (data : Nat → List Byte) : Tab Byte × State :=
  l.foldl (fun acc x =>
    let bytes := (List.range x.n).zip (data x.lane) |>.map (fun q => (x.va + q.1, q.2))
    let unit := storeUnit ord x
    let units := (bytes.map (fun q => q.1 / unit)).eraseDups
    units.foldl (fun acc u => storePiece it x.lane acc (bytes.filter (fun q => q.1 / unit == u))) acc) ([], s)

-- the order of accesses (R109 to R116)

/-- The order record changed. -/
def State.modOrder (s : State) (f : Order → Order) : State := { s with order := f s.order }

/-- One unit read: what stands there or, where no rule forbids it, what a write has replaced, by a free choice. The read is
noted until the instruction's reads have all been made. In an isolated task a load returns the latest write: its result may
not depend on timing (R186). -/
def State.readUnit (s : State) (it : Bool) (agents : List Nat) (key loc : Nat) (cur : List Byte) : List Byte × State :=
  let vs := if it then [(cur, none)] else s.order.versions agents key loc cur
  let (k, s) := if vs.length = 1 then (0, s) else s.pickBelow vs.length
  let v := vs.getD k (cur, none)
  (v.1, s.modOrder (fun o => { o with reads := o.reads ++ [(key, loc, cur.length, v.2)] }))

/-- The units of a range read one after another; `cur` gives what stands in a unit. -/
def State.readUnits (s : State) (it : Bool) (agents : List Nat) (key : Nat) (cur : Nat → Nat → List Byte) (units : List (Nat × Nat)) : List Byte × State :=
  units.foldl (fun (acc : List Byte × State) u =>
    let (b, s) := acc.2.readUnit it agents key u.1 (cur u.1 u.2)
    (acc.1 ++ b, s)) ([], s)

/-- The units of a store written; `cur` gives what stands in a unit before. -/
def State.writeUnits (s : State) (agents : List Nat) (key : Nat) (cur : Nat → Nat → List Byte) (units : List (Nat × Nat)) : State :=
  s.modOrder (fun o => units.foldl (fun o u => o.write agents key u.1 (cur u.1 u.2) false) o)

/-- One unit of an atomic (R119): it reads the latest write, which is performed, and its own write is performed at once. -/
def State.atomicUnit (s : State) (agents : List Nat) (key loc : Nat) (cur : List Byte) (wrote : Bool) : State :=
  s.modOrder (fun o =>
    let o := Order.readUnit agents o (key, loc, cur.length, none)
    if wrote then o.write agents key loc cur true else o)

-- global memory

/-- The agent that a unit's accesses act for. -/
def Issuer.viewer (i : Issuer) : Viewer := { launch := i.tm.launch, team := i.unit.team }

/-- Whether a load may be served from L1: not a strong one at DEVICE or SYSTEM visibility, and only on a page of cache
policy 00 (R98, R102). -/
def l1Serves (ord : MemOrder) (vis : Vis) (p : PageTr) : Bool := pteCp p.pte == 0 && (ord == .weak || vis == .team)

/-- The distinct 128-byte lines of some accesses, each with its page. -/
def accLines (ps : List PageTr) (accs : List LaneAcc) : List (Nat × PageTr) :=
  let lines := (accs.flatMap (fun x => (List.range ((x.va + x.n - 1) / 128 + 1 - x.va / 128)).map (· + x.va / 128))).eraseDups
  lines.map (fun l => (l, pageOf ps ((accs.map (·.va)).foldl (fun best va => if va / 128 = l then va else best) (128 * l))))

/-- The sector parts of an access with their locations. -/
def partsOf (ps : List PageTr) (x : LaneAcc) : List (PageTr × Nat × Nat) :=
  (sectorParts 3 x.va x.n).map (fun (va, n) => let p := pageOf ps va; (p, p.loc va, n))

/-- The locations of every byte of some accesses. -/
def locsOf (ps : List PageTr) (accs : List LaneAcc) : List Nat :=
  accs.flatMap (fun x => (List.range x.n).map (fun k => (pageOf ps (x.va + k)).loc (x.va + k)))

/-- The checks of a translated access: existing addresses (R104), and the stall on a wing that is not online (R411). -/
def State.existing (s : State) (ps : List PageTr) (accs : List LaneAcc) : Except Stop Unit :=
  let locs := accs.flatMap (fun x => (partsOf ps x).map (fun q => q.2.1))
  match s.absentIn locs with
  | some a => .error (.absent a)
  | none => if locs.all s.reachable then .ok () else .error (.retry false)

/-- The check for uncorrectable words: the first lane that reads one raises poison (R102). -/
def State.readable (s : State) (w : Viewer) (ps : List PageTr) (accs : List LaneAcc) : Except Stop Unit :=
  if s.uncorr = [] then .ok ()
  else
    let marked := fun va =>
      let p := pageOf ps va
      (Tab.find? s.uncorr (p.loc va)).isSome && s.fromCommitted w (pteImm p.pte) (p.loc va)
    match accs.find? (fun x => (List.range x.n).any (fun k => marked (x.va + k))) with
    | some x => .error (.ecc (BitVec.ofNat 64 x.va) (s.markedWords ((accs.flatMap (fun y =>
        ((List.range y.n).map (· + y.va)).filter marked)).map (fun va => (pageOf ps va).loc va))))
    | none => .ok ()

/-- The translations of an instruction enter the TLB, and the lines of `accs` on remote-resident pages are forwarded (R102, R407). -/
def State.touchPages (s : State) (core : Nat) (ps : List PageTr) (accs : List LaneAcc) : State :=
  let s := ps.foldl (fun s p => s.fillTlb core p) s
  (accLines ps accs).foldl (fun s p => s.forwardLine core p.2) s

/-- The parts of some loads that are forwarded: those that L1 does not hold and that the agent's own launch has not written
(R98, R122, R407). -/
def State.forwarded (s : State) (core : Nat) (w : Viewer) (ord : MemOrder) (vis : Vis) (ps : List PageTr) (accs : List LaneAcc) : List LaneAcc :=
  accs.flatMap (fun x => (sectorParts 3 x.va x.n).filterMap (fun (va, n) =>
    let p := pageOf ps va
    let loc := p.loc va
    if !pteRemote p.pte || (l1Serves ord vis p && ((s.core core).findL1 (s.viewKey w (pteImm p.pte)) loc).isSome) ||
       !(List.range n).any (fun k => s.fromCommitted w (pteImm p.pte) (loc + k)) then none
    else some { x with va := va, n := n }))

/-- A part of a load: its place, and its units. An aligned strong access is made of units of up to 8 bytes, whole in one
sector; any other of words and bytes (R110). -/
def loadUnits (ord : MemOrder) (x : LaneAcc) (loc n : Nat) : List (Nat × Nat) := unitsOf (ord != .weak && x.va % x.n == 0) loc n

/-- One sector part of a load: from L1, or its units afresh (R98, R110). -/
def State.loadPart (s : State) (core : Nat) (it : Bool) (agents : List Nat) (w : Viewer) (imm l1 : Bool) (loc n : Nat) (units : List (Nat × Nat)) :
    List Byte × State :=
  match s.fromL1 core w imm l1 loc n with
  | (some old, s) => (old, s)
  | (none, s) => s.readUnits it agents (s.viewKey w imm) (fun a k => (List.range k).map (fun j => s.viewByte w imm (a + j))) units

/-- One lane's load: its parts one after another (R110), each read recorded in the launch's signature (R176). -/
def State.loadAcc (s : State) (core : Nat) (it : Bool) (agents : List Nat) (w : Viewer) (ord : MemOrder) (vis : Vis) (ps : List PageTr) (x : LaneAcc) : Nat × State :=
  let (bs, s) := (partsOf ps x).foldl (fun (acc : List Byte × State) q =>
    let (p, loc, n) := q
    let (b, s) := acc.2.loadPart core it agents w (pteImm p.pte) (l1Serves ord vis p) loc n (loadUnits ord x loc n)
    (acc.1 ++ b, s.recordRead w.launch (pteImm p.pte) loc)) ([], s)
  (leNat bs, s)

/-- Whether an agent's launch is an isolated task. -/
def State.itView (s : State) (w : Viewer) : Bool := match s.launch? w.launch with | some L => L.it | none => false

/-- A global load of several lanes (R102, R279): every page is translated before any access; each lane's reads are by
themselves (R111), and are known to the gang from then on (R112). -/
def State.globalLoad (s : State) (i : Issuer) (ord : MemOrder) (vis : Vis) (accs : List LaneAcc) : Except Stop (List (Nat × Nat) × State) := do
  let w := i.viewer
  let core := i.tm.core
  let ps ← s.xlatAll (some core) i.tm.ctx .read accs
  s.existing ps accs
  s.readable w ps accs
  let s := s.touchPages core ps (s.forwarded core w ord vis ps accs)
  let (vals, s) := accs.foldl (fun (acc : List (Nat × Nat) × State) x =>
    let (v, s) := acc.2.loadAcc core (s.itView w) i.agents w ord vis ps x
    (acc.1 ++ [(x.lane, v)], s)) ([], s)
  let s := s.modOrder (fun o => o.settle i.agents)
  .ok (vals, if ord = .acq && vis != .team then s.dropL1 core else s)

/-- Bytes stored at virtual addresses by an agent of a launch, its own L1 copies updated (R98, R122, R173, R180). -/
def State.storeBytes (s : State) (core : Option Nat) (w : Viewer) (ps : List PageTr) (l : List (Nat × Byte)) : State :=
  l.foldl (fun s (va, b) =>
    let p := pageOf ps va
    let imm := pteImm p.pte
    let loc := p.loc va
    let s := s.writeByte w imm loc va b
    match core with
    | some c => s.patchL1 c (s.viewKey w imm) loc b
    | none => s) s

/-- The units of a store, page by page, recorded before they are written (R110, R112). -/
def State.storeUnits (s : State) (agents : List Nat) (w : Viewer) (ord : MemOrder) (ps : List PageTr) (accs : List LaneAcc) : State :=
  accs.foldl (fun s x => (partsOf ps x).foldl (fun (s : State) q =>
    let imm := pteImm q.1.pte
    s.writeUnits agents (s.viewKey w imm) (fun a k => (List.range k).map (fun j => s.viewByte w imm (a + j))) (loadUnits ord x q.2.1 q.2.2)) s) s

/-- The pages and the room of a global store (R102, R187). -/
def State.storeCheck (s : State) (core : Option Nat) (ctx : Nat) (w : Viewer) (accs : List LaneAcc) : Except Stop (List PageTr) := do
  let ps ← s.xlatAll core ctx .write accs
  s.existing ps accs
  (if accs = [] then .ok () else s.mayWrite w)
  s.poolCheck w ((locsOf ps accs).zip (accs.flatMap (fun x => (List.range x.n).map (fun k => pteImm (pageOf ps (x.va + k)).pte))) |>.filterMap
    (fun p => if p.2 then none else some p.1))
  .ok ps

/-- Whether an agent's stores through a page go to committed memory at once: IMM, or a published launch (R102, R189). -/
def State.direct (s : State) (w : Viewer) (p : PageTr) : Bool :=
  pteImm p.pte || (match s.launch? w.launch with | some L => L.irrev | none => true)

/-- A global store of several lanes (R102, R111, R279). Lines that go to a remote page at once are forwarded (R407). -/
def State.globalStore (s : State) (i : Issuer) (ord : MemOrder) (accs : List LaneAcc) (data : Nat → List Byte) : Except Stop State := do
  let w := i.viewer
  let ps ← s.storeCheck (some i.tm.core) i.tm.ctx w accs
  let s := s.touchPages i.tm.core ps (accs.filter (fun x => s.direct w (pageOf ps x.va)))
  let (bytes, s) := s.resolveStores ord (s.itView w) accs data
  .ok (((s.modLaunch i.tm.launch (fun L => { L with poolNeed := 0 })).storeUnits i.agents w ord ps accs).storeBytes (some i.tm.core) w ps bytes)

-- scratchpad

/-- The rounds of a vector scratchpad access (R93): the most distinct words in one bank. -/
def spadRounds (accs : List LaneAcc) : Nat :=
  let words := (accs.flatMap (fun x => (List.range ((x.n + 3) / 4)).map (fun k => x.va / 4 + k))).eraseDups
  ((List.range 32).map (fun b => (words.filter (fun q => q % 32 == b)).length)).foldl max 0

/-- The space and allocation checks of a scratchpad access, then alignment (R90, R91, R279). -/
def Team.spadCheck (t : Team) (accs : List LaneAcc) : Except Stop Unit := do
  laneCheck accs (fun x => decide (t.spadSize < x.va + x.n)) cProtection
  laneCheck accs (fun x => x.va % x.n != 0) cIllegalOperand

/-- The checks of a scratchpad store or atomic after those: guarded ranges, then pending granules (R57, R96, R142, R150). -/
def Team.spadStoreCheck (t : Team) (accs : List LaneAcc) : Except Stop Unit := do
  laneCheck accs (fun x => t.guarded x.va x.n) cProtection
  laneCheck accs (fun x => t.pendingAt x.va x.n) cLanding

/-- A scratchpad load stalls on a pending granule (R95). -/
def Team.spadStall (t : Team) (accs : List LaneAcc) : Except Stop Unit :=
  if accs.any (fun x => t.pendingAt x.va x.n) then .error (.retry false) else .ok ()

/-- BANKROUND: rounds beyond the first (R93, R256). -/
def State.countRounds (s : State) (core : Nat) (accs : List LaneAcc) : State :=
  let r := spadRounds accs
  if r ≤ 1 then s else s.perfAdd core 5 (r - 1)

end Sys2Proof.Machine
end

