-- ==== Sys2Proof/Machine/Mem.lean ====
section
/-! DEFINITION. Loads, stores, prefetch, fences and L1 maintenance (R277 to R285). -/

namespace Sys2Proof.Machine

open Sys2Proof

/-- The operand check of a memory instruction. -/
def memOperands (t : Team) (f : FmtM) (space : Space) (uniform useB : Bool) (data : Bool) : Except Stop Unit :=
  illegalOperandIf (!baseOk t.nregs space uniform f.a || (useB && !indexOk t.nregs uniform f.b) || !data)

/-- A scratchpad load of several lanes, unit by unit (R110, R111). -/
def State.spadLoad (s : State) (i : Issuer) (ord : MemOrder) (accs : List LaneAcc) : List (Nat × Nat) × State :=
  let (vals, t) := accs.foldl (fun (acc : List (Nat × Nat) × State) x =>
    let (bs, s') := acc.2.readUnits (s.itView i.viewer) i.agents spadKey (fun a k => i.tm.spadBytes (a - spadLoc i.unit.team 0) k)
      (loadUnits ord x (spadLoc i.unit.team x.va) x.n)
    (acc.1 ++ [(x.lane, leNat bs)], s')) ([], s)
  (vals, t.modOrder (fun o => o.settle i.agents))

/-- The units of a scratchpad store, recorded before they are written (R110, R112). -/
def State.spadUnits (s : State) (i : Issuer) (ord : MemOrder) (accs : List LaneAcc) : State :=
  accs.foldl (fun s x => s.writeUnits i.agents spadKey (fun a k => i.tm.spadBytes (a - spadLoc i.unit.team 0) k)
    (loadUnits ord x (spadLoc i.unit.team x.va) x.n)) s

/-- The values loaded by some lanes (R279). -/
def State.loadValues (s : State) (i : Issuer) (f : FmtM) (space : Space) (lanes : List Nat) : Except Stop (List (Nat × Nat) × State) := do
  let n := sizeBytes f.sz
  let accs := i.g.accesses f space true lanes n
  match space with
  | .global =>
    globalSpaceOk accs
    s.globalLoad i f.ord f.vis accs
  | .spad =>
    i.tm.spadCheck accs
    i.tm.spadStall accs
    let (vals, s) := s.spadLoad i f.ord accs
    .ok (vals, s.countRounds i.tm.core accs)
  | .stack =>
    laneCheck accs (fun x => decide (2 ^ 32 ≤ x.va)) cProtection
    laneCheck accs (fun x => x.va % n != 0) cIllegalOperand
    laneCheck accs (fun x => decide (i.g.stklim.toNat < x.va + n)) cStack
    .ok (accs.map (fun x => (x.lane, leNat ((List.range n).map (fun k => i.g.stackByte x.lane (x.va + k))))), s)

/-- The bytes stored by some lanes (R279). -/
def State.storeValues (s : State) (i : Issuer) (f : FmtM) (space : Space) (lanes : List Nat) : Except Stop State := do
  let n := sizeBytes f.sz
  let accs := i.g.accesses f space true lanes n
  let data := fun l => leBytes n (i.g.dataNat f.d l n)
  match space with
  | .global =>
    globalSpaceOk accs
    s.globalStore i f.ord accs data
  | .spad =>
    i.tm.spadCheck accs
    i.tm.spadStoreCheck accs
    let (bytes, s) := s.resolveStores f.ord (s.itView i.viewer) accs data
    .ok (((s.spadUnits i f.ord accs).modTeam i.unit.team (fun t => t.setSpadAll bytes)).countRounds i.tm.core accs)
  | .stack =>
    laneCheck accs (fun x => decide (2 ^ 32 ≤ x.va)) cProtection
    laneCheck accs (fun x => x.va % n != 0) cIllegalOperand
    laneCheck accs (fun x => decide (i.g.stklim.toNat < x.va + n)) cStack
    .ok (s.modGang i.unit.team i.unit.gang (fun g => accs.foldl (fun g x => g.setStack x.lane x.va (data x.lane)) g))

/-- A lane load (R279). -/
def State.laneLoad (s : State) (h : Hdr) (f : FmtM) (space : Space) : Res :=
  s.lane h (fun i => do
    memOperands i.tm f space false true (dataOk i.tm.nregs (sizeBytes f.sz) fileVN f.d)
    let (vals, s) ← s.loadValues i f space (i.active h)
    .ok (s.passLate i h.la.toNat (vals.flatMap (fun p => loadLane f.sz f.d p.1 p.2))))

/-- A lane store (R279). -/
def State.laneStore (s : State) (h : Hdr) (f : FmtM) (space : Space) : Res :=
  s.lane h (fun i => do
    memOperands i.tm f space false true (dataOk i.tm.nregs (sizeBytes f.sz) fileVNBSI f.d)
    let s ← s.storeValues i f space (i.active h)
    .ok (s.passUnit i))

/-- `LD` (R279). -/
def execLd (h : Hdr) (f : FmtM) (s : State) : Res := s.laneLoad h f .global
/-- `ST` (R279). -/
def execSt (h : Hdr) (f : FmtM) (s : State) : Res := s.laneStore h f .global
/-- `LDS` (R279). -/
def execLds (h : Hdr) (f : FmtM) (s : State) : Res := s.laneLoad h f .spad
/-- `STS` (R279). -/
def execSts (h : Hdr) (f : FmtM) (s : State) : Res := s.laneStore h f .spad
/-- `LDL` (R279, R281). -/
def execLdl (h : Hdr) (f : FmtM) (s : State) : Res := s.laneLoad h f .stack
/-- `STL` (R279, R281). -/
def execStl (h : Hdr) (f : FmtM) (s : State) : Res := s.laneStore h f .stack

/-- `LDU` (R280): one access for the gang. -/
def execLdu (h : Hdr) (f : FmtM) (s : State) : Res :=
  s.gangOp h (fun s i => do
    memOperands i.tm f f.space true true (dataOk i.tm.nregs (sizeBytes f.sz) fileS f.d)
    let (vals, s) ← s.loadValues i f f.space [0]
    .ok (s.passLate i h.la.toNat (vals.flatMap (fun p => loadScalar f.sz f.d p.2))))

/-- `STU` (R280). -/
def execStu (h : Hdr) (f : FmtM) (s : State) : Res :=
  s.gangOp h (fun s i => do
    memOperands i.tm f f.space true true (dataOk i.tm.nregs (sizeBytes f.sz) fileSI f.d)
    let s ← s.storeValues i f f.space [0]
    .ok (s.passUnit i))

/-- `PLD` (R283): no access, no trap. A lane whose translation misses or stops is skipped; for the others the lines come into
L1, unless the room form is used or the page's cache policy excludes L1. -/
def execPld (h : Hdr) (room : Bool) (f : FmtM) (s : State) : Res :=
  s.lane h (fun i => do
    memOperands i.tm f .global false true true
    let accs := (i.g.accesses f .global true (i.active h) (sizeBytes f.sz)).filter (fun x => decide (x.va + x.n ≤ 2 ^ 56))
    let s := accs.foldl (fun s x =>
      match s.xlatAll (some i.tm.core) i.tm.ctx .read [x] with
      | .ok ps =>
        if room || !ps.all (·.hit) || (match s.existing ps [x] with | .ok _ => false | .error _ => true) then s
        else (partsOf ps x).foldl (fun s q => if pteCp q.1.pte == 0 then s.refillLine i.tm.core i.viewer (pteImm q.1.pte) q.2.1 else s) s
      | .error _ => s) s
    .ok (s.passUnit i))

/-- `FENCE` (R118, R284): an acquire or acq_rel fence at DEVICE or SYSTEM visibility makes the core's L1 current. -/
def execFence (h : Hdr) (f : FmtM) (s : State) : Res :=
  let cur := fun (s : State) (i : Issuer) => if f.ord != .rel && f.vis != .team then s.dropL1 i.tm.core else s
  match h.scp with
  | .gang => s.gangWide h (fun s i => .ok (cur (s.passUnit i) i))
  | _ => s.lane h (fun i => .ok (cur (s.passUnit i) i))

/-- `CMAINT` (R285): a lane whose translation fails is skipped. -/
def execCmaint (h : Hdr) (all : Bool) (f : FmtM) (s : State) : Res :=
  s.lane h (fun i => do
    let act := i.active h
    if all then .ok ((if act = [] then s else s.dropL1 i.tm.core).passUnit i)
    else
      memOperands i.tm f .global false true true
      let accs := (i.g.accesses f .global true act 1).filter (fun x => decide (x.va < 2 ^ 56))
      let s := accs.foldl (fun s x =>
        match s.xlatAll (some i.tm.core) i.tm.ctx .read [x] with
        | .ok ps =>
          let line := (pageOf ps x.va).loc x.va / 128
          s.modCore i.tm.core (fun c => { c with l1 := c.l1.filter (fun y => y.loc / 128 != line) })
        | .error _ => s) s
      .ok (s.passUnit i))

end Sys2Proof.Machine
end

