-- ==== Sys2Proof/Machine/Atomics.lean ====
section
/-! DEFINITION. Atomics and reductions at memory (R119, R143, R144, R180, R286 to R288).
Readings of the spec that this file follows: log entries 37 and 43. -/

namespace Sys2Proof.Machine

open Sys2Proof

/-- An atomic instruction's operation on its units: none for a compare-and-swap; its type, its lanes' operands, and the
values a compare-and-swap expects. -/
structure AtomJob where
  op   : Option AtomOp
  ty   : AtomTy
  x    : List (Nat × Nat)
  want : List (Nat × Nat)
  deriving DecidableEq, Repr

/-- A lane's value in a list. -/
def laneVal (l : List (Nat × Nat)) (lane : Nat) : Nat := ((l.find? (fun p => p.1 == lane)).map (·.2)).getD 0

/-- A float add to a unit: a NaN in the unit stays, a NaN among the operands names the lowest lane that supplied one (R77,
R287). `c` is the fold of the operands of `lanes`. -/
def atomAdd (ty : AtomTy) (x : List (Nat × Nat)) (m c : Nat) (lanes : List Nat) : Nat :=
  packElems ((atomSpecs ty).map (fun (F, sh) =>
    let y := bits m sh F.width
    ((if F.isNan y then y
      else match lanes.find? (fun l => F.isNan (bits (laneVal x l) sh F.width)) with
        | some l => F.nanPayload l
        | none => (F.fadd .rne y (bits c sh F.width)).1), sh)))

/-- The left fold of some lanes' operands under RNE (R143). -/
def atomFold (ty : AtomTy) (x : List (Nat × Nat)) (lanes : List Nat) : Nat :=
  match lanes with
  | [] => 0
  | l :: r => (r.foldl (fun a k => atomStep .add ty a (BitVec.ofNat 64 (laneVal x k))) (BitVec.ofNat 64 (laneVal x l))).toNat

/-- Aggregate for one unit of value `m` (R287): each lane's old value, and the new value where one is written. -/
def AtomJob.unit (j : AtomJob) (m : Nat) (lanes : List Nat) : List (Nat × Nat) × Option Nat :=
  match j.op with
  | none =>
    let r := lanes.foldl (fun (acc : List (Nat × Nat) × Nat × Bool) l =>
      let (olds, v, w) := acc
      if v = laneVal j.want l then (olds ++ [(l, v)], laneVal j.x l, true) else (olds ++ [(l, v)], v, w)) ([], m, false)
    (r.1, if r.2.2 then some r.2.1 else none)
  | some op =>
    if op = .add && j.ty.isFloat then
      ((List.range lanes.length).map (fun k =>
          (lanes.getD k 0, if k = 0 then m else atomAdd j.ty j.x m (atomFold j.ty j.x (lanes.take k)) (lanes.take k))),
       if (atomSpecs j.ty).all (fun (F, sh) => F.isNan (bits m sh F.width)) then none
       else some (atomAdd j.ty j.x m (atomFold j.ty j.x lanes) lanes))
    else
      let r := lanes.foldl (fun (acc : List (Nat × Nat) × W64) l =>
        (acc.1 ++ [(l, acc.2.toNat)], atomStep op j.ty acc.2 (BitVec.ofNat 64 (laneVal j.x l)))) ([], BitVec.ofNat 64 m)
      (r.1, some r.2.toNat)

/-- A reduced unit extended by one lane's operand (R180): of a float add the lowest lane that supplied a NaN is kept, and a NaN
that the fold itself produced has payload 0 (R77). -/
def RedUnit.extend (r : RedUnit) (lane x : Nat) : RedUnit :=
  if r.op = .add && r.ty.isFloat then
    let c := (redStep .rne .add (atomTyTy r.ty) { val := r.acc.toNat, nans := r.nans } (contribOf (atomTyTy r.ty) lane x)).1
    { r with acc := BitVec.ofNat 64 (redResult (atomTyTy r.ty) c), nans := c.nans }
  else { r with acc := atomStep r.op r.ty r.acc (BitVec.ofNat 64 x) }

/-- The identity of an atomic reduction (R180, R273). -/
def atomIdentity (op : AtomOp) (ty : AtomTy) : W64 := BitVec.ofNat 64 (redIdentity (atomRed op) (atomTyTy ty))

/-- A byte of a write set that does not stay reduced under an operation and type on a unit: it is plain, or another reduced
unit covers it (R180). -/
def WSet.mixedAt (w : WSet) (op : AtomOp) (ty : AtomTy) (u loc : Nat) : Bool :=
  (Tab.find? w.plain loc).isSome ||
  w.red.any (fun r => decide (r.1 ≤ loc) && decide (loc < r.1 + atomBytes r.2.ty) && !(r.1 == u && r.2.op == op && r.2.ty == ty))

/-- `MRED` of an isolated task on one unit (R180): the bytes that stay reduced extend their unit's contribution; the others are
or become plain, with their value in the team's own view. `new` is the unit in that view with every operand applied. -/
def WSet.reduce (w : WSet) (op : AtomOp) (ty : AtomTy) (loc va new : Nat) (x : List (Nat × Nat)) : WSet :=
  let bytes := List.range (atomBytes ty)
  let mixed := bytes.filter (fun k => w.mixedAt op ty loc (loc + k))
  let own : RedUnit := match Tab.find? w.red loc with
    | some r => if r.op = op && r.ty = ty then r else { op := op, ty := ty, acc := atomIdentity op ty, nans := (tyElems (atomTyTy ty)).map (fun _ => none), va := va }
    | none => { op := op, ty := ty, acc := atomIdentity op ty, nans := (tyElems (atomTyTy ty)).map (fun _ => none), va := va }
  ({ plain := Tab.putAll w.plain (mixed.map (fun k => (loc + k, { val := BitVec.ofNat 8 (new / 256 ^ k), va := va + k }))),
     red := if mixed.length = bytes.length then w.red else Tab.put w.red loc (x.foldl (fun r p => r.extend p.1 p.2) own) } : WSet).tidy

/-- One unit of a global atomic: the read and the write at its point of coherence (R98, R119, R176), or the contribution
of an isolated task's `MRED` (R180). No L1 copy of the unit's sector stays behind what the atomic read (R112). -/
def State.atomUnit (s : State) (i : Issuer) (mred : Bool) (j : AtomJob) (p : PageTr) (va : Nat) (lanes : List Nat) :
    Except Stop (List (Nat × Nat) × Bool × State) := do
  let w := i.viewer
  let n := atomBytes j.ty
  let loc := p.loc va
  let imm := pteImm p.pte
  let locs := (List.range n).map (· + loc)
  let cur := locs.map (fun l => s.viewByte w imm l)
  let (old, new) := j.unit (leNat cur) lanes
  match (if s.itView w && mred && !imm then j.op else none) with
  | some op =>
    s.mayWrite w
    s.poolCheck w locs
    let ops := lanes.map (fun l => (l, laneVal j.x l))
    let s := s.modTeam w.team (fun t => { t with ws := t.ws.reduce op j.ty loc va (new.getD (leNat cur)) ops })
    .ok (lanes.map (fun l => (l, 0)), true, s.dropSector i.tm.core loc)
  | none =>
    let s := (s.recordRead w.launch imm loc).atomicUnit i.agents (s.viewKey w imm) loc cur new.isSome
    match new with
    | none => .ok (old, false, s.dropSector i.tm.core loc)
    | some v =>
      s.mayWrite w
      (if imm then .ok () else s.poolCheck w locs)
      .ok (old, true, (s.storeBytes (some i.tm.core) w [p] ((List.range n).zip (leBytes n v) |>.map (fun q => (va + q.1, q.2)))).dropSector i.tm.core loc)

/-- The units of one page, in the order of the lowest lane that names each (R287). -/
def State.atomUnits (s : State) (i : Issuer) (mred : Bool) (j : AtomJob) (p : PageTr) (accs : List LaneAcc) (units : List Nat) :
    Except Stop (List (Nat × Nat) × Bool × State) :=
  match units with
  | [] => .ok ([], false, s)
  | va :: rest => do
    let (o1, w1, s) ← s.atomUnit i mred j p va ((accs.filter (fun x => x.va == va)).map (·.lane))
    let (o2, w2, s) ← s.atomUnits i mred j p accs rest
    .ok (o1 ++ o2, w1 || w2, s)

/-- One page: its translation, its checks and its units (R102, R144). -/
def State.atomPage (s : State) (i : Issuer) (mred : Bool) (j : AtomJob) (p : PageTr) (accs : List LaneAcc) :
    Except Stop (List (Nat × Nat) × Bool × State) := do
  s.existing [p] accs
  s.readable i.viewer [p] accs
  let s := s.touchPages i.tm.core [p] accs
  let (olds, wrote, s) ← s.atomUnits i mred j p accs ((accs.map (·.va)).eraseDups)
  .ok (olds, wrote, s.modLaunch i.tm.launch (fun L => { L with poolNeed := 0 }))

/-- The places of an old value (R286): at GANG scope a 32-bit value is sign-extended for i32 and zero-extended otherwise. -/
def oldDest (ty : AtomTy) (d : Operand) (lane v : Nat) : List (Dest × W64) :=
  match d with
  | .s r => [(.s r.toNat, if ty = .i32 then BitVec.ofInt 64 (signedOf 32 v) else BitVec.ofNat 64 v)]
  | d => lateLane (atomBytes ty == 8) d lane v

/-- The pages of a global atomic in coalescer order (R144): the destinations of completed pages are written where a later
page stops the instruction, and their lanes are marked applied. Answers the old values of the last pages. -/
def State.atomPages (s : State) (i : Issuer) (mred : Bool) (j : AtomJob) (d : Operand) (fuel : Nat) (accs : List LaneAcc)
    (olds : List (Nat × Nat)) (wrote : Bool) : State × List (Nat × Nat) × Bool × Option Stop :=
  match fuel, accs with
  | 0, _ => (s, olds, wrote, none)
  | _, [] => (s, olds, wrote, none)
  | f + 1, x :: _ =>
    let stopped := fun (y : Stop) =>
      (s.modGang i.unit.team i.unit.gang (fun g =>
        let g := if mred then g else (olds.flatMap (fun o => oldDest j.ty d o.1 o.2)).foldl Gang.writeDest g
        { g with applied := g.applied ||| BitVec.ofNat 32 (laneMask (olds.map (·.1))) }), olds, wrote, some y)
    match s.xlatAll (some i.tm.core) i.tm.ctx .write [x] with
    | .error y => stopped y
    | .ok ps =>
      let p := pageOf ps x.va
      let here := accs.filter (fun y => p.covers y.va)
      match s.atomPage i mred j p here with
      | .error y => stopped y
      | .ok (o, w, t) => t.atomPages i mred j d f (accs.filter (fun y => !p.covers y.va)) (olds ++ o) (wrote || w)

/-- The scratchpad's units, at their banks (R288). -/
def Team.atomUnits (t : Team) (j : AtomJob) (accs : List LaneAcc) (units : List Nat) : List (Nat × Nat) × Bool × Team :=
  match units with
  | [] => ([], false, t)
  | va :: rest =>
    let n := atomBytes j.ty
    let (o1, new) := j.unit (t.spadNat va n) ((accs.filter (fun x => x.va == va)).map (·.lane))
    let t := match new with | some v => t.setSpad va (leBytes n v) | none => t
    let (o2, w, t) := t.atomUnits j accs rest
    (o1 ++ o2, new.isSome || w, t)

/-- The order of a scratchpad atomic's accesses, unit by unit (R119). -/
def State.spadAtomics (s : State) (i : Issuer) (j : AtomJob) (accs : List LaneAcc) (t : Team) (units : List Nat) : State :=
  units.foldl (fun s va =>
    let cur := t.spadBytes va (atomBytes j.ty)
    let new := (j.unit (leNat cur) ((accs.filter (fun x => x.va == va)).map (·.lane))).2
    s.atomicUnit i.agents spadKey (spadLoc i.unit.team va) cur new.isSome) s

/-- The operand check of an atomic (R286). -/
def atomOperands (t : Team) (f : FmtM) (space : Space) (uniform mred : Bool) (n : Nat) : Bool :=
  baseOk t.nregs space uniform f.a && dataOk t.nregs n (if uniform then fileSI else fileVNBSI) f.b &&
  (mred || dataOk t.nregs n (if uniform then fileS else fileVN) f.d)

/-- The lanes that an atomic performs: lane 0 for the gang at GANG scope, else those whose part has not been applied already
(R144, R286). -/
def Issuer.atomLanes (i : Issuer) (h : Hdr) : List Nat :=
  if h.scp == .gang then (if i.active h = [] then [] else [0])
  else (i.active h).filter (fun l => !bitAt i.g.applied.toNat l)

/-- What an atomic writes to registers: the old values, and for a compare-and-swap of the gang whether it swapped (R286). -/
def atomDests (h : Hdr) (op : Option AtomOp) (ty : AtomTy) (mred : Bool) (f : FmtM) (lanes : List Nat) (olds : List (Nat × Nat)) (wrote : Bool) : List (Dest × W64) :=
  (if mred then [] else olds.flatMap (fun o => oldDest ty f.d o.1 o.2)) ++
    (if op = none && (h.scp == .gang) && lanes != [] then [(Dest.cc 1, if wrote then (1 : W64) else 0)] else [])

/-- An atomic's operand in a lane; a short immediate is read in the atomic's type (R220). -/
def Gang.atomData (g : Gang) (ty : AtomTy) (o : Operand) (lane : Nat) : Nat :=
  match o with
  | .imm i => immBits (atomTyTy ty) i % 2 ^ (8 * atomBytes ty)
  | o => g.dataNat o lane (atomBytes ty)

/-- The operands of an atomic. -/
def Issuer.atomJob (i : Issuer) (op : Option AtomOp) (ty : AtomTy) (f : FmtM) (lanes : List Nat) : AtomJob :=
  { op := op, ty := ty, x := lanes.map (fun l => (l, i.g.atomData ty f.b l)), want := lanes.map (fun l => (l, i.g.dataNat f.d l (atomBytes ty))) }

/-- An atomic performed for some lanes of a unit (R286, R287): the state, and why it stopped part way. -/
def State.atomic (s : State) (i : Issuer) (h : Hdr) (op : Option AtomOp) (ty : AtomTy) (space : Space) (mred : Bool) (f : FmtM) :
    Except Stop (State × Option Stop) := do
  illegalOperandIf (!atomOperands i.tm f space (h.scp == .gang) mred (atomBytes ty))
  match space with
  | .global =>
    globalSpaceOk (i.g.accesses f space false (i.atomLanes h) (atomBytes ty))
    laneCheck (i.g.accesses f space false (i.atomLanes h) (atomBytes ty)) (fun x => x.va % atomBytes ty != 0) cIllegalOperand
    match s.atomPages i mred (i.atomJob op ty f (i.atomLanes h)) f.d 32 (i.g.accesses f space false (i.atomLanes h) (atomBytes ty)) [] false with
    | (s, _, _, some y) => .ok (s, some y)
    | (s, olds, wrote, none) =>
      let s := if (f.ord = .acq ∨ f.ord = .acqRel) ∧ f.vis ≠ .team then s.dropL1 i.tm.core else s
      .ok (s.passLate i h.la.toNat (atomDests h op ty mred f (i.atomLanes h) olds wrote), none)
  | _ =>
    let accs := i.g.accesses f space false (i.atomLanes h) (atomBytes ty)
    i.tm.spadCheck accs
    i.tm.spadStoreCheck accs
    let r := i.tm.atomUnits (i.atomJob op ty f (i.atomLanes h)) accs ((accs.map (·.va)).eraseDups)
    let s := ((s.spadAtomics i (i.atomJob op ty f (i.atomLanes h)) accs i.tm ((accs.map (·.va)).eraseDups)).modTeam i.unit.team
      (fun u => { u with spad := r.2.2.spad, mops := r.2.2.mops })).countRounds i.tm.core accs
    .ok (s.passLate i h.la.toNat (atomDests h op ty mred f (i.atomLanes h) r.1 r.2.1), none)

/-- An atomic at LANE or GANG scope; one that stops part way keeps what it has applied (R144). -/
def State.atomicOp (s : State) (h : Hdr) (op : Option AtomOp) (ty : AtomTy) (space : Space) (mred : Bool) (f : FmtM) : Res :=
  match h.scp with
  | .gang => s.gangWide h (fun s i =>
      match s.atomic i h op ty space mred f with
      | .error x => .error x
      | .ok (t, none) => .ok t
      | .ok (_, some x) => .error x)
  | _ =>
    match s.issuer? with
    | none => .fault .noIssuer
    | some i =>
      if h.scp ≠ .lane then s.scopeTrap i h cIllegalScope
      else match s.atomic i h op ty space mred f with
      | .error x => s.stop (i.performer (some h)) x
      | .ok (t, none) => s.settle (i.performer (some h)) (.ok t)
      | .ok (t, some x) => t.stop (i.performer (some h)) x

/-- `ATOM` (R286, R287). -/
def execAtom (h : Hdr) (op : AtomOp) (ty : AtomTy) (f : FmtM) (s : State) : Res := s.atomicOp h (some op) ty .global false f
/-- `ACAS` (R286 to R288). -/
def execAcas (h : Hdr) (ty : AtomTy) (f : FmtM) (s : State) : Res := s.atomicOp h none ty .global false f
/-- `MRED` (R180, R286 to R288). -/
def execMred (h : Hdr) (op : AtomOp) (ty : AtomTy) (f : FmtM) (s : State) : Res := s.atomicOp h (some op) ty .global true f
/-- `ATOMS` (R286 to R288). -/
def execAtoms (h : Hdr) (op : AtomOp) (ty : AtomTy) (f : FmtM) (s : State) : Res := s.atomicOp h (some op) ty .spad false f
/-- `ACASS` (R286 to R288). -/
def execAcass (h : Hdr) (ty : AtomTy) (f : FmtM) (s : State) : Res := s.atomicOp h none ty .spad false f

end Sys2Proof.Machine
end

