-- ==== Sys2Proof/Machine/IntOps.lean ====
section
/-! DEFINITION. Integer operations, written once for the scalar and the lane instructions (R249, R250, R260): the exact
value, saturation, and the carry rule of the condition codes. -/

namespace Sys2Proof.Machine

open Sys2Proof

/-- The integer operations that scalar and lane instructions share. -/
inductive IntOp where
  | add | sub | mul | mulHi | mad | min | max
  | shift (k : ShiftOp) | bit (k : BitOp) | lut (t : Byte)
  | div | rem | abs | neg
  deriving DecidableEq, Repr

def IntOp.usesB : IntOp → Bool | .bit _ | .abs | .neg => false | _ => true
def IntOp.usesC : IntOp → Bool | .mad | .lut _ => true | _ => false

/-- A truth table applied bit by bit (R230): bit 4a + 2b + c of the table. -/
def lutBits (w : Nat) (t : Byte) (a b c : Nat) : Nat :=
  (List.range w).foldl (fun r i =>
    let k := (if bitAt a i then 4 else 0) + (if bitAt b i then 2 else 0) + (if bitAt c i then 1 else 0)
    if bitAt t.toNat k then r + 2 ^ i else r) 0

/-- Shifts by k = y mod w (R249); for b types `shr` is logical and `sar` arithmetic (R260). -/
def shiftBits (k : ShiftOp) (w x n : Nat) : Int :=
  let x := x % 2 ^ w
  match k with
  | .shl => ((x * 2 ^ n : Nat) : Int)
  | .shr => ((x / 2 ^ n : Nat) : Int)
  | .sar => (signedOf w x).fdiv ((2 ^ n : Nat) : Int)
  | .rol => ((x * 2 ^ n % 2 ^ w + x / 2 ^ (w - n) : Nat) : Int)

/-- `popc`, `clz`, `ctz` and `brev` (R249). -/
def bitOpBits (k : BitOp) (w x : Nat) : Nat :=
  match k with
  | .popc => (onesOf w x).length
  | .clz => match (onesOf w x).getLast? with | some i => w - 1 - i | none => w
  | .ctz => (onesOf w x).headD w
  | .brev => maskOf ((onesOf w x).map (fun i => w - 1 - i))

/-- Division truncated toward zero; a zero divisor gives all ones and the dividend (R250). -/
def divExact (x y : Int) : Int := if y = 0 then -1 else x.tdiv y
def remExact (x y : Int) : Int := if y = 0 then x else x.tmod y

/-- The exact value of an operation on patterns read in a type (R249). -/
def IntOp.exact (op : IntOp) (t : Ty) (x y z : Nat) : Int :=
  let w := tyWidth t
  let a := tyInt t x
  let b := tyInt t y
  match op with
  | .add => a + b
  | .sub => a - b
  | .mul => a * b
  | .mulHi => (a * b).fdiv ((2 ^ w : Nat) : Int)
  | .mad => a * b + tyInt t z
  | .min => if a ≤ b then a else b
  | .max => if a ≤ b then b else a
  | .shift k => shiftBits k w x (y % w)
  | .bit k => bitOpBits k w x
  | .lut u => lutBits w u x y z
  | .div => divExact a b
  | .rem => remExact a b
  | .abs => a.natAbs
  | .neg => -a

/-- The result in the type width, and whether it saturated (R249). -/
def satResult (t : Ty) (sat : Bool) (e : Int) : Nat × Bool :=
  if sat then
    let c := if e < tyMin t then tyMin t else if tyMax t < e then tyMax t else e
    (patOf (tyWidth t) c, decide (c ≠ e))
  else (patOf (tyWidth t) e, false)

/-- The carry rule of an operation (R249). -/
def IntOp.carry (op : IntOp) (t : Ty) (x y : Nat) : CarryRule :=
  let w := tyWidth t
  match op with
  | .add => .add (x % 2 ^ w) (y % 2 ^ w)
  | .sub => .sub (x % 2 ^ w) (y % 2 ^ w)
  | _ => .none

/-- A result extended to 64 bits: by sign for i32 and b32, by zeros otherwise (R249). -/
def extend64 (t : Ty) (r : Nat) : W64 :=
  match t with
  | .i32 | .b32 => BitVec.ofInt 64 (signedOf 32 r)
  | _ => BitVec.ofNat 64 r

end Sys2Proof.Machine
end

