-- ==== Sys2Proof/Machine/Scalar.lean ====
section
/-! DEFINITION. Scalar integer and floating-point instructions (R246 to R251). -/

namespace Sys2Proof.Machine

open Sys2Proof

/-- The scopes of a scalar instruction: the I form is not legal at SET scope (R226). -/
def scalarScopes (f : FmtR) : List Scope := match f.b with | .imm32 _ => [.gang, .team] | .op _ => scopesGST

/-- A scalar instruction (R247): operands and FPMODE from the representative member, the same change in every member. -/
def State.scalar (s : State) (h : Hdr) (f : FmtR) (run : Gang → Wide → Except Stop (Gang → Gang)) : Res :=
  s.wideOp h (f.xt.toNat % 8) (scalarScopes f) (fun s w => do
    let g ← run w.rep w
    .ok (s.passWide w.p g))

/-- The legality of a scalar B operand. -/
def sBOk : Src → Bool
  | .op o => sSrcOk o
  | .imm32 _ => true

/-- The operand checks of a scalar instruction (R246). -/
def scalarOperands (f : FmtR) (d b c : Bool) : Except Stop Unit :=
  illegalOperandIf ((d && !sOk f.d) || !sSrcOk f.a || (b && !sBOk f.b) || (c && !sSrcOk f.c))

/-- A scalar result written with its condition codes (R249): at once, or within its window (R222). -/
def State.scalarInt (s : State) (h : Hdr) (f : FmtR) (op : IntOp) : Res :=
  s.wideOp h (f.xt.toNat % 8) (scalarScopes f) (fun s w => do
    scalarOperands f true op.usesB op.usesC
    let g := w.rep
    let x := (g.rdScalar f.a).toNat
    let y := (g.rdScalarB f.ty f.b).toNat
    let z := (g.rdScalar f.c).toNat
    let (res, sat) := satResult f.ty f.sat (op.exact f.ty x y z)
    let cc := fun (g : Gang) => if f.ccw then g.setIntCc (tyWidth f.ty) res sat (op.carry f.ty x y) else g
    let ws := (Dest.s (sIdx f.d), extend64 f.ty res) :: (if f.ccw then [(Dest.cc 15, (cc g).cc)] else [])
    .ok (w.p.gangs.foldl (fun s q => s.modGang w.p.team q.1 (fun g => g.passLate q.2 h.la.toNat ws)) s))

/-- `SADD` (R249). -/
def execSadd (h : Hdr) (f : FmtR) (s : State) : Res := s.scalarInt h f .add
/-- `SSUB` (R249). -/
def execSsub (h : Hdr) (f : FmtR) (s : State) : Res := s.scalarInt h f .sub
/-- `SMUL` (R249). -/
def execSmul (h : Hdr) (hi : Bool) (f : FmtR) (s : State) : Res := s.scalarInt h f (if hi then .mulHi else .mul)
/-- `SMAD` (R249). -/
def execSmad (h : Hdr) (f : FmtR) (s : State) : Res := s.scalarInt h f .mad
/-- `SDIV` (R250). -/
def execSdiv (h : Hdr) (f : FmtR) (s : State) : Res := s.scalarInt h f .div
/-- `SREM` (R250). -/
def execSrem (h : Hdr) (f : FmtR) (s : State) : Res := s.scalarInt h f .rem
/-- `SLOP` (R230, R249). -/
def execSlop (h : Hdr) (lut : Byte) (f : FmtR) (s : State) : Res := s.scalarInt h f (.lut lut)
/-- `SSHF` (R249). -/
def execSshf (h : Hdr) (k : ShiftOp) (f : FmtR) (s : State) : Res := s.scalarInt h f (.shift k)
/-- `SMIN` (R249). -/
def execSmin (h : Hdr) (f : FmtR) (s : State) : Res := s.scalarInt h f .min
/-- `SMAX` (R249). -/
def execSmax (h : Hdr) (f : FmtR) (s : State) : Res := s.scalarInt h f .max
/-- `SBIT` (R249). -/
def execSbit (h : Hdr) (k : BitOp) (f : FmtR) (s : State) : Res := s.scalarInt h f (.bit k)

/-- An operand that `SMOV` may name: an s register or g0 to g7 (R246). -/
def sgOk : Operand → Bool | .s i => decide (i.toNat < 128) | .g _ => true | _ => false

/-- A scalar destination written; a g register receives bits [31:0] (R246). -/
def Gang.wrScalar (g : Gang) (o : Operand) (x : W64) : Gang :=
  match o with
  | .s i => g.wrS i.toNat x
  | .g i => g.wrG i.toNat (x.setWidth 32)
  | _ => g

/-- `SMOV` (R246, R249): a copy, or bits [31:0] of A inserted into the high half of D; only the copy may name a g register. -/
def execSmov (h : Hdr) (hi : Bool) (f : FmtR) (s : State) : Res :=
  s.scalar h f (fun g _ => do
    let imm := match f.b with | .imm32 _ => true | .op _ => false
    illegalOperandIf (if hi then !sOk f.d || !(imm || sSrcOk f.a) else !sgOk f.d || !(imm || sgOk f.a || sSrcOk f.a))
    let a := if imm then g.rdScalarB .i64 f.b else g.rdScalar f.a
    .ok (fun m =>
      let x := if hi then a.extractLsb' 0 32 ++ (m.rdScalar f.d).extractLsb' 0 32 else a
      let m := m.wrScalar f.d x
      if f.ccw then m.setIntCc 64 x.toNat false .none else m))

/-- `SCMP` (R233, R249). -/
def execScmp (h : Hdr) (f : FmtR) (s : State) : Res :=
  s.scalar h f (fun g _ => do
    scalarOperands f false true false
    let w := tyWidth f.ty
    let x := (g.rdScalar f.a).toNat % 2 ^ w
    let y := (g.rdScalarB f.ty f.b).toNat % 2 ^ w
    .ok (fun m => m.setIntCc w (patOf w ((x : Int) - y)) false (.sub x y)))

/-- `SSEL` (R234, R249). -/
def execSsel (h : Hdr) (cond : Cond) (f : FmtR) (s : State) : Res :=
  s.scalar h f (fun g w => do
    scalarOperands f true true false
    let x := if condHolds cond g.cc w.tm.prq then g.rdScalar f.a else g.rdScalarB .b64 f.b
    .ok (fun m => m.wrS (sIdx f.d) x))

/-- A floating-point operand of `SFOP`: a register's low bits, or an integer value converted (R220, R251). -/
def Gang.rdScalarF (g : Gang) (t : Ty) (o : Operand) : Nat :=
  match o with
  | .imm i => immBits t i
  | o => (g.rdScalar o).toNat % 2 ^ tyWidth t

/-- The B operand of `SFOP` (R216, R251). -/
def Gang.rdScalarFB (g : Gang) (t : Ty) (b : Src) : Nat :=
  match b with
  | .op o => g.rdScalarF t o
  | .imm32 x => imm32Bits t x

/-- Whether an `SFOP` is arithmetic, where a quiet NaN operand sets NV (R251): what combines numbers and rounds the outcome. A
conversion is not counted, for R266 has only a signalling NaN set NV there (log entry 36). -/
def sfopArith : SfopOp → Bool
  | .add | .sub | .mul | .fma => true
  | .min | .max | .cmp | .cvt => false

/-- NV where an arithmetic `SFOP` meets a NaN (R251). -/
def sfopNan (k : SfopOp) (F : FSpec) (a b c : Nat) : Exc :=
  if sfopArith k && (F.isNan a || F.isNan b || (k == .fma && F.isNan c)) then .nv else 0

/-- The value and the exceptions of an `SFOP` (R251). -/
def sfopResult (k : SfopOp) (t : Ty) (rm : Rm) (a b c : Nat) : Nat × Exc :=
  let F := if t = .f64 then specF64 else specF32
  let G := if t = .f64 then specF32 else specF64
  let r := match k with
    | .add => F.fadd rm a b
    | .sub => F.fsub rm a b
    | .mul => F.fmul rm a b
    | .fma => F.fma rm false false a b c
    | .min => F.fminmax false a b
    | .max => F.fminmax true a b
    | .cmp => (0, (F.fcompare a b).2)
    | .cvt => fconv G F rm a
  (r.1, r.2 ||| sfopNan k F a b c)

/-- `SFOP` (R251): an enabled exception traps with TRINFO bit 0 set in every member (R75). -/
def execSfop (h : Hdr) (k : SfopOp) (f : FmtR) (s : State) : Res :=
  s.wideOp h (f.xt.toNat % 8) (scalarScopes f) (fun s w => do
    scalarOperands f (k != .cmp) (k != .cvt) (k == .fma)
    let g := w.rep
    let F := if f.ty = .f64 then specF64 else specF32
    let src := if k = .cvt then (if f.ty = .f64 then .f32 else .f64) else f.ty
    let a := g.rdScalarF src f.a
    let b := g.rdScalarFB f.ty f.b
    let c := g.rdScalarF f.ty f.c
    let (r, e) := sfopResult k f.ty (effRm g.fpmode f.rm) a b c
    if enabledExc g.fpmode e then .error (.trapEach cArith (w.gangs.map (fun i => (i, 1))) e)
    else .ok (s.passWide w.p (fun m =>
      let m := m.orFlags e
      if k = .cmp then m.setCmpCc (F.fcompare a b).1
      else
        let m := m.wrS (sIdx f.d) (BitVec.ofNat 64 r)
        if f.ccw then m.setFloatCc F r else m)))

end Sys2Proof.Machine
end

