-- ==== Sys2Proof/Machine/System.lean ====
section
/-! DEFINITION. Special registers, mask operations, the trap queue and performance counters (R193, R235, R236, R252, R253,
R255, R256). -/

namespace Sys2Proof.Machine

open Sys2Proof

-- SGET and SSET

/-- The launch record that started a team's grid. -/
def State.gridRec (s : State) (t : Team) : LaunchRec :=
  match (s.launch? t.launch).bind (fun L => Tab.find? L.grids t.grid) with
  | some g => g.lrec
  | none => {}

/-- LAUNCHV (R172). -/
def launchv (L : Launch) : W64 :=
  BitVec.ofNat 64 (L.tag % 2 ^ 16 + L.attempt % 16 * 2 ^ 16 + (if L.it then 2 ^ 20 else 0) + (if L.irrev then 2 ^ 21 else 0))

/-- GRIDID (R235). -/
def State.gridid (s : State) (t : Team) : W64 :=
  let depth := match (s.launch? t.launch).bind (fun L => Tab.find? L.grids t.grid) with | some g => g.depth | none => 0
  BitVec.ofNat 64 (t.grid % 2 ^ 32 + depth * 2 ^ 32)

/-- The words of SETINFO (R236). -/
def Team.setinfo (t : Team) (set word gang : Nat) : W64 :=
  let d := t.sets.getD set {}
  if d.mask = 0 then 0
  else
    let ms := onesOf 32 d.mask
    BitVec.ofNat 64 (if word = 0 then d.mask + maskOf (ms.filter (fun i => (t.gang i).isLive)) * 2 ^ 32
      else d.base + ((indexOf? (· == gang) ms).getD 0x3F) * 2 ^ 8 + 2 ^ 14)

/-- Whether a special register is readable in handler state only (R193, R235). -/
def sregHandler : SReg → Bool
  | .trcause | .trpc | .traddr | .trskid | .trapplied | .trinfo => true
  | _ => false

/-- The special registers that `SSET` may write (R235). -/
def sregWritable : SReg → Bool
  | .cc | .fpmode | .flags | .stkptr | .stklim | .trpc => true
  | _ => false

/-- The value of a special register in a gang, where it does not differ by lane (R235). -/
def State.sregValue (s : State) (t : Team) (gang : Nat) (r : SReg) (set word : Nat) : W64 :=
  let g := t.gang gang
  match r with
  | .gangid => BitVec.ofNat 64 gang
  | .teamid => BitVec.ofNat 64 t.index
  | .gridid => s.gridid t
  | .ctxid => BitVec.ofNat 64 (s.ctx t.ctx).asid
  | .launchv => match s.launch? t.launch with | some L => launchv L | none => 0
  | .clock => s.clock
  | .cc => g.cc
  | .fpmode => g.fpmode
  | .flags => g.flags
  | .stkptr => g.stkptr
  | .stklim => g.stklim
  | .prq => if t.prq then 1 else 0
  | .prdl => BitVec.ofNat 64 t.prdl
  | .trcause => g.trec.cause
  | .trpc => g.trec.pcs.getD (bits g.trec.cause.toNat 10 3) 0
  | .traddr => g.trec.addr
  | .trskid => g.trec.skid
  | .trapplied => g.trec.applied
  | .trinfo => g.trec.info
  | .trapvec => t.trapvec
  | .setinfo => t.setinfo set word gang
  | .laneid | .sliceid => 0

/-- CLOCK has moved on by a free amount and does not wrap (R235, log entry 7). -/
def State.tick (s : State) : State :=
  let (k, s) := s.pick
  { s with clock := BitVec.ofNat 64 (s.clock.toNat + k.toNat % (2 ^ 64 - s.clock.toNat)) }

/-- Whether a register takes a single v register (R235). -/
def sregSingle : SReg → Bool | .laneid | .sliceid => true | _ => false

/-- `SGET` (R229, R235, R236, R252). -/
def execSget (h : Hdr) (r : SReg) (f : FmtR) (s : State) : Res :=
  s.wideOp h (f.xt.toNat % 8) scopesGST (fun s w => do
    let g := w.rep
    let toV := match f.d with | .v _ => laneDstOk w.tm.nregs (!sregSingle r) f.d | _ => false
    illegalOperandIf (!(toV || (sOk f.d && !sregSingle r)))
    illegalOperandIf (sregHandler r && !g.handler)
    let b := match f.b with | .op o => o | .imm32 _ => .zero
    let immGiven := isImm b
    illegalOperandIf (r == .setinfo && (!sSrcOk f.a || !immGiven))
    let set := (g.rdScalar f.a).toNat
    let word := (g.rdScalar b).toNat
    illegalOperandIf (r == .setinfo && (decide (7 < set) || decide (1 < word)))
    let s := if r = .clock then s.tick else s
    let val := s.sregValue w.tm (w.gangs.headD 0) r set word
    .ok (w.p.gangs.foldl (fun s q => s.modGang w.p.team q.1 (fun m =>
      (match f.d with
       | .s i => m.wrS i.toNat val
       | d =>
         let lanes := lanesOf q.2
         m.writeLanes (!sregSingle r) d lanes (m.activeIn h lanes) (fun l =>
           match r with
           | .laneid => l
           | .sliceid => l / 4
           | .trpc => (m.trec.pcs.getD (l / 4) 0).toNat
           | _ => val.toNat)).pass q.2)) s))

/-- Whether a value may be written to a special register of a gang (R73, R100, R232). -/
def Gang.ssetOk (g : Gang) (r : SReg) (limit : Nat) (x : W64) : Bool :=
  let v := x.toNat
  match r with
  | .cc => decide (v < 2 ^ 8)
  | .fpmode => decide (v < 2 ^ 7) && !bitAt v 3 && decide (v % 8 < 5)
  | .flags => decide (v < 2 ^ 5)
  | .stkptr => v % 64 == 0 && decide (v ≤ g.stklim.toNat)
  | .stklim => v % 64 == 0 && decide (v ≤ limit)
  | _ => true

/-- A special register written (R235). -/
def Gang.sset (g : Gang) (r : SReg) (x : W64) : Gang :=
  match r with
  | .cc => { g with cc := x }
  | .fpmode => { g with fpmode := x }
  | .flags => { g with flags := x }
  | .stkptr => { g with stkptr := x }
  | .stklim => { g with stklim := x }
  | _ => g

/-- TRPC written, per slice (R193); each slice then resumes at the written address, and what a slice had in progress at another
address is over (log entry 14). -/
def Gang.setTrpc (g : Gang) (pcs : List W64) : Gang :=
  let moved := (List.range 8).filter (fun k => pcs.getD k 0 != g.trec.pcs.getD k 0)
  { g with
      savedApplied := g.savedApplied &&& ~~~ BitVec.ofNat 32 (laneMask (lanesOf moved))
      savedPlain := g.savedPlain && moved.isEmpty
      savedWaits := (List.range 8).map (fun k => if moved.contains k then .ready else g.savedWaits.getD k .ready)
      trec := { g.trec with pcs := pcs }
      queue := match g.queue with | [] => [] | e :: r => { e with resume := [] } :: r }

/-- STKLIM of a launch record (R100, R388). -/
def LaunchRec.stklim (r : LaunchRec) : Nat := bits r.shape.toNat 24 16 * 64

/-- `SSET` (R193, R235, R252). -/
def execSset (h : Hdr) (r : SReg) (f : FmtR) (s : State) : Res :=
  s.wideOp h (f.xt.toNat % 8) scopesGST (fun s w => do
    let g := w.rep
    illegalOperandIf (!sregWritable r || (sregHandler r && !g.handler))
    let pair := match f.a with | .v _ => r == .trpc && laneSrcOk w.tm.nregs true f.a | _ => false
    illegalOperandIf (!(pair || sSrcOk f.a))
    let x := g.rdScalar f.a
    let limit := (s.gridRec w.tm).stklim
    illegalOperandIf (!w.gangs.all (fun i => (w.tm.gang i).ssetOk r limit x))
    .ok (s.passWide w.p (fun m =>
      if r = .trpc then
        m.setTrpc ((List.range 8).map (fun k => match f.a with | .v i => if pair then m.rdV2 i.toNat (4 * k) else x | _ => x))
      else m.sset r x)))

-- MOP

/-- The value of a mask operation (R253). -/
def mopValue (k : MaskOp) (a b : W32) : W32 :=
  match k with
  | .mset | .mfroms | .mtos => a
  | .mand => a &&& b
  | .mor => a ||| b
  | .mxor => a ^^^ b
  | .mnot => ~~~ a
  | .mpopc => BitVec.ofNat 32 (onesOf 32 a.toNat).length

/-- `MOP` (R253). -/
def execMop (h : Hdr) (k : MaskOp) (f : FmtR) (s : State) : Res :=
  s.wideOp h (f.xt.toNat % 8) scopesGST (fun s w => do
    let g := w.rep
    let b := match f.b with | .op o => o | .imm32 _ => .zero
    let immGiven := isImm f.a
    let toS := k == .mpopc || k == .mtos
    let binary := k == .mand || k == .mor || k == .mxor
    illegalOperandIf (!(if toS then sOk f.d else mDstOk f.d))
    illegalOperandIf (!(match k with | .mfroms => sOk f.a | .mset => isM f.a || immGiven | _ => isM f.a))
    illegalOperandIf (binary && !isM b)
    let val := mopValue k ((g.rdScalar f.a).setWidth 32) ((g.rdScalar b).setWidth 32)
    .ok (s.passWide w.p (fun m =>
      let m := if toS then m.wrS (sIdx f.d) (val.setWidth 64) else m.wrM (mIdx f.d) val
      if f.ccw then m.setZncv (val == 0) val.msb false false else m)))

-- TRQ

/-- Word k of a pending-trap entry (R255). -/
def TrapEntry.word (e : TrapEntry) (k : Nat) : W64 :=
  match k with
  | 0 => trcauseOf e
  | 1 => e.pc
  | 2 => e.addr
  | 3 => e.info
  | _ => e.applied

/-- `TRQ` (R255). -/
def execTrq (h : Hdr) (drop : Bool) (f : FmtR) (s : State) : Res :=
  s.gangOp h (fun s i => do
    trapIf (!i.g.handler) cIllegalInstruction
    let b := match f.b with | .op o => o | .imm32 _ => .zero
    let immGiven := isImm b
    illegalOperandIf (!sSrcOk f.a || (!drop && (!sOk f.d || !immGiven)))
    let n := (i.g.rdScalar f.a).toNat
    let k := (i.g.rdScalar b).toNat
    if drop then
      illegalOperandIf (n = 0 || decide (i.g.queue.length ≤ n))
      .ok (s.passWith i (fun g => { g with queue := g.queue.eraseIdx n }))
    else
      illegalOperandIf (decide (4 < k))
      match i.g.queue[n]? with
      | none => .ok (s.passWith i (fun g => (g.wrS (sIdx f.d) 0).setCc ccZ true))
      | some e => .ok (s.passWith i (fun g => (g.wrS (sIdx f.d) (e.word k)).setCc ccZ false)))

-- PERF

/-- A stored counter advanced by a free amount before it is read: what the model does not count (log entry 26). -/
def State.perfFree (s : State) (core ctr : Nat) : State :=
  let (k, s) := s.pick
  s.modCore core (fun c => { c with perf := Tab.adjust c.perf 0 ctr (fun x => x + k) })

/-- A counter's value when it is read, and the state that has read it (R256). -/
def State.readPerf (s : State) (i : Issuer) (c : PerfCtr) : W64 × State :=
  let core := i.tm.core
  let code := valToCode perfTab c
  match c with
  | .gissue => (i.g.gissue, s)
  | .gparted => (i.g.gparted, s)
  | .bankround | .planeskip | .zerotile | .remoteline => (Tab.get (s.core core).perf 0 code, s)
  | .l1miss | .roommiss | .tlbmiss | .linepar =>
    let s := s.perfFree core code
    (Tab.get (s.core core).perf 0 code, s)
  | .gatherdedup =>
    let (k, s) := s.pick
    let s := s.modWing (wingOfCore core) (fun w => { w with dedup := Tab.adjust w.dedup 0 (roomOfCore core) (fun x => x + k) })
    (Tab.get (s.wing (wingOfCore core)).dedup 0 (roomOfCore core), s)

/-- `PERF` (R256). -/
def execPerf (h : Hdr) (c : PerfCtr) (f : FmtR) (s : State) : Res :=
  s.gangOp h (fun s i => do
    illegalOperandIf (!sOk f.d)
    let (x, s) := s.readPerf i c
    .ok (s.passWith i (fun g => g.wrS (sIdx f.d) x)))

end Sys2Proof.Machine
end

