-- ==== Sys2Proof/Machine/Fetch.lean ====
section
/-! DEFINITION. Fetch lines (R204 to R209), the checks of a transfer's target (R210, R211, R241), and the issue of one
instruction by one unit (R222 to R224).
Readings of the spec that this file follows: log entries 12 and 32. -/

namespace Sys2Proof.Machine

open Sys2Proof

/-- Slot k of a line read as a 512-bit number (R204). -/
def lineSlot (line k : Nat) : Nat := bits line (96 * k) 96
/-- The line word (R204). -/
def lineWord (line : Nat) : Nat := bits line 480 32
def lineTgt (line k : Nat) : Bool := bitAt (lineWord line) k
def linePair (line : Nat) : Nat := bits (lineWord line) 5 4

/-- The XOR of the low `n` bits of a number (R207). -/
def parity (n v : Nat) : Bool :=
  match n with
  | 0 => false
  | n + 1 => (v % 2 == 1) != parity n (v / 2)

/-- R207: the parity bits of the slots and of the line word. -/
def parityOk (line : Nat) : Bool :=
  let lw := lineWord line
  (List.range 5).all (fun k => parity 96 (lineSlot line k) == bitAt lw (9 + k)) &&
  (parity 14 (bits lw 0 14) != parity 17 (bits lw 15 17)) == bitAt lw 14

/-- The first slots of the pairs of a template (R206); none for a reserved one. -/
def pairsOf : Nat → Option (List Nat)
  | 0 => some []
  | 1 => some [0]
  | 2 => some [1]
  | 3 => some [2]
  | 4 => some [3]
  | 5 => some [0, 2]
  | 6 => some [0, 3]
  | 7 => some [1, 3]
  | _ => none

/-- The s registers that a specifier covers (R206): two for a b128 operand. -/
def sCover (code n : Nat) : List Nat := if code / 256 = 3 then (List.range n).map (· + code % 256) else []

/-- The D registers and all registers that a slot word's operands cover, by its format (R206, R214). -/
def slotS (w : Nat) : List Nat × List Nat :=
  let opc := bits w 0 8
  let d := bits w 18 11
  let a := bits w 29 11
  let b := bits w 40 11
  let c := bits w 51 11
  match opFormat opc with
  | some .m => let n := if bits w 51 4 = 4 then 2 else 1
               (sCover d n, sCover d n ++ sCover a 1 ++ sCover b 1)
  | some .ri => if bitAt w 57 then (sCover d 1, sCover d 1 ++ sCover a 1)
                else (sCover d 1, sCover d 1 ++ sCover a 1 ++ sCover b 1 ++ sCover c 1)
  | _ => (sCover d 1, sCover d 1 ++ sCover a 1 ++ sCover b 1 ++ sCover c 1)

/-- The CCW bit of a slot word of format R or I (R214). -/
def slotCcw (w : Nat) : Bool :=
  match opFormat (bits w 0 8) with
  | some .r => bitAt w 71
  | some .ri => if bitAt w 57 then bitAt w 56 else bitAt w 71
  | _ => false

/-- The opcodes that may stand first in a pair (R206). -/
def pairFirst (opc : Nat) : Bool :=
  (0x20 ≤ opc && opc ≤ 0x2F) || (0x40 ≤ opc && opc ≤ 0x4F) || (0x60 ≤ opc && opc ≤ 0x65) || (0x70 ≤ opc && opc ≤ 0x78) ||
  (0x80 ≤ opc && opc ≤ 0x94 && opc != 0x8A && opc != 0x8B)

/-- Whether two slots may pair (R206). -/
def pairOk (w1 w2 : Nat) : Bool :=
  let o2 := bits w2 0 8
  let (d1, all1) := slotS w1
  let (d2, all2) := slotS w2
  pairFirst (bits w1 0 8) && (0x10 ≤ o2 && o2 ≤ 0x1C) && bits w2 8 2 == 1 &&
  !d1.any all2.contains && !d2.any all1.contains && !(slotCcw w1 && slotCcw w2)

/-- The checks of R208 on a whole line; parity after the refetch of R207, which reads the same bytes (log entry 25). -/
def lineOk (line : Nat) : Bool :=
  bits (lineWord line) 15 17 == 0 && parityOk line &&
  (match pairsOf (linePair line) with
   | none => false
   | some ps => ps.all (fun j => !lineTgt line (j + 1) && pairOk (lineSlot line j) (lineSlot line (j + 1))))

/-- Whether a slot is the second of a pair (R205). -/
def isSecond (line k : Nat) : Bool := match pairsOf (linePair line) with | some ps => ps.any (fun j => j + 1 == k) | none => false

/-- A line read from committed memory through an instruction translation (R209, R102). -/
def State.readLine (s : State) (core ctx addr : Nat) : Except Stop (Nat × PageTr) := do
  let ps ← s.xlatAll (some core) ctx .fetch [{ lane := 0, va := addr, n := 64 }]
  let p := pageOf ps addr
  let loc := p.loc addr
  match s.absentIn [loc] with
  | some a => .error (.absent a)
  | none => if s.reachable loc then .ok (s.commNat loc 64, p) else .error (.retry false)

/-- Check(a) of R241: the address by R210 and R211, the target line by R208, then its TGT bit by R205. -/
def State.checkTarget (s : State) (core ctx : Nat) (a : W64) : Except Stop Unit := do
  trapIf (bits a.toNat 3 3 != 0 || decide (bits a.toNat 0 3 > 4) || bits a.toNat 56 8 != 0) cIllegalBranch a
  let (line, _) ← s.readLine core ctx (lineOf a)
  trapIf (!lineOk line) cIllegalLine (BitVec.ofNat 64 (lineOf a))
  trapIf (!lineTgt line (a.toNat % 8) || isSecond line (a.toNat % 8)) cIllegalBranch a

/-- Disp(d) of R241: the address, or the trap of R211 for a Lin out of range. -/
def dispTarget (pc : W64) (d : Int) : Except Stop W64 :=
  let l : Int := (linOf pc : Int) + d
  if l < 0 || (5 * 2 ^ 50 : Nat) ≤ l then
    .error (.trap cIllegalBranch (if l < 0 then BitVec.ofInt 64 (l.fdiv 5 * 64 + l.fmod 5) else addrOfLin l.toNat) 0)
  else .ok (addrOfLin l.toNat)

/-- A kernel or handler entry (R212): R210, slot 0, and TGT bit 0 of its line. A line that cannot be read now is checked when
it is fetched, and the fetch meets the fault itself (R102). -/
def State.entryOk (s : State) (ctx : Nat) (a : W64) : Bool :=
  bits a.toNat 0 6 == 0 && bits a.toNat 56 8 == 0 &&
  (match s.xlatAll none ctx .fetch [{ lane := 0, va := lineOf a, n := 64 }] with
   | .ok ps => lineTgt (s.commNat ((pageOf ps (lineOf a)).loc (lineOf a)) 64) 0
   | .error _ => true)

/-- The instructions before which every lookahead window of the unit's gang closes (R223). -/
def closesWindow : Instr → Bool
  | .regang _ | .exit _ | .yield _ | .call _ _ | .calli _ _ | .ret _ | .bkpt _ | .trap _ _ | .fence _ _ => true
  | .sget h r _ => r == .flags || h.scp == .set || h.scp == .team
  | .sset _ _ _ => true
  | .xred h _ _ | .xscan h _ _ _ | .shfl h _ _ | .bcast h _ | .xvote h _ _ | .xmov h _ | .setdecl h _ | .mma h _ | .bar h _
  | .gnew h _ | .qdef h _ | .coll h _ _ _ | .smov h _ _ | .sadd h _ | .ssub h _ | .smul h _ _ | .smad h _ | .sdiv h _ | .srem h _
  | .slop h _ _ | .sshf h _ _ | .scmp h _ | .ssel h _ _ | .smin h _ | .smax h _ | .sbit h _ _ | .sfop h _ _ | .mop h _ _ =>
      h.scp == .set || h.scp == .team
  | _ => false

/-- The instructions that read CC (R299), and the write of the whole register, which must come after an earlier DNS. -/
def usesCc : Instr → Bool
  | .bcc _ _ _ | .ssel _ _ _ => true
  | .sget _ r _ | .sset _ r _ => r == .cc
  | _ => false

/-- Whether a slot word's operand fields hold a v or x specifier; an unused field reads as v0. -/
def namesVec (w : Nat) : Bool :=
  (opFormat (bits w 0 8)).isSome && [18, 29, 40, 51].any (fun p => bits w p 11 / 256 == 0 || bits w p 11 / 256 == 4)

/-- Whether an incomplete `TADD` or `TRND` of a gang is to write CC.DNS. -/
def Team.ccBusy (t : Team) (gang : Nat) : Bool :=
  t.mops.any (fun q => (match q.2.instr with | .tadd _ _ | .trnd _ _ _ => true | _ => false) && q.2.gangs.any (fun p => p.1 == gang))

/-- Whether an incomplete `TMV` of a gang is to write a v register. -/
def Team.vecBusy (t : Team) (gang : Nat) : Bool :=
  t.mops.any (fun q => (match q.2.instr with | .tmv _ _ => true | _ => false) && q.2.gangs.any (fun p => p.1 == gang))

/-- The stalls of R299 on CC and on the destination of `TMV`; the second one covers every instruction that names a v or x
register (log entry 42). -/
def Issuer.matrixStall (i : Issuer) (w : Nat) (ins : Instr) : Bool :=
  (usesCc ins && i.tm.ccBusy i.unit.gang) || (namesVec w && i.tm.vecBusy i.unit.gang)

/-- Whether a unit is about to issue the first instruction of its kernel or of its handler. -/
def Issuer.atEntry (i : Issuer) : Bool := if i.g.handler then i.pc == i.tm.trapvec else i.g.gissue == 0

/-- The instruction a unit is about to issue, by the order of R224: its line, then its own word. -/
def State.fetch (s : State) (i : Issuer) : Except Stop (Instr × PageTr) := do
  let (line, p) ← s.readLine i.tm.core i.tm.ctx (lineOf i.pc)
  trapIf (!lineOk line) cIllegalLine (BitVec.ofNat 64 (lineOf i.pc))
  if i.atEntry && !lineTgt line 0 then .error .entry
  else match decodeSlot (lineSlot line (i.pc.toNat % 8)) with
  | none => .error (.trap cIllegalInstruction 0 0)
  | some ins => if i.matrixStall (lineSlot line (i.pc.toNat % 8)) ins then .error (.retry false) else .ok (ins, p)

/-- The order of accesses at the issue of an instruction (R109): it, or the unit's instruction before it, is an ordering event,
or the unit issues for the first time. -/
def Order.issue (o : Order) (agents : List Nat) (k : OrderKind) (live : Nat → Bool) : Order :=
  let o := if k = .all then o.performAll else o
  let o := if k ≠ .plain || agents.any (fun a => (Tab.find? o.since a).isNone || (Tab.find? o.after a).isSome) then o.event agents live else o
  { o with after := agents.foldl (fun t a => if k = .plain then Tab.del t a else Tab.put t a ()) o.after }

/-- The state in which the fetched instruction is performed: its translation is in the TLB, uncorrectable words of its line are
counted (R425), results that are due have been written, and so have those of the windows that the instruction closes (R222,
R223); and the order of accesses stands as at its issue (R109). -/
def State.prepare (s : State) (i : Issuer) (ins : Instr) (p : PageTr) : State :=
  let t := ((s.fillTlb i.tm.core p).noteRead ((List.range 64).map (· + p.loc (lineOf i.pc)))).modGang i.unit.team i.unit.gang (fun g => if closesWindow ins then g.landOf i.slices else g.landDue i.slices)
  { t with order := t.order.issue i.agents (orderKind ins) (fun a => (s.team? (a / 2048)).isSome) }

end Sys2Proof.Machine
end

