-- ==== Sys2Proof/Machine/TriggerOps.lean ====
section
/-! DEFINITION. Launch records and launch queues (R388 to R395), and the trigger units: ownership, counters, predicates and
firing (R168 to R170, R343 to R346, R409, R411).
Readings of the spec that this file follows: log entry 38. -/

namespace Sys2Proof.Machine

open Sys2Proof

-- launch records

/-- A launch record from its 64 bytes (R388). -/
def recOf (bs : List Byte) : LaunchRec :=
  let f := fun k => BitVec.ofNat 64 (leNat ((bs.drop (8 * k)).take 8))
  { code := f 0, frame := f 1, join := f 2, trapvec := f 3, dims := f 4, shape := f 5, setptr := f 6, attr := f 7 }

/-- The 64 bytes of a launch record (R388). -/
def recBytes (r : LaunchRec) : List Byte :=
  [r.code, r.frame, r.join, r.trapvec, r.dims, r.shape, r.setptr, r.attr].flatMap (fun x => leBytes 8 x.toNat)

/-- The fields of the attribute word (R389). -/
def recPrio (r : LaunchRec) : Nat := bits r.attr.toNat 0 3
def recCohort (r : LaunchRec) : Bool := bitAt r.attr.toNat 3
def recMode (r : LaunchRec) : Nat := bits r.attr.toNat 4 2
def recOver (r : LaunchRec) : Nat := bits r.attr.toNat 6 2
def recNocheck (r : LaunchRec) : Bool := bitAt r.attr.toNat 8
def recSerial (r : LaunchRec) : Bool := bitAt r.attr.toNat 9
def recRetry (r : LaunchRec) : Nat := bits r.attr.toNat 12 4
def recRetryDef (r : LaunchRec) : Bool := bitAt r.attr.toNat 16
def recNsets (r : LaunchRec) : Nat := bits r.attr.toNat 17 4
def recType (r : LaunchRec) : Nat := bits r.attr.toNat 21 3
def recSeg (r : LaunchRec) : Nat := bits r.attr.toNat 24 4
def recGx (r : LaunchRec) : Nat := bits r.dims.toNat 0 32
def recGy (r : LaunchRec) : Nat := bits r.dims.toNat 32 16
def recGz (r : LaunchRec) : Nat := bits r.dims.toNat 48 16
def recTeams (r : LaunchRec) : Nat := recGx r * recGy r * recGz r
def recGangs (r : LaunchRec) : Nat := bits r.shape.toNat 0 5 + 1
def recRegs (r : LaunchRec) : Nat := bits r.shape.toNat 5 6 * 8
def recSpad (r : LaunchRec) : Nat := bits r.shape.toNat 11 13 * 256
def recStk (r : LaunchRec) : Nat := bits r.shape.toNat 24 16 * 64

-- launch queues (R393 to R395)

def LQueue.size (q : LQueue) : Nat := 2 ^ bits q.qcfg.toNat 0 5
def LQueue.en (q : LQueue) : Bool := bitAt q.qcfg.toNat 5
/-- Whether the command processor fetches from a queue (R393 to R395). -/
def LQueue.fetches (q : LQueue) : Bool :=
  q.en && !q.ovr && !q.cstop && decide (q.qwp - q.qrp ≤ q.size) && decide (4 ≤ bits q.qcfg.toNat 0 5) && decide (bits q.qcfg.toNat 0 5 ≤ 20)
/-- The address of the slot of a record count (R394). -/
def LQueue.slotAt (q : LQueue) (n : Nat) : Nat := q.qbase.toNat + 64 * (n % q.size)

/-- The command processor reads the slot at QRP and fetches the record when its SEQ is there, again and again up to a
number of records; else WAIT (R394). A read that has to wait is made again later (log entry 27). -/
def State.pollQueue (s : State) (ctx q fuel : Nat) : State :=
  match fuel with
  | 0 => s
  | f + 1 =>
    let x := s.queue ctx q
    if !x.fetches then s
    else
      match (s.readOutside ctx (x.slotAt x.qrp) 64).map recOf with
      | .error e => if e.waits then s else s.modQueue ctx q (fun x => { x with wait := true })
      | .ok r =>
        let s := s.noteOutside ctx (x.slotAt x.qrp) 64
        if recSeq r != x.qrp % 2 ^ 32 then s.modQueue ctx q (fun x => { x with wait := true })
        else
          let s := s.modQueue ctx q (fun x => { x with qrp := x.qrp + 1, wait := false })
          (s.modCtx ctx (fun c => { c with ready := c.ready ++ [{ queue := q, ord := x.qrp, lrec := r }] })).pollQueue ctx q f

/-- A whole look at a queue: at most one ring of records. -/
def State.lookQueue (s : State) (ctx q : Nat) : State := s.pollQueue ctx q (s.queue ctx q).size

/-- A reservation (R394, R395): the old QWP; one that exceeds the ring overruns the queue; then the slot at QRP is read. -/
def State.reserveSlot (s : State) (ctx q : Nat) : Nat × State :=
  let x := s.queue ctx q
  let full := decide (x.size < x.qwp + 1 - x.qrp)
  let s := s.modQueue ctx q (fun x => { x with qwp := x.qwp + 1, ovr := x.ovr || full })
  let s := if full then s.raiseIstat ctx istatOvr else s
  (x.qwp, s.lookQueue ctx q)

/-- A record written into its reserved slot of a launch queue, and the queue looked at (R394): none while the write waits. A slot
that the queue has passed meanwhile, or that it must not be written, is left alone (R395). -/
def State.writeSlot (s : State) (ctx q w : Nat) (bytes : List Byte) : Option State :=
  let x := s.queue ctx q
  if w < x.qrp || decide (x.size ≤ w - x.qrp) then some s
  else match s.writeOutside ctx (x.slotAt w) bytes with
    | .ok t => some (t.lookQueue ctx q)
    | .error e => if e.waits then none else some s

/-- The four steps of R394 by the trigger unit, on the record at an address: none while the record's page drains or is not
resident (R103, R170, R406); a record that cannot be read is not enqueued. A slot whose page takes no write yet is written
later. -/
def State.enqueueFrom (s : State) (ctx q src : Nat) : Option State :=
  match s.readOutside ctx src 64 with
  | .error e => if e.waits then none else some s
  | .ok bs =>
    let (w, s) := (s.noteOutside ctx src 64).reserveSlot ctx q
    let bytes := bs.take 60 ++ leBytes 4 (w % 2 ^ 32)
    some ((s.writeSlot ctx q w bytes).getD (s.post ctx (.slot q w bytes)))

-- trigger units

/-- The keys of a slot and of a counter of a wing. -/
def slotKey (wing k : Nat) : Nat := wing * 256 + k
def ctrKey (wing k : Nat) : Nat := wing * 1024 + k

/-- Whether an ownership register assigns to a context (R409). -/
def ownedBy (x : W64) (ctx : Nat) : Bool := bitAt x.toNat 8 && bits x.toNat 0 8 == ctx
def State.ownsSlot (s : State) (ctx wing k : Nat) : Bool := ownedBy (Tab.get s.trig.trgown 0 (slotKey wing k)) ctx
def State.ownsCtr (s : State) (ctx wing k : Nat) : Bool := ownedBy (Tab.get s.trig.ctrown 0 (ctrKey wing k)) ctx

def State.ctrVal (s : State) (key : Nat) : W32 := Tab.get s.trig.counters 0 key

/-- A slot's predicate (R168, R343): leaf j, the four lower nodes, nodes 4 and 5, and the root. -/
def State.predicate (s : State) (wing : Nat) (t : Trigger) : Bool :=
  let leaf := fun j => match t.leaves.getD j none with
    | none => true
    | some (c, thr) => decide (thr ≤ (s.ctrVal (ctrKey wing c)).toNat)
  let node := fun (j : Nat) (a b : Bool) => if bitAt t.nodeop j then a || b else a && b
  let n := fun j => node j (leaf (2 * j)) (leaf (2 * j + 1))
  node 6 (node 4 (n 0) (n 1)) (node 5 (n 2) (n 3))

/-- A slot fires (R169, R170, R345): it is disarmed; a launch is enqueued at once, a copy or an `XPUT` joins the context's
pending actions. -/
def State.fireSlot (s : State) (key : Nat) : State :=
  match Tab.find? s.trig.slots key with
  | none => s
  | some t =>
    let s := { s with trig := { s.trig with slots := Tab.del s.trig.slots key } }
    if t.act = 0 then (s.enqueueFrom t.ctx t.queue t.src.toNat).getD (s.post t.ctx (.enqueue t.queue t.src.toNat))
    else s.modCtx t.ctx (fun c => { c with actions := c.actions ++ [t] })

/-- The armed slots of a wing whose predicate is true fire, in ascending number; nothing fires on a wing that is not online
(R168, R169, R411). `only` limits the slots to those that name a counter. -/
def State.evaluate (s : State) (wing : Nat) (only : Option Nat) : State :=
  if (s.wing wing).state != .online then s
  else
    let due := s.trig.slots.filter (fun p => decide (p.1 / 256 = wing) &&
      (match only with
       | none => true
       | some c => p.2.leaves.any (fun l => match l with | some (k, _) => k == c | none => false)) && s.predicate wing p.2)
    (due.map (·.1)).foldl (fun s k => s.fireSlot k) s

/-- A counter update by amount or by value (R168, R346, R409): saturating, ignored by an unassigned counter, queued at a
wing that is not online (R411); the slots that name the counter are then evaluated. -/
def State.updateCtr (s : State) (wing k : Nat) (set : Bool) (n : Nat) : State :=
  if !bitAt (Tab.get s.trig.ctrown 0 (ctrKey wing k)).toNat 8 then s
  else if (s.wing wing).state != .online then s.modWing wing (fun w => { w with queued := w.queued ++ [(k, set, n)] })
  else
    let key := ctrKey wing k
    let v := if set then n else min ((s.ctrVal key).toNat + n) (2 ^ 32 - 1)
    let s := { s with trig := { s.trig with counters := Tab.set s.trig.counters 0 key (BitVec.ofNat 32 v) } }
    s.evaluate wing (some k)

/-- The counter that an engine operation or action named is incremented at its completion (R168, R289). -/
def State.countDone (s : State) (c : Option Nat) : State :=
  match c with | none => s | some key => s.updateCtr (key / 1024) (key % 1024) false 1

-- what waits for a page

/-- Something that waited for a page is done (R103, R170, R392, R394, R406): none while it still has to wait. END follows the
completion word, and a counter the status word (R345, R400). -/
def State.doPost (s : State) (ctx : Nat) (p : Post) : Option State :=
  match p with
  | .word a val intr ctr => (s.putWord ctx a val).map (fun t => (if intr then t.raiseIstat ctx istatEnd else t).countDone ctr)
  | .enqueue q src => s.enqueueFrom ctx q src
  | .slot q w bytes => s.writeSlot ctx q w bytes

end Sys2Proof.Machine
end

