-- ==== Sys2Proof/Machine/Records.lean ====
section
/-! DEFINITION. What the dispatcher finds in a launch record: the checks of R390 with the set table of R391 (R37, R42, R276),
the launch-default mode (R389, R422), and the record types CKPT and RECOMPUTE (R397, R398).
Readings of the spec that this file follows: log entry 32. -/

namespace Sys2Proof.Machine

open Sys2Proof

-- launch-default mode (R389, R421, R422)

/-- Whether a record asks for isolated-task mode. -/
def State.recIt (s : State) (r : LaunchRec) : Bool :=
  match recMode r with
  | 0 => false
  | 1 => true
  | _ => bitAt s.fleet.mode.toNat 7

/-- Whether a record asks for the overflow policy IRREVOCABLE. -/
def State.recOverIrrev (s : State) (r : LaunchRec) : Bool :=
  match recOver r with
  | 0 => false
  | 1 => true
  | _ => bitAt s.fleet.mode.toNat 8

/-- The retry limit (R177). -/
def State.recLimit (s : State) (r : LaunchRec) : Nat := if recRetryDef r then bits s.fleet.mode.toNat 9 4 else recRetry r

-- the set table (R391, R276)

/-- The sets that the entries of a set table declare, or none where the table breaks R391 or R276. -/
def setsOf (gangs regs : Nat) (l : List Nat) (seen : List Nat) (acc : List SetDecl) : Option (List SetDecl) :=
  match l with
  | [] => some acc
  | x :: r =>
    let mask := bits x 0 32
    let base := bits x 32 8
    let k := bits x 40 3
    if bits x 43 21 != 0 || decide (2 ^ gangs ≤ mask) || decide (regs ≤ base) || seen.contains k then none
    else setsOf gangs regs r (k :: seen) (acc.set k (if mask = 0 then {} else { mask := mask, base := base }))

/-- No set declared. -/
def noSets : List SetDecl := List.replicate 8 {}

/-- Whether the read of a record's set table has to wait: its page drains, is not resident, or lies on a wing that is not online
(R103, R406, R411). -/
def State.setsWait (s : State) (ctx : Nat) (r : LaunchRec) : Bool :=
  let n := recNsets r
  n != 0 && decide (n ≤ 8) && r.setptr != 0 && r.setptr.toNat % 8 == 0 &&
  (match s.readOutside ctx r.setptr.toNat (8 * n) with | .error x => s.waitsFor ctx x | .ok _ => false)

/-- The set table of a record, read from committed memory (R391); none where it breaks R391 or cannot be read. -/
def State.recSets (s : State) (ctx : Nat) (r : LaunchRec) : Option (List SetDecl) :=
  let n := recNsets r
  if n = 0 then some noSets
  else if r.setptr = 0 || r.setptr.toNat % 8 != 0 then none
  else match s.readOutside ctx r.setptr.toNat (8 * n) with
    | .error _ => none
    | .ok bs => setsOf (recGangs r) (recRegs r) ((List.range n).map (fun k => leNat ((bs.drop (8 * k)).take 8))) [] noSets

/-- The read of a record's set table, noted (R425). -/
def State.noteSets (s : State) (ctx : Nat) (r : LaunchRec) : State :=
  if recNsets r = 0 then s else s.noteOutside ctx r.setptr.toNat (8 * recNsets r)

-- admission (R37, R42, R390)

/-- The most teams of a record's shape that one empty core can hold (R37). -/
def teamsPerCore (r : LaunchRec) : Nat :=
  min (192 / recGangs r) (min (8192 / max (recGangs r * recRegs r) 1) (if recSpad r = 0 then 192 else 1572864 / recSpad r))

/-- The wings that are online. -/
def State.onlineWings (s : State) : Nat := (s.wings.filter (fun w => w.state == .online)).length

/-- Whether no core can ever hold a team of a record, or no online device its COHORT grid (R37, R42). -/
def State.neverFits (s : State) (r : LaunchRec) : Bool :=
  decide (1572864 < recSpad r) || decide (8192 < recGangs r * recRegs r) ||
  (recCohort r && decide (s.onlineWings * 160 * teamsPerCore r < recTeams r))

/-- Whether a field of a record breaks R390: `child` leaves out the fields that R349 ignores. -/
def badAttr (r : LaunchRec) (child : Bool) : Bool :=
  recType r != 0 || (!child && (recMode r == 3 || recOver r == 3)) || decide (recRegs r < 32) || decide (256 < recRegs r) ||
  decide (8 < recNsets r) || bits r.shape.toNat 40 24 != 0 || bits r.attr.toNat 28 4 != 0

/-- What the dispatcher finds in a record. -/
inductive RecCheck where
  | ok (sets : List SetDecl)
  /-- rejected with this status -/
  | reject (status : Byte)
  /-- an entry address that fails R212: a context error -/
  | badEntry
  deriving DecidableEq, Repr

/-- The checks of R390 in their order, then those of R212. A child CKPT or RECOMPUTE record is rejected for its TYPE (R349). -/
def State.checkRec (s : State) (ctx : Nat) (r : LaunchRec) (child : Bool) : RecCheck :=
  if child && (recType r == 1 || recType r == 2) then .reject stAttr
  else if recTeams r = 0 || decide (2 ^ 32 < recTeams r) then .reject stShape
  else if s.neverFits r then .reject stResource
  else if badAttr r child then .reject stAttr
  else match s.recSets ctx r with
    | none => .reject stAttr
    | some sets =>
      if !child && s.recIt r && s.recOverIrrev r then .reject stAttr
      else if s.entryOk ctx r.code && (r.trapvec = 0 || s.entryOk ctx r.trapvec) then .ok sets
      else .badEntry

-- the order of dispatch (R40, R178, R396)

/-- The first record of a queue among those fetched (R40, R177). -/
def Ctx.headRec (c : Ctx) (q : Nat) : Option ReadyRec :=
  (c.ready.filter (fun r => r.queue == q)).foldl (fun best r =>
    match best with
    | some b => if r.ord < b.ord then some r else some b
    | none => some r) none

/-- The launches that count toward the 64 of R178: those that keep a signature. -/
def State.trackedLaunches (s : State) (ctx : Nat) : Nat := (s.launches.filter (fun p => p.2.ctx == ctx && p.2.tracked)).length

/-- Whether the launch of a record will keep a signature (R176, R178, R179). -/
def State.willTrack (s : State) (r : LaunchRec) : Bool := !recNocheck r && !s.recIt r

/-- Whether the dispatcher may take a record: it is the first of its queue, its queue has not stopped, a SERIAL record
finds every earlier one ended, and a launch record finds room among the tracked launches, if it will be one, and can read its set
table (R178, R391, R396). -/
def State.takeable (s : State) (ctx : Nat) (r : ReadyRec) : Bool :=
  (s.ctx ctx).headRec r.queue == some r && !(s.queue ctx r.queue).cstop &&
  (!recSerial r.lrec || s.earlierEnded ctx r.queue r.ord) &&
  (recType r.lrec == 1 || (recType r.lrec == 2 && (Tab.find? (s.ctx ctx).replays r.queue).isNone) ||
    (recType r.lrec != 1 && recType r.lrec != 2 && (!s.willTrack r.lrec || decide (s.trackedLaunches ctx < 64)) && !s.setsWait ctx r.lrec))

/-- How far a queue stands behind the one whose turn it is (R40). -/
def Ctx.distance (c : Ctx) (q : Nat) : Nat := (q + 64 - c.turn) % 64

/-- The record that the dispatcher takes next: of those that may be taken the one of the highest priority, and among equal ones the
one whose queue's turn comes first (R40). -/
def State.mayTake (s : State) (ctx idx : Nat) : Option ReadyRec :=
  let c := s.ctx ctx
  match c.ready[idx]? with
  | none => none
  | some r =>
    if c.resident && s.boot.state == 3 && !s.fleet.halt && s.takeable ctx r &&
        c.ready.all (fun x => !s.takeable ctx x || decide (recPrio x.lrec < recPrio r.lrec) ||
          (recPrio x.lrec == recPrio r.lrec && decide (c.distance r.queue ≤ c.distance x.queue))) then some r
    else none

/-- The record leaves the list of fetched records, and the turn goes to the next queue (R40); a SERIAL record that finds an earlier
one ended without committing stays there, and its queue stops (R396). -/
def State.takeRec (s : State) (ctx : Nat) (r : ReadyRec) : State × Bool :=
  if recSerial r.lrec && (s.queue ctx r.queue).bad.any (fun n => decide (n < r.ord)) then
    ((s.modQueue ctx r.queue (fun q => { q with cstop := true })).raiseIstat ctx istatCstop, false)
  else (s.modCtx ctx (fun c => { c with ready := c.ready.filter (fun x => x != r), turn := (r.queue + 1) % 64 }), true)

-- version tags (R171)

/-- The next tag after `n`, passing over 0 and over the tags in use. -/
def nextTag (used : List Nat) (fuel n : Nat) : Nat :=
  match fuel with
  | 0 => n
  | f + 1 =>
    let t := (n + 1) % 65536
    if t = 0 || used.contains t then nextTag used f t else t

/-- A new tag of a context. -/
def State.newTag (s : State) (ctx : Nat) : Nat × State :=
  let used := (s.launches.filter (fun p => p.2.ctx == ctx)).map (fun p => p.2.tag)
  let t := nextTag used (used.length + 2) (s.ctx ctx).tagCtr
  (t, s.modCtx ctx (fun c => { c with tagCtr := t }))

end Sys2Proof.Machine
end

