-- ==== Sys2Proof/Machine/Dispatching.lean ====
section
/-! DEFINITION. The events of the dispatchers: taking a launch, CKPT or RECOMPUTE record (R171, R390, R396 to R398), placing a
team (R20, R36, R40 to R42, R404), and a team retiring (R39, R202).
Readings of the spec that this file follows: log entry 32. -/

namespace Sys2Proof.Machine

open Sys2Proof

-- taking a record

/-- A launch started from a record (R171, R172, R176, R179). -/
def State.startLaunch (s : State) (ctx : Nat) (r : ReadyRec) (lrec : LaunchRec) (sets : List SetDecl) (replay : Option Nat) : Nat × State :=
  let (tag, s) := s.newTag ctx
  let (id, s) := s.fresh
  let L : Launch :=
    { ctx := ctx, queue := r.queue, ord := r.ord, lrec := lrec, disp := id, tag := tag, attempt := r.attempt,
      it := s.recIt lrec, overIrr := s.recOverIrrev lrec, nocheck := recNocheck lrec, retry := s.recLimit lrec,
      grids := [(0, { lrec := lrec, sets := sets, total := recTeams lrec })], replay := replay, setTable := sets }
  (id, { s with launches := Tab.put s.launches id L })

/-- `DISPATCH` (R171, R390, R396): the dispatcher takes a launch record. -/
def execDispatch (ctx idx : Nat) (s : State) : Res :=
  match s.mayTake ctx idx with
  | none => .refused .notEnabled
  | some r =>
    if recType r.lrec = 1 || recType r.lrec = 2 then .refused .notEnabled
    else
      let (s, taken) := s.takeRec ctx r
      if !taken then .next s
      else
        let n0 := s.nextId
        match s.checkRec ctx r.lrec false with
        | .reject st => .next (((s.newTag ctx).2.endRecord ctx r.queue r.ord r.lrec st 0 r.attempt).inQueueOrder ctx n0)
        | .badEntry => .next (((s.newTag ctx).2.endRecord ctx r.queue r.ord r.lrec stContext 0 r.attempt).inQueueOrder ctx n0)
        | .ok sets => .next ((s.noteSets ctx r.lrec).startLaunch ctx r r.lrec sets none).2

-- CKPT and RECOMPUTE (R397, R398)

/-- `CKPT` (R397): the queue's open segment closes; a segment is opened empty. -/
def execCkpt (ctx idx : Nat) (s : State) : Res :=
  match s.mayTake ctx idx with
  | none => .refused .notEnabled
  | some r =>
    if recType r.lrec != 1 then .refused .notEnabled
    else
      let (s, taken) := s.takeRec ctx r
      if !taken then .next s
      else
        let x := r.lrec
        if x.code != 0 || x.frame != 0 || x.trapvec != 0 || x.dims != 0 || x.shape != 0 || x.setptr != 0 || bits x.attr.toNat 28 4 != 0 then
          .next (s.endRecord ctx r.queue r.ord x stAttr 0 r.attempt)
        else
          let k := recSeg x
          let s := s.modCtx ctx (fun c =>
            if k = 15 then { c with openSeg := Tab.del c.openSeg r.queue }
            else { c with openSeg := Tab.put c.openSeg r.queue k, segs := Tab.put c.segs k {} })
          .next (s.endRecord ctx r.queue r.ord x stCommitted 0 r.attempt)

/-- Whether a RECOMPUTE record is well formed (R398). -/
def Ctx.recomputeOk (c : Ctx) (x : LaunchRec) : Bool :=
  let lo := x.code.toNat
  let hi := x.frame.toNat
  let sc := x.trapvec.toNat
  lo % 128 == 0 && hi % 128 == 0 && sc % 128 == 0 && decide (lo + 128 ≤ hi) && decide (hi ≤ lo + 2 ^ 32) &&
  !overlaps sc (hi - lo) lo (hi - lo) && x.dims == 0 && x.shape == 0 && x.setptr == 0 && bits x.attr.toNat 28 4 == 0 &&
  (match Tab.find? c.segs (recSeg x) with | some g => g.complete && recSeg x != 15 | none => false)

/-- `RECOMPUTE` (R398): a replay of a segment begins. -/
def execRecompute (ctx idx : Nat) (s : State) : Res :=
  match s.mayTake ctx idx with
  | none => .refused .notEnabled
  | some r =>
    if recType r.lrec != 2 then .refused .notEnabled
    else
      let (s, taken) := s.takeRec ctx r
      if !taken then .next s
      else
        let x := r.lrec
        if !(s.ctx ctx).recomputeOk x then .next (s.endRecord ctx r.queue r.ord x stAttr 0 r.attempt)
        else
          let recs := ((Tab.find? (s.ctx ctx).segs (recSeg x)).map (·.recs)).getD []
          let p : Replay := { rr := r, lo := x.code.toNat, hi := x.frame.toNat, scratch := x.trapvec.toNat, todo := recs,
                              mem0 := s.mem, remote0 := s.remote }
          .next ((s.modCtx ctx (fun c => { c with replays := Tab.put c.replays r.queue p })).stampReady ctx r.queue)

-- placing teams (R36, R40 to R42, R404)

/-- The teams on a core. -/
def State.onCore (s : State) (core : Nat) : List Team := (s.teams.map (·.2)).filter (fun t => t.core == core && t.status == .running)

/-- Whether a core receives teams: its wing is online, and it is not excluded (R41, R411, R412). -/
def State.coreOpen (s : State) (core : Nat) : Bool :=
  let c := s.core core
  decide (core < 640) && (s.wing (wingOfCore core)).state == .online && !c.dis && !c.hot && !c.droop && !c.droopHold

/-- Whether a core has room for a team of so many gangs, registers per lane, scratchpad bytes and held slots (R36, R37). -/
def State.coreRoom (s : State) (core gangs nregs spad slots : Nat) : Bool :=
  let ts := s.onCore core
  let sum := fun (f : Team → Nat) => (ts.map f).foldl (· + ·) 0
  s.coreOpen core && decide (sum (fun t => t.gangs.length) + gangs ≤ 192) &&
  decide (sum (fun t => t.gangs.length * t.nregs) + gangs * nregs ≤ 8192) && decide (sum (fun t => t.spadSize) + spad ≤ 1572864) &&
  decide (sum (fun t => t.slots.length) + slots ≤ 192)

/-- The 64 KiB units of the cellar that the gangs of a team draw (R404). -/
def cellarUnits (gangs stk : Nat) : Nat := gangs * ((32 * stk + 65535) / 65536)

/-- The units that the teams of a context hold. -/
def State.cellarUsed (s : State) (ctx : Nat) : Nat :=
  (s.teams.map (fun p => if p.2.ctx = ctx then cellarUnits p.2.gangs.length (recStk (s.gridRec p.2)) else 0)).foldl (· + ·) 0

/-- Whether the cellar of a context has room for one more team of a record (R404). -/
def State.cellarRoom (s : State) (ctx : Nat) (r : LaunchRec) : Bool :=
  decide ((s.cellarUsed ctx + cellarUnits (recGangs r) (recStk r)) * 65536 ≤ (s.ctx ctx).cellsz)

/-- A team at its first instruction (R20). -/
def newTeam (launch grid : Nat) (L : Launch) (g : Grid) (core : Nat) (places : List Nat) (prdl : Nat) : Team :=
  let r := g.lrec
  { launch := launch, ctx := L.ctx, grid := grid, index := g.placed, core := core, places := places, nregs := recRegs r, spadSize := recSpad r,
    trapvec := r.trapvec, cohort := recCohort r, sets := g.sets, prdl := prdl,
    gangs := List.replicate (recGangs r)
      { slices := List.replicate 8 { pc := r.code }, s := Tab.set [] 0 0 r.frame, stklim := BitVec.ofNat 64 (recStk r) } }

/-- The next team of a grid placed on a core (R20, R40), which then reads nothing stale in L1. -/
def State.placeTeam (s : State) (launch grid core : Nat) : State :=
  match s.launch? launch with
  | none => s
  | some L =>
    match Tab.find? L.grids grid with
    | none => s
    | some g =>
      let (id, s) := s.fresh
      let (places, s) := s.pickPlaces core (recGangs g.lrec)
      let t := newTeam launch grid L g core places (s.ctx L.ctx).prdl
      (({ s with teams := Tab.put s.teams id t }).modLaunch launch (fun L =>
        { L with grids := Tab.modify L.grids grid (fun g => { g with placed := g.placed + 1 }) })).dropL1 core

/-- Whether a team of a grid fits on a core now. -/
def State.fits (s : State) (ctx : Nat) (r : LaunchRec) (core : Nat) : Bool :=
  s.coreRoom core (recGangs r) (recRegs r) (recSpad r) 0 && s.cellarRoom ctx r

/-- The cores in ascending order, from one of them around. -/
@[irreducible] def coresFrom (core : Nat) : List Nat := (List.range 640).map (fun k => (core + k) % 640)

/-- Several teams of a grid placed, each on the first core from `core` on that has room; none where one does not fit. Which cores the
further teams of a COHORT grid get, at placement and at restoration, the spec leaves open (R36, R40); this order is the model's
choice (log entry 32). -/
def State.placeAll (s : State) (launch grid ctx core : Nat) (r : LaunchRec) (n : Nat) : Option State :=
  match n with
  | 0 => some s
  | n + 1 =>
    match (coresFrom core).find? (fun k => s.fits ctx r k) with
    | none => none
    | some k => (s.placeTeam launch grid k).placeAll launch grid ctx core r n

/-- The rank of a grid in the order of placement: priority, then child grids before top-level ones (R40, R349). -/
def placeRank (n : Nat) (g : Grid) : Nat := 2 * recPrio g.lrec + (if n = 0 then 0 else 1)

/-- Whether a grid that has not begun waits for a COHORT grid before it, of no lower rank, that is still to be placed (R40). Grids
stand in the order in which their launches were dispatched, and within a launch in the order of `LAUNCH`. -/
def State.heldBack (s : State) (launch grid : Nat) : Bool :=
  match s.launch? launch with
  | none => false
  | some L =>
    match Tab.find? L.grids grid with
    | none => false
    | some g => g.placed == 0 && s.launches.any (fun p => p.2.ctx == L.ctx && p.2.grids.any (fun q =>
        recCohort q.2.lrec && decide (q.2.placed < q.2.total) && !q.2.done && decide (placeRank grid g ≤ placeRank q.1 q.2) &&
        (decide (p.2.disp < L.disp) || (p.1 == launch && decide (q.1 < grid)))))

/-- What placing the next team of a grid on a core gives (R40, R42): for a COHORT grid all of its teams at once, the first
on that core. -/
def State.tryPlace (s : State) (launch grid core : Nat) : Option State :=
  match s.launch? launch with
  | none => none
  | some L =>
    match Tab.find? L.grids grid with
    | none => none
    | some g =>
      if L.held || s.fleet.halt || (s.ctx L.ctx).saving || g.done || g.total ≤ g.placed || s.heldBack launch grid || !s.fits L.ctx g.lrec core then none
      else if recCohort g.lrec then s.placeAll launch grid L.ctx core g.lrec g.total
      else some (s.placeTeam launch grid core)

/-- The grids of a context that have teams to place: launch, grid and rank. -/
def State.waiting (s : State) (ctx : Nat) : List (Nat × Nat × Nat) :=
  s.launches.flatMap (fun p => if p.2.ctx = ctx then
    p.2.grids.filterMap (fun q => if q.2.placed < q.2.total && !q.2.done then some (p.1, q.1, placeRank q.1 q.2) else none) else [])

/-- Whether some core takes the next team of a grid. -/
def State.placeable (s : State) (launch grid : Nat) : Bool := (List.range 640).any (fun k => (s.tryPlace launch grid k).isSome)

/-- Whether a grid of higher rank of the same context could be placed instead. -/
def State.outranked (s : State) (launch grid : Nat) : Bool :=
  match s.launch? launch with
  | none => false
  | some L =>
    match Tab.find? L.grids grid with
    | none => false
    | some g => (s.waiting L.ctx).any (fun (l, n, k) => decide (placeRank grid g < k) && s.placeable l n)

/-- `TEAM_PLACE` (R20, R36, R40 to R42, R404). -/
def execTeamPlace (launch grid core : Nat) (s : State) : Res :=
  match s.tryPlace launch grid core with
  | none => .refused .notEnabled
  | some t => if s.outranked launch grid then .refused .notEnabled else .next t

-- a team retires

/-- Whether a team has nothing left to do (R202). -/
def State.canRetire (s : State) (id : Nat) (t : Team) : Bool :=
  t.status == .running && t.liveGangs.isEmpty && t.ops.isEmpty && t.mops.isEmpty && !s.colls.any (fun p => p.2.team == id)

/-- `TEAM_RETIRE` (R39, R131, R181, R202). -/
def execTeamRetire (team : Nat) (s : State) : Res :=
  match s.team? team with
  | none => .refused .notEnabled
  | some t =>
    if !s.canRetire team t then .refused .notEnabled
    else
      let s := s.modLaunch t.launch (fun L => { L with grids := Tab.modify L.grids t.grid (fun g =>
        { g with retired := g.retired + 1, wsets := (if L.it then Tab.put g.wsets t.index t.ws else g.wsets) }) })
      .next ((s.removeTeams t.ctx [team] (fun _ => false)).checkGrid t.launch 14 t.grid)

end Sys2Proof.Machine
end

