-- ==== Sys2Proof/Machine/EngineOps.lean ====
section
/-! DEFINITION. What engine operations share: abars (R150 to R154), the issue checks of R289, pending granules (R94), and
how one segment lands (R103, R153, R158 to R162, R341, R342). -/

namespace Sys2Proof.Machine

open Sys2Proof

-- abars (R150 to R154)

/-- The fields of an abar object (R150). -/
structure Abar where
  expb  : Nat
  arrv  : Nat
  inita : Nat
  phase : Nat
  erro  : Byte
  errl  : Byte
  live  : Bool
  deriving DecidableEq, Repr

def Team.abar (t : Team) (a : Nat) : Abar :=
  let x := t.spadNat a 16
  { expb := bits x 0 32, arrv := bits x 32 16, inita := bits x 48 16, phase := bits x 64 32,
    erro := BitVec.ofNat 8 (bits x 96 8), errl := BitVec.ofNat 8 (bits x 104 8), live := bitAt x 127 }

def Abar.toNat (b : Abar) : Nat :=
  b.expb + b.arrv * 2 ^ 32 + b.inita * 2 ^ 48 + b.phase * 2 ^ 64 + b.erro.toNat * 2 ^ 96 + b.errl.toNat * 2 ^ 104 +
    (if b.live then 2 ^ 127 else 0)

def Team.setAbar (t : Team) (a : Nat) (b : Abar) : Team := t.setSpad a (leBytes 16 b.toNat)

/-- The bits of an error byte (R151). -/
def errFault : Byte := 1
def errPoison : Byte := 2
def errTimeout : Byte := 4
def errRange : Byte := 8
def errOvr : Byte := 16

/-- The phase completes at the first instant at which ARRV and EXPB are both zero (R153). -/
def Abar.settle (b : Abar) : Abar :=
  if b.arrv = 0 && b.expb = 0 then { b with errl := b.erro, erro := 0, arrv := b.inita, phase := (b.phase + 1) % 2 ^ 32 } else b

/-- Landed or failed bytes charged to the open phase, with error bits (R153). -/
def Abar.charge (b : Abar) (n : Nat) (err : Byte) : Abar :=
  ({ b with expb := b.expb - n, erro := b.erro ||| err ||| (if b.expb < n then errOvr else 0) }).settle

/-- The one arrival of a collective, a `SCATTER` or an `XPUT` (R153). -/
def Abar.arrive (b : Abar) (err : Byte) : Abar :=
  if b.arrv = 0 then ({ b with erro := b.erro ||| err ||| errOvr }).settle
  else ({ b with erro := b.erro ||| err, arrv := b.arrv - 1 }).settle

def Team.modAbar (t : Team) (a : Nat) (f : Abar → Abar) : Team := t.setAbar a (f (t.abar a))

/-- A registered abar's address (R152, R293). -/
def Team.checkAbar (t : Team) (x : W64) : Except Stop Nat := do
  illegalOperandIf (!t.abars.contains x.toNat)
  .ok x.toNat

-- issue (R289)

/-- The counter that E names (R168, R289): none for E = 0. -/
def State.counterOf (s : State) (i : Issuer) (e : ExtOperand) : Except Stop (Option Nat) :=
  if e = .zero then .ok none
  else match e with
    | .s r =>
      let k := bits (i.g.rdS r.toNat).toNat 0 10
      let w := wingOfCore i.tm.core
      if decide (r.toNat < 128) && s.ownsCtr i.tm.ctx w k then .ok (some (ctrKey w k)) else .error (.trap cIllegalOperand 0 0)
    | _ => .error (.trap cIllegalOperand 0 0)

/-- Whether an operation counts against the limit of gathers and scatters per room, else that of copies per core. -/
def State.engineFull (s : State) (core : Nat) (gather : Bool) : Bool :=
  let ops := s.teams.flatMap (fun p =>
    if (if gather then roomOfCore p.2.core == roomOfCore core else p.2.core == core) then
      (p.2.ops.filter (fun q => q.2.gather == gather)).map (·.1) else [])
  decide (ops.length ≥ (if gather then 256 else 64))

/-- Destination ranges of one length that do not overlap one another (R158). -/
def disjointRuns (n : Nat) : List Nat → Bool
  | [] => true
  | a :: r => r.all (fun b => !overlaps a n b n) && disjointRuns n r

/-- The scratchpad checks of R289 on ranges of one length, in order: allocation, guarded ranges, pending granules. -/
def Team.engineCheck (t : Team) (writes : Bool) (n : Nat) (runs : List Nat) : Except Stop Unit := do
  let at_ := fun (p : Nat → Bool) (cause : Nat) => match runs.find? p with
    | some a => (.error (.trap cause (BitVec.ofNat 64 a) 0) : Except Stop Unit)
    | none => .ok ()
  at_ (fun a => decide (t.spadSize < a + n)) cProtection
  (if writes then at_ (fun a => t.guarded a n) cProtection else .ok ())
  (if writes then at_ (fun a => t.pendingAt a n) cLanding else .ok ())

/-- Whether a segment's destination is scratchpad (R94). -/
def SegKind.lands : SegKind → Bool
  | .load | .zeros | .xget _ => true
  | _ => false

/-- The granules of an operation's destination (R94). -/
def segGranules (l : List Seg) : List Nat := (l.flatMap (fun q => if q.kind.lands then granules q.spad q.len else [])).eraseDups

/-- An operation issued (R94, R120): its granules become pending. -/
def State.issueEngine (s : State) (team : Nat) (op : EngOp) : State :=
  let (n, s) := s.fresh
  s.modTeam team (fun t => { (t.addPending (segGranules op.segs)) with ops := Tab.put t.ops n op })

/-- The number of the operation that `issueEngine` starts. -/
def State.nextOp (s : State) : Nat := s.nextId

-- landing

/-- What comes of trying a segment. -/
inductive Tried where
  /-- performed, with error bits -/
  | done (s : State) (err : Byte)
  /-- an invalid page, which the pager may resolve -/
  | fault (page : Nat)
  /-- a page that the pager cannot resolve as it stands -/
  | bad
  /-- it waits: a draining page, a pending source granule, a wing that is not online, an earlier position -/
  | waits
  /-- no understory room for that many lines -/
  | full (n : Nat)
  | absent (addr : Nat)

/-- The pages of a segment's global bytes. -/
inductive SegPages where
  | ok (ps : List PageTr)
  | fault (page : Nat)
  | poison
  | bad
  | waits
  | absent (addr : Nat)

/-- The translation of a segment's global bytes by an engine (R102, R103). -/
def State.segPages (s : State) (ctx : Nat) (k : AccessKind) (va n : Nat) : SegPages :=
  if 2 ^ 56 < va + n then .bad
  else match s.xlatAll none ctx k [{ lane := 0, va := va, n := n }] with
    | .ok ps =>
      let locs := (List.range n).map (fun i => (pageOf ps (va + i)).loc (va + i))
      match s.absentIn locs with
      | some a => .absent a
      | none => if locs.all s.reachable then .ok ps else .waits
    | .error (.page b _ _) => .fault b
    | .error (.trap c _ _) => if c = cPoison then .poison else .bad
    | .error (.absent a) => .absent a
    | .error _ => .waits

/-- Bytes that an engine reads; uncorrectable data read as zero with POISON and raise UECC (R102, R159, R425). -/
def State.engineRead (s : State) (marked : Nat → Bool) (byte : Nat → Byte) (locs : List Nat) : List Byte × Byte × State :=
  if locs.any marked then
    (locs.map (fun _ => 0), errPoison, s.uncorrectable ((((locs.filter marked).map (· / 4)).eraseDups).length))
  else (locs.map byte, 0, s)

/-- One element of a scatter in an add mode (R162). -/
def scatterAdd (mode : ScatterMode) (m x : Nat) : Nat :=
  match mode with
  | .addF32 => (specF32.fadd .rne m x).1
  | .addF64 => (specF64.fadd .rne m x).1
  | .addI32 => (m + x) % 2 ^ 32
  | .addI64 => (m + x) % 2 ^ 64
  | .st => x

/-- The device that a rank names: whether it is this one, live, or dead (R340, R341). -/
def State.rankLive (s : State) (r : Nat) : Bool := s.span.live.getLsbD r

/-- One segment of an operation of a team tried (R103, R159 to R162, R341, R342). Of a `SCATTER` in an add mode to a word that is
marked uncorrectable the spec gives no sum: the model adds to zero and sets POISON, as for a poisoned source word (log entry
45). -/
def State.trySeg (s : State) (team : Nat) (t : Team) (q : Seg) : Tried :=
  let w : Viewer := { launch := t.launch, team := team }
  let vas := (List.range q.len).map (· + q.glob)
  let land := fun (s : State) (bs : List Byte) => s.modTeam team (fun t => t.setSpad q.spad bs)
  let zero := List.replicate q.len (0 : Byte)
  let store := fun (s : State) (bs : List Byte) (ps : List PageTr) =>
    let accs : List LaneAcc := [{ lane := 0, va := q.glob, n := q.len }]
    match (do s.mayWrite w; s.poolCheck w (if pteImm (pageOf ps q.glob).pte then [] else locsOf ps accs)) with
    | .error (.pool _ n) => Tried.full n
    | .error _ => .waits
    | .ok _ => .done ((s.modLaunch t.launch (fun L => { L with poolNeed := 0 })).storeBytes none w ps (vas.zip bs)) 0
  match q.kind with
  | .zeros => .done (land s zero) errRange
  | .skip => .done s errRange
  | .load =>
    (match s.segPages t.ctx .read q.glob q.len with
     | .fault p => .fault p
     | .bad => .bad
     | .waits => .waits
     | .absent a => .absent a
     | .poison => .done (land s zero) errPoison
     | .ok ps =>
       let loc := fun va => (pageOf ps va).loc va
       let imm := fun va => pteImm (pageOf ps va).pte
       let (bs, e, s) := s.engineRead (fun va => (Tab.find? s.uncorr (loc va)).isSome && s.fromCommitted w (imm va) (loc va))
         (fun va => s.viewByte w (imm va) (loc va)) vas
       .done (land (vas.foldl (fun s va => s.recordRead t.launch (imm va) (loc va)) s) bs) e)
  | .store =>
    if t.pendingAt q.spad q.len then .waits
    else (match s.segPages t.ctx .write q.glob q.len with
      | .fault p => .fault p
      | .bad | .poison => .bad
      | .waits => .waits
      | .absent a => .absent a
      | .ok ps => store s (t.spadBytes q.spad q.len) ps)
  | .add mode =>
    if t.pendingAt q.spad q.len then .waits
    else (match s.segPages t.ctx .write q.glob q.len with
      | .fault p => .fault p
      | .bad | .poison => .bad
      | .waits => .waits
      | .absent a => .absent a
      | .ok ps =>
        let loc := fun va => (pageOf ps va).loc va
        let imm := fun va => pteImm (pageOf ps va).pte
        let (bs, e, s) := s.engineRead (fun va => (Tab.find? s.uncorr (loc va)).isSome && s.fromCommitted w (imm va) (loc va))
          (fun va => s.viewByte w (imm va) (loc va)) vas
        let s := vas.foldl (fun s va => s.recordRead t.launch (imm va) (loc va)) s
        match store s (leBytes q.len (scatterAdd mode (leNat bs) (t.spadNat q.spad q.len))) ps with
        | .done s _ => .done s e
        | x => x)
  | .xget r =>
    if r = s.span.rank then
      (match s.segPages t.ctx .read q.glob q.len with
       | .fault p => .fault p
       | .bad => .bad
       | .waits => .waits
       | .absent a => .absent a
       | .poison => .done (land s zero) errPoison
       | .ok ps =>
         let loc := fun va => (pageOf ps va).loc va
         let (bs, e, s) := s.engineRead (fun va => (Tab.find? s.uncorr (loc va)).isSome) (fun va => s.commByte (loc va)) vas
         .done (land s bs) e)
    else if !s.rankLive r then .bad
    else if !s.reaches r then .waits
    else
      let (k, s) := s.pickBelow 3
      if k = 0 then .done s errFault
      else if k = 1 then .done (land s zero) errPoison
      else .done (land s (vas.map (fun va => s.commByte (rankLoc r (s.ctx t.ctx).asid va)))) 0
  | .xput r =>
    if t.pendingAt q.spad q.len || (match s.mayWrite w with | .ok _ => false | .error _ => true) then .waits
    else if r = s.span.rank then
      (match s.segPages t.ctx .write q.glob q.len with
       | .fault p => .fault p
       | .bad | .poison => .bad
       | .waits => .waits
       | .absent a => .absent a
       | .ok ps =>
         if ps.any (fun p => !pteImm p.pte) then .bad
         else .done (s.setCommAll ((vas.map (fun va => (pageOf ps va).loc va)).zip (t.spadBytes q.spad q.len))) 0)
    else if !s.rankLive r then .bad
    else if !s.reaches r then .waits
    else
      let (k, s) := s.pickBelow 2
      let bs := t.spadBytes q.spad q.len
      let s := s.send (.xput r (s.ctx t.ctx).asid q.glob bs none)
      if k = 0 then .done s errFault
      else .done (s.setCommAll ((vas.map (fun va => rankLoc r (s.ctx t.ctx).asid va)).zip bs)) 0

/-- Whether a segment writes the same global bytes as an earlier one of the same operation. -/
def Seg.after (q p : Seg) : Bool :=
  (match q.kind with | .store | .add _ => true | _ => false) && decide (p.ord < q.ord) &&
  (match p.kind with | .store | .add _ => overlaps p.glob p.len q.glob q.len | _ => false)

/-- Whether an earlier position of an operation that has not been tried writes the same global bytes (R158, R162). -/
def EngOp.blocked (op : EngOp) (q : Seg) : Bool := op.segs.any q.after

/-- Whether an earlier position with the same global bytes has been skipped: this one is then skipped too, so that the replay
performs them in order (R103, R158, R162). -/
def EngOp.behind (op : EngOp) (q : Seg) : Bool := op.fix.any q.after

/-- The granules that no further segment of an operation holds pending (R94). -/
def EngOp.freed (op : EngOp) (q : Seg) : List Nat :=
  if q.kind.lands then
    let rest := segGranules (op.segs ++ op.fix)
    (granules q.spad q.len).filter (fun g => !rest.contains g)
  else []

/-- The error bits that an operation of a team delivers: none once every gang of the team has exited (R202). -/
def Team.delivers (t : Team) (err : Byte) : Byte := if t.liveGangs = [] then 0 else err

/-- A segment of an operation performed or failed (R94, R153): it leaves the operation, its bytes are charged, granules
clear, and an operation that has nothing left and makes no arrival completes. -/
def State.segDone (s : State) (team op : Nat) (q : Seg) (err : Byte) : State :=
  match s.team? team with
  | none => s
  | some t =>
    match Tab.find? t.ops op with
    | none => s
    | some o =>
      let o := { o with segs := o.segs.filter (fun p => p.ord != q.ord), fix := o.fix.filter (fun p => p.ord != q.ord), err := o.err ||| err }
      let t := { (t.dropPending (o.freed q)) with ops := Tab.put t.ops op o }
      let t := match o.abar with
        | some a => if o.charges then t.modAbar a (fun b => b.charge q.len (t.delivers err)) else t
        | none => t
      let s := s.modTeam team (fun _ => t)
      if o.segs = [] && o.fix = [] && !o.arrives && o.cont = none then
        (s.modTeam team (fun t => { t with ops := Tab.del t.ops op })).countDone o.counter
      else s

/-- A segment put on the fix-up list (R103). -/
def State.segSkipped (s : State) (team op : Nat) (q : Seg) : State :=
  s.modTeam team (fun t => { t with ops := Tab.modify t.ops op (fun o =>
    { o with segs := o.segs.filter (fun p => p.ord != q.ord), fix := o.fix ++ [q] }) })

/-- An operation of a team. -/
def State.engOp? (s : State) (team op : Nat) : Option (Team × EngOp) :=
  match s.team? team with
  | none => none
  | some t => (Tab.find? t.ops op).map (fun o => (t, o))

/-- Whether the command processor has still to be told that a launch wants so many lines (R187). -/
def State.poolAsks (s : State) (t : Team) (n : Nat) : Bool := match s.launch? t.launch with | some L => L.poolNeed != n | none => false

/-- Whether landing a segment would do anything now. -/
def State.canLand (s : State) (team : Nat) (t : Team) (o : EngOp) (q : Seg) : Bool :=
  !o.blocked q && (o.behind q || (match s.trySeg team t q with
    | .waits => false
    | .full n => s.poolAsks t n
    | _ => true))

/-- Whether a skipped segment may be replayed: its page is no longer invalid, or the pager has given it up; or a full pool has
still to be reported (R187). -/
def State.canReplay (s : State) (team : Nat) (t : Team) (o : EngOp) (q : Seg) : Bool :=
  match s.trySeg team t q with
  | .waits => false
  | .full n => s.poolAsks t n
  | .fault p => o.failed.contains p
  | _ => true

end Sys2Proof.Machine
end

