-- ==== Sys2Proof/Machine/Commit.lean ====
section
/-! DEFINITION. Commit (R123, R174, R175, R177 to R179, R182, R183, R392, R397), the understory pool filling up (R187, R188,
R404), publication (R189), and the replay of a segment (R398).
Readings of the spec that this file follows: log entry 40. -/

namespace Sys2Proof.Machine

open Sys2Proof

-- the commit event

/-- Previous contents kept for a reader that must not see a commit, where nothing earlier is kept (R179). -/
def keepOld (snap : Tab Byte) (old : List (Nat × Byte)) : Tab Byte :=
  old.foldl (fun t p => if (Tab.find? t p.1).isSome then t else Tab.put t p.1 p.2) snap

/-- The launches that a commit of some lines aborts (R177). -/
def State.conflicting (s : State) (ctx self : Nat) (locs : List Nat) : List Nat :=
  let lines := (locs.map (fun l => l / 128 * 128)).eraseDups
  (s.launches.filter (fun p => p.1 != self && p.2.ctx == ctx && p.2.tracked && lines.any p.2.hit)).map (·.1)

/-- One commit event (R123, R177, R179): snapshots keep what it replaces, the bytes enter committed memory, and tracked launches
whose signature is hit abort. `self` is the launch that commits. -/
def State.commitWrites (s : State) (ctx self : Nat) (writes : Tab Byte) : State :=
  let locs := Tab.keys writes
  let victims := s.conflicting ctx self locs
  let old := locs.map (fun l => (l, s.commByte l))
  let s := { s with
    launches := s.launches.map (fun (p : Nat × Launch) =>
      (p.1, if p.1 != self && p.2.it && p.2.replay.isNone then { p.2 with snap := keepOld p.2.snap old } else p.2)) }
  victims.foldl (fun s id => s.conflictAbort id) ((s.setCommAll writes).dropLines locs)

/-- Whether every place that a commit writes can be reached: one on a wing that is not online holds the commit up (R411). -/
def State.canCommit (s : State) (writes : Tab Byte) : Bool := (Tab.keys writes).all s.reachable

/-- Whether a commit with this place in the order is the next of its context (R175). -/
def State.commitTurn (s : State) (ctx n : Nat) : Bool :=
  n != 0 &&
  s.launches.all (fun p => p.2.ctx != ctx || p.2.readyAt == 0 || decide (n ≤ p.2.readyAt)) &&
  (s.ctx ctx).replays.all (fun r => r.2.readyAt == 0 || decide (n ≤ r.2.readyAt))

/-- The report of a merge conflict (R183, R400). -/
def State.reportMerge (s : State) (ctx va lo hi : Nat) : State :=
  s.modCtx ctx (fun c => { c with faddr := BitVec.ofNat 64 va, fteam := BitVec.ofNat 64 (lo % 2 ^ 32 + hi % 2 ^ 32 * 2 ^ 32) })

/-- The write sets of the top-level teams. -/
def Launch.topSets (L : Launch) : Tab WSet := ((Tab.find? L.grids 0).map (·.wsets)).getD []

/-- The merge conflict of a launch, one among child teams first (R183). -/
def Launch.clash (L : Launch) : Option (Nat × Nat × Nat) := if L.it then L.conflict.orElse (fun _ => mergeConflict L.topSets) else none

/-- The bytes that a launch's commit writes: its understory lines, or the merge over a base (R173, R182). -/
def Launch.finalWrites (L : Launch) (base : Nat → Byte) : Tab Byte :=
  if L.it then Tab.putAll [] ((mergeBytes base L.topSets).map (fun p => (p.1, p.2.val))) else L.lines

/-- The record of a launch with its resolved mode in the MODE field, as a segment keeps it (R397, R398). -/
def Launch.recorded (L : Launch) : LaunchRec :=
  let a := L.lrec.attr.toNat
  { L.lrec with attr := BitVec.ofNat 64 (a - bits a 4 2 * 16 + (if L.it then 16 else 0)) }

/-- A committed launch appended to the open segment of its queue (R397). -/
def State.appendSeg (s : State) (L : Launch) : State :=
  match Tab.find? (s.ctx L.ctx).openSeg L.queue with
  | none => s
  | some k =>
    match Tab.find? (s.ctx L.ctx).segs k with
    | none => s
    | some g =>
      let set := fun (s : State) (g : Segment) => s.modCtx L.ctx (fun c => { c with segs := Tab.put c.segs k g })
      if g.recs.length < 256 then set s { g with recs := g.recs ++ [(L.recorded, L.setTable)] }
      else (set s { g with complete := false }).raiseIstat L.ctx istatSegfull

/-- Whether a launch may commit now, or end with its merge conflict (R174, R175, R411). -/
def State.mayCommit (s : State) (L : Launch) : Bool :=
  L.replay.isNone && !L.held && s.commitTurn L.ctx L.readyAt && (L.clash.isSome || s.canCommit (L.finalWrites s.commByte))

/-- `LAUNCH_COMMIT` (R174, R175, R182, R183, R392). -/
def execLaunchCommit (launch : Nat) (s : State) : Res :=
  match s.launch? launch with
  | none => .refused .notEnabled
  | some L =>
    if !s.mayCommit L then .refused .notEnabled
    else match L.clash with
      | some (va, lo, hi) => .next (((s.reportMerge L.ctx va lo hi).abortLaunch launch stMerge).inQueueOrder L.ctx s.nextId)
      | none =>
        let t := (s.commitWrites L.ctx launch (L.finalWrites s.commByte)).appendSeg L
        .next (((t.dropLaunch launch).endRecord L.ctx L.queue L.ord L.lrec stCommitted 0 L.attempt).inQueueOrder L.ctx s.nextId)

-- the pool (R187, R188, R404)

/-- Where UPCNT stands in the context table entry of a slot (R402). -/
def State.upcntAt (s : State) (ctx : Nat) : Nat := s.drv.ctxbase.toNat + 64 * ctx + 56

/-- Whether a full pool is to be dealt with for a launch; not for one that is held, which neither commits nor aborts (R399), nor
while the entry's wing is not online (R411). -/
def State.poolDue (s : State) (L : Launch) : Bool :=
  L.poolNeed != 0 && decide (s.poolSize L.ctx < s.poolUsed L.ctx + L.poolNeed) && !L.held && s.reachable (s.upcntAt L.ctx)

/-- `POOL_FULL`: the pool is extended from the reserve, or the overflow policy applies. A replay never publishes, so it ends
(log entry 39). -/
def execPoolFull (launch : Nat) (s : State) : Res :=
  match s.launch? launch with
  | none => .refused .notEnabled
  | some L =>
    if !s.poolDue L then .refused .notEnabled
    else
      let c := s.ctx L.ctx
      if c.upcnt < c.upmax then
        let n := min (c.upcnt + 256) c.upmax
        let s := s.setCommAll (cellsAt (s.upcntAt L.ctx) (leBytes 2 n))
        .next ((s.modCtx L.ctx (fun c => { c with upcnt := n })).modLaunch launch (fun L => { L with poolNeed := 0 }))
      else
        let s := s.raiseIstat L.ctx istatPool
        .next (if L.overIrr && L.replay.isNone then s.modLaunch launch (fun L => { L with publishing := true, poolNeed := 0 })
          else (s.abortLaunch launch stOverflow).inQueueOrder L.ctx s.nextId)

/-- Whether a launch may publish: it is the oldest of its context, no other one has published, and it is not held (R189, R399,
R411). -/
def State.mayPublish (s : State) (launch : Nat) (L : Launch) : Bool :=
  L.publishing && !L.held && s.launches.all (fun p => p.2.ctx != L.ctx || p.1 == launch || (!decide (p.2.disp < L.disp) && !p.2.irrev)) &&
  s.canCommit L.lines

/-- `IRREVOCABLE_PUBLISH` (R189). -/
def execIrrevocablePublish (launch : Nat) (s : State) : Res :=
  match s.launch? launch with
  | none => .refused .notEnabled
  | some L =>
    if !s.mayPublish launch L then .refused .notEnabled
    else
      .next (((s.commitWrites L.ctx launch L.lines).modLaunch launch (fun L =>
        { L with irrev := true, publishing := false, lines := [], sig := [] })).inQueueOrder L.ctx s.nextId)

-- replay (R398)

/-- The retired record of a replay added to the replay's view; a merge conflict ends the replay. -/
def State.replayRetire (s : State) (ctx q launch : Nat) (L : Launch) : State :=
  match L.clash with
  | some (va, lo, hi) => (s.reportMerge ctx va lo hi).abortLaunch launch stMerge
  | none =>
    let new := L.finalWrites (s.baseByte L 0)
    ((s.dropLaunch launch).modCtx ctx (fun c => { c with replays := Tab.modify c.replays q (fun r =>
      { r with view := Tab.putAll r.view new, running := none }) })).stampReady ctx q

/-- The next record of a replay dispatched. -/
def State.replayDispatch (s : State) (ctx q : Nat) (r : Replay) (lrec : LaunchRec) (sets : List SetDecl) (rest : List (LaunchRec × List SetDecl)) : State :=
  if s.entryOk ctx lrec.code && (lrec.trapvec = 0 || s.entryOk ctx lrec.trapvec) then
    let (id, s) := s.startLaunch ctx { r.rr with attempt := 0 } lrec sets (some q)
    s.modCtx ctx (fun c => { c with replays := Tab.modify c.replays q (fun r => { r with running := some id, todo := rest }) })
  else s.failReplay ctx q stContext 0

/-- Whether a page that a replay's last commit reads or writes has to be waited for (R103, R406, R411). -/
def State.scratchWaits (s : State) (ctx : Nat) (r : Replay) : Bool :=
  (List.range (r.hi - r.lo)).any (fun k =>
    [s.outside ctx .read (r.lo + k) 1, s.outside ctx .write (r.scratch + k) 1].any (fun x =>
      match x with | .error e => s.waitsFor ctx e | .ok _ => false))

/-- The scratch bytes that a replay writes, a page whose translation fails left out (log entry 27). -/
def State.scratchWrites (s : State) (ctx : Nat) (r : Replay) : Tab Byte :=
  Tab.putAll [] ((List.range (r.hi - r.lo)).filterMap (fun k =>
    match s.segPages ctx .read (r.lo + k) 1, s.segPages ctx .write (r.scratch + k) 1 with
    | .ok ps, .ok qs => some ((pageOf qs (r.scratch + k)).loc (r.scratch + k), r.byte ((pageOf ps (r.lo + k)).loc (r.lo + k)))
    | _, _ => none))

/-- What the first replay of a context that can go on does next. -/
def State.replayStep (s : State) (ctx q : Nat) (r : Replay) : Option State :=
  match r.running with
  | some id =>
    (match s.launch? id with
     | some L => if L.ready then some (s.replayRetire ctx q id L) else none
     | none => none)
  | none =>
    match r.todo with
    | (lrec, sets) :: rest => some (s.replayDispatch ctx q r lrec sets rest)
    | [] =>
      if s.commitTurn ctx r.readyAt && !s.scratchWaits ctx r then
        let s := s.commitWrites ctx 0 (s.scratchWrites ctx r)
        let s := s.modCtx ctx (fun c => { c with replays := Tab.del c.replays q })
        some (s.endRecord ctx q r.rr.ord r.rr.lrec stCommitted 0 r.rr.attempt)
      else none

/-- `REPLAY_NEXT` (R398): a replayed record has retired, the next one is dispatched, or the replay commits its scratch
bytes. -/
def execReplayNext (ctx : Nat) (s : State) : Res :=
  match (s.ctx ctx).replays.filterMap (fun p => s.replayStep ctx p.1 p.2) with
  | t :: _ => .next (t.inQueueOrder ctx s.nextId)
  | [] => .refused .notEnabled

end Sys2Proof.Machine
end

