-- ==== Sys2Proof/Machine/TileOps.lean ====
section
/-! DEFINITION. Tile records (R50 to R52), the plane layout of operands (R53, R54), the factor pool (R57 to R61) and the
accumulator slots (R62, R63).
Readings of the spec that this file follows: log entry 38. -/

namespace Sys2Proof.Machine

open Sys2Proof

-- records (R50)

def tKind (r : W128) : Nat := bits r.toNat 0 2
def tRank (r : W128) : Nat := bits r.toNat 2 6
def tFmtCode (r : W128) : Nat := bits r.toNat 8 4
def tLoc (r : W128) : Nat := bits r.toNat 12 4
def tU (r : W128) : Nat := bits r.toNat 32 24
def tV (r : W128) : Nat := bits r.toNat 56 24
def tAcc (r : W128) : Nat := bits r.toNat 80 16
def tCap (r : W128) : Nat := bits r.toNat 96 8
/-- The LNS scale exponent, signed. -/
def tScale (r : W128) : Int := signedOf 8 (bits r.toNat 104 8)
/-- The format of a record; a reserved code, which no consistent record holds, reads as LNS6. -/
def tFmt (r : W128) : Fmt := if tFmtCode r < 6 then (codeToVal fmtTab (tFmtCode r)).getD .l6 else .l6
/-- The number of a record's slot, none for 0xFFFF. -/
def tSlot (r : W128) : Option Nat := if tAcc r = 0xFFFF then none else some (tAcc r)

/-- A record put together from its fields (R50). -/
def mkRec (kind rank : Nat) (fmt : Fmt) (loc u v acc cap scale : Nat) : W128 :=
  BitVec.ofNat 128 (kind % 4 + rank % 64 * 2 ^ 2 + valToCode fmtTab fmt % 16 * 2 ^ 8 + loc % 16 * 2 ^ 12 + u % 2 ^ 24 * 2 ^ 32 +
    v % 2 ^ 24 * 2 ^ 56 + acc % 2 ^ 16 * 2 ^ 80 + cap % 2 ^ 8 * 2 ^ 96 + scale % 2 ^ 8 * 2 ^ 104)

/-- The zero record of a format (R300). -/
def zeroRec (fmt : Fmt) : W128 := mkRec 0 0 fmt 0 0 0 0xFFFF 0 0
/-- The dense record of a slot of an accumulator format (R300). -/
def slotRec (fmt : Fmt) (slot : Nat) : W128 := mkRec 1 32 fmt 1 0 0 slot 0 0

/-- The accumulator format of an operand format (R55); INT32 is coded as INT8 in a record (R51). -/
def accFmt (f : Fmt) : Fmt := match f with | .f64 => .f64 | .i8 => .i8 | _ => .f32

-- plane sets (R53, R54)

/-- The float format of a tile format, none for LNS6 and the integers. -/
def fmtSpec : Fmt → Option FSpec
  | .bf16 => some specBF16
  | .f16 => some specF16
  | .f32 => some specF32
  | .f64 => some specF64
  | _ => none

/-- The magnitude planes of a format. -/
def fmtPlanes : Fmt → Nat
  | .l6 => 1
  | .i8 | .i32 => 8
  | .bf16 => 8
  | .f16 => 11
  | .f32 => 24
  | .f64 => 53

/-- Bytes of an exponent block per element. -/
def expBytes : Fmt → Nat
  | .i8 | .i32 => 0
  | .f64 => 2
  | _ => 1

/-- The bytes of a 32 × c plane set. -/
def setBytes (f : Fmt) (c : Nat) : Nat := 32 * c * expBytes f + (1 + fmtPlanes f) * (4 * c)

/-- The bytes of a column block (R57). -/
def colBlock (f : Fmt) : Nat := 2 * setBytes f 4

/-- An element as its planes hold it: exponent byte, sign, and magnitude planes with the first plane on top. -/
structure Raw where
  e : Nat
  s : Bool
  m : Nat
  deriving DecidableEq, Repr

def rawZero : Raw := { e := 0, s := false, m := 0 }

/-- The element at place k of a set of n elements (k = i·c + j, or j·32 + i in the transposed form). -/
def readRaw (f : Fmt) (rd : Nat → Byte) (base n k : Nat) : Raw :=
  let planes := base + n * expBytes f
  let bit := fun p => bitAt (rd (planes + p * (n / 8) + k / 8)).toNat (k % 8)
  { e := leNat ((List.range (expBytes f)).map (fun q => rd (base + k * expBytes f + q))),
    s := bit 0,
    m := (List.range (fmtPlanes f)).foldl (fun m p => 2 * m + (if bit (p + 1) then 1 else 0)) 0 }

/-- The bytes of a set of n elements (R53). -/
def writeRaws (f : Fmt) (xs : List Raw) : List Byte :=
  let n := xs.length
  let plane := fun (b : Raw → Bool) =>
    (List.range (n / 8)).map (fun q => BitVec.ofNat 8 (((List.range 8).map (fun i => if b (xs.getD (8 * q + i) rawZero) then 2 ^ i else 0)).foldl (· + ·) 0))
  xs.flatMap (fun x => leBytes (expBytes f) x.e) ++ plane (·.s) ++
  (List.range (fmtPlanes f)).flatMap (fun p => plane (fun x => bitAt x.m (fmtPlanes f - 1 - p)))

/-- An element's bit pattern taken into planes (R53, R309): floats by field, INT8 as sign and magnitude, LNS6 by code. -/
def rawOf (f : Fmt) (x : Nat) : Raw :=
  match fmtSpec f with
  | some F =>
    let e := bits x (F.p - 1) F.eb
    { e := e, s := bitAt x (F.width - 1), m := (if e = 0 then 0 else 2 ^ (F.p - 1)) + bits x 0 (F.p - 1) }
  | none =>
    if f = .l6 then { e := x % 32, s := bitAt x 5, m := if x % 32 = 0 then 0 else 1 }
    else let i := signedOf 8 x; { e := 0, s := decide (i < 0), m := i.natAbs }

/-- The width in bits of an element pattern. -/
def fmtWidth (f : Fmt) : Nat :=
  match f with | .l6 => 6 | .i8 => 8 | .bf16 | .f16 => 16 | .f32 | .i32 => 32 | .f64 => 64

/-- The exact value of an element (R53, R78), with the record's LNS scale. An exponent byte has more bits than some formats'
fields, and the spec says only that a write extends the field by zeros: the model takes the byte modulo the field's width (log
entry 38). -/
def rawNum (f : Fmt) (scale : Int) (x : Raw) : Num :=
  match fmtSpec f with
  | some F =>
    let e := x.e % 2 ^ F.eb
    if e = F.expOnes then (if x.m % 2 ^ (F.p - 1) = 0 then .inf x.s else .nan false)
    else .fin x.s x.m ((max e 1 : Nat) - F.bias - (F.p - 1 : Nat))
  | none =>
    if f = .l6 then lnsValue ((if x.s then 32 else 0) + x.e % 32) scale
    else .fin (x.s && x.m != 0) x.m 0

/-- A finite float element with its significand cut to its first `n` planes (Decl of R82). -/
def declRaw (f : Fmt) (n : Nat) (x : Raw) : Raw :=
  match fmtSpec f with
  | some F =>
    if x.e % 2 ^ F.eb = F.expOnes then x else { x with m := x.m / 2 ^ (F.p - n) * 2 ^ (F.p - n) }
  | none => if f = .l6 then x else { x with m := x.m / 2 ^ (8 - n) * 2 ^ (8 - n) }

/-- The bit pattern of an element (R282). -/
def rawBits (f : Fmt) (x : Raw) : Nat :=
  match fmtSpec f with
  | some F =>
    let e := x.e % 2 ^ F.eb
    if e = F.expOnes then F.signBit x.s + e * 2 ^ (F.p - 1) + x.m % 2 ^ (F.p - 1)
    else (F.round .rne (rawNum f 0 x)).1
  | none => if f = .l6 then (if x.s then 32 else 0) + x.e % 32 else patOf 8 (if x.s then -(x.m : Int) else x.m)

-- the factor pool

/-- The address of a block (R57). -/
def Pool.addr (p : Pool) (b : Nat) : Nat := p.base + linkBytes p.count + b * p.block

/-- The link of a block. -/
def Team.link (t : Team) (p : Pool) (b : Nat) : Nat := t.spadNat (p.base + 2 * b) 2
def Team.setLink (t : Team) (p : Pool) (b l : Nat) : Team := t.setSpad (p.base + 2 * b) (leBytes 2 l)

/-- The blocks of a chain from its first block, by their links; none when it is longer than the fuel or leaves the pool. -/
def Team.chainFrom (t : Team) (p : Pool) (fuel b : Nat) : Option (List Nat) :=
  match fuel with
  | 0 => none
  | f + 1 =>
    if p.count ≤ b then none
    else
      let l := t.link p b
      if l = 0xFFFF then some [b] else (t.chainFrom p f l).map (b :: ·)

/-- The blocks that a low-rank record's U field and their links name: at most eight blocks of the pool. -/
def Team.chainAt (t : Team) (r : W128) : Option (List Nat) :=
  match t.pool with
  | none => none
  | some p =>
    let off := tU r - (p.base + linkBytes p.count)
    if tU r < p.base + linkBytes p.count || off % p.block != 0 then none else t.chainFrom p 8 (off / p.block)

/-- Whether a block has been returned (R59, R61). -/
def Team.returned (t : Team) (b : Nat) : Bool :=
  match t.pool with
  | none => false
  | some p => p.free.contains b || p.late.contains b

/-- The chain of a low-rank record (R58): none of its blocks free, none twice. -/
def Team.chainOf (t : Team) (r : W128) : Option (List Nat) :=
  match t.chainAt r with
  | none => none
  | some c => if c.any t.returned || decide (c.eraseDups.length ≠ c.length) then none else some c

/-- The record that owns a chain (R50, R58). -/
def Pool.chainRec (p : Pool) (fmt : Fmt) (rank : Nat) (chain : List Nat) : W128 :=
  let u := p.addr (chain.headD 0)
  mkRec (if rank ≤ 16 then 2 else 3) rank fmt 0 u (u + p.block / 2) 0xFFFF (4 * chain.length) 0

/-- The blocks of k columns. -/
def blocksFor (k : Nat) : Nat := (k + 3) / 4

/-- Blocks linked into a chain, the last one ending it. -/
def Team.linkChain (t : Team) (p : Pool) : List Nat → Team
  | [] => t
  | [b] => t.setLink p b 0xFFFF
  | b :: c :: r => (t.setLink p b c).linkChain p (c :: r)

/-- The first `n` free blocks taken as a chain (R59). -/
def Team.takeBlocks (t : Team) (n : Nat) : List Nat × Team :=
  match t.pool with
  | none => ([], t)
  | some p =>
    let c := p.free.take n
    (c, ({ t with pool := some { p with free := p.free.drop n } }).linkChain p c)

/-- Blocks pushed onto the free list one after another (R59). -/
def Team.pushBlocks (t : Team) (bs : List Nat) : Team :=
  bs.foldl (fun t b => match t.pool with
    | none => t
    | some p => { (t.setLink p b (p.free.headD 0xFFFF)) with pool := some { p with free := b :: p.free } }) t

/-- Whether an issued operation still reads a block (R61). -/
def Team.blockRead (t : Team) (b : Nat) : Bool := t.mops.any (fun q => q.2.rblocks.contains b)

/-- Late blocks that no operation reads any more join the free list in the order of their return (R61). -/
def Team.settleLate (t : Team) : Team :=
  match t.pool with
  | none => t
  | some p =>
    let due := p.late.filter (fun b => !t.blockRead b)
    ({ t with pool := some { p with late := p.late.filter (fun b => t.blockRead b) } }).pushBlocks due

/-- Blocks returned (R59, R61). -/
def Team.returnBlocks (t : Team) (bs : List Nat) : Team :=
  match t.pool with
  | none => t
  | some p => ({ t with pool := some { p with late := p.late ++ bs } }).settleLate

-- accumulator slots (R62)

/-- Whether a team holds a slot number. -/
def Team.holdsSlot (t : Team) (n : Nat) : Bool := (Tab.find? t.slots n).isSome
def Team.slot (t : Team) (n : Nat) : Slot := Tab.get t.slots [] n
def slotElem (x : Slot) (i j : Nat) : Num := Tab.get x slotZero (32 * i + j)

/-- The physical slots of a core that its teams hold. -/
def State.slotsUsed (s : State) (core : Nat) : Nat :=
  (s.teams.map (fun p => if p.2.core = core && p.2.status = .running then p.2.slots.length else 0)).foldl (· + ·) 0

/-- The team slot numbers of a slot: an even pair for FP64. -/
def slotNos (fmt : Fmt) (n : Nat) : List Nat := if fmt = .f64 then [n, n + 1] else [n]

/-- The number that a new slot gets, or none for ACX (R62). -/
def State.freeSlot (s : State) (t : Team) (fmt : Fmt) : Option Nat :=
  let need := if fmt = .f64 then 2 else 1
  if 192 < s.slotsUsed t.core + need then none
  else if fmt = .f64 then ((List.range 96).map (2 * ·)).find? (fun n => !t.holdsSlot n && !t.holdsSlot (n + 1))
  else (List.range 192).find? (fun n => !t.holdsSlot n)

/-- A slot taken: it reads as zeros. -/
def Team.takeSlot (t : Team) (fmt : Fmt) (n : Nat) : Team := { t with slots := (slotNos fmt n).foldl (fun l k => Tab.put l k []) t.slots }
def Team.dropSlot (t : Team) (fmt : Fmt) (n : Nat) : Team := { t with slots := (slotNos fmt n).foldl (fun l k => Tab.del l k) t.slots }

-- consistency (R51, R52, R58, R301)

/-- Whether a record is consistent (R51), and of an accepted kind (R52). -/
def Team.recOk (t : Team) (k11 : Bool) (r : W128) : Bool :=
  let x := r.toNat
  let f := tFmt r
  bits x 16 16 == 0 && bits x 112 16 == 0 && decide (tFmtCode r < 6) && (bits x 104 8 == 0 || f == .l6) &&
  (match tKind r with
   | 0 => tRank r == 0 && tLoc r == 0 && tU r == 0 && tV r == 0 && tCap r == 0 && tAcc r == 0xFFFF
   | 1 =>
     tRank r == 32 && tV r == 0 && tCap r == 0 &&
     (if tLoc r = 0 then tU r % 256 == 0 && tAcc r == 0xFFFF && decide (tU r + setBytes f 32 ≤ t.spadSize)
      else tLoc r == 1 && (f == .i8 || f == .f32 || f == .f64) && tU r == 0 && bits x 104 8 == 0 &&
        (match tSlot r with
         | none => true
         | some n => decide (n < 192) && (slotNos f n).all t.holdsSlot && (f != .f64 || n % 2 == 0)))
   | k =>
     (k == 2 || k11) && tLoc r == 0 && tAcc r == 0xFFFF && (f == .bf16 || f == .f16 || f == .f32) &&
     (if k = 2 then decide (1 ≤ tRank r) && decide (tRank r ≤ 16) else decide (17 ≤ tRank r) && decide (tRank r ≤ 32)) &&
     (match t.pool, t.chainOf r with
      | some p, some c => decide (colBlock f ≤ p.block) && tV r == tU r + p.block / 2 && tCap r == 4 * c.length &&
          decide (tRank r ≤ tCap r) && decide (tCap r ≤ 32)
      | _, _ => false))

/-- The illegal-tile trap of a t register (R192). -/
def tileTrapIf (c : Bool) (reg : Nat) : Except Stop Unit := trapIf c cIllegalTile 0 (BitVec.ofNat 64 reg)

/-- A t operand's record, checked (step 1 of R302: R51, R52). -/
def Issuer.tile (i : Issuer) (k11 : Bool) (o : Operand) : Except Stop W128 := do
  illegalOperandIf (!tOk o)
  let r := i.g.rdT (tIdx o)
  tileTrapIf (!i.tm.recOk k11 r) (tIdx o)
  .ok r

/-- A t operand's record, checked where the operand names a t register; one that does not is illegal at step 2 of R302. -/
def Issuer.tileAt (i : Issuer) (k11 : Bool) (o : Operand) : Except Stop W128 := if tOk o then i.tile k11 o else .ok 0

/-- The chain that a record owns: none of its blocks when it owns no chain (R59). -/
def Team.owned (t : Team) (r : W128) : List Nat := if 2 ≤ tKind r then (t.chainOf r).getD [] else []

/-- The chain of a record that is overwritten without being read: a chain with a free block raises illegal-tile (R59). -/
def Issuer.ownedBy (i : Issuer) (reg : Nat) (r : W128) : Except Stop (List Nat) := do
  tileTrapIf (decide (2 ≤ tKind r) && (i.tm.chainOf r).isNone) reg
  .ok (i.tm.owned r)

-- stalls (R156, R299)

/-- The gang that represents a scope as an issuer of its own (R269). -/
def Wide.repIssuer (w : Wide) : Issuer :=
  { unit := { team := w.p.team, gang := w.gangs.headD 0, slice := none }, tm := w.tm, g := w.rep, slices := w.rep.liveSlices }

/-- Whether an incomplete operation of the gang writes the record of a t register. -/
def Team.tregBusy (t : Team) (gang reg : Nat) : Bool :=
  t.mops.any (fun q => q.2.treg == some reg && q.2.gangs.any (fun p => p.1 == gang))

/-- Whether an incomplete operation of the team writes a slot. -/
def Team.slotBusy (t : Team) (n : Nat) : Bool := t.mops.any (fun q => q.2.slots.contains n)

/-- Whether an incomplete operation of the team writes the slot or the blocks of a record (R156). -/
def Team.recBusy (t : Team) (r : W128) : Bool :=
  (tLoc r == 1 && (match tSlot r with | some n => t.slotBusy n | none => false)) ||
  (decide (2 ≤ tKind r) && t.mops.any (fun q => (t.owned r).any q.2.wblocks.contains))

/-- The stall of R156 on t operands: those whose record an operation of the gang writes, and those of `read` whose slot or
blocks an operation of the team writes. -/
def Issuer.tileStall (i : Issuer) (regs read : List Operand) : Except Stop Unit :=
  if regs.any (fun o => tOk o && i.tm.tregBusy i.unit.gang (tIdx o)) || read.any (fun o => tOk o && i.tm.recBusy (i.g.rdT (tIdx o))) then
    .error (.retry false)
  else .ok ()

end Sys2Proof.Machine
end

