-- ==== Sys2Proof/Machine/MatMath.lean ====
section
/-! DEFINITION. The arithmetic of matrix and rank instructions: the order of matrix sums (R80 to R84), Contract (R303), and
the rank rounding of R321. A matrix is a list of rows of exact values.
Readings of the spec that this file follows: log entry 37. -/

namespace Sys2Proof.Machine

open Sys2Proof

abbrev Mat := List (List Num)

def Mat.at_ (m : Mat) (i j : Nat) : Num := (m.getD i []).getD j slotZero
def Mat.row (m : Mat) (i : Nat) : List Num := m.getD i []
def Mat.col (m : Mat) (j : Nat) : List Num := m.map (fun r => r.getD j slotZero)
/-- The matrix of r rows and c columns with given elements. -/
def matOf (r c : Nat) (f : Nat → Nat → Num) : Mat := (List.range r).map (fun i => (List.range c).map (f i))
def Mat.transpose (m : Mat) (c : Nat) : Mat := (List.range c).map m.col

-- sums (R81 to R84)

/-- The truncation width W (R81). -/
def truncWidth : Fmt → Nat
  | .l6 => 16
  | .bf16 => 20
  | .f16 => 26
  | .f64 => 110
  | _ => 52

/-- The precision of an accumulator format (R84). -/
def accPrec (f : Fmt) : Nat := if f = .f64 then 53 else 24

def numInf : Num → Bool
  | .inf _ => true
  | _ => false

/-- ⌊log2 |p|⌋ of a nonzero finite value. -/
def numExp? : Num → Option Int
  | .fin _ m e => if m = 0 then none else some ((m.log2 : Int) + e)
  | _ => none

/-- A finite value cut to ⌊|p| 2^(W - emax)⌋ with its sign (TruncMag of R81). -/
def truncMag (w : Nat) (emax : Int) : Num → Int
  | .fin s m e =>
    let sh := e + w - emax
    let v : Int := if 0 ≤ sh then ((m * 2 ^ sh.toNat : Nat) : Int) else ((m / 2 ^ (-sh).toNat : Nat) : Int)
    if s then -v else v
  | _ => 0

/-- One group of sixteen products added to an accumulator (R82). -/
def groupStep (w prec : Nat) (acc : Num) (ps : List Num) : Num :=
  let infs := (acc :: ps).filter numInf
  if acc.isNan || ps.any Num.isNan || (infs.any Num.sign && infs.any (fun x => !x.sign)) then .nan false
  else match infs with
    | x :: _ => x
    | [] =>
      match ps.filterMap numExp? with
      | [] => acc
      | e :: es =>
        let emax := es.foldl max e
        let s := (ps.map (truncMag w emax)).foldl (· + ·) 0
        if s = 0 then acc else roundAcc prec (Num.add .rne acc (.fin (decide (s < 0)) s.natAbs (emax - w))).1

/-- An integer slot element as an integer, and back, modulo 2^32 (R70, R82). -/
def numInt : Num → Int
  | .fin s m e => let v : Int := ((m * 2 ^ e.toNat : Nat) : Int); if s then -v else v
  | _ => 0
def intNum (i : Int) : Num := let v := signedOf 32 (patOf 32 i); (Num.fin (decide (v < 0)) v.natAbs 0).canon

/-- GroupSum (R82) on the exact products p[0..31] of operands of format `f`. -/
def groupSum (f : Fmt) (restart : Bool) (acc : Num) (ps : List Num) : Num :=
  let acc := if restart then slotZero else acc
  if f = .i8 then intNum ((ps.map numInt).foldl (· + ·) (numInt acc))
  else
    let p := accPrec (accFmt f)
    let w := truncWidth f
    groupStep w p (groupStep w p acc (ps.take 16)) (ps.drop 16)

/-- A product scaled by 2^LSC (R82, R86). -/
def scaleNum (k : Int) : Num → Num
  | .fin s m e => .fin s m (e + k)
  | x => x

/-- Contract (R303): F is FP64 for FP64 tiles, else FP32; entries beyond n are +0. -/
def contract (f : Fmt) (n : Nat) (x y : List Num) : Num :=
  let ps := (List.range 32).map (fun k => if k < n then (Num.mul (x.getD k slotZero) (y.getD k slotZero)).1 else slotZero)
  groupSum (if f = .f64 then .f64 else .f32) true slotZero ps

/-- RoundTo a float format as a value (R72). -/
def roundNum (F : FSpec) (x : Num) : Num := F.decode (F.round .rne x).1

/-- RoundTo the result format of rank instructions that name none: FP64 for FP64 tiles, else FP32. -/
def resSpec (f : Fmt) : FSpec := if f = .f64 then specF64 else specF32

/-- RoundTo an accumulator format (R81, R84). -/
def roundTo (f : Fmt) (x : Num) : Num := roundAcc (accPrec f) x

-- the elementary operations (R303)

def rAdd (x y : Num) : Num := roundNum specF32 (Num.add .rne x y).1
def rSub (x y : Num) : Num := rAdd x y.neg
def rMul (x y : Num) : Num := roundNum specF32 (Num.mul x y).1
def rDiv (x y : Num) : Num := specF32.decode (specF32.fdivNum .rne x y).1
def sqrtIn (F : FSpec) (x : Num) : Num := F.decode (F.fsqrt .rne (F.round .rne x).1).1
def rSqrt (x : Num) : Num := sqrtIn specF32 x
def one : Num := .fin false 1 0
def two : Num := .fin false 1 1
def rAbs : Num → Num
  | .nan s => .nan s
  | .inf _ => .inf false
  | .fin _ m e => .fin false m e
/-- x ≤ y, false with a NaN. -/
def numLe (x y : Num) : Bool := !x.isNan && !y.isNan && Num.cmp x y != .gt

/-- a x + b y, exact, then rounded once (the rotations of R321). -/
def rLin (a x b y : Num) : Num := roundNum specF32 (Num.add .rne (Num.mul a x).1 (Num.mul b y).1).1

/-- Dot of R321. -/
def rDot (n : Nat) (x y : List Num) : Num := roundNum specF32 (contract .f32 n x y)

-- R321; matrices are held as lists of columns

/-- The projection of column j on column i subtracted, and R[i][j] increased. -/
def mgsProject (j : Nat) (acc : List (List Num) × List (List Num)) (i : Nat) : List (List Num) × List (List Num) :=
  let (q, r) := acc
  let qi := q.getD i []
  let qj := q.getD j []
  let h := rDot 32 qi qj
  (q.set j ((qj.zip qi).map (fun p => rLin one p.1 h.neg p.2)), r.modify i (fun row => row.modify j (fun x => rAdd x h)))

/-- Column j normalised. -/
def mgsColumn (acc : List (List Num) × List (List Num)) (j : Nat) : List (List Num) × List (List Num) :=
  let (q, r) := (List.range j ++ List.range j).foldl (mgsProject j) acc
  let qj := q.getD j []
  let rho := rSqrt (rDot 32 qj qj)
  (q.set j (qj.map (fun x => if rho.isZero then slotZero else rDiv x rho)), r.modify j (fun row => row.set j rho))

/-- MGS2: Q by columns, R by rows. -/
def mgs2 (cols : List (List Num)) (k : Nat) : List (List Num) × List (List Num) :=
  (List.range k).foldl mgsColumn (cols, List.replicate k (List.replicate k slotZero))

/-- Rotate of R321 on the columns of X and J. -/
def rotate (k : Nat) (acc : List (List Num) × List (List Num)) (pq : Nat × Nat) : List (List Num) × List (List Num) :=
  let (x, jm) := acc
  let (p, q) := pq
  let xp := x.getD p []
  let xq := x.getD q []
  let g := rDot k xp xq
  if g.isZero then acc
  else
    let a := rDot k xp xp
    let b := rDot k xq xq
    let z := rDiv (rSub b a) (rMul two g)
    let sg : Num := if numLe slotZero z then one else one.neg
    let t := rDiv sg (rAdd (rAbs z) (rSqrt (rAdd one (rMul z z))))
    let c := rDiv one (rSqrt (rAdd one (rMul t t)))
    let s := rMul c t
    let turn := fun (m : List (List Num)) =>
      let mp := m.getD p []
      let mq := m.getD q []
      (m.set p ((mp.zip mq).map (fun r => rLin c r.1 s.neg r.2))).set q ((mp.zip mq).map (fun r => rLin s r.1 c r.2))
    (turn x, turn jm)

/-- The pairs of one sweep in order. -/
def sweepPairs (k : Nat) : List (Nat × Nat) :=
  (List.range (k - 1)).flatMap (fun p => (List.range (k - 1 - p)).map (fun d => (p, p + 1 + d)))

/-- Indices sorted by descending value, equal values in ascending index (R64). -/
def insertDesc (v : Nat → Num) (i : Nat) : List Nat → List Nat
  | [] => [i]
  | j :: r => if numLe (v i) (v j) then j :: insertDesc v i r else i :: j :: r

def sortDesc (v : Nat → Num) (k : Nat) : List Nat := (List.range k).foldl (fun l i => insertDesc v i l) []

/-- The tail sums tail[0..k] of the sorted σ. -/
def tailSums : List Num → List Num
  | [] => [slotZero]
  | s :: r =>
    let t := tailSums r
    rAdd (t.headD slotZero) (rMul s s) :: t

/-- What RankRound answers: the source's own dense value, or rank r with the columns of U′ and V′. -/
inductive Rounded where
  | dense
  | factors (r : Nat) (u v : List (List Num))
  deriving DecidableEq, Repr

/-- RankRound (R321) on the columns of U and V. -/
def rankRound (F : FSpec) (u v : List (List Num)) (k : Nat) (tau : Num) (rel : Bool) : Rounded :=
  let (qu, ru) := mgs2 u k
  let (qv, rv) := mgs2 v k
  let m := (List.range k).map (fun b => (List.range k).map (fun a => rDot k (ru.getD a []) (rv.getD b [])))
  let j := (List.range k).map (fun b => (List.range k).map (fun a => if a = b then one else slotZero))
  let (x, jm) := ((List.replicate 8 (sweepPairs k)).flatMap id).foldl (rotate k) (m, j)
  let sigma := x.map (fun c => rSqrt (rDot k c c))
  let order := sortDesc (fun i => sigma.getD i slotZero) k
  let tails := tailSums (order.map (fun i => sigma.getD i slotZero))
  let t0 := tails.headD slotZero
  let thr := if rel then rMul (rMul tau tau) t0 else rMul tau tau
  if t0.isNan || thr.isNan then .dense
  else
    let r := if numInf t0 then k else ((List.range (k + 1)).find? (fun i => numLe (tails.getD i slotZero) thr)).getD k
    let make := fun (q w : List (List Num)) => (order.take r).map (fun c =>
      (List.range 32).map (fun row => roundNum F (contract .f32 k (q.map (fun col => col.getD row slotZero)) (w.getD c []))))
    .factors r (make qu x) (make qv jm)

end Sys2Proof.Machine
end

