-- ==== Sys2Proof/Machine/MatOps.lean ====
section
/-! DEFINITION. Matrix and rank operations between issue and completion (R65, R67, R155, R156, R299, R300): the placement of
results, the reading of operands, the result of each instruction, and what completion writes. -/

namespace Sys2Proof.Machine

open Sys2Proof

-- placement (R300, R302)

/-- Where a result goes. -/
inductive Place where
  | zero (f : Fmt)
  | low (f : Fmt) (rank : Nat) (chain : List Nat)
  | dense (f : Fmt) (slot : Nat) (new : Bool)
  deriving DecidableEq, Repr

/-- The scratchpad bytes of a block that a tile format uses: its U and V sets (R57, R58). -/
def Pool.blockRuns (p : Pool) (f : Fmt) (b : Nat) : List (Nat × Nat) :=
  [(p.addr b, setBytes f 4), (p.addr b + p.block / 2, setBytes f 4)]

def Team.runsOf (t : Team) (f : Fmt) (chain : List Nat) : List (Nat × Nat) :=
  match t.pool with | some p => chain.flatMap (p.blockRuns f) | none => []

/-- The landing-conflict check of written ranges (R96). -/
def Team.landingCheck (t : Team) (runs : List (Nat × Nat)) : Except Stop Unit :=
  match runs.find? (fun r => t.pendingAt r.1 r.2) with
  | some r => .error (.trap cLanding (BitVec.ofNat 64 r.1) 0)
  | none => .ok ()

/-- A new chain for rank k (R60, R302): the landing check of the blocks that would be taken, then FPX. -/
def Team.placeChain (t : Team) (f : Fmt) (k : Nat) : Except Stop Place := do
  let n := blocksFor k
  let c := match t.pool with | some p => p.free.take n | none => []
  t.landingCheck (t.runsOf f c)
  trapIf (decide (c.length < n)) cFpx 0 (BitVec.ofNat 64 n)
  .ok (.low f k c)

/-- A dense result in tD's own slot of the accumulator format, else in a new one, or ACX (R62, R300). -/
def State.placeDense (s : State) (t : Team) (d : W128) (f : Fmt) : Except Stop Place :=
  let own := if tKind d = 1 && tLoc d = 1 && tFmt d = f then tSlot d else none
  match own with
  | some n => .ok (.dense f n false)
  | none => match s.freeSlot t f with
    | some n => .ok (.dense f n true)
    | none => .error (.trap cAcx 0 0)

/-- The record of a placed result. -/
def Team.placedRec (t : Team) : Place → W128
  | .zero f => zeroRec f
  | .low f k c => match t.pool with | some p => p.chainRec f k c | none => zeroRec f
  | .dense f n _ => slotRec f n

/-- The blocks or the slot taken at issue (R299). -/
def Team.takePlace (t : Team) : Place → Team
  | .zero _ => t
  | .low _ _ c => (t.takeBlocks c.length).2
  | .dense f n new => if new then t.takeSlot f n else t

-- issue

/-- The scratchpad ranges that hold a record's elements or factors. -/
def Team.srcRuns (t : Team) (r : W128) : List (Nat × Nat) :=
  match tKind r with
  | 0 => []
  | 1 => if tLoc r = 0 then [(tU r, setBytes (tFmt r) 32)] else []
  | _ => t.runsOf (tFmt r) (t.owned r)

/-- The slot that holds a record's elements. -/
def srcSlots (r : W128) : List Nat := if tKind r = 1 && tLoc r = 1 then (tSlot r).toList else []

/-- The batch that holds what a gang issues now (R155). -/
def Gang.openBatch (g : Gang) : Nat := g.lastBatch + 1

/-- An operation with its sources: what it reads (R65). -/
def MatOp.reading (op : MatOp) (t : Team) (srcs : List W128) : MatOp :=
  { op with
      reads := srcs.flatMap t.srcRuns, rslots := srcs.flatMap srcSlots,
      rblocks := (srcs.filter (fun r => decide (2 ≤ tKind r))).flatMap t.owned }

/-- The chain that a record owned when an operation was issued, as the k-th of its sources (R58, R65). -/
def MatOp.chain (op : MatOp) (k : Nat) : List Nat :=
  let size := fun (r : W128) => if 2 ≤ tKind r then tCap r / 4 else 0
  (op.rblocks.drop (((op.recs.take k).map size).foldl (· + ·) 0)).take (size (op.recs.getD k 0))

/-- An operation with its destination placed (R300). -/
def MatOp.writing (op : MatOp) (t : Team) (reg : Nat) (d : W128) (p : Place) : MatOp :=
  { op with
      treg := some reg, dst := .record (t.placedRec p), ret := t.owned d,
      slots := (match p with | .dense _ n _ => [n] | _ => []),
      wblocks := (match p with | .low _ _ c => c | _ => []),
      writes := (match p with | .low f _ c => t.runsOf f c | _ => []) }

/-- An operation issued. -/
def State.issueMat (s : State) (team : Nat) (op : MatOp) : State :=
  let (n, s) := s.fresh
  s.modTeam team (fun t => { t with mops := Tab.put t.mops n op })

/-- A rank instruction of a gang issued: its destination taken, its sources recorded, the gang passed. -/
def State.issueRank (s : State) (i : Issuer) (ins : Instr) (reg : Nat) (d : W128) (srcs : List W128) (words : List W64) (p : Place) : State :=
  let op : MatOp := { gangs := [(i.unit.gang, i.g.openBatch)], instr := ins, recs := srcs, words := words }
  let op := (op.reading i.tm srcs).writing i.tm reg d p
  ((s.passUnit i).modTeam i.unit.team (fun t => t.takePlace p)).issueMat i.unit.team op

-- reading operands

/-- The operand bytes that were replaced since issue: each bit is one that has stood there since, by a free choice (R65). -/
def State.mixBytes (s : State) (t : Team) (op : MatOp) : Tab Byte × State :=
  ((op.seen.map (·.1)).eraseDups).foldl (fun (acc : Tab Byte × State) a =>
    let held := (op.seen.filter (fun p => p.1 == a)).map (·.2)
    let ones := held.foldl (· &&& ·) (t.spadByte a)
    let some_ := held.foldl (· ||| ·) (t.spadByte a)
    if ones = some_ then acc
    else
      let (w, s) := acc.2.pick
      (Tab.put acc.1 a (ones ||| (some_ &&& w.setWidth 8)), s)) ([], s)

/-- The columns of U or of V of a low-rank record on a chain of blocks, as their planes hold them (R58). -/
def Team.factor (t : Team) (rd : Nat → Byte) (c : List Nat) (r : W128) (v : Bool) : List (List Raw) :=
  match t.pool with
  | none => []
  | some p =>
    (List.range (tRank r)).map (fun j =>
      let base := p.addr (c.getD (j / 4) 0) + (if v then p.block / 2 else 0)
      (List.range 32).map (fun i => readRaw (tFmt r) rd base 128 (4 * i + j % 4)))

/-- The element of a dense plane set, as its planes hold it. -/
def planeElem (rd : Nat → Byte) (r : W128) (i j : Nat) : Raw := readRaw (tFmt r) rd (tU r) 1024 (32 * i + j)

/-- Exact values of raw columns. -/
def numCols (f : Fmt) (cols : List (List Raw)) : List (List Num) := cols.map (fun c => c.map (rawNum f 0))

/-- The matrix of a record's element values: zero, stored, held in a slot, or the product of the factors on a chain under a
rounding. What a slot reads as through a record of another accumulator format than it was written in, or through the second
number of an FP64 pair, the spec does not say: the model reads the exact elements that the number holds, none in a second number
(log entry 38). -/
def Team.values (t : Team) (rd : Nat → Byte) (rnd : Num → Num) (c : List Nat) (r : W128) : Mat :=
  match tKind r with
  | 0 => matOf 32 32 (fun _ _ => slotZero)
  | 1 =>
    if tLoc r = 0 then matOf 32 32 (fun i j => rawNum (tFmt r) (tScale r) (planeElem rd r i j))
    else match tSlot r with
      | some n => matOf 32 32 (slotElem (t.slot n))
      | none => matOf 32 32 (fun _ _ => slotZero)
  | _ =>
    let u := Mat.transpose (numCols (tFmt r) (t.factor rd c r false)) 32
    let v := Mat.transpose (numCols (tFmt r) (t.factor rd c r true)) 32
    matOf 32 32 (fun i j => rnd (contract (tFmt r) (tRank r) (u.row i) (v.row j)))

/-- A slot from its elements (R84). -/
def slotFrom (m : Mat) : Slot :=
  (List.range 1024).filterMap (fun k => let x := (m.at_ (k / 32) (k % 32)).canon; if x = slotZero then none else some (k, x))

-- results

/-- What an operation produces. -/
inductive MatOut where
  | nothing
  | slot (x : Slot)
  | factors (u v : List (List Raw))
  | bytes (a : Nat) (bs : List Byte)
  | lanes (l : List (Nat × Nat))

/-- The operand of the slot an operation updates. -/
def MatOp.slotIn (op : MatOp) (t : Team) : Slot := match op.slots with | n :: _ => t.slot n | [] => []

/-- The format word of R86. -/
def fwFmt (w : W64) : Nat := bits w.toNat 0 4
def fwB (w : W64) : Nat := bits w.toNat 4 4
def fwPlanes (w : W64) : Nat := bits w.toNat 8 6
def fwScale (w : W64) : Int := signedOf 8 (bits w.toNat 14 8)
def fwMode (w : W64) : Nat := bits w.toNat 22 2

/-- The exact products of one row of A and one column of B (R80, R82). -/
def products (f : Fmt) (planes : Nat) (lsc : Int) (sa sb : Int) (a b : List Raw) : List Num :=
  (a.zip b).map (fun (x, y) => scaleNum lsc
    (if f = .l6 then lnsProduct ((if x.s then 32 else 0) + x.e % 32) ((if y.s then 32 else 0) + y.e % 32) sa sb
     else (Num.mul (rawNum f 0 (declRaw f planes x)) (rawNum f 0 y)).1))

/-- The rows of a quarter operation's operands; a KIND 00 operand is all zeros. -/
def rawRows (rd : Nat → Byte) (r : W128) : List (List Raw) :=
  if tKind r = 0 then List.replicate 32 (List.replicate 32 rawZero)
  else (List.range 32).map (fun i => (List.range 32).map (planeElem rd r i))

/-- The columns of rows. -/
def rawCols (m : List (List Raw)) : List (List Raw) := (List.range 32).map (fun j => m.map (fun r => r.getD j rawZero))

/-- The rows of a slot after a matrix product (R82, R310): `row i` says whether row i is computed, with its format word. With a
KIND 00 operand every product is zero. -/
def mmaSlot (a b : W128) (rd : Nat → Byte) (old : Slot) (row : Nat → Option W64) : Slot :=
  let f := tFmt a
  let am := rawRows rd a
  let bc := rawCols (rawRows rd b)
  let zero := tKind a == 0 || tKind b == 0
  slotFrom ((List.range 32).map (fun i =>
    match row i with
    | none => (List.range 32).map (slotElem old i)
    | some w => (List.range 32).map (fun j =>
        groupSum f (fwMode w == 1) (slotElem old i j)
          (if zero then List.replicate 32 slotZero
           else products f (fwPlanes w) (fwScale w) (tScale a) (tScale b) (am.getD i []) (bc.getD j [])))))

/-- The format word of full planes in overwrite mode (R315). -/
def fullWord (f : Fmt) : W64 := BitVec.ofNat 64 (valToCode fmtTab f * 17 + fmtPlanes f * 2 ^ 8 + 2 ^ 22)

/-- The lane value of an `ACCWR` source (R312). -/
def accSource (src : Fmt) (x : Nat) : Num :=
  match fmtSpec src with
  | some F => (F.decode (x % 2 ^ F.width)).canon
  | none => intNum (if src = .i8 then signedOf 8 x else signedOf 32 x)

/-- The patterns of a low-rank factor rounded to a format, as raw columns. -/
def roundCols (f : Fmt) (cols : List (List Num)) : List (List Raw) :=
  match fmtSpec f with
  | some F => cols.map (fun c => c.map (fun x => rawOf f (F.round .rne x).1))
  | none => []

/-- The factors of a low-rank product with a dense side or of two low-rank tiles (R315), and the dense product. -/
def Team.tmulOut (t : Team) (rd : Nat → Byte) (ca cb : List Nat) (a b : W128) : MatOut :=
  let f := tFmt a
  let lowA := decide (2 ≤ tKind a)
  let lowB := decide (2 ≤ tKind b)
  let ua := t.factor rd ca a false
  let va := t.factor rd ca a true
  let ub := t.factor rd cb b false
  let vb := t.factor rd cb b true
  if tKind a = 0 || tKind b = 0 then .nothing
  else if !lowA && !lowB then .slot (mmaSlot a b rd [] (fun _ => some (fullWord f)))
  else if lowA && !lowB then
    let m := t.values rd id cb b
    .factors ua (roundCols f ((numCols f va).map (fun c => (List.range 32).map (fun j => contract f 32 (m.col j) c))))
  else if !lowA then
    let m := t.values rd id ca a
    .factors (roundCols f ((numCols f ub).map (fun c => (List.range 32).map (fun i => contract f 32 (m.row i) c)))) vb
  else
    let w := fun (x y : List (List Num)) => x.map (fun c => y.map (fun d => rDot 32 c d))
    let thin := fun (m : List (List Num)) (w : List (List Num)) (inner outer : Nat) =>
      (List.range outer).map (fun d => (List.range 32).map (fun i =>
        contract f inner (m.map (fun c => c.getD i slotZero)) (w.map (fun r => r.getD d slotZero))))
    if tRank a ≤ tRank b then .factors ua (roundCols f (thin (numCols f vb) (w (numCols f ub) (numCols f va)) (tRank b) (tRank a)))
    else .factors (roundCols f (thin (numCols f ua) (w (numCols f va) (numCols f ub)) (tRank a) (tRank b))) vb

/-- A sum, exact and rounded once, INT32 wrapping (R318). -/
def denseAdd (f : Fmt) (x y : Num) : Num :=
  if f = .i8 then intNum (numInt x + numInt y) else roundTo f (Num.add .rne x y).1

/-- The result of `TADD` (R318). -/
def Team.taddOut (t : Team) (rd : Nat → Byte) (ca cb : List Nat) (a b : W128) : MatOut :=
  let af := accFmt (tFmt a)
  let rnd := roundTo af
  let low := fun (r : W128) => decide (2 ≤ tKind r)
  let copy := fun (c : List Nat) (r : W128) =>
    if tKind r = 0 then MatOut.nothing
    else if low r then .factors (t.factor rd c r false) (t.factor rd c r true)
    else .slot (slotFrom (t.values rd id c r))
  if tKind a = 0 then copy cb b
  else if tKind b = 0 then copy ca a
  else if low a && low b && decide (tRank a + tRank b ≤ 32) then
    .factors (t.factor rd ca a false ++ t.factor rd cb b false) (t.factor rd ca a true ++ t.factor rd cb b true)
  else
    let x := t.values rd rnd ca a
    let y := t.values rd rnd cb b
    .slot (slotFrom (matOf 32 32 (fun i j => denseAdd af (x.at_ i j) (y.at_ i j))))

/-- The scale operand of `TSCL` (R319). -/
def alphaOf (f : Fmt) (w : W64) : Num :=
  match f with
  | .f64 => specF64.decode w.toNat
  | .i8 | .i32 => intNum (signedOf 32 w.toNat)
  | _ => specF32.decode (w.toNat % 2 ^ 32)

/-- The result of `TSCL` (R319). -/
def Team.tsclOut (t : Team) (rd : Nat → Byte) (c : List Nat) (a : W128) (w : W64) : MatOut :=
  let f := tFmt a
  let al := alphaOf f w
  match tKind a with
  | 0 => .nothing
  | 1 => .slot (slotFrom ((t.values rd id c a).map (fun r => r.map (fun x =>
      if f = .i8 then intNum (numInt al * numInt x) else roundTo (accFmt f) (Num.mul al x).1))))
  | _ => .factors (roundCols f ((numCols f (t.factor rd c a false)).map (fun c => c.map (fun x => (Num.mul al x).1)))) (t.factor rd c a true)

/-- The result of `TTRN` (R319). -/
def Team.ttrnOut (t : Team) (rd : Nat → Byte) (c : List Nat) (a : W128) : MatOut :=
  match tKind a with
  | 0 => .nothing
  | 1 => .slot (slotFrom (Mat.transpose (t.values rd id c a) 32))
  | _ => .factors (t.factor rd c a true) (t.factor rd c a false)

/-- The result of `TDENSE` (R319). -/
def Team.tdenseOut (t : Team) (rd : Nat → Byte) (c : List Nat) (a : W128) : MatOut :=
  .slot (slotFrom (t.values rd (roundTo (accFmt (tFmt a))) c a))

/-- The lane results of `TMV` (R316): `words` holds the mask and the 32 elements of x. -/
def Team.tmvOut (t : Team) (rd : Nat → Byte) (ch : List Nat) (a : W128) (words : List W64) : MatOut :=
  let f := tFmt a
  let F := resSpec f
  let mask := (words.headD 0).toNat
  let x := (List.range 32).map (fun j => F.decode ((words.getD (j + 1) 0).toNat % 2 ^ F.width))
  let y : List Num :=
    match tKind a with
    | 0 => List.replicate 32 slotZero
    | 1 => let m := t.values rd id ch a; (List.range 32).map (fun i => contract f 32 (m.row i) x)
    | _ =>
      let u := numCols f (t.factor rd ch a false)
      let w := (numCols f (t.factor rd ch a true)).map (fun c => roundNum F (contract f 32 c x))
      (List.range 32).map (fun i => contract f (tRank a) (u.map (fun c => c.getD i slotZero)) w)
  .lanes ((onesOf 32 mask).map (fun i => (i, (F.round .rne (y.getD i slotZero)).1)))

/-- The result of an operation on its operands at completion; `TRND` apart. -/
def MatOp.out (op : MatOp) (t : Team) (rd : Nat → Byte) : MatOut :=
  let a := op.recs.getD 0 0
  let b := op.recs.getD 1 0
  let w := fun k => op.words.getD k 0
  match op.instr with
  | .mma _ _ => .slot (mmaSlot a b rd (op.slotIn t) (fun i => if bitAt (w 0).toNat i then some (w (1 + i / 8)) else none))
  | .tmul _ _ => t.tmulOut rd (op.chain 0) (op.chain 1) a b
  | .accz _ _ => .slot []
  | .accwr _ src _ => .slot (slotFrom (matOf 32 32 (fun i j =>
      if bitAt (w 0).toNat i then accSource src (w (1 + 32 * i + j)).toNat else slotElem (op.slotIn t) i j)))
  | .cturn _ fmt tr _ =>
    (match op.dst with
     | .keep =>
       let c := (op.words.length - 1) / 32
       let x := fun i j => rawOf fmt (w (1 + i * c + j)).toNat
       .bytes (w 0).toNat (writeRaws fmt ((List.range (32 * c)).map (fun k => if tr then x (k % 32) (k / 32) else x (k / c) (k % c))))
     | _ =>
       let k := op.words.length / 64
       let col := fun base c => (List.range 32).map (fun i => rawOf fmt (w (base + 32 * c + i)).toNat)
       .factors ((List.range k).map (col 0)) ((List.range k).map (col (32 * k))))
  | .tmv _ _ => t.tmvOut rd (op.chain 0) a op.words
  | .tadd _ _ => t.taddOut rd (op.chain 0) (op.chain 1) a b
  | .tscl _ _ => t.tsclOut rd (op.chain 0) a (w 0)
  | .tdense _ _ => t.tdenseOut rd (op.chain 0) a
  | .ttrn _ _ => t.ttrnOut rd (op.chain 0) a
  | _ => .nothing

-- completion

/-- Factor columns written into a chain, its last block filled up with zeros (R300). -/
def Team.writeFactors (t : Team) (f : Fmt) (chain : List Nat) (u v : List (List Raw)) : Team :=
  match t.pool with
  | none => t
  | some p =>
    (List.range chain.length).foldl (fun t q =>
      let b := chain.getD q 0
      let set := fun (cols : List (List Raw)) =>
        writeRaws f ((List.range 128).map (fun k => (cols.getD (4 * q + k % 4) []).getD (k / 4) rawZero))
      (t.setSpad (p.addr b) (set u)).setSpad (p.addr b + p.block / 2) (set v)) t

/-- The record written to the destination register of every gang that performs an operation. -/
def Team.writeRec (t : Team) (op : MatOp) (r : W128) : Team :=
  match op.treg with
  | none => t
  | some k => op.gangs.foldl (fun t p => t.modGang p.1 (fun g => g.wrT k r)) t

/-- CC.DNS written in every gang that performs an operation. -/
def Team.writeDns (t : Team) (op : MatOp) (d : Bool) : Team := op.gangs.foldl (fun t p => t.modGang p.1 (fun g => g.setCc ccDns d)) t

/-- The result of an operation put in its place (R299, R300). -/
def Team.putOut (t : Team) (op : MatOp) (o : MatOut) : Team :=
  match o with
  | .nothing => t
  | .slot x => match op.slots with | n :: _ => { t with slots := Tab.put t.slots n x } | [] => t
  | .factors u v => (match op.dst with | .record r => t.writeFactors (tFmt r) op.wblocks u v | _ => t)
  | .bytes a bs => t.setSpad a bs
  | .lanes l =>
    (match op.instr, op.gangs with
     | .tmv _ f, (g, _) :: _ =>
       t.modGang g (fun g => l.foldl (fun g p => g.wrLane (tFmt (op.recs.getD 0 0) == .f64) f.d p.1 p.2) g)
     | _, _ => t)

/-- A rank rounding completed (R64, R320, R321). -/
def Team.completeRound (t : Team) (op : MatOp) (rd : Nat → Byte) (abs : Bool) (slot : Nat) : Team :=
  let r := op.recs.getD 0 0
  let f := tFmt r
  let chain := op.chain 0
  let u := numCols f (t.factor rd chain r false)
  let v := numCols f (t.factor rd chain r true)
  let back := fun (l : List Nat) => l.filter (fun b => !t.returned b)
  let bad := (u ++ v).any (fun c => c.any (fun x => x.isNan || numInf x))
  let F := (fmtSpec f).getD specF32
  let res := if bad then .dense else rankRound F u v (tRank r) (specF32.decode ((op.words.headD 0).toNat % 2 ^ 32)) (!abs)
  let dense := fun (x : Slot) =>
    ((({ t with slots := Tab.put t.slots slot x }).writeRec op (slotRec .f32 slot)).writeDns op true).returnBlocks (back chain)
  match res with
  | .dense => (match t.tdenseOut rd chain r with | .slot x => dense x | _ => t)
  | .factors k uc vc =>
    if 16 < k then
      let um := Mat.transpose uc 32
      let vm := Mat.transpose vc 32
      dense (slotFrom (matOf 32 32 (fun i j => roundTo .f32 (contract f k (um.row i) (vm.row j)))))
    else
      let keep := chain.take (blocksFor k)
      let t := match t.pool with | some p => if k = 0 then t else t.linkChain p keep | none => t
      let t := t.writeFactors f keep (roundCols f uc) (roundCols f vc)
      let nr := match t.pool with | some p => if k = 0 then zeroRec f else p.chainRec f k keep | none => zeroRec f
      (((t.dropSlot .f32 slot).writeRec op nr).writeDns op false).returnBlocks (back (chain.drop (blocksFor k)))

/-- An operation completed: its result, its record, CC.DNS, and the blocks it returns (R61, R299). A block that has been returned
by another record since the issue is not returned again (R59). -/
def Team.completeMat (t : Team) (n : Nat) (op : MatOp) (rd : Nat → Byte) : Team :=
  let t := { t with mops := Tab.del t.mops n }
  match op.dst with
  | .round slot => (t.completeRound op rd (match op.instr with | .trnd _ abs _ => abs | _ => false) slot).settleLate
  | .keep => (t.putOut op (op.out t rd)).settleLate
  | .record r =>
    let t := (t.putOut op (op.out t rd)).writeRec op r
    let t := match op.instr with | .tadd _ _ => t.writeDns op (tKind r == 1) | _ => t
    t.returnBlocks (op.ret.filter (fun b => !t.returned b))

/-- Whether an operation writes CC.DNS. -/
def MatOp.writesCc (op : MatOp) : Bool := match op.instr with | .tadd _ _ | .trnd _ _ _ => true | _ => false

/-- Whether an operation of a team may complete (R95, R96, R311, log entry 21): nothing earlier that reads or writes its
slots or writes CC is left, and no granule it reads or writes is pending. -/
def Team.matReady (t : Team) (n : Nat) (op : MatOp) : Bool :=
  t.mops.all (fun q => decide (n ≤ q.1) ||
    (!(op.slots.any (fun k => q.2.slots.contains k || q.2.rslots.contains k)) && !(op.rslots.any q.2.slots.contains) &&
     !(op.writesCc && q.2.writesCc && op.gangs.any (fun g => q.2.gangs.any (fun h => h.1 == g.1))))) &&
  (op.reads ++ op.writes).all (fun r => !t.pendingAt r.1 r.2)

/-- The A planes that a quarter operation skips (R67). -/
def skippedPlanes (rd : Nat → Byte) (a : W128) (q planes : Nat) : Nat :=
  let f := tFmt a
  let n := fmtPlanes f
  let rows := (List.range 8).flatMap (fun i => (List.range 32).map (fun j => (planeElem rd a (8 * q + i) j).m))
  ((List.range planes).filter (fun p => rows.all (fun m => !bitAt m (n - 1 - p)))).length

/-- PLANESKIP and ZEROTILE (R67, R256): the quarter operations of `MMA`, and of a `TMUL` of two dense tiles. Whether a `TMUL` with
a KIND 00 or a low-rank side performs quarter operations that count, the spec does not say: in the model it performs none (log
entry 26). -/
def State.countSkips (s : State) (core : Nat) (op : MatOp) (rd : Nat → Byte) : State :=
  let a := op.recs.getD 0 0
  let b := op.recs.getD 1 0
  let quarters : List (Nat × Nat) := match op.instr with
    | .mma _ _ => (List.range 4).filterMap (fun q =>
        if bits (op.words.getD 0 0).toNat (8 * q) 8 = 0 then none else some (q, fwPlanes (op.words.getD (1 + q) 0)))
    | .tmul _ _ => if tKind a = 1 && tKind b = 1 then (List.range 4).map (fun q => (q, fmtPlanes (tFmt a))) else []
    | _ => []
  quarters.foldl (fun s (q, n) =>
    if tKind a = 0 || tKind b = 0 then s.perfAdd core 7 1
    else
      let k := skippedPlanes rd a q n
      let s := if k = 0 then s else s.perfAdd core 6 k
      if k = n then s.perfAdd core 7 1 else s) s

end Sys2Proof.Machine
end

