-- ==== Sys2Proof/Machine/Tiles.lean ====
section
/-! DEFINITION. Instructions on tile records, the factor pool and slots that act at issue: `TDEF`, `TLDR`, `TSTR`, `TGET`,
`TPOOL`, `TFREE`, `TZERO`, `ACCREL`, `MBATCH`, `MWAIT` (R304 to R308, R314), and `STASH` (R282).
Readings of the spec that this file follows: log entries 36 and 38. -/

namespace Sys2Proof.Machine

open Sys2Proof

/-- A t register of the issuing gang written at issue: the chain its record owned is returned (R300). -/
def State.writeTile (s : State) (i : Issuer) (reg : Nat) (r : W128) (ret : List Nat) : State :=
  (s.passWith i (fun g => g.wrT reg r)).modTeam i.unit.team (fun t => t.returnBlocks ret)

/-- `TDEF` (R304). -/
def execTdef (h : Hdr) (kind : TdefKind) (fmt : Fmt) (f : FmtT) (s : State) : Res :=
  s.gangOp h (fun s i => do
    illegalOperandIf (!tOk f.d)
    i.tileStall [f.d] []
    let d := tIdx f.d
    let old := i.g.rdT d
    let ret ← i.ownedBy d old
    match kind with
    | .zero => .ok (s.writeTile i d (zeroRec fmt) ret)
    | .acc =>
      illegalOperandIf (!(fmt == .i8 || fmt == .f32 || fmt == .f64))
      .ok (s.writeTile i d (slotRec fmt 0xFFFF) ret)
    | .dense =>
      illegalOperandIf (!sOk f.a || (fmt == .l6 && !sSrcOk f.b))
      let u := (i.g.rdS (sIdx f.a)).toNat
      let scale := if fmt = .l6 then bits (i.g.rdScalar f.b).toNat 0 8 else 0
      illegalOperandIf (decide (2 ^ 24 ≤ u) || u % 256 != 0 || decide (i.tm.spadSize < u + setBytes fmt 32))
      .ok (s.writeTile i d (mkRec 1 32 fmt 0 u 0 0xFFFF 0 scale) ret))

/-- The address of `TLDR` and `TSTR`, and whether it is global (R305). -/
def tileAddress (i : Issuer) (f : FmtT) : Except Stop (Bool × Nat) := do
  illegalOperandIf (f.c != .imm 0 && f.c != .imm 1)
  let gl := f.c == .imm 1
  illegalOperandIf (!tOk f.d || !sOk f.a)
  let a := (i.g.rdS (sIdx f.a) + f.imm.signExtend 64).toNat
  trapIf (a % 16 != 0) cIllegalOperand (BitVec.ofNat 64 a)
  .ok (gl, a)

/-- `TLDR` (R305). -/
def execTldr (h : Hdr) (f : FmtT) (s : State) : Res :=
  s.gangOp h (fun s i => do
    let (gl, a) ← tileAddress i f
    i.tileStall [f.d] []
    let d := tIdx f.d
    let ret ← i.ownedBy d (i.g.rdT d)
    let (v, s) ← (if gl then
        (do globalSpaceOk [{ lane := 0, va := a, n := 16 }]
            let (vals, s) ← s.globalLoad i .weak .team [{ lane := 0, va := a, n := 16 }]
            .ok ((vals.headD (0, 0)).2, s))
      else
        (do trapIf (decide (i.tm.spadSize < a + 16)) cProtection (BitVec.ofNat 64 a)
            if i.tm.pendingAt a 16 then .error (.retry false) else .ok (i.tm.spadNat a 16, s)))
    let r : W128 := BitVec.ofNat 128 v
    tileTrapIf (!i.tm.recOk false r) d
    .ok (s.writeTile i d r (if (i.tm.owned r).headD 0xFFFF = ret.headD 0xFFFE then [] else ret)))

/-- `TSTR` (R305). -/
def execTstr (h : Hdr) (f : FmtT) (s : State) : Res :=
  s.gangOp h (fun s i => do
    let (gl, a) ← tileAddress i f
    i.tileStall [f.d] []
    let bs := leBytes 16 (i.g.rdT (tIdx f.d)).toNat
    if gl then
      globalSpaceOk [{ lane := 0, va := a, n := 16 }]
      let s ← s.globalStore i .weak [{ lane := 0, va := a, n := 16 }] (fun _ => bs)
      .ok (s.passUnit i)
    else
      i.tm.spadWriteCheck a 16
      .ok ((s.passUnit i).modTeam i.unit.team (fun t => t.setSpad a bs)))

/-- The part of a record that `TGET` reads (R306). -/
def tgetValue (part : TgetPart) (r : W128) : W64 :=
  match part with
  | .lo => r.extractLsb' 0 64
  | .hi => r.extractLsb' 64 64
  | .kind => BitVec.ofNat 64 (tKind r)
  | .rank => BitVec.ofNat 64 (tRank r)

/-- `TGET` (R306). -/
def execTget (h : Hdr) (part : TgetPart) (f : FmtT) (s : State) : Res :=
  s.gangOp h (fun s i => do
    illegalOperandIf (!sOk f.d || !tOk f.a)
    i.tileStall [f.a] []
    .ok (s.passLate i h.la.toNat [(.s (sIdx f.d), tgetValue part (i.g.rdT (tIdx f.a)))]))

/-- Whether a pool of n blocks fits a region (R57). -/
def poolFits (size block n : Nat) : Bool := decide (linkBytes n + n * block ≤ size)

/-- Whether some block of the team's pool is not free (R57). -/
def Team.poolInUse (t : Team) : Bool := match t.pool with | some p => p.free.length != p.count | none => false

/-- `TPOOL` (R57, R308). -/
def execTpool (h : Hdr) (fmt : Fmt) (f : FmtT) (s : State) : Res :=
  s.gangOp h (fun s i => do
    illegalOperandIf (!sOk f.a || !sOk f.b)
    illegalOperandIf i.tm.poolInUse
    let base := (i.g.rdS (sIdx f.a)).toNat
    let size := (i.g.rdS (sIdx f.b)).toNat
    if size = 0 then .ok ((s.passUnit i).modTeam i.unit.team (fun t => { t with pool := none }))
    else
      let block := colBlock fmt
      let n := ((List.range 4096).filter (fun k => poolFits size block (k + 1))).length
      illegalOperandIf (base % 256 != 0 || n = 0 || decide (4095 < n))
      trapIf (decide (i.tm.spadSize < base + size)) cProtection (BitVec.ofNat 64 base)
      trapIf (({ i.tm with pool := none } : Team).guarded base (linkBytes n)) cProtection (BitVec.ofNat 64 base)
      i.tm.landingCheck [(base, linkBytes n)]
      let links := (List.range n).flatMap (fun k => leBytes 2 (if k + 1 < n then k + 1 else 0xFFFF))
      let pad := List.replicate (linkBytes n - 2 * n) (0 : Byte)
      .ok ((s.passUnit i).modTeam i.unit.team (fun t =>
        { (t.setSpad base (links ++ pad)) with
            pool := some { base := base, fmt := fmt, block := block, count := n, free := List.range n } })))

/-- The wait of `ACCREL` and `TZERO` on a slot (R63, log entry 21): every operation that reads or writes it completes. -/
def Team.slotWait (t : Team) (n : Nat) : Except Stop Unit :=
  if t.mops.any (fun q => q.2.slots.contains n || q.2.rslots.contains n) then .error (.retry true) else .ok ()

/-- `TZERO` (R307). -/
def execTzero (h : Hdr) (f : FmtT) (s : State) : Res :=
  s.gangOp h (fun s i => do
    illegalOperandIf (!tOk f.d)
    i.tileStall [f.d] (if tLoc (i.g.rdT (tIdx f.d)) = 1 then [] else [f.d])
    let r ← i.tile true f.d
    match srcSlots r with
    | n :: _ =>
      i.tm.slotWait n
      .ok ((s.writeTile i (tIdx f.d) (zeroRec (tFmt r)) []).modTeam i.unit.team (fun t => t.dropSlot (tFmt r) n))
    | [] => .ok (s.writeTile i (tIdx f.d) (zeroRec (tFmt r)) (i.tm.owned r)))

/-- `TFREE` (R59, R307). -/
def execTfree (h : Hdr) (f : FmtT) (s : State) : Res :=
  s.gangOp h (fun s i => do
    illegalOperandIf (!tOk f.d)
    i.tileStall [f.d] [f.d]
    let r ← i.tile true f.d
    tileTrapIf (tLoc r == 1) (tIdx f.d)
    .ok (s.writeTile i (tIdx f.d) (zeroRec (tFmt r)) (i.tm.owned r)))

/-- `ACCREL` (R63, R314). -/
def execAccrel (h : Hdr) (f : FmtT) (s : State) : Res :=
  s.gangOp h (fun s i => do
    illegalOperandIf (!tOk f.d)
    i.tileStall [f.d] []
    let r ← i.tile false f.d
    tileTrapIf (tLoc r != 1) (tIdx f.d)
    match srcSlots r with
    | [] => .ok (s.passUnit i)
    | n :: _ =>
      i.tm.slotWait n
      .ok ((s.passWith i (fun g => g.wrT (tIdx f.d) (slotRec (tFmt r) 0xFFFF))).modTeam i.unit.team (fun t => t.dropSlot (tFmt r) n)))

/-- The last batch of a gang that has completed with every earlier one (R155). -/
def Team.batchDone (t : Team) (gang : Nat) : Nat :=
  let open_ := t.mops.flatMap (fun q => (q.2.gangs.filter (fun p => p.1 == gang)).map (·.2))
  open_.foldl (fun m b => min m (b - 1)) (t.gang gang).lastBatch

/-- `MBATCH` (R155, R314). -/
def execMbatch (h : Hdr) (f : FmtT) (s : State) : Res :=
  s.gangOp h (fun s i => do
    illegalOperandIf (!sOk f.d)
    if 16 ≤ i.g.lastBatch - i.tm.batchDone i.unit.gang then .error (.retry true)
    else .ok (s.passWith i (fun g => { (g.wrS (sIdx f.d) (BitVec.ofNat 64 (i.g.lastBatch + 1))) with lastBatch := i.g.lastBatch + 1 })))

/-- `MWAIT` (R155, R314). -/
def execMwait (h : Hdr) (f : FmtT) (s : State) : Res :=
  s.gangOp h (fun s i => do
    illegalOperandIf (!natSrcOk f.a)
    let n := (i.g.rdScalar f.a).toNat
    illegalOperandIf (n = 0 || decide (i.g.lastBatch < n))
    if n ≤ i.tm.batchDone i.unit.gang then .ok (s.passUnit i) else .error (.wait (.batch n)))

-- STASH

/-- The bytes of an element of a destination format (R282). -/
def stashBytes : Fmt → Nat
  | .l6 | .i8 => 1
  | .bf16 | .f16 => 2
  | .f32 | .i32 => 4
  | .f64 => 8

/-- The conversion of a slot element to a format (R85). -/
def accConvert (src dst : Fmt) (x : Num) : Nat × Exc :=
  match fmtSpec dst with
  | some F => F.round .rne x
  | none =>
    if src = .i8 then
      let v := numInt x
      if dst = .i8 then
        let c := max (-128) (min 127 v)
        (patOf 8 c, if c = v then 0 else Exc.nv)
      else (patOf 32 v, 0)
    else (0, 0)

/-- The formats that a record may be read in by `STASH` and `ACCRD` (R282, R313). -/
def slotFmtOk (r : W128) (dst : Fmt) : Bool :=
  if tFmt r = .i8 then dst == .i8 || dst == .i32 else dst == .bf16 || dst == .f16 || dst == .f32 || dst == .f64

/-- The elements of a record in a destination format, row by row, with their exceptions (R282). -/
def Team.stashElems (t : Team) (r : W128) (dst : Fmt) : List (List (Nat × Exc)) :=
  (List.range 32).map (fun i => (List.range 32).map (fun j =>
    if tKind r = 0 then (0, 0)
    else if tLoc r = 0 then (rawBits (tFmt r) (planeElem t.spadByte r i j), 0)
    else match tSlot r with
      | some n => accConvert (tFmt r) dst (slotElem (t.slot n) i j)
      | none => (0, 0)))

/-- One copy of a tile written to global memory, line by line. -/
def State.stashCopy (s : State) (i : Issuer) (va : Nat) (bs : List Byte) : Except Stop State := do
  globalSpaceOk [{ lane := 0, va := va, n := bs.length }]
  let accs : List LaneAcc := (List.range (bs.length / 128)).map (fun k => { lane := 0, va := va + 128 * k, n := 128 })
  let ps ← s.storeCheck (some i.tm.core) i.tm.ctx i.viewer accs
  let s := s.touchPages i.tm.core ps (accs.filter (fun x => s.direct i.viewer (pageOf ps x.va)))
  .ok ((s.modLaunch i.tm.launch (fun L => { L with poolNeed := 0 })).storeBytes (some i.tm.core) i.viewer ps
    ((List.range bs.length).zip bs |>.map (fun q => (va + q.1, q.2))))

/-- A fault of the second copy carries PLAINDONE (R203). -/
def plainInfo (done : Bool) (r : Except Stop State) : Except Stop State :=
  match r with
  | .error (.trap c a i) => .error (.trap c a (if done then 1 else i))
  | .error (.page b a i) => .error (.page b a (if done then 1 else i))
  | x => x

/-- `STASH` (R203, R282): the plain copy, then the transposed one; where the second copy cannot be written, the instruction
issues again with PLAINDONE set and writes only that one. The opcode map shows no FN for it and R282 a format: the model follows
R282 (log entry 36). Where the two ranges overlap, TRADDR holds the first address (log entry 36). -/
def execStash (h : Hdr) (fmt : Fmt) (f : FmtM) (s : State) : Res :=
  s.gangOp h (fun s i => do
    i.tileStall [f.d] []
    let r ← i.tileAt false f.d
    tileTrapIf (tOk f.d && decide (2 ≤ tKind r)) (tIdx f.d)
    illegalOperandIf (!tOk f.d || !sOk f.a || !sOk f.b)
    illegalOperandIf (tKind r == 1 && (if tLoc r = 0 then fmt != tFmt r else !slotFmtOk r fmt))
    let off := f.off.signExtend 64
    let p := (i.g.rdS (sIdx f.a) + off).toNat
    let q := (i.g.rdS (sIdx f.b) + off).toNat
    let e := stashBytes fmt
    trapIf (p % 128 != 0) cIllegalOperand (BitVec.ofNat 64 p)
    trapIf (q % 128 != 0) cIllegalOperand (BitVec.ofNat 64 q)
    trapIf (overlaps p (1024 * e) q (1024 * e)) cIllegalOperand (BitVec.ofNat 64 p)
    i.tileStall [] [f.d]
    let runs := i.tm.srcRuns r
    if runs.any (fun x => i.tm.pendingAt x.1 x.2 || i.tm.mops.any (fun m => m.2.writes.any (fun y => overlaps x.1 x.2 y.1 y.2))) then
      .error (.retry false)
    else
      let rows := i.tm.stashElems r fmt
      let exc := rows.foldl (fun e row => row.foldl (fun e x => e ||| x.2) e) 0
      let bad := (List.range 32).filter (fun k => (rows.getD k []).any (fun x => enabledExc i.g.fpmode x.2))
      let plain := rows.flatMap (fun row => row.flatMap (fun x => leBytes e x.1))
      let turned := (List.range 32).flatMap (fun j => rows.flatMap (fun row => leBytes e (row.getD j (0, 0)).1))
      let done := i.g.plainDone
      if !done && bad != [] then .error (.trapEach cArith [(i.unit.gang, BitVec.ofNat 64 (maskOf bad))] exc)
      else if done then
        let s ← plainInfo true (s.stashCopy i q turned)
        .ok (s.passUnit i)
      else
        let s ← s.stashCopy i p plain
        let s := s.modGang i.unit.team i.unit.gang (fun g => g.orFlags exc)
        match s.stashCopy i q turned with
        | .ok s => .ok (s.passUnit i)
        | .error _ =>
          .ok ((s.modGang i.unit.team i.unit.gang (fun g => { g with plainDone := true })).waitAll (i.performer (some h)) (.retry false)))

end Sys2Proof.Machine
end

