-- ==== Sys2Proof/Machine/Collective.lean ====
section
/-! DEFINITION. Collectives (R163 to R167, R335 to R338, R383): `COLL`, `SPANMAP`, `SPANST`, and the events in which a
collective is granted its staging, receives chunks, and times out. How chunks travel between devices is log entry 23. -/

namespace Sys2Proof.Machine

open Sys2Proof

-- rings (R163, R338)

def State.ring (s : State) (ctx g : Nat) : Ring := Tab.get (s.ctx ctx).rings {} g
def State.modRing (s : State) (ctx g : Nat) (f : Ring → Ring) : State :=
  s.modCtx ctx (fun c => { c with rings := Tab.adjust c.rings {} g f })

/-- The ring order of a group: group 0 is by default every rank in rank order. -/
def State.ringOrder (s : State) (ctx g : Nat) : List Nat :=
  match (s.ring ctx g).ranks with
  | some l => l
  | none => if g = 0 then List.range s.span.size else []

-- elements

/-- The type in which a collective's elements are combined (R163); 16-bit elements are the low halves of packed values. -/
def collTy : Fmt → Ty
  | .bf16 => .bf16x2
  | .f16 => .h16x2
  | .f64 => .f64
  | _ => .f32

/-- The bounds of chunk c of n elements over p positions (R165). -/
def chunkLo (n p c : Nat) : Nat := c * n / p
def chunkLen (n p c : Nat) : Nat := (c + 1) * n / p - c * n / p

/-- Elements of a collective's buffer. -/
def Team.collElems (t : Team) (c : Coll) (lo n : Nat) : List W64 :=
  let e := stashBytes c.fmt
  (List.range n).map (fun k => BitVec.ofNat 64 (t.spadNat (c.base + (lo + k) * e) e))

/-- Elements written into a collective's buffer. -/
def Team.setElems (t : Team) (c : Coll) (lo : Nat) (xs : List W64) : Team :=
  t.setSpad (c.base + lo * stashBytes c.fmt) (xs.flatMap (fun x => leBytes (stashBytes c.fmt) x.toNat))

/-- The span rank at a ring position. -/
def Coll.rankAt (c : Coll) (pos : Nat) : Nat := c.ring.getD (pos % c.ring.length) 0
def Coll.size (c : Coll) : Nat := c.ring.length
/-- The contribution of a ring position (R77, R165). -/
def Coll.input (c : Coll) (pos : Nat) (x : W64) : Contrib := contribOf (collTy c.fmt) (c.rankAt pos) x.toNat

/-- A partial fold as it travels: a NaN that a contributor supplied carries that rank, one that a step produced has its
sign set (log entry 23). -/
def foldOut (t : Ty) (c : Contrib) : W64 :=
  match tyElems t with
  | [] => BitVec.ofNat 64 c.val
  | l => BitVec.ofNat 64 (packElems ((l.zip c.nans).map (fun ((F, sh), n) =>
      ((match n with
        | some i => F.nanPayload i
        | none => let x := bits c.val sh F.width; if F.isNan x then F.qnan + F.signBit true else x), sh))))

def foldIn (t : Ty) (x : W64) : Contrib :=
  { val := x.toNat,
    nans := (tyElems t).map (fun (F, sh) =>
      let y := bits x.toNat sh F.width
      if F.isNan y && !bitAt y (F.width - 1) then some (bits y 0 (F.p - 2)) else none) }

/-- One step of a fold (R165). -/
def Coll.step (c : Coll) (x y : Contrib) : Contrib := (redStep .rne c.red (collTy c.fmt) x y).1

/-- The result of a fold (R77). -/
def Coll.result (c : Coll) (x : Contrib) : W64 := BitVec.ofNat 64 (redResult (collTy c.fmt) x)

/-- Whether a buffer takes the latency path (R166). -/
def Coll.small (c : Coll) : Bool := decide (c.n * stashBytes c.fmt ≤ 64)

/-- The chunk whose fold a ring position starts, or ends where it is alone (R165). -/
def Coll.first (c : Coll) : Nat := (c.pos + c.size - 1) % c.size

/-- The chunks, or the blocks of an all-to-all, that must reach this device's buffer (R336); of a reduce-scatter also those that
it folds and passes on, or the others' folds would never end. -/
def Coll.wanted (c : Coll) : List Nat :=
  let all := (List.range c.size).filter (fun k => c.op == .alltoall || chunkLen c.n c.size k != 0)
  match c.op with
  | .allreduce => all
  | .redscat => all.filter (fun k => c.size == 1 || k != c.first)
  | .allgather | .alltoall => all.filter (· != c.pos)
  | .bcast => if c.root = c.pos then [] else all

-- sending

def State.collSend (s : State) (c : Coll) (pos : Nat) (kind : ChunkKind) (index : Nat) (xs : List W64) : State :=
  if pos % c.size = c.pos || xs = [] then s
  else s.sendTo (c.rankAt pos) (.chunk (c.rankAt pos) { ctx := (s.ctx c.ctx).asid, group := c.group, epoch := c.epoch, seq := c.seq, kind := kind, index := index, data := xs })

/-- The buffer of one position in the latency path. -/
def Coll.bufferOf (c : Coll) (own : List W64) (pos : Nat) : List W64 := if pos = c.pos then own else Tab.get c.direct [] pos

/-- The result of the latency path from the whole buffers, in ascending ring position (R166, R336). -/
def Coll.directResult (c : Coll) (own : List W64) : List W64 :=
  let p := c.size
  let fold := fun k =>
    match (List.range p).map (fun q => c.input q ((c.bufferOf own q).getD k 0)) with
    | [] => (0 : W64)
    | x :: r => c.result (r.foldl c.step x)
  let blk := c.n / p
  (List.range c.n).map (fun k =>
    match c.op with
    | .allreduce => fold k
    | .redscat => if chunkLo c.n p c.pos ≤ k && k < chunkLo c.n p c.pos + chunkLen c.n p c.pos then fold k else own.getD k 0
    | .allgather => (c.bufferOf own (((List.range p).find? (fun q => decide (chunkLo c.n p q ≤ k) && decide (k < chunkLo c.n p q + chunkLen c.n p q))).getD 0)).getD k 0
    | .bcast => (c.bufferOf own c.root).getD k 0
    | .alltoall => (c.bufferOf own (k / blk)).getD (c.pos * blk + k % blk) 0)

-- completion

/-- A collective ends: its granules clear, and it makes its one arrival (R165, R167, R337). -/
def State.collEnd (s : State) (id : Nat) (c : Coll) (err : Byte) : State :=
  let s := s.modTeam c.team (fun t =>
    (t.dropPending (granules c.base (c.n * stashBytes c.fmt))).modAbar c.abar (fun b => b.arrive err))
  { s with colls := Tab.del s.colls id }

/-- A collective with nothing left to receive ends. -/
def State.collCheck (s : State) (id : Nat) : State :=
  match Tab.find? s.colls id with
  | none => s
  | some c =>
    if c.small then
      if (Tab.keys c.direct).length + 1 < c.size then s
      else
        let s := s.modTeam c.team (fun t => t.setElems c 0 (c.directResult (t.collElems c 0 c.n)))
        s.collEnd id c 0
    else if c.wanted.all c.landed.contains then s.collEnd id c 0
    else s

def State.collLand (s : State) (id : Nat) (c : Coll) (k lo : Nat) (xs : List W64) : State :=
  let s := s.modTeam c.team (fun t => t.setElems c lo xs)
  { s with colls := Tab.modify s.colls id (fun c => { c with landed := k :: c.landed }) }

/-- A chunk taken by the granted collective that it names (R165, R166, R336); one whose timeout has passed takes none (R167). -/
def State.collTake (s : State) (id : Nat) (ch : Chunk) : State :=
  match (Tab.find? s.colls id).filter (fun c => !c.expired) with
  | none => s
  | some c =>
    match s.team? c.team with
    | none => s
    | some t =>
      let p := c.size
      let k := ch.index
      let lo := chunkLo c.n p k
      let len := chunkLen c.n p k
      let xs := ch.data.map (fun x => BitVec.ofNat 64 (x.toNat % 2 ^ (8 * stashBytes c.fmt)))
      let reduces := c.op == CollOp.allreduce || c.op == CollOp.redscat
      let s := match ch.kind with
        | .direct =>
          if c.small && decide (k < p) && k != c.pos && xs.length == c.n then
            { s with colls := Tab.modify s.colls id (fun c => { c with direct := Tab.put c.direct k xs }) }
          else s
        | .reduce =>
          if c.small || !reduces || !decide (k < p) || xs.length != len || c.landed.contains k then s
          else
            let r := (xs.zip (t.collElems c lo len)).map (fun (a, x) => c.step (foldIn (collTy c.fmt) a) (c.input c.pos x))
            if k = c.pos then
              let out := r.map c.result
              let s := s.collLand id c k lo out
              if c.op = CollOp.allreduce then s.collSend c (c.pos + 1) .gather k out else s
            else
              let out := r.map (foldOut (collTy c.fmt))
              let (b, s) := s.pickBelow 2
              let s := if b = 0 then s else s.modTeam c.team (fun t => t.setElems c lo (r.map c.result))
              let s := if c.op = CollOp.allreduce then s else { s with colls := Tab.modify s.colls id (fun c => { c with landed := k :: c.landed }) }
              s.collSend c (c.pos + 1) .reduce k out
        | .gather =>
          if c.small || !(c.op == CollOp.allreduce || c.op == CollOp.allgather) || !decide (k < p) || k == c.pos || xs.length != len || c.landed.contains k then s
          else
            let s := s.collLand id c k lo xs
            if (c.pos + 1) % p = k then s else s.collSend c (c.pos + 1) .gather k xs
        | .move =>
          if c.small || !decide (k < p) || c.landed.contains k then s
          else match c.op with
            | .bcast => if c.root = c.pos || xs.length != len then s else s.collLand id c k lo xs
            | .alltoall => if k = c.pos || xs.length != c.n / p then s else s.collLand id c k (k * (c.n / p)) xs
            | _ => s
      s.collCheck id

/-- What a device does when its collective is granted: it sends what it starts, and alone in its ring it folds its own chunk
(R165, R166). -/
def State.collStart (s : State) (id : Nat) (c : Coll) (t : Team) : State :=
  let p := c.size
  let elems := fun k => t.collElems c (chunkLo c.n p k) (chunkLen c.n p k)
  let others := (List.range p).filter (· != c.pos)
  if c.small then others.foldl (fun s q => s.collSend c q .direct c.pos (t.collElems c 0 c.n)) s
  else match c.op with
    | .allreduce | .redscat =>
      let k := c.first
      if p = 1 then s.collLand id c k 0 ((elems k).map (fun x => c.result (c.input c.pos x)))
      else s.collSend c (c.pos + 1) .reduce k ((elems k).map (fun x => foldOut (collTy c.fmt) (c.input c.pos x)))
    | .allgather => s.collSend c (c.pos + 1) .gather c.pos (elems c.pos)
    | .bcast =>
      if c.root = c.pos then others.foldl (fun s q => (List.range p).foldl (fun s k => s.collSend c q .move k (elems k)) s) s else s
    | .alltoall => others.foldl (fun s q => s.collSend c q .move c.pos (t.collElems c (q * (c.n / p)) (c.n / p))) s

def chunkNames (ch : Chunk) (c : Coll) : Bool := ch.ctx == c.ctx && ch.group == c.group && ch.epoch == c.epoch && ch.seq == c.seq

/-- The held chunks that name a collective, taken in the order of their arrival (R383). -/
def State.collHeld (s : State) (id : Nat) (c : Coll) : State :=
  let mine := s.chunks.filter (fun ch => chunkNames ch c)
  mine.foldl (fun s ch => s.collTake id ch) { s with chunks := s.chunks.filter (fun ch => !chunkNames ch c) }

-- COLL

/-- Whether an operation and a format may stand together (R163). -/
def collFmtOk (op : CollOp) (f : Fmt) : Bool :=
  match op with
  | .allreduce | .redscat => f == .bf16 || f == .f16 || f == .f32 || f == .f64
  | _ => true

/-- `COLL` (R163, R335, R337). -/
def execColl (h : Hdr) (op : CollOp) (red : RedOp) (f : FmtT) (s : State) : Res :=
  s.wideOp h 0 [.team] (fun s w => do
    let g := w.rep
    let i := w.repIssuer
    let e := match f.e with | .s r => if r.toNat < 128 then some (g.rdS r.toNat).toNat else none | _ => none
    i.tileStall [f.a] []
    let r ← i.tileAt true f.a
    illegalOperandIf (tKind r != 1 || tLoc r != 0)
    illegalOperandIf (!tOk f.a || !sOk f.d || !natSrcOk f.b || !sOk f.c || e.isNone)
    let e := e.getD 0
    let n := bits e 0 21
    let root := bits e 32 8
    let grp := (g.rdScalar f.b).toNat
    let tmo := (g.rdS (sIdx f.c)).toNat
    let isRoot := op == .bcast
    illegalOperandIf (n = 0 || decide (2 ^ 20 < n) || bits e 21 11 != 0 || bits e 40 24 != 0 || (!isRoot && root != 0))
    illegalOperandIf (decide (64 ≤ grp) || tmo = 0 || decide (2 ^ 32 ≤ tmo))
    let ring := s.ringOrder w.tm.ctx grp
    let pos ← (match indexOf? (· == s.span.rank) ring with | some p => .ok p | none => .error (.trap cIllegalOperand 0 0))
    let rootPos ← (if isRoot then (match indexOf? (· == root) ring with | some p => .ok p | none => .error (.trap cIllegalOperand 0 0)) else .ok 0)
    illegalOperandIf (!collFmtOk op (tFmt r))
    illegalOperandIf (op == .alltoall && n % ring.length != 0)
    let abar ← w.tm.checkAbar (g.rdS (sIdx f.d))
    let bytes := n * stashBytes (tFmt r)
    w.tm.engineCheck true bytes [tU r]
    let sq := s.ring w.tm.ctx grp
    let c : Coll :=
      { ctx := w.tm.ctx, team := w.p.team, group := grp, epoch := sq.epoch, seq := sq.seq, op := op, red := red, fmt := tFmt r,
        n := n, base := tU r, root := rootPos, abar := abar, ring := ring, pos := pos }
    let s := (s.passAll w.p).modRing w.tm.ctx grp (fun x => { x with seq := x.seq + 1 })
    let (id, s) := s.fresh
    .ok { (s.modTeam w.p.team (fun t => t.addPending (granules (tU r) bytes))) with colls := Tab.put s.colls id c })

/-- Whether a collective is the first that waits for staging (R164). -/
def State.grantable (s : State) (id : Nat) (c : Coll) : Bool :=
  !c.granted && s.colls.all (fun p => p.2.granted || p.1 == id ||
    decide (c.group < p.2.group) || (c.group == p.2.group && (decide (c.seq < p.2.seq) || (c.seq == p.2.seq && decide (id < p.1)))))

/-- `COLL_STAGING_GRANT` (R164): the collective starts, and takes the chunks that were held for it. -/
def execCollStagingGrant (coll : Nat) (s : State) : Res :=
  match Tab.find? s.colls coll with
  | none => .refused .notEnabled
  | some c =>
    match s.team? c.team with
    | none => .refused .notEnabled
    | some t =>
      if !s.grantable coll c then .refused .notEnabled
      else
        let s := { s with colls := Tab.modify s.colls coll (fun c => { c with granted := true }) }
        .next (((s.collStart coll c t).collCheck coll).collHeld coll c)

/-- `CHUNK_ARRIVAL` (R165 to R167, R383): a chunk of an older epoch, of a collective that has ended, or of an empty context
slot is discarded; one of a newer epoch is held where the store of 256 of some wing has room, which all the chunks
that are held fill (log entry 23); one that comes before its collective is granted waits for it. -/
def execChunkArrival (c : Chunk) (s : State) : Res :=
  match s.slotOfAsid c.ctx with
  | none => .next s
  | some slot =>
  let c := { c with ctx := slot }
  let r := s.ring c.ctx c.group
  if c.epoch < r.epoch then .next s
  else if r.epoch < c.epoch then
    let n := s.chunks.length
    let (k, s) := if n < 256 then (1, s) else if 1024 ≤ n then (0, s) else s.pickBelow 2
    .next (if k = 0 then s else { s with chunks := s.chunks ++ [c] })
  else
    match List.find? (fun (p : Nat × Coll) => chunkNames c p.2) s.colls with
    | some (id, x) => .next (if x.granted then s.collTake id c else { s with chunks := s.chunks ++ [c] })
    | none => .next (if c.seq < r.seq then s else { s with chunks := s.chunks ++ [c] })

/-- `COLL_TIMEOUT` (R167, R201): a granted collective ends with TIMEOUT; one whose team is saved ends so when it is restored. -/
def execCollTimeout (coll : Nat) (s : State) : Res :=
  match Tab.find? s.colls coll with
  | none => .refused .notEnabled
  | some c =>
    if !c.granted || c.expired then .refused .notEnabled
    else if ((s.team? c.team).map (·.status)).getD .running = .saved then
      .next { s with colls := Tab.modify s.colls coll (fun c => { c with expired := true }) }
    else .next (s.collEnd coll c errTimeout)

/-- The collectives of a restored team whose timeout passed while it was saved end with TIMEOUT (R201). -/
def State.endExpired (s : State) (team : Nat) : State :=
  (s.colls.filter (fun p => p.2.team == team && p.2.expired)).foldl (fun s p => s.collEnd p.1 p.2 errTimeout) s

-- SPANMAP, SPANST

/-- `SPANMAP` (R163, R338, R383). -/
def execSpanmap (h : Hdr) (f : FmtT) (s : State) : Res :=
  s.gangOp h (fun s i => do
    illegalOperandIf (!sOk f.a || !natSrcOk f.b || !natSrcOk f.c)
    let g := (i.g.rdScalar f.b).toNat
    let p := (i.g.rdScalar f.c).toNat
    illegalOperandIf (decide (64 ≤ g) || decide (256 < p))
    let ctx := i.tm.ctx
    if s.colls.any (fun x => x.2.ctx == ctx && x.2.group == g) then .error (.retry true)
    else
      let a := (i.g.rdS (sIdx f.a)).toNat
      let accs : List LaneAcc := (List.range p).map (fun k => { lane := k, va := (a + k) % 2 ^ 64, n := 1 })
      globalSpaceOk accs
      let (vals, s) ← (if p = 0 then .ok ([], s) else s.globalLoad i .weak .team accs)
      let ranks := vals.map (·.2)
      illegalOperandIf (p != 0 && (ranks.any (fun r => decide (s.span.size ≤ r)) || decide (ranks.eraseDups.length ≠ ranks.length) ||
        !ranks.contains s.span.rank))
      let s := s.modRing ctx g (fun r => { ranks := if p = 0 then none else some ranks, epoch := r.epoch + 1, seq := 0 })
      let e := (s.ring ctx g).epoch
      .ok { (s.passUnit i) with chunks := s.chunks.filter (fun c => !(c.ctx == ctx && c.group == g && decide (c.epoch < e))) })

/-- A word of the span state (R339). -/
def State.spanWord (s : State) (w : Nat) : W64 :=
  if w < 4 then s.span.live.extractLsb' (64 * w) 64
  else BitVec.ofNat 64 (s.span.rank % 2 ^ 8 + s.span.size % 2 ^ 9 * 2 ^ 8 + s.span.epoch.toNat * 2 ^ 32)

/-- `SPANST` (R339). -/
def execSpanst (h : Hdr) (f : FmtT) (s : State) : Res :=
  s.gangOp h (fun s i => do
    let w := match f.b with | .imm k => if k.toNat ≤ 4 then some k.toNat else none | _ => none
    illegalOperandIf (!sOk f.d || w.isNone)
    .ok (s.passWith i (fun g => g.wrS (sIdx f.d) (s.spanWord (w.getD 0)))))

end Sys2Proof.Machine
end

