-- ==== Sys2Proof/Machine/GroupOps.lean ====
section
/-! DEFINITION. Operations on named groups that instructions and gang ends share (R129 to R138): handles, joining,
leaving, arriving, and the completion of a phase. -/

namespace Sys2Proof.Machine

open Sys2Proof

/-- The handle of R129. -/
def handleOf (slot : Nat) (gen : BitVec 16) : W32 := BitVec.ofNat 32 (slot + gen.toNat * 2 ^ 12 + 2 ^ 28)
def handleSlot (h : W32) : Nat := bits h.toNat 0 12
def handleGen (h : W32) : Nat := bits h.toNat 12 16

/-- The handle checks of R129 and R325, in order. -/
def State.checkHandle (s : State) (ctx : Nat) (h : W32) : Except Stop Nat := do
  illegalOperandIf (h = 0 || bits h.toNat 28 4 != 1)
  let g := s.group ctx (handleSlot h)
  trapIf (!g.used || g.gen.toNat != handleGen h) cStale 0 (h.setWidth 64)
  .ok (handleSlot h)

/-- The member that a gang is in a group. -/
def Group.member? (g : Group) (team gang : Nat) : Option Member := g.members.find? (fun m => m.team == team && m.gang == gang)

/-- The members counted in the open phase (R133). -/
def Group.counted (g : Group) : List Member := g.members.filter (fun m => decide (m.from_ ≤ g.phase))

/-- A member list with one more member, in ascending member slot. -/
def insertMember (l : List Member) (m : Member) : List Member :=
  l.filter (fun x => decide (x.slot < m.slot)) ++ [m] ++ l.filter (fun x => decide (m.slot < x.slot))

/-- The lowest free member slot. -/
def Group.freeSlot (g : Group) : Nat := ((List.range (g.members.length + 1)).find? (fun k => !g.members.any (fun m => m.slot == k))).getD 0

/-- A change of one member. -/
def Group.modMember (g : Group) (team gang : Nat) (f : Member → Member) : Group :=
  { g with members := g.members.map (fun m => if m.team = team && m.gang = gang then f m else m) }

/-- Whether the open phase is complete: every gang counted in it has arrived or is leaving (R134). -/
def Group.phaseDue (g : Group) : Bool :=
  g.used && !g.broken && !g.counted.isEmpty && g.counted.all (fun m => m.leaving || m.arrived.isSome)

/-- Instruction, operation and type of an arrival, which must agree within a phase (R134). -/
def arrivalKind : Instr → Nat × Nat × Nat
  | .gbar _ _ => (0, 0, 0)
  | .gvote _ all _ => (1, if all then 1 else 0, 0)
  | .gred _ op f => (2, valToCode redTab op, f.imm.toNat % 32)
  | _ => (3, 0, 0)

/-- The result of a phase (R134, R329): the phase number, the vote, or the fold over member slots (R77, R88). -/
def phaseResult (g : Group) (ins : Instr) : W64 :=
  let arr := g.counted.filterMap (fun m => if m.leaving then none else m.arrived)
  match ins with
  | .gvote _ all _ => if (if all then arr.all (fun a => a.val != 0) else arr.any (fun a => a.val != 0)) then 1 else 0
  | .gred _ op f =>
    let t := gredTyOf f
    let cs := g.counted.map (fun m => contribOf t m.slot
      (match m.leaving, m.arrived with
       | false, some a => a.val.toNat % 2 ^ tyWidth t
       | _, _ => redIdentity op t))
    (match cs with
     | [] => 0
     | c :: r => BitVec.ofNat 64 (redResult t (redFold .rne op t c r).1))
  | _ => BitVec.ofNat 64 g.phase

/-- The lookahead of an arrival's instruction (R329). -/
def arrivalLa : Instr → Nat
  | .gvote h _ _ | .gred h _ _ => h.la.toNat
  | _ => 0

/-- A gang that waited in an arrival receives its phase's result, with BRK clear, and goes on (R325, R329); its core's L1
copies go, as the completion is an acquire at DEVICE visibility (R18, R117, R118). -/
def State.deliver (s : State) (m : Member) (a : Arrival) (x : W64) : State :=
  let s := s.modGang m.team m.gang (fun g =>
    (g.setCc ccBrk false).passLate g.liveSlices (arrivalLa a.instr) (match a.dest with | some d => [(.s d, x)] | none => []))
  match s.team? m.team with
  | some t => s.dropL1 t.core
  | none => s

/-- The phases of a group that are due complete (R134). Completing one phase can complete the next at once, where every
gang counted in it joined late and has arrived. -/
def State.completePhases (s : State) (ctx slot fuel : Nat) : State :=
  match fuel with
  | 0 => s
  | f + 1 =>
    let g := s.group ctx slot
    if !g.phaseDue then s
    else
      let here := g.counted.filter (fun m => !m.leaving)
      let stay := (g.members.filter (fun m => !m.leaving)).map (fun m => if m.from_ ≤ g.phase then { m with arrived := none } else m)
      let s := s.modGroup ctx slot (fun g => { g with phase := g.phase + 1, members := stay, used := !stay.isEmpty })
      let arr : List (Member × Arrival) := here.filterMap (fun m => m.arrived.map (fun a => (m, a)))
      let s := match arr with
        | [] => s
        | (_, a) :: r =>
          if r.any (fun p => arrivalKind p.2.instr != arrivalKind a.instr) then
            arr.foldl (fun s (p : Member × Arrival) =>
              let q := s.gang p.1.team p.1.gang
              s.takeTrap p.1.team p.1.gang q.liveSlices (q.trapEntry none q.liveSlices cRendezvous 0 0)) s
          else arr.foldl (fun s (p : Member × Arrival) => s.deliver p.1 p.2 (phaseResult g p.2.instr)) s
      s.completePhases ctx slot f

/-- A member leaves (R133, R136): at once from a broken group, else counted as arrived in the open phase and removed when
that phase completes. -/
def State.leaveGroup (s : State) (ctx slot team gang : Nat) : State :=
  let g := s.group ctx slot
  if g.broken then
    s.modGroup ctx slot (fun g =>
      let ms := g.members.filter (fun m => !(m.team == team && m.gang == gang))
      { g with members := ms, used := !ms.isEmpty })
  else
    (s.modGroup ctx slot (fun g => g.modMember team gang (fun m => { m with leaving := true }))).completePhases ctx slot 4

/-- A gang that ends leaves every group it is a member of (R17, R133, R136). -/
def State.leaveAll (s : State) (ctx team gang : Nat) : State :=
  (Tab.keys (s.ctx ctx).groups).foldl (fun s k =>
    match (s.group ctx k).member? team gang with
    | some m => if m.leaving then s else s.leaveGroup ctx k team gang
    | none => s) s

end Sys2Proof.Machine
end

