-- ==== Sys2Proof/Machine/Queues.lean ====
section
/-! DEFINITION. Team queues: `QDEF`, `QPUSH` and `QPOP` (R139 to R142, R332, R333). -/

namespace Sys2Proof.Machine

open Sys2Proof

def Team.queue? (t : Team) (q : Nat) : Option QDef := Tab.find? t.queues q
def Team.modQueue (t : Team) (q : Nat) (f : QDef → QDef) : Team := { t with queues := Tab.modify t.queues q f }

/-- Whether some producer of a queue has not exited (R141). -/
def Team.producing (t : Team) (q : QDef) : Bool := (onesOf 32 q.mask).any (fun i => (t.gang i).isLive)

/-- The oldest entry of a queue (R333). -/
def Team.queueHead (t : Team) (q : QDef) : W64 := BitVec.ofNat 64 (t.spadNat (q.ring + 8 * (q.pops % q.depth)) 8)

/-- A queue after its oldest entry has been taken: one unit of allowance returns to the gang that pushed it (R140). -/
def QDef.popped (q : QDef) : QDef :=
  match q.owners with
  | [] => q
  | o :: r => { q with pops := q.pops + 1, owners := r, allow := Tab.adjust q.allow 0 o (· + 1) }

/-- A queue after a push by a gang (R140). -/
def QDef.pushed (q : QDef) (gang : Nat) : QDef :=
  { q with pushes := q.pushes + 1, owners := q.owners ++ [gang], allow := Tab.adjust q.allow 0 gang (· - 1) }

/-- Blocked pops of a queue are served in the order in which they blocked, while there are entries or no producer is left
(R140, R141). -/
def State.serveQueue (s : State) (team q fuel : Nat) : State :=
  match fuel with
  | 0 => s
  | f + 1 =>
    match s.team? team with
    | none => s
    | some t =>
      match t.queue? q with
      | none => s
      | some d =>
        match d.waiters, d.owners with
        | [], _ => s
        | (gi, r) :: rest, _ :: _ =>
          (((s.modTeam team (fun t => t.modQueue q (fun d => { d.popped with waiters := rest }))).release team gi
            (fun g => g.wrS r (t.queueHead d))).serveQueue team q f)
        | (gi, r) :: rest, [] =>
          if t.producing d then s
          else ((s.modTeam team (fun t => t.modQueue q (fun d => { d with waiters := rest }))).release team gi
            (fun g => (g.wrS r 0).setCc ccZ true)).serveQueue team q f

/-- Every queue of a team served; a gang that has exited may have been the last producer (R141). -/
def State.serveQueues (s : State) (team : Nat) : State :=
  match s.team? team with
  | none => s
  | some t => (Tab.keys t.queues).foldl (fun s q => s.serveQueue team q 33) s

/-- Whether a queue holds an entry or blocks a gang (R332). -/
def Team.queueBusy (t : Team) (q : Nat) : Bool :=
  match t.queue? q with | some d => !d.owners.isEmpty || !d.waiters.isEmpty | none => false

/-- Whether a byte range overlaps the link table of the tile pool (R57). -/
def Team.onLinks (t : Team) (a n : Nat) : Bool :=
  match t.pool with | some p => overlaps a n p.base (linkBytes p.count) | none => false

/-- `QDEF` (R139, R332). -/
def execQdef (h : Hdr) (f : FmtT) (s : State) : Res :=
  s.wideOp h 0 [.team] (fun s w => do
    let g := w.rep
    let q := f.imm.toNat % 32
    illegalOperandIf (!sOk f.d || !sSrcOk f.a || !natSrcOk f.b || !natSrcOk f.c)
    let ringReg := (g.rdScalar f.d).toNat
    let mask := (g.rdScalar f.a).toNat % 2 ^ 32
    let depth := (g.rdScalar f.b).toNat
    let allow := (g.rdScalar f.c).toNat
    illegalOperandIf (decide (2 ^ 32 ≤ ringReg) || ringReg % 8 != 0)
    illegalOperandIf (decide (2 ^ w.tm.gangs.length ≤ mask))
    illegalOperandIf (depth = 0 || decide (256 < depth) || allow = 0 || decide (256 < allow))
    illegalOperandIf (decide (depth < allow * (onesOf 32 mask).length))
    illegalOperandIf (w.tm.queueBusy q)
    illegalOperandIf (w.tm.queues.any (fun p => p.1 != q && overlaps ringReg (8 * depth) p.2.ring (8 * p.2.depth)))
    illegalOperandIf (w.tm.onLinks ringReg (8 * depth))
    trapIf (decide (w.tm.spadSize < ringReg + 8 * depth)) cProtection (BitVec.ofNat 64 ringReg)
    trapIf (w.tm.pendingAt ringReg (8 * depth)) cLanding (BitVec.ofNat 64 ringReg)
    let d : QDef := { ring := ringReg, depth := depth, mask := mask, allow := (onesOf 32 mask).map (fun i => (i, allow)) }
    .ok ((s.modTeam w.p.team (fun t => { t with queues := Tab.put t.queues q d })).passAll w.p))

/-- `QPUSH` and `QPUSH.try` (R96, R140, R141, R333): the ring entry is a scratchpad write. -/
def execQpush (h : Hdr) (try_ : Bool) (f : FmtT) (s : State) : Res :=
  s.gangOp h (fun s i => do
    let q := f.imm.toNat % 32
    illegalOperandIf (!sSrcOk f.a)
    match i.tm.queue? q with
    | none => .error (.trap cIllegalOperand 0 0)
    | some d =>
      illegalOperandIf (!bitAt d.mask i.unit.gang)
      if Tab.get d.allow 0 i.unit.gang = 0 then
        if try_ then .ok (s.passWith i (fun g => g.setCc ccZ true)) else .error (.wait (.room q))
      else
        trapIf (i.tm.pendingAt (d.ring + 8 * (d.pushes % d.depth)) 8) cLanding (BitVec.ofNat 64 (d.ring + 8 * (d.pushes % d.depth)))
        let s := s.modTeam i.unit.team (fun t =>
          (t.setSpad (d.ring + 8 * (d.pushes % d.depth)) (leBytes 8 (i.g.rdScalar f.a).toNat)).modQueue q (·.pushed i.unit.gang))
        let s := s.passWith i (fun g => if try_ then g.setCc ccZ false else g)
        .ok (s.serveQueue i.unit.team q 33))

/-- `QPOP` and `QPOP.try` (R140, R141, R333). -/
def execQpop (h : Hdr) (try_ : Bool) (f : FmtT) (s : State) : Res :=
  s.gangOp h (fun s i => do
    let q := f.imm.toNat % 32
    illegalOperandIf (!sOk f.d)
    match i.tm.queue? q with
    | none => .error (.trap cIllegalOperand 0 0)
    | some d =>
      match d.owners with
      | _ :: _ =>
        let s := s.modTeam i.unit.team (fun t => t.modQueue q (·.popped))
        .ok (s.passWith i (fun g =>
          let g := g.wrS (sIdx f.d) (i.tm.queueHead d)
          if try_ then g.setCc ccZ false else g))
      | [] =>
        if try_ || !i.tm.producing d then .ok (s.passWith i (fun g => (g.wrS (sIdx f.d) 0).setCc ccZ true))
        else
          let s := s.modTeam i.unit.team (fun t => t.modQueue q (fun d => { d with waiters := d.waiters ++ [(i.unit.gang, sIdx f.d)] }))
          .ok (s.waitAll i.performer (.queue q)))

end Sys2Proof.Machine
end

