-- ==== Sys2Proof/Machine/Groups.lean ====
section
/-! DEFINITION. The named-group instructions (R129 to R138, R325 to R331).
Readings of the spec that this file follows: log entry 36. -/

namespace Sys2Proof.Machine

open Sys2Proof

/-- The groups in use in a context, and on the device (R131). -/
def Ctx.groupCount (c : Ctx) : Nat := (c.groups.filter (fun p => p.2.used)).length
def State.groupCount (s : State) : Nat := (s.ctxs.map (fun p => p.2.groupCount)).foldl (· + ·) 0

/-- The lowest free slot of a context's part of the directory (R131). -/
def Ctx.freeGroup (c : Ctx) : Option Nat :=
  if c.groupCount ≥ 4096 then none
  else (List.range (c.groups.length + 1)).find? (fun k => !(Tab.get c.groups {} k).used)

/-- `GNEW` (R130, R131, R326). -/
def execGnew (h : Hdr) (f : FmtT) (s : State) : Res :=
  s.wideOp h f.imm.toNat scopesGST (fun s w => do
    illegalOperandIf (!gOk f.d)
    let ctx := w.tm.ctx
    let put := fun (s : State) (x : W32) (z : Bool) =>
      s.passWide w.p (fun g => ((g.wrG (gIdx f.d) x).setCc ccZ z).setCc ccBrk false)
    match (if s.groupCount ≥ 65536 then none else (s.ctx ctx).freeGroup) with
    | none => .ok (put s 0 true)
    | some k =>
      let gen := (s.group ctx k).gen + 1
      let s := s.modGroup ctx k (fun _ => { gen := gen, used := true, creator := w.p.team })
      .ok (put s (handleOf k gen) false))

/-- `GJOIN` (R133, R138, R327). -/
def execGjoin (h : Hdr) (f : FmtT) (s : State) : Res :=
  s.gangOp h (fun s i => do
    let req := f.imm == 1
    illegalOperandIf (!gOk f.a)
    let ctx := i.tm.ctx
    let k ← s.checkHandle ctx (i.g.rdG (gIdx f.a))
    illegalOperandIf (!sOk f.d || (req && !natSrcOk f.b))
    let grp := s.group ctx k
    let want := (i.g.rdScalar f.b).toNat
    illegalOperandIf (req && decide (4095 < want))
    illegalOperandIf (grp.member? i.unit.team i.unit.gang).isSome
    trapIf (s.isolated i.tm.launch && grp.members.any (fun m => m.team != i.unit.team)) cIsolation
    let fin := fun (s : State) (x : W64) (z brk : Bool) =>
      s.passWith i (fun g => ((g.wrS (sIdx f.d) x).setCc ccZ z).setCc ccBrk brk)
    if grp.broken then .ok (fin s 0 false true)
    else if grp.members.length ≥ 4096 || (req && grp.members.any (fun m => m.slot == want)) then .ok (fin s 0 true false)
    else
      let from_ := if grp.phase = 0 then 0 else grp.phase + 1
      let m : Member := { launch := i.tm.launch, team := i.unit.team, gang := i.unit.gang, slot := if req then want else grp.freeSlot, from_ := from_ }
      let s := s.modGroup ctx k (fun g => { g with joined := true, members := insertMember g.members m })
      .ok (fin s (BitVec.ofNat 64 from_) false false))

/-- Whether a gang may arrive at or leave a group: a member that is not leaving (R133). -/
def Group.active (g : Group) (i : Issuer) : Bool :=
  match g.member? i.unit.team i.unit.gang with | some m => !m.leaving | none => false

/-- `GLEAVE` (R133, R136, R328). -/
def execGleave (h : Hdr) (f : FmtT) (s : State) : Res :=
  s.gangOp h (fun s i => do
    illegalOperandIf (!gOk f.a)
    let k ← s.checkHandle i.tm.ctx (i.g.rdG (gIdx f.a))
    let grp := s.group i.tm.ctx k
    illegalOperandIf (!grp.active i)
    .ok ((s.passWith i (fun g => g.setCc ccBrk grp.broken)).leaveGroup i.tm.ctx k i.unit.team i.unit.gang))

/-- An arrival on the handle in A (R134, R325, R329): at once with BRK on a broken group, else the gang waits for its phase. `ok` is
the check of the other operands, which comes after those of the handle. -/
def State.arrive (s : State) (i : Issuer) (a : Operand) (ok : Bool) (arr : Arrival) : Except Stop State := do
  let ctx := i.tm.ctx
  illegalOperandIf (!gOk a)
  let k ← s.checkHandle ctx (i.g.rdG (gIdx a))
  illegalOperandIf (!ok)
  let grp := s.group ctx k
  illegalOperandIf (!grp.active i)
  if grp.broken then .ok (s.passWith i (brokenResult arr))
  else
    let s := s.modGroup ctx k (fun g => g.modMember i.unit.team i.unit.gang (fun m => { m with arrived := some arr }))
    .ok ((s.waitAll i.performer (.group k)).completePhases ctx k 4)

/-- `GBAR` (R18, R134, R329). -/
def execGbar (h : Hdr) (f : FmtT) (s : State) : Res :=
  s.gangOp h (fun s i => do
    s.arrive i f.a (sOk f.d || f.d == .zero) { instr := .gbar h f, val := 0, dest := if sOk f.d then some (sIdx f.d) else none })

/-- `GVOTE` (R134, R329). -/
def execGvote (h : Hdr) (all : Bool) (f : FmtT) (s : State) : Res :=
  s.gangOp h (fun s i => do
    s.arrive i f.a (sOk f.d && sSrcOk f.b) { instr := .gvote h all f, val := i.g.rdScalar f.b, dest := some (sIdx f.d) })

/-- `GRED` (R77, R88, R134, R329). -/
def execGred (h : Hdr) (op : RedOp) (f : FmtT) (s : State) : Res :=
  s.gangOp h (fun s i => do
    s.arrive i f.a (sOk f.d && sSrcOk f.b)
      { instr := .gred h op f, val := BitVec.ofNat 64 (i.g.rdLane (gredTyOf f) f.b 0), dest := some (sIdx f.d) })

/-- `GRESET` (R137, R330): the gangs that wait complete with BRK, the membership is emptied, the generation moves on. -/
def execGreset (h : Hdr) (f : FmtT) (s : State) : Res :=
  s.gangOp h (fun s i => do
    illegalOperandIf (!gOk f.d)
    let ctx := i.tm.ctx
    let k ← s.checkHandle ctx (i.g.rdG (gIdx f.d))
    let grp := s.group ctx k
    let gen := grp.gen + 1
    let s := s.releaseBroken grp.members
    let s := s.modGroup ctx k (fun g => { g with gen := gen, broken := false, phase := 0, members := [] })
    .ok (s.passWith i (fun g => (g.wrG (gIdx f.d) (handleOf k gen)).setCc ccBrk false)))

/-- The words of `GINFO` (R331). -/
def Group.info (g : Group) (team gang w : Nat) : Nat :=
  match w with
  | 0 => g.phase
  | 1 =>
    let arrived := (g.members.filter (fun m => m.leaving || (m.arrived.isSome && decide (m.from_ ≤ g.phase)))).length
    g.counted.length + arrived * 2 ^ 13 + (if g.broken then 2 ^ 26 else 0) +
      (match g.member? team gang with | some m => m.slot | none => 0x1FFF) * 2 ^ 27
  | _ => g.gen.toNat + (if g.used then 2 ^ 16 else 0)

/-- `GINFO` (R331). -/
def execGinfo (h : Hdr) (f : FmtT) (s : State) : Res :=
  s.gangOp h (fun s i => do
    illegalOperandIf (!gOk f.a)
    let k ← s.checkHandle i.tm.ctx (i.g.rdG (gIdx f.a))
    illegalOperandIf (!sOk f.d || !isImm f.b)
    let w := (i.g.rdScalar f.b).toNat
    illegalOperandIf (decide (2 < w))
    let grp := s.group i.tm.ctx k
    .ok (s.passWith i (fun g =>
      (g.wrS (sIdx f.d) (BitVec.ofNat 64 (grp.info i.unit.team i.unit.gang w))).setCc ccBrk grp.broken)))

end Sys2Proof.Machine
end

