-- ==== Sys2Proof/Machine/Control.lean ====
section
/-! DEFINITION. Control instructions: transfers, parting and rejoining, exit, yield, stack frames, breakpoints, software
traps and the return from a handler (R22 to R25, R195, R197, R240 to R245, R254).
Readings of the spec that this file follows: log entry 36. -/

namespace Sys2Proof.Machine

open Sys2Proof

/-- `NOP` (R241). -/
def execNop (s : State) : Res := s.perform none (fun i => .ok (s.passUnit i))

/-- The target of a displacement, checked (R241). -/
def State.branchTarget (s : State) (i : Issuer) (disp : W32) : Except Stop W64 := do
  let a ← dispTarget i.pc disp.toInt
  s.checkTarget i.tm.core i.tm.ctx a
  .ok a

/-- `BRA` (R241). -/
def execBra (h : Hdr) (disp : W32) (s : State) : Res :=
  s.lane h (fun i => do
    let a ← s.branchTarget i disp
    .ok (s.goUnit i a))

/-- `BCC` (R26, R234, R241). -/
def execBcc (h : Hdr) (cond : Cond) (disp : W32) (s : State) : Res :=
  s.lane h (fun i => do
    if condHolds cond i.g.cc i.tm.prq then
      let a ← s.branchTarget i disp
      .ok (s.goUnit i a)
    else .ok (s.passUnit i))

/-- Some slices of the issuing unit go to an address and the others to the following slot; a ganged gang whose slices go
different ways parts (R22). -/
def Gang.split (g : Gang) (slices : List Nat) (take : Nat → Bool) (a : W64) : Gang :=
  let go := slices.filter take
  let stay := slices.filter (fun k => !take k)
  let h := (g.modSlices go (fun x => { x with pc := a, wait := .ready })).modSlices stay (fun x => { x with pc := nextSlot x.pc, wait := .ready })
  { (h.countIssue slices) with ganged := g.ganged && (go.isEmpty || stay.isEmpty) }

/-- `BMZ` and `BMNZ`: the slices whose four effective mask bits are all zero, or not, take the branch (R241). -/
def State.branchMask (s : State) (h : Hdr) (onZero : Bool) (disp : W32) : Res :=
  s.lane h (fun i => do
    let take := fun k => (i.g.activeIn h (lanesOf [k])).isEmpty == onZero
    let a ← if i.slices.any take then s.branchTarget i disp else .ok 0
    .ok (s.modGang i.unit.team i.unit.gang (fun g => g.split i.slices take a)))

/-- `BMZ` (R22, R241). -/
def execBmz (h : Hdr) (disp : W32) (s : State) : Res := s.branchMask h true disp
/-- `BMNZ` (R22, R241). -/
def execBmnz (h : Hdr) (disp : W32) (s : State) : Res := s.branchMask h false disp

/-- A uniform transfer to a checked address, with s1 written by a call (R241, R242). -/
def State.transfer (s : State) (i : Issuer) (a : W64) (link : Bool) : Except Stop State := do
  s.checkTarget i.tm.core i.tm.ctx a
  .ok (s.modGang i.unit.team i.unit.gang (fun g =>
    let g := if link then g.wrS 1 (nextSlot i.pc) else g
    g.goTo i.slices a))

/-- `BIND` (R240 to R242). -/
def execBind (h : Hdr) (a : Operand) (s : State) : Res :=
  s.uniform h (fun s i => do illegalOperandIf (!sOk a); s.transfer i (i.g.rdS (sIdx a)) false)
/-- `CALL` (R241, R242). -/
def execCall (h : Hdr) (disp : W32) (s : State) : Res :=
  s.uniform h (fun s i => do let a ← dispTarget i.pc disp.toInt; s.transfer i a true)
/-- `CALLI` (R240 to R242). -/
def execCalli (h : Hdr) (a : Operand) (s : State) : Res :=
  s.uniform h (fun s i => do illegalOperandIf (!sOk a); s.transfer i (i.g.rdS (sIdx a)) true)
/-- `RET` (R241, R242). -/
def execRet (h : Hdr) (s : State) : Res :=
  s.uniform h (fun s i => s.transfer i (i.g.rdS 1) false)

/-- `REGANG` (R23, R24, R243). -/
def execRegang (h : Hdr) (s : State) : Res :=
  match s.issuer? with
  | none => .fault .noIssuer
  | some i =>
    if h.scp != .lane then s.scopeTrap i h cIllegalScope
    else if i.g.ganged then s.settle (i.performer (some h)) (.ok (s.passUnit i))
    else s.rendezvous i h .regang (fun s p => .ok (s.passWide p (fun g => { g with ganged := true })))

/-- The home consumer of a list that a gang was loses that place (R44). -/
def State.dropHome (s : State) (ctx team gang : Nat) : State :=
  s.modCtx ctx (fun c => { c with wlists := c.wlists.map (fun p =>
    (p.1, if p.2.home = some (team, gang) then { p.2 with home := none, waiting := none } else p.2)) })

/-- A gang has retired (R25): it leaves its groups, its lists lose their home, and its queues may have lost their last
producer (R17, R44, R141). -/
def State.gangRetired (s : State) (ctx team gang : Nat) : State :=
  ((s.leaveAll ctx team gang).dropHome ctx team gang).serveQueues team

/-- `EXIT` (R25, R243): the issuing slices leave for good. -/
def execExit (h : Hdr) (s : State) : Res :=
  s.lane h (fun i => do
    trapIf i.g.handler cIllegalInstruction
    let s := s.modGang i.unit.team i.unit.gang (fun g => (g.countIssue i.slices).modSlices i.slices (fun x => { x with live := false, wait := .ready }))
    if (s.gang i.unit.team i.unit.gang).isLive then .ok s
    else .ok (s.gangRetired i.tm.ctx i.unit.team i.unit.gang))

/-- `YIELD` (R198, R243): with PRQ clear, or in handler state, an ordering event; else the slices stop at the next
instruction. -/
def execYield (h : Hdr) (s : State) : Res :=
  s.lane h (fun i =>
    if i.tm.prq && !i.g.handler then
      .ok (s.modGang i.unit.team i.unit.gang (fun g => (g.pass i.slices).modSlices i.slices (fun x => { x with wait := .yielded })))
    else .ok ((s.passUnit i).dropL1 i.tm.core))

/-- `ENTER` (R244). -/
def execEnter (h : Hdr) (size : W32) (s : State) : Res :=
  s.uniform h (fun s i => do
    let n := size.toNat
    illegalOperandIf (decide (n < 64) || decide (2 ^ 24 < n) || n % 64 != 0)
    let old := i.g.stkptr.toNat
    trapIf (decide (i.g.stklim.toNat < old + n)) cStack
    .ok (s.modGang i.unit.team i.unit.gang (fun g =>
      let g := (lanesOf g.liveSlices).foldl (fun g l => g.setStack l (old + n - 8) (leBytes 8 old)) g
      ({ g with stkptr := BitVec.ofNat 64 (old + n) }).pass i.slices)))

/-- `LEAVE` (R244). -/
def execLeave (h : Hdr) (s : State) : Res :=
  s.uniform h (fun s i => do
    let p := i.g.stkptr.toNat
    illegalOperandIf (p = 0)
    let lane := 4 * i.g.liveSlices.headD 0
    let link := leNat ((List.range 8).map (fun k => i.g.stackByte lane (p - 8 + k)))
    illegalOperandIf (link % 64 != 0 || decide (p < link + 64))
    .ok (s.modGang i.unit.team i.unit.gang (fun g => ({ g with stkptr := BitVec.ofNat 64 link }).pass i.slices)))

/-- A trap after which the performing slices resume at the next instruction (R195). -/
def Gang.pastEntry (g : Gang) (h : Hdr) (slices : List Nat) (cause : Nat) (info : W64) : TrapEntry :=
  { (g.trapEntry (some h) slices cause 0 info) with
      resume := (List.range 8).map (fun k => if slices.contains k then some (nextSlot (g.slice k).pc) else none) }

/-- A breakpoint or software trap: the instruction has been issued (R256), and its slices resume past it (R195). -/
def State.debugTrap (s : State) (i : Issuer) (h : Hdr) (cause : Nat) (info : W64) : State :=
  (s.modGang i.unit.team i.unit.gang (fun g => g.countIssue i.slices)).takeTrap i.unit.team i.unit.gang i.slices
    (i.g.pastEntry h i.slices cause info)

/-- `BKPT` (R197, R245). -/
def execBkpt (h : Hdr) (s : State) : Res :=
  s.lane h (fun i => .ok (if i.active h = [] then s.passUnit i else s.debugTrap i h cBreakpoint 0))

/-- `TRAP` (R245). -/
def execTrap (h : Hdr) (code : W32) (s : State) : Res :=
  s.lane h (fun i => .ok (s.debugTrap i h cSoftware (code.setWidth 64)))

/-- `RTE` (R195, R254). -/
def execRte (h : Hdr) (s : State) : Res :=
  s.lane h (fun i => do
    trapIf (!i.g.handler) cIllegalInstruction
    .ok (s.returnFromTrap i.unit.team i.unit.gang))

end Sys2Proof.Machine
end

