-- ==== Sys2Proof/Machine/Engines.lean ====
section
/-! DEFINITION. The copy and gather engines and the abar instructions (R13, R150 to R154, R158 to R162, R289 to R295), with
the events in which their operations land, arrive, replay and resume a yielded gang.
Readings of the spec that this file follows: log entry 38. -/

namespace Sys2Proof.Machine

open Sys2Proof

-- COPY

/-- The rows of a copy (R158, R290): length, and each row's global and scratchpad address in (plane, row) order. -/
structure CopyRows where
  len  : Nat
  rows : List (Nat × Nat)
  deriving DecidableEq, Repr

/-- The words of a run, four bytes each, from a place in order. -/
def wordSegs (kind : SegKind) (ord glob spad n : Nat) : List Seg :=
  (List.range (n / 4)).map (fun k => { ord := ord + k, kind := kind, glob := (glob + 4 * k) % 2 ^ 64, spad := spad + 4 * k, len := 4 })

/-- Lists of segments numbered one after another. -/
def numberSegs (l : List Seg) : List Seg := (List.range l.length).zip l |>.map (fun p => { p.2 with ord := p.1 })

/-- A copy's shape from its registers, after the limits of R158 and R290. -/
def Gang.copyRows (g : Gang) (shape : CopyShape) (b : Operand) (glob spad : Nat) : Except Stop CopyRows := do
  let k := sIdx b
  let w := (g.rdS k).toNat
  let one := shape == .d1
  illegalOperandIf (if one then decide (2 ^ 32 ≤ w) else k % 4 != 0)
  let len := w % 2 ^ 32
  let nr := if one then 1 else bits w 32 16
  let np := if shape == .d3 then bits w 48 16 else 1
  let gr : Int := if one then 0 else (g.rdS (k + 1)).toInt
  let sr := if one then 0 else bits (g.rdS (k + 2)).toNat 0 32
  let sp := if shape == .d3 then bits (g.rdS (k + 2)).toNat 32 32 else 0
  let gp : Int := if shape == .d3 then (g.rdS (k + 3)).toInt else 0
  illegalOperandIf (decide (2 ^ 24 < len * nr * np))
  illegalOperandIf (spad % 4 != 0 || len % 4 != 0 || sr % 4 != 0 || sp % 4 != 0)
  let rows := if len * nr * np = 0 then [] else
    (List.range np).flatMap (fun (p : Nat) => (List.range nr).map (fun (r : Nat) =>
      ((BitVec.ofInt 64 ((glob : Int) + p * gp + r * gr)).toNat, spad + p * sp + r * sr)))
  .ok { len := len, rows := rows }

/-- `COPY` (R13, R158, R159, R289 to R291). -/
def execCopy (h : Hdr) (shape : CopyShape) (out yld : Bool) (f : FmtT) (s : State) : Res :=
  s.gangOp h (fun s i => do
    let cont ← if yld then
        (do let a ← dispTarget i.pc f.imm.toInt
            s.checkTarget i.tm.core i.tm.ctx a
            .ok (some a))
      else .ok none
    illegalOperandIf (!sOk f.d || !sOk f.a || !sOk f.b || (!yld && !sOk f.c))
    let ctr ← s.counterOf i f.e
    let spad := (i.g.rdS (sIdx f.d)).toNat
    let rows ← i.g.copyRows shape f.b (i.g.rdS (sIdx f.a)).toNat spad
    let runs := rows.rows.map (·.2)
    illegalOperandIf (!out && !disjointRuns rows.len runs)
    let abar ← if yld then .ok none else (do let a ← i.tm.checkAbar (i.g.rdS (sIdx f.c)); .ok (some a))
    i.tm.engineCheck (!out) rows.len runs
    if s.engineFull i.tm.core false then .error (.retry false)
    else
      let segs := numberSegs (rows.rows.flatMap (fun (g, p) => wordSegs (if out then .store else .load) 0 g p rows.len))
      let op : EngOp := { gang := i.unit.gang, abar := abar, counter := ctr, cont := cont, arrives := false,
                          charges := true, segs := segs }
      if yld then
        .ok ((s.issueEngine i.unit.team op).waitAll i.performer (.copyYield s.nextOp))
      else if segs = [] then .ok ((s.passUnit i).countDone ctr)
      else .ok ((s.passUnit i).issueEngine i.unit.team op))

-- GATHER and SCATTER

/-- What `GATHER` and `SCATTER` read at issue (R292): row size, row count, and the indices. -/
structure RowList where
  z    : Nat
  n    : Nat
  data : Nat
  base : Nat
  idx  : List Nat
  abar : Nat
  ctr  : Option Nat
  deriving DecidableEq, Repr

/-- The checks that `GATHER` and `SCATTER` share, in the order of R289, and the index block. -/
def State.rowList (s : State) (i : Issuer) (f : FmtT) (writes wide : Bool) : Except Stop RowList := do
  illegalOperandIf (!sOk f.d || !sOk f.a || !sOk f.b || !sOk f.c || sIdx f.b % 2 != 0)
  let ctr ← s.counterOf i f.e
  let w := (i.g.rdS (sIdx f.b)).toNat
  let idx := bits w 0 32
  let c := bits w 32 13
  let z := bits w 48 16
  let data := (i.g.rdS (sIdx f.d)).toNat
  let base := (i.g.rdS (sIdx f.a)).toNat
  illegalOperandIf (idx % 4 != 0 || c = 0 || decide (4096 < c) || bits w 45 3 != 0 || decide (z < 4) || decide (4096 < z) || z % 4 != 0)
  illegalOperandIf (data % 4 != 0 || base % 4 != 0 || (wide && (z % 8 != 0 || data % 8 != 0 || base % 8 != 0)))
  let abar ← i.tm.checkAbar (i.g.rdS (sIdx f.c))
  trapIf (decide (i.tm.spadSize < idx + 4 * c)) cProtection (BitVec.ofNat 64 idx)
  i.tm.engineCheck writes (c * z) [data]
  if i.tm.pendingAt idx (4 * c) || s.engineFull i.tm.core true then .error (.retry false)
  else .ok { z := z, n := (i.g.rdS (sIdx f.b + 1)).toNat, data := data, base := base,
             idx := (List.range c).map (fun k => i.tm.spadNat (idx + 4 * k) 4), abar := abar, ctr := ctr }

/-- The segments of a row list: `elem` bytes each, `inside` for an index within the table, `outside` for any other. -/
def RowList.segs (r : RowList) (elem : Nat) (inside outside : SegKind) : List Seg :=
  numberSegs (((List.range r.idx.length).zip r.idx).flatMap (fun (k, x) =>
    let p := r.data + k * r.z
    if r.n ≤ x then [{ ord := 0, kind := outside, glob := 0, spad := p, len := r.z }]
    else (List.range (r.z / elem)).map (fun j =>
      { ord := 0, kind := inside, glob := (r.base + x * r.z + elem * j) % 2 ^ 64, spad := p + elem * j, len := elem })))

/-- `GATHER` (R160, R161, R289, R292). -/
def execGather (h : Hdr) (f : FmtT) (s : State) : Res :=
  s.gangOp h (fun s i => do
    let r ← s.rowList i f true false
    .ok ((s.passUnit i).issueEngine i.unit.team
      { gang := i.unit.gang, abar := some r.abar, counter := r.ctr, cont := none, arrives := false, charges := true,
        gather := true, segs := r.segs 4 .load .zeros }))

/-- `SCATTER` (R162, R289, R292). -/
def execScatter (h : Hdr) (mode : ScatterMode) (f : FmtT) (s : State) : Res :=
  s.gangOp h (fun s i => do
    let wide := mode == .addF64 || mode == .addI64
    let r ← s.rowList i f false wide
    .ok ((s.passUnit i).issueEngine i.unit.team
      { gang := i.unit.gang, abar := some r.abar, counter := r.ctr, cont := none, arrives := true, charges := false,
        gather := true, segs := r.segs (if wide then 8 else 4) (if mode = .st then .store else .add mode) .skip }))

-- abar instructions

/-- Whether an engine operation or a collective counts on an abar (R152). -/
def State.abarBusy (s : State) (team : Nat) (t : Team) (a : Nat) : Bool :=
  t.ops.any (fun p => p.2.abar == some a) || s.colls.any (fun p => p.2.team == team && p.2.abar == a) ||
  t.gangs.any (fun g => g.slices.any (fun x => match x.wait with | .abar b _ => b == a | _ => false))

/-- `ABINIT` (R150, R152, R293). -/
def execAbinit (h : Hdr) (f : FmtT) (s : State) : Res :=
  s.gangOp h (fun s i => do
    illegalOperandIf (!sOk f.a || !natSrcOk f.b)
    let a := (i.g.rdS (sIdx f.a)).toNat
    let c := (i.g.rdScalar f.b).toNat
    illegalOperandIf (a % 16 != 0 || decide (65535 < c))
    illegalOperandIf (i.tm.abars.contains a && s.abarBusy i.unit.team i.tm a)
    illegalOperandIf (c != 0 && !i.tm.abars.contains a && decide (64 ≤ i.tm.abars.length))
    trapIf (decide (i.tm.spadSize < a + 16)) cProtection (BitVec.ofNat 64 a)
    trapIf (({ i.tm with abars := [] } : Team).guarded a 16) cProtection (BitVec.ofNat 64 a)
    trapIf (i.tm.pendingAt a 16) cLanding (BitVec.ofNat 64 a)
    let others := i.tm.abars.filter (fun x => x != a)
    .ok ((s.passUnit i).modTeam i.unit.team (fun t =>
      if c = 0 then { (t.setSpad a (List.replicate 16 0)) with abars := others }
      else { (t.setAbar a { expb := 0, arrv := c, inita := c, phase := 0, erro := 0, errl := 0, live := true }) with
               abars := others ++ [a] })))

/-- `ABARR` (R96, R152, R293). -/
def execAbarr (h : Hdr) (f : FmtT) (s : State) : Res :=
  s.gangOp h (fun s i => do
    illegalOperandIf (!sOk f.a)
    let a ← i.tm.checkAbar (i.g.rdS (sIdx f.a))
    illegalOperandIf ((i.tm.abar a).arrv = 0)
    trapIf (i.tm.pendingAt a 16) cLanding (BitVec.ofNat 64 a)
    .ok ((s.passUnit i).modTeam i.unit.team (fun t => t.modAbar a (fun b => ({ b with arrv := b.arrv - 1 }).settle))))

/-- `ABEXP` (R96, R152, R293). -/
def execAbexp (h : Hdr) (f : FmtT) (s : State) : Res :=
  s.gangOp h (fun s i => do
    illegalOperandIf (!sOk f.a || !natSrcOk f.b)
    let a ← i.tm.checkAbar (i.g.rdS (sIdx f.a))
    let n := (i.g.rdScalar f.b).toNat
    illegalOperandIf (decide (2 ^ 32 ≤ n) || decide (2 ^ 32 ≤ (i.tm.abar a).expb + n))
    trapIf (i.tm.pendingAt a 16) cLanding (BitVec.ofNat 64 a)
    .ok ((s.passUnit i).modTeam i.unit.team (fun t => t.modAbar a (fun b => ({ b with expb := b.expb + n }).settle))))

/-- Whether phase n of an abar has completed, and the error byte that is then reported; a phase that has not yet opened
raises illegal-operand (R154). -/
def Abar.query (b : Abar) (n : Nat) : Except Stop (Option Byte) :=
  let d := (b.phase + 2 ^ 32 - n) % 2 ^ 32
  if d = 0 then .ok none
  else if 2 ^ 31 ≤ d then .error (.trap cIllegalOperand 0 0)
  else .ok (some (if d = 1 then b.errl else 0x80))

/-- The error bits that raise engine-error (R13, R154). -/
def errTraps (e : Byte) : Bool := e &&& (errFault ||| errPoison ||| errRange) != 0

/-- A reported phase (R120, R154, R294): the results, the join, then the engine-error trap that resumes past the
instruction. -/
def State.report (s : State) (i : Issuer) (h : Hdr) (d : Operand) (test : Bool) (r : Option Byte) : State :=
  let e := r.getD 0
  let write := fun (g : Gang) =>
    let g := match d with
      | .s k => g.wrS k.toNat (match r with | some e => BitVec.ofNat 64 (e.toNat + 2 ^ 8) | none => 0)
      | _ => g
    let g := g.setCc ccTmo (e &&& errTimeout != 0)
    if test then g.setCc ccZ r.isNone else g
  let s := if r.isSome then s.dropL1 i.tm.core else s
  if errTraps e then
    let s := s.modGang i.unit.team i.unit.gang write
    s.takeTrap i.unit.team i.unit.gang i.slices
      ((s.gang i.unit.team i.unit.gang).pastEntry h i.slices cEngine (e.setWidth 64))
  else s.passWith i write

/-- The operands of `ABWAIT` and `ABTEST` (R293). -/
def Issuer.phaseOperands (i : Issuer) (f : FmtT) (d : Bool) : Except Stop (Nat × Option Byte) := do
  illegalOperandIf (!d || !sOk f.a || !natSrcOk f.b)
  let a ← i.tm.checkAbar (i.g.rdS (sIdx f.a))
  let n := (i.g.rdScalar f.b).toNat
  illegalOperandIf (decide (2 ^ 32 ≤ n))
  let r ← (i.tm.abar a).query n
  .ok (a, r)

/-- `ABWAIT` (R120, R154, R293, R294). -/
def execAbwait (h : Hdr) (f : FmtT) (s : State) : Res :=
  s.gangOp h (fun s i => do
    let (a, r) ← i.phaseOperands f (sOk f.d || f.d == .zero)
    match r with
    | none => .error (.wait (.abar a (i.g.rdScalar f.b).toNat))
    | some e => .ok (s.report i h f.d false (some e)))

/-- `ABTEST` (R120, R154, R293, R294). -/
def execAbtest (h : Hdr) (f : FmtT) (s : State) : Res :=
  s.gangOp h (fun s i => do
    let (_, r) ← i.phaseOperands f (sOk f.d)
    .ok (s.report i h f.d true r))

-- events

/-- `ENGINE_LAND` (R94, R103, R153): one segment is tried; one whose page is invalid or forbidden goes on the fix-up list. -/
def execEngineLand (team op seg : Nat) (s : State) : Res :=
  match s.engOp? team op with
  | none => .refused .notEnabled
  | some (t, o) =>
    match o.segs.find? (fun q => q.ord == seg) with
    | none => .refused .notEnabled
    | some q =>
      if !s.canLand team t o q then .refused .notEnabled
      else if o.behind q then .next (s.segSkipped team op q)
      else match s.trySeg team t q with
        | .done s' e => .next (s'.segDone team op q e)
        | .fault _ | .bad => .next (s.segSkipped team op q)
        | .full n => .next (s.modLaunch t.launch (fun L => { L with poolNeed := n }))
        | .absent a => .fault (.absentAddress a)
        | .waits => .refused .notEnabled

/-- The fix-up list replayed in position order (R103): a segment that still faults fails with FAULT. -/
def State.replayFix (s : State) (team op : Nat) (l : List Seg) : Res :=
  match l with
  | [] => .next s
  | q :: r =>
    match s.engOp? team op with
    | none => .next s
    | some (t, _) =>
      match s.trySeg team t q with
      | .done s' e => (s'.segDone team op q e).replayFix team op r
      | .fault _ | .bad => (s.segDone team op q errFault).replayFix team op r
      | .full n => .next (s.modLaunch t.launch (fun L => { L with poolNeed := n }))
      | .waits => .next s
      | .absent a => .fault (.absentAddress a)

/-- Whether an operation's fix-up list may be replayed (R103): nothing else is left, and no page still waits for the
pager. -/
def State.fixReady (s : State) (team : Nat) (t : Team) (o : EngOp) : Bool :=
  o.segs.isEmpty && !o.fix.isEmpty && o.fix.all (fun q => s.canReplay team t o q)

/-- The segments of a fix-up list in position order. -/
def sortSegs (l : List Seg) : List Seg :=
  l.foldl (fun acc q => acc.filter (fun p => decide (p.ord < q.ord)) ++ [q] ++ acc.filter (fun p => decide (q.ord < p.ord))) []

/-- `FIXUP_REPLAY` (R103). -/
def execFixupReplay (team op : Nat) (s : State) : Res :=
  match s.engOp? team op with
  | none => .refused .notEnabled
  | some (t, o) => if s.fixReady team t o then s.replayFix team op (sortSegs o.fix) else .refused .notEnabled

/-- Whether an operation has nothing left to land. -/
def EngOp.finished (o : EngOp) : Bool := o.segs.isEmpty && o.fix.isEmpty

/-- The completion of an operation that arrives at an abar: the arrival with its error byte, and the operation is gone (R289). -/
def Team.opArrives (t : Team) (op : Nat) (o : EngOp) : Team :=
  { (match o.abar with | some a => t.modAbar a (fun b => b.arrive (t.delivers o.err)) | none => t) with
    ops := Tab.del t.ops op }

/-- The notification of a transfer of a context that did not fault: an addition of 1 to the counter named, here or on the other
device (R342). -/
def State.notifyEnd (s : State) (asid : Nat) (o : EngOp) : State :=
  match o.notify with
  | some (r, c) =>
    if (o.err &&& errFault != 0) = true then s
    else if r = s.span.rank then s.updateCtr (c / 1024) (c % 1024) false 1
    else s.sendTo r (.xput r asid 0 [] (some c))
  | none => s

/-- `ENGINE_ARRIVAL` (R153, R162, R342): a `SCATTER` or `XPUT` makes its one arrival, with its errors; a notified counter of
the target is incremented where every byte was performed. -/
def execEngineArrival (team op : Nat) (s : State) : Res :=
  match s.engOp? team op with
  | none => .refused .notEnabled
  | some (t, o) =>
    if !o.arrives || !o.finished then .refused .notEnabled
    else
      .next (((s.modTeam team (fun t => t.opArrives op o)).countDone o.counter).notifyEnd (s.ctx t.ctx).asid o)

/-- `COPY_YIELD_RESUME` (R13, R120): the gang resumes at its continuation, an engine-error trap first where the copy ended
with FAULT or POISON. A gang in handler state resumes there once it has returned (log entry 48). -/
def execCopyYieldResume (team op : Nat) (s : State) : Res :=
  match s.engOp? team op with
  | none => .refused .notEnabled
  | some (t, o) =>
    match o.cont with
    | none => .refused .notEnabled
    | some a =>
      if !o.finished || (t.gang o.gang).handler then .refused .notEnabled
      else
        let s := (s.modTeam team (fun t => { t with ops := Tab.del t.ops op })).countDone o.counter
        let s := (s.modGang team o.gang (fun g => g.goTo g.liveSlices a)).dropL1 t.core
        .next (if errTraps o.err then
            let g := s.gang team o.gang
            s.takeTrap team o.gang g.liveSlices (g.trapEntry none g.liveSlices cEngine 0 (o.err.setWidth 64))
          else s)

end Sys2Proof.Machine
end

