-- ==== Sys2Proof/Machine/Transfers.lean ====
section
/-! DEFINITION. Transfers between devices (R340 to R342, R408), and the trigger instructions and actions (R168 to R170, R343
to R347).
Readings of the spec that this file follows: log entry 38. -/

namespace Sys2Proof.Machine

open Sys2Proof

-- XPUT, XGET

/-- What `XPUT` and `XGET` read at issue (R340). -/
structure Xfer where
  len  : Nat
  spad : Nat
  glob : Nat
  rank : Nat
  abar : Nat
  deriving DecidableEq, Repr

/-- The operands and checks of `XPUT` and `XGET` in the order of R289. -/
def State.xferOf (s : State) (i : Issuer) (f : FmtT) (writes : Bool) : Except Stop Xfer := do
  let l := match f.e with | .s r => if r.toNat < 128 then some (i.g.rdS r.toNat).toNat else none | _ => none
  illegalOperandIf (!sOk f.d || !sOk f.a || !natSrcOk f.b || !sOk f.c || l.isNone)
  let len := l.getD 0
  let spad := bits (i.g.rdS (sIdx f.d)).toNat 0 32
  let glob := (i.g.rdS (sIdx f.a)).toNat
  let rank := (i.g.rdScalar f.b).toNat
  illegalOperandIf (decide (len < 4) || decide (2 ^ 24 < len) || len % 4 != 0 || spad % 4 != 0 || glob % 4 != 0)
  illegalOperandIf (decide (255 < rank) || decide (s.span.size ≤ rank))
  let abar ← i.tm.checkAbar (i.g.rdS (sIdx f.c))
  i.tm.engineCheck writes len [spad]
  if s.engineFull i.tm.core false then .error (.retry false)
  else .ok { len := len, spad := spad, glob := glob, rank := rank, abar := abar }

/-- `XGET` (R340, R341). -/
def execXget (h : Hdr) (f : FmtT) (s : State) : Res :=
  s.gangOp h (fun s i => do
    let x ← s.xferOf i f true
    .ok ((s.passUnit i).issueEngine i.unit.team
      { gang := i.unit.gang, abar := some x.abar, counter := none, cont := none, arrives := false, charges := true,
        segs := wordSegs (.xget x.rank) 0 x.glob x.spad x.len }))

/-- `XPUT` (R340, R342). -/
def execXput (h : Hdr) (f : FmtT) (s : State) : Res :=
  s.gangOp h (fun s i => do
    let x ← s.xferOf i f false
    let n := f.imm.toNat
    .ok ((s.passUnit i).issueEngine i.unit.team
      { gang := i.unit.gang, abar := some x.abar, counter := none, cont := none, arrives := true, charges := false,
        notify := (if bitAt n 15 then some (x.rank, ctrKey (bits n 10 2) (bits n 0 10)) else none),
        segs := wordSegs (.xput x.rank) 0 x.glob x.spad x.len }))

-- transfers from other devices

/-- What one page's part of an incoming `XPUT` meets (R103, R342). -/
inductive Incoming where
  | write (s : State)
  | bounce
  | fails
  | waits
  | absent (a : Nat)

/-- Bytes written by an agent of another device on one page, which must be IMM (R342). -/
def State.incomingPage (s : State) (ctx va : Nat) (bs : List Byte) : Incoming :=
  match s.segPages ctx .write va bs.length with
  | .ok ps =>
    if ps.any (fun p => !pteImm p.pte) then .fails
    else .write (s.setCommAll ((List.range bs.length).zip bs |>.map (fun q => ((pageOf ps (va + q.1)).loc (va + q.1), q.2))))
  | .fault _ => .bounce
  | .poison | .bad => .fails
  | .waits => .waits
  | .absent a => .absent a

/-- A byte run cut at page boundaries of 64 KiB. -/
def pageRuns (fuel va : Nat) (bs : List Byte) : List (Nat × List Byte) :=
  match fuel with
  | 0 => []
  | f + 1 =>
    if bs = [] then []
    else let n := 65536 - va % 65536; (va, bs.take n) :: pageRuns f (va + n) (bs.drop n)

/-- A byte run cut into bounce slots (R408). -/
def bounceRuns (fuel va : Nat) (bs : List Byte) : List (Nat × List Byte) :=
  match fuel with
  | 0 => []
  | f + 1 => if bs = [] then [] else (va, bs.take 4032) :: bounceRuns f (va + 4032) (bs.drop 4032)

/-- Where the next slot of a context's bounce ring stands (R408). -/
def Ctx.bounceAt (c : Ctx) : Nat := c.bncbase + 4096 * (c.bncSeq % max c.bncslots 1)

/-- Data landed in the next slot of the bounce ring, with its header (R408). -/
def State.bounce (s : State) (ctx va : Nat) (bs : List Byte) : State :=
  let c := s.ctx ctx
  let head := leBytes 8 va ++ leBytes 4 bs.length ++ leBytes 4 (c.bncSeq + 1)
  ((s.setCommAll (cellsAt (c.bounceAt + 64) bs)).setCommAll (cellsAt c.bounceAt head)).modCtx ctx (fun c => { c with bncSeq := c.bncSeq + 1 })

/-- Whether the bounce ring takes another slot: it is not full, and lies where it can be written (R408, R411). -/
def State.bounceRoom (s : State) (ctx : Nat) : Bool :=
  let c := s.ctx ctx
  decide (c.bncSeq < c.bncrp + c.bncslots) && s.present c.bounceAt && s.reachable c.bounceAt

/-- Some data landed in the bounce ring slot by slot, and what finds no room there (R408). -/
def State.bounceAll (s : State) (ctx : Nat) (l : List (Nat × List Byte)) : State × List (Nat × List Byte) :=
  match l with
  | [] => (s, [])
  | (va, bs) :: r => if s.bounceRoom ctx then (s.bounce ctx va bs).bounceAll ctx r else (s, (va, bs) :: r)

/-- An event that cannot be taken yet goes back to the end of the inbox. -/
def State.later (s : State) (e : Instr) : State := { s with inbox := s.inbox ++ [e] }

/-- The pages of an incoming `XPUT` one after another, up to a page that drains or a full ring: the state, whether some byte
failed, and the data that has still to land; or an address that does not exist. -/
def State.incoming (s : State) (ctx : Nat) (l : List (Nat × List Byte)) (bad : Bool) : Except Nat (State × Bool × List (Nat × List Byte)) :=
  match l with
  | [] => .ok (s, bad, [])
  | (va, bs) :: r =>
    match s.incomingPage ctx va bs with
    | .write t => t.incoming ctx r bad
    | .fails => s.incoming ctx r true
    | .bounce =>
      let (t, rest) := s.bounceAll ctx (bounceRuns 20 va bs)
      if rest = [] then t.incoming ctx r bad else .ok (t, bad, rest ++ r)
    | .waits => .ok (s, bad, (va, bs) :: r)
    | .absent a => .error a

/-- The SEQ of the last bounce slot that a transfer has used, where it goes on at an address after a stop. -/
def Ctx.usedSeq (c : Ctx) (addr : Nat) : Nat := Tab.get c.partial_ 0 addr

/-- `XPUT_RECEIVE` (R103, R342, R408): data of another device's `XPUT` for the context with an ASID. What finds the bounce ring
full stalls there, and goes on when BNCRP advances. A notification counts when every byte is performed, at once or when BNCRP
covers the bytes in the bounce ring; one that comes without data waits for whatever stands in the ring, and needs no context. -/
def execXputReceive (ctx : Nat) (addr : W64) (data : List Byte) (notify : Option Nat) (s : State) : Res :=
  match s.slotOfAsid ctx with
  | none => .next (if data = [] then s.countDone notify else s)
  | some k =>
    match s.incoming k (pageRuns (data.length / 65536 + 2) addr.toNat data) false with
    | .error a => .fault (.absentAddress a)
    | .ok (t, bad, rest) =>
      let used := if (t.ctx k).bncSeq = (s.ctx k).bncSeq && data != [] then (s.ctx k).usedSeq addr.toNat else (t.ctx k).bncSeq
      let t := t.modCtx k (fun c => { c with partial_ := Tab.del c.partial_ addr.toNat })
      let notify := if bad then none else notify
      match rest with
      | (va, _) :: _ =>
        .next ((t.modCtx k (fun c => { c with partial_ := Tab.set c.partial_ 0 va (max used (c.usedSeq va)) })).later
          (.xputReceive ctx (BitVec.ofNat 64 va) (rest.flatMap (·.2)) notify))
      | [] =>
        if used ≤ (t.ctx k).bncrp then .next (t.countDone notify)
        else .next (t.modCtx k (fun c => { c with bounces := c.bounces ++ [{ upto := used, notify := notify }] }))

/-- `XGET_REQUEST` (R103, R341): another device reads committed memory; data of a POISON page or word go out as zeros with
POISON; a page that is not resident may be resolved by the pager later, or the request fails. -/
def execXgetRequest (ctx : Nat) (addr : W64) (len : Nat) (s : State) : Res :=
  match s.slotOfAsid ctx with
  | none => .next (s.send (.xgetData [] errFault))
  | some k =>
    match s.segPages k .read addr.toNat len with
    | .ok ps =>
      let loc := fun va => (pageOf ps va).loc va
      let (bs, e, s) := s.engineRead (fun va => (Tab.find? s.uncorr (loc va)).isSome) (fun va => s.commByte (loc va))
        ((List.range len).map (· + addr.toNat))
      .next (s.send (.xgetData bs e))
    | .fault _ =>
      let (b, s) := s.pickBelow 2
      .next (if b = 0 then s.later (.xgetRequest ctx addr len) else s.send (.xgetData [] errFault))
    | .waits => .next (s.later (.xgetRequest ctx addr len))
    | .poison => .next (s.send (.xgetData (List.replicate len 0) errPoison))
    | .bad => .next (s.send (.xgetData [] errFault))
    | .absent a => .fault (.absentAddress a)

-- trigger instructions

/-- The trigger of a descriptor (R343), or none where R344 refuses it, ownership apart. -/
def triggerOf (ctx wing : Nat) (spanSize : Nat) (rd : Nat → Nat) : Option Trigger :=
  let leaf := fun j => rd (8 * j)
  let act := bits (rd 64) 8 2
  let x := rd 64
  let src := rd 72
  let dst := rd 80
  let y := rd 88
  let len := bits y 0 25
  let rank := bits y 32 8
  let status := rd 96
  let leavesOk := (List.range 8).all (fun j =>
    bits (leaf j) 43 21 == 0 && (!bitAt (leaf j) 42 || bits (leaf j) 0 42 == 0))
  let common := leavesOk && bits x 7 1 == 0 && bits x 27 37 == 0 && bits y 25 7 == 0 && bits y 40 24 == 0 && status % 8 == 0 &&
    rd 104 == 0 && rd 112 == 0 && rd 120 == 0
  let ok := match act with
    | 0 => src % 64 == 0 && dst == 0 && len == 0
    | 1 => decide (4 ≤ len) && decide (len ≤ 2 ^ 24) && len % 4 == 0 && src % 4 == 0 && dst % 4 == 0
    | 2 => decide (4 ≤ len) && decide (len ≤ 2 ^ 24) && len % 4 == 0 && src % 4 == 0 && dst % 4 == 0 && decide (rank < spanSize)
    | _ => false
  if common && ok then
    some { ctx := ctx,
           leaves := (List.range 8).map (fun j => if bitAt (leaf j) 42 then none else some (bits (leaf j) 32 10, bits (leaf j) 0 32)),
           nodeop := bits x 0 7, act := act, queue := bits x 10 6,
           donectr := (if bitAt x 26 then some (ctrKey wing (bits x 16 10)) else none),
           src := BitVec.ofNat 64 src, dst := BitVec.ofNat 64 dst, len := len, rank := rank, status := BitVec.ofNat 64 status }
  else none

/-- Whether every counter that a trigger names is the context's (R168, R344). -/
def State.triggerOwned (s : State) (wing : Nat) (t : Trigger) : Bool :=
  t.leaves.all (fun l => match l with | some (c, _) => s.ownsCtr t.ctx wing c | none => true) &&
  (match t.donectr with | some k => s.ownsCtr t.ctx wing (k % 1024) | none => true)

/-- `TRIGARM` (R168, R169, R343, R344). -/
def execTrigarm (h : Hdr) (f : FmtT) (s : State) : Res :=
  s.gangOp h (fun s i => do
    illegalOperandIf (!natSrcOk f.a || !sOk f.b)
    let k := (i.g.rdScalar f.a).toNat
    let a := (i.g.rdS (sIdx f.b)).toNat
    let wing := wingOfCore i.tm.core
    trapIf (a % 16 != 0) cIllegalOperand (BitVec.ofNat 64 a)
    illegalOperandIf (decide (255 < k))
    trapIf (decide (i.tm.spadSize < a + 128)) cProtection (BitVec.ofNat 64 a)
    if i.tm.pendingAt a 128 then .error (.retry false)
    else
      let key := slotKey wing k
      illegalOperandIf ((Tab.find? s.trig.slots key).isSome || !s.ownsSlot i.tm.ctx wing k)
      match triggerOf i.tm.ctx wing s.span.size (fun o => i.tm.spadNat (a + o) 8) with
      | none => .error (.trap cIllegalOperand 0 0)
      | some t =>
        illegalOperandIf (!s.triggerOwned wing t)
        let fires := (s.wing wing).state == .online && s.predicate wing t
        let s := (s.passWith i (fun g => g.setCc ccZ fires))
        let s := { s with trig := { s.trig with slots := Tab.put s.trig.slots key t } }
        .ok (if fires then s.fireSlot key else s))

/-- `TRIGCNT` (R168, R346). -/
def execTrigcnt (h : Hdr) (f : FmtT) (s : State) : Res :=
  s.gangOp h (fun s i => do
    illegalOperandIf (!(f.d == .zero || sOk f.d) || !natSrcOk f.a || !natSrcOk f.b)
    let k := (i.g.rdScalar f.a).toNat
    let n := bits (i.g.rdScalar f.b).toNat 0 32
    let wing := wingOfCore i.tm.core
    illegalOperandIf (decide (1023 < k) || !s.ownsCtr i.tm.ctx wing k)
    let set := f.imm.toNat % 2 == 1
    let old := (s.ctrVal (ctrKey wing k)).toNat
    let new := if set then n else min (old + n) (2 ^ 32 - 1)
    let s := s.passWith i (fun g => match f.d with | .s r => g.wrS r.toNat (BitVec.ofNat 64 new) | _ => g)
    .ok (s.updateCtr wing k set n))

/-- `TRIGDIS` (R169, R347). -/
def execTrigdis (h : Hdr) (f : FmtT) (s : State) : Res :=
  s.gangOp h (fun s i => do
    illegalOperandIf (!sOk f.d || !natSrcOk f.a)
    let k := (i.g.rdScalar f.a).toNat
    let wing := wingOfCore i.tm.core
    illegalOperandIf (decide (255 < k) || !s.ownsSlot i.tm.ctx wing k)
    let key := slotKey wing k
    let armed := (Tab.find? s.trig.slots key).isSome
    let s := s.passWith i (fun g => (g.wrS (sIdx f.d) (if armed then 1 else 0)).setCc ccZ (!armed))
    .ok { s with trig := { s.trig with slots := Tab.del s.trig.slots key } })

-- trigger actions

/-- What comes of one word of a copy or an `XPUT` of the trigger unit. -/
inductive ActWord where
  | done (s : State) (err : Byte)
  /-- an invalid page -/
  | fault (page : Nat)
  /-- a page the pager cannot resolve as it stands, or a device that is dead -/
  | bad
  | waits
  | absent (a : Nat)

/-- One word of an action performed by the trigger unit (R345). -/
def State.actWord (s : State) (t : Trigger) (src dst : W64) : ActWord :=
  match s.segPages t.ctx .read src.toNat 4 with
  | .absent a => .absent a
  | .waits => .waits
  | .fault p => .fault p
  | .bad => .bad
  | from_ =>
    let (bs, e, s) := match from_ with
      | .ok ps =>
        let loc := fun va => (pageOf ps va).loc va
        s.engineRead (fun va => (Tab.find? s.uncorr (loc va)).isSome) (fun va => s.commByte (loc va)) ((List.range 4).map (· + src.toNat))
      | _ => (List.replicate 4 (0 : Byte), errPoison, s)
    if t.act = 2 && t.rank != s.span.rank then
      if !s.rankLive t.rank then .bad
      else if !s.reaches t.rank then .waits
      else
        let asid := (s.ctx t.ctx).asid
        let (k, s) := s.pickBelow 2
        let s := s.send (.xput t.rank asid dst.toNat bs none)
        if k = 0 then .done s (e ||| errFault)
        else .done (s.setCommAll (cellsAt (rankLoc t.rank asid dst.toNat) bs)) e
    else
      match s.segPages t.ctx .write dst.toNat 4 with
      | .absent a => .absent a
      | .waits => .waits
      | .fault p => .fault p
      | .bad | .poison => .bad
      | .ok ps =>
        if t.act = 2 && ps.any (fun p => !pteImm p.pte) then .bad
        else .done (s.setCommAll ((List.range 4).zip bs |>.map (fun q => ((pageOf ps (dst.toNat + q.1)).loc (dst.toNat + q.1), q.2)))) e

/-- An action that has moved past one word. -/
def Trigger.past (t : Trigger) (err : Byte) : Trigger :=
  { t with src := t.src + 4, dst := t.dst + 4, len := t.len - 4, err := t.err ||| err }

/-- An action that has skipped one word, which goes on its fix-up list (R103, R170). -/
def Trigger.skip (t : Trigger) : Trigger := { t.past 0 with fix := t.fix ++ [(t.src, t.dst)] }

/-- Up to `n` words of an action, each performed or skipped, until one has to wait. -/
def State.actRun (s : State) (t : Trigger) (n : Nat) : State × Trigger :=
  match n with
  | 0 => (s, t)
  | n + 1 =>
    if t.len = 0 then (s, t)
    else match s.actWord t t.src t.dst with
      | .done s' e => s'.actRun (t.past e) n
      | .fault _ | .bad => s.actRun t.skip n
      | _ => (s, t)

/-- Whether every word of an action's fix-up list may be replayed: no page of it waits, and each is resolved or given up. -/
def State.actReady (s : State) (t : Trigger) : Bool :=
  t.fix.all (fun p => match s.actWord t p.1 p.2 with
    | .done _ _ | .bad | .absent _ => true
    | .fault g => t.failed.contains g
    | .waits => false)

/-- Whether some word of an action's fix-up list fails at its replay. -/
def State.actFails (s : State) (t : Trigger) : Bool :=
  t.fix.any (fun p => match s.actWord t p.1 p.2 with | .fault _ | .bad => true | _ => false)

/-- The fix-up list replayed: a word that still faults sets FAULT (R103). -/
def State.actReplay (s : State) (t : Trigger) : List (W64 × W64) → State × Byte
  | [] => (s, t.err)
  | p :: r => match s.actWord t p.1 p.2 with
    | .done s e => s.actReplay { t with err := t.err ||| e } r
    | _ => s.actReplay { t with err := t.err ||| errFault } r

/-- A finished action (R345): its status word, then its counter. -/
def State.actDone (s : State) (t : Trigger) : State :=
  if t.status = 0 then s.countDone t.donectr
  else
    let word := t.err.toNat + 2 ^ 8
    match s.putWord t.ctx t.status word with
    | some s => s.countDone t.donectr
    | none => s.post t.ctx (.word t.status word false t.donectr)

/-- What an action may do next: with words left, whether the next one need not wait; then its replay, with FAULT where a word
of it fails. -/
def State.actNext (s : State) (t : Trigger) : Option Byte :=
  if t.len = 0 then (if s.actReady t then some (if s.actFails t then errFault else 0) else none)
  else match s.actWord t t.src t.dst with
    | .waits => none
    | _ => some 0

/-- The address that does not exist which the next word of an action, or a word of its replay, names. -/
def State.actAbsent (s : State) (t : Trigger) : Option Nat :=
  (if t.len = 0 then t.fix else [(t.src, t.dst)]).findSome? (fun p => match s.actWord t p.1 p.2 with | .absent a => some a | _ => none)

/-- `TRIGGER_ACTION_COMPLETE` (R170, R345): an action of a resident context goes on for a free number of words, skipping those
whose pages fault; with no word left it replays those, and completes. -/
def execTriggerActionComplete (ctx idx : Nat) (err : Byte) (s : State) : Res :=
  let c := s.ctx ctx
  match c.actions[idx]? with
  | none => .refused .notEnabled
  | some t =>
    if !c.resident || s.actNext t != some err then .refused .notEnabled
    else
      match s.actAbsent t with
      | some a => .fault (.absentAddress a)
      | none =>
        let (s, t') := if t.len = 0 then
            let (s, e) := s.actReplay t t.fix
            (s, { t with fix := [], err := e })
          else
            let (k, s) := s.pickBelow (t.len / 4)
            s.actRun t (k + 1)
        if t'.len = 0 && t'.fix = [] then .next ((s.modCtx ctx (fun c => { c with actions := c.actions.eraseIdx idx })).actDone t')
        else .next (s.modCtx ctx (fun c => { c with actions := c.actions.set idx t' }))

end Sys2Proof.Machine
end

