-- ==== Sys2Proof/Machine/HostQueues.lean ====
section
/-! DEFINITION. What the host does through the HDM window and a context's page of BAR2 (R386, R387, R393 to R396, R400, R408),
and a line request of another device (R102). An access that finds the device without power does nothing.
Readings of the spec that this file follows: log entry 40. -/

namespace Sys2Proof.Machine

open Sys2Proof

/-- What an access from outside does to a powered device (R414). -/
def State.whenOn (s : State) (t : State) : Res := .next (if s.boot.powered then t else s)

-- the HDM window (R386)

def hdmBytes : Nat := 4 * wingBytes

/-- `HDM_READ` (R125, R386): all ones with poison above 105 GiB of a wing under strong ECC; an access to the region of a wing
that is not online waits (R411). -/
def execHdmRead (addr len : Nat) (s : State) : Res :=
  if hdmBytes < addr + len then .next s
  else
    let locs := (List.range len).map (· + addr)
    if locs.any (fun l => s.present l && !s.reachable l) then s.whenOn (s.later (.hdmRead addr len))
    else
      let bytes := locs.map (fun l => if s.present l then s.commByte l else BitVec.allOnes 8)
      let marked := s.markedWords (locs.filter s.present)
      s.whenOn ((s.send (.hostData bytes (marked != 0 || locs.any (fun l => !s.present l)))).uncorrectable marked)

/-- `HDM_WRITE` (R125, R178, R386). -/
def execHdmWrite (addr : Nat) (data : List Byte) (s : State) : Res :=
  if hdmBytes < addr + data.length then .next s
  else
    let cells := (List.range data.length).zip data |>.map (fun p => (addr + p.1, p.2))
    if cells.any (fun p => s.present p.1 && !s.reachable p.1) then s.whenOn (s.later (.hdmWrite addr data))
    else s.whenOn (s.setCommAll (cells.filter (fun p => s.present p.1)))

-- lines requested by another device (R102)

/-- `REMOTE_LINE_REQUEST` (R102, R405): performed once on committed memory, in the context with an ASID; a page that is not
resident may be resolved by the pager later, or the request fails. -/
def execRemoteLineRequest (ctx addr : Nat) (write : Option (List Byte)) (s : State) : Res :=
  match s.slotOfAsid ctx with
  | none => .next s
  | some k =>
    let again := s.later (.remoteLineRequest ctx addr write)
    let fails := s.send (.remoteLine [] true)
    let n := match write with | some bs => bs.length | none => 128
    match s.segPages k (if write.isSome then .write else .read) addr n with
    | .ok ps =>
      let loc := fun va => (pageOf ps va).loc va
      .next (match write with
        | some bs => s.setCommAll ((List.range bs.length).zip bs |>.map (fun q => (loc (addr + q.1), q.2)))
        | none =>
          let (bs, e, s) := s.engineRead (fun va => (Tab.find? s.uncorr (loc va)).isSome) (fun va => s.commByte (loc va)) ((List.range n).map (· + addr))
          s.send (.remoteLine bs (e != 0)))
    | .fault _ => let (b, t) := s.pickBelow 2; .next (if b = 0 then t.later (.remoteLineRequest ctx addr write) else t.send (.remoteLine [] true))
    | .waits => .next again
    | .poison | .bad => .next fails
    | .absent a => .fault (.absentAddress a)

-- launch queues (R393 to R396)

/-- Whether a queue register exists: only a resident slot's page is mapped (R387). -/
def State.hasQueue (s : State) (slot queue : Nat) : Bool := (s.ctx slot).resident && decide (queue < 64)

/-- `QRSV` (R394, R395). -/
def execQrsv (slot queue : Nat) (s : State) : Res :=
  if !s.hasQueue slot queue then (let (x, t) := s.pick; s.whenOn (t.send (.qrsv x)))
  else
    let (w, t) := s.reserveSlot slot queue
    .next (t.send (.qrsv (BitVec.ofNat 64 w)))

/-- `QDB` (R394). -/
def execQdb (slot queue : Nat) (s : State) : Res := .next (if s.hasQueue slot queue then s.lookQueue slot queue else s)

/-- `QUEUE_POLL_TIMER` (R394). -/
def execQueuePollTimer (slot queue : Nat) (s : State) : Res :=
  if s.hasQueue slot queue && (s.queue slot queue).fetches then .next (s.lookQueue slot queue) else .refused .notEnabled

/-- `QRESET` (R393, R395): only a write of 1 while EN is 0. -/
def execQreset (slot queue : Nat) (val : W64) (s : State) : Res :=
  .next (if s.hasQueue slot queue && val == 1 && !(s.queue slot queue).en then
      s.modQueue slot queue (fun q => { q with qrp := q.qwp, ovr := false, cstop := false, wait := false, bad := [] })
    else s)

/-- The place of the next record of a queue that waits to be dispatched. -/
def Ctx.nextOrd (c : Ctx) (queue : Nat) : Option Nat := ((c.ready.filter (fun r => r.queue == queue)).map (·.ord)).min?

/-- `CSTOP_CLEAR` (R393, R396): the SERIAL record before which the queue had stopped may then be dispatched: the failures of
earlier records no longer count. -/
def execCstopClear (slot queue : Nat) (s : State) : Res :=
  .next (if s.hasQueue slot queue && (s.queue slot queue).cstop then
      s.modQueue slot queue (fun q => { q with cstop := false, bad := match (s.ctx slot).nextOrd queue with
        | some n => q.bad.filter (fun m => decide (n < m))
        | none => [] })
    else s)

/-- `BNCRP` (R103, R342, R408): the bounce slots up to a SEQ are finished; a value above the last SEQ is ignored. -/
def execBncrp (slot : Nat) (val : W64) (s : State) : Res :=
  let c := s.ctx slot
  let v := val.toNat
  if !c.resident || c.bncSeq < v then .next s
  else
    let done := c.bounces.filter (fun b => decide (b.upto ≤ v))
    let s := s.modCtx slot (fun c => { c with bncrp := v, bounces := c.bounces.filter (fun b => decide (v < b.upto)) })
    .next (done.foldl (fun s b => s.countDone b.notify) s)

end Sys2Proof.Machine
end

