-- ==== Sys2Proof/Machine/Contexts.lean ====
section
/-! DEFINITION. The driver's context commands (R402, R403), and the removal of translations (R106, R406).
Readings of the spec that this file follows: log entry 40. -/

namespace Sys2Proof.Machine

open Sys2Proof

-- context commands (R403)

/-- A context command written to CTXCMD: refused while another one executes; else DONE or ERR tells how it ended. `f` gives
none where the command fails. -/
def State.ctxCommand (s : State) (slot : Nat) (f : State → Option State) : State :=
  if !s.boot.powered then s
  else if s.drv.ctxBusy then { s with drv := { s.drv with ctxErr := true } }
  else
    let s := { s with drv := { s.drv with ctxSlot := slot % 256, ctxDone := false, ctxErr := false } }
    match f s with
    | some t => { t with drv := { t.drv with ctxDone := !t.drv.ctxBusy } }
    | none => { s with drv := { s.drv with ctxErr := true } }

/-- The address of a slot's entry of the context table (R402). -/
def State.entryAt (s : State) (slot : Nat) : Nat := s.drv.ctxbase.toNat + 64 * slot

/-- The 512 bits of an entry. -/
def State.ctxEntry (s : State) (slot : Nat) : Nat := s.commNat (s.entryAt slot) 64

/-- A command that reads a slot's entry: it stalls while the entry's wing is not online (R411), and an uncorrectable entry raises
UECC (R425). -/
def State.entryCommand (s : State) (slot : Nat) (e : Instr) (f : State → State) : Res :=
  let a := s.entryAt (slot % 256)
  if !s.boot.powered || s.drv.ctxBusy then .next (f s)
  else if !s.present a then .fault (.absentAddress a)
  else if !s.reachable a then .next (s.later e)
  else .next (f (s.noteRead ((List.range 64).map (· + a))))

/-- The checks of a context table entry on itself (R402, R403). -/
def entryValid (e : Nat) : Bool :=
  bitAt e 16 && bits e 17 47 == 0 && bits e 64 64 % 2048 == 0 && bits e 128 64 % 65536 == 0 && bits e 192 64 % 65536 == 0 &&
  bits e 256 64 % 4096 == 0 && decide (16 ≤ bits e 320 21) && decide (bits e 320 21 ≤ 2 ^ 20) && bits e 341 11 == 0 &&
  decide (1 ≤ bits e 352 21) && decide (bits e 352 21 ≤ 2 ^ 20) && bits e 373 11 == 0 && bits e 384 64 % 8 == 0 &&
  decide (bits e 448 16 ≤ bits e 464 16) && decide (bits e 464 16 ≤ 32768) && decide (1000 ≤ bits e 480 24) && bits e 504 8 == 0

/-- A context made resident from its entry: what belongs to the slot's registers and pending actions stays (R170, R387); its groups
start with generation 0 (R130), and its work lists stand where `moves` leaves them (R411). -/
def Ctx.load (c : Ctx) (e : Nat) (moves : List (Nat × Nat)) : Ctx :=
  { c with
      groups := [], wlMoved := moves, partial_ := [], turn := 0, lost := [],
      resident := true, asid := bits e 0 16, ptroot := bits e 64 64, cellar := bits e 128 64, cellsz := bits e 192 64,
      bncbase := bits e 256 64, bncslots := bits e 320 21, wlcap := bits e 352 21, uptab := bits e 384 64,
      upcnt := bits e 448 16, upmax := bits e 464 16, prdl := bits e 480 24,
      tagCtr := 0, faddr := 0, fteam := 0, bncrp := 0, bncSeq := 0, bounces := [] }

/-- The moves that keep a new context's work lists off the wings that are not online (R411). -/
def State.closedWings (s : State) : List (Nat × Nat) :=
  ((List.range 4).filter (fun w => (s.wing w).state != .online)).map (fun w =>
    (w, ((List.range 4).find? (fun v => (s.wing v).state == .online)).getD w))

/-- `CTX_LOAD` (R170, R171, R402, R403). -/
def execCtxLoad (slot : Nat) (s : State) : Res :=
  s.entryCommand slot (.ctxLoad slot) (fun s => s.ctxCommand slot (fun s =>
    let k := slot % 256
    let e := s.ctxEntry k
    if !entryValid e || (s.ctx k).resident || (s.slotOfAsid (bits e 0 16)).isSome then none
    else some (s.modCtx k (fun c => c.load e s.closedWings))))

/-- PRQ raised in some teams, with the teams that are pre-empted together with them (R42, R198). -/
def State.raisePrq (s : State) (teams : List Nat) : State :=
  let ids := (teams.flatMap s.together).eraseDups
  let s := ids.foldl (fun s id => s.modTeam id (fun t => if t.status = .running then { t with prq := true } else t)) s
  ids.foldl (fun s id => s.trySave id) s

/-- The running teams that satisfy a test. -/
def State.runningTeams (s : State) (p : Team → Bool) : List Nat := (s.teams.filter (fun q => q.2.status == .running && p q.2)).map (·.1)

/-- `CTX_SAVE` (R198, R403). -/
def execCtxSave (slot : Nat) (s : State) : Res :=
  .next (s.ctxCommand slot (fun s =>
    let k := slot % 256
    if !(s.ctx k).resident then none
    else
      let s := { s with drv := { s.drv with ctxBusy := true } }
      some ((s.modCtx k (fun c => { c with saving := true })).raisePrq (s.runningTeams (fun t => t.ctx == k)))))

/-- `CTX_SAVE_DONE` (R403). -/
def execCtxSaveDone (slot : Nat) (s : State) : Res :=
  if !s.drv.ctxBusy || s.drv.ctxSlot != slot || !(s.ctx slot).saving || s.runningTeams (fun t => t.ctx == slot) != [] then
    .refused .notEnabled
  else .next { s.modCtx slot (fun c => { c with saving := false }) with drv := { s.drv with ctxBusy := false, ctxDone := true } }

/-- A held launch released: its teams resume, those too that were saved meanwhile, and each slice executes its trapping instruction
again (R399, R403). One that met a conflict while it was held aborts now (R177, log entry 40). -/
def State.resumeHeld (s : State) (launch : Nat) : State :=
  let s := ((s.teams.filter (fun p => p.2.launch == launch)).map (·.1)).foldl (fun s id => s.resumeTeam id)
    (s.modLaunch launch (fun L => { L with held := false }))
  match s.launch? launch with
  | some L => if L.doomed then s.abortLaunch launch stConflict else s
  | none => s

/-- `CTX_RESUME` (R399, R403). -/
def execCtxResume (slot : Nat) (s : State) : Res :=
  .next (s.ctxCommand slot (fun s =>
    let k := slot % 256
    if !(s.ctx k).resident then none
    else some (((s.launches.filter (fun p => p.2.ctx == k && p.2.held)).map (·.1)).foldl (fun s id => s.resumeHeld id) s)))

/-- The ATTEMPT of a record's last run (R172, R392): a record that waits to run again has run with the number before. -/
def ReadyRec.lastAttempt (r : ReadyRec) : Nat := r.attempt - 1

/-- Every launch, replay and fetched record of a context that has not ended ends KILLED (R190, R191, R403). -/
def State.killAll (s : State) (ctx : Nat) : State :=
  let ids := (s.launches.filter (fun p => p.2.ctx == ctx)).map (·.1)
  let s := ids.foldl (fun s id => s.abortLaunch id stKilled) s
  let s := (Tab.keys (s.ctx ctx).replays).foldl (fun s q => s.failReplay ctx q stKilled 0) s
  let recs := (s.ctx ctx).ready
  recs.foldl (fun s r => s.endRecord ctx r.queue r.ord r.lrec stKilled 0 r.lastAttempt) (s.modCtx ctx (fun c => { c with ready := [] }))

/-- `CTX_KILL` (R190, R191, R403). -/
def execCtxKill (slot : Nat) (s : State) : Res :=
  .next (s.ctxCommand slot (fun s => if !(s.ctx (slot % 256)).resident then none else some (s.killAll (slot % 256))))

/-- A slot emptied: the groups, lists, segments and rings of its context are gone (R130, R131, R383, R403).
What still has to be written in memory stays with the slot, as its pending actions do (R170). -/
def Ctx.unload (c : Ctx) : Ctx :=
  { c with resident := false, groups := [], wlMoved := [], partial_ := [], wlists := [], inflight := [], segs := [], openSeg := [], rings := [] }

/-- `CTX_UNLOAD` (R383, R403). -/
def execCtxUnload (slot : Nat) (s : State) : Res :=
  .next (s.ctxCommand slot (fun s =>
    let k := slot % 256
    let c := s.ctx k
    if !c.resident || s.teams.any (fun p => p.2.ctx == k) || s.launches.any (fun p => p.2.ctx == k) || !c.replays.isEmpty || !c.ready.isEmpty then none
    else some { s.modCtx k Ctx.unload with chunks := s.chunks.filter (fun ch => ch.ctx != k) }))

/-- `CTX_UPOOL` (R403). -/
def execCtxUpool (slot : Nat) (s : State) : Res :=
  s.entryCommand slot (.ctxUpool slot) (fun s => s.ctxCommand slot (fun s =>
    let k := slot % 256
    let c := s.ctx k
    let e := s.ctxEntry k
    if !c.resident || bits e 464 16 < c.upcnt || 32768 < bits e 464 16 || bits e 384 64 % 8 != 0 then none
    else some (s.modCtx k (fun c => { c with uptab := bits e 384 64, upmax := bits e 464 16 }))))

-- removing translations (R406)

/-- A write of TLBOP: refused while an operation is in progress, or with another CMD than the event's. -/
def State.tlbCommand (s : State) (val : W64) (cmd : Nat) (f : State → State) : State :=
  if !s.boot.powered then s
  else if s.drv.tlbBusy || bits val.toNat 16 2 != cmd then { s with drv := { s.drv with tlbErr := true } }
  else f { s with drv := { s.drv with tlbAsid := bits val.toNat 0 16, tlbAll := bitAt val.toNat 18,
                                      tlbErr := s.drv.tlbErr && !bitAt val.toNat 62 } }

/-- Whether an operation concerns a cached translation (R406). -/
def Driver.names (d : Driver) (e : TlbEntry) : Bool :=
  e.asid == d.tlbAsid && (d.tlbAll || (decide (e.page ≤ d.tlbva.toNat) && decide (d.tlbva.toNat < e.page + 2 ^ e.size)))

def State.mapTlbs (s : State) (f : List TlbEntry → List TlbEntry) : State :=
  { s with cores := s.cores.map (fun (p : Nat × CoreRec) => (p.1, { p.2 with tlb := f p.2.tlb })) }

/-- `TLB_MARK` (R106, R406). -/
def execTlbMark (val : W64) (s : State) : Res :=
  .next (s.tlbCommand val 1 (fun s =>
    let d := s.drv
    { s.mapTlbs (fun l => l.map (fun e => if d.names e then { e with drain := true } else e)) with drv := { d with tlbBusy := true } }))

/-- `TLB_MARK_DRAINED` (R406): every store so far has been performed when an event happens (log entry 44), so none is left to wait
for. -/
def execTlbMarkDrained (s : State) : Res :=
  if !s.drv.tlbBusy then .refused .notEnabled else .next { s with drv := { s.drv with tlbBusy := false } }

/-- A place in the old frame of a page, as an offset into the page (R104, R406). -/
def frameOffset (old : W64) (size asid va loc : Nat) : Option Nat :=
  if pteNear old then (List.range (2 ^ size)).find? (fun o => pteLoc old size asid (va + o) == loc)
  else
    let base := pteLoc old size asid va
    if base ≤ loc && loc < base + 2 ^ size then some (loc - base) else none

/-- The entries of a table of locations moved from an old frame to a new one (R406). -/
def moveLines {α : Type} (mv : Nat → Nat) (t : Tab α) : Tab α := Tab.putAll [] (t.map (fun p => (mv p.1, p.2)))

def WSet.move (mv : Nat → Nat) (w : WSet) : WSet := { plain := moveLines mv w.plain, red := moveLines mv w.red }

def Launch.move (mv : Nat → Nat) (L : Launch) : Launch :=
  { L with lines := moveLines mv L.lines, snap := moveLines mv L.snap,
           grids := L.grids.map (fun (p : Nat × Grid) => (p.1, { p.2 with
             base := moveLines mv p.2.base, wsets := p.2.wsets.map (fun (q : Nat × WSet) => (q.1, q.2.move mv)) })) }

/-- The move of a page from its old frame to a new one: which places lie in either, and where an old place goes. -/
structure FrameMove where
  size : Nat
  old  : Nat → Bool
  new  : Nat → Bool
  mv   : Nat → Nat

/-- What a replay reads below its records' writes, the old frame's bytes in the new frame's places (R398, R406). -/
def Replay.move (m : FrameMove) (r : Replay) : Replay :=
  let all := r.mem0 ++ r.remote0
  let moved := (all.filter (fun p => m.old p.1)).map (fun p => (m.mv p.1, p.2))
  let put := fun (t : List Host.Cell) (here : Nat → Bool) =>
    Tab.setAll (t.filter (fun p => !m.new p.1)) 0 (moved.filter (fun p => here p.1))
  { r with view := moveLines m.mv r.view, mem0 := put r.mem0 (fun a => decide (a < localEnd)),
           remote0 := put r.remote0 (fun a => !decide (a < localEnd)) }

/-- Every understory and snapshot byte of the old frame moved to the new one (R406). -/
def State.moveFrame (s : State) (m : FrameMove) : State :=
  let mv := m.mv
  { s with
      launches := s.launches.map (fun (p : Nat × Launch) => (p.1, p.2.move mv)),
      teams := s.teams.map (fun (p : Nat × Team) => (p.1, { p.2 with ws := p.2.ws.move mv })),
      ctxs := s.ctxs.map (fun (p : Nat × Ctx) => (p.1, { p.2 with replays := p.2.replays.map (fun (r : Nat × Replay) => (r.1, r.2.move m)) })) }

/-- The stalled walks of a context's teams are released (R106, R406). -/
def State.releaseWalks (s : State) (ctx : Nat) : State :=
  { s with teams := s.teams.map (fun (p : Nat × Team) => (p.1, if p.2.ctx = ctx then
      { p.2 with gangs := p.2.gangs.map (fun g => g.modSlices (List.range 8) (fun x => if x.wait = .drain then { x with wait := .ready } else x)) }
    else p.2)) }

/-- The move of the page of TLBVA from its old frame, where the page is mapped again (R406). -/
def State.frameMove (s : State) (ctx : Nat) : Option FrameMove :=
  let d := s.drv
  match s.walk (s.ctx ctx).ptroot d.tlbva.toNat with
  | .leaf new _ size =>
    let va := d.tlbva.toNat / 2 ^ size * 2 ^ size
    some { size := size,
           old := fun loc => (frameOffset d.tlbold size d.tlbAsid va loc).isSome,
           new := fun loc => (frameOffset new size d.tlbAsid va loc).isSome,
           mv := fun loc => match frameOffset d.tlbold size d.tlbAsid va loc with
             | some o => pteLoc new size d.tlbAsid (va + o)
             | none => loc }
  | _ => none

/-- `TLB_CONFIRM` (R106, R177, R406). -/
def execTlbConfirm (val : W64) (s : State) : Res :=
  .next (s.tlbCommand val 2 (fun (s : State) =>
    let d := s.drv
    let n0 := s.nextId
    let ctx := s.slotOfAsid d.tlbAsid
    let s := match ctx with
      | none => s
      | some k =>
        if d.tlbAll then s
        else
          let size := ((s.frameMove k).map (fun (m : FrameMove) => m.size)).getD 16
          let va := d.tlbva.toNat / 2 ^ size * 2 ^ size
          let lines := (List.range (2 ^ size / 128)).map (fun j => pteLoc d.tlbold size d.tlbAsid (va + 128 * j))
          let hit : List Nat := (s.launches.filter (fun (p : Nat × Launch) => p.2.ctx == k && p.2.tracked && lines.any p.2.hit)).map Prod.fst
          let s : State := match s.frameMove k with | some m => s.moveFrame m | none => s
          (hit.foldl (fun (s : State) id => s.conflictAbort id) s).inQueueOrder k n0
    let s := s.mapTlbs (fun l => l.filter (fun e => !(d.names e && e.drain)))
    match ctx with | some k => s.releaseWalks k | none => s))

end Sys2Proof.Machine
end

