-- ==== Sys2Proof/Machine/Sha.lean ====
section
/-! DEFINITION. SHA-256 (R415, R417, R419), the hash of FIPS 180-4 that the spec takes by name (log entry 18). -/

namespace Sys2Proof.Machine

open Sys2Proof

/-- The 64 round constants. -/
def shaK : List W32 :=
  [0x428a2f98, 0x71374491, 0xb5c0fbcf, 0xe9b5dba5, 0x3956c25b, 0x59f111f1, 0x923f82a4, 0xab1c5ed5] ++
  [0xd807aa98, 0x12835b01, 0x243185be, 0x550c7dc3, 0x72be5d74, 0x80deb1fe, 0x9bdc06a7, 0xc19bf174] ++
  [0xe49b69c1, 0xefbe4786, 0x0fc19dc6, 0x240ca1cc, 0x2de92c6f, 0x4a7484aa, 0x5cb0a9dc, 0x76f988da] ++
  [0x983e5152, 0xa831c66d, 0xb00327c8, 0xbf597fc7, 0xc6e00bf3, 0xd5a79147, 0x06ca6351, 0x14292967] ++
  [0x27b70a85, 0x2e1b2138, 0x4d2c6dfc, 0x53380d13, 0x650a7354, 0x766a0abb, 0x81c2c92e, 0x92722c85] ++
  [0xa2bfe8a1, 0xa81a664b, 0xc24b8b70, 0xc76c51a3, 0xd192e819, 0xd6990624, 0xf40e3585, 0x106aa070] ++
  [0x19a4c116, 0x1e376c08, 0x2748774c, 0x34b0bcb5, 0x391c0cb3, 0x4ed8aa4a, 0x5b9cca4f, 0x682e6ff3] ++
  [0x748f82ee, 0x78a5636f, 0x84c87814, 0x8cc70208, 0x90befffa, 0xa4506ceb, 0xbef9a3f7, 0xc67178f2]

/-- The eight working words. -/
structure ShaWords where
  a : W32 := 0x6a09e667
  b : W32 := 0xbb67ae85
  c : W32 := 0x3c6ef372
  d : W32 := 0xa54ff53a
  e : W32 := 0x510e527f
  f : W32 := 0x9b05688c
  g : W32 := 0x1f83d9ab
  h : W32 := 0x5be0cd19
  deriving DecidableEq, Repr

/-- The bytes of a word, most significant first, as one number. -/
def beNat (l : List Byte) : Nat := l.foldl (fun n b => n * 256 + b.toNat) 0

/-- The n bytes of a number, most significant first. -/
def beBytes (n v : Nat) : List Byte := (List.range n).map (fun i => BitVec.ofNat 8 (v / 256 ^ (n - 1 - i)))

/-- The next word of the message schedule, from the words before it, newest first. -/
def shaNext (w : List W32) : W32 :=
  let x := w.getD 1 0
  let y := w.getD 14 0
  (x.rotateRight 17 ^^^ x.rotateRight 19 ^^^ x >>> 10) + w.getD 6 0 + (y.rotateRight 7 ^^^ y.rotateRight 18 ^^^ y >>> 3) + w.getD 15 0

/-- The 64 words of the message schedule of a block of 64 bytes. -/
def shaSchedule (block : List Byte) : List W32 :=
  let first := (List.range 16).map (fun i => BitVec.ofNat 32 (beNat ((block.drop (4 * i)).take 4)))
  ((List.range 48).foldl (fun (w : List W32) _ => shaNext w :: w) first.reverse).reverse

/-- One round. -/
def shaRound (s : ShaWords) (kw : W32) : ShaWords :=
  let t1 := s.h + (s.e.rotateRight 6 ^^^ s.e.rotateRight 11 ^^^ s.e.rotateRight 25) + ((s.e &&& s.f) ^^^ (~~~s.e &&& s.g)) + kw
  let t2 := (s.a.rotateRight 2 ^^^ s.a.rotateRight 13 ^^^ s.a.rotateRight 22) + ((s.a &&& s.b) ^^^ (s.a &&& s.c) ^^^ (s.b &&& s.c))
  { a := t1 + t2, b := s.a, c := s.b, d := s.c, e := s.d + t1, f := s.e, g := s.f, h := s.g }

/-- The hash taken over one more block. -/
def shaBlock (s : ShaWords) (block : List Byte) : ShaWords :=
  let t := ((shaSchedule block).zipWith (· + ·) shaK).foldl shaRound s
  { a := s.a + t.a, b := s.b + t.b, c := s.c + t.c, d := s.d + t.d, e := s.e + t.e, f := s.f + t.f, g := s.g + t.g, h := s.h + t.h }

/-- A message padded to whole blocks: a 1 bit, zeros, and the length in bits. -/
def shaPadded (msg : List Byte) : List Byte :=
  msg ++ 0x80 :: List.replicate ((119 - msg.length % 64) % 64) 0 ++ beBytes 8 (8 * msg.length)

/-- SHA-256 of a message, its first byte the most significant. -/
def sha256 (msg : List Byte) : BitVec 256 :=
  let m := shaPadded msg
  let s := (List.range (m.length / 64)).foldl (fun (s : ShaWords) i => shaBlock s ((m.drop (64 * i)).take 64)) {}
  s.a ++ s.b ++ s.c ++ s.d ++ s.e ++ s.f ++ s.g ++ s.h

end Sys2Proof.Machine
end

