-- ==== Sys2Proof/Machine/FleetOps.lean ====
section
/-! DEFINITION. Modes, clocks, thermal samples and droop flags (R41, R421 to R428).
Readings of the spec that this file follows: log entry 41. -/

namespace Sys2Proof.Machine

open Sys2Proof

/-- The fields of the mode word. -/
def modePwr (m : W64) : Nat := bits m.toNat 0 2
def modeSplit (m : W64) : Nat := bits m.toNat 2 2
def modeEcc (m : W64) : Nat := bits m.toNat 4 2
def modeThot (m : W64) : Nat := bits m.toNat 13 7

/-- Whether a mode word holds no reserved value and every field lies in its range (R421). -/
def modeOk (m : W64) : Bool :=
  modePwr m != 3 && modeSplit m != 3 && decide (modeEcc m < 2) && decide (80 ≤ modeThot m) && decide (modeThot m ≤ 105) && bits m.toNat 20 44 == 0

/-- The measurement of a mode word (R417). -/
def modeMeasure (m : W64) : BitVec 256 := sha256 (leBytes 8 m.toNat)

/-- A mode word in force (R417, R421, R423, R425): measurement 5 is taken, MODEDONE is raised, and a new clock cap follows. -/
def State.modeInForce (s : State) (m : W64) : State :=
  let cap := modePwr m != modePwr s.fleet.mode || modeSplit m != modeSplit s.fleet.mode
  ({ s with fleet := { s.fleet with mode := m, capPending := s.fleet.capPending || cap },
            boot := { s.boot with meas := s.boot.meas.set 4 (modeMeasure m) } }).raiseEvent evModedone

/-- `MODE_WRITE` (R421, R422): a write during a change is refused (log entry 33). -/
def execModeWrite (val : W64) (s : State) : Res :=
  let refuse := { s with fleet := { s.fleet with err := true } }
  let ecc := modeEcc val != modeEcc s.fleet.mode
  s.whenOn (
    if !modeOk val || s.fleet.busy || (ecc && s.ctxs.any (fun p => p.2.resident)) then refuse
    else if ecc then { s with fleet := { s.fleet with busy := true, next := val } }
    else s.modeInForce val)

/-- `ECC_CHANGE_DONE` (R422): every DRAM byte is zero, and the mode word takes effect. -/
def execEccChangeDone (s : State) : Res :=
  if !s.fleet.busy then .refused .notEnabled
  else .next (({ s with mem := [], uncorr := [], fleet := { s.fleet with busy := false } }).modeInForce s.fleet.next)

/-- The clock caps of R423 in MHz: matrix and vector. -/
def clockCaps (m : W64) : Nat × Nat :=
  match modePwr m, modeSplit m with
  | 1, 0 => (1500, 1500)
  | 1, 1 => (1800, 1100)
  | 1, _ => (1100, 1800)
  | 0, 0 => (1200, 1200)
  | 0, 1 => (1500, 800)
  | 0, _ => (800, 1500)
  | _, _ => (1800, 1800)

/-- `CLOCK_CAP_CHANGE` (R423). -/
def execClockCapChange (s : State) : Res :=
  if !s.fleet.capPending then .refused .notEnabled
  else .next { s with fleet := { s.fleet with mclk := (clockCaps s.fleet.mode).1, vclk := (clockCaps s.fleet.mode).2, capPending := false } }

/-- The temperatures of a wing's sensors. -/
def State.wingTemps (s : State) (wing : Nat) : List Nat := (s.cores.filter (fun p => wingOfCore p.1 == wing)).map (fun p => p.2.temp)

/-- Exclusion of a core by its temperature, and THERM when it crosses THOT, or THOT crosses it (R41, R424, R425). -/
def State.exclude (s : State) (core temp : Nat) : State :=
  let thot := modeThot s.fleet.mode
  let c := s.core core
  let s' := s.modCore core (fun c => { c with
    temp := temp, above := decide (thot < temp), hot := decide (thot < temp) || (c.hot && !decide (temp < thot - 5)) })
  if !c.above && thot < temp then s'.raiseEvent evTherm else s'

/-- The telemetry that measures what the model leaves out, moved on at a sample (R426): the wing's power, the package's, and the
corrected words are free values; THRTL grows, by a free amount, only under thermal protection (log entry 26). -/
def State.telemetry (s : State) (wing : Nat) : State :=
  let (w, s) := s.pick
  let (p, s) := s.pick
  let (c, s) := s.pick
  let (m, s) := s.pick
  { s with fleet := { s.fleet with
      wpwr := s.fleet.wpwr.set wing w, pkgpwr := p, cecc := satAdd s.fleet.cecc c.toNat,
      thrtl := if s.wings.any (·.prot) then satAdd s.fleet.thrtl m.toNat else s.fleet.thrtl } }

/-- Thermal protection of a wing, and TRIP (R425, R428). -/
def State.protect (s : State) (wing : Nat) : State :=
  let ts := s.wingTemps wing
  let old := (s.wing wing).prot
  let now := ts.any (fun t => decide (110 ≤ t)) || (old && ts.any (fun t => decide (100 < t)))
  let s := s.modWing wing (fun w => { w with prot := now })
  if now && !old then s.raiseEvent evTrip else s

/-- Every wing halts, and each uncommitted launch ends KILLED (R190, R428). -/
def State.haltAll (s : State) : State :=
  (Tab.keys s.ctxs).foldl (fun s k => if (s.ctx k).resident then s.killAll k else s) { s with fleet := { s.fleet with halt := true } }

/-- `THERMAL_SAMPLE` (R41, R424 to R426, R428). -/
def execThermalSample (core temp : Nat) (s : State) : Res :=
  if 640 ≤ core then .next s
  else
    let t := ((s.exclude core temp).protect (wingOfCore core)).telemetry (wingOfCore core)
    s.whenOn (if 120 ≤ temp && !s.fleet.halt then t.haltAll else t)

/-- `DROOP_FLAG` (R41): the core stays excluded for 10 µs after the flag clears. -/
def execDroopFlag (core : Nat) (raised : Bool) (s : State) : Res :=
  if 640 ≤ core then .next s
  else s.whenOn (s.modCore core (fun c => { c with droop := raised, droopHold := !raised && (c.droop || c.droopHold) }))

/-- `DROOP_HOLD_EXPIRY` (R41, R424). -/
def execDroopHoldExpiry (core : Nat) (s : State) : Res :=
  if !(s.core core).droopHold then .refused .notEnabled else .next (s.modCore core (fun c => { c with droopHold := false }))

end Sys2Proof.Machine
end

