-- ==== Sys2Proof/Machine/BootOps.lean ====
section
/-! DEFINITION. Power, reset and boot (R414 to R417), and the SPDM responder (R418 to R420). The codes and field places of the
SPDM messages, which the spec takes from SPDM 1.3, are log entry 35.
Readings of the spec that this file follows: log entry 41. -/

namespace Sys2Proof.Machine

open Sys2Proof

-- power and reset (R414)

/-- A device that has lost what is not kept: the fuses and the leaf counter stay (R416, R418), and what the model keeps for
itself and for the outside. -/
def State.lost (s : State) (powered : Bool) (mem : List Host.Cell) (uncorr : Tab Unit) : State :=
  { State.reset with
      free := s.free, nextId := s.nextId, inbox := s.inbox, out := s.out, remote := s.remote, mem := mem, uncorr := uncorr,
      boot := { State.reset.boot with powered := powered, floor := s.boot.floor, leaf := s.boot.leaf } }

/-- `POWER_LOSS` (R416, R418). -/
def execPowerLoss (s : State) : Res := .next (s.lost false [] [])

/-- `POWER_ON` (R414): the ROM waits in STATE 000. -/
def execPowerOn (s : State) : Res := .next (if s.boot.powered then s else s.lost true [] [])

/-- `DEVICE_RESET` (R414, R428): DRAM keeps its contents (log entry 34). -/
def execDeviceReset (s : State) : Res := .next (if s.boot.powered then s.lost true s.mem s.uncorr else s)

/-- `BOOTCTL_GO` (R414): ignored in any STATE other than 000 and 100. -/
def execBootctlGo (s : State) : Res :=
  s.whenOn (if s.boot.state = 0 || s.boot.state = 4 then { s with boot := { s.boot with state := 1, err := 0 } } else s)

-- the image (R414 to R417)

/-- A field of an image, least significant byte first. -/
def imageNat (img : List Byte) (at_ n : Nat) : Nat := leNat ((img.drop at_).take n)
def imagePlen (img : List Byte) : Nat := imageNat img 8 4
def imageSvn (img : List Byte) : Byte := img.getD 12 0

/-- The most significant byte first: a word of an HSS signature. -/
def sigWord (sig : List Byte) (at_ : Nat) : Nat := beNat ((sig.drop at_).take 4)

/-- The hash chains of an LMOTS typecode that R415 allows: N32_W4 and N32_W8 (log entry 18). -/
def otsChains (code : Nat) : Option Nat := if code = 3 then some 67 else if code = 4 then some 34 else none

/-- The height of an LMS typecode that R415 allows: M32_H10, H15 and H20 (log entry 18). -/
def lmsHeight (code : Nat) : Option Nat := if code = 6 then some 10 else if code = 7 then some 15 else if code = 8 then some 20 else none

/-- The length that its typecodes imply for the LMS signature that begins a list: leaf number, LMOTS typecode, randomiser, chains,
LMS typecode and path (log entry 18); or the error code (R415). -/
def lmsLength (sig : List Byte) : Except Byte Nat :=
  if sig.length < 8 then .error 2
  else
    match otsChains (sigWord sig 4) with
    | none => .error 4
    | some p =>
      let o := 40 + 32 * p
      if sig.length < o + 4 then .error 2
      else match lmsHeight (sigWord sig o) with
        | none => .error 4
        | some h => .ok (o + 4 + 32 * h)

/-- The error code of the form of a signature with so many signed public keys, each of 56 bytes, before its last LMS signature
(R415). -/
def hssForm : Nat → List Byte → Byte
  | 0, sig =>
    match lmsLength sig with
    | .error e => e
    | .ok n => if sig.length = n then 0 else 2
  | k + 1, sig =>
    match lmsLength sig with
    | .error e => e
    | .ok n =>
      let key := sig.drop n
      if key.length < 56 then 2
      else if (lmsHeight (sigWord key 0)).isNone || (otsChains (sigWord key 4)).isNone then 4
      else hssForm k (key.drop 56)

/-- The error code of the form of an HSS signature: 1 or 2 levels, the allowed typecodes, the length they imply (R415). -/
def hssErr (sig : List Byte) : Byte :=
  if sig.length < 4 then 2 else if 2 ≤ sigWord sig 0 then 4 else hssForm (sigWord sig 0) (sig.drop 4)

/-- The bytes of a digest. -/
def digestBytes (d : BitVec 256) : List Byte := beBytes 32 d.toNat

/-- The error code of an image, 0 for one that may run (R414 to R416). -/
def State.imageErr (s : State) (img : List Byte) : Byte :=
  let n := img.length
  let plen := imagePlen img
  let entry := imageNat img 16 4
  let head := imageNat img 0 4 == 0x4B394657 && imageNat img 4 4 == 1 && (img.getD 13 0).toNat < 2 && imageNat img 14 2 == 0 &&
    imageNat img 20 44 == 0 && plen % 64 == 0 && entry % 16 == 0
  if n < 64 || 2 ^ 24 < n then 2
  else if !head then 1
  else if n ≤ 64 + plen || plen ≤ entry then 2
  else
    let msg := img.take (64 + plen)
    let sig := img.drop (64 + plen)
    if hssErr sig ≠ 0 then hssErr sig
    else if !Config.hssVerify (digestBytes (sha256 msg)) sig then 3
    else if (imageSvn img).toNat < s.boot.floor.toNat then 5
    else 0

/-- The measurements of a boot (R417). -/
def State.measures (s : State) (img : List Byte) : List (BitVec 256) :=
  [Config.romMeasurement, sha256 (img.take (64 + imagePlen img)), sha256 [imageSvn img, s.boot.floor],
   modeMeasure s.fleet.mode, modeMeasure s.fleet.mode]

/-- Bytes that the host's memory holds from a host physical address on (log entry 16). -/
def State.hostHolds (s : State) (addr : Nat) (bytes : List Byte) : State :=
  s.setCommAll (bytes.mapIdx (fun i b => (hostLoc (addr + i), b)))

/-- `BOOT_IMAGE_LOADED` (R414 to R417): the end of the copy; its bytes are those that the host's memory held from BOOTADDR on, and
they are there after it (log entry 16). Verifying needs no event of its own, so STATE 010 is passed through within this one.
FLOOR is raised after the measurements. -/
def execBootImageLoaded (image : List Byte) (fetchFault : Bool) (s : State) : Res :=
  if s.boot.state != 1 || (!fetchFault && image.length != s.boot.len.toNat) then .next s
  else
    let s := if fetchFault then s else s.hostHolds s.boot.addr.toNat image
    let err := if fetchFault then (6 : Byte) else s.imageErr image
    if err ≠ 0 then .next { s with boot := { s.boot with state := 4, err := err } }
    else
      let svn := imageSvn image
      let raise := bitAt (image.getD 13 0).toNat 0
      .next { s with boot := { s.boot with
        state := 3, err := 0, svn := svn, sram := image, meas := s.measures image,
        floor := if raise && s.boot.floor.toNat < svn.toNat then svn else s.boot.floor } }

-- the SPDM responder (R418 to R420)

def spdmBusy : Byte := 0x03
def spdmInvalid : Byte := 0x01
def spdmUnspecified : Byte := 0x05

/-- An answer to a request: Busy before the image has started, nothing without power (R419). -/
def State.spdm (s : State) (box : Nat) (f : State → State) : Res :=
  s.whenOn (if s.boot.state != 3 then s.send (.spdmError box spdmBusy) else f s)

/-- `GET_VERSION` (R419): SPDM 1.3. -/
def execGetVersion (box : Nat) (s : State) : Res := s.spdm box (fun s => s.send (.spdm box 0x04 [0x13]))
/-- `GET_CAPABILITIES` (R419): CERT, CHAL, and MEAS with signature. -/
def execGetCapabilities (box : Nat) (s : State) : Res := s.spdm box (fun s => s.send (.spdm box 0x61 (leBytes 4 0x16)))
/-- `NEGOTIATE_ALGORITHMS` (R419): TPM_ALG_SHA_256, and an extended asymmetric algorithm: the vendor registry's number and the
identifier 0x0001. -/
def execNegotiateAlgorithms (box : Nat) (s : State) : Res :=
  s.spdm box (fun s => s.send (.spdm box 0x63 (leBytes 4 1 ++ [Config.vendorRegistry, 0] ++ leBytes 2 1)))
/-- `GET_DIGESTS` (R419). -/
def execGetDigests (box : Nat) (s : State) : Res :=
  s.spdm box (fun s => s.send (.spdm box 0x01 (digestBytes (sha256 Config.certChain))))
/-- `GET_CERTIFICATE` (R419): slot 0 holds the chain. -/
def execGetCertificate (box slot : Nat) (s : State) : Res :=
  s.spdm box (fun s => if slot = 0 then s.send (.spdm box 0x02 Config.certChain) else s.send (.spdmError box spdmInvalid))

/-- The committed signature, if there is one, leaves (R418): its index names a leaf of each of the key's two levels of height 20. -/
def State.releaseSigned (s : State) : State :=
  match s.boot.signing with
  | none => s
  | some (box, code, leaf, body, msg) =>
    ({ s with boot := { s.boot with signing := none } }).send
      (.spdm box code (body ++ Config.hssSign (leaf / 2 ^ 20) (leaf % 2 ^ 20) msg))

/-- A signing request (R418, R420): requests are served one at a time, so that of an earlier one leaves first. It is refused when
the counter is used up, and Busy without a token; else the counter is advanced and committed, and the signature may leave. -/
def State.signed (s : State) (box : Nat) (code : Byte) (payload msg : List Byte) : State :=
  let s := s.releaseSigned
  if 2 ^ 40 ≤ s.boot.leaf then s.send (.spdmError box spdmUnspecified)
  else if s.boot.tokens = 0 then s.send (.spdmError box spdmBusy)
  else
    { s with boot := { s.boot with
        leaf := s.boot.leaf + 1, tokens := s.boot.tokens - 1, signing := some (box, code, s.boot.leaf, payload, msg) } }

/-- `CHALLENGE` (R418 to R420). -/
def execChallenge (box : Nat) (nonce : List Byte) (s : State) : Res :=
  let digest := digestBytes (sha256 Config.certChain)
  s.spdm box (fun s => s.signed box 0x03 digest (digest ++ nonce))

/-- A measurement block (R417): index, measurement specification 1 and the size of the measurement; then the measurement of that
specification: its raw bit-stream bit and type, its size, and the value (log entry 35). -/
def State.measBlock (s : State) (k : Nat) : List Byte :=
  [BitVec.ofNat 8 k, 1] ++ leBytes 2 35 ++ [(1#1 ++ Config.measType k : BitVec 8)] ++ leBytes 2 32 ++ digestBytes (s.boot.meas.getD (k - 1) 0)

/-- `GET_MEASUREMENTS` (R417 to R420): index 0 asks for the count, 0xFF for all. -/
def execGetMeasurements (box index : Nat) (signed : Bool) (nonce : List Byte) (s : State) : Res :=
  s.spdm box (fun s =>
    let body : Option (List Byte) :=
      if index = 0 then some [5]
      else if index = 0xFF then some ((List.range 5).flatMap (fun k => s.measBlock (k + 1)))
      else if index ≤ 5 then some (s.measBlock index) else none
    match body with
    | none => s.send (.spdmError box spdmInvalid)
    | some b => if signed then s.signed box 0x60 b (b ++ nonce) else s.send (.spdm box 0x60 b))

/-- `SIGN_TOKEN_REFILL` (R420). -/
def execSignTokenRefill (s : State) : Res :=
  if 64 ≤ s.boot.tokens then .refused .notEnabled else .next { s with boot := { s.boot with tokens := s.boot.tokens + 1 } }

end Sys2Proof.Machine
end

