-- ==== Sys2Proof/Machine/VectorInt.lean ====
section
/-! DEFINITION. Lane instructions in general, and the integer lane instructions (R257 to R261). -/

namespace Sys2Proof.Machine

open Sys2Proof

/-- A lane instruction of class S: its operand check, then a result and exceptions per active lane (R75, R257, R258). -/
def State.laneShort (s : State) (h : Hdr) (w64 : Bool) (d : Operand) (ok : Team → Bool) (res : Gang → Nat → Nat × Exc) : Res :=
  s.lane h (fun i => do
    illegalOperandIf (!laneDstOk i.tm.nregs w64 d || !ok i.tm)
    let rs := (i.active h).map (fun l => (l, res i.g l))
    let e ← laneExc i.g i.unit.gang rs
    .ok (s.passWith i (fun g => (g.writeLanes w64 d i.lanes (i.active h) (resultOf rs)).orFlags e)))

/-- A lane instruction of class L (R220 to R223): no b destination, no bypass shift, results within its window. -/
def State.laneLate (s : State) (h : Hdr) (la : Gang → Nat) (w64 : Bool) (d : Operand) (ok : Team → Bool) (res : Gang → Nat → Nat × Exc) : Res :=
  s.lane h (fun i => do
    illegalOperandIf (!lateDstOk i.tm.nregs w64 d || !ok i.tm)
    let rs := (i.active h).map (fun l => (l, res i.g l))
    let e ← laneExc i.g i.unit.gang rs
    let s := s.modGang i.unit.team i.unit.gang (fun g => g.orFlags e)
    .ok (s.passLate i (la i.g) ((i.active h).flatMap (fun l => lateLane w64 d l (resultOf rs l)))))

/-- Mask bits written in some lanes (R9, R12, R261). -/
def Gang.writeMask (g : Gang) (r : Nat) (lanes : List Nat) (val : Nat → Bool) : Gang :=
  lanes.foldl (fun g l => g.wrM r ((setBit ((g.rdM r).setWidth 64) l (val l)).setWidth 32)) g

/-- A lane comparison into a mask register (R261, R264). -/
def State.laneMaskOp (s : State) (h : Hdr) (d : Operand) (ok : Team → Bool) (res : Gang → Nat → Bool × Exc) : Res :=
  s.lane h (fun i => do
    illegalOperandIf (!mDstOk d || !ok i.tm)
    let rs := (i.active h).map (fun l => (l, (if (res i.g l).1 then 1 else 0, (res i.g l).2)))
    let e ← laneExc i.g i.unit.gang rs
    .ok (s.passWith i (fun g => (g.writeMask (mIdx d) (i.active h) (fun l => resultOf rs l == 1)).orFlags e)))

/-- The operand check of a shared integer operation on lanes. -/
def laneIntOk (f : FmtR) (op : IntOp) (t : Team) : Bool :=
  let w := tyPair f.ty
  laneSrcOk t.nregs w f.a && (!op.usesB || laneBOk t.nregs w f.b) && (!op.usesC || laneSrcOk t.nregs w f.c)

/-- The result of an integer lane instruction as its destination takes it (R249, R260): where D is b0, of 64 bits, a 32-bit result is
extended to 64 bits (log entry 36). -/
def laneResult (f : FmtR) (r : Nat) : Nat := match f.d with | .b _ => (extend64 f.ty r).toNat | _ => r

/-- The result of a shared integer operation in a lane (R260). -/
def laneIntRes (f : FmtR) (op : IntOp) (g : Gang) (l : Nat) : Nat × Exc :=
  (laneResult f (satResult f.ty f.sat (op.exact f.ty (g.rdLane f.ty f.a l) (g.rdSrc f.ty f.b l) (g.rdLane f.ty f.c l))).1, 0)

/-- A shared integer operation on lanes. -/
def State.laneInt (s : State) (h : Hdr) (f : FmtR) (op : IntOp) : Res :=
  s.laneShort h (tyPair f.ty) f.d (laneIntOk f op) (laneIntRes f op)

/-- `IADD` (R260). -/
def execIadd (h : Hdr) (f : FmtR) (s : State) : Res := s.laneInt h f .add
/-- `ISUB` (R260). -/
def execIsub (h : Hdr) (f : FmtR) (s : State) : Res := s.laneInt h f .sub
/-- `IMUL` (R260). -/
def execImul (h : Hdr) (hi : Bool) (f : FmtR) (s : State) : Res := s.laneInt h f (if hi then .mulHi else .mul)
/-- `IMAD` (R260). -/
def execImad (h : Hdr) (f : FmtR) (s : State) : Res := s.laneInt h f .mad
/-- `IMIN` (R260). -/
def execImin (h : Hdr) (f : FmtR) (s : State) : Res := s.laneInt h f .min
/-- `IMAX` (R260). -/
def execImax (h : Hdr) (f : FmtR) (s : State) : Res := s.laneInt h f .max
/-- `IABS` (R260). -/
def execIabs (h : Hdr) (f : FmtR) (s : State) : Res := s.laneInt h f .abs
/-- `INEG` (R260). -/
def execIneg (h : Hdr) (f : FmtR) (s : State) : Res := s.laneInt h f .neg
/-- `LOP` (R230, R260). -/
def execLop (h : Hdr) (lut : Byte) (f : FmtR) (s : State) : Res := s.laneInt h f (.lut lut)
/-- `IBIT` (R260). -/
def execIbit (h : Hdr) (k : BitOp) (f : FmtR) (s : State) : Res := s.laneInt h f (.bit k)

/-- `SHF` (R260): the shift amount is a 32-bit source. -/
def execShf (h : Hdr) (k : ShiftOp) (f : FmtR) (s : State) : Res :=
  let w := tyPair f.ty
  s.laneShort h w f.d (fun t => laneSrcOk t.nregs w f.a && laneBOk t.nregs false f.b)
    (fun g l => (laneResult f (patOf (tyWidth f.ty) (shiftBits k (tyWidth f.ty) (g.rdLane f.ty f.a l) (g.rdSrc .n32 f.b l % tyWidth f.ty))), 0))

/-- The integer predicates of `ICMP` (R260). -/
def icmpHolds (p : CmpOp) (x y : Int) : Bool :=
  match p with
  | .eq => x == y
  | .ne => x != y
  | .lt => decide (x < y)
  | .le => decide (x ≤ y)
  | .gt => decide (y < x)
  | .ge => decide (y ≤ x)
  | .ord | .uno => false

/-- `ICMP` (R260, R261). -/
def execIcmp (h : Hdr) (p : CmpOp) (f : FmtR) (s : State) : Res :=
  let w := tyPair f.ty
  s.laneMaskOp h f.d (fun t => laneSrcOk t.nregs w f.a && laneBOk t.nregs w f.b)
    (fun g l => (icmpHolds p (tyInt f.ty (g.rdLane f.ty f.a l)) (tyInt f.ty (g.rdSrc f.ty f.b l)), 0))

/-- `SEL` (R260). -/
def execSel (h : Hdr) (f : FmtR) (s : State) : Res :=
  let w := tyPair f.ty
  s.laneShort h w f.d (fun t => laneSrcOk t.nregs w f.a && laneBOk t.nregs w f.b && isM f.c)
    (fun g l => (laneResult f (if bitAt (g.rdM (mIdx f.c)).toNat l then g.rdLane f.ty f.a l else g.rdSrc f.ty f.b l), 0))

/-- `BFX` on patterns (R260): position and length from C. -/
def bfxBits (k : BfxOp) (w a b c : Nat) : Nat :=
  let p := min (c % 256) w
  let l := min (c / 256 % 256) (w - p)
  match k with
  | .n => bits a p l
  | .s => if l = 0 then 0 else patOf w (signedOf l (bits a p l))
  | .ins => a % 2 ^ p + b % 2 ^ l * 2 ^ p + a / 2 ^ (p + l) * 2 ^ (p + l)

/-- `BFX` (R260). -/
def execBfx (h : Hdr) (k : BfxOp) (f : FmtR) (s : State) : Res :=
  let w := tyPair f.ty
  s.laneShort h w f.d (fun t => laneSrcOk t.nregs w f.a && (k != .ins || laneBOk t.nregs w f.b) && laneSrcOk t.nregs false f.c)
    (fun g l => (laneResult f (bfxBits k (tyWidth f.ty) (g.rdLane f.ty f.a l) (g.rdSrc f.ty f.b l) (g.rdLane .n32 f.c l)), 0))

/-- `LEA` (R260). -/
def execLea (h : Hdr) (f : FmtR) (s : State) : Res :=
  let k := match f.c with | .imm i => if i.toNat < 8 then some i.toNat else none | _ => none
  s.laneShort h true f.d (fun t => laneSrcOk t.nregs true f.a && laneBOk t.nregs false f.b && k.isSome)
    (fun g l =>
      let b : Int := if f.ty = .i64 then tyInt .i32 (g.rdSrc .i32 f.b l) else tyInt .n32 (g.rdSrc .n32 f.b l)
      (patOf 64 ((g.rdLane .n64 f.a l : Int) + b * ((2 ^ k.getD 0 : Nat) : Int)), 0))

/-- `IDIV` (R250, R260). -/
def execIdiv (h : Hdr) (rem : Bool) (f : FmtR) (s : State) : Res :=
  let op : IntOp := if rem then .rem else .div
  s.laneLate h (fun _ => h.la.toNat) (tyPair f.ty) f.d (laneIntOk f op) (laneIntRes f op)

/-- The sum of `IDOT` (R260). -/
def idotExact (t : Ty) (a b c : Nat) : Int :=
  let byte := fun x q => if t = .i32 then signedOf 8 (bits x (8 * q) 8) else (bits x (8 * q) 8 : Int)
  tyInt t c + ((List.range 4).map (fun q => byte a q * byte b q)).foldl (· + ·) 0

/-- `IDOT` (R260). -/
def execIdot (h : Hdr) (f : FmtR) (s : State) : Res :=
  s.laneShort h false f.d (fun t => laneSrcOk t.nregs false f.a && laneBOk t.nregs false f.b && laneSrcOk t.nregs false f.c)
    (fun g l => (laneResult f (satResult f.ty f.sat (idotExact f.ty (g.rdLane f.ty f.a l) (g.rdSrc f.ty f.b l) (g.rdLane f.ty f.c l))).1, 0))

/-- `MOV` (R216, R257, R260). -/
def execMov (h : Hdr) (f : FmtR) (s : State) : Res :=
  let w := tyPair f.ty
  match f.b with
  | .imm32 x => s.laneShort h w f.d (fun _ => true) (fun _ _ => (laneResult f (imm32Bits f.ty x), 0))
  | .op _ => s.laneShort h w f.d (fun t => laneSrcOk t.nregs w f.a) (fun g l => (laneResult f (g.rdLane f.ty f.a l), 0))

end Sys2Proof.Machine
end

