-- ==== Sys2Proof/Machine/VectorFloat.lean ====
section
/-! DEFINITION. The floating-point lane instructions (R262 to R265). -/

namespace Sys2Proof.Machine

open Sys2Proof

/-- An operation applied to each element of a type (R265). -/
def perElem (t : Ty) (op : FSpec → Nat → Nat → Nat → Nat × Exc) (a b c : Nat) : Nat × Exc :=
  let rs := (tyElems t).map (fun (F, sh) => (op F (bits a sh F.width) (bits b sh F.width) (bits c sh F.width), sh))
  (packElems (rs.map (fun p => (p.1.1, p.2))), rs.foldl (fun e p => e ||| p.1.2) 0)

/-- The operand check of a float lane instruction. -/
def laneFloatOk (f : FmtR) (b c : Bool) (t : Team) : Bool :=
  let w := tyPair f.ty
  laneSrcOk t.nregs w f.a && (!b || laneBOk t.nregs w f.b) && (!c || laneSrcOk t.nregs w f.c)

/-- The result of a float operation in a lane, under the instruction's rounding mode (R71). -/
def laneFloatRes (f : FmtR) (op : Rm → FSpec → Nat → Nat → Nat → Nat × Exc) (g : Gang) (l : Nat) : Nat × Exc :=
  perElem f.ty (op (effRm g.fpmode f.rm)) (g.rdLane f.ty f.a l) (g.rdSrc f.ty f.b l) (g.rdLane f.ty f.c l)

/-- A class-S float lane instruction. -/
def State.laneFloat (s : State) (h : Hdr) (f : FmtR) (b c : Bool) (op : Rm → FSpec → Nat → Nat → Nat → Nat × Exc) : Res :=
  s.laneShort h (tyPair f.ty) f.d (laneFloatOk f b c) (laneFloatRes f op)

/-- A class-L float lane instruction (R223, R265). -/
def State.laneFloatLate (s : State) (h : Hdr) (f : FmtR) (b : Bool) (op : Rm → FSpec → Nat → Nat → Nat → Nat × Exc) : Res :=
  s.laneLate h (fun g => laOf g h.la) (tyPair f.ty) f.d (laneFloatOk f b false) (laneFloatRes f op)

/-- `FADD` (R263). -/
def execFadd (h : Hdr) (f : FmtR) (s : State) : Res := s.laneFloat h f true false (fun rm F a b _ => F.fadd rm a b)
/-- `FSUB` (R263). -/
def execFsub (h : Hdr) (f : FmtR) (s : State) : Res := s.laneFloat h f true false (fun rm F a b _ => F.fsub rm a b)
/-- `FMUL` (R263). -/
def execFmul (h : Hdr) (f : FmtR) (s : State) : Res := s.laneFloat h f true false (fun rm F a b _ => F.fmul rm a b)
/-- `FMA` (R263). -/
def execFma (h : Hdr) (f : FmtR) (s : State) : Res := s.laneFloat h f true true (fun rm F a b c => F.fma rm false false a b c)
/-- `FMS` (R263). -/
def execFms (h : Hdr) (f : FmtR) (s : State) : Res := s.laneFloat h f true true (fun rm F a b c => F.fma rm false true a b c)
/-- `FNMA` (R263). -/
def execFnma (h : Hdr) (f : FmtR) (s : State) : Res := s.laneFloat h f true true (fun rm F a b c => F.fma rm true false a b c)
/-- `FNMS` (R263). -/
def execFnms (h : Hdr) (f : FmtR) (s : State) : Res := s.laneFloat h f true true (fun rm F a b c => F.fma rm true true a b c)
/-- `FMIN` (R251, R264). -/
def execFmin (h : Hdr) (f : FmtR) (s : State) : Res := s.laneFloat h f true false (fun _ F a b _ => F.fminmax false a b)
/-- `FMAX` (R251, R264). -/
def execFmax (h : Hdr) (f : FmtR) (s : State) : Res := s.laneFloat h f true false (fun _ F a b _ => F.fminmax true a b)

/-- The sign operations of `FSGN` on a pattern (R76, R264). -/
def fsgnBits (k : SgnOp) (F : FSpec) (a b : Nat) : Nat :=
  let m := a % 2 ^ (F.width - 1)
  match k with
  | .abs => m
  | .neg => m + F.signBit (!bitAt a (F.width - 1))
  | .copysign => m + F.signBit (bitAt b (F.width - 1))

/-- `FSGN` (R264). -/
def execFsgn (h : Hdr) (k : SgnOp) (f : FmtR) (s : State) : Res :=
  s.laneFloat h f (k == .copysign) false (fun _ F a b _ => (fsgnBits k F a b, 0))

/-- `FCMP` (R261, R264). -/
def execFcmp (h : Hdr) (p : CmpOp) (f : FmtR) (s : State) : Res :=
  let F := if f.ty = .f64 then specF64 else specF32
  s.laneMaskOp h f.d (laneFloatOk f true false)
    (fun g l =>
      let (o, e) := F.fcompare (g.rdLane f.ty f.a l) (g.rdSrc f.ty f.b l)
      (fcmpHolds p o, e))

/-- `FCLASS` (R264): an n32 value in a single register. -/
def execFclass (h : Hdr) (f : FmtR) (s : State) : Res :=
  let F := if f.ty = .f64 then specF64 else specF32
  s.laneShort h false f.d (laneFloatOk f false false) (fun g l => (F.fclass (g.rdLane f.ty f.a l), 0))

/-- `FDIV` (R263). -/
def execFdiv (h : Hdr) (f : FmtR) (s : State) : Res := s.laneFloatLate h f true (fun rm F a b _ => F.fdiv rm a b)
/-- `FSQRT` (R263). -/
def execFsqrt (h : Hdr) (f : FmtR) (s : State) : Res := s.laneFloatLate h f false (fun rm F a _ _ => F.fsqrt rm a)
/-- `FRCP` (R263). -/
def execFrcp (h : Hdr) (f : FmtR) (s : State) : Res := s.laneFloatLate h f false (fun rm F a _ _ => F.frcp rm a)
/-- `FRSQ` (R263). -/
def execFrsq (h : Hdr) (f : FmtR) (s : State) : Res := s.laneFloatLate h f false (fun rm F a _ _ => F.frsq rm a)
/-- `FEXP2` (R263). -/
def execFexp2 (h : Hdr) (f : FmtR) (s : State) : Res := s.laneFloatLate h f false (fun rm F a _ _ => F.fexp2 rm a)
/-- `FLOG2` (R263). -/
def execFlog2 (h : Hdr) (f : FmtR) (s : State) : Res := s.laneFloatLate h f false (fun rm F a _ _ => F.flog2 rm a)

/-- `FSCALE` (R263): n is B read as i32, the same for both elements. -/
def execFscale (h : Hdr) (f : FmtR) (s : State) : Res :=
  let w := tyPair f.ty
  s.laneShort h w f.d (fun t => laneSrcOk t.nregs w f.a && laneBOk t.nregs false f.b)
    (fun g l =>
      let n := tyInt .i32 (g.rdSrc .i32 f.b l)
      perElem f.ty (fun F a _ _ => F.fscale (effRm g.fpmode f.rm) a n) (g.rdLane f.ty f.a l) 0 0)

/-- `FRND` (R263). -/
def execFrnd (h : Hdr) (f : FmtR) (s : State) : Res := s.laneFloat h f false false (fun rm F a _ _ => F.frnd rm a)

end Sys2Proof.Machine
end

