-- ==== Sys2Proof/Machine/Convert.lean ====
section
/-! DEFINITION. Conversions and packing (R266 to R268). -/

namespace Sys2Proof.Machine

open Sys2Proof

/-- The elements of a float type converted one by one to those of another (R266). -/
def convElems (src dst : Ty) (rm : Rm) (a : Nat) : Nat × Exc :=
  let rs := ((tyElems src).zip (tyElems dst)).map (fun ((F, sh), (G, dh)) => (fconv F G rm (bits a sh F.width), dh))
  (packElems (rs.map (fun p => (p.1.1, p.2))), rs.foldl (fun e p => e ||| p.1.2) 0)

/-- `CVTF` (R266). -/
def execCvtf (h : Hdr) (src : Ty) (f : FmtR) (s : State) : Res :=
  s.laneShort h (tyPair f.ty) f.d (fun t => laneSrcOk t.nregs (tyPair src) f.a)
    (fun g l => convElems src f.ty (effRm g.fpmode f.rm) (g.rdLane src f.a l))

/-- A narrow integer result in a 32-bit register: sign-extended for i types, zero-extended for n types (R266). -/
def narrowBits (t : Ty) (i : Int) : Nat := if tyWidth t = 64 then patOf 64 i else patOf 32 i

/-- `CVTI` (R70, R266). -/
def execCvti (h : Hdr) (src : Ty) (f : FmtR) (s : State) : Res :=
  let F := if src = .f64 then specF64 else specF32
  s.laneShort h (tyPair f.ty) f.d (fun t => laneSrcOk t.nregs (tyPair src) f.a)
    (fun g l =>
      let (i, e) := numToInt (effRm g.fpmode f.rm) (tyMin f.ty) (tyMax f.ty) (F.decode (g.rdLane src f.a l))
      (narrowBits f.ty i, e))

/-- An integer source of a conversion: the low bits as typed (R266). -/
def Gang.rdConvInt (g : Gang) (src : Ty) (o : Operand) (l : Nat) : Int := tyInt src (g.rdLane (if tyPair src then .n64 else .i32) o l)

/-- `CVTN` (R266). -/
def execCvtn (h : Hdr) (src : Ty) (f : FmtR) (s : State) : Res :=
  let F := if f.ty = .f64 then specF64 else specF32
  s.laneShort h (tyPair f.ty) f.d (fun t => laneSrcOk t.nregs (tyPair src) f.a)
    (fun g l => F.ofInt (effRm g.fpmode f.rm) (g.rdConvInt src f.a l))

/-- `CVTL` (R78, R79, R267): one LNS6 code per lane, with the scale in B[7:0]. -/
def execCvtl (h : Hdr) (enc : Bool) (f : FmtR) (s : State) : Res :=
  s.laneShort h false f.d (fun t => laneSrcOk t.nregs false f.a && laneBOk t.nregs false f.b)
    (fun g l =>
      let E := signedOf 8 (g.rdSrc .i32 f.b l)
      if enc then toLns6 (g.rdLane .f32 f.a l) E
      else specF32.round .rne (lnsValue (g.rdLane .n32 f.a l % 64) E))

/-- The element index of `PACK` and `UNPK`: a short immediate in range (R268). -/
def elemIndex (t : Ty) : Operand → Option Nat
  | .imm i => if i.toNat < (if t = .l6x4 then 4 else 2) then some i.toNat else none
  | _ => none

/-- `PACK` (R268). -/
def execPack (h : Hdr) (_src : Ty) (f : FmtR) (s : State) : Res :=
  if f.ty = .l6x4 then
    let e := elemIndex f.ty f.c
    s.laneShort h false f.d (fun t => laneSrcOk t.nregs false f.a && laneBOk t.nregs false f.b && e.isSome)
      (fun g l =>
        let a := g.rdLane f.ty f.a l
        let b := g.rdSrc .n32 f.b l % 64
        ((List.range 4).foldl (fun x q => x + (if some q = e then b else bits a (8 * q) 6) * 2 ^ (8 * q)) 0, 0))
  else
    let G := if f.ty = .h16x2 then specF16 else specBF16
    s.laneShort h false f.d (fun t => laneSrcOk t.nregs false f.a && laneBOk t.nregs false f.b)
      (fun g l =>
        let rm := effRm g.fpmode f.rm
        let (x, ex) := fconv specF32 G rm (g.rdLane .f32 f.a l)
        let (y, ey) := fconv specF32 G rm (g.rdSrc .f32 f.b l)
        (x + y * 2 ^ 16, ex ||| ey))

/-- `UNPK` (R268). -/
def execUnpk (h : Hdr) (_elt : Ty) (f : FmtR) (s : State) : Res :=
  let e := match f.b with | .op o => elemIndex f.ty o | .imm32 _ => none
  s.laneShort h false f.d (fun t => laneSrcOk t.nregs false f.a && e.isSome)
    (fun g l =>
      let k := e.getD 0
      if f.ty = .l6x4 then (bits (g.rdLane f.ty f.a l) (8 * k) 6, 0)
      else fconv (if f.ty = .h16x2 then specF16 else specBF16) specF32 .rne (bits (g.rdLane f.ty f.a l) (16 * k) 16))

end Sys2Proof.Machine
end

