-- ==== Sys2Proof/Machine/Lanes.lean ====
section
/-! DEFINITION. Lane movement, votes, reductions and scans, and sets declared at run time (R33 to R35, R88, R89, R145, R269
to R276).
Readings of the spec that this file follows: log entries 36 and 37. -/

namespace Sys2Proof.Machine

open Sys2Proof

-- the lane space (R269)

/-- The v register that an operand names in a member: xk is v(B + k) (R34). -/
def Wide.reg (w : Wide) (o : Operand) : Operand :=
  match o with
  | .x i => .v (BitVec.ofNat 8 ((w.tm.sets.getD w.set {}).base + i.toNat))
  | o => o

/-- A v operand, or at SET scope an x operand, within its limits (R34, R220, R269). -/
def Wide.vecOk (w : Wide) (w64 : Bool) (o : Operand) : Bool :=
  match o with
  | .v _ => laneSrcOk w.tm.nregs w64 o
  | .x i =>
    let r := (w.tm.sets.getD w.set {}).base + i.toNat
    w.scope == .set && decide (i.toNat < 64) && decide (r < w.tm.nregs) && evenIf w64 r
  | _ => false

def Wide.size (w : Wide) : Nat := 32 * w.parts.length

/-- The member that holds a lane of the space, if it has not retired. -/
def Wide.memberAt (w : Wide) (l : Nat) : Option Nat := (w.parts.getD (l / 32) none)

/-- A source in a lane of the space; an exited lane, or a lane of a retired member, reads zero (R35, R269). -/
def Wide.rdAt (w : Wide) (t : Ty) (o : Operand) (l : Nat) : Nat :=
  match w.memberAt l with
  | none => 0
  | some g => let m := w.tm.gang g; if (m.slice (l % 32 / 4)).live then m.rdLane t (w.reg o) (l % 32) else 0

/-- The active lanes of one member (R269). -/
def Wide.activeOf (w : Wide) (h : Hdr) (g : Nat) : List Nat := let m := w.tm.gang g; m.activeIn h (lanesOf m.liveSlices)

/-- The active lanes of the space. -/
def Wide.active (w : Wide) (h : Hdr) : List Nat :=
  ((List.range w.parts.length).zip w.parts).flatMap (fun p =>
    match p.2 with
    | none => []
    | some g => (w.activeOf h g).map (· + 32 * p.1))

/-- Every member changed by its part number and passed with late results (R222). -/
def State.lateWide (s : State) (w : Wide) (la : Nat) (ws : Nat → List (Dest × W64)) : State :=
  ((List.range w.parts.length).zip w.parts).foldl (fun s p =>
    match p.2 with
    | none => s
    | some g => s.modGang w.p.team g (fun m => m.passLate m.liveSlices la (ws p.1))) s

/-- Every member changed at once by its part number, with its bypass file shifted in all its lanes to the value D then
holds (R228, R258), and passed. -/
def State.shortWide (s : State) (w : Wide) (w64 : Bool) (d : Operand) (f : Nat → Gang → Gang) : State :=
  ((List.range w.parts.length).zip w.parts).foldl (fun s p =>
    match p.2 with
    | none => s
    | some g => s.modGang w.p.team g (fun m =>
      let m := f p.1 m
      (m.shiftBypass (lanesOf m.liveSlices) (fun l => BitVec.ofNat 64 (m.rdReg w64 (w.reg d) l))).pass m.liveSlices)) s

-- SHFL, BCAST, XMOV

/-- The source lane of a shuffle, if it lies in the space (R271). -/
def shflSrc (k : ShflOp) (n l b : Nat) : Option Nat :=
  match k with
  | .idx => some (b % n)
  | .up => if b ≤ l then some (l - b) else none
  | .down => if l + b < n then some (l + b) else none
  | .xor => if l ^^^ b < n then some (l ^^^ b) else none

/-- The lookahead of `SHFL` and `XSCAN`: none at SET and TEAM scope, where every destination lane is written before any member
issues on (R376). -/
def Wide.moveLa (w : Wide) (h : Hdr) : Nat := if w.scope = .gang then h.la.toNat else 0

/-- `SHFL` (R271). -/
def execShfl (h : Hdr) (k : ShflOp) (f : FmtR) (s : State) : Res :=
  s.wideOp h (f.xt.toNat % 8) scopesGST (fun s w => do
    let w64 := tyPair f.ty
    let b := match f.b with | .op o => o | .imm32 _ => .zero
    illegalOperandIf (!w.vecOk w64 f.d || !w.vecOk w64 f.a || !(w.vecOk false b || laneSrcOk w.tm.nregs false b))
    let act := w.active h
    let val := fun l => match shflSrc k w.size l (w.rdAt .n32 b l) with | some i => w.rdAt f.ty f.a i | none => w.rdAt f.ty f.a l
    .ok (s.lateWide w (w.moveLa h) (fun m =>
      (act.filter (fun l => l / 32 == m)).flatMap (fun l => lateLane w64 (w.reg f.d) (l % 32) (val l)))))

/-- A uniform B operand: a short immediate 0 to 127, or an s register of the representative (R247, R272). -/
def Wide.uniformB (w : Wide) (b : Src) : Except Stop Nat :=
  match b with
  | .op (.imm i) => if i.msb then .error (.trap cIllegalOperand 0 0) else .ok i.toNat
  | .op (.s i) => if i.toNat < 128 then .ok (w.rep.rdS i.toNat).toNat else .error (.trap cIllegalOperand 0 0)
  | _ => .error (.trap cIllegalOperand 0 0)

/-- `BCAST` (R269, R272). -/
def execBcast (h : Hdr) (f : FmtR) (s : State) : Res :=
  s.wideOp h (f.xt.toNat % 8) scopesGST (fun s w => do
    let w64 := tyPair f.ty
    let toV := w.vecOk w64 f.d
    illegalOperandIf (!(toV || sOk f.d) || !w.vecOk w64 f.a)
    let k ← w.uniformB f.b
    illegalOperandIf (decide (w.size ≤ k))
    let val := w.rdAt f.ty f.a k
    if toV then .ok (s.shortWide w w64 f.d (fun _ g => (g.activeIn h (lanesOf g.liveSlices)).foldl (fun g l => g.wrLane w64 (w.reg f.d) l val) g))
    else .ok (s.passWide w.p (fun g => g.wrS (sIdx f.d) (BitVec.ofNat 64 val))))

/-- `XMOV` (R275). -/
def execXmov (h : Hdr) (f : FmtR) (s : State) : Res :=
  s.wideOp h (f.xt.toNat % 8) [.set] (fun s w => do
    let w64 := tyPair f.ty
    let isX := fun o => match o with | .x _ => w.vecOk w64 o | _ => false
    illegalOperandIf (!isX f.d || !isX f.a)
    let r ← w.uniformB f.b
    .ok (s.shortWide w w64 f.d (fun m g =>
      (g.activeIn h (lanesOf g.liveSlices)).foldl (fun g l =>
        g.wrLane w64 (w.reg f.d) l (w.rdAt f.ty f.a ((32 * m + l + 32 * r) % w.size))) g)))

-- XVOTE, XRED, XSCAN

/-- The value of a vote over the active lanes' operands (R273). -/
def voteValue (k : VoteOp) (vals : List (Nat × Nat)) : Nat :=
  let b := match k with
    | .any => vals.any (fun p => p.2 != 0)
    | .all => vals.all (fun p => p.2 != 0)
    | _ => vals.all (fun p => vals.all (fun q => p.2 == q.2))
  match k with
  | .ballot => maskOf ((vals.filter (fun p => p.2 != 0)).map (·.1))
  | _ => if b then 1 else 0

/-- `XVOTE` (R273). -/
def execXvote (h : Hdr) (k : VoteOp) (f : FmtR) (s : State) : Res :=
  s.wideOp h (f.xt.toNat % 8) scopesGST (fun s w => do
    illegalOperandIf (!w.vecOk (tyPair f.ty) f.a)
    illegalOperandIf (if k = .ballot then w.scope != .gang || !(sOk f.d || mDstOk f.d) else !sOk f.d)
    let r := voteValue k ((w.active h).map (fun l => (l, w.rdAt f.ty f.a l)))
    .ok (s.lateWide w h.la.toNat (fun _ =>
      match f.d with
      | .m i => (List.range 32).map (fun l => (Dest.m i.toNat l, if bitAt r l then 1 else 0))
      | d => [(Dest.s (sIdx d), BitVec.ofNat 64 r)])))

/-- The contributions of a member's 32 lanes (R88, R273). -/
def Wide.contribs (w : Wide) (h : Hdr) (op : RedOp) (t : Ty) (a : Operand) (m : Nat) : List Contrib :=
  let act := w.active h
  (List.range 32).map (fun j =>
    let l := 32 * m + j
    contribOf t l (if act.contains l then w.rdAt t a l else redIdentity op t))

/-- One level of the reduction of R88: neighbours combined, lower index first. -/
def redLevel (rm : Rm) (op : RedOp) (t : Ty) : List Contrib → List Contrib × Exc
  | a :: b :: r =>
    let (c, e) := redStep rm op t a b
    let (l, e') := redLevel rm op t r
    (c :: l, e ||| e')
  | l => (l, 0)

/-- The five levels of R88. -/
def redTree (rm : Rm) (op : RedOp) (t : Ty) (levels : Nat) (l : List Contrib) : List Contrib × Exc :=
  match levels with
  | 0 => (l, 0)
  | n + 1 =>
    let (l, e) := redLevel rm op t l
    let (l, e') := redTree rm op t n l
    (l, e ||| e')

def redZero (op : RedOp) (t : Ty) : Contrib := contribOf t 0 (redIdentity op t)

/-- The arithmetic trap of a combining step: each member's TRINFO is its effective mask (R273). -/
def Wide.redTrap (w : Wide) (h : Hdr) (e : Exc) : Except Stop Unit :=
  if enabledExc w.rep.fpmode e then
    .error (.trapEach cArith (w.gangs.map (fun g => (g, BitVec.ofNat 64 (laneMask (w.activeOf h g))))) e)
  else .ok ()

/-- Exceptions ORed into every member's FLAGS (R74). -/
def State.flagsWide (s : State) (w : Wide) (e : Exc) : State := w.gangs.foldl (fun s g => s.modGang w.p.team g (fun m => m.orFlags e)) s

/-- The reduction of R88 over the lane space: each member's tree, then the fold of the roots in member order; the result with
the exceptions of every combining step. -/
def Wide.reduce (w : Wide) (h : Hdr) (op : RedOp) (f : FmtR) : Nat × Exc :=
  let rm := effRm w.rep.fpmode f.rm
  let ms := (List.range w.parts.length).map (fun m => redTree rm op f.ty 5 (w.contribs h op f.ty f.a m))
  let roots := ms.map (fun p => p.1.headD (redZero op f.ty))
  let c := redFold rm op f.ty (roots.headD (redZero op f.ty)) (roots.drop 1)
  (redResult f.ty c.1, ms.foldl (fun e p => e ||| p.2) 0 ||| c.2)

/-- `XRED` (R16, R88, R273). -/
def execXred (h : Hdr) (op : RedOp) (f : FmtR) (s : State) : Res :=
  s.wideOp h (f.xt.toNat % 8) scopesGST (fun s w => do
    illegalOperandIf (!sOk f.d || !w.vecOk (tyPair f.ty) f.a)
    let r := w.reduce h op f
    w.redTrap h r.2
    .ok ((s.flagsWide w r.2).lateWide w h.la.toNat (fun _ => [(.s (sIdx f.d), BitVec.ofNat 64 r.1)])))

/-- One step of the scan of R89 at distance d. -/
def scanStep (rm : Rm) (op : RedOp) (t : Ty) (d : Nat) (l : List Contrib) : List Contrib × Exc :=
  let rs := (List.range 32).map (fun j =>
    let c := l.getD j (redZero op t)
    if j < d then (c, (0 : Exc)) else redStep rm op t (l.getD (j - d) (redZero op t)) c)
  (rs.map (·.1), rs.foldl (fun e p => e ||| p.2) 0)

/-- The five steps of R89. -/
def scanGang (rm : Rm) (op : RedOp) (t : Ty) (l : List Contrib) : List Contrib × Exc :=
  [1, 2, 4, 8, 16].foldl (fun p d => let (l, e) := scanStep rm op t d p.1; (l, p.2 ||| e)) (l, 0)

/-- The prefix P[m] of R89: the left fold of the first m totals, the identity for none. -/
def scanPrefix (rm : Rm) (op : RedOp) (t : Ty) (totals : List Contrib) (m : Nat) : Contrib × Exc :=
  match totals.take m with
  | [] => (redZero op t, 0)
  | c :: r => redFold rm op t c r

/-- The scan of R89 over the lane space: the active lanes with their results, and the exceptions of every combining step. -/
def Wide.scan (w : Wide) (h : Hdr) (op : RedOp) (excl : Bool) (f : FmtR) : List (Nat × Nat) × Exc :=
  let rm := effRm w.rep.fpmode f.rm
  let ms := (List.range w.parts.length).map (fun m => scanGang rm op f.ty (w.contribs h op f.ty f.a m))
  let e1 := ms.foldl (fun e p => e ||| p.2) 0
  let totals := ms.map (fun p => p.1.getD 31 (redZero op f.ty))
  let e2 := (scanPrefix rm op f.ty totals (w.parts.length - 1)).2
  let rs := (w.active h).map (fun l =>
    let row := (ms.getD (l / 32) ([], 0)).1
    let c := if excl then (if l % 32 = 0 then redZero op f.ty else row.getD (l % 32 - 1) (redZero op f.ty))
             else row.getD (l % 32) (redZero op f.ty)
    let p := if w.scope = .gang then (c, (0 : Exc)) else redStep rm op f.ty (scanPrefix rm op f.ty totals (l / 32)).1 c
    (l, redResult f.ty p.1, p.2))
  (rs.map (fun p => (p.1, p.2.1)), rs.foldl (fun e p => e ||| p.2.2) (e1 ||| e2))

/-- `XSCAN` (R89, R273). -/
def execXscan (h : Hdr) (op : RedOp) (excl : Bool) (f : FmtR) (s : State) : Res :=
  s.wideOp h (f.xt.toNat % 8) scopesGST (fun s w => do
    let w64 := tyPair f.ty
    illegalOperandIf (!w.vecOk w64 f.d || !w.vecOk w64 f.a)
    let r := w.scan h op excl f
    w.redTrap h r.2
    .ok ((s.flagsWide w r.2).lateWide w (w.moveLa h) (fun m =>
      (r.1.filter (fun p => p.1 / 32 == m)).flatMap (fun p => lateLane w64 (w.reg f.d) (p.1 % 32) p.2))))

-- CONFL, CMPRS, EXPND (R274)

def isV : Operand → Bool | .v _ => true | _ => false

/-- A lane value of the issuing gang; an exited lane reads zero. -/
def Gang.rdLive (g : Gang) (t : Ty) (o : Operand) (l : Nat) : Nat := if (g.slice (l / 4)).live then g.rdLane t o l else 0

/-- The mask of R145. -/
def conflMask (vals : List (Nat × Nat)) : Nat :=
  maskOf ((vals.filter (fun p => vals.any (fun q => decide (q.1 < p.1) && q.2 == p.2))).map (·.1))

/-- `CONFL` (R145, R274). -/
def execConfl (h : Hdr) (f : FmtR) (s : State) : Res :=
  s.gangOp h (fun s i => do
    illegalOperandIf (!mDstOk f.d || !isV f.a || !laneSrcOk i.tm.nregs (tyPair f.ty) f.a)
    let m := conflMask ((i.active h).map (fun l => (l, i.g.rdLane f.ty f.a l)))
    .ok (s.passWith i (fun g => g.wrM (mIdx f.d) (BitVec.ofNat 32 m))))

/-- Lanes written with values, the bypass file receiving what D then holds (R258, R274), and the gang passed. -/
def State.writeMoved (s : State) (i : Issuer) (w64 : Bool) (d : Operand) (vals : List (Nat × Nat)) : State :=
  s.passWith i (fun g =>
    let g := vals.foldl (fun g p => g.wrLane w64 d p.1 p.2) g
    g.shiftBypass i.lanes (fun l => BitVec.ofNat 64 (g.rdReg w64 d l)))

/-- `CMPRS` (R274). -/
def execCmprs (h : Hdr) (f : FmtR) (s : State) : Res :=
  s.gangOp h (fun s i => do
    let w64 := tyPair f.ty
    illegalOperandIf (!isV f.d || !isV f.a || !laneSrcOk i.tm.nregs w64 f.a || !laneSrcOk i.tm.nregs w64 f.d)
    let act := i.active h
    .ok (s.writeMoved i w64 f.d ((List.range act.length).zip (act.map (fun l => i.g.rdLive f.ty f.a l)))))

/-- `EXPND` (R274). -/
def execExpnd (h : Hdr) (f : FmtR) (s : State) : Res :=
  s.gangOp h (fun s i => do
    let w64 := tyPair f.ty
    illegalOperandIf (!isV f.d || !isV f.a || !laneSrcOk i.tm.nregs w64 f.a || !laneSrcOk i.tm.nregs w64 f.d)
    let act := i.active h
    .ok (s.writeMoved i w64 f.d (act.zip ((List.range act.length).map (fun k => i.g.rdLive f.ty f.a k)))))

-- SETDECL

/-- `SETDECL` (R33, R276). -/
def execSetdecl (h : Hdr) (f : FmtT) (s : State) : Res :=
  s.wideOp h 0 [.team] (fun s w => do
    illegalOperandIf (!sSrcOk f.a || !natSrcOk f.b)
    let mask := (w.rep.rdScalar f.a).toNat % 2 ^ 32
    let base := (w.rep.rdScalar f.b).toNat
    illegalOperandIf (decide (2 ^ w.tm.gangs.length ≤ mask) || decide (w.tm.nregs ≤ base))
    let d : SetDecl := if mask = 0 then {} else { mask := mask, base := base }
    .ok ((s.modTeam w.p.team (fun t => { t with sets := t.sets.set (f.imm.toNat % 8) d })).passAll w.p))

end Sys2Proof.Machine
end

