-- ==== Sys2Proof/Machine/Launches.lean ====
section
/-! DEFINITION. `LAUNCH`, `CJOIN` and `LABORT` (R38, R39, R181, R348 to R351).
Readings of the spec that this file follows: log entry 32. -/

namespace Sys2Proof.Machine

open Sys2Proof

/-- What an isolated-task team's view differs in from its launch's: the base that its children read (R181). -/
def State.childBase (s : State) (L : Launch) (t : Team) : Tab Byte :=
  if !L.it then []
  else
    let own := ((Tab.find? L.grids t.grid).map (·.base)).getD []
    let locs := Tab.keys t.ws.plain ++ t.ws.red.flatMap (fun p => (List.range (atomBytes p.2.ty)).map (· + p.1))
    locs.foldl (fun b l => Tab.put b l (s.itByte L t l)) own

/-- The grid that a `LAUNCH` starts, and whether its entry addresses fail R212 (R349, R390): a rejected child has retired
with its status. -/
def State.childGrid (s : State) (i : Issuer) (L : Launch) (parent : Grid) (r : LaunchRec) : Grid × Bool :=
  let g : Grid := { depth := parent.depth + 1, parent := some (i.unit.team, i.tm.index), parentGrid := some i.tm.grid, lrec := r,
                    total := recTeams r, base := s.childBase L i.tm }
  match s.checkRec i.tm.ctx r true with
  | .ok sets => ({ g with sets := sets }, false)
  | .reject st => ({ g with total := 0, done := true, status := st, base := [], merged := true }, false)
  | .badEntry => (g, true)

/-- `LAUNCH` (R38, R39, R348, R349). -/
def execLaunch (h : Hdr) (f : FmtT) (s : State) : Res :=
  s.gangOp h (fun s i => do
    illegalOperandIf (!sOk f.d || !sOk f.a)
    let a := (i.g.rdS (sIdx f.a)).toNat
    trapIf (a % 64 != 0) cIllegalOperand (BitVec.ofNat 64 a)
    match (s.launch? i.tm.launch).bind (fun L => (Tab.find? L.grids i.tm.grid).map (fun g => (L, g))) with
    | none => .error (.retry false)
    | some (L, parent) =>
      illegalOperandIf (decide (12 ≤ parent.depth))
      trapIf (decide (2 ^ 56 < a + 64)) cProtection (BitVec.ofNat 64 a)
      if 65535 ≤ (L.grids.filter (fun p => !p.2.done)).length then .error (.retry true)
      else
        let parts := (List.range 8).map (fun k => ({ lane := k, va := a + 8 * k, n := 8 } : LaneAcc))
        let (vals, s) ← s.globalLoad i .weak .team parts
        let r := recOf (vals.flatMap (fun p => leBytes 8 p.2))
        if s.setsWait i.tm.ctx r then .error (.retry false)
        else
        let s := s.noteSets i.tm.ctx r
        let n := L.grids.length
        let (g, bad) := s.childGrid i L parent r
        let s := s.modLaunch i.tm.launch (fun L =>
          { L with grids := Tab.modify (Tab.put L.grids n g) i.tm.grid (fun p => if g.done then p else { p with kids := p.kids + 1 }) })
        let s := (s.modTeam i.unit.team (fun t => { t with kids := t.kids ++ [n] })).passWith i (fun g => g.wrS (sIdx f.d) (BitVec.ofNat 64 n))
        .ok (if bad then s.contextError i.tm.launch else s))

/-- The first nonzero status among grids, else zero (R350). -/
def firstStatus (L : Launch) (ns : List Nat) : Byte :=
  (ns.map (fun n => ((Tab.find? L.grids n).map (·.status)).getD 0)).foldl (fun a x => if a = 0 then x else a) 0

/-- `CJOIN` (R120, R181, R350). -/
def execCjoin (h : Hdr) (f : FmtT) (s : State) : Res :=
  s.gangOp h (fun s i => do
    illegalOperandIf (!sOk f.d || !natSrcOk f.a)
    let n := (i.g.rdScalar f.a).toNat
    illegalOperandIf (n != 0 && !i.tm.kids.contains n)
    let ns := if n = 0 then i.tm.kids else [n]
    match s.launch? i.tm.launch with
    | none => .error (.retry false)
    | some L =>
      if ns.any (fun k => ((Tab.find? L.grids k).map (fun g => !g.done)).getD false) then .error (.wait (.join ns))
      else
        let s := ns.foldl (fun s k => s.mergeChild i.tm.launch k) s
        .ok ((s.passWith i (fun g => g.wrS (sIdx f.d) ((firstStatus L ns).setWidth 64))).dropL1 i.tm.core))

/-- `LABORT` (R190, R191, R351). -/
def execLabort (h : Hdr) (f : FmtT) (s : State) : Res :=
  s.gangOp h (fun s i => do
    illegalOperandIf (!natSrcOk f.a)
    let c := (i.g.rdScalar f.a).toNat
    illegalOperandIf (decide (2 ^ 16 ≤ c))
    .ok (s.abortLaunch i.tm.launch stLabort (BitVec.ofNat 16 c)))

end Sys2Proof.Machine
end

