-- ==== Sys2Proof/Machine/Matrix.lean ====
section
/-! DEFINITION. Matrix operations, accumulator slots and the corner turn: `MMA`, `TMUL`, `ACCRD`, `ACCWR`, `ACCZ`, `CTURN`,
`TMV` (R87, R309 to R313, R315, R316).
Readings of the spec that this file follows: log entry 36. -/

namespace Sys2Proof.Machine

open Sys2Proof

-- MMA

/-- A voter of `MMA`: its part of the lane space, its gang, its lane and its format word (R87). -/
structure Voter where
  part : Nat
  gang : Nat
  lane : Nat
  word : Nat
  deriving DecidableEq, Repr

/-- The active lanes of an `MMA` with their words. -/
def Wide.voters (w : Wide) (h : Hdr) (c : Operand) : List Voter :=
  ((List.range w.parts.length).zip w.parts).flatMap (fun p =>
    match p.2 with
    | none => []
    | some g => (w.activeOf h g).map (fun l => { part := p.1, gang := g, lane := l, word := (w.tm.gang g).rdReg false (w.reg c) l }))

/-- Whether the operand C may hold the words (R220, R298). -/
def Wide.wordOk (w : Wide) (c : Operand) : Bool := (match c with | .n _ => laneSrcOk w.tm.nregs false c | _ => false) || w.vecOk false c

/-- The voting unit of a lane (R87): its quarter at GANG scope, else the whole scope. -/
def voteUnit (sc : Scope) (v : Voter) : Nat := if sc = .gang then v.lane / 8 else 0

/-- The voters whose words differ from the first of their unit. -/
def dissent (sc : Scope) (vs : List Voter) : List Voter :=
  vs.filter (fun v => match vs.find? (fun u => voteUnit sc u == voteUnit sc v) with | some u => u.word != v.word | none => false)

/-- The limits of step 4 of R87 and of R310 on a format word. -/
def wordFieldsOk (a b d : W128) (x : Nat) : Bool :=
  let w : W64 := BitVec.ofNat 64 x
  decide (fwFmt w < 6) && decide (fwB w < 6) && bits x 24 8 == 0 && decide (fwMode w < 2) &&
  fwFmt w == fwB w && fwFmt w == tFmtCode a && fwB w == tFmtCode b && decide (1 ≤ fwPlanes w) && decide (fwPlanes w ≤ fmtPlanes (tFmt a)) &&
  (tFmt a != .i8 || bits x 14 8 == 0) && tFmt d == accFmt (tFmt a)

/-- The mask of the quarters of some lanes (R87). -/
def quarterMask (ls : List Nat) : W64 := BitVec.ofNat 64 (maskOf (ls.map (· / 8)))

/-- The records of tD in the other gangs that perform an `MMA` for its set or its team (R311). -/
def Wide.mmaOlds (w : Wide) (d : Operand) : List W128 :=
  (w.gangs.filter (fun g => w.scope != .gang && g != w.gangs.headD 0)).map (fun g => (w.tm.gang g).rdT (tIdx d))

/-- The operation of an `MMA` whose product goes to slot `n` (R87, R310, R311): at GANG scope the quarters with an active lane,
each with its word; else all rows with the one word. -/
def Wide.mmaOp (w : Wide) (ins : Instr) (f : FmtT) (vs : List Voter) (a b d : W128) (n : Nat) (new : Bool) : MatOp :=
  let wide := w.scope != .gang
  let mask := if wide then 2 ^ 32 - 1 else laneMask (vs.map (·.lane))
  let word := fun q => BitVec.ofNat 64 (((vs.find? (fun v => wide || v.lane / 8 == q)).map (·.word)).getD 0)
  let op : MatOp :=
    { gangs := w.gangs.map (fun g => (g, (w.tm.gang g).openBatch)), instr := ins, recs := [a, b],
      words := BitVec.ofNat 64 mask :: (List.range 4).map word }
  { op.reading w.tm [a, b] with
    slots := [n],
    dst := (if wide || new then .record (slotRec (tFmt d) n) else .keep),
    treg := (if wide || new then some (tIdx f.d) else none),
    ret := ((w.mmaOlds f.d).flatMap w.tm.owned).eraseDups }

/-- `MMA` for its scope (R87, R310, R311). -/
def State.mma (s : State) (ins : Instr) (h : Hdr) (f : FmtT) (w : Wide) : Except Stop State := do
  let i := w.repIssuer
  i.tileStall [f.a, f.b, f.d] []
  if tOk f.d && w.gangs.any (fun g => w.tm.tregBusy g (tIdx f.d)) then .error (.retry false)
  else
    let a ← i.tileAt false f.a
    let b ← i.tileAt false f.b
    let d ← i.tileAt false f.d
    tileTrapIf (tOk f.a && (decide (2 ≤ tKind a) || tLoc a != 0)) (tIdx f.a)
    tileTrapIf (tOk f.b && (decide (2 ≤ tKind b) || tLoc b != 0)) (tIdx f.b)
    tileTrapIf (tOk f.d && (tKind d != 1 || tLoc d != 1)) (tIdx f.d)
    tileTrapIf (tOk f.d && (w.mmaOlds f.d).any (fun r => decide (2 ≤ tKind r) && (w.tm.chainOf r).isNone)) (tIdx f.d)
    illegalOperandIf (!tOk f.a || !tOk f.b || !tOk f.d || !w.wordOk f.c)
    let vs := w.voters h f.c
    let bad := dissent w.scope vs
    (if bad = [] then .ok () else .error (.trapEach cFmtdiv (w.gangs.map (fun g =>
      (g, quarterMask ((bad.filter (fun v => v.gang == g)).map (·.lane))))) 0))
    illegalOperandIf (vs.any (fun v => !wordFieldsOk a b d v.word))
    if vs = [] then .ok (s.passAll w.p)
    else
      let place ← s.placeDense w.tm d (tFmt d)
      let (n, new) := match place with | .dense _ n new => (n, new) | _ => (0, false)
      .ok (((s.passAll w.p).modTeam w.p.team (fun t => t.takePlace place)).issueMat w.p.team (w.mmaOp ins f vs a b d n new))

/-- `MMA` (R310). -/
def execMma (h : Hdr) (f : FmtT) (s : State) : Res :=
  s.wideOp h f.imm.toNat scopesGST (fun s w => s.mma (.mma h f) h f w)

-- slots

/-- `ACCZ` (R62, R312). -/
def execAccz (h : Hdr) (f : FmtT) (s : State) : Res :=
  s.gangOp h (fun s i => do
    illegalOperandIf (!tOk f.d)
    i.tileStall [f.d] []
    let d ← i.tile false f.d
    tileTrapIf (tLoc d != 1) (tIdx f.d)
    let place ← s.placeDense i.tm d (tFmt d)
    let (n, new) := match place with | .dense _ n new => (n, new) | _ => (0, false)
    let op : MatOp :=
      { gangs := [(i.unit.gang, i.g.openBatch)], instr := .accz h f, recs := [d], slots := [n],
        dst := (if new then .record (slotRec (tFmt d) n) else .keep), treg := (if new then some (tIdx f.d) else none) }
    .ok (((s.passUnit i).modTeam i.unit.team (fun t => t.takePlace place)).issueMat i.unit.team op))

/-- The sources that `ACCWR` may convert into a slot (R312). -/
def accwrOk (slot src : Fmt) : Bool :=
  match slot with
  | .f64 => src == .bf16 || src == .f16 || src == .f32 || src == .f64
  | .i8 => src == .i8 || src == .i32
  | _ => src == .bf16 || src == .f16 || src == .f32

/-- A run of v registers within the allocation, an even one for pairs (R219, R309, R313). -/
def vRunOk (nregs : Nat) (w64 : Bool) (n : Nat) (o : Operand) : Bool :=
  match o with
  | .v k => evenIf w64 k.toNat && decide (k.toNat + (if w64 then 2 * n else n) ≤ nregs)
  | _ => false

/-- Element j of a run of v registers in a lane. -/
def Gang.runElem (g : Gang) (w64 : Bool) (o : Operand) (j lane : Nat) : Nat :=
  let k := Operand.idx o
  if w64 then (g.rdV2 (k + 2 * j) lane).toNat else (g.rdV (k + j) lane).toNat

/-- `ACCWR` (R312). -/
def execAccwr (h : Hdr) (fmt : Fmt) (f : FmtT) (s : State) : Res :=
  s.gangOp h (fun s i => do
    illegalOperandIf (!tOk f.d)
    i.tileStall [f.d] []
    let d ← i.tile false f.d
    tileTrapIf (tLoc d != 1) (tIdx f.d)
    match tSlot d with
    | none => .error (.trap cIllegalTile 0 (BitVec.ofNat 64 (tIdx f.d)))
    | some n =>
      let w64 := fmt == .f64
      illegalOperandIf (!accwrOk (tFmt d) fmt || !vRunOk i.tm.nregs w64 32 f.a)
      let act := i.active h
      let words := BitVec.ofNat 64 (laneMask act) :: (List.range 1024).map (fun k =>
        if act.contains (k / 32) then BitVec.ofNat 64 (i.g.runElem w64 f.a (k % 32) (k / 32)) else 0)
      let op : MatOp :=
        { gangs := [(i.unit.gang, i.g.openBatch)], instr := .accwr h fmt f, recs := [d], words := words, slots := [n] }
      .ok ((s.passUnit i).issueMat i.unit.team op))

/-- Row l of the slot a record names, converted to a format; zeros where it names none (R85, R313). -/
def Team.accRow (t : Team) (r : W128) (fmt : Fmt) (l : Nat) : List (Nat × Exc) :=
  (List.range 32).map (fun j => match srcSlots r with
    | n :: _ => accConvert (tFmt r) fmt (slotElem (t.slot n) l j)
    | [] => (0, 0))

/-- The v registers that a row fills in its lane, from a first one on; an INT8 element is sign-extended (R313). -/
def accWrites (fmt : Fmt) (base l : Nat) (row : List (Nat × Exc)) : List (Dest × W64) :=
  let w64 := fmt == .f64
  let ext := fun x => if fmt = .i8 then patOf 32 (signedOf 8 x) else x
  ((List.range 32).zip row).flatMap (fun q => lateLane w64 (.v (BitVec.ofNat 8 (base + (if w64 then 2 * q.1 else q.1)))) l (ext q.2.1))

/-- The exceptions of a row. -/
def rowExc (row : List (Nat × Exc)) : Exc := row.foldl (fun e x => e ||| x.2) 0

/-- `ACCRD` (R15, R85, R313). -/
def execAccrd (h : Hdr) (fmt : Fmt) (f : FmtT) (s : State) : Res :=
  s.gangOp h (fun s i => do
    illegalOperandIf (!tOk f.a)
    i.tileStall [f.a] [f.a]
    let r ← i.tile false f.a
    tileTrapIf (tKind r == 1 && tLoc r == 0) (tIdx f.a)
    tileTrapIf (decide (2 ≤ tKind r)) (tIdx f.a)
    let w64 := fmt == .f64
    illegalOperandIf ((tKind r == 1 && !slotFmtOk r fmt) || !vRunOk i.tm.nregs w64 32 f.d)
    let act := i.active h
    let exc ← laneExc i.g i.unit.gang (act.map (fun l => (l, 0, rowExc (i.tm.accRow r fmt l))))
    let ws := act.flatMap (fun l => accWrites fmt (Operand.idx f.d) l (i.tm.accRow r fmt l))
    .ok ((s.modGang i.unit.team i.unit.gang (fun g => g.orFlags exc)).passLate i h.la.toNat ws))

-- CTURN

/-- The plane-set form of `CTURN` (R309). -/
def State.turnPlanes (s : State) (i : Issuer) (h : Hdr) (fmt : Fmt) (tr : Bool) (f : FmtT) : Except Stop State := do
  let c := f.imm.toNat
  let w64 := fmt == .f64
  illegalOperandIf (!sOk f.d || decide (c < 4) || decide (32 < c) || c % 4 != 0 || !vRunOk i.tm.nregs w64 c f.a)
  let a := (i.g.rdS (sIdx f.d)).toNat
  trapIf (a % 16 != 0) cIllegalOperand (BitVec.ofNat 64 a)
  let n := setBytes fmt c
  i.tm.spadWriteCheck a n
  let act := i.active h
  let words := BitVec.ofNat 64 a :: (List.range (32 * c)).map (fun k =>
    if act.contains (k / c) then BitVec.ofNat 64 (i.g.runElem w64 f.a (k % c) (k / c) % 2 ^ fmtWidth fmt) else 0)
  .ok ((s.passUnit i).issueMat i.unit.team
    { gangs := [(i.unit.gang, i.g.openBatch)], instr := .cturn h fmt tr f, recs := [], words := words, writes := [(a, n)] })

/-- The factor form of `CTURN` (R309). -/
def State.turnFactors (s : State) (i : Issuer) (h : Hdr) (fmt : Fmt) (tr : Bool) (f : FmtT) : Except Stop State := do
  illegalOperandIf (!tOk f.d)
  i.tileStall [f.d] [f.d]
  let old ← i.tile true f.d
  let low := fmt == .bf16 || fmt == .f16 || fmt == .f32
  tileTrapIf (low && (match i.tm.pool with | some p => decide (p.block < colBlock fmt) | none => false)) (tIdx f.d)
  let k := f.imm.toNat
  illegalOperandIf (tr || !low || k = 0 || decide (16 < k) ||
    !vRunOk i.tm.nregs false k f.a || !vRunOk i.tm.nregs false k f.b)
  let place ← i.tm.placeChain fmt k
  let act := i.active h
  let cols := fun (o : Operand) => (List.range (32 * k)).map (fun q =>
    if act.contains (q % 32) then BitVec.ofNat 64 (i.g.runElem false o (q / 32) (q % 32) % 2 ^ fmtWidth fmt) else (0 : W64))
  .ok (s.issueRank i (.cturn h fmt tr f) (tIdx f.d) old [] (cols f.a ++ cols f.b) place)

/-- `CTURN` (R309). -/
def execCturn (h : Hdr) (fmt : Fmt) (tr : Bool) (f : FmtT) (s : State) : Res :=
  s.gangOp h (fun s i => match f.d with
    | .t _ => s.turnFactors i h fmt tr f
    | _ => s.turnPlanes i h fmt tr f)

-- products

/-- The records of tA, tB and tD, checked in order, then the operands (R302). -/
def Issuer.tiles (i : Issuer) (f : FmtT) : Except Stop (W128 × W128 × W128) := do
  i.tileStall [f.a, f.b, f.d] [f.a, f.b]
  let a ← i.tileAt false f.a
  let b ← i.tileAt false f.b
  let d ← i.tileAt true f.d
  illegalOperandIf (!tOk f.a || !tOk f.b || !tOk f.d)
  .ok (a, b, d)

/-- The record of one source and of tD, checked in order, then the operands (R302). -/
def Issuer.tilePair (i : Issuer) (k11 : Bool) (f : FmtT) : Except Stop (W128 × W128) := do
  i.tileStall [f.a, f.d] [f.a]
  let a ← i.tileAt k11 f.a
  let d ← i.tileAt true f.d
  illegalOperandIf (!tOk f.a || !tOk f.d)
  .ok (a, d)

/-- `TMUL` (R55, R315). -/
def execTmul (h : Hdr) (f : FmtT) (s : State) : Res :=
  s.gangOp h (fun s i => do
    let (a, b, d) ← i.tiles f
    illegalOperandIf (tFmt a != tFmt b || tLoc a != 0 || tLoc b != 0)
    let fmt := tFmt a
    let place ← (if tKind a = 0 || tKind b = 0 then .ok (.zero fmt)
      else if tKind a = 1 && tKind b = 1 then s.placeDense i.tm d (accFmt fmt)
      else i.tm.placeChain fmt (if tKind a = 1 then tRank b else if tKind b = 1 then tRank a else min (tRank a) (tRank b)))
    .ok (s.issueRank i (.tmul h f) (tIdx f.d) d [a, b] [] place))

/-- `TMV` (R316). -/
def execTmv (h : Hdr) (f : FmtT) (s : State) : Res :=
  s.gangOp h (fun s i => do
    illegalOperandIf (!tOk f.a)
    i.tileStall [f.a] [f.a]
    let a ← i.tile false f.a
    let w64 := tFmt a == .f64
    let vOk := fun (o : Operand) => match o with | .v _ => laneSrcOk i.tm.nregs w64 o | _ => false
    illegalOperandIf (!vOk f.d || !vOk f.b || (tLoc a == 1 && tFmt a == .i8))
    let act := i.active h
    let words := BitVec.ofNat 64 (laneMask act) :: (List.range 32).map (fun l =>
      if act.contains l then BitVec.ofNat 64 (i.g.rdReg w64 f.b l) else 0)
    let op : MatOp := { gangs := [(i.unit.gang, i.g.openBatch)], instr := .tmv h f, recs := [a], words := words }
    .ok ((s.passUnit i).issueMat i.unit.team (op.reading i.tm [a])))

end Sys2Proof.Machine
end

