-- ==== Sys2Proof/Machine/Preempt.lean ====
section
/-! DEFINITION. Handler entry (R195), the pager's answers (R102, R103, R192), late results (R222), and the events of
pre-emption: forced saves, the drain of copies, parked teams and restoration (R36, R42, R147, R198 to R201, R410). -/

namespace Sys2Proof.Machine

open Sys2Proof

/-- Whether a gang may enter handler state: its team has stopped after the halt, and an entry waits (R194, R195). -/
def State.mayEnter (s : State) (t : Team) (gang : Nat) : Bool :=
  let g := t.gang gang
  t.status == .running && t.halted && t.stopped && !g.handler && !g.queue.isEmpty &&
  (match s.launch? t.launch with | some L => !L.held | none => true)

/-- `HANDLER_ENTRY` (R195, R212). -/
def execHandlerEntry (team gang : Nat) (s : State) : Res :=
  match s.team? team with
  | none => .refused .notEnabled
  | some t =>
    if !s.mayEnter t gang then .refused .notEnabled
    else .next (if s.entryOk t.ctx t.trapvec then (s.cancelWaits t.ctx team gang).modGang team gang (fun g => g.enterHandler t.trapvec) else s.contextError t.launch)

/-- The registers that a result fills in one lane belong together: a window instruction finds all of them old or all of them new
(R222). -/
def Dest.place : Dest → Nat × Nat
  | .v _ l => (0, l)
  | .n _ l => (1, l)
  | .s _ => (2, 0)
  | .m _ l => (3, l)
  | .cc _ => (4, 0)

/-- `LONG_LATENCY_RESULT` (R222): one destination of a pending instruction of a gang is written, whichever comes first. -/
def execLongLatencyResult (u : UnitId) (idx : Nat) (s : State) : Res :=
  match (s.gang u.team u.gang).pend[idx]? with
  | none => .refused .notEnabled
  | some p =>
    let (k, s) := s.pickBelow (max p.writes.length 1)
    let place := (p.writes[k]?).map (fun w => w.1.place)
    let (now, rest) := p.writes.partition (fun w => some w.1.place == place)
    .next (s.modGang u.team u.gang (fun g =>
      { (now.foldl Gang.writeDest g) with pend := if rest = [] then g.pend.eraseIdx idx else g.pend.set idx { p with writes := rest } }))

-- the pager

/-- The page that a slice waits for, and the address it names. -/
def Wait.atPage : Wait → Option (Nat × W64)
  | .pager page addr => some (page, addr)
  | _ => none

/-- The slices of a gang that wait for a page, those of a ganged gang together. -/
def Gang.atPage (g : Gang) (page : Nat) : List (List Nat) :=
  let l := g.liveSlices.filter (fun k => (g.slice k).wait.atPage.any (fun p => p.1 == page))
  if l = [] then [] else if g.ganged then [l] else l.map (fun k => [k])

/-- The address that the first of some slices waiting for a page names (R102, R192). -/
def Gang.pageAddr (g : Gang) (slices : List Nat) : W64 := (((g.slice (slices.headD 0)).wait.atPage).map (·.2)).getD 0

/-- The slices of a context that wait for a page: team, gang, slices. -/
def State.atPage (s : State) (ctx page : Nat) : List (Nat × Nat × List Nat) :=
  s.teams.flatMap (fun p => if p.2.ctx = ctx then
    (List.range p.2.gangs.length).flatMap (fun gi => ((p.2.gang gi).atPage page).map (fun l => (p.1, gi, l))) else [])

/-- The page that is not resident which the command processor or the trigger unit waits for. -/
def State.postPage (s : State) (ctx : Nat) (p : Post) : Option Nat :=
  match (match p with
    | .word a _ _ _ => s.outside ctx .write a.toNat 8
    | .enqueue _ src => s.outside ctx .read src 64
    | .slot q w _ => s.outside ctx .write ((s.queue ctx q).slotAt w) 64) with
  | .error (.page base _ _) => some base
  | _ => none

/-- What waited for a page that the pager gives up: END and the counter follow all the same; the word, the record or the launch is
lost (log entry 27). -/
def State.dropPost (s : State) (ctx : Nat) (p : Post) : State :=
  match p with
  | .word _ _ intr ctr => (if intr then s.raiseIstat ctx istatEnd else s).countDone ctr
  | .enqueue _ _ | .slot _ _ _ => s

/-- A page that the pager gives up: the engine segments, the words of trigger actions and the accesses of the command processor
that wait for it fail (R103, log entry 29). -/
def State.givePage (s : State) (ctx page : Nat) : State :=
  let s := { s with teams := s.teams.map (fun (p : Nat × Team) => (p.1, if p.2.ctx = ctx then
    { p.2 with ops := p.2.ops.map (fun (q : Nat × EngOp) => (q.1, { q.2 with failed := q.2.failed ++ [page] })) } else p.2)) }
  let (lost, kept) := (s.ctx ctx).posts.partition (fun p => s.postPage ctx p == some page)
  let s := s.modCtx ctx (fun c => { c with posts := kept, lost := page :: c.lost, actions := c.actions.map (fun t => { t with failed := t.failed ++ [page] }) })
  lost.foldl (fun s p => s.dropPost ctx p) s

/-- `PAGE_FAULT_RESOLVED` (R102, R103, R192, R399): the slices that wait for the page try again; where the pager gives it up,
the fault goes to the host, and engine segments on the page fail (log entry 29). -/
def execPageFaultResolved (ctx page : Nat) (ok : Bool) (s : State) : Res :=
  let waits := s.atPage ctx page
  if ok then
    .next (waits.foldl (fun s (t, g, l) => s.modGang t g (fun g => g.modSlices l (fun x => { x with wait := .ready })))
      (s.modCtx ctx (fun c => { c with lost := c.lost.filter (· != page) })))
  else
    .next (waits.foldl (fun s (t, g, l) =>
      let h := s.gang t g
      s.takeTrap t g l (h.trapEntry none l cPage (h.pageAddr l) (if h.plainDone then 1 else 0))) (s.givePage ctx page))

-- pre-emption

/-- `PRQ_DEADLINE` (R42, R200, R410): the forced save of a team, and of the teams of its COHORT grid; without room in the save
pool no save begins. -/
def execPrqDeadline (team : Nat) (s : State) : Res :=
  match s.team? team with
  | none => .refused .notEnabled
  | some t =>
    if !t.prq || t.status == .saved then .refused .notEnabled
    else match s.saveAll false (s.together team) with
      | none => .refused .notEnabled
      | some s => .next s

/-- Whether a saved team still has copies that land in its scratchpad (R201). -/
def Team.drains (t : Team) : Bool := t.status == .saved && t.ops.any (fun p => p.2.segs.any (fun q => q.kind.lands))

/-- `SAVE_DRAIN_TIMEOUT` (R201): what has not landed goes on the fix-up lists. -/
def execSaveDrainTimeout (team : Nat) (s : State) : Res :=
  match s.team? team with
  | none => .refused .notEnabled
  | some t =>
    if !t.drains then .refused .notEnabled
    else .next (s.modTeam team (fun t => { t with ops := t.ops.map (fun (p : Nat × EngOp) =>
      (p.1, { p.2 with segs := p.2.segs.filter (fun q => !q.kind.lands), fix := p.2.fix ++ p.2.segs.filter (fun q => q.kind.lands) })) }))

/-- Whether a team is parked: every live gang is blocked (R147). -/
def Team.parked (t : Team) : Bool :=
  t.status == .running && !t.liveGangs.isEmpty && t.gangs.all (fun g => g.liveData.all (fun x => x.wait.blocked))

/-- Whether a team of a context waits in the dispatcher for room (R147). -/
def State.wantsRoom (s : State) (ctx : Nat) : Bool := (s.waiting ctx).any (fun (l, n, _) => !s.heldBack l n && !s.placeable l n)

/-- `PARK_PREEMPT` (R147, R198): PRQ of a parked team is raised, so that it is saved as having yielded. It is restored only when
the wait of one of its gangs is satisfied. -/
def execParkPreempt (team : Nat) (s : State) : Res :=
  match s.team? team with
  | none => .refused .notEnabled
  | some t => if t.parked && !t.prq && s.wantsRoom t.ctx then .next ((s.modTeam team (fun t => { t with parkedOut := true })).raisePrq [team]) else .refused .notEnabled

/-- Whether the wait of a gang of a saved team is satisfied (R147). A wait that another gang, agent or unit ends is satisfied once
it has ended; a stalled instruction and a sleep count as satisfied, for they end of themselves (log entry 31). -/
def State.waitMet (s : State) (t : Team) (gang : Nat) (w : Wait) : Bool :=
  match w with
  | .ready | .yielded | .pager _ _ | .drain | .retry _ | .sleep => true
  | .rendez _ | .queue _ | .list _ | .group _ | .append _ => false
  | .abar a n => (match (t.abar a).query n with | .ok none => false | _ => true)
  | .room q => ((t.queue? q).map (fun d => decide (0 < Tab.get d.allow 0 gang))).getD true
  | .batch n => decide (n ≤ t.batchDone gang)
  | .join ns => (match s.launch? t.launch with | some L => ns.all (fun k => ((Tab.find? L.grids k).map (·.done)).getD true) | none => true)
  | .copyYield n => ((Tab.find? t.ops n).map (·.finished)).getD true

/-- Whether a saved team may be restored (R147): one that was pre-empted while it was parked only when the wait of a gang is
satisfied, or when something that such a wait may need goes on only after the restore: a fix-up list, a matrix operation, a
collective that has timed out (R157, R201). -/
def State.eligible (s : State) (id : Nat) (t : Team) : Bool :=
  !t.parkedOut || t.ops.any (fun q => q.2.segs.isEmpty && !q.2.fix.isEmpty) || !t.mops.isEmpty ||
  s.colls.any (fun p => p.2.team == id && p.2.expired) ||
  (List.range t.gangs.length).any (fun gi => (t.gang gi).liveData.any (fun x => s.waitMet t gi x.wait))

/-- A team in its place again (R199, R200): PRQ clears, a gang that had yielded goes on, a blocked one waits again. Its collectives
whose timeout has passed end (R201). A record whose CRC or version does not match is a context error (R410). -/
def State.restoreTeam (s : State) (team core : Nat) : State :=
  match s.team? team with
  | none => s
  | some t =>
    let s := match t.saveAt with
      | some (u, _, _) => s.noteRead ((List.range t.recordBytes).map (· + s.unitAt u))
      | none => s
    if !s.imageOk t then s.contextError t.launch
    else
      let (places, s) := s.pickPlaces core t.gangs.length
      ((s.modTeam team (fun t => { t with
        status := .running, core := core, places := places, prq := false, parkedOut := false, saveAt := none,
        gangs := t.gangs.map (fun g => g.modSlices (List.range 8) (fun x => if x.wait = .yielded then { x with wait := .ready } else x)) })).dropL1 core).endExpired team

/-- The first core from one on that has room for a saved team (R36). -/
def State.coreFor (s : State) (t : Team) (core : Nat) : Option Nat :=
  (coresFrom core).find? (fun k => s.coreRoom k t.gangs.length t.nregs t.spadSize t.slots.length)

/-- A saved team restored on the first core with room, none where there is none; a running team stays where it is. -/
def State.restoreOne (s : State) (core id : Nat) : Option State :=
  match s.team? id with
  | none => some s
  | some t =>
    if t.status = .running then some s
    else if (match t.saveAt with | some (u, n, _) => !s.unitsOpen u n | none => false) then none
    else match s.coreFor t core with
      | none => none
      | some k => some (s.restoreTeam id k)

/-- Saved teams restored one after another, or none of them. -/
def State.restoreAll (s : State) (core : Nat) (teams : List Nat) : Option State :=
  match teams with
  | [] => some s
  | id :: r =>
    match s.restoreOne core id with
    | none => none
    | some t => t.restoreAll core r

/-- What restoring a team on a core gives (R36, R42): for a COHORT grid all of its teams, once one of them may be restored, and
this one on that core. -/
def State.tryRestore (s : State) (team core : Nat) : Option State :=
  match s.team? team with
  | none => none
  | some t =>
    if t.status != .saved || (s.ctx t.ctx).saving || s.fleet.halt || s.coreFor t core != some core then none
    else if !(s.together team).any (fun id => ((s.team? id).map (fun u => u.status == .saved && s.eligible id u)).getD false) then none
    else (s.restoreOne core team).bind (fun u => u.restoreAll core (s.together team))

/-- `TEAM_RESTORE` (R36, R42, R199, R200). -/
def execTeamRestore (team core : Nat) (s : State) : Res :=
  match s.tryRestore team core with
  | none => .refused .notEnabled
  | some t => .next t

end Sys2Proof.Machine
end

