-- ==== Sys2Proof/Machine/Rank.lean ====
section
/-! DEFINITION. The rank instructions `TADD`, `TSCL`, `TRND`, `TDENSE`, `TNORM`, `TTRN` (R317 to R320), and the completion of
matrix and rank operations (R155, R299). -/

namespace Sys2Proof.Machine

open Sys2Proof

/-- Whether two operands of `TADD` agree in format (R318). -/
def taddFmtOk (a b : W128) : Bool :=
  if tLoc a = tLoc b then tFmt a == tFmt b
  else if tLoc a = 1 then tFmt a == accFmt (tFmt b) else tFmt b == accFmt (tFmt a)

/-- `TADD` (R55, R56, R318). -/
def execTadd (h : Hdr) (f : FmtT) (s : State) : Res :=
  s.gangOp h (fun s i => do
    let (a, b, d) ← i.tiles f
    illegalOperandIf (!taddFmtOk a b)
    let dense := fun r => tKind r == 1
    let place ← (if dense a || dense b then s.placeDense i.tm d (accFmt (tFmt a))
      else if tKind a = 0 && tKind b = 0 then .ok (.zero (tFmt a))
      else if 32 < tRank a + tRank b then s.placeDense i.tm d (accFmt (tFmt a))
      else i.tm.placeChain (tFmt a) (tRank a + tRank b))
    .ok (s.issueRank i (.tadd h f) (tIdx f.d) d [a, b] [] place))

/-- Where a result of the kind of its source goes (R319). -/
def State.placeLike (s : State) (t : Team) (d a : W128) : Except Stop Place :=
  match tKind a with
  | 0 => .ok (.zero (tFmt a))
  | 1 => s.placeDense t d (accFmt (tFmt a))
  | _ => t.placeChain (tFmt a) (tRank a)

/-- `TSCL` (R319). -/
def execTscl (h : Hdr) (f : FmtT) (s : State) : Res :=
  s.gangOp h (fun s i => do
    let (a, d) ← i.tilePair false f
    illegalOperandIf (!sOk f.b)
    let place ← s.placeLike i.tm d a
    .ok (s.issueRank i (.tscl h f) (tIdx f.d) d [a] [i.g.rdS (sIdx f.b)] place))

/-- `TTRN` (R319). -/
def execTtrn (h : Hdr) (f : FmtT) (s : State) : Res :=
  s.gangOp h (fun s i => do
    let (a, d) ← i.tilePair false f
    let place ← s.placeLike i.tm d a
    .ok (s.issueRank i (.ttrn h f) (tIdx f.d) d [a] [] place))

/-- `TDENSE` (R319): a slot onto itself changes nothing. -/
def execTdense (h : Hdr) (f : FmtT) (s : State) : Res :=
  s.gangOp h (fun s i => do
    let (a, d) ← i.tilePair true f
    if tLoc a = 1 && f.a == f.d then .ok (s.passUnit i)
    else
      let place ← s.placeDense i.tm d (accFmt (tFmt a))
      .ok (s.issueRank i (.tdense h f) (tIdx f.d) d [a] [] place))

/-- Whether a tolerance is finite and at least +0 (R320). -/
def tauOk (x : Nat) : Bool :=
  match specF32.decode x with
  | .fin s _ _ => !s
  | _ => false

/-- `TRND` (R64, R320, R321). -/
def execTrnd (h : Hdr) (abs : Bool) (f : FmtT) (s : State) : Res :=
  s.gangOp h (fun s i => do
    illegalOperandIf (!tOk f.d)
    i.tileStall [f.d] [f.d]
    let r ← i.tile true f.d
    tileTrapIf (tKind r == 1) (tIdx f.d)
    illegalOperandIf (!sOk f.b)
    let tau := i.g.rdS (sIdx f.b)
    illegalOperandIf (!tauOk (tau.toNat % 2 ^ 32))
    if tKind r = 0 && i.tm.ccBusy i.unit.gang then .error (.retry false)
    else if tKind r = 0 then .ok (s.passWith i (fun g => g.setCc ccDns false))
    else
      let runs := i.tm.srcRuns r
      i.tm.landingCheck runs
      match s.freeSlot i.tm .f32 with
      | none => .error (.trap cAcx 0 0)
      | some n =>
        let op : MatOp := { gangs := [(i.unit.gang, i.g.openBatch)], instr := .trnd h abs f, recs := [r], words := [tau] }
        let op := { op.reading i.tm [r] with
          treg := some (tIdx f.d), dst := .round n, slots := [n], wblocks := i.tm.owned r, writes := runs }
        .ok (((s.passUnit i).modTeam i.unit.team (fun t => t.takeSlot .f32 n)).issueMat i.unit.team op))

/-- The Frobenius norm of a matrix of values (R317): FP64 for FP64 tiles, else FP32. -/
def frobenius (f : Fmt) (m : Mat) : Nat :=
  let F := resSpec f
  let rho := m.map (fun r => roundNum F (contract f 32 r r))
  let sum := match rho with
    | [] => slotZero
    | x :: r => r.foldl (fun a y => roundNum F (Num.add .rne a y).1) x
  (F.fsqrt .rne (F.round .rne sum).1).1

/-- `TNORM` (R317). -/
def execTnorm (h : Hdr) (f : FmtT) (s : State) : Res :=
  s.gangOp h (fun s i => do
    illegalOperandIf (!tOk f.a)
    i.tileStall [f.a] [f.a]
    let a ← i.tile false f.a
    illegalOperandIf (!sOk f.d || (tLoc a == 1 && tFmt a == .i8))
    if (i.tm.srcRuns a).any (fun r => i.tm.pendingAt r.1 r.2) then .error (.retry false)
    else
      let x := if tKind a = 0 then 0 else frobenius (tFmt a) (i.tm.values i.tm.spadByte (roundNum (resSpec (tFmt a))) (i.tm.owned a) a)
      .ok (s.passLate i h.la.toNat [(.s (sIdx f.d), BitVec.ofNat 64 x)]))

/-- `MATRIX_OP_COMPLETE` (R65, R155, R299): the operands are read, the result is formed and written. -/
def execMatrixOpComplete (team op : Nat) (s : State) : Res :=
  match s.team? team with
  | none => .refused .notEnabled
  | some t =>
    match Tab.find? t.mops op with
    | none => .refused .notEnabled
    | some o =>
      if !t.matReady op o then .refused .notEnabled
      else
        let (mix, s) := s.mixBytes t o
        let rd := fun a => (Tab.find? mix a).getD (t.spadByte a)
        .next ((s.countSkips t.core o rd).modTeam team (fun t => t.completeMat op o rd))

end Sys2Proof.Machine
end

