-- ==== Sys2Proof/Machine/Wings.lean ====
section
/-! DEFINITION. Trigger ownership (R409), wings (R411), repair in service (R412, R413), and the liveness of the span (R339,
R382, R427).
Readings of the spec that this file follows: log entry 41. -/

namespace Sys2Proof.Machine

open Sys2Proof

-- trigger ownership (R409)

/-- An ownership register as it reads: OWNER and EN. -/
def ownField (v : W64) : W64 := BitVec.ofNat 64 (v.toNat % 512)

/-- Whether a write changes the owner, or takes ownership away. -/
def ownerLost (old new : W64) : Bool := !bitAt new.toNat 8 || bits new.toNat 0 8 != bits old.toNat 0 8

/-- `TRGOWN_WRITE` (R409): an armed slot whose owner changes is disarmed. -/
def execTrgownWrite (wing idx : Nat) (val : W64) (s : State) : Res :=
  if 4 ≤ wing || 256 ≤ idx then .next s
  else
    let k := slotKey wing idx
    let new := ownField val
    let old := Tab.get s.trig.trgown 0 k
    s.whenOn { s with trig := { s.trig with
      trgown := Tab.set s.trig.trgown 0 k new,
      slots := if ownerLost old new then Tab.del s.trig.slots k else s.trig.slots } }

/-- `CTROWN_WRITE` (R409): a counter whose owner changes, or whose EN goes from 0 to 1, becomes 0. -/
def execCtrownWrite (wing idx : Nat) (val : W64) (s : State) : Res :=
  if 4 ≤ wing || 1024 ≤ idx then .next s
  else
    let k := ctrKey wing idx
    let new := ownField val
    let old := Tab.get s.trig.ctrown 0 k
    let zero := bits new.toNat 0 8 != bits old.toNat 0 8 || (bitAt new.toNat 8 && !bitAt old.toNat 8)
    s.whenOn { s with trig := { s.trig with
      ctrown := Tab.set s.trig.ctrown 0 k new,
      counters := if zero then Tab.del s.trig.counters k else s.trig.counters } }

-- wings (R411)

/-- A wing in a new state, which raises WING (R411, R425). -/
def State.setWing (s : State) (wing : Nat) (x : WingState) (drained : Bool) : State :=
  (s.modWing wing (fun w => { w with state := x, drained := drained })).raiseEvent evWing

/-- A refused wing command. -/
def State.wingRefuses (s : State) (wing : Nat) : State := s.modWing wing (fun w => { w with err := true })

def State.modPort (s : State) (p : Nat) (f : Port → Port) : State := { s with span := { s.span with ports := s.span.ports.modify p f } }
def State.port (s : State) (p : Nat) : Port := s.span.ports.getD p {}

/-- The ports of a wing: four each (R4). -/
def portsOf (wing : Nat) : List Nat := [4 * wing, 4 * wing + 1, 4 * wing + 2, 4 * wing + 3]

/-- The lowest-numbered online wing other than one. -/
def State.otherWing (s : State) (wing : Nat) : Nat := ((List.range 4).find? (fun w => w != wing && (s.wing w).state == .online)).getD wing

/-- The work lists of every resident context that stand on a wing move to another (R411). -/
def State.moveLists (s : State) (old new : Nat) : State :=
  { s with ctxs := s.ctxs.map (fun (p : Nat × Ctx) => (p.1, if p.2.resident then { p.2 with wlMoved := p.2.wlMoved ++ [(old, new)] } else p.2)) }

/-- `WING_DRAIN` (R42, R198, R411): the wing's teams are pre-empted and its ports close; its work lists begin to move. -/
def execWingDrain (wing : Nat) (s : State) : Res :=
  if 4 ≤ wing then .next s
  else s.whenOn (
    if (s.wing wing).state != .online || s.onlineWings ≤ 1 then s.wingRefuses wing
    else
      let s := s.setWing wing .draining false
      let s := (portsOf wing).foldl (fun s p => s.modPort p (fun x => { x with state := 0 })) s
      s.raisePrq (s.runningTeams (fun t => wingOfCore t.core == wing)))

/-- Whether nothing of a wing remains: no team, and no engine operation or collective of one (R411). -/
def State.wingEmpty (s : State) (wing : Nat) : Bool :=
  s.teams.all (fun p => wingOfCore p.2.core != wing ||
    (p.2.status == .saved && p.2.ops.all (fun q => q.2.segs.isEmpty) && s.colls.all (fun c => c.2.team != p.1 || c.2.expired)))

/-- `WING_DRAINED` (R411): its work lists have moved. -/
def execWingDrained (wing : Nat) (s : State) : Res :=
  if (s.wing wing).state != .draining || !s.wingEmpty wing then .refused .notEnabled
  else .next ((s.setWing wing .offline true).moveLists wing (s.otherWing wing))

/-- `WING_RESET` (R136, R190, R411): the cores' caches and translations go; a launch with a team still there ends KILLED. -/
def execWingReset (wing : Nat) (s : State) : Res :=
  if 4 ≤ wing then .next s
  else s.whenOn (
    if (s.wing wing).state != .offline then s.wingRefuses wing
    else
      let lost := ((s.runningTeams (fun t => wingOfCore t.core == wing)).filterMap (fun id => (s.team? id).map (·.launch))).eraseDups
      let n0 := s.nextId
      let s := lost.foldl (fun s l => s.abortLaunch l stKilled) (s.setWing wing .resetting false)
      let s := (Tab.keys s.ctxs).foldl (fun (s : State) k => s.inQueueOrder k n0) s
      { s with cores := s.cores.map (fun (p : Nat × CoreRec) => (p.1, if wingOfCore p.1 = wing then { p.2 with tlb := [], l1 := [] } else p.2)) })

/-- `WING_RESET_DONE` (R411). -/
def execWingResetDone (wing : Nat) (s : State) : Res :=
  if (s.wing wing).state != .resetting then .refused .notEnabled else .next (s.setWing wing .offline true)

/-- A counter update that waited for its wing, the slots not yet evaluated. -/
def State.applyCtr (s : State) (wing : Nat) (u : Nat × Bool × Nat) : State :=
  let (k, set, n) := u
  let key := ctrKey wing k
  if !bitAt (Tab.get s.trig.ctrown 0 key).toNat 8 then s
  else
    let v := if set then n else min ((s.ctrVal key).toNat + n) (2 ^ 32 - 1)
    { s with trig := { s.trig with counters := Tab.set s.trig.counters 0 key (BitVec.ofNat 32 v) } }

/-- `WING_ONLINE` (R411): queued counter updates are applied in order, then every armed slot is evaluated once. -/
def execWingOnline (wing : Nat) (s : State) : Res :=
  if 4 ≤ wing then .next s
  else s.whenOn (
    if (s.wing wing).state != .offline then s.wingRefuses wing
    else
      let queued := (s.wing wing).queued
      let s := (s.setWing wing .online false).modWing wing (fun w => { w with queued := [] })
      let s := (portsOf wing).foldl (fun s p => s.modPort p (fun x => if x.disable then x else { x with state := 1 })) s
      (queued.foldl (fun s u => s.applyCtr wing u) s).evaluate wing none)

-- rows (R412, R413)

/-- The key of a bank among the spare counts. -/
def bankKey (rowret : W64) : Nat := (bits rowret.toNat 0 2 * 160 + bits rowret.toNat 2 8) * 32 + bits rowret.toNat 10 5

/-- A write of ROWRET: the row's fields, and FAIL cleared where its bit is written as 1 (R412). -/
def Repair.write (r : Repair) (val : W64) : Repair :=
  { r with rowret := BitVec.ofNat 64 (bits val.toNat 0 32), fail := r.fail && !bitAt val.toNat 34 }

/-- `ROWRET_GO` (R412, R413): FAIL where the bank has no spare row left. A GO while a copy is in progress, or for a channel
that does not exist, starts nothing. -/
def execRowretGo (val : W64) (s : State) : Res :=
  let r := s.rep.write val
  s.whenOn { s with rep :=
    if r.busy || decide (160 ≤ bits r.rowret.toNat 2 8) then r
    else if 16 ≤ Tab.get r.spares 0 (bankKey r.rowret) then { r with fail := true }
    else { r with busy := true, copying := r.rowret } }

/-- `ROW_COPY_DONE` (R413, R426): the bytes of the row that was named at the GO are where they were. -/
def execRowCopyDone (s : State) : Res :=
  if !s.rep.busy then .refused .notEnabled
  else .next { s with rep := { s.rep with
    busy := false, spares := Tab.adjust s.rep.spares 0 (bankKey s.rep.copying) (· + 1), rows := min (s.rep.rows + 1) (2 ^ 64 - 1) } }

-- ports and cores (R412, R413)

/-- `RETRAIN` (R412, R413). -/
def execRetrain (port : Nat) (s : State) : Res := s.whenOn (s.modPort port (fun x => if x.disable then x else { x with state := 1 }))

/-- What waited for a way to its rank, and finds one now, goes out in order (R413). -/
def State.sendWaiting (s : State) : State :=
  let (go, stay) := s.span.waiting.partition (fun p => s.reaches p.1)
  { s with out := s.out ++ go.map (·.2), span := { s.span with waiting := stay } }

/-- `RETRAIN_DONE` (R412, R413): the link is up; the rank at its far end is not stated, so the first training finds a free value.
What waited for the port goes out. -/
def execRetrainDone (port : Nat) (s : State) : Res :=
  if (s.port port).state != 1 then .refused .notEnabled
  else
    let (r, s) := s.pickBelow 256
    .next (s.modPort port (fun x => { x with state := 2, known := true, peer := if x.known then x.peer else r })).sendWaiting

/-- `SPANCTL_DISABLE` (R412): held down, or released and trained. -/
def execSpanctlDisable (port : Nat) (on : Bool) (s : State) : Res :=
  s.whenOn (s.modPort port (fun x => { x with disable := on, state := if on then 0 else if x.disable then 1 else x.state }))

/-- `CORECTL_DIS` (R412, R413): the core's teams are pre-empted, or it receives teams again. -/
def execCorectlDis (core : Nat) (on : Bool) (s : State) : Res :=
  if 640 ≤ core then .next s
  else
    let t := s.modCore core (fun c => { c with dis := on })
    s.whenOn (if on then t.raisePrq (t.runningTeams (fun x => x.core == core)) else t)

-- liveness (R339, R382, R427)

/-- The set of ranks below SIZE. -/
def rankMask (size : Nat) : BitVec 256 := BitVec.ofNat 256 (2 ^ size - 1)

/-- `PEER_DEAD_TIMEOUT` (R382): a live peer is declared dead, and the flood brings the new set. -/
def execPeerDeadTimeout (rank : Nat) (s : State) : Res :=
  if rank = s.span.rank || !s.rankLive rank || (Tab.find? s.span.quiet rank).isSome then .refused .notEnabled
  else .next { s with
    span := { s.span with quiet := Tab.put s.span.quiet rank () },
    inbox := s.inbox ++ [.livenessFlood ⟨BitVec.ofNat 256 (2 ^ rank), 0⟩] }

/-- The liveness set after a flood: the ranks that died cleared, those returned to service set; the device's own bit is 1, and
bits at or above SIZE are 0 (R339). -/
def Span.flooded (x : Span) (f : Flood) : BitVec 256 :=
  (((x.live &&& ~~~ f.down) ||| f.up) ||| BitVec.ofNat 256 (2 ^ x.rank)) &&& rankMask x.size

/-- `LIVENESS_FLOOD` (R339, R382, R425, R427): what a flood changes is applied at one instant, and EPOCH counts it; a loss that
this device has already applied changes nothing. A rank returned to service may be declared dead again. -/
def execLivenessFlood (flood : Flood) (s : State) : Res :=
  let new := s.span.flooded flood
  .next (if new = s.span.live && flood.up = 0 then s
    else
      let t := { s with span := { s.span with live := new, epoch := s.span.epoch + 1, quiet := s.span.quiet.filter (fun p => !flood.up.getLsbD p.1) } }
      if new = s.span.live then t else t.raiseEvent evLive)

/-- `SPANRJ_GO` (R427): `running` tells whether RANK's BOOTCTL STATE is 011. -/
def execSpanrjGo (rank : Nat) (running : Bool) (s : State) : Res :=
  let t := { s with span := { s.span with rjRank := rank % 256 } }
  s.whenOn (
    if running && decide (rank % 256 < s.span.size) && s.reaches (rank % 256) then
      { t with inbox := t.inbox ++ [.livenessFlood ⟨0, BitVec.ofNat 256 (2 ^ (rank % 256))⟩] }
    else { t with span := { t.span with rjErr := true } })

/-- `IDLE_FLIT` (R382): the peer's silence count starts again. How many link errors the link layer has corrected meanwhile, and
on which port, is not stated: ERRCNT of a port that is up moves on by a free amount (R412, log entry 26). -/
def execIdleFlit (rank : Nat) (s : State) : Res :=
  let (x, s) := s.pick
  let port := x.toNat % 16
  .next ({ s with span := { s.span with quiet := Tab.del s.span.quiet rank } }.modPort port (fun p =>
    if p.state = 2 then { p with errcnt := min (p.errcnt + x.toNat / 16) 65535 } else p))

end Sys2Proof.Machine
end

