-- ==== Sys2Proof/Machine/RegisterWrites.lean ====
section
/-! DEFINITION. Writes of the device's registers (R393, R400, R401): aligned 8-byte writes of BAR0 and of a context's page of
BAR2. A write that has a behaviour of its own is the event that the opcode table names for it. -/

namespace Sys2Proof.Machine

open Sys2Proof

/-- Bits written as 1 cleared (W1C). -/
def w1c (old val : W64) (n : Nat) : W64 := old &&& ~~~ BitVec.ofNat 64 (val.toNat % 2 ^ n)

/-- A write of BAR0 below the ownership registers (R401, R403, R406, R411, R412). -/
def State.writeDriver (s : State) (off : Nat) (val : W64) : Res :=
  let d := s.drv
  let v := val.toNat
  let set := fun (d : Driver) => s.whenOn { s with drv := d }
  if off = 0x0 then set { d with ctxbase := val }
  else if off = 0x8 then
    let k := bits v 0 8
    match bits v 8 4 with
    | 1 => execCtxLoad k s
    | 2 => execCtxSave k s
    | 3 => execCtxResume k s
    | 4 => execCtxKill k s
    | 5 => execCtxUnload k s
    | 6 => execCtxUpool k s
    | _ => set { d with ctxErr := true }
  else if off = 0x10 then (if bits v 16 2 = 2 then execTlbConfirm val s else execTlbMark val s)
  else if off = 0x18 then set { d with tlbva := val }
  else if off = 0x20 then set { d with tlbold := val }
  else if off = 0x28 then set { d with savebase := val }
  else if off = 0x30 then set { d with savesz := val }
  else if 0x100 ≤ off && off < 0x120 then
    let w := (off - 0x100) / 8
    let s := if bitAt v 6 && s.boot.powered then s.modWing w (fun x => { x with err := false }) else s
    match bits v 3 3 with
    | 1 => execWingDrain w s
    | 2 => execWingReset w s
    | 3 => execWingOnline w s
    | _ => .next s
  else if off = 0x200 then
    if bitAt v 32 then execRowretGo val s
    else s.whenOn { s with rep := s.rep.write val }
  else if 0x300 ≤ off && off < 0x380 then
    let p := (off - 0x300) / 8
    match execSpanctlDisable p (bitAt v 3) s with
    | .next s => if bitAt v 2 then execRetrain p s else .next s
    | r => r
  else if 0x400 ≤ off && off < 0x1800 then execCorectlDis ((off - 0x400) / 8) (bitAt v 0) s
  else .next s

/-- A write of the boot and fleet registers (R414, R421, R425, R427). -/
def State.writeFleet (s : State) (off : Nat) (val : W64) : Res :=
  let v := val.toNat
  if off = 0xC000 then (if bitAt v 0 then execBootctlGo s else .next s)
  else if off = 0xC008 then s.whenOn { s with boot := { s.boot with addr := val } }
  else if off = 0xC010 then s.whenOn { s with boot := { s.boot with len := BitVec.ofNat 64 (v % 2 ^ 25) } }
  else if off = 0xD000 then execModeWrite val s
  else if off = 0xD008 then s.whenOn { s with fleet := { s.fleet with err := s.fleet.err && !bitAt v 1 } }
  else if off = 0xD010 then s.whenOn { s with fleet := { s.fleet with evstat := w1c s.fleet.evstat val 6 } }
  else if off = 0xD018 then s.whenOn { s with fleet := { s.fleet with evmask := BitVec.ofNat 64 (v % 2 ^ 6) } }
  else if off = 0xD020 then
    let s := if bitAt v 9 && s.boot.powered then { s with span := { s.span with rjErr := false } } else s
    if bitAt v 8 then (let (b, t) := s.pickBelow 2; execSpanrjGo (bits v 0 8) (b == 1) t)
    else s.whenOn { s with span := { s.span with rjRank := bits v 0 8 } }
  else .next s

/-- A write of a queue's registers, or of a context's interrupt registers (R393, R400, R408). -/
def State.writeQueue (s : State) (off : Nat) (val : W64) : Res :=
  let slot := off / 8192
  let o := off % 8192
  let q := o / 64
  let v := val.toNat
  if !(s.ctx slot).resident || 256 ≤ slot then .next s
  else if o < 4096 then
    match o % 64 with
    | 0x00 => .next (s.modQueue slot q (fun x => { x with qbase := BitVec.ofNat 64 (v / 4096 * 4096) }))
    | 0x08 => .next (s.modQueue slot q (fun x => { x with qcfg := BitVec.ofNat 64 (v % 64) }))
    | 0x28 =>
      let s := if bitAt v 0 then s.modQueue slot q (fun x => { x with ovr := false }) else s
      if bitAt v 1 then execCstopClear slot q s else .next s
    | 0x30 => execQdb slot q s
    | 0x38 => execQreset slot q val s
    | _ => .next s
  else
    match o - 4096 with
    | 0x00 => .next (s.modCtx slot (fun c => { c with istat := w1c c.istat val 7 }))
    | 0x08 => .next (s.modCtx slot (fun c => { c with imask := BitVec.ofNat 64 (v % 2 ^ 7) }))
    | 0x18 => execBncrp slot val s
    | _ => .next s

/-- `REGISTER_WRITE` (R401): `bar` tells BAR2 from BAR0. Reserved offsets and other accesses are ignored. -/
def execRegisterWrite (bar : Bool) (off : Nat) (val : W64) (s : State) : Res :=
  if off % 8 != 0 then .next s
  else if bar then s.writeQueue off val
  else if 0x2000 ≤ off && off < 0x4000 then execTrgownWrite ((off - 0x2000) / 0x800) ((off - 0x2000) % 0x800 / 8) val s
  else if 0x4000 ≤ off && off < 0xC000 then execCtrownWrite ((off - 0x4000) / 0x2000) ((off - 0x4000) % 0x2000 / 8) val s
  else if 0xC000 ≤ off then s.writeFleet off val
  else s.writeDriver off val

end Sys2Proof.Machine
end

