-- ==== Sys2Proof/Machine/Sync.lean ====
section
/-! DEFINITION. `BAR` and `SLEEP` (R117, R127, R324, R334).
Readings of the spec that this file follows: log entry 36. -/

namespace Sys2Proof.Machine

open Sys2Proof

/-- `BAR` (R127, R324): a scoped rendezvous that writes nothing; a gang in handler state raises illegal-instruction. -/
def execBar (h : Hdr) (f : FmtT) (s : State) : Res :=
  match s.issuer? with
  | none => .fault .noIssuer
  | some i =>
    if i.g.handler then s.stop (i.performer (some h)) (.trap cIllegalInstruction 0 0)
    else s.wideOp h f.imm.toNat [.set, .team] (fun s w => .ok (s.passAll w.p))

/-- `SLEEP` (R334): with a count of zero only the effect on L1; else the unit waits for its expiry. -/
def execSleep (h : Hdr) (f : FmtT) (s : State) : Res :=
  s.lane h (fun i => do
    illegalOperandIf (!natSrcOk f.a)
    let n := (i.g.rdScalar f.a).toNat
    illegalOperandIf (decide (2 ^ 24 < n))
    if n = 0 then .ok ((s.passUnit i).dropL1 i.tm.core)
    else .ok (s.waitAll i.performer .sleep))

/-- `SLEEP_EXPIRY` (R334, log entry 7): the unit goes on, and its core's L1 copies are gone. -/
def execSleepExpiry (u : UnitId) (s : State) : Res :=
  match s.team? u.team with
  | none => .refused .notEnabled
  | some t =>
    let g := t.gang u.gang
    let sl := unitSlices g u
    if sl.isEmpty || !sl.all (fun k => (g.slice k).live && (g.slice k).wait == .sleep) then .refused .notEnabled
    else .next ((s.modGang u.team u.gang (fun g => g.pass sl)).dropL1 t.core)

end Sys2Proof.Machine
end

