-- ==== Sys2Proof/Machine/WorkLists.lean ====
section
/-! DEFINITION. Work lists: `WAPP`, `WPOP`, the landing of an append, and quiescence (R43 to R46, R296, R297).
Readings of the spec that this file follows: log entry 38. -/

namespace Sys2Proof.Machine

open Sys2Proof

def State.wlist (s : State) (ctx l : Nat) : WList := Tab.get (s.ctx ctx).wlists {} l
def State.modWlist (s : State) (ctx l : Nat) (f : WList → WList) : State :=
  s.modCtx ctx (fun c => { c with wlists := Tab.adjust c.wlists {} l f })

/-- The wing on which a list stands: the first one, and then wherever it has been moved (R411, log entry 38). -/
def Ctx.listWing (c : Ctx) (l : Nat) : Nat :=
  c.wlMoved.foldl (fun (w : Nat) (p : Nat × Nat) => if w = p.1 then p.2 else w) (Config.listWing c.asid l % 4)

/-- Whether a list is being moved off a wing that drains: appends and pops stall (R411). -/
def State.listMoves (s : State) (ctx l : Nat) : Bool := (s.wing ((s.ctx ctx).listWing l)).state != .online

/-- The stall of an append or a pop during a move (R411). -/
def State.listStall (s : State) (ctx : Nat) (lists : List Nat) : Except Stop Unit :=
  if lists.any (s.listMoves ctx) then .error (.retry false) else .ok ()

/-- The items in flight to a list (R43). -/
def Ctx.inflightTo (c : Ctx) (l : Nat) : Nat :=
  (c.inflight.map (fun p => (p.2.items.filter (fun q => q.1 == l)).length)).foldl (· + ·) 0

/-- Whether a list has no room for the items that an append would add, with those in flight to it (R296). -/
def Ctx.listFull (c : Ctx) (items : List (Nat × W64)) : Bool :=
  items.any (fun q => decide (c.wlcap < (Tab.get c.wlists {} q.1).items.length + c.inflightTo q.1 + (items.filter (fun r => r.1 == q.1)).length))

/-- The list that A names in a lane (R296, R297). -/
def Gang.listNumber (g : Gang) (a : Operand) (lane : Nat) : Nat :=
  match a with | .imm i => patOf 32 (immVal i) | a => g.rdReg false a lane

/-- The list number and the item of a lane (R296). -/
def Gang.appendItem (g : Gang) (f : FmtT) (lane : Nat) : Nat × W64 :=
  (g.listNumber f.a lane, BitVec.ofNat 64 (g.rdReg true f.b lane))

/-- The operand check of `WAPP` (R296). -/
def appendOk (nregs : Nat) (uniform : Bool) (f : FmtT) : Bool :=
  if uniform then sSrcOk f.a && sOk f.b
  else
    (match f.a with | .b _ => false | a => laneSrcOk nregs false a) && (match f.b with | .imm _ => false | b => laneSrcOk nregs true b)

/-- The append of a unit (R43, R296): its items are in flight; a unit that finds a list full waits until they have landed. -/
def State.append (s : State) (i : Issuer) (h : Hdr) (f : FmtT) : Except Stop State := do
  let uniform := h.scp == .gang
  illegalOperandIf (!appendOk i.tm.nregs uniform f)
  let act := i.active h
  let items := (if uniform then (if act = [] then [] else [0]) else act).map (i.g.appendItem f)
  illegalOperandIf (items.any (fun q => decide (1024 ≤ q.1)))
  trapIf (s.isolated i.tm.launch) cIsolation
  s.listStall i.tm.ctx (items.map (·.1))
  if items = [] then .ok (s.passUnit i)
  else
    let full := (s.ctx i.tm.ctx).listFull items
    let (n, s) := s.fresh
    let s := s.modCtx i.tm.ctx (fun c => { c with inflight := Tab.put c.inflight n { team := i.unit.team, gang := i.unit.gang, items := items } })
    .ok (if full then s.waitAll i.performer (.append n) else s.passUnit i)

/-- `WAPP` (R43, R296). -/
def execWapp (h : Hdr) (f : FmtT) (s : State) : Res :=
  match h.scp with
  | .gang => s.gangWide h (fun s i => s.append i h f)
  | _ => s.lane h (fun i => s.append i h f)

/-- The result of a `WPOP` (R297). -/
def wpopResult (d : Nat) (x : W64) (z done : Bool) (g : Gang) : Gang := ((g.wrS d x).setCc ccZ z).setCc ccDone done

/-- `WPOP` and `WPOP.steal` (R44, R45, R297). -/
def execWpop (h : Hdr) (steal : Bool) (f : FmtT) (s : State) : Res :=
  s.gangOp h (fun s i => do
    illegalOperandIf (!sOk f.d || !sSrcOk f.a)
    let l := i.g.listNumber f.a 0
    let ctx := i.tm.ctx
    let d := sIdx f.d
    illegalOperandIf (decide (1024 ≤ l))
    trapIf (s.isolated i.tm.launch) cIsolation
    let me := some (i.unit.team, i.unit.gang)
    let w := s.wlist ctx l
    if steal then
      illegalOperandIf (w.home == me)
      s.listStall ctx [l]
      match w.items.reverse with
      | [] => .ok (s.passWith i (wpopResult d 0 true false))
      | x :: r => .ok (((s.modWlist ctx l (fun w => { w with items := r.reverse })).passWith i (wpopResult d x false false)).dropL1 i.tm.core)
    else
      illegalOperandIf (w.home.isSome && w.home != me)
      s.listStall ctx [l]
      match w.items with
      | x :: r => .ok (((s.modWlist ctx l (fun w => { w with items := r, home := me })).passWith i (wpopResult d x false false)).dropL1 i.tm.core)
      | [] => .ok ((s.modWlist ctx l (fun w => { w with home := me, waiting := some d })).waitAll i.performer (.list l)))

/-- A blocked home consumer completes its `WPOP` (R44, R46). -/
def State.wpopDone (s : State) (ctx l : Nat) (x : W64) (z done : Bool) : State :=
  let w := s.wlist ctx l
  match w.home, w.waiting with
  | some (t, g), some d =>
    let s := (s.modWlist ctx l (fun w => { w with waiting := none })).release t g (wpopResult d x z done)
    (match s.team? t with | some tm => s.dropL1 tm.core | none => s)
  | _, _ => s

/-- The slices that waited for an append to land go on (R296). -/
def State.appendDone (s : State) (a : Append) (n : Nat) : State :=
  s.modGang a.team a.gang (fun g =>
    let sl := g.liveSlices.filter (fun k => (g.slice k).wait == .append n)
    if sl = [] then g else g.pass sl)

/-- `WAPP_LAND` (R43, R44, R411): the next item of an append lands, where its list has room and is not being moved; a home
consumer blocked there receives it. -/
def execWappLand (ctx idx : Nat) (s : State) : Res :=
  match Tab.find? (s.ctx ctx).inflight idx with
  | none => .refused .notEnabled
  | some a =>
    match a.items with
    | [] => .next ((s.modCtx ctx (fun c => { c with inflight := Tab.del c.inflight idx })).appendDone a idx)
    | (l, x) :: r =>
      let w := s.wlist ctx l
      if (s.ctx ctx).wlcap ≤ w.items.length || s.listMoves ctx l then .refused .notEnabled
      else
        let s := if w.waiting.isSome then s.wpopDone ctx l x false false else s.modWlist ctx l (fun w => { w with items := w.items ++ [x] })
        .next (if r = [] then (s.modCtx ctx (fun c => { c with inflight := Tab.del c.inflight idx })).appendDone a idx
          else s.modCtx ctx (fun c => { c with inflight := Tab.modify c.inflight idx (fun a => { a with items := r }) }))

/-- Whether a context is quiescent with a consumer to tell (R46): lists empty, nothing in flight, every home consumer
blocked. -/
def Ctx.quiescent (c : Ctx) : Bool :=
  let homes := (c.wlists.filterMap (fun p => p.2.home)).eraseDups
  !homes.isEmpty && c.inflight.isEmpty && c.wlists.all (fun p => p.2.items.isEmpty) &&
  homes.all (fun h => c.wlists.any (fun p => p.2.home == some h && p.2.waiting.isSome))

/-- `QUIESCENCE_DONE` (R46): every blocked `WPOP` of the context completes with DONE. -/
def execQuiescenceDone (ctx : Nat) (s : State) : Res :=
  if (s.ctx ctx).quiescent then
    .next ((Tab.keys (s.ctx ctx).wlists).foldl (fun s l => s.wpopDone ctx l 0 true true) s)
  else .refused .notEnabled

end Sys2Proof.Machine
end

