-- ==== Sys2Proof/Machine/Dispatch.lean ====
section
/-! DEFINITION. The meaning of every constructor of `Instr`, one arm each. -/

namespace Sys2Proof.Machine

open Sys2Proof

def exec (i : Instr) (s : State) : Host.Outcome State Fault Refusal :=
  match i with
  | .nop => Sys2Proof.Machine.execNop s
  | .bra h disp => Sys2Proof.Machine.execBra h disp s
  | .bcc h cond disp => Sys2Proof.Machine.execBcc h cond disp s
  | .bmz h disp => Sys2Proof.Machine.execBmz h disp s
  | .bmnz h disp => Sys2Proof.Machine.execBmnz h disp s
  | .bind h a => Sys2Proof.Machine.execBind h a s
  | .call h disp => Sys2Proof.Machine.execCall h disp s
  | .calli h a => Sys2Proof.Machine.execCalli h a s
  | .ret h => Sys2Proof.Machine.execRet h s
  | .regang h => Sys2Proof.Machine.execRegang h s
  | .exit h => Sys2Proof.Machine.execExit h s
  | .yield h => Sys2Proof.Machine.execYield h s
  | .enter h size => Sys2Proof.Machine.execEnter h size s
  | .leave h => Sys2Proof.Machine.execLeave h s
  | .bkpt h => Sys2Proof.Machine.execBkpt h s
  | .trap h code => Sys2Proof.Machine.execTrap h code s
  | .smov h hi f => Sys2Proof.Machine.execSmov h hi f s
  | .sadd h f => Sys2Proof.Machine.execSadd h f s
  | .ssub h f => Sys2Proof.Machine.execSsub h f s
  | .smul h hi f => Sys2Proof.Machine.execSmul h hi f s
  | .smad h f => Sys2Proof.Machine.execSmad h f s
  | .sdiv h f => Sys2Proof.Machine.execSdiv h f s
  | .srem h f => Sys2Proof.Machine.execSrem h f s
  | .slop h lut f => Sys2Proof.Machine.execSlop h lut f s
  | .sshf h k f => Sys2Proof.Machine.execSshf h k f s
  | .scmp h f => Sys2Proof.Machine.execScmp h f s
  | .ssel h cond f => Sys2Proof.Machine.execSsel h cond f s
  | .smin h f => Sys2Proof.Machine.execSmin h f s
  | .smax h f => Sys2Proof.Machine.execSmax h f s
  | .sbit h k f => Sys2Proof.Machine.execSbit h k f s
  | .sfop h k f => Sys2Proof.Machine.execSfop h k f s
  | .sget h r f => Sys2Proof.Machine.execSget h r f s
  | .sset h r f => Sys2Proof.Machine.execSset h r f s
  | .mop h k f => Sys2Proof.Machine.execMop h k f s
  | .iadd h f => Sys2Proof.Machine.execIadd h f s
  | .isub h f => Sys2Proof.Machine.execIsub h f s
  | .imul h hi f => Sys2Proof.Machine.execImul h hi f s
  | .imad h f => Sys2Proof.Machine.execImad h f s
  | .imin h f => Sys2Proof.Machine.execImin h f s
  | .imax h f => Sys2Proof.Machine.execImax h f s
  | .iabs h f => Sys2Proof.Machine.execIabs h f s
  | .ineg h f => Sys2Proof.Machine.execIneg h f s
  | .lop h lut f => Sys2Proof.Machine.execLop h lut f s
  | .shf h k f => Sys2Proof.Machine.execShf h k f s
  | .icmp h p f => Sys2Proof.Machine.execIcmp h p f s
  | .sel h f => Sys2Proof.Machine.execSel h f s
  | .ibit h k f => Sys2Proof.Machine.execIbit h k f s
  | .bfx h k f => Sys2Proof.Machine.execBfx h k f s
  | .lea h f => Sys2Proof.Machine.execLea h f s
  | .idiv h rem f => Sys2Proof.Machine.execIdiv h rem f s
  | .idot h f => Sys2Proof.Machine.execIdot h f s
  | .mov h f => Sys2Proof.Machine.execMov h f s
  | .fadd h f => Sys2Proof.Machine.execFadd h f s
  | .fsub h f => Sys2Proof.Machine.execFsub h f s
  | .fmul h f => Sys2Proof.Machine.execFmul h f s
  | .fma h f => Sys2Proof.Machine.execFma h f s
  | .fms h f => Sys2Proof.Machine.execFms h f s
  | .fnma h f => Sys2Proof.Machine.execFnma h f s
  | .fnms h f => Sys2Proof.Machine.execFnms h f s
  | .fmin h f => Sys2Proof.Machine.execFmin h f s
  | .fmax h f => Sys2Proof.Machine.execFmax h f s
  | .fsgn h k f => Sys2Proof.Machine.execFsgn h k f s
  | .fcmp h p f => Sys2Proof.Machine.execFcmp h p f s
  | .fclass h f => Sys2Proof.Machine.execFclass h f s
  | .fdiv h f => Sys2Proof.Machine.execFdiv h f s
  | .fsqrt h f => Sys2Proof.Machine.execFsqrt h f s
  | .frcp h f => Sys2Proof.Machine.execFrcp h f s
  | .frsq h f => Sys2Proof.Machine.execFrsq h f s
  | .fexp2 h f => Sys2Proof.Machine.execFexp2 h f s
  | .flog2 h f => Sys2Proof.Machine.execFlog2 h f s
  | .fscale h f => Sys2Proof.Machine.execFscale h f s
  | .frnd h f => Sys2Proof.Machine.execFrnd h f s
  | .cvtf h src f => Sys2Proof.Machine.execCvtf h src f s
  | .cvti h src f => Sys2Proof.Machine.execCvti h src f s
  | .cvtn h src f => Sys2Proof.Machine.execCvtn h src f s
  | .cvtl h enc f => Sys2Proof.Machine.execCvtl h enc f s
  | .pack h src f => Sys2Proof.Machine.execPack h src f s
  | .unpk h elt f => Sys2Proof.Machine.execUnpk h elt f s
  | .shfl h k f => Sys2Proof.Machine.execShfl h k f s
  | .bcast h f => Sys2Proof.Machine.execBcast h f s
  | .xvote h k f => Sys2Proof.Machine.execXvote h k f s
  | .xred h op f => Sys2Proof.Machine.execXred h op f s
  | .xscan h op excl f => Sys2Proof.Machine.execXscan h op excl f s
  | .confl h f => Sys2Proof.Machine.execConfl h f s
  | .cmprs h f => Sys2Proof.Machine.execCmprs h f s
  | .expnd h f => Sys2Proof.Machine.execExpnd h f s
  | .xmov h f => Sys2Proof.Machine.execXmov h f s
  | .setdecl h f => Sys2Proof.Machine.execSetdecl h f s
  | .ld h f => Sys2Proof.Machine.execLd h f s
  | .st h f => Sys2Proof.Machine.execSt h f s
  | .lds h f => Sys2Proof.Machine.execLds h f s
  | .sts h f => Sys2Proof.Machine.execSts h f s
  | .ldu h f => Sys2Proof.Machine.execLdu h f s
  | .stu h f => Sys2Proof.Machine.execStu h f s
  | .ldl h f => Sys2Proof.Machine.execLdl h f s
  | .stl h f => Sys2Proof.Machine.execStl h f s
  | .stash h fmt f => Sys2Proof.Machine.execStash h fmt f s
  | .pld h room f => Sys2Proof.Machine.execPld h room f s
  | .fence h f => Sys2Proof.Machine.execFence h f s
  | .cmaint h all f => Sys2Proof.Machine.execCmaint h all f s
  | .atom h op ty f => Sys2Proof.Machine.execAtom h op ty f s
  | .acas h ty f => Sys2Proof.Machine.execAcas h ty f s
  | .mred h op ty f => Sys2Proof.Machine.execMred h op ty f s
  | .atoms h op ty f => Sys2Proof.Machine.execAtoms h op ty f s
  | .acass h ty f => Sys2Proof.Machine.execAcass h ty f s
  | .copy h shape out yld f => Sys2Proof.Machine.execCopy h shape out yld f s
  | .gather h f => Sys2Proof.Machine.execGather h f s
  | .scatter h mode f => Sys2Proof.Machine.execScatter h mode f s
  | .abinit h f => Sys2Proof.Machine.execAbinit h f s
  | .abarr h f => Sys2Proof.Machine.execAbarr h f s
  | .abwait h f => Sys2Proof.Machine.execAbwait h f s
  | .abexp h f => Sys2Proof.Machine.execAbexp h f s
  | .abtest h f => Sys2Proof.Machine.execAbtest h f s
  | .wapp h f => Sys2Proof.Machine.execWapp h f s
  | .wpop h steal f => Sys2Proof.Machine.execWpop h steal f s
  | .tdef h kind fmt f => Sys2Proof.Machine.execTdef h kind fmt f s
  | .tldr h f => Sys2Proof.Machine.execTldr h f s
  | .tstr h f => Sys2Proof.Machine.execTstr h f s
  | .tget h part f => Sys2Proof.Machine.execTget h part f s
  | .mma h f => Sys2Proof.Machine.execMma h f s
  | .tmul h f => Sys2Proof.Machine.execTmul h f s
  | .accrd h fmt f => Sys2Proof.Machine.execAccrd h fmt f s
  | .accwr h fmt f => Sys2Proof.Machine.execAccwr h fmt f s
  | .accz h f => Sys2Proof.Machine.execAccz h f s
  | .accrel h f => Sys2Proof.Machine.execAccrel h f s
  | .mbatch h f => Sys2Proof.Machine.execMbatch h f s
  | .mwait h f => Sys2Proof.Machine.execMwait h f s
  | .cturn h fmt tr f => Sys2Proof.Machine.execCturn h fmt tr f s
  | .tmv h f => Sys2Proof.Machine.execTmv h f s
  | .tadd h f => Sys2Proof.Machine.execTadd h f s
  | .tscl h f => Sys2Proof.Machine.execTscl h f s
  | .trnd h abs f => Sys2Proof.Machine.execTrnd h abs f s
  | .tdense h f => Sys2Proof.Machine.execTdense h f s
  | .tzero h f => Sys2Proof.Machine.execTzero h f s
  | .tnorm h f => Sys2Proof.Machine.execTnorm h f s
  | .tpool h fmt f => Sys2Proof.Machine.execTpool h fmt f s
  | .tfree h f => Sys2Proof.Machine.execTfree h f s
  | .ttrn h f => Sys2Proof.Machine.execTtrn h f s
  | .bar h f => Sys2Proof.Machine.execBar h f s
  | .gnew h f => Sys2Proof.Machine.execGnew h f s
  | .gjoin h f => Sys2Proof.Machine.execGjoin h f s
  | .gleave h f => Sys2Proof.Machine.execGleave h f s
  | .gbar h f => Sys2Proof.Machine.execGbar h f s
  | .gvote h all f => Sys2Proof.Machine.execGvote h all f s
  | .gred h op f => Sys2Proof.Machine.execGred h op f s
  | .greset h f => Sys2Proof.Machine.execGreset h f s
  | .ginfo h f => Sys2Proof.Machine.execGinfo h f s
  | .qdef h f => Sys2Proof.Machine.execQdef h f s
  | .qpush h try_ f => Sys2Proof.Machine.execQpush h try_ f s
  | .qpop h try_ f => Sys2Proof.Machine.execQpop h try_ f s
  | .sleep h f => Sys2Proof.Machine.execSleep h f s
  | .coll h op red f => Sys2Proof.Machine.execColl h op red f s
  | .xput h f => Sys2Proof.Machine.execXput h f s
  | .xget h f => Sys2Proof.Machine.execXget h f s
  | .trigarm h f => Sys2Proof.Machine.execTrigarm h f s
  | .trigcnt h f => Sys2Proof.Machine.execTrigcnt h f s
  | .trigdis h f => Sys2Proof.Machine.execTrigdis h f s
  | .launch h f => Sys2Proof.Machine.execLaunch h f s
  | .cjoin h f => Sys2Proof.Machine.execCjoin h f s
  | .spanmap h f => Sys2Proof.Machine.execSpanmap h f s
  | .spanst h f => Sys2Proof.Machine.execSpanst h f s
  | .labort h f => Sys2Proof.Machine.execLabort h f s
  | .rte h => Sys2Proof.Machine.execRte h s
  | .trq h drop f => Sys2Proof.Machine.execTrq h drop f s
  | .perf h ctr f => Sys2Proof.Machine.execPerf h ctr f s
  | .handlerEntry team gang => Sys2Proof.Machine.execHandlerEntry team gang s
  | .pageFaultResolved ctx page ok => Sys2Proof.Machine.execPageFaultResolved ctx page ok s
  | .wappLand ctx idx => Sys2Proof.Machine.execWappLand ctx idx s
  | .quiescenceDone ctx => Sys2Proof.Machine.execQuiescenceDone ctx s
  | .matrixOpComplete team op => Sys2Proof.Machine.execMatrixOpComplete team op s
  | .sleepExpiry u => Sys2Proof.Machine.execSleepExpiry u s
  | .collStagingGrant coll => Sys2Proof.Machine.execCollStagingGrant coll s
  | .chunkArrival c => Sys2Proof.Machine.execChunkArrival c s
  | .collTimeout coll => Sys2Proof.Machine.execCollTimeout coll s
  | .xputReceive ctx addr data notify => Sys2Proof.Machine.execXputReceive ctx addr data notify s
  | .xgetRequest ctx addr len => Sys2Proof.Machine.execXgetRequest ctx addr len s
  | .triggerActionComplete ctx idx err => Sys2Proof.Machine.execTriggerActionComplete ctx idx err s
  | .engineLand team op seg => Sys2Proof.Machine.execEngineLand team op seg s
  | .engineArrival team op => Sys2Proof.Machine.execEngineArrival team op s
  | .fixupReplay team op => Sys2Proof.Machine.execFixupReplay team op s
  | .copyYieldResume team op => Sys2Proof.Machine.execCopyYieldResume team op s
  | .dispatch ctx idx => Sys2Proof.Machine.execDispatch ctx idx s
  | .teamPlace launch grid core => Sys2Proof.Machine.execTeamPlace launch grid core s
  | .teamRetire team => Sys2Proof.Machine.execTeamRetire team s
  | .launchCommit launch => Sys2Proof.Machine.execLaunchCommit launch s
  | .poolFull launch => Sys2Proof.Machine.execPoolFull launch s
  | .irrevocablePublish launch => Sys2Proof.Machine.execIrrevocablePublish launch s
  | .prqDeadline team => Sys2Proof.Machine.execPrqDeadline team s
  | .saveDrainTimeout team => Sys2Proof.Machine.execSaveDrainTimeout team s
  | .parkPreempt team => Sys2Proof.Machine.execParkPreempt team s
  | .teamRestore team core => Sys2Proof.Machine.execTeamRestore team core s
  | .hdmRead addr len => Sys2Proof.Machine.execHdmRead addr len s
  | .hdmWrite addr data => Sys2Proof.Machine.execHdmWrite addr data s
  | .qrsv slot queue => Sys2Proof.Machine.execQrsv slot queue s
  | .qdb slot queue => Sys2Proof.Machine.execQdb slot queue s
  | .queuePollTimer slot queue => Sys2Proof.Machine.execQueuePollTimer slot queue s
  | .qreset slot queue val => Sys2Proof.Machine.execQreset slot queue val s
  | .ckpt ctx idx => Sys2Proof.Machine.execCkpt ctx idx s
  | .recompute ctx idx => Sys2Proof.Machine.execRecompute ctx idx s
  | .replayNext ctx => Sys2Proof.Machine.execReplayNext ctx s
  | .registerWrite bar off val => Sys2Proof.Machine.execRegisterWrite bar off val s
  | .ctxLoad slot => Sys2Proof.Machine.execCtxLoad slot s
  | .ctxSave slot => Sys2Proof.Machine.execCtxSave slot s
  | .ctxSaveDone slot => Sys2Proof.Machine.execCtxSaveDone slot s
  | .ctxResume slot => Sys2Proof.Machine.execCtxResume slot s
  | .ctxKill slot => Sys2Proof.Machine.execCtxKill slot s
  | .ctxUnload slot => Sys2Proof.Machine.execCtxUnload slot s
  | .ctxUpool slot => Sys2Proof.Machine.execCtxUpool slot s
  | .tlbMark val => Sys2Proof.Machine.execTlbMark val s
  | .tlbMarkDrained => Sys2Proof.Machine.execTlbMarkDrained s
  | .tlbConfirm val => Sys2Proof.Machine.execTlbConfirm val s
  | .bncrp slot val => Sys2Proof.Machine.execBncrp slot val s
  | .trgownWrite wing idx val => Sys2Proof.Machine.execTrgownWrite wing idx val s
  | .ctrownWrite wing idx val => Sys2Proof.Machine.execCtrownWrite wing idx val s
  | .wingDrain wing => Sys2Proof.Machine.execWingDrain wing s
  | .wingDrained wing => Sys2Proof.Machine.execWingDrained wing s
  | .wingReset wing => Sys2Proof.Machine.execWingReset wing s
  | .wingResetDone wing => Sys2Proof.Machine.execWingResetDone wing s
  | .wingOnline wing => Sys2Proof.Machine.execWingOnline wing s
  | .rowretGo val => Sys2Proof.Machine.execRowretGo val s
  | .rowCopyDone => Sys2Proof.Machine.execRowCopyDone s
  | .retrain port => Sys2Proof.Machine.execRetrain port s
  | .retrainDone port => Sys2Proof.Machine.execRetrainDone port s
  | .spanctlDisable port on => Sys2Proof.Machine.execSpanctlDisable port on s
  | .corectlDis core on => Sys2Proof.Machine.execCorectlDis core on s
  | .peerDeadTimeout rank => Sys2Proof.Machine.execPeerDeadTimeout rank s
  | .livenessFlood flood => Sys2Proof.Machine.execLivenessFlood flood s
  | .spanrjGo rank running => Sys2Proof.Machine.execSpanrjGo rank running s
  | .modeWrite val => Sys2Proof.Machine.execModeWrite val s
  | .eccChangeDone => Sys2Proof.Machine.execEccChangeDone s
  | .clockCapChange => Sys2Proof.Machine.execClockCapChange s
  | .thermalSample core temp => Sys2Proof.Machine.execThermalSample core temp s
  | .droopFlag core raised => Sys2Proof.Machine.execDroopFlag core raised s
  | .droopHoldExpiry core => Sys2Proof.Machine.execDroopHoldExpiry core s
  | .longLatencyResult u idx => Sys2Proof.Machine.execLongLatencyResult u idx s
  | .remoteLineRequest ctx addr write => Sys2Proof.Machine.execRemoteLineRequest ctx addr write s
  | .signTokenRefill => Sys2Proof.Machine.execSignTokenRefill s
  | .powerOn => Sys2Proof.Machine.execPowerOn s
  | .deviceReset => Sys2Proof.Machine.execDeviceReset s
  | .bootctlGo => Sys2Proof.Machine.execBootctlGo s
  | .bootImageLoaded image fetchFault => Sys2Proof.Machine.execBootImageLoaded image fetchFault s
  | .getVersion box => Sys2Proof.Machine.execGetVersion box s
  | .getCapabilities box => Sys2Proof.Machine.execGetCapabilities box s
  | .negotiateAlgorithms box => Sys2Proof.Machine.execNegotiateAlgorithms box s
  | .getDigests box => Sys2Proof.Machine.execGetDigests box s
  | .getCertificate box slot => Sys2Proof.Machine.execGetCertificate box slot s
  | .challenge box nonce => Sys2Proof.Machine.execChallenge box nonce s
  | .getMeasurements box index signed nonce => Sys2Proof.Machine.execGetMeasurements box index signed nonce s
  | .idleFlit rank => Sys2Proof.Machine.execIdleFlit rank s
  | .powerLoss => Sys2Proof.Machine.execPowerLoss s
  | .cstopClear slot queue => Sys2Proof.Machine.execCstopClear slot queue s

end Sys2Proof.Machine
end

