-- ==== Sys2Proof/Machine/Placing.lean ====
section
/-! DEFINITION. A program placed in the machine for one step (log entry 5): a resident context whose first GiB maps onto the
first GiB of DRAM, a launch, and a team of one gang at a line that holds the instruction. -/

namespace Sys2Proof.Machine

open Sys2Proof

/-- The line word of a line with one target slot, slot 0, and no pairs (R204, R207). -/
def oneSlotLineWord (w : Nat) : Nat :=
  let low := 1 + (if parity 96 w then 2 ^ 9 else 0)
  low + (if parity 14 low then 2 ^ 14 else 0)

/-- The 64 bytes of a line with an instruction in slot 0 and NOPs after it (R204). -/
def oneSlotLine (w : Nat) : List Byte := leBytes 64 (w % 2 ^ 96 + oneSlotLineWord (w % 2 ^ 96) * 2 ^ 480)

/-- Where the line stands, virtual and physical. -/
def placedAt : Nat := 0x10000

/-- Page tables at physical 0x800, 0x1000 and 0x2000: one 1 GiB page at virtual 0 on physical 0 (R405). -/
def placedTables : List (Nat × Byte) :=
  let entry := fun a v => (List.range 8).zip (leBytes 8 v) |>.map (fun p => (a + p.1, p.2))
  entry 0x800 (0x1000 + 1) ++ entry 0x1000 (0x2000 + 1) ++ entry 0x2000 3

/-- The launch record of the placed program: its entry, and a handler in the following line. -/
def placedRec : LaunchRec :=
  { code := BitVec.ofNat 64 placedAt, trapvec := BitVec.ofNat 64 (placedAt + 64),
    dims := BitVec.ofNat 64 (1 + 2 ^ 32 + 2 ^ 48), shape := BitVec.ofNat 64 (32 * 2 ^ 5 + 256 * 2 ^ 11 + 16 * 2 ^ 24) }

def placedTeam : Team :=
  { launch := 1, ctx := 0, grid := 0, index := 0, core := 0, nregs := 256, spadSize := 65536,
    trapvec := placedRec.trapvec,
    gangs := [{ slices := List.replicate 8 { pc := BitVec.ofNat 64 placedAt }, stklim := 1024 }] }

def placedLaunch : Launch :=
  { ctx := 0, queue := 0, ord := 0, lrec := placedRec, disp := 1, tag := 1, attempt := 0, it := false, overIrr := false,
    nocheck := false, retry := 3, grids := [(0, { lrec := placedRec, total := 1, placed := 1 })] }

def placedCtx : Ctx :=
  { resident := true, asid := 1, ptroot := 0x800, wlcap := 1024, upcnt := 2048, upmax := 2048, prdl := 1000, bncslots := 16 }

/-- One instruction word placed so that the next step issues it: only the placed team may issue, and no event waits. -/
def State.placeWord (s : State) (w : Nat) : State :=
  let cells := (List.range 64).zip (oneSlotLine w) |>.map (fun p => (placedAt + p.1, p.2))
  let t := s.setCommAll (placedTables ++ cells)
  { t with
      nextId := 2, inbox := [], ctxs := [(0, placedCtx)], launches := [(1, placedLaunch)], teams := [(1, placedTeam)],
      boot := { t.boot with state := 3 } }

end Sys2Proof.Machine
end

