-- ==== Sys2Proof/Machine/Schedule.lean ====
section
/-! DEFINITION. What may happen next: the units that may issue (R47, R146, R194), the internal events that are due, and the
first outside event (log entry 6).
Readings of the spec that this file follows: log entry 19. -/

namespace Sys2Proof.Machine

open Sys2Proof

/-- One thing that may happen next. -/
inductive Choice where
  /-- a unit issues -/
  | unit (u : UnitId)
  /-- an internal event -/
  | event (i : Instr)
  /-- what the command processor or the trigger unit of a context still has to do in memory is done (R103, R406) -/
  | post (ctx idx : Nat)
  /-- a signed answer leaves (R418) -/
  | release
  /-- the first event of the inbox -/
  | input (i : Instr)
  deriving DecidableEq, Repr

/-- Whether a slice's wait lets its unit be tried (R146). -/
def Wait.tries : Wait → Bool
  | .ready | .rendez _ | .retry _ | .abar _ _ | .room _ | .batch _ | .join _ => true
  | _ => false

/-- Whether a slice may issue (R47, R194): a halted team's slices issue only their skid. -/
def Slice.mayIssue (t : Team) (g : Gang) (x : Slice) : Bool :=
  x.live && (if t.halted && !g.handler then x.wait = .ready && decide (x.skid < x.skidMax) else x.wait.tries)

/-- The units of a gang that may issue (R22, R226). -/
def Team.unitsOf (t : Team) (id gi : Nat) : List UnitId :=
  let g := t.gang gi
  if g.ganged then
    match g.liveSlices with
    | [] => []
    | k :: _ => if (g.slice k).mayIssue t g then [{ team := id, gang := gi, slice := none }] else []
  else (g.liveSlices.filter (fun k => (g.slice k).mayIssue t g)).map (fun k => { team := id, gang := gi, slice := some k })

/-- Whether a team's units may issue: it is resident, with every team of its COHORT grid (R42), its launch is not held, and no
sensor has halted the device (R399, R428). -/
def State.teamRuns (s : State) (t : Team) : Bool :=
  t.status = .running && !s.fleet.halt && (match s.launch? t.launch with | some L => !L.held | none => true) &&
  (!t.cohort || s.teams.all (fun p => p.2.launch != t.launch || p.2.grid != t.grid || p.2.status == .running))

/-- The units that may issue. -/
def State.units (s : State) : List UnitId :=
  s.teams.flatMap (fun p => if s.teamRuns p.2 then (List.range p.2.gangs.length).flatMap (fun gi => p.2.unitsOf p.1 gi) else [])

-- internal events

/-- The sleeping units of a gang (R334). -/
def Gang.sleepers (g : Gang) (team gi : Nat) : List UnitId :=
  let l := g.liveSlices.filter (fun k => (g.slice k).wait == .sleep)
  if l = [] then [] else if g.ganged then [{ team := team, gang := gi, slice := none }]
  else l.map (fun k => { team := team, gang := gi, slice := some k })

/-- The events of one engine operation (R13, R103, R153): landing and arrival go on while the team is saved (R201). -/
def State.dueEngine (s : State) (id : Nat) (t : Team) (n : Nat) (o : EngOp) : List Instr :=
  (o.segs.filter (fun q => s.canLand id t o q)).map (fun q => .engineLand id n q.ord) ++
  (if o.arrives && o.finished then [.engineArrival id n] else []) ++
  (if s.teamRuns t then
    (if s.fixReady id t o then [.fixupReplay id n] else []) ++
    (if o.cont.isSome && o.finished && !(t.gang o.gang).handler then [.copyYieldResume id n] else [])
  else [])

/-- The events of one team that is resident and runs (R147, R155, R195, R200, R202, R222, R334). -/
def State.dueRunning (s : State) (id : Nat) (t : Team) : List Instr :=
  (List.range t.gangs.length).flatMap (fun gi =>
    let g := t.gang gi
    (if s.mayEnter t gi then [.handlerEntry id gi] else []) ++
    (List.range g.pend.length).map (fun k => .longLatencyResult { team := id, gang := gi, slice := none } k) ++
    (g.sleepers id gi).map .sleepExpiry) ++
  (t.mops.filter (fun q => t.matReady q.1 q.2)).map (fun q => .matrixOpComplete id q.1) ++
  (if s.canRetire id t then [.teamRetire id] else []) ++
  (if t.prq && (s.saveAll false (s.together id)).isSome then [.prqDeadline id] else []) ++
  (if t.parked && !t.prq && s.wantsRoom t.ctx then [.parkPreempt id] else [])

/-- The events of one saved team (R36, R201). -/
def State.dueSaved (s : State) (id : Nat) (t : Team) : List Instr :=
  (if t.drains then [.saveDrainTimeout id] else []) ++
  ((List.range 640).filter (fun k => (s.tryRestore id k).isSome)).map (fun k => .teamRestore id k)

def State.dueTeams (s : State) : List Instr :=
  s.teams.flatMap (fun p =>
    p.2.ops.flatMap (fun q => s.dueEngine p.1 p.2 q.1 q.2) ++
    (if s.teamRuns p.2 then s.dueRunning p.1 p.2 else if p.2.status == .saved then s.dueSaved p.1 p.2 else []))

/-- The events of the dispatchers and of commit (R40, R174, R187, R189). -/
def State.dueLaunches (s : State) : List Instr :=
  s.launches.flatMap (fun p =>
    let (id, L) := p
    L.grids.flatMap (fun q =>
      if q.2.placed < q.2.total && !q.2.done && !s.outranked id q.1 then
        ((List.range 640).filter (fun k => (s.tryPlace id q.1 k).isSome)).map (fun k => .teamPlace id q.1 k)
      else []) ++
    (if s.mayCommit L then [.launchCommit id] else []) ++ (if s.poolDue L then [.poolFull id] else []) ++
    (if s.mayPublish id L then [.irrevocablePublish id] else []))

/-- The events of a resident context (R43, R46, R170, R394, R398, R403). -/
def State.dueCtx (s : State) (k : Nat) (c : Ctx) : List Instr :=
  (List.range c.ready.length).filterMap (fun i => (s.mayTake k i).map (fun r =>
    if recType r.lrec = 1 then .ckpt k i else if recType r.lrec = 2 then .recompute k i else .dispatch k i)) ++
  (if (c.replays.filterMap (fun p => s.replayStep k p.1 p.2)).isEmpty then [] else [.replayNext k]) ++
  (c.queues.filter (fun p => p.2.fetches)).map (fun p => .queuePollTimer k p.1) ++
  (c.inflight.filter (fun p => match p.2.items with
    | [] => true
    | (l, _) :: _ => decide ((s.wlist k l).items.length < c.wlcap) && !s.listMoves k l)).map (fun p => .wappLand k p.1) ++
  (if c.quiescent then [.quiescenceDone k] else []) ++
  (List.range c.actions.length).flatMap (fun i => match c.actions[i]? with
    | none => []
    | some t => ((s.actNext t).map (fun e => .triggerActionComplete k i e)).toList) ++
  (if s.drv.ctxBusy && s.drv.ctxSlot == k && c.saving && (s.runningTeams (fun t => t.ctx == k)).isEmpty then [.ctxSaveDone k] else [])

/-- The events of the rest of the device (R164, R167, R382, R406, R411 to R413, R420, R422 to R424). -/
def State.dueDevice (s : State) : List Instr :=
  s.colls.flatMap (fun p => (if s.grantable p.1 p.2 then [.collStagingGrant p.1] else []) ++ (if p.2.granted && !p.2.expired then [.collTimeout p.1] else [])) ++
  (if s.drv.tlbBusy then [.tlbMarkDrained] else []) ++
  (List.range 4).flatMap (fun w => match (s.wing w).state with
    | .draining => if s.wingEmpty w then [.wingDrained w] else []
    | .resetting => [.wingResetDone w]
    | _ => []) ++
  (if s.rep.busy then [.rowCopyDone] else []) ++
  ((List.range 16).filter (fun p => (s.port p).state == 1)).map .retrainDone ++
  ((List.range s.span.size).filter (fun r => r != s.span.rank && s.rankLive r && (Tab.find? s.span.quiet r).isNone)).map .peerDeadTimeout ++
  (if s.fleet.busy then [.eccChangeDone] else []) ++ (if s.fleet.capPending then [.clockCapChange] else []) ++
  (s.cores.filter (fun p => p.2.droopHold)).map (fun p => .droopHoldExpiry p.1) ++
  (if s.boot.tokens < 64 then [.signTokenRefill] else [])

/-- The internal events that are due. -/
def State.dueEvents (s : State) : List Instr :=
  s.dueTeams ++ s.dueLaunches ++ (s.ctxs.filter (fun p => p.2.resident)).flatMap (fun p => s.dueCtx p.1 p.2) ++ s.dueDevice

/-- The state without one of the things that the command processor or the trigger unit of a context still has to do. -/
def State.takePost (s : State) (ctx idx : Nat) : State := s.modCtx ctx (fun c => { c with posts := c.posts.eraseIdx idx })

/-- One of those things done; none while it still has to wait (R103, R170, R406, R411). -/
def State.tryPost (s : State) (ctx idx : Nat) : Option State :=
  ((s.ctx ctx).posts[idx]?).bind (fun p => (s.takePost ctx idx).doPost ctx p)

/-- What the command processors and trigger units of the resident contexts may do now, and the signed answer that may leave. -/
def State.dueOthers (s : State) : List Choice :=
  (s.ctxs.filter (fun p => p.2.resident)).flatMap (fun p =>
    ((List.range p.2.posts.length).filter (fun i => (s.tryPost p.1 i).isSome)).map (fun i => .post p.1 i)) ++
  (if s.boot.signing.isSome then [.release] else [])

/-- Everything that may happen next. -/
def State.choices (s : State) : List Choice :=
  s.units.map .unit ++ s.dueEvents.map .event ++ s.dueOthers ++ (match s.inbox with | [] => [] | i :: _ => [.input i])

end Sys2Proof.Machine
end

