-- ==== Sys2Proof/Machine/Step.lean ====
section
/-! DEFINITION. One step: a unit issues, an internal event happens, or an outside event is taken.
Readings of the spec that this file follows: log entry 12. -/

namespace Sys2Proof.Machine

open Sys2Proof

/-- A unit issues one instruction: it is fetched and decoded, then performed (R224). -/
def issue (u : UnitId) (s : State) : Host.Outcome State Fault Refusal :=
  let s := { s with cur := some u }
  match s.issuer? with
  | none => .next s
  | some i =>
    match s.fetch i with
    | .error x => s.stop i.performer x
    | .ok (ins, p) => exec ins (s.prepare i ins p)

/-- The state in which an event happens: no unit issues, and every store so far is performed where the event touches memory (log
entry 44). -/
def State.forEvent (s : State) (k : OrderKind) : State :=
  { s with cur := none, order := if k = .all then s.order.performAll else s.order }

/-- One of the things that may happen next happens. -/
def happen (c : Choice) (s : State) : Host.Outcome State Fault Refusal :=
  match c with
  | .unit u => issue u s
  | .event i => exec i (s.forEvent (eventKind i))
  | .post ctx idx => .next (((s.forEvent .all).tryPost ctx idx).getD s)
  | .release => .next (s.forEvent .plain).releaseSigned
  | .input i => exec i { (s.forEvent (eventKind i)) with inbox := s.inbox.drop 1 }

/-- One step (log entry 6): with several things that may happen, a free value chooses; with none, nothing changes. -/
def step (s : State) : Host.Outcome State Fault Refusal :=
  match s.choices with
  | [] => .next s
  | [c] => happen c s
  | c :: cs => let (k, s) := s.pickBelow (cs.length + 1); happen ((c :: cs).getD k c) s

/-- The state with one instruction placed where the next step fetches (log entry 5). -/
def State.withFetchWord (s : State) (nbits w : Nat) : State := s.placeWord (w % 2 ^ nbits)

end Sys2Proof.Machine
end

