-- ==== Sys2Proof/Machine/RegisterReads.lean ====
section
/-! DEFINITION. Reads of the device's registers (R393, R400, R401, R406, R411, R412, R414, R421, R425 to R427): aligned 8-byte
reads of BAR0 and of a context's page of BAR2. A read changes nothing; the read of QRSV, which reserves a slot, is the event
`QRSV` of the opcode table.
Readings of the spec that this file follows: log entry 41. -/

namespace Sys2Proof.Machine

open Sys2Proof

/-- A register from its fields: the lowest bit and the value of each. -/
def fields (l : List (Nat × Nat)) : W64 := BitVec.ofNat 64 ((l.map (fun p => p.2 * 2 ^ p.1)).sum)

def flag (b : Bool) : Nat := if b then 1 else 0

/-- WINGCTL (R411). -/
def Wing.read (w : Wing) : W64 :=
  let st := match w.state with | .online => 0 | .draining => 1 | .offline => 2 | .resetting => 3
  fields [(0, st), (2, flag w.drained), (6, flag w.err)]

/-- ROWRET (R412): SPARES counts the spare rows left in the named bank. -/
def Repair.read (r : Repair) : W64 :=
  fields [(0, bits r.rowret.toNat 0 32), (33, flag r.busy), (34, flag r.fail), (35, 16 - Tab.get r.spares 0 (bankKey r.rowret))]

/-- SPANCTL (R412). -/
def Port.read (p : Port) : W64 := fields [(0, p.state), (3, flag p.disable), (8, p.peer % 256), (16, p.errcnt)]

/-- CORECTL (R412): EMPTY while no team is resident. -/
def State.readCore (s : State) (core : Nat) : W64 :=
  fields [(0, flag (s.core core).dis), (1, flag (s.runningTeams (fun t => t.core == core)).isEmpty)]

/-- The registers of BAR0 below the ownership registers (R401, R403, R406, R411, R412); reserved offsets read zero. -/
def State.readDriver (s : State) (off : Nat) : W64 :=
  let d := s.drv
  if off = 0x0 then d.ctxbase
  else if off = 0x8 then fields [(0, d.ctxSlot), (61, flag d.ctxErr), (62, flag d.ctxDone), (63, flag d.ctxBusy)]
  else if off = 0x10 then fields [(0, d.tlbAsid), (18, flag d.tlbAll), (62, flag d.tlbErr), (63, flag d.tlbBusy)]
  else if off = 0x18 then d.tlbva
  else if off = 0x20 then d.tlbold
  else if off = 0x28 then d.savebase
  else if off = 0x30 then d.savesz
  else if 0x100 ≤ off && off < 0x120 then (s.wing ((off - 0x100) / 8)).read
  else if off = 0x200 then s.rep.read
  else if 0x300 ≤ off && off < 0x380 then (s.port ((off - 0x300) / 8)).read
  else if 0x400 ≤ off && off < 0x1800 then s.readCore ((off - 0x400) / 8)
  else 0

/-- TMAX (R426): the hottest core by its last sample, the lowest of several (log entry 26). -/
def State.hottest (s : State) : Nat :=
  (List.range 640).foldl (fun best k => if (s.core best).temp < (s.core k).temp then k else best) 0

/-- A core that its temperature or its droop flag excludes (R41). -/
def CoreRec.excluded (c : CoreRec) : Bool := c.hot || c.droop || c.droopHold

/-- The telemetry registers (R426). -/
def State.readTelemetry (s : State) (off : Nat) : W64 :=
  let f := s.fleet
  if off < 0xD120 then f.wpwr.getD ((off - 0xD100) / 8) 0
  else if off = 0xD120 then f.pkgpwr
  else if off = 0xD128 then fields [(0, (s.core s.hottest).temp % 256), (8, s.hottest)]
  else if off = 0xD130 then fields [(0, ((List.range 640).filter (fun k => (s.core k).excluded)).length)]
  else if off = 0xD138 then f.cecc
  else if off = 0xD140 then f.ueccn
  else if off = 0xD148 then fields [(0, s.rep.rows)]
  else if off = 0xD150 then fields [(0, (s.span.ports.map (·.errcnt)).sum)]
  else if off = 0xD158 then f.thrtl
  else 0

/-- The boot and fleet registers (R414, R421, R425 to R427). -/
def State.readFleet (s : State) (off : Nat) : W64 :=
  let b := s.boot
  let f := s.fleet
  if off = 0xC000 then fields [(1, b.state), (8, b.err.toNat), (16, b.svn.toNat), (24, b.floor.toNat)]
  else if off = 0xC008 then b.addr
  else if off = 0xC010 then b.len
  else if off = 0xD000 then f.mode
  else if off = 0xD008 then fields [(0, flag f.busy), (1, flag f.err)]
  else if off = 0xD010 then f.evstat
  else if off = 0xD018 then f.evmask
  else if off = 0xD020 then fields [(0, s.span.rjRank), (9, flag s.span.rjErr)]
  else if 0xD100 ≤ off then s.readTelemetry off
  else 0

/-- QSUM (R400): bit q while queue q has OVR or CSTOP. -/
def Ctx.qsum (c : Ctx) : W64 :=
  fields ((List.range 64).map (fun q => let x := Tab.get c.queues {} q; (q, flag (x.ovr || x.cstop))))

/-- The registers of a resident slot's pages (R387, R393, R400, R408); a write-only register reads zero (log entry 40). -/
def State.readQueue (s : State) (off : Nat) : W64 :=
  let slot := off / 8192
  let o := off % 8192
  let c := s.ctx slot
  let x := s.queue slot (o / 64)
  if !c.resident || 256 ≤ slot then 0
  else if o < 4096 then
    match o % 64 with
    | 0x00 => x.qbase
    | 0x08 => x.qcfg
    | 0x10 => BitVec.ofNat 64 x.qwp
    | 0x18 => BitVec.ofNat 64 x.qrp
    | 0x20 => BitVec.ofNat 64 x.qwp
    | 0x28 => fields [(0, flag x.ovr), (1, flag x.cstop), (2, flag x.wait)]
    | _ => 0
  else
    match o - 4096 with
    | 0x00 => c.istat
    | 0x08 => c.imask
    | 0x10 => c.qsum
    | 0x18 => BitVec.ofNat 64 c.bncrp
    | 0x20 => c.faddr
    | 0x28 => c.fteam
    | _ => 0

/-- What a read of `len` bytes of BAR0, or of BAR2, returns (R401): all ones unless it is an aligned 8-byte access. -/
def State.readReg (s : State) (bar : Bool) (off len : Nat) : W64 :=
  if off % 8 != 0 || len != 8 then BitVec.allOnes 64
  else if bar then s.readQueue off
  else if 0x2000 ≤ off && off < 0x4000 then
    ownField (Tab.get s.trig.trgown 0 (slotKey ((off - 0x2000) / 0x800) ((off - 0x2000) % 0x800 / 8)))
  else if 0x4000 ≤ off && off < 0xC000 then
    ownField (Tab.get s.trig.ctrown 0 (ctrKey ((off - 0x4000) / 0x2000) ((off - 0x4000) % 0x2000 / 8)))
  else if 0xC000 ≤ off then s.readFleet off
  else s.readDriver off

end Sys2Proof.Machine
end

