-- ==== Sys2Proof/Safety.lean ====
section
/-! DEFINITION. What a safe run is and what it means that an instruction is performed, in the terms the claims use:
stepping, the memory invariant, the issuing unit, and what each form of instruction leaves behind. -/

namespace Sys2Proof.Machine

open Sys2Proof

/-- One step leads from `s` to `t`. -/
def Steps (s t : State) : Prop := step s = .next t

/-- Device memory and the stand-in for remote memory are in canonical form. -/
def State.MemOk (s : State) : Prop := Memory.wf s.mem = true ∧ Memory.wf s.remote = true

/-- What every step keeps of the device: both memories are in canonical form; the fleet mode names a legal mode, and so does
the mode a change in progress goes to (R421); the signing bucket holds at most 64 tokens (R420); and the leaf counter does
not pass 2^40 (R418). -/
def State.Inv (s : State) : Prop :=
  s.MemOk ∧ (modeOk s.fleet.mode = true ∧ (s.fleet.busy = true → modeOk s.fleet.next = true)) ∧ s.boot.tokens ≤ 64 ∧
  s.boot.leaf ≤ 2 ^ 40

/-- States reached from `s` by any number of steps. -/
inductive Reaches (s : State) : State → Prop where
  | here : Reaches s s
  | next {t u : State} : Reaches s t → Steps t u → Reaches s u

/-- A property that a step keeps. -/
def Kept (P : State → Prop) : Prop := ∀ s t, P s → Steps s t → P t

-- issuing and performing

/-- A unit that `step` lets issue: its gang is one of its team's, its slices are different live slices of that gang, and it
is one slice exactly when the gang is parted (R22, R226). -/
structure Issuer.Real (i : Issuer) : Prop where
  gang   : i.unit.gang < i.tm.gangs.length
  some   : i.slices ≠ []
  form   : i.g.ganged = i.unit.slice.isNone
  apart  : i.slices.Nodup
  slice  : ∀ k ∈ i.slices, k < 8 ∧ (i.g.slice k).live = true

/-- `i` issues in `s`. -/
def State.Issues (s : State) (i : Issuer) : Prop := s.issuer? = some i ∧ i.Real

/-- What follows every performed instruction: after a team halt it counts as skid (R194), and a cooperative save that has
become possible is made (R199). -/
def State.after (s : State) (p : Performer) (t : State) : State := (s.countSkid t p).trySave p.team

/-- `ins` is performed in `s` by `p`, with the effect `t`. -/
def Performs (ins : Instr) (s : State) (p : Performer) (t : State) : Prop := exec ins s = .next (s.after p t)

/-- `s` with the issuing gang changed to `g` and nothing else: no other gang, team, memory or unit of the device. -/
def State.withGang (s : State) (i : Issuer) (g : Gang) : State := s.modGang i.unit.team i.unit.gang (fun _ => g)

-- one gang

/-- The slices in `l` have gone on at the addresses `pc` gives and may issue; the others are as they were. -/
def Gang.Went (g g' : Gang) (l : List Nat) (pc : Nat → W64) : Prop :=
  (∀ k ∈ l, g'.slice k = { g.slice k with pc := pc k, wait := .ready }) ∧ (∀ k, k ∉ l → g'.slice k = g.slice k)

/-- The slices in `l` have gone on at the following slot (R205). -/
def Gang.Passed (g g' : Gang) (l : List Nat) : Prop := g.Went g' l (fun k => nextSlot (g.slice k).pc)

/-- What counts instructions in a gang may differ (R222, R256), and so may the slices; nothing else does. -/
def Gang.SameButIssue (g g' : Gang) : Prop :=
  g' = { g with slices := g'.slices, gissue := g'.gissue, gparted := g'.gparted, applied := g'.applied, plainDone := g'.plainDone, pend := g'.pend }

/-- GISSUE counts one instruction of a ganged gang, or one for each slice of a parted one, which GPARTED counts too (R256). -/
def Gang.Counted (g g' : Gang) (l : List Nat) : Prop :=
  g'.gissue = g.gissue + BitVec.ofNat 64 (if g.ganged then 1 else l.length) ∧
  g'.gparted = g.gparted + BitVec.ofNat 64 (if g.ganged then 0 else l.length)

/-- A gang that went on: its slices in `l` at `pc`, counted, and nothing else of it changed. -/
structure Gang.WentOn (g g' : Gang) (l : List Nat) (pc : Nat → W64) : Prop where
  went    : g.Went g' l pc
  counted : g.Counted g' l
  rest    : g.SameButIssue g'

-- lane instructions

/-- Whether a lane destination covers a v register: itself, or the pair (R68). -/
def dstHoldsV (d : Operand) (wide : Bool) (r : Nat) : Bool := match d with | .v i => r == i.toNat || (wide && r == i.toNat + 1) | _ => false
/-- Whether a lane destination covers an n register. -/
def dstHoldsN (d : Operand) (wide : Bool) (r : Nat) : Bool := match d with | .n i => r == i.toNat || (wide && r == i.toNat + 1) | _ => false
/-- Whether an operand is a bypass register. -/
def isBypass (d : Operand) : Bool := match d with | .b _ => true | _ => false

/-- What a lane instruction of class S leaves in its gang (R74, R75, R228, R257, R258): `val` and `exc` give each active
lane's result and exceptions. -/
structure LaneDone (i : Issuer) (h : Hdr) (wide : Bool) (d : Operand) (res : Nat → Nat × Exc) (g' : Gang) : Prop where
  /-- an active lane's destination register holds the result -/
  dest     : isBypass d = false → ∀ l ∈ i.active h, g'.rdReg wide d l = (res l).1 % 2 ^ (if wide then 64 else 32)
  /-- an active lane's b0 holds the result -/
  bypass   : ∀ l ∈ i.active h, g'.rdB 0 l = BitVec.ofNat 64 (res l).1
  /-- another issuing lane's b0 holds the value D holds -/
  inactive : ∀ l ∈ i.lanes, l ∉ i.active h → g'.rdB 0 l = if isBypass d then i.g.rdB 0 l else BitVec.ofNat 64 (i.g.rdReg wide d l)
  /-- b1, b2 and b3 hold the old b0, b1 and b2 in every issuing lane -/
  shifted  : ∀ l ∈ i.lanes, ∀ k < 3, g'.rdB (k + 1) l = i.g.rdB k l
  /-- FLAGS gains the exceptions of the active lanes -/
  flags    : g'.flags = i.g.flags ||| ((i.active h).foldl (fun e l => e ||| (res l).2) (0 : Exc)).setWidth 64
  passed   : i.g.Passed g' i.slices
  counted  : i.g.Counted g' i.slices
  /-- every other v register, and the destination in every other lane, is unchanged -/
  vKept    : ∀ r l, l < 32 → dstHoldsV d wide r = false ∨ l ∉ i.active h → g'.rdV r l = i.g.rdV r l
  nKept    : ∀ r l, l < 32 → dstHoldsN d wide r = false ∨ l ∉ i.active h → g'.rdN r l = i.g.rdN r l
  /-- the bypass file is unchanged in the lanes that do not issue -/
  bKept    : ∀ r l, l < 32 → r < 4 → l ∉ i.lanes → g'.rdB r l = i.g.rdB r l
  /-- s, m, t, g, CC, FPMODE, the stack and everything else of the gang is unchanged -/
  rest     : Gang.SameButIssue { i.g with v := g'.v, n := g'.n, b := g'.b, flags := g'.flags } g'

/-- `ins` is a class S lane instruction: with legal operands and no enabled exception it completes and leaves `LaneDone`. -/
def LaneCompletes (ins : Instr) (h : Hdr) (wide : Bool) (d : Operand) (ok : Team → Bool) (res : Gang → Nat → Nat × Exc) : Prop :=
  ∀ s i, s.Issues i → h.scp = .lane → laneDstOk i.tm.nregs wide d = true → ok i.tm = true →
    (∀ l ∈ i.active h, enabledExc i.g.fpmode (res i.g l).2 = false) →
    ∃ g', Performs ins s i.performer (s.withGang i g') ∧ LaneDone i h wide d (res i.g) g'

/-- What a lane instruction of class L leaves in its gang (R220, R222, R223): with a lookahead of 0 the results are in the
destination, else one more late result is pending, which each issuing slice's next `la` instructions may not see. -/
structure LateDone (i : Issuer) (h : Hdr) (la : Nat) (wide : Bool) (d : Operand) (res : Nat → Nat × Exc) (g' : Gang) : Prop where
  now     : la = 0 → ∀ l ∈ i.active h, g'.rdReg wide d l = (res l).1 % 2 ^ (if wide then 64 else 32)
  later   : la ≠ 0 → g'.v = i.g.v ∧ g'.n = i.g.n ∧ ∃ q : Pending, g'.pend = (i.g.pass i.slices).pend ++ [q] ∧
              q.left = (List.range 8).map (fun k => if i.slices.contains k then la else 1000000)
  /-- once the pending results have landed, the destination holds the result -/
  lands   : la ≠ 0 → ∀ l ∈ i.active h, g'.land.rdReg wide d l = (res l).1 % 2 ^ (if wide then 64 else 32)
  flags   : g'.flags = i.g.flags ||| ((i.active h).foldl (fun e l => e ||| (res l).2) (0 : Exc)).setWidth 64
  passed  : i.g.Passed g' i.slices
  counted : i.g.Counted g' i.slices
  vKept   : ∀ r l, l < 32 → dstHoldsV d wide r = false ∨ l ∉ i.active h → g'.rdV r l = i.g.rdV r l
  nKept   : ∀ r l, l < 32 → dstHoldsN d wide r = false ∨ l ∉ i.active h → g'.rdN r l = i.g.rdN r l
  /-- the bypass file is not shifted, and nothing else of the gang changes -/
  rest    : Gang.SameButIssue { i.g with v := g'.v, n := g'.n, flags := g'.flags } g'

/-- `ins` is a class L lane instruction: with legal operands and no enabled exception it completes and leaves `LateDone`. -/
def LateCompletes (ins : Instr) (h : Hdr) (la : Gang → Nat) (wide : Bool) (d : Operand) (ok : Team → Bool) (res : Gang → Nat → Nat × Exc) : Prop :=
  ∀ s i, s.Issues i → h.scp = .lane → lateDstOk i.tm.nregs wide d = true → ok i.tm = true →
    (∀ l ∈ i.active h, enabledExc i.g.fpmode (res i.g l).2 = false) →
    ∃ g', Performs ins s i.performer (s.withGang i g') ∧ LateDone i h (la i.g) wide d (res i.g) g'

/-- What a lane comparison leaves (R9, R12, R261). -/
structure MaskDone (i : Issuer) (h : Hdr) (m : Nat) (res : Nat → Bool × Exc) (g' : Gang) : Prop where
  dest    : ∀ l ∈ i.active h, bitAt (g'.rdM m).toNat l = (res l).1
  kept    : ∀ l, l < 32 → l ∉ i.active h → bitAt (g'.rdM m).toNat l = bitAt (i.g.rdM m).toNat l
  others  : ∀ r, r ≠ m → g'.rdM r = i.g.rdM r
  flags   : g'.flags = i.g.flags ||| ((i.active h).foldl (fun e l => e ||| (res l).2) (0 : Exc)).setWidth 64
  passed  : i.g.Passed g' i.slices
  counted : i.g.Counted g' i.slices
  rest    : Gang.SameButIssue { i.g with m := g'.m, flags := g'.flags } g'

/-- `ins` is a lane comparison into a mask register other than m0. -/
def MaskCompletes (ins : Instr) (h : Hdr) (d : Operand) (ok : Team → Bool) (res : Gang → Nat → Bool × Exc) : Prop :=
  ∀ s i, s.Issues i → h.scp = .lane → mDstOk d = true → ok i.tm = true →
    (∀ l ∈ i.active h, enabledExc i.g.fpmode (res i.g l).2 = false) →
    ∃ g', Performs ins s i.performer (s.withGang i g') ∧ MaskDone i h (mIdx d) (res i.g) g'

-- scoped instructions

/-- `ins`, issued in `s`, is performed by `p` in the state `s'` (the arrivals of a rendezvous noted), with the effect `t`. -/
def PerformsIn (ins : Instr) (s s' : State) (p : Performer) (t : State) : Prop := exec ins s = .next (s'.after p t)

/-- The state in which the issuing unit waits in a rendezvous. -/
def State.arriving (s : State) (i : Issuer) (k : Rendez) : State := s.waitAll i.performer (.rendez k)

/-- The performers of a rendezvous: the covered gangs with their live slices. -/
def Team.performers (t : Team) (i : Issuer) (k : Rendez) (hdr : Option Hdr := none) : Performer :=
  { team := i.unit.team, gangs := (t.cover k i.unit.gang).map (fun j => (j, (t.gang j).liveSlices)), hdr := hdr,
    setflt := (match k with | .set _ => true | .team => true | _ => false) }

/-- The unit is the last to arrive (R27 to R30): every live slice of every covered gang waits at its instruction, and after a team
halt all of those gangs are in handler state (R128, R196). `s'` is the state in which they go on together and `t` the team in it. -/
def State.Meets (s : State) (i : Issuer) (k : Rendez) (s' : State) (t : Team) : Prop :=
  ∃ t1, (s.arriving i k).team? i.unit.team = some t1 ∧ t1.goes (t1.cover k i.unit.gang) = true ∧ (∀ j ∈ t1.cover k i.unit.gang, (t1.gang j).arrived i.pc k = true) ∧
    s' = (s.arriving i k).waitAll (t1.performers i k) .ready ∧ s'.team? i.unit.team = some t

/-- A GANG-scope instruction starts (R27): at once for a ganged gang, else when its last live slice arrives. `i'` is the
whole gang as issuer. -/
def State.GangStarts (s : State) (i : Issuer) (s' : State) (i' : Issuer) : Prop :=
  (i.g.ganged = true ∧ s' = s ∧ i' = i) ∨
  (i.g.ganged = false ∧ ∃ t, s.Meets i .gang s' t ∧
    i' = { unit := { i.unit with slice := none }, tm := t, g := t.gang i.unit.gang, slices := (t.gang i.unit.gang).liveSlices })

/-- A scoped instruction starts: for its gang, or when all members of the set, or all gangs of the team, have arrived. -/
def State.Starts (s : State) (i : Issuer) (h : Hdr) (setNo : Nat) (s' : State) (w : Wide) : Prop :=
  match h.scp with
  | .lane => False
  | .gang => ∃ i', s.GangStarts i s' i' ∧
      w = { p := i'.performer (some h), scope := .gang, set := 0, tm := i'.tm, gangs := [i'.unit.gang], parts := [some i'.unit.gang] }
  | .set => bitAt (i.tm.sets.getD setNo {}).mask i.unit.gang = true ∧ ∃ t, s.Meets i (.set setNo) s' t ∧
      w = { p := t.performers i (.set setNo) (some h), scope := .set, set := setNo, tm := t, gangs := t.cover (.set setNo) i.unit.gang,
            parts := (onesOf 32 (i.tm.sets.getD setNo {}).mask).map (fun j => if (t.gang j).isLive then some j else none) }
  | .team => ∃ t, s.Meets i .team s' t ∧
      w = { p := t.performers i .team (some h), scope := .team, set := 0, tm := t, gangs := t.cover .team i.unit.gang,
            parts := (List.range t.gangs.length).map (fun j => if (t.gang j).isLive then some j else none) }

/-- `t` is `s` but for some gangs of one team: all memory, every other team and gang, and the rest of the device are as
they were. -/
structure State.OnlyGangs (s t : State) (team : Nat) (gangs : List Nat) : Prop where
  device : t = { s with teams := t.teams }
  teams  : ∀ id, id ≠ team → t.team? id = s.team? id
  team   : ∀ u, s.team? team = some u → ∃ u', t.team? team = some u' ∧ u' = { u with gangs := u'.gangs } ∧
             u'.gangs.length = u.gangs.length ∧ ∀ j, j ∉ gangs → u'.gang j = u.gang j

/-- `ins` is a scoped instruction that changes only the gangs that perform it: when it starts and its operands are legal it
completes, and `R` holds of every performing gang before and after, with its slices. -/
def WideCompletes (ins : Instr) (h : Hdr) (setNo : Nat) (legal : List Scope) (ok : Wide → Prop)
    (R : Wide → Nat → List Nat → Gang → Gang → Prop) : Prop :=
  ∀ s i s' w, s.Issues i → legal.contains h.scp = true → s.Starts i h setNo s' w → ok w →
    ∃ t, PerformsIn ins s s' w.p t ∧ s'.OnlyGangs t w.p.team (w.p.gangs.map Prod.fst) ∧
      ∀ q ∈ w.p.gangs, R w q.1 q.2 (s'.gang w.p.team q.1) (t.gang w.p.team q.1)

/-- A performing gang with its slices, as an issuer of its own. -/
def Wide.unitOf (w : Wide) (j : Nat) (l : List Nat) : Issuer :=
  { unit := { team := w.p.team, gang := j, slice := none }, tm := w.tm, g := w.tm.gang j, slices := l }

/-- The 32-lane part of the lane space that a gang holds (R269). -/
def Wide.partOf (w : Wide) (j : Nat) : Nat := (indexOf? (· == some j) w.parts).getD 0

/-- `ins` is a scoped lane movement of class L: in every performing gang, lane x, lane 32·part + x of the lane space, receives
the result `val`, and FLAGS gains `exc` (R74, R269, R271, R273). -/
def LateMoveCompletes (ins : Instr) (h : Hdr) (f : FmtR) (ok : Wide → Prop) (exc : Wide → Exc) (val : Wide → Nat → Nat) : Prop :=
  WideCompletes ins h (f.xt.toNat % 8) scopesGST (fun w => ok w ∧ enabledExc w.rep.fpmode (exc w) = false)
    (fun w j l g g' => LateDone { w.unitOf j l with g := g.orFlags (exc w) } h (w.moveLa h) (tyPair f.ty) (w.reg f.d)
      (fun x => (val w (32 * w.partOf j + x), 0)) g')

/-- `ins` is a scoped lane movement of class S (R258, R269, R272, R275). -/
def ShortMoveCompletes (ins : Instr) (h : Hdr) (f : FmtR) (legal : List Scope) (ok : Wide → Prop) (val : Wide → Nat → Nat) : Prop :=
  WideCompletes ins h (f.xt.toNat % 8) legal ok
    (fun w j l _ g' => LaneDone (w.unitOf j l) h (tyPair f.ty) (w.reg f.d) (fun x => (val w (32 * w.partOf j + x), 0)) g')

-- exceptions

/-- Two gangs with the same registers: v, n, b, s, m, t, g, CC, FPMODE, FLAGS, the stack and its registers, and pending
results. -/
def Gang.SameRegs (g g' : Gang) : Prop :=
  g' = { g with slices := g'.slices, ganged := g'.ganged, queue := g'.queue, handler := g'.handler, savedGanged := g'.savedGanged,
                trec := g'.trec, savedApplied := g'.savedApplied, savedPlain := g'.savedPlain, savedWaits := g'.savedWaits,
                applied := g'.applied, plainDone := g'.plainDone, pend := g'.pend, gissue := g'.gissue, gparted := g'.gparted }

/-- `t` is `s` but for one team and the free values used: all memory and the rest of the device are as they were. -/
structure State.OnlyTeam (s t : State) (team : Nat) : Prop where
  device : t = { s with teams := t.teams, free := t.free }
  others : ∀ id, id ≠ team → t.team? id = s.team? id

/-- A slice that a halt has stopped: it issues no further instruction (R194). -/
def Slice.Halted (x : Slice) : Prop := x.skidMax ≤ x.skid

-- memory

/-- A launch without its read signature. -/
def Launch.unsigned (L : Launch) : Launch := { L with sig := [] }

/-- Where the page-table entries stand that an instruction of a core may write: those of its TLB and of the pages `ps` (R407). -/
def State.entriesOf (s : State) (core : Nat) (ps : List PageTr) : List Nat := (s.core core).tlb.map (·.at_) ++ ps.map (·.at_)

/-- A location outside the eight bytes of every entry in `as`. -/
def OffEntries (as : List Nat) (loc : Nat) : Prop := ∀ a ∈ as, loc < a ∨ a + 8 ≤ loc

/-- `t` is `s` after translations and reads by a core: its TLB, L1 and counters, the launches' read signatures (R176), the free
values used and the order of accesses (R109) may differ, and the forward counts in page-table entries of remote pages (R407); of
the fleet and what is sent only what an uncorrectable word brings (R425); nothing else does. -/
structure State.OnlyReads (s t : State) (core : Nat) (ps : List PageTr) : Prop where
  device  : t = { s with cores := t.cores, launches := t.launches, free := t.free, mem := t.mem, uncorr := t.uncorr, remote := t.remote,
                         order := t.order, fleet := t.fleet, out := t.out }
  quiet   : s.uncorr = [] → t.fleet = s.fleet ∧ t.out = s.out
  cores   : ∀ c, c ≠ core → t.core c = s.core c
  launch  : ∀ id, (t.launch? id).map Launch.unsigned = (s.launch? id).map Launch.unsigned
  memory  : ∀ loc, OffEntries (s.entriesOf core ps) loc → t.commByte loc = s.commByte loc
  plain   : (∀ p ∈ ps, pteRemote p.pte = false) → t.mem = s.mem ∧ t.uncorr = s.uncorr ∧ t.remote = s.remote

/-- The value that an agent sees at an access: its bytes, sector part by sector part, in the agent's view (R110, R122). -/
def State.seen (s : State) (w : Viewer) (ps : List PageTr) (x : LaneAcc) : Nat :=
  leNat ((partsOf ps x).flatMap (fun q => (List.range q.2.2).map (fun k => s.viewByte w (pteImm q.1.pte) (q.2.1 + k))))

/-- Every L1 copy that a core holds of an agent's view is up to date (R98). -/
def State.L1Current (s : State) (core : Nat) (w : Viewer) : Prop :=
  ∀ x ∈ (s.core core).l1, ∀ imm, x.view = s.viewKey w imm → x.data = (List.range 32).map (fun k => s.viewByte w imm (x.loc + k))

/-- No earlier value is left that a unit may read: every write is performed or its own, and known to its slices or made before
their last ordering event (R109, R112, R116); in an isolated task loads return the latest write (R186). -/
def State.Settled (s : State) (i : Issuer) : Prop :=
  s.itView i.viewer = true ∨ ∀ p ∈ s.order.past, s.order.hidden i.agents p = false

/-- `t` is `s` but for the order of accesses and the free values used. -/
def State.OnlyOrder (s t : State) : Prop := t = { s with order := t.order, free := t.free }

/-- A load of some lanes may be performed: in the scratchpad within the team's allocation, aligned, with no granule pending
(R91, R95); in the stack aligned and below STKLIM (R90, R101); in global memory with every page translated and present and
no uncorrectable word (R102, R104). -/
def State.LoadOk (s : State) (i : Issuer) (f : FmtM) (space : Space) (lanes : List Nat) : Prop :=
  let n := sizeBytes f.sz
  let accs := i.g.accesses f space true lanes n
  match space with
  | .spad => ∀ x ∈ accs, x.va + n ≤ i.tm.spadSize ∧ x.va % n = 0 ∧ i.tm.pendingAt x.va n = false
  | .stack => ∀ x ∈ accs, x.va < 2 ^ 32 ∧ x.va % n = 0 ∧ x.va + n ≤ i.g.stklim.toNat
  | .global => (∀ x ∈ accs, x.va + n ≤ 2 ^ 56) ∧ ∃ ps, s.xlatAll (some i.tm.core) i.tm.ctx .read accs = .ok ps ∧
      s.existing ps accs = .ok () ∧ s.readable i.viewer ps accs = .ok ()

/-- The values of a load, and the state that loading leaves. Where no earlier value is left to read, each value is what stands in
the scratchpad or, in global memory, what the agent sees, if every page is one that L1 does not serve (R98), or L1's copies are
up to date. -/
def State.Loaded (s : State) (i : Issuer) (f : FmtM) (space : Space) (lanes : List Nat) (vals : List (Nat × Nat)) (t : State) : Prop :=
  let n := sizeBytes f.sz
  let accs := i.g.accesses f space true lanes n
  match space with
  | .spad => vals.map Prod.fst = lanes ∧ (s.countRounds i.tm.core accs).OnlyOrder t ∧
      (s.Settled i → vals = accs.map (fun x => (x.lane, i.tm.spadNat x.va n)))
  | .stack => vals = accs.map (fun x => (x.lane, leNat ((List.range n).map (fun k => i.g.stackByte x.lane (x.va + k))))) ∧ t = s
  | .global => vals.map Prod.fst = lanes ∧ ∀ ps, s.xlatAll (some i.tm.core) i.tm.ctx .read accs = .ok ps →
      s.OnlyReads t i.tm.core ps ∧
      let u := s.touchPages i.tm.core ps (s.forwarded i.tm.core i.viewer f.ord f.vis ps accs)
      s.Settled i → ((∀ x ∈ accs, ∀ q ∈ partsOf ps x, l1Serves f.ord f.vis q.1 = false) ∨ ((∀ p ∈ ps, 16 ≤ p.size) ∧ u.L1Current i.tm.core i.viewer) →
        vals = accs.map (fun x => (x.lane, u.seen i.viewer ps x)))

/-- A store of some lanes may be performed: as a load, and outside guarded ranges and on writable pages with room in the
understory pool (R57, R102, R187). -/
def State.StoreOk (s : State) (i : Issuer) (f : FmtM) (space : Space) (lanes : List Nat) : Prop :=
  let n := sizeBytes f.sz
  let accs := i.g.accesses f space true lanes n
  match space with
  | .spad => ∀ x ∈ accs, x.va + n ≤ i.tm.spadSize ∧ x.va % n = 0 ∧ i.tm.guarded x.va n = false ∧ i.tm.pendingAt x.va n = false
  | .stack => ∀ x ∈ accs, x.va < 2 ^ 32 ∧ x.va % n = 0 ∧ x.va + n ≤ i.g.stklim.toNat
  | .global => (∀ x ∈ accs, x.va + n ≤ 2 ^ 56) ∧ ∃ ps, s.storeCheck (some i.tm.core) i.tm.ctx i.viewer accs = .ok ps

/-- `b` is the byte that some lane stores at an address; an address outside every access is not stored to (R111). -/
def StoredAt (accs : List LaneAcc) (data : Nat → List Byte) (a : Nat) (b : Byte) : Prop :=
  ∃ x ∈ accs, ∃ k < x.n, a = x.va + k ∧ (data x.lane)[k]? = some b

/-- The same matrix operations in flight, but for what they have kept of replaced scratchpad bytes (R65). -/
def Team.SameMops (t u : Team) : Prop := u.mops.map (fun p => (p.1, { p.2 with seen := [] })) = t.mops.map (fun p => (p.1, { p.2 with seen := [] }))

/-- The bytes of a store. In the scratchpad and the stack, an address that no lane covers keeps its byte and a covered one
holds the byte of a covering lane. In global memory the same holds of what the agent sees when all pages have one IMM flag;
committed memory changes only where a store goes through an IMM page or the launch has published (R111, R122, R173, R189). -/
def State.Stored (s : State) (i : Issuer) (f : FmtM) (space : Space) (lanes : List Nat) (t : State) : Prop :=
  let n := sizeBytes f.sz
  let accs := i.g.accesses f space true lanes n
  let data := fun l => leBytes n (i.g.dataNat f.d l n)
  match space with
  | .spad => (t = { s with teams := t.teams, cores := t.cores, free := t.free, order := t.order } ∧ (∀ c, (t.core c).tlb = (s.core c).tlb ∧ (t.core c).l1 = (s.core c).l1) ∧
      (∀ id, id ≠ i.unit.team → t.team? id = s.team? id)) ∧
      ∃ u, t.team? i.unit.team = some u ∧ u = { i.tm with spad := u.spad, mops := u.mops } ∧ i.tm.SameMops u ∧
        ∀ a, ((∀ x ∈ accs, a < x.va ∨ x.va + n ≤ a) → u.spadByte a = i.tm.spadByte a) ∧
          ((∃ x ∈ accs, x.va ≤ a ∧ a < x.va + n) → StoredAt accs data a (u.spadByte a))
  | .stack => ∃ g, t = s.withGang i g ∧ g = { i.g with stack := g.stack } ∧
      (∀ l ∈ lanes, ∀ k < n, g.stackByte l ((i.g.address .stack f.a f.b f.off true l).toNat + k) = (data l).getD k 0) ∧
      ∀ l a, a < 2 ^ 32 → (l ∉ lanes ∨ a < (i.g.address .stack f.a f.b f.off true l).toNat ∨ (i.g.address .stack f.a f.b f.off true l).toNat + n ≤ a) →
        g.stackByte l a = i.g.stackByte l a
  | .global => ∀ ps, s.storeCheck (some i.tm.core) i.tm.ctx i.viewer accs = .ok ps →
      (t = { s with teams := t.teams, launches := t.launches, cores := t.cores, free := t.free, mem := t.mem, uncorr := t.uncorr, remote := t.remote,
                       order := t.order, fleet := t.fleet, out := t.out } ∧
        (∀ id, id ≠ i.unit.team → t.team? id = s.team? id) ∧ (∃ u, t.team? i.unit.team = some u ∧ u = { i.tm with ws := u.ws }) ∧
        (∀ id, id ≠ i.tm.launch → t.launch? id = s.launch? id) ∧
        ((t.launch? i.tm.launch).map (fun L => { L with lines := [], poolNeed := 0 }) = (s.launch? i.tm.launch).map (fun L => { L with lines := [], poolNeed := 0 }))) ∧
      let at_ := fun a => (pageOf ps a).loc a
      let imm := fun a => pteImm (pageOf ps a).pte
      let published := match s.launch? i.tm.launch with | some L => L.irrev | none => true
      (∀ loc, OffEntries (s.entriesOf i.tm.core ps) loc → (∀ x ∈ accs, ∀ k < n, at_ (x.va + k) = loc → imm (x.va + k) = false ∧ published = false) →
        t.commByte loc = s.commByte loc) ∧
      ∀ b, (∀ x ∈ accs, ∀ k < n, imm (x.va + k) = b) → ((b = false ∧ published = false) ∨ ∀ p ∈ ps, pteRemote p.pte = false) → ∀ loc,
        ((∀ x ∈ accs, ∀ k < n, at_ (x.va + k) ≠ loc) → t.viewByte i.viewer b loc = s.viewByte i.viewer b loc) ∧
        ((∃ x ∈ accs, ∃ k < n, at_ (x.va + k) = loc) → ∃ a, at_ a = loc ∧ StoredAt accs data a (t.viewByte i.viewer b loc))

-- operands of a lane, and results

/-- A, B and C of an instruction in a lane, read as integers of its type (R249, R260). -/
def laneA (f : FmtR) (g : Gang) (l : Nat) : Int := tyInt f.ty (g.rdLane f.ty f.a l)
def laneB (f : FmtR) (g : Gang) (l : Nat) : Int := tyInt f.ty (g.rdSrc f.ty f.b l)
def laneC (f : FmtR) (g : Gang) (l : Nat) : Int := tyInt f.ty (g.rdLane f.ty f.c l)

/-- The pattern that an exact integer leaves in a type: with SAT the nearest end of the range, else modulo 2^w (R249). -/
def narrowed (t : Ty) (sat : Bool) (e : Int) : Nat :=
  patOf (tyWidth t) (if sat then (if e < tyMin t then tyMin t else if tyMax t < e then tyMax t else e) else e)

/-- A lane instruction with an exact integer result and no exceptions; a 32-bit one reaches a b destination extended to 64 bits
(R249, R260; log entry 36). -/
def intRes (f : FmtR) (e : Gang → Nat → Int) : Gang → Nat → Nat × Exc := fun g l => (laneResult f (narrowed f.ty f.sat (e g l)), 0)

/-- A float operation in a lane, applied to each element of the type under the instruction's rounding mode (R71, R72). -/
def floatRes (f : FmtR) (op : Rm → FSpec → Nat → Nat → Nat → Nat × Exc) : Gang → Nat → Nat × Exc := fun g l =>
  perElem f.ty (op (effRm g.fpmode f.rm)) (g.rdLane f.ty f.a l) (g.rdSrc f.ty f.b l) (g.rdLane f.ty f.c l)

/-- What a scalar instruction leaves in a gang (R222, R247, R249): sD holds `val` and, where given, CC's bits Z, N, C and V
those of `cc`; with a lookahead, once the pending results have landed. -/
structure ScalarDone (g g' : Gang) (l : List Nat) (la d : Nat) (val : W64) (cc : Option W64) : Prop where
  now     : la = 0 → g'.rdS d = val ∧ ∀ k < 64, g'.cc.getLsbD k = (match cc with | some c => if k < 4 then c.getLsbD k else g.cc.getLsbD k | none => g.cc.getLsbD k)
  later   : la ≠ 0 → g'.s = g.s ∧ g'.cc = g.cc ∧ ∃ q : Pending, g'.pend = (g.pass l).pend ++ [q] ∧
              q.left = (List.range 8).map (fun k => if l.contains k then la else 1000000)
  lands   : la ≠ 0 → g'.land.rdS d = val ∧ ∀ c, cc = some c → ∀ k < 4, g'.land.cc.getLsbD k = c.getLsbD k
  others  : ∀ r, r ≠ d → g'.rdS r = g.rdS r
  passed  : (∀ k ∈ l, k < 8 ∧ (g.slice k).live = true) → l.Nodup → g.Passed g' l
  counted : g.Counted g' l
  rest    : Gang.SameButIssue { g with s := g'.s, cc := g'.cc } g'

/-- A scalar integer instruction: operands and FPMODE come from the representative member, and every member receives the
same result (R246, R247, R249). `val` and `cc` are functions of the representative. -/
def ScalarCompletes (ins : Instr) (h : Hdr) (f : FmtR) (useB useC : Bool) (val : Gang → W64) (cc : Gang → Option W64) : Prop :=
  WideCompletes ins h (f.xt.toNat % 8) (scalarScopes f)
    (fun _ => sOk f.d = true ∧ sSrcOk f.a = true ∧ (useB = true → sBOk f.b = true) ∧ (useC = true → sSrcOk f.c = true))
    (fun w _ l g g' => ScalarDone g g' l h.la.toNat (sIdx f.d) (val w.rep) (cc w.rep))

/-- A, B and C of a scalar instruction as integers of its type. -/
def scalarA (f : FmtR) (g : Gang) : Int := tyInt f.ty (g.rdScalar f.a).toNat
def scalarB (f : FmtR) (g : Gang) : Int := tyInt f.ty (g.rdScalarB f.ty f.b).toNat
def scalarC (f : FmtR) (g : Gang) : Int := tyInt f.ty (g.rdScalar f.c).toNat

/-- The value that sD receives: the narrowed result extended to 64 bits (R249). -/
def scalarVal (f : FmtR) (e : Gang → Int) (g : Gang) : W64 := extend64 f.ty (narrowed f.ty f.sat (e g))
/-- The condition codes with CCW = 1: Z, N, C and V by R249. -/
def scalarCc (f : FmtR) (e : Gang → Int) (rule : Gang → CarryRule) (g : Gang) : Option W64 :=
  if f.ccw then some (g.setIntCc (tyWidth f.ty) (narrowed f.ty f.sat (e g)) (f.sat && decide (e g < tyMin f.ty ∨ tyMax f.ty < e g)) (rule g)).cc else none

/-- A gang that an instruction changes at once and passes. -/
def Gang.PassedWith (g g' : Gang) (l : List Nat) (f : Gang → Gang) : Prop := g' = (f g).pass l

/-- `ins` is a GANG-scope instruction: when it starts and `ok` holds it completes, with an effect that `eff` describes. -/
def GangCompletes (ins : Instr) (h : Hdr) (ok : State → Issuer → Prop) (eff : State → Issuer → State → Prop) : Prop :=
  ∀ s i s' i', s.Issues i → h.scp = .gang → s.GangStarts i s' i' → ok s' i' → ∃ t, PerformsIn ins s s' i'.performer t ∧ eff s' i' t

/-- A uniform transfer or another unscoped instruction that is performed once for the gang (R242). -/
def UniformCompletes (ins : Instr) (h : Hdr) (ok : State → Issuer → Prop) (eff : State → Issuer → State → Prop) : Prop :=
  ∀ s i s' i', s.Issues i → h.scp = .lane → s.GangStarts i s' i' → ok s' i' → ∃ t, PerformsIn ins s s' i'.performer t ∧ eff s' i' t

/-- An instruction that each unit performs by itself (R226). -/
def UnitCompletes (ins : Instr) (h : Hdr) (ok : State → Issuer → Prop) (eff : State → Issuer → State → Prop) : Prop :=
  ∀ s i, s.Issues i → h.scp = .lane → ok s i → ∃ t, Performs ins s i.performer t ∧ eff s i t

/-- Only the issuing gang changes: by `f`, and then it passes the instruction. -/
def GangBecomes (f : State → Issuer → Gang → Gang) : State → Issuer → State → Prop := fun s i t =>
  ∃ g', t = s.withGang i g' ∧ i.g.PassedWith g' i.slices (f s i)

/-- Every gang that performs a scoped instruction is changed by `f` and passes; the rest of the device is as in `u`. -/
def State.WidePassed (u t : State) (w : Wide) (f : Gang → Gang) : Prop :=
  u.OnlyGangs t w.p.team (w.p.gangs.map Prod.fst) ∧ ∀ q ∈ w.p.gangs, (w.tm.gang q.1).PassedWith (t.gang w.p.team q.1) q.2 f

-- checks before an instruction is performed

/-- The header of an encoded instruction, and the scopes that the map of R225 allows it; an I form takes no SET scope (R226).
`NOP`, whose word is all zero, has one scope only. -/
def scopesOf : Instr → Option (Hdr × List Scope)
  | .bra h _ | .bcc h _ _ | .bmz h _ | .bmnz h _ | .bind h _ | .call h _ | .calli h _ | .ret h | .regang h | .exit h
  | .yield h | .enter h _ | .leave h | .bkpt h | .trap h _ | .iadd h _ | .isub h _ | .imul h _ _ | .imad h _ | .imin h _
  | .imax h _ | .iabs h _ | .ineg h _ | .lop h _ _ | .shf h _ _ | .icmp h _ _ | .sel h _ | .ibit h _ _ | .bfx h _ _ | .lea h _
  | .idiv h _ _ | .idot h _ | .mov h _ | .fadd h _ | .fsub h _ | .fmul h _ | .fma h _ | .fms h _ | .fnma h _ | .fnms h _
  | .fmin h _ | .fmax h _ | .fsgn h _ _ | .fcmp h _ _ | .fclass h _ | .fdiv h _ | .fsqrt h _ | .frcp h _ | .frsq h _
  | .fexp2 h _ | .flog2 h _ | .fscale h _ | .frnd h _ | .cvtf h _ _ | .cvti h _ _ | .cvtn h _ _ | .cvtl h _ _ | .pack h _ _
  | .unpk h _ _ | .ld h _ | .st h _ | .lds h _ | .sts h _ | .ldl h _ | .stl h _ | .pld h _ _ | .cmaint h _ _ | .sleep h _
  | .rte h => some (h, [.lane])
  | .smov h _ f | .sadd h f | .ssub h f | .smul h _ f | .smad h f | .sdiv h f | .srem h f | .slop h _ f | .sshf h _ f
  | .scmp h f | .ssel h _ f | .smin h f | .smax h f | .sbit h _ f | .sfop h _ f => some (h, scalarScopes f)
  | .sget h _ _ | .sset h _ _ | .mop h _ _ | .shfl h _ _ | .bcast h _ | .xvote h _ _ | .xred h _ _ | .xscan h _ _ _ | .mma h _
  | .gnew h _ => some (h, scopesGST)
  | .confl h _ | .cmprs h _ | .expnd h _ | .ldu h _ | .stu h _ | .stash h _ _ | .copy h _ _ _ _ | .gather h _ | .scatter h _ _
  | .abinit h _ | .abarr h _ | .abwait h _ | .abexp h _ | .abtest h _ | .wpop h _ _ | .tdef h _ _ _ | .tldr h _ | .tstr h _
  | .tget h _ _ | .tmul h _ | .accrd h _ _ | .accwr h _ _ | .accz h _ | .accrel h _ | .mbatch h _ | .mwait h _
  | .cturn h _ _ _ | .tmv h _ | .tadd h _ | .tscl h _ | .trnd h _ _ | .tdense h _ | .tzero h _ | .tnorm h _ | .tpool h _ _
  | .tfree h _ | .ttrn h _ | .gjoin h _ | .gleave h _ | .gbar h _ | .gvote h _ _ | .gred h _ _ | .greset h _ | .ginfo h _
  | .qpush h _ _ | .qpop h _ _ | .xput h _ | .xget h _ | .trigarm h _ | .trigcnt h _ | .trigdis h _ | .launch h _ | .cjoin h _
  | .spanmap h _ | .spanst h _ | .labort h _ | .trq h _ _ | .perf h _ _ => some (h, [.gang])
  | .fence h _ | .atom h _ _ _ | .acas h _ _ | .mred h _ _ _ | .atoms h _ _ _ | .acass h _ _ | .wapp h _ => some (h, [.lane, .gang])
  | .setdecl h _ | .qdef h _ | .coll h _ _ _ => some (h, [.team])
  | .xmov h _ => some (h, [.set])
  | .bar h _ => some (h, [.set, .team])
  | _ => none

/-- The set that a SET-scope instruction names, in XT or IMM16 (R227). -/
def setNoOf : Instr → Option Nat
  | .smov _ _ f | .sadd _ f | .ssub _ f | .smul _ _ f | .smad _ f | .sdiv _ f | .srem _ f | .slop _ _ f | .sshf _ _ f
  | .scmp _ f | .ssel _ _ f | .smin _ f | .smax _ f | .sbit _ _ f | .sfop _ _ f | .sget _ _ f | .sset _ _ f | .mop _ _ f
  | .shfl _ _ f | .bcast _ f | .xvote _ _ f | .xred _ _ f | .xscan _ _ _ f | .xmov _ f => some (f.xt.toNat % 8)
  | .mma _ f | .gnew _ f | .bar _ f => some f.imm.toNat
  | _ => none

/-- Whether an instruction is illegal in handler state for the issuing gang, which is checked before its scope (R224, R324). -/
def barred (ins : Instr) (i : Issuer) : Bool := match ins with | .bar _ _ => i.g.handler | _ => false

/-- The issuing unit takes a trap at its instruction and nothing else happens (R192, R224); the header tells the slice that raises
it (R193). -/
def Traps (ins : Instr) (s : State) (i : Issuer) (hdr : Option Hdr) (cause : Nat) (addr : W64) : Prop :=
  exec ins s = .next (s.takeTrap i.unit.team i.unit.gang i.slices ((s.gang i.unit.team i.unit.gang).trapEntry hdr i.slices cause addr 0))

/-- The issuing unit takes a trap before any rendezvous of its instruction (R27, R29, R32): at LANE and GANG scope for itself; at SET
scope for its gang, with SETFLT (log entry 48); at TEAM scope, with SETFLT, for every live gang of its team, whose entries name
the slice that raised it. -/
def TrapsAtScope (ins : Instr) (s : State) (i : Issuer) (h : Hdr) (cause : Nat) : Prop :=
  let e := i.g.trapEntry (some h) i.slices cause 0 0 (h.scp == .set || h.scp == .team)
  let t := s.takeTrap i.unit.team i.unit.gang i.slices e
  exec ins s = .next (if h.scp = .team then
      (i.tm.liveGangs.filter (· != i.unit.gang)).foldl (fun t j =>
        t.takeTrap i.unit.team j [] { e with parted := !(t.gang i.unit.team j).ganged }) t
    else t)

end Sys2Proof.Machine
end

