-- ==== Sys2Proof/Certificates/Slice0/Obligations.lean ====
section
/-! DEFINITION. The statements for the provers. -/

open Sys2Proof Sys2Proof.Machine

-- lane instructions

/-- R260: the integer lane instructions of the shared kinds complete with the exact value of R249, narrowed by SAT. Where
the spec leaves a point open it rests on the model's choices, log entry 11. -/
def Obligations.IntegerLanesComplete : Prop :=
  ∀ (h : Hdr) (f : FmtR) (lut : Byte) (k : BitOp),
    LaneCompletes (.iadd h f) h (tyPair f.ty) f.d (laneIntOk f .add) (intRes f (fun g l => laneA f g l + laneB f g l)) ∧
    LaneCompletes (.isub h f) h (tyPair f.ty) f.d (laneIntOk f .sub) (intRes f (fun g l => laneA f g l - laneB f g l)) ∧
    LaneCompletes (.imul h false f) h (tyPair f.ty) f.d (laneIntOk f .mul) (intRes f (fun g l => laneA f g l * laneB f g l)) ∧
    LaneCompletes (.imul h true f) h (tyPair f.ty) f.d (laneIntOk f .mulHi)
      (intRes f (fun g l => (laneA f g l * laneB f g l).fdiv ((2 ^ tyWidth f.ty : Nat) : Int))) ∧
    LaneCompletes (.imad h f) h (tyPair f.ty) f.d (laneIntOk f .mad) (intRes f (fun g l => laneA f g l * laneB f g l + laneC f g l)) ∧
    LaneCompletes (.imin h f) h (tyPair f.ty) f.d (laneIntOk f .min) (intRes f (fun g l => min (laneA f g l) (laneB f g l))) ∧
    LaneCompletes (.imax h f) h (tyPair f.ty) f.d (laneIntOk f .max) (intRes f (fun g l => max (laneA f g l) (laneB f g l))) ∧
    LaneCompletes (.iabs h f) h (tyPair f.ty) f.d (laneIntOk f .abs) (intRes f (fun g l => ((laneA f g l).natAbs : Int))) ∧
    LaneCompletes (.ineg h f) h (tyPair f.ty) f.d (laneIntOk f .neg) (intRes f (fun g l => -laneA f g l)) ∧
    LaneCompletes (.lop h lut f) h (tyPair f.ty) f.d (laneIntOk f (.lut lut))
      (intRes f (fun g l => lutBits (tyWidth f.ty) lut (g.rdLane f.ty f.a l) (g.rdSrc f.ty f.b l) (g.rdLane f.ty f.c l))) ∧
    LaneCompletes (.ibit h k f) h (tyPair f.ty) f.d (laneIntOk f (.bit k)) (intRes f (fun g l => bitOpBits k (tyWidth f.ty) (g.rdLane f.ty f.a l)))

/-- R260: shifts, selection, bit fields, address arithmetic, byte products and moves on lanes. Where the spec leaves a point
open it rests on the model's choices, log entries 11 and 36. -/
def Obligations.LaneMovesComplete : Prop :=
  ∀ (h : Hdr) (f : FmtR) (sh : ShiftOp) (bf : BfxOp),
    LaneCompletes (.shf h sh f) h (tyPair f.ty) f.d (fun t => laneSrcOk t.nregs (tyPair f.ty) f.a && laneBOk t.nregs false f.b)
      (fun g l => (laneResult f (patOf (tyWidth f.ty) (shiftBits sh (tyWidth f.ty) (g.rdLane f.ty f.a l) (g.rdSrc .n32 f.b l % tyWidth f.ty))), 0)) ∧
    LaneCompletes (.sel h f) h (tyPair f.ty) f.d (fun t => laneSrcOk t.nregs (tyPair f.ty) f.a && laneBOk t.nregs (tyPair f.ty) f.b && isM f.c)
      (fun g l => (laneResult f (if bitAt (g.rdM (mIdx f.c)).toNat l then g.rdLane f.ty f.a l else g.rdSrc f.ty f.b l), 0)) ∧
    LaneCompletes (.bfx h bf f) h (tyPair f.ty) f.d
      (fun t => laneSrcOk t.nregs (tyPair f.ty) f.a && (bf != .ins || laneBOk t.nregs (tyPair f.ty) f.b) && laneSrcOk t.nregs false f.c)
      (fun g l => (laneResult f (bfxBits bf (tyWidth f.ty) (g.rdLane f.ty f.a l) (g.rdSrc f.ty f.b l) (g.rdLane .n32 f.c l)), 0)) ∧
    (∀ k : BitVec 8, f.c = .imm k → k.toNat < 8 →
      LaneCompletes (.lea h f) h true f.d (fun t => laneSrcOk t.nregs true f.a && laneBOk t.nregs false f.b)
        (fun g l => (patOf 64 ((g.rdLane .n64 f.a l : Int) +
          (if f.ty = .i64 then tyInt .i32 (g.rdSrc .i32 f.b l) else tyInt .n32 (g.rdSrc .n32 f.b l)) * (2 : Int) ^ k.toNat), 0))) ∧
    LaneCompletes (.idot h f) h false f.d (fun t => laneSrcOk t.nregs false f.a && laneBOk t.nregs false f.b && laneSrcOk t.nregs false f.c)
      (intRes f (fun g l => idotExact f.ty (g.rdLane f.ty f.a l) (g.rdSrc f.ty f.b l) (g.rdLane f.ty f.c l))) ∧
    (∀ o, f.b = .op o → LaneCompletes (.mov h f) h (tyPair f.ty) f.d (fun t => laneSrcOk t.nregs (tyPair f.ty) f.a)
      (fun g l => (laneResult f (g.rdLane f.ty f.a l), 0))) ∧
    (∀ x, f.b = .imm32 x → LaneCompletes (.mov h f) h (tyPair f.ty) f.d (fun _ => true) (fun _ _ => (laneResult f (imm32Bits f.ty x), 0)))

/-- R263, R264: the class-S floating-point lane instructions. Where the spec leaves a point open it rests on the model's
choices, log entry 11. -/
def Obligations.FloatLanesComplete : Prop :=
  ∀ (h : Hdr) (f : FmtR) (k : SgnOp),
    LaneCompletes (.fadd h f) h (tyPair f.ty) f.d (laneFloatOk f true false) (floatRes f (fun rm F a b _ => F.fadd rm a b)) ∧
    LaneCompletes (.fsub h f) h (tyPair f.ty) f.d (laneFloatOk f true false) (floatRes f (fun rm F a b _ => F.fsub rm a b)) ∧
    LaneCompletes (.fmul h f) h (tyPair f.ty) f.d (laneFloatOk f true false) (floatRes f (fun rm F a b _ => F.fmul rm a b)) ∧
    LaneCompletes (.fma h f) h (tyPair f.ty) f.d (laneFloatOk f true true) (floatRes f (fun rm F a b c => F.fma rm false false a b c)) ∧
    LaneCompletes (.fms h f) h (tyPair f.ty) f.d (laneFloatOk f true true) (floatRes f (fun rm F a b c => F.fma rm false true a b c)) ∧
    LaneCompletes (.fnma h f) h (tyPair f.ty) f.d (laneFloatOk f true true) (floatRes f (fun rm F a b c => F.fma rm true false a b c)) ∧
    LaneCompletes (.fnms h f) h (tyPair f.ty) f.d (laneFloatOk f true true) (floatRes f (fun rm F a b c => F.fma rm true true a b c)) ∧
    LaneCompletes (.fmin h f) h (tyPair f.ty) f.d (laneFloatOk f true false) (floatRes f (fun _ F a b _ => F.fminmax false a b)) ∧
    LaneCompletes (.fmax h f) h (tyPair f.ty) f.d (laneFloatOk f true false) (floatRes f (fun _ F a b _ => F.fminmax true a b)) ∧
    LaneCompletes (.fsgn h k f) h (tyPair f.ty) f.d (laneFloatOk f (k == .copysign) false) (floatRes f (fun _ F a b _ => (fsgnBits k F a b, 0))) ∧
    LaneCompletes (.frnd h f) h (tyPair f.ty) f.d (laneFloatOk f false false) (floatRes f (fun rm F a _ _ => F.frnd rm a)) ∧
    LaneCompletes (.fclass h f) h false f.d (laneFloatOk f false false)
      (fun g l => ((if f.ty = .f64 then specF64 else specF32).fclass (g.rdLane f.ty f.a l), 0)) ∧
    LaneCompletes (.fscale h f) h (tyPair f.ty) f.d (fun t => laneSrcOk t.nregs (tyPair f.ty) f.a && laneBOk t.nregs false f.b)
      (fun g l => perElem f.ty (fun F a _ _ => F.fscale (effRm g.fpmode f.rm) a (tyInt .i32 (g.rdSrc .i32 f.b l))) (g.rdLane f.ty f.a l) 0 0)

/-- R250, R263: the long-latency lane instructions; the lookahead of a float operation is the one FPMODE leaves it (R223).
Where the spec leaves a point open it rests on the model's choices, log entries 11 and 24. -/
def Obligations.LongLatencyLanesComplete : Prop :=
  ∀ (h : Hdr) (f : FmtR),
    LateCompletes (.idiv h false f) h (fun _ => h.la.toNat) (tyPair f.ty) f.d (laneIntOk f .div)
      (intRes f (fun g l => if laneB f g l = 0 then -1 else (laneA f g l).tdiv (laneB f g l))) ∧
    LateCompletes (.idiv h true f) h (fun _ => h.la.toNat) (tyPair f.ty) f.d (laneIntOk f .rem)
      (intRes f (fun g l => if laneB f g l = 0 then laneA f g l else (laneA f g l).tmod (laneB f g l))) ∧
    LateCompletes (.fdiv h f) h (fun g => laOf g h.la) (tyPair f.ty) f.d (laneFloatOk f true false) (floatRes f (fun rm F a b _ => F.fdiv rm a b)) ∧
    LateCompletes (.fsqrt h f) h (fun g => laOf g h.la) (tyPair f.ty) f.d (laneFloatOk f false false) (floatRes f (fun rm F a _ _ => F.fsqrt rm a)) ∧
    LateCompletes (.frcp h f) h (fun g => laOf g h.la) (tyPair f.ty) f.d (laneFloatOk f false false) (floatRes f (fun rm F a _ _ => F.frcp rm a)) ∧
    LateCompletes (.frsq h f) h (fun g => laOf g h.la) (tyPair f.ty) f.d (laneFloatOk f false false) (floatRes f (fun rm F a _ _ => F.frsq rm a)) ∧
    LateCompletes (.fexp2 h f) h (fun g => laOf g h.la) (tyPair f.ty) f.d (laneFloatOk f false false) (floatRes f (fun rm F a _ _ => F.fexp2 rm a)) ∧
    LateCompletes (.flog2 h f) h (fun g => laOf g h.la) (tyPair f.ty) f.d (laneFloatOk f false false) (floatRes f (fun rm F a _ _ => F.flog2 rm a))

/-- R261, R264: the lane comparisons into m1 to m7. -/
def Obligations.LaneComparesComplete : Prop :=
  ∀ (h : Hdr) (p : CmpOp) (f : FmtR),
    MaskCompletes (.icmp h p f) h f.d (fun t => laneSrcOk t.nregs (tyPair f.ty) f.a && laneBOk t.nregs (tyPair f.ty) f.b)
      (fun g l => (icmpHolds p (laneA f g l) (laneB f g l), 0)) ∧
    MaskCompletes (.fcmp h p f) h f.d (laneFloatOk f true false)
      (fun g l => let r := (if f.ty = .f64 then specF64 else specF32).fcompare (g.rdLane f.ty f.a l) (g.rdSrc f.ty f.b l); (fcmpHolds p r.1, r.2))

/-- R266 to R268: conversions and packing. Where the spec leaves a point open it rests on the model's choices, log entries
11 and 37. -/
def Obligations.ConversionsComplete : Prop :=
  ∀ (h : Hdr) (src : Ty) (f : FmtR),
    LaneCompletes (.cvtf h src f) h (tyPair f.ty) f.d (fun t => laneSrcOk t.nregs (tyPair src) f.a)
      (fun g l => convElems src f.ty (effRm g.fpmode f.rm) (g.rdLane src f.a l)) ∧
    LaneCompletes (.cvti h src f) h (tyPair f.ty) f.d (fun t => laneSrcOk t.nregs (tyPair src) f.a)
      (fun g l => let r := numToInt (effRm g.fpmode f.rm) (tyMin f.ty) (tyMax f.ty) ((if src = .f64 then specF64 else specF32).decode (g.rdLane src f.a l))
                  (narrowBits f.ty r.1, r.2)) ∧
    LaneCompletes (.cvtn h src f) h (tyPair f.ty) f.d (fun t => laneSrcOk t.nregs (tyPair src) f.a)
      (fun g l => (if f.ty = .f64 then specF64 else specF32).ofInt (effRm g.fpmode f.rm) (g.rdConvInt src f.a l)) ∧
    LaneCompletes (.cvtl h true f) h false f.d (fun t => laneSrcOk t.nregs false f.a && laneBOk t.nregs false f.b)
      (fun g l => toLns6 (g.rdLane .f32 f.a l) (signedOf 8 (g.rdSrc .i32 f.b l))) ∧
    LaneCompletes (.cvtl h false f) h false f.d (fun t => laneSrcOk t.nregs false f.a && laneBOk t.nregs false f.b)
      (fun g l => specF32.round .rne (lnsValue (g.rdLane .n32 f.a l % 64) (signedOf 8 (g.rdSrc .i32 f.b l)))) ∧
    (f.ty ≠ .l6x4 → LaneCompletes (.pack h src f) h false f.d (fun t => laneSrcOk t.nregs false f.a && laneBOk t.nregs false f.b)
      (fun g l =>
        let G := if f.ty = .h16x2 then specF16 else specBF16
        let x := fconv specF32 G (effRm g.fpmode f.rm) (g.rdLane .f32 f.a l)
        let y := fconv specF32 G (effRm g.fpmode f.rm) (g.rdSrc .f32 f.b l)
        (x.1 + y.1 * 2 ^ 16, x.2 ||| y.2))) ∧
    (∀ k : BitVec 8, f.ty = .l6x4 → f.c = .imm k → k.toNat < 4 →
      LaneCompletes (.pack h src f) h false f.d (fun t => laneSrcOk t.nregs false f.a && laneBOk t.nregs false f.b)
        (fun g l => ((List.range 4).foldl (fun x q =>
          x + (if q = k.toNat then g.rdSrc .n32 f.b l % 64 else bits (g.rdLane f.ty f.a l) (8 * q) 6) * 2 ^ (8 * q)) 0, 0))) ∧
    (∀ k : BitVec 8, f.b = .op (.imm k) → k.toNat < (if f.ty = .l6x4 then 4 else 2) →
      LaneCompletes (.unpk h src f) h false f.d (fun t => laneSrcOk t.nregs false f.a)
        (fun g l => if f.ty = .l6x4 then (bits (g.rdLane f.ty f.a l) (8 * k.toNat) 6, 0)
          else fconv (if f.ty = .h16x2 then specF16 else specBF16) specF32 .rne (bits (g.rdLane f.ty f.a l) (16 * k.toNat) 16)))

-- scalar instructions

/-- R246, R247, R249: the scalar integer instructions complete in every gang of their scope with the exact value narrowed, and
with CCW = 1 the condition codes of R249. -/
def Obligations.ScalarIntegersComplete : Prop :=
  ∀ (h : Hdr) (f : FmtR) (lut : Byte) (k : BitOp) (sh : ShiftOp),
    let x := fun (g : Gang) => (g.rdScalar f.a).toNat % 2 ^ tyWidth f.ty
    let y := fun (g : Gang) => (g.rdScalarB f.ty f.b).toNat % 2 ^ tyWidth f.ty
    let done := fun (ins : Instr) (useB useC : Bool) (e : Gang → Int) (rule : Gang → CarryRule) =>
      ScalarCompletes ins h f useB useC (scalarVal f e) (scalarCc f e rule)
    let none := fun (_ : Gang) => CarryRule.none
    done (.sadd h f) true false (fun g => scalarA f g + scalarB f g) (fun g => .add (x g) (y g)) ∧
    done (.ssub h f) true false (fun g => scalarA f g - scalarB f g) (fun g => .sub (x g) (y g)) ∧
    done (.smul h false f) true false (fun g => scalarA f g * scalarB f g) none ∧
    done (.smul h true f) true false (fun g => (scalarA f g * scalarB f g).fdiv ((2 ^ tyWidth f.ty : Nat) : Int)) none ∧
    done (.smad h f) true true (fun g => scalarA f g * scalarB f g + scalarC f g) none ∧
    done (.sdiv h f) true false (fun g => if scalarB f g = 0 then -1 else (scalarA f g).tdiv (scalarB f g)) none ∧
    done (.srem h f) true false (fun g => if scalarB f g = 0 then scalarA f g else (scalarA f g).tmod (scalarB f g)) none ∧
    done (.slop h lut f) true true (fun g => lutBits (tyWidth f.ty) lut (g.rdScalar f.a).toNat (g.rdScalarB f.ty f.b).toNat (g.rdScalar f.c).toNat) none ∧
    done (.sshf h sh f) true false (fun g => shiftBits sh (tyWidth f.ty) (g.rdScalar f.a).toNat ((g.rdScalarB f.ty f.b).toNat % tyWidth f.ty)) none ∧
    done (.smin h f) true false (fun g => min (scalarA f g) (scalarB f g)) none ∧
    done (.smax h f) true false (fun g => max (scalarA f g) (scalarB f g)) none ∧
    done (.sbit h k f) false false (fun g => bitOpBits k (tyWidth f.ty) (g.rdScalar f.a).toNat) none

/-- R246, R249, R253: scalar moves, comparisons, selections and mask operations complete in every gang of their scope. Only the
copy of `SMOV` may name a g register: the insertion into a high half raises illegal-operand for one. -/
def Obligations.ScalarMovesComplete : Prop :=
  ∀ (h : Hdr) (f : FmtR) (cond : Cond),
    let set := f.xt.toNat % 8
    (∀ hi : Bool, WideCompletes (.smov h hi f) h set (match f.b with | .imm32 _ => [.gang, .team] | .op _ => scopesGST)
      (fun _ => (if hi then sOk f.d else sgOk f.d) = true ∧
        (match f.b with | .imm32 _ => True | .op _ => sSrcOk f.a = true ∨ (hi = false ∧ sgOk f.a = true)))
      (fun w _ l g g' => g.PassedWith g' l (fun m =>
        let a := match f.b with | .imm32 k => BitVec.ofNat 64 (imm32Bits .i64 k) | .op _ => w.rep.rdScalar f.a
        let x := if hi then a.extractLsb' 0 32 ++ (m.rdScalar f.d).extractLsb' 0 32 else a
        if f.ccw then (m.wrScalar f.d x).setIntCc 64 x.toNat false .none else m.wrScalar f.d x))) ∧
    (∀ s i s' w k o, s.Issues i → scopesGST.contains h.scp = true → s.Starts i h set s' w → f.b = .op o → f.d = .g k ∨ f.a = .g k →
      exec (.smov h true f) s = .next (s'.trapAll w.p cIllegalOperand 0 (fun _ => 0))) ∧
    WideCompletes (.scmp h f) h set (scalarScopes f) (fun _ => sSrcOk f.a = true ∧ sBOk f.b = true)
      (fun w _ l g g' => g.PassedWith g' l (fun m =>
        let x := (w.rep.rdScalar f.a).toNat % 2 ^ tyWidth f.ty
        let y := (w.rep.rdScalarB f.ty f.b).toNat % 2 ^ tyWidth f.ty
        m.setIntCc (tyWidth f.ty) (patOf (tyWidth f.ty) ((x : Int) - y)) false (.sub x y))) ∧
    WideCompletes (.ssel h cond f) h set (scalarScopes f) (fun _ => sOk f.d = true ∧ sSrcOk f.a = true ∧ sBOk f.b = true)
      (fun w _ l g g' => g.PassedWith g' l (fun m =>
        m.wrS (sIdx f.d) (if condHolds cond w.rep.cc w.tm.prq then w.rep.rdScalar f.a else w.rep.rdScalarB .b64 f.b))) ∧
    (∀ (k : MaskOp) (b : Operand), f.b = .op b →
      WideCompletes (.mop h k f) h set scopesGST
        (fun _ => (if k = .mpopc ∨ k = .mtos then sOk f.d else mDstOk f.d) = true ∧
          (match k with | .mfroms => sOk f.a | .mset => isM f.a || isImm f.a | _ => isM f.a) = true ∧
          (k = .mand ∨ k = .mor ∨ k = .mxor → isM b = true))
        (fun w _ l g g' => g.PassedWith g' l (fun m =>
          let x := (w.rep.rdScalar f.a).setWidth 32
          let y := (w.rep.rdScalar b).setWidth 32
          let v : W32 := match k with
            | .mset | .mfroms | .mtos => x
            | .mand => x &&& y
            | .mor => x ||| y
            | .mxor => x ^^^ y
            | .mnot => ~~~ x
            | .mpopc => BitVec.ofNat 32 (onesOf 32 x.toNat).length
          let m := if k = .mpopc ∨ k = .mtos then m.wrS (sIdx f.d) (v.setWidth 64) else m.wrM (mIdx f.d) v
          if f.ccw then m.setZncv (v == 0) v.msb false false else m)))

/-- R251: the scalar floating-point instruction, with no enabled exception; any NaN sets NV in arithmetic. -/
def Obligations.ScalarFloatsComplete : Prop :=
  ∀ (h : Hdr) (k : SfopOp) (f : FmtR),
    let F := if f.ty = .f64 then specF64 else specF32
    let b := fun (g : Gang) => g.rdScalarFB f.ty f.b
    let res := fun (g : Gang) =>
      let rm := effRm g.fpmode f.rm
      let a := g.rdScalarF f.ty f.a
      let c := g.rdScalarF f.ty f.c
      let nan := fun (x : Nat × Exc) (l : List Nat) => (x.1, if l.any F.isNan then x.2 ||| .nv else x.2)
      match k with
      | .add => nan (F.fadd rm a (b g)) [a, b g]
      | .sub => nan (F.fsub rm a (b g)) [a, b g]
      | .mul => nan (F.fmul rm a (b g)) [a, b g]
      | .fma => nan (F.fma rm false false a (b g) c) [a, b g, c]
      | .min => F.fminmax false a (b g)
      | .max => F.fminmax true a (b g)
      | .cmp => (0, (F.fcompare a (b g)).2)
      | .cvt => fconv (if f.ty = Ty.f64 then specF32 else specF64) F rm (g.rdScalarF (if f.ty = Ty.f64 then Ty.f32 else Ty.f64) f.a)
    WideCompletes (.sfop h k f) h (f.xt.toNat % 8) (scalarScopes f)
      (fun w => (k ≠ .cmp → sOk f.d = true) ∧ sSrcOk f.a = true ∧ (k ≠ .cvt → sBOk f.b = true) ∧ (k = .fma → sSrcOk f.c = true) ∧
        enabledExc w.rep.fpmode (res w.rep).2 = false)
      (fun w _ l g g' => g.PassedWith g' l (fun m =>
        let m := m.orFlags (res w.rep).2
        if k = .cmp then m.setCmpCc (F.fcompare (w.rep.rdScalarF f.ty f.a) (b w.rep)).1
        else
          let m := m.wrS (sIdx f.d) (BitVec.ofNat 64 (res w.rep).1)
          if f.ccw then m.setFloatCc F (res w.rep).1 else m))

/-- R229, R235, R236, R252: `SGET` reads a special register into an s register, or per lane into v registers; a read of CLOCK
sees it at a later moment (log entry 7), and a read of SETINFO gives a word of a set's declaration. -/
def Obligations.SpecialReadsComplete : Prop :=
  (∀ (h : Hdr) (r : SReg) (f : FmtR) (s : State) (i : Issuer) (s' : State) (w : Wide),
     s.Issues i → scopesGST.contains h.scp = true → s.Starts i h (f.xt.toNat % 8) s' w → r ≠ .setinfo → (sregHandler r = true → w.rep.handler = true) →
     let from_ := if r = .clock then s'.tick else s'
     let val := from_.sregValue w.tm (w.gangs.headD 0) r (w.rep.rdScalar f.a).toNat (w.rep.rdScalar (match f.b with | .op o => o | .imm32 _ => .zero)).toNat
     (sOk f.d = true → sregSingle r = false → ∃ t, PerformsIn (.sget h r f) s s' w.p t ∧ from_.OnlyGangs t w.p.team (w.p.gangs.map Prod.fst) ∧
       ∀ q ∈ w.p.gangs, (w.tm.gang q.1).PassedWith (t.gang w.p.team q.1) q.2 (fun m => m.wrS (sIdx f.d) val)) ∧
     (∀ k, f.d = .v k → laneDstOk w.tm.nregs (!sregSingle r) f.d = true →
       ∃ t, PerformsIn (.sget h r f) s s' w.p t ∧ from_.OnlyGangs t w.p.team (w.p.gangs.map Prod.fst) ∧
       ∀ q ∈ w.p.gangs, LaneDone (w.unitOf q.1 q.2) h (!sregSingle r) f.d (fun l =>
         ((match r with
           | .laneid => l
           | .sliceid => l / 4
           | .trpc => ((w.tm.gang q.1).trec.pcs.getD (l / 4) 0).toNat
           | _ => val.toNat), 0)) (t.gang w.p.team q.1))) ∧
  (∀ (h : Hdr) (f : FmtR) (k : BitVec 8),
     f.b = .op (.imm k) → k.toNat < 2 →
     WideCompletes (.sget h .setinfo f) h (f.xt.toNat % 8) scopesGST
       (fun w => sOk f.d = true ∧ sSrcOk f.a = true ∧ (w.rep.rdScalar f.a).toNat < 8)
       (fun w _ l g g' => g.PassedWith g' l (fun m => m.wrS (sIdx f.d) (w.tm.setinfo (w.rep.rdScalar f.a).toNat k.toNat (w.gangs.headD 0)))))

/-- R73, R100, R193, R232, R235, R252: `SSET` writes a writable special register with a legal value, in every gang of its
scope; TRPC from an s register or an immediate in all slices, or per slice from a v pair. -/
def Obligations.SpecialWritesComplete : Prop :=
  ∀ (h : Hdr) (r : SReg) (f : FmtR) (s : State) (i : Issuer) (s' : State) (w : Wide),
    s.Issues i → scopesGST.contains h.scp = true → s.Starts i h (f.xt.toNat % 8) s' w →
    (sregWritable r = true → (r = .trpc → w.rep.handler = true) → sSrcOk f.a = true →
      (∀ j ∈ w.gangs, (w.tm.gang j).ssetOk r (s'.gridRec w.tm).stklim (w.rep.rdScalar f.a) = true) →
      ∃ t, PerformsIn (.sset h r f) s s' w.p t ∧ s'.OnlyGangs t w.p.team (w.p.gangs.map Prod.fst) ∧
        ∀ q ∈ w.p.gangs, (w.tm.gang q.1).PassedWith (t.gang w.p.team q.1) q.2 (fun m =>
          let x := w.rep.rdScalar f.a
          match r with
          | .cc => { m with cc := x }
          | .fpmode => { m with fpmode := x }
          | .flags => { m with flags := x }
          | .stkptr => { m with stkptr := x }
          | .stklim => { m with stklim := x }
          | _ => m.setTrpc (List.replicate 8 x))) ∧
    (∀ k, f.a = .v k → r = .trpc → w.rep.handler = true → laneSrcOk w.tm.nregs true f.a = true →
      ∃ t, PerformsIn (.sset h r f) s s' w.p t ∧ s'.OnlyGangs t w.p.team (w.p.gangs.map Prod.fst) ∧
        ∀ q ∈ w.p.gangs, (w.tm.gang q.1).PassedWith (t.gang w.p.team q.1) q.2 (fun m =>
          m.setTrpc ((List.range 8).map (fun n => m.rdV2 k.toNat (4 * n)))))

-- lane movement

/-- R88, R89, R269 to R275: shuffles, broadcasts, member moves, votes, reductions and scans over the lane space. Where the
spec leaves a point open it rests on the model's choices, log entries 20 and 36. -/
def Obligations.LaneMovementCompletes : Prop :=
  ∀ (h : Hdr) (f : FmtR),
    let w64 := tyPair f.ty
    (∀ (k : ShflOp) (b : Operand), f.b = .op b →
      LateMoveCompletes (.shfl h k f) h f
        (fun w => w.vecOk w64 f.d = true ∧ w.vecOk w64 f.a = true ∧ (w.vecOk false b = true ∨ laneSrcOk w.tm.nregs false b = true)) (fun _ => 0)
        (fun w l =>
          let n := w.rdAt .n32 b l
          let src := match k with
            | .idx => n % w.size
            | .up => if n ≤ l then l - n else l
            | .down => if l + n < w.size then l + n else l
            | .xor => if l ^^^ n < w.size then l ^^^ n else l
          w.rdAt f.ty f.a src)) ∧
    (∀ k, f.d = .v k ∨ f.d = .x k → ShortMoveCompletes (.bcast h f) h f scopesGST
      (fun w => w.vecOk w64 f.d = true ∧ w.vecOk w64 f.a = true ∧ ∃ n, w.uniformB f.b = .ok n ∧ n < w.size)
      (fun w _ => w.rdAt f.ty f.a (match w.uniformB f.b with | .ok n => n | .error _ => 0))) ∧
    (∀ k, f.d = .s k → WideCompletes (.bcast h f) h (f.xt.toNat % 8) scopesGST
      (fun w => k.toNat < 128 ∧ w.vecOk w64 f.a = true ∧ ∃ n, w.uniformB f.b = .ok n ∧ n < w.size)
      (fun w _ l g g' => g.PassedWith g' l (fun m =>
        m.wrS k.toNat (BitVec.ofNat 64 (w.rdAt f.ty f.a (match w.uniformB f.b with | .ok n => n | .error _ => 0)))))) ∧
    (∀ d a, f.d = .x d → f.a = .x a → ShortMoveCompletes (.xmov h f) h f [.set]
      (fun w => w.vecOk w64 f.d = true ∧ w.vecOk w64 f.a = true ∧ ∃ n, w.uniformB f.b = .ok n)
      (fun w l => w.rdAt f.ty f.a ((l + 32 * (match w.uniformB f.b with | .ok n => n | .error _ => 0)) % w.size))) ∧
    (∀ (op : RedOp) (excl : Bool), LateMoveCompletes (.xscan h op excl f) h f
      (fun w => w.vecOk w64 f.d = true ∧ w.vecOk w64 f.a = true) (fun w => (w.scan h op excl f).2)
      (fun w l => (((w.scan h op excl f).1.find? (fun p => p.1 == l)).map (·.2)).getD 0))

/-- R88, R273: votes and reductions give every gang of the scope the same s register, or a ballot in a mask register. -/
def Obligations.LaneReductionsComplete : Prop :=
  ∀ (h : Hdr) (f : FmtR),
    let set := f.xt.toNat % 8
    (∀ (k : VoteOp), k ≠ .ballot → WideCompletes (.xvote h k f) h set scopesGST (fun w => w.vecOk (tyPair f.ty) f.a = true ∧ sOk f.d = true)
      (fun w _ l g g' => ScalarDone g g' l h.la.toNat (sIdx f.d)
        (if (match k with
          | .any => (w.active h).any (fun x => w.rdAt f.ty f.a x != 0)
          | .all => (w.active h).all (fun x => w.rdAt f.ty f.a x != 0)
          | _ => (w.active h).all (fun x => (w.active h).all (fun y => w.rdAt f.ty f.a x == w.rdAt f.ty f.a y))) then 1 else 0) none)) ∧
    WideCompletes (.xvote h .ballot f) h set [.gang] (fun w => w.vecOk (tyPair f.ty) f.a = true ∧ sOk f.d = true)
      (fun w _ l g g' => ScalarDone g g' l h.la.toNat (sIdx f.d)
        (BitVec.ofNat 64 (maskOf ((w.active h).filter (fun x => w.rdAt f.ty f.a x != 0)))) none) ∧
    (∀ m, f.d = .m m → m ≠ 0 → WideCompletes (.xvote h .ballot f) h set [.gang] (fun w => w.vecOk (tyPair f.ty) f.a = true)
      (fun w _ l g g' => g' = g.passLate l h.la.toNat ((List.range 32).map (fun x =>
        (.m m.toNat x, if bitAt (maskOf ((w.active h).filter (fun x => w.rdAt f.ty f.a x != 0))) x then 1 else 0))))) ∧
    (∀ op : RedOp, WideCompletes (.xred h op f) h set scopesGST
      (fun w => sOk f.d = true ∧ w.vecOk (tyPair f.ty) f.a = true ∧ enabledExc w.rep.fpmode (w.reduce h op f).2 = false)
      (fun w _ l g g' => ScalarDone (g.orFlags (w.reduce h op f).2) g' l h.la.toNat (sIdx f.d) (BitVec.ofNat 64 (w.reduce h op f).1) none))

/-- R145, R274: conflict masks, compression and expansion. -/
def Obligations.LanePackingCompletes : Prop :=
  ∀ (h : Hdr) (f : FmtR),
    let w64 := tyPair f.ty
    GangCompletes (.confl h f) h (fun _ i => mDstOk f.d = true ∧ isV f.a = true ∧ laneSrcOk i.tm.nregs w64 f.a = true)
      (GangBecomes (fun _ i g => g.wrM (mIdx f.d) (BitVec.ofNat 32 (maskOf ((i.active h).filter (fun l =>
        (i.active h).any (fun k => decide (k < l) && i.g.rdLane f.ty f.a k == i.g.rdLane f.ty f.a l))))))) ∧
    GangCompletes (.cmprs h f) h
      (fun _ i => isV f.d = true ∧ isV f.a = true ∧ laneSrcOk i.tm.nregs w64 f.a = true ∧ laneSrcOk i.tm.nregs w64 f.d = true)
      (GangBecomes (fun _ i g =>
        let g := ((List.range (i.active h).length).zip ((i.active h).map (i.g.rdLive f.ty f.a))).foldl (fun g p => g.wrLane w64 f.d p.1 p.2) g
        g.shiftBypass i.lanes (fun l => BitVec.ofNat 64 (g.rdReg w64 f.d l)))) ∧
    GangCompletes (.expnd h f) h
      (fun _ i => isV f.d = true ∧ isV f.a = true ∧ laneSrcOk i.tm.nregs w64 f.a = true ∧ laneSrcOk i.tm.nregs w64 f.d = true)
      (GangBecomes (fun _ i g =>
        let g := ((i.active h).zip ((List.range (i.active h).length).map (i.g.rdLive f.ty f.a))).foldl (fun g p => g.wrLane w64 f.d p.1 p.2) g
        g.shiftBypass i.lanes (fun l => BitVec.ofNat 64 (g.rdReg w64 f.d l))))

/-- R33, R276: `SETDECL` declares or, with a mask of 0, undeclares a set of its team, and every gang goes on. Where the spec
leaves a point open it rests on the model's choices, log entry 20. -/
def Obligations.SetDeclarationCompletes : Prop :=
  ∀ (h : Hdr) (f : FmtT) (s : State) (i : Issuer) (s' : State) (w : Wide),
    s.Issues i → h.scp = .team → s.Starts i h 0 s' w → sSrcOk f.a = true → natSrcOk f.b = true →
    let mask := (w.rep.rdScalar f.a).toNat % 2 ^ 32
    let base := (w.rep.rdScalar f.b).toNat
    mask < 2 ^ w.tm.gangs.length → base < w.tm.nregs →
    ∃ t, PerformsIn (.setdecl h f) s s' w.p t ∧
      (s'.modTeam w.p.team (fun t => { t with sets := t.sets.set (f.imm.toNat % 8) (if mask = 0 then {} else { mask := mask, base := base }) })).OnlyGangs
        t w.p.team (w.p.gangs.map Prod.fst) ∧
      ∀ q ∈ w.p.gangs, (w.tm.gang q.1).WentOn (t.gang w.p.team q.1) q.2 (fun k => nextSlot ((w.tm.gang q.1).slice k).pc)

-- control

/-- R211, R241: `NOP` and the per-unit branches. A branch goes to its displacement's address when it is taken and its target
passes the checks; with slices that go different ways a ganged gang parts (R22). -/
def Obligations.BranchesComplete : Prop :=
  ∀ (s : State) (i : Issuer), s.Issues i →
    (∃ g', Performs .nop s i.performer (s.withGang i g') ∧ i.g.WentOn g' i.slices (fun k => nextSlot (i.g.slice k).pc)) ∧
    ∀ (h : Hdr) (disp : W32), h.scp = .lane →
      let lin : Int := (linOf i.pc : Int) + disp.toInt
      let a := addrOfLin lin.toNat
      let ok := 0 ≤ lin ∧ lin < (5 * 2 ^ 50 : Nat) ∧ s.checkTarget i.tm.core i.tm.ctx a = .ok ()
      (ok → ∃ g', Performs (.bra h disp) s i.performer (s.withGang i g') ∧ i.g.WentOn g' i.slices (fun _ => a)) ∧
      (∀ cond, condHolds cond i.g.cc i.tm.prq = true → ok →
        ∃ g', Performs (.bcc h cond disp) s i.performer (s.withGang i g') ∧ i.g.WentOn g' i.slices (fun _ => a)) ∧
      (∀ cond, condHolds cond i.g.cc i.tm.prq = false →
        ∃ g', Performs (.bcc h cond disp) s i.performer (s.withGang i g') ∧ i.g.WentOn g' i.slices (fun k => nextSlot (i.g.slice k).pc)) ∧
      (∀ onZero : Bool,
        let takes := fun k => (i.g.activeIn h (lanesOf [k])).isEmpty == onZero
        ((∃ k ∈ i.slices, takes k = true) → ok) →
        ∃ g', Performs (if onZero then .bmz h disp else .bmnz h disp) s i.performer (s.withGang i g') ∧
          ({ i.g with ganged := i.g.ganged && (i.slices.all takes || !i.slices.any takes) } : Gang).SameButIssue g' ∧
          i.g.Went g' i.slices (fun k => if takes k then a else nextSlot (i.g.slice k).pc) ∧ i.g.Counted g' i.slices)

/-- R241, R242: the uniform transfers; a call leaves the following address in s1. -/
def Obligations.TransfersComplete : Prop :=
  ∀ (h : Hdr) (a : Operand) (disp : W32),
    let goes := fun (ins : Instr) (link : Bool) (dest : Issuer → W64) (ok : Issuer → Prop) =>
      UniformCompletes ins h (fun s i => ok i ∧ s.checkTarget i.tm.core i.tm.ctx (dest i) = .ok ()) (fun s i t => ∃ g', t = s.withGang i g' ∧
        (if link then i.g.wrS 1 (nextSlot i.pc) else i.g).WentOn g' i.slices (fun _ => dest i))
    goes (.bind h a) false (fun i => i.g.rdS (sIdx a)) (fun _ => sOk a = true) ∧
    goes (.calli h a) true (fun i => i.g.rdS (sIdx a)) (fun _ => sOk a = true) ∧
    goes (.ret h) false (fun i => i.g.rdS 1) (fun _ => True) ∧
    goes (.call h disp) true (fun i => addrOfLin ((linOf i.pc : Int) + disp.toInt).toNat)
      (fun i => 0 ≤ (linOf i.pc : Int) + disp.toInt ∧ (linOf i.pc : Int) + disp.toInt < (5 * 2 ^ 50 : Nat))

/-- R23, R243: `REGANG` joins the live slices of a parted gang when the last of them arrives, and passes at once in a ganged
one. -/
def Obligations.RegangCompletes : Prop :=
  ∀ (h : Hdr) (s : State) (i : Issuer), s.Issues i → h.scp = .lane →
    (i.g.ganged = true → ∃ g', Performs (.regang h) s i.performer (s.withGang i g') ∧ i.g.WentOn g' i.slices (fun k => nextSlot (i.g.slice k).pc)) ∧
    (∀ s' t, i.g.ganged = false → s.Meets i .regang s' t →
      ∃ u, PerformsIn (.regang h) s s' (t.performers i .regang) u ∧ s'.OnlyGangs u i.unit.team [i.unit.gang] ∧
        (u.gang i.unit.team i.unit.gang).ganged = true ∧
        (t.gang i.unit.gang).Went (u.gang i.unit.team i.unit.gang) (t.gang i.unit.gang).liveSlices (fun k => nextSlot ((t.gang i.unit.gang).slice k).pc) ∧
        ({ t.gang i.unit.gang with ganged := true } : Gang).SameButIssue (u.gang i.unit.team i.unit.gang))

/-- R25, R198, R243: `EXIT` ends the issuing slices for good, and a gang with none left retires; `YIELD` is an ordering
event, or with PRQ set stops the slices for the save. Where the spec leaves a point open it rests on the model's choices,
log entry 20. -/
def Obligations.ExitAndYieldComplete : Prop :=
  ∀ (h : Hdr) (s : State) (i : Issuer), s.Issues i → h.scp = .lane →
    (i.g.handler = false → ∃ g', (if g'.isLive then Performs (.exit h) s i.performer (s.withGang i g')
        else Performs (.exit h) s i.performer ((s.withGang i g').gangRetired i.tm.ctx i.unit.team i.unit.gang)) ∧
      (∀ k ∈ i.slices, g'.slice k = { i.g.slice k with live := false, wait := .ready }) ∧ (∀ k, k ∉ i.slices → g'.slice k = i.g.slice k) ∧
      i.g.Counted g' i.slices ∧ i.g.SameButIssue g') ∧
    (i.tm.prq = false ∨ i.g.handler = true → ∃ g', Performs (.yield h) s i.performer ((s.withGang i g').dropL1 i.tm.core) ∧
      i.g.WentOn g' i.slices (fun k => nextSlot (i.g.slice k).pc)) ∧
    (i.tm.prq = true → i.g.handler = false → ∃ g', Performs (.yield h) s i.performer (s.withGang i g') ∧
      (∀ k ∈ i.slices, g'.slice k = { i.g.slice k with pc := nextSlot (i.g.slice k).pc, wait := .yielded }) ∧
      (∀ k, k ∉ i.slices → g'.slice k = i.g.slice k) ∧ i.g.Counted g' i.slices ∧ i.g.SameButIssue g')

/-- R100, R101, R244: stack frames. `ENTER` moves STKPTR up by the frame and stores the old value in the frame's last eight
bytes in every live lane; `LEAVE` reads it back from the lowest live lane. -/
def Obligations.FramesComplete : Prop :=
  ∀ (h : Hdr) (size : W32),
    UniformCompletes (.enter h size) h
      (fun _ i => 64 ≤ size.toNat ∧ size.toNat ≤ 2 ^ 24 ∧ size.toNat % 64 = 0 ∧ i.g.stkptr.toNat + size.toNat ≤ i.g.stklim.toNat)
      (GangBecomes (fun _ i g =>
        let g := (lanesOf g.liveSlices).foldl (fun g l => g.setStack l (i.g.stkptr.toNat + size.toNat - 8) (leBytes 8 i.g.stkptr.toNat)) g
        { g with stkptr := BitVec.ofNat 64 (i.g.stkptr.toNat + size.toNat) })) ∧
    UniformCompletes (.leave h) h
      (fun _ i =>
        let link := leNat ((List.range 8).map (fun k => i.g.stackByte (4 * i.g.liveSlices.headD 0) (i.g.stkptr.toNat - 8 + k)))
        i.g.stkptr.toNat ≠ 0 ∧ link % 64 = 0 ∧ link + 64 ≤ i.g.stkptr.toNat)
      (GangBecomes (fun _ i g => { g with
        stkptr := BitVec.ofNat 64 (leNat ((List.range 8).map (fun k => i.g.stackByte (4 * i.g.liveSlices.headD 0) (i.g.stkptr.toNat - 8 + k)))) }))

-- exceptions

/-- R193, R195, R197, R245, R254, R256: `BKPT` takes a breakpoint trap for its unit when a lane is active and else passes, `TRAP`
takes a software trap with its code in TRINFO, each counted as issued and to resume at the following instruction; the entry
names the lowest slice with an active lane. `RTE` in handler state returns. -/
def Obligations.TrapInstructionsComplete : Prop :=
  ∀ (h : Hdr) (s : State) (i : Issuer), s.Issues i → h.scp = .lane →
    let raiser := ((i.slices.find? (fun k => (i.active h).any (fun l => l / 4 == k))).getD (i.slices.headD 0))
    let takes := fun (ins : Instr) (cause : Nat) (info : W64) => ∃ (g' : Gang) (e : TrapEntry),
      Performs ins s i.performer ((s.withGang i g').takeTrap i.unit.team i.unit.gang i.slices e) ∧
      i.g.Counted g' i.slices ∧ i.g.SameButIssue g' ∧ g'.slices = i.g.slices ∧ e.cause = cause ∧ e.slice = raiser ∧ e.info = info ∧ e.addr = 0 ∧
      e.pc = (i.g.slice raiser).pc ∧ e.parted = !i.g.ganged ∧ ∀ k < 8, e.resume[k]? = some (if k ∈ i.slices then some (nextSlot (i.g.slice k).pc) else none)
    (i.active h ≠ [] → takes (.bkpt h) 0x30 0) ∧
    (i.active h = [] → ∃ g', Performs (.bkpt h) s i.performer (s.withGang i g') ∧ i.g.WentOn g' i.slices (fun k => nextSlot (i.g.slice k).pc)) ∧
    (∀ code : W32, takes (.trap h code) 0x31 (code.setWidth 64)) ∧
    (i.g.handler = true → Performs (.rte h) s i.performer (s.returnFromTrap i.unit.team i.unit.gang))

/-- R192, R194, R195: a trap with a handler, raised outside handler state and with room in the queue, halts its team and enters
its gang's pending-trap queue, behind all entries but those of higher slices of the same parted gang; the slices that raised
it issue nothing more, and no register and no memory changes. Where the spec leaves a point open it rests on the model's
choices, log entries 13 and 48. -/
def Obligations.TrapsHaltAndQueue : Prop :=
  ∀ (s : State) (team gang : Nat) (slices : List Nat) (e : TrapEntry) (t : Team),
    s.team? team = some t → gang < t.gangs.length → (t.gang gang).isLive = true → slices ≠ [] → (∀ k ∈ slices, k < 8 ∧ ((t.gang gang).slice k).live = true) →
    (t.gang gang).handler = false → (t.gang gang).queue.length < 8 → t.trapvec ≠ 0 → e.cause ≠ cPoison → e.cause ≠ cPage →
    let u := s.takeTrap team gang slices e
    s.OnlyTeam u team ∧ ∃ t', u.team? team = some t' ∧ t' = { t with halted := true, gangs := t'.gangs } ∧ t'.gangs.length = t.gangs.length ∧
      (∃ a b, (t.gang gang).queue = a ++ b ∧ (t'.gang gang).queue = a ++ [e] ++ b ∧
        (∀ x ∈ a, x.parted = false ∨ e.parted = false ∨ x.slice ≤ e.slice) ∧ ∀ x, b.head? = some x → x.parted = true ∧ e.parted = true ∧ e.slice < x.slice) ∧
      (∀ j, (t.gang j).SameRegs (t'.gang j) ∧ (j ≠ gang → (t'.gang j).queue = (t.gang j).queue) ∧
        (t'.gang j).handler = (t.gang j).handler ∧ (t'.gang j).ganged = (t.gang j).ganged ∧
        ∀ k, ((t'.gang j).slice k).pc = ((t.gang j).slice k).pc ∧ ((t'.gang j).slice k).live = ((t.gang j).slice k).live) ∧
      ∀ k ∈ slices, ((t'.gang gang).slice k).Halted

/-- R75, R192, R196: poison aborts the launch, and a trap raised in handler state, or with eight entries waiting, is a context
error; the queue that overflows says so in its first entry. -/
def Obligations.TrapsThatEndTheLaunch : Prop :=
  ∀ (s : State) (team gang : Nat) (slices : List Nat) (e : TrapEntry) (t : Team), s.team? team = some t →
    (e.cause = cPoison → s.takeTrap team gang slices e = s.abortLaunch t.launch stPoison) ∧
    (e.cause ≠ cPoison → (t.gang gang).handler = true → s.takeTrap team gang slices e = s.abortLaunch t.launch stContext) ∧
    (e.cause ≠ cPoison → (t.gang gang).handler = false → 8 ≤ (t.gang gang).queue.length →
      s.takeTrap team gang slices e = (s.modGang team gang (fun g =>
        { g with queue := g.queue.modifyHead (fun e => { e with qovf := true }), trec := { g.trec with cause := setBit g.trec.cause 9 true } })).abortLaunch t.launch stContext)

/-- R193, R195: once its team has stopped, a gang with a waiting entry enters handler state: ganged, at TRAPVEC, with the
entry and the slices' addresses in the trap record, every pending result written, and what it waited for in queues, lists and
groups withdrawn. Where the spec leaves a point open it rests on the model's choices, log entries 11 and 48. -/
def Obligations.HandlerEntryCompletes : Prop :=
  ∀ (s : State) (team gang : Nat) (t : Team) (e : TrapEntry) (r : List TrapEntry),
    s.team? team = some t → gang < t.gangs.length → t.status = .running → t.halted = true → t.stopped = true →
    (t.gang gang).handler = false → (t.gang gang).queue = e :: r → (∀ L, s.launch? t.launch = some L → L.held = false) → s.entryOk t.ctx t.trapvec = true →
    ∃ u, exec (.handlerEntry team gang) s = .next u ∧ (s.cancelWaits t.ctx team gang).OnlyGangs u team [gang] ∧
      (∀ t', u.team? team = some t' → ∀ p ∈ t'.queues, ∀ w ∈ p.2.waiters, w.1 ≠ gang) ∧
      (∀ p ∈ (u.ctx t.ctx).groups, ∀ m ∈ p.2.members, m.team = team → m.gang = gang → m.leaving = false → m.arrived = none) ∧
      (∀ p ∈ (u.ctx t.ctx).wlists, p.2.home = some (team, gang) → p.2.waiting = none) ∧
      let g := t.gang gang
      let g' := u.gang team gang
      g.land.SameRegs g' ∧ g'.handler = true ∧ g'.ganged = true ∧ g'.savedGanged = g.ganged ∧ g'.queue = g.queue ∧
      (∀ k ∈ g.liveSlices, (g'.slice k).pc = t.trapvec ∧ (g'.slice k).wait = .ready) ∧
      g'.trec.addr = e.addr ∧ g'.trec.info = e.info ∧ g'.trec.applied = e.applied ∧ g'.trec.cause.toNat % 2 ^ 8 = e.cause % 2 ^ 8 ∧
      g'.savedApplied = g.applied ∧ g'.savedPlain = g.plainDone ∧ g'.applied = 0 ∧ g'.plainDone = false ∧
      ∀ k < g.slices.length, g'.trec.pcs[k]? = some (g.slice k).pc ∧ g'.savedWaits[k]? = some (g.slice k).wait

/-- R195: returning from the last entry leaves handler state; each live slice resumes at its saved address, or past the
instruction where the trap says so, in the gang's old parted or ganged state; one whose appended items were still in flight
waits for them again, or has passed its `WAPP` where they have landed. With another entry waiting the gang handles that one at
TRAPVEC. Where the spec leaves a point open it rests on the model's choices, log entries 15 and 48. -/
def Obligations.HandlerReturnCompletes : Prop :=
  ∀ (s : State) (team gang : Nat) (t : Team) (e : TrapEntry) (r : List TrapEntry),
    s.team? team = some t → gang < t.gangs.length → (t.gang gang).queue = e :: r →
    let g := t.gang gang
    let u := s.returnFromTrap team gang
    let g' := u.gang team gang
    let at_ := fun k => ((e.resume.getD k none)).getD (g.trec.pcs.getD k 0)
    let resumes := fun (k : Nat) (pc : W64) (w : Wait) => (g'.slice k).pc = pc ∧ (g'.slice k).wait = w
    s.OnlyTeam u team ∧ (∀ k < 8, (g'.slice k).live = (g.slice k).live) ∧
    (r = [] → g.SameRegs g' ∧ g'.handler = false ∧ g'.queue = [] ∧ g'.ganged = g.savedGanged ∧ g'.trec = {} ∧
      ((∀ k n, g.savedWaits.getD k .ready = .append n → (Tab.find? (s.ctx t.ctx).inflight n).isSome = true) →
        g'.applied = g.savedApplied ∧ g'.plainDone = g.savedPlain) ∧
      ∀ k < 8, (g.slice k).live = true → match g.savedWaits.getD k .ready with
        | .append n => if (Tab.find? (s.ctx t.ctx).inflight n).isSome then resumes k (at_ k) (.append n) else resumes k (nextSlot (at_ k)) .ready
        | .copyYield n => resumes k (at_ k) (.copyYield n)
        | _ => resumes k (at_ k) .ready) ∧
    (∀ e' r', r = e' :: r' → g.land.SameRegs g' ∧ g'.handler = g.handler ∧ g'.ganged = true ∧ g'.queue = r ∧ g'.trec.addr = e'.addr ∧ g'.trec.info = e'.info ∧
      (∀ k ∈ g.liveSlices, (g'.slice k).pc = t.trapvec) ∧ ∀ k < 8, g'.trec.pcs[k]? = some (at_ k))

-- memory

/-- R90 to R102, R176, R277 to R281: loads. A lane load gives each active lane's destination the value at its address, `LDU`
the gang's s register; destinations are written at once, or with a lookahead when the window ends. Where the spec leaves a
point open it rests on the model's choices, log entries 9, 11 and 27. -/
def Obligations.LoadsComplete : Prop :=
  ∀ (h : Hdr) (f : FmtM),
    let lane := fun (ins : Instr) (space : Space) => UnitCompletes ins h
      (fun s i => baseOk i.tm.nregs space false f.a = true ∧ indexOk i.tm.nregs false f.b = true ∧ dataOk i.tm.nregs (sizeBytes f.sz) fileVN f.d = true ∧
        s.LoadOk i f space (i.active h))
      (fun s i t => ∃ vals s1, s.Loaded i f space (i.active h) vals s1 ∧ t = s1.passLate i h.la.toNat (vals.flatMap (fun p => loadLane f.sz f.d p.1 p.2)))
    lane (.ld h f) .global ∧ lane (.lds h f) .spad ∧ lane (.ldl h f) .stack ∧
    GangCompletes (.ldu h f) h
      (fun s i => baseOk i.tm.nregs f.space true f.a = true ∧ indexOk i.tm.nregs true f.b = true ∧ dataOk i.tm.nregs (sizeBytes f.sz) fileS f.d = true ∧
        s.LoadOk i f f.space [0])
      (fun s i t => ∃ vals s1, s.Loaded i f f.space [0] vals s1 ∧ t = s1.passLate i h.la.toNat (vals.flatMap (fun p => loadScalar f.sz f.d p.2)))

/-- R90 to R102, R111, R122, R173, R189, R277 to R281: stores. The bytes of the active lanes, or of the gang, are stored and
nothing else of memory changes; the unit goes on. Where the spec leaves a point open it rests on the model's choices, log
entries 8, 10 and 27. -/
def Obligations.StoresComplete : Prop :=
  ∀ (h : Hdr) (f : FmtM),
    let lane := fun (ins : Instr) (space : Space) => UnitCompletes ins h
      (fun s i => baseOk i.tm.nregs space false f.a = true ∧ indexOk i.tm.nregs false f.b = true ∧ dataOk i.tm.nregs (sizeBytes f.sz) fileVNBSI f.d = true ∧
        s.StoreOk i f space (i.active h))
      (fun s i t => ∃ s1, s.Stored i f space (i.active h) s1 ∧ t = s1.passUnit i)
    lane (.st h f) .global ∧ lane (.sts h f) .spad ∧ lane (.stl h f) .stack ∧
    GangCompletes (.stu h f) h
      (fun s i => baseOk i.tm.nregs f.space true f.a = true ∧ indexOk i.tm.nregs true f.b = true ∧ dataOk i.tm.nregs (sizeBytes f.sz) fileSI f.d = true ∧
        s.StoreOk i f f.space [0])
      (fun s i t => ∃ s1, s.Stored i f f.space [0] s1 ∧ t = s1.passUnit i)

/-- R118, R123, R283 to R285: a prefetch, a fence and L1 maintenance change no register and no memory, and the unit goes on; an
acquire beyond the team and `CMAINT` on all lines leave the core's L1 empty. -/
def Obligations.FencesComplete : Prop :=
  ∀ (h : Hdr) (f : FmtM) (room all : Bool),
    let kept := fun (s : State) (i : Issuer) (t : State) => ∃ (s1 : State) (g' : Gang), t = s1.withGang i g' ∧ i.g.WentOn g' i.slices (fun k => nextSlot (i.g.slice k).pc) ∧
      s1 = { s with cores := s1.cores, free := s1.free }
    let operands := fun (i : Issuer) => baseOk i.tm.nregs .global false f.a = true ∧ indexOk i.tm.nregs false f.b = true
    UnitCompletes (.pld h room f) h (fun _ i => operands i) kept ∧
    UnitCompletes (.cmaint h all f) h (fun _ i => all = true ∨ operands i)
      (fun s i t => kept s i t ∧ (all = true → i.active h ≠ [] → (t.core i.tm.core).l1 = [])) ∧
    UnitCompletes (.fence h f) h (fun _ _ => True)
      (fun s i t => kept s i t ∧ (f.ord ≠ .rel → f.vis ≠ .team → (t.core i.tm.core).l1 = [])) ∧
    GangCompletes (.fence h f) h (fun _ _ => True)
      (fun s i t => kept s i t ∧ (f.ord ≠ .rel → f.vis ≠ .team → (t.core i.tm.core).l1 = []))

/-- R102, R119, R144, R286, R287: atomics of global memory, per lane and for the gang: page after page; when no page stops
the instruction every destination receives its old value, and committed memory keeps every byte outside the units that its
lanes name, but for page-table entries of remote pages. Where the spec leaves a point open it rests on the model's choices,
log entries 8, 16 and 43. -/
def Obligations.GlobalAtomicsComplete : Prop :=
  (∀ (h : Hdr) (op : AtomOp) (ty : AtomTy) (f : FmtM),
     let n := atomBytes ty
     let ok := fun (o : Option AtomOp) (mred : Bool) (s : State) (i : Issuer) =>
       let accs := i.g.accesses f .global false (i.atomLanes h) n
       atomOperands i.tm f .global (h.scp == .gang) mred n = true ∧ (∀ x ∈ accs, x.va + n ≤ 2 ^ 56 ∧ x.va % n = 0) ∧
       (s.atomPages i mred (i.atomJob o ty f (i.atomLanes h)) f.d 32 accs [] false).2.2.2 = none
     let eff := fun (o : Option AtomOp) (mred : Bool) (s : State) (i : Issuer) (t : State) =>
       let accs := i.g.accesses f .global false (i.atomLanes h) n
       ∀ s1 olds wrote, s.atomPages i mred (i.atomJob o ty f (i.atomLanes h)) f.d 32 accs [] false = (s1, olds, wrote, none) →
         t = (if (f.ord = .acq ∨ f.ord = .acqRel) ∧ f.vis ≠ .team then s1.dropL1 i.tm.core else s1).passLate i h.la.toNat
           (atomDests h o ty mred f (i.atomLanes h) olds wrote)
     let both := fun (ins : Instr) (o : Option AtomOp) (mred : Bool) => UnitCompletes ins h (ok o mred) (eff o mred) ∧ GangCompletes ins h (ok o mred) (eff o mred)
     both (.atom h op ty f) (some op) false ∧ both (.acas h ty f) none false ∧ both (.mred h op ty f) (some op) true) ∧
  (∀ (s : State) (i : Issuer) (mred : Bool) (j : AtomJob) (p : PageTr) (accs : List LaneAcc) (olds : List (Nat × Nat)) (wrote : Bool) (t : State),
     (s.team? i.unit.team).isSome = true → s.atomPage i mred j p accs = .ok (olds, wrote, t) →
     ∀ loc, OffEntries (s.entriesOf i.tm.core [p]) loc → (∀ x ∈ accs, ∀ k < atomBytes j.ty, (pageOf [p] (x.va + k)).loc (x.va + k) ≠ loc) →
       t.commByte loc = s.commByte loc)

/-- R142, R288: atomics of the scratchpad. Each unit that lanes name receives what its lanes combine to, every other byte of
the scratchpad is unchanged, and the destinations receive the old values. Where the spec leaves a point open it rests on the
model's choices, log entries 43 and 44. -/
def Obligations.ScratchpadAtomicsComplete : Prop :=
  ∀ (h : Hdr) (op : AtomOp) (ty : AtomTy) (f : FmtM),
    let n := atomBytes ty
    let ok := fun (_ : State) (i : Issuer) =>
      atomOperands i.tm f .spad (h.scp == .gang) false n = true ∧
      ∀ x ∈ i.g.accesses f .spad false (i.atomLanes h) n, x.va + n ≤ i.tm.spadSize ∧ x.va % n = 0 ∧ i.tm.guarded x.va n = false ∧ i.tm.pendingAt x.va n = false
    let eff := fun (o : Option AtomOp) (s : State) (i : Issuer) (t : State) =>
      let accs := i.g.accesses f .spad false (i.atomLanes h) n
      let j := i.atomJob o ty f (i.atomLanes h)
      let at_ := fun (va : Nat) => j.unit (i.tm.spadNat va n) ((accs.filter (fun x => x.va == va)).map (·.lane))
      ∃ (s1 : State) (u : Team) (olds : List (Nat × Nat)) (wrote : Bool), s.OnlyOrder s1 ∧ i.tm.SameMops u ∧
        t = ((s1.modTeam i.unit.team (fun t => { t with spad := u.spad, mops := u.mops })).countRounds i.tm.core accs).passLate i h.la.toNat
          (atomDests h o ty false f (i.atomLanes h) olds wrote) ∧
        (∀ q, q ∈ olds ↔ ∃ x ∈ accs, q ∈ (at_ x.va).1) ∧ (wrote = true ↔ ∃ x ∈ accs, (at_ x.va).2.isSome = true) ∧
        (∀ a, (∀ x ∈ accs, a < x.va ∨ x.va + n ≤ a) → u.spadByte a = i.tm.spadByte a) ∧
        ∀ x ∈ accs, u.spadNat x.va n = ((at_ x.va).2.getD (i.tm.spadNat x.va n)) % 2 ^ (8 * n)
    let both := fun (ins : Instr) (o : Option AtomOp) => UnitCompletes ins h ok (eff o) ∧ GangCompletes ins h ok (eff o)
    both (.atoms h op ty f) (some op) ∧ both (.acass h ty f) none

/-- R143, R231, R286, R287: what the lanes of one unit do to it, in their order: sums are added, an exchange leaves the last
lane's operand, minima and maxima the least and greatest value, and a compare-and-swap writes where it finds what it
expects; each lane receives what it found. Where the spec leaves a point open it rests on the model's choices, log entry 43. -/
def Obligations.UnitsCombineInLaneOrder : Prop :=
  ∀ (j : AtomJob) (m : Nat) (l : Nat) (lanes : List Nat),
    let x := fun k => laneVal j.x k
    (j.unit m (l :: lanes)).1.head? = some (l, if j.op = none ∨ (j.op = some .add ∧ j.ty.isFloat = true) then m else m % 2 ^ 64) ∧
    (j.unit m (l :: lanes)).1.map Prod.fst = l :: lanes ∧
    (j.op = some .add → j.ty = .n32 → m < 2 ^ 32 → (∀ k, x k < 2 ^ 32) → (j.unit m (l :: lanes)).2 = some ((m + ((l :: lanes).map x).sum) % 2 ^ 32)) ∧
    (j.op = some .exch → j.ty = .n32 → m < 2 ^ 32 → (∀ k, x k < 2 ^ 32) → (j.unit m (l :: lanes)).2 = some (x ((l :: lanes).getLast (List.cons_ne_nil _ _)))) ∧
    (j.op = some .max → j.ty = .n32 → m < 2 ^ 32 → (∀ k, x k < 2 ^ 32) → (j.unit m (l :: lanes)).2 = some (((l :: lanes).map x).foldl max m)) ∧
    (j.op = some .min → j.ty = .n32 → m < 2 ^ 32 → (∀ k, x k < 2 ^ 32) → (j.unit m (l :: lanes)).2 = some (((l :: lanes).map x).foldl min m)) ∧
    (j.op = none → (j.unit m [l]).2 = if m = laneVal j.want l then some (x l) else none)

-- named groups, barriers and sleeping

/-- R129 to R138, R326 to R328, R330, R331: named groups. `GNEW` gives every gang of its scope the handle of a new group, or 0 and
Z where no slot is free; `GJOIN` makes the gang a member from the phase it may arrive in; `GLEAVE` leaves; `GRESET` releases who
waits with BRK and moves the generation on; `GINFO` reads one word. -/
def Obligations.GroupsComplete : Prop :=
  ∀ (h : Hdr) (f : FmtT),
    let ok := fun (op : Operand) (s : State) (i : Issuer) (k : Nat) => gOk op = true ∧ s.checkHandle i.tm.ctx (i.g.rdG (gIdx op)) = .ok k
    (∀ s i s' w, s.Issues i → scopesGST.contains h.scp = true → s.Starts i h f.imm.toNat s' w → gOk f.d = true →
      (∀ k, s'.groupCount < 65536 → (s'.ctx w.tm.ctx).freeGroup = some k →
        let gen := (s'.group w.tm.ctx k).gen + 1
        let u := s'.modGroup w.tm.ctx k (fun _ => { gen := gen, used := true, creator := w.p.team })
        ∃ t, PerformsIn (.gnew h f) s s' w.p t ∧ u.WidePassed t w (fun g => ((g.wrG (gIdx f.d) (handleOf k gen)).setCc ccZ false).setCc ccBrk false)) ∧
      (65536 ≤ s'.groupCount ∨ (s'.ctx w.tm.ctx).freeGroup = none →
        ∃ t, PerformsIn (.gnew h f) s s' w.p t ∧ s'.WidePassed t w (fun g => ((g.wrG (gIdx f.d) 0).setCc ccZ true).setCc ccBrk false))) ∧
    (∀ k, GangCompletes (.gjoin h f) h
      (fun s i => ok f.a s i k ∧ sOk f.d = true ∧ (f.imm = 1 → natSrcOk f.b = true ∧ (i.g.rdScalar f.b).toNat ≤ 4095) ∧
        (s.group i.tm.ctx k).member? i.unit.team i.unit.gang = none ∧
        (s.isolated i.tm.launch = true → ∀ m ∈ (s.group i.tm.ctx k).members, m.team = i.unit.team))
      (fun s i t =>
        let grp := s.group i.tm.ctx k
        let done := fun (u : State) (x : W64) (z brk : Bool) => t = u.passWith i (fun g => ((g.wrS (sIdx f.d) x).setCc ccZ z).setCc ccBrk brk)
        let full := 4096 ≤ grp.members.length ∨ (f.imm = 1 ∧ ∃ m ∈ grp.members, m.slot = (i.g.rdScalar f.b).toNat)
        (grp.broken = true → done s 0 false true) ∧ (grp.broken = false → full → done s 0 true false) ∧
        (grp.broken = false → ¬ full →
          let first := if grp.phase = 0 then 0 else grp.phase + 1
          let m : Member := { launch := i.tm.launch, team := i.unit.team, gang := i.unit.gang, slot := if f.imm = 1 then (i.g.rdScalar f.b).toNat else grp.freeSlot, from_ := first }
          done (s.modGroup i.tm.ctx k (fun g => { g with joined := true, members := insertMember g.members m })) (BitVec.ofNat 64 first) false false))) ∧
    (∀ k, GangCompletes (.gleave h f) h (fun s i => ok f.a s i k ∧ (s.group i.tm.ctx k).active i = true)
      (fun s i t => t = (s.passWith i (fun g => g.setCc ccBrk (s.group i.tm.ctx k).broken)).leaveGroup i.tm.ctx k i.unit.team i.unit.gang)) ∧
    (∀ k, GangCompletes (.greset h f) h (fun s i => ok f.d s i k)
      (fun s i t =>
        let gen := (s.group i.tm.ctx k).gen + 1
        t = ((s.releaseBroken (s.group i.tm.ctx k).members).modGroup i.tm.ctx k (fun g => { g with gen := gen, broken := false, phase := 0, members := [] })).passWith i
          (fun g => (g.wrG (gIdx f.d) (handleOf k gen)).setCc ccBrk false))) ∧
    (∀ k (b : BitVec 8), f.b = .imm b → GangCompletes (.ginfo h f) h (fun s i => ok f.a s i k ∧ sOk f.d = true ∧ b.toNat ≤ 2)
      (fun s i t => GangBecomes (fun s i g => (g.wrS (sIdx f.d) (BitVec.ofNat 64 ((s.group i.tm.ctx k).info i.unit.team i.unit.gang b.toNat))).setCc ccBrk (s.group i.tm.ctx k).broken) s i t))

/-- R18, R134, R136, R329: arriving at a group. On a broken group the gang goes on at once with BRK. Else it waits; when
with it every gang counted in the phase has arrived, all by one instruction, the phase completes: every one of them receives
the phase's number, vote or fold and goes on, and leaving members are gone. Where the spec leaves a point open it rests on
the model's choices, log entry 20. -/
def Obligations.ArrivalsComplete : Prop :=
  ∀ (h : Hdr) (f : FmtT) (all : Bool) (op : RedOp) (k : Nat),
    let arrives := fun (ins : Instr) (legal : Bool) (val : Issuer → W64) (dest : Option Nat) =>
      GangCompletes ins h
        (fun s i => legal = true ∧ gOk f.a = true ∧ s.checkHandle i.tm.ctx (i.g.rdG (gIdx f.a)) = .ok k ∧ (s.group i.tm.ctx k).active i = true)
        (fun s i t =>
          let a : Arrival := { instr := ins, val := val i, dest := dest }
          let s1 := (s.modGroup i.tm.ctx k (fun g => g.modMember i.unit.team i.unit.gang (fun m => { m with arrived := some a }))).waitAll i.performer (.group k)
          let grp := s1.group i.tm.ctx k
          let here := grp.counted.filter (fun m => !m.leaving)
          let stay := (grp.members.filter (fun m => !m.leaving)).map (fun m => if m.from_ ≤ grp.phase then { m with arrived := none } else m)
          let s2 := s1.modGroup i.tm.ctx k (fun g => { g with phase := g.phase + 1, members := stay, used := !stay.isEmpty })
          let arr : List (Member × Arrival) := here.filterMap (fun m => m.arrived.map (fun a => (m, a)))
          let s3 := arr.foldl (fun s p => s.deliver p.1 p.2 (phaseResult grp p.2.instr)) s2
          ((s.group i.tm.ctx k).broken = true → t = s.passWith i (brokenResult a)) ∧
          ((s.group i.tm.ctx k).broken = false → grp.phaseDue = false → t = s1) ∧
          ((s.group i.tm.ctx k).broken = false → grp.phaseDue = true → (∀ p ∈ arr, arrivalKind p.2.instr = arrivalKind ins) →
            (s3.group i.tm.ctx k).phaseDue = false → t = s3))
    arrives (.gbar h f) (sOk f.d || f.d == .zero) (fun _ => 0) (if sOk f.d then some (sIdx f.d) else none) ∧
    arrives (.gvote h all f) (sOk f.d && sSrcOk f.b) (fun i => i.g.rdScalar f.b) (some (sIdx f.d)) ∧
    arrives (.gred h op f) (sOk f.d && sSrcOk f.b) (fun i => BitVec.ofNat 64 (i.g.rdLane (gredTyOf f) f.b 0)) (some (sIdx f.d))

/-- R117, R127, R324, R334: `BAR` lets every gang of its scope go on once all have arrived and writes nothing; `SLEEP` with
a count of 0 goes on with an empty L1, else waits until its expiry, which does the same. Where the spec leaves a point open
it rests on the model's choices, log entries 7 and 20. -/
def Obligations.BarriersAndSleepComplete : Prop :=
  ∀ (h : Hdr) (f : FmtT),
    (∀ s i s' w, s.Issues i → h.scp = .set ∨ h.scp = .team → s.Starts i h f.imm.toNat s' w → i.g.handler = false →
      ∃ t, PerformsIn (.bar h f) s s' w.p t ∧ s'.WidePassed t w id) ∧
    UnitCompletes (.sleep h f) h (fun _ i => natSrcOk f.a = true ∧ (i.g.rdScalar f.a).toNat ≤ 2 ^ 24)
      (fun s i t => ((i.g.rdScalar f.a).toNat = 0 → t = (s.passUnit i).dropL1 i.tm.core) ∧
        ((i.g.rdScalar f.a).toNat ≠ 0 → t = s.waitAll i.performer .sleep)) ∧
    ∀ (s : State) (u : UnitId) (t : Team), s.team? u.team = some t →
      let l := unitSlices (t.gang u.gang) u
      l ≠ [] → (∀ k ∈ l, ((t.gang u.gang).slice k).live = true ∧ ((t.gang u.gang).slice k).wait = .sleep) →
      exec (.sleepExpiry u) s = .next ((s.modGang u.team u.gang (fun g => g.pass l)).dropL1 t.core)

-- queues and work lists

/-- R139 to R141, R332, R333: software queues. `QDEF` defines a ring; a push with allowance left stores its value in the
next slot and spends one unit, and blocked pops are then served in order; a pop takes the oldest entry and gives its pusher
the unit back; with none, the `try` form and a queue without producers answer 0 with Z, and else the gang waits. Where the
spec leaves a point open it rests on the model's choices, log entry 20. -/
def Obligations.QueuesComplete : Prop :=
  ∀ (h : Hdr) (f : FmtT) (try_ : Bool),
    let q := f.imm.toNat % 32
    (∀ s i s' w, s.Issues i → h.scp = .team → s.Starts i h 0 s' w →
      let ring := (w.rep.rdScalar f.d).toNat
      let mask := (w.rep.rdScalar f.a).toNat % 2 ^ 32
      let depth := (w.rep.rdScalar f.b).toNat
      let allow := (w.rep.rdScalar f.c).toNat
      sOk f.d = true → sSrcOk f.a = true → natSrcOk f.b = true → natSrcOk f.c = true → ring < 2 ^ 32 → ring % 8 = 0 → mask < 2 ^ w.tm.gangs.length →
      0 < depth → depth ≤ 256 → 0 < allow → allow ≤ 256 → allow * (onesOf 32 mask).length ≤ depth →
      w.tm.queueBusy q = false →
      (∀ p ∈ w.tm.queues, p.1 ≠ q → overlaps ring (8 * depth) p.2.ring (8 * p.2.depth) = false) →
      w.tm.onLinks ring (8 * depth) = false →
      ring + 8 * depth ≤ w.tm.spadSize → w.tm.pendingAt ring (8 * depth) = false →
      let d : QDef := { ring := ring, depth := depth, mask := mask, allow := (onesOf 32 mask).map (fun i => (i, allow)) }
      PerformsIn (.qdef h f) s s' w.p ((s'.modTeam w.p.team (fun t => { t with queues := Tab.put t.queues q d })).passAll w.p)) ∧
    (∀ d, GangCompletes (.qpush h try_ f) h
      (fun _ i => sSrcOk f.a = true ∧ i.tm.queue? q = some d ∧ bitAt d.mask i.unit.gang = true ∧ (try_ = true ∨ Tab.get d.allow 0 i.unit.gang ≠ 0) ∧
        (Tab.get d.allow 0 i.unit.gang ≠ 0 → i.tm.pendingAt (d.ring + 8 * (d.pushes % d.depth)) 8 = false))
      (fun s i t =>
        let u := (s.modTeam i.unit.team (fun t => (t.setSpad (d.ring + 8 * (d.pushes % d.depth)) (leBytes 8 (i.g.rdScalar f.a).toNat)).modQueue q
            (fun d => { d with pushes := d.pushes + 1, owners := d.owners ++ [i.unit.gang], allow := Tab.adjust d.allow 0 i.unit.gang (· - 1) }))).passWith i
          (fun g => if try_ then g.setCc ccZ false else g)
        (Tab.get d.allow 0 i.unit.gang = 0 → t = s.passWith i (fun g => g.setCc ccZ true)) ∧
        (Tab.get d.allow 0 i.unit.gang ≠ 0 → t = u.serveQueue i.unit.team q 33))) ∧
    (∀ d, GangCompletes (.qpop h try_ f) h (fun _ i => sOk f.d = true ∧ i.tm.queue? q = some d)
      (fun s i t =>
        (∀ o r, d.owners = o :: r →
          t = (s.modTeam i.unit.team (fun t => t.modQueue q QDef.popped)).passWith i (fun g =>
            let g := g.wrS (sIdx f.d) (BitVec.ofNat 64 (i.tm.spadNat (d.ring + 8 * (d.pops % d.depth)) 8))
            if try_ then g.setCc ccZ false else g)) ∧
        (d.owners = [] → try_ = true ∨ i.tm.producing d = false → t = s.passWith i (fun g => (g.wrS (sIdx f.d) 0).setCc ccZ true)) ∧
        (d.owners = [] → try_ = false → i.tm.producing d = true →
          t = (s.modTeam i.unit.team (fun t => t.modQueue q (fun d => { d with waiters := d.waiters ++ [(i.unit.gang, sIdx f.d)] }))).waitAll i.performer (.queue q)))) ∧
    ∀ (s : State) (team : Nat) (t : Team) (d : QDef) (gi r : Nat) (rest : List (Nat × Nat)) (fuel : Nat),
      s.team? team = some t → t.queue? q = some d → d.waiters = (gi, r) :: rest → d.owners ≠ [] →
      s.serveQueue team q (fuel + 1) =
        ((s.modTeam team (fun t => t.modQueue q (fun d => { d.popped with waiters := rest }))).release team gi (fun g => g.wrS r (t.queueHead d))).serveQueue team q fuel

/-- R43 to R46, R296, R297, R411: work lists, while they are not being moved. `WAPP` puts the active lanes' items in flight; a landing adds an item to its list or
gives it to the home consumer waiting there; `WPOP` takes the oldest item and makes its gang the list's home consumer, the
steal form takes the newest; a quiescent context completes every waiting pop with DONE. Where the spec leaves a point open
it rests on the model's choices, log entry 38. -/
def Obligations.WorkListsComplete : Prop :=
  ∀ (h : Hdr) (f : FmtT) (steal : Bool),
    let items := fun (i : Issuer) => (if h.scp = .gang then (if i.active h = [] then [] else [0]) else i.active h).map (i.g.appendItem f)
    let ok := fun (s : State) (i : Issuer) => appendOk i.tm.nregs (h.scp == .gang) f = true ∧ (∀ q ∈ items i, q.1 < 1024 ∧ s.listMoves i.tm.ctx q.1 = false) ∧
      s.isolated i.tm.launch = false
    let eff := fun (s : State) (i : Issuer) (t : State) =>
      (items i = [] → t = s.passUnit i) ∧
      (items i ≠ [] →
        let u := ({ s with nextId := s.nextId + 1 } : State).modCtx i.tm.ctx (fun c =>
          { c with inflight := Tab.put c.inflight s.nextId { team := i.unit.team, gang := i.unit.gang, items := items i } })
        t = if (s.ctx i.tm.ctx).listFull (items i) then u.waitAll i.performer (.append s.nextId) else u.passUnit i)
    UnitCompletes (.wapp h f) h ok eff ∧ GangCompletes (.wapp h f) h ok eff ∧
    (∀ l, GangCompletes (.wpop h steal f) h
      (fun s i => sOk f.d = true ∧ sSrcOk f.a = true ∧ l = i.g.listNumber f.a 0 ∧ l < 1024 ∧
        s.isolated i.tm.launch = false ∧ s.listMoves i.tm.ctx l = false ∧
        (if steal then (s.wlist i.tm.ctx l).home ≠ some (i.unit.team, i.unit.gang)
         else (s.wlist i.tm.ctx l).home = none ∨ (s.wlist i.tm.ctx l).home = some (i.unit.team, i.unit.gang)))
      (fun s i t =>
        let me := some (i.unit.team, i.unit.gang)
        let done := fun (u : State) (x : W64) (z : Bool) => u.passWith i (fun g => ((g.wrS (sIdx f.d) x).setCc ccZ z).setCc ccDone false)
        let w := s.wlist i.tm.ctx l
        (steal = true → w.items = [] → t = done s 0 true) ∧
        (∀ r x, steal = true → w.items = r ++ [x] → t = (done (s.modWlist i.tm.ctx l (fun w => { w with items := r })) x false).dropL1 i.tm.core) ∧
        (∀ x r, steal = false → w.items = x :: r → t = (done (s.modWlist i.tm.ctx l (fun w => { w with items := r, home := me })) x false).dropL1 i.tm.core) ∧
        (steal = false → w.items = [] →
          t = (s.modWlist i.tm.ctx l (fun w => { w with home := me, waiting := some (sIdx f.d) })).waitAll i.performer (.list l)))) ∧
    (∀ (s : State) (ctx idx l : Nat) (x : W64) (r : List (Nat × W64)) (a : Append), Tab.find? (s.ctx ctx).inflight idx = some a → a.items = (l, x) :: r →
      (s.wlist ctx l).items.length < (s.ctx ctx).wlcap → s.listMoves ctx l = false →
      let u := if (s.wlist ctx l).waiting.isSome then s.wpopDone ctx l x false false else s.modWlist ctx l (fun w => { w with items := w.items ++ [x] })
      exec (.wappLand ctx idx) s = .next (if r = [] then (u.modCtx ctx (fun c => { c with inflight := Tab.del c.inflight idx })).appendDone a idx
        else u.modCtx ctx (fun c => { c with inflight := Tab.modify c.inflight idx (fun a => { a with items := r }) }))) ∧
    ∀ (s : State) (ctx : Nat), (s.ctx ctx).quiescent = true →
      exec (.quiescenceDone ctx) s = .next ((Tab.keys (s.ctx ctx).wlists).foldl (fun s l => s.wpopDone ctx l 0 true true) s)

-- engines

/-- R13, R158, R159, R289 to R291: `COPY`. With its rows in the allocation and, inwards, apart, unguarded and with nothing
pending, one engine operation is issued whose segments are the rows' words in order; a copy of no bytes completes at once;
the yielding form waits for its operation. `CopyRows` gives the rows that the registers name. Where the spec leaves a point
open it rests on the model's choices, log entry 22. -/
def Obligations.CopiesComplete : Prop :=
  (∀ (h : Hdr) (shape : CopyShape) (out yld : Bool) (f : FmtT) (ctr : Option Nat) (goal : W64) (rows : CopyRows),
    let runs := rows.rows.map (·.2)
    let abar := fun (i : Issuer) => (i.g.rdS (sIdx f.c)).toNat
    let op := fun (i : Issuer) => ({
      gang := i.unit.gang, abar := if yld then none else some (abar i), counter := ctr, cont := if yld then some goal else none, arrives := false, charges := true,
      segs := numberSegs (rows.rows.flatMap (fun p => wordSegs (if out then .store else .load) 0 p.1 p.2 rows.len)) } : EngOp)
    GangCompletes (.copy h shape out yld f) h
      (fun s i => sOk f.d = true ∧ sOk f.a = true ∧ sOk f.b = true ∧
        (yld = true → dispTarget i.pc f.imm.toInt = .ok goal ∧ s.checkTarget i.tm.core i.tm.ctx goal = .ok ()) ∧
        (yld = false → sOk f.c = true ∧ i.tm.abars.contains (abar i) = true) ∧
        s.counterOf i f.e = .ok ctr ∧ i.g.copyRows shape f.b (i.g.rdS (sIdx f.a)).toNat (i.g.rdS (sIdx f.d)).toNat = .ok rows ∧
        (out = false → disjointRuns rows.len runs = true) ∧
        (∀ a ∈ runs, a + rows.len ≤ i.tm.spadSize ∧ (out = false → i.tm.guarded a rows.len = false ∧ i.tm.pendingAt a rows.len = false)) ∧
        s.engineFull i.tm.core false = false)
      (fun s i t =>
        (yld = true → t = (s.issueEngine i.unit.team (op i)).waitAll i.performer (.copyYield s.nextId)) ∧
        (yld = false → (op i).segs ≠ [] → t = (s.passUnit i).issueEngine i.unit.team (op i)) ∧
        (yld = false → (op i).segs = [] → t = (s.passUnit i).countDone ctr))) ∧
  (∀ (s : State) (i : Issuer) (r : BitVec 8), s.counterOf i .zero = .ok none ∧
    (r.toNat < 128 → s.ownsCtr i.tm.ctx (wingOfCore i.tm.core) (bits (i.g.rdS r.toNat).toNat 0 10) = true →
      s.counterOf i (.s r) = .ok (some (ctrKey (wingOfCore i.tm.core) (bits (i.g.rdS r.toNat).toNat 0 10))))) ∧
  (∀ (g : Gang) (b : Operand) (glob spad : Nat),
    let k := sIdx b
    let w := (g.rdS k).toNat
    let len := w % 2 ^ 32
    let place := fun (gp : Int) (gr : Int) (sp sr p r : Nat) => ((BitVec.ofInt 64 ((glob : Int) + p * gp + r * gr)).toNat, spad + p * sp + r * sr)
    (w ≤ 2 ^ 24 → w % 4 = 0 → spad % 4 = 0 → g.copyRows .d1 b glob spad = .ok { len := w, rows := if w = 0 then [] else [(glob % 2 ^ 64, spad)] }) ∧
    (k % 4 = 0 → len * bits w 32 16 ≤ 2 ^ 24 → spad % 4 = 0 → len % 4 = 0 → bits (g.rdS (k + 2)).toNat 0 32 % 4 = 0 → len * bits w 32 16 ≠ 0 →
      g.copyRows .d2 b glob spad = .ok { len := len, rows := (List.range (bits w 32 16)).map (fun r =>
        place 0 (g.rdS (k + 1)).toInt 0 (bits (g.rdS (k + 2)).toNat 0 32) 0 r) }) ∧
    (k % 4 = 0 → len * bits w 32 16 * bits w 48 16 ≤ 2 ^ 24 → spad % 4 = 0 → len % 4 = 0 → bits (g.rdS (k + 2)).toNat 0 32 % 4 = 0 →
      bits (g.rdS (k + 2)).toNat 32 32 % 4 = 0 → len * bits w 32 16 * bits w 48 16 ≠ 0 →
      g.copyRows .d3 b glob spad = .ok { len := len, rows := (List.range (bits w 48 16)).flatMap (fun p => (List.range (bits w 32 16)).map (fun r =>
        place (g.rdS (k + 3)).toInt (g.rdS (k + 1)).toInt (bits (g.rdS (k + 2)).toNat 32 32) (bits (g.rdS (k + 2)).toNat 0 32) p r)) }))

/-- R160 to R162, R289, R292: `GATHER` and `SCATTER` issue one engine operation with a segment for every element of the rows
that the index block names; a gathered row outside the table is zeros with RANGE, a scattered one is skipped. Where the spec
leaves a point open it rests on the model's choices, log entry 22. -/
def Obligations.GathersComplete : Prop :=
  ∀ (h : Hdr) (f : FmtT) (mode : ScatterMode) (ctr : Option Nat),
    let w := fun (i : Issuer) => (i.g.rdS (sIdx f.b)).toNat
    let at_ := fun (i : Issuer) => bits (w i) 0 32
    let n := fun (i : Issuer) => bits (w i) 32 13
    let z := fun (i : Issuer) => bits (w i) 48 16
    let data := fun (i : Issuer) => (i.g.rdS (sIdx f.d)).toNat
    let base := fun (i : Issuer) => (i.g.rdS (sIdx f.a)).toNat
    let list := fun (i : Issuer) => ({
      z := z i, n := (i.g.rdS (sIdx f.b + 1)).toNat, data := data i, base := base i,
      idx := (List.range (n i)).map (fun k => i.tm.spadNat (at_ i + 4 * k) 4), abar := (i.g.rdS (sIdx f.c)).toNat, ctr := ctr } : RowList)
    let ok := fun (wide writes : Bool) (s : State) (i : Issuer) =>
      sOk f.d = true ∧ sOk f.a = true ∧ sOk f.b = true ∧ sOk f.c = true ∧ sIdx f.b % 2 = 0 ∧ s.counterOf i f.e = .ok ctr ∧
      at_ i % 4 = 0 ∧ 0 < n i ∧ n i ≤ 4096 ∧ bits (w i) 45 3 = 0 ∧ 4 ≤ z i ∧ z i ≤ 4096 ∧ z i % 4 = 0 ∧ data i % 4 = 0 ∧ base i % 4 = 0 ∧
      (wide = true → z i % 8 = 0 ∧ data i % 8 = 0 ∧ base i % 8 = 0) ∧ i.tm.abars.contains (list i).abar = true ∧
      at_ i + 4 * n i ≤ i.tm.spadSize ∧ data i + n i * z i ≤ i.tm.spadSize ∧
      (writes = true → i.tm.guarded (data i) (n i * z i) = false ∧ i.tm.pendingAt (data i) (n i * z i) = false) ∧
      i.tm.pendingAt (at_ i) (4 * n i) = false ∧ s.engineFull i.tm.core true = false
    let wide := mode == .addF64 || mode == .addI64
    let op := fun (i : Issuer) (arr : Bool) (segs : List Seg) => ({
      gang := i.unit.gang, abar := some (list i).abar, counter := ctr, cont := none, arrives := arr, charges := !arr, gather := true, segs := segs } : EngOp)
    GangCompletes (.gather h f) h (ok false true)
      (fun s i t => t = (s.passUnit i).issueEngine i.unit.team (op i false ((list i).segs 4 .load .zeros))) ∧
    GangCompletes (.scatter h mode f) h (ok wide false)
      (fun s i t => t = (s.passUnit i).issueEngine i.unit.team
        (op i true ((list i).segs (if wide then 8 else 4) (if mode = .st then .store else .add mode) .skip)))

/-- R120, R150 to R154, R293, R294: abars. `ABINIT` sets a registered or new one up for a count, or clears it and takes it off the
list with 0; `ABARR` and `ABEXP` count one arrival and expected bytes; a completed phase is reported by `ABWAIT` and `ABTEST`,
an open one makes `ABWAIT` wait and `ABTEST` answer 0 with Z. -/
def Obligations.AbarsComplete : Prop :=
  ∀ (h : Hdr) (f : FmtT),
    let at_ := fun (i : Issuer) => (i.g.rdS (sIdx f.a)).toNat
    let n := fun (i : Issuer) => (i.g.rdScalar f.b).toNat
    let others := fun (i : Issuer) => i.tm.abars.filter (fun x => x != at_ i)
    let phase := fun (d : Bool) (i : Issuer) => d = true ∧ sOk f.a = true ∧ natSrcOk f.b = true ∧ i.tm.abars.contains (at_ i) = true ∧ n i < 2 ^ 32
    let age := fun (i : Issuer) => ((i.tm.abar (at_ i)).phase + 2 ^ 32 - n i) % 2 ^ 32
    let error := fun (i : Issuer) => if age i = 1 then (i.tm.abar (at_ i)).errl else 0x80
    GangCompletes (.abinit h f) h
      (fun s i => sOk f.a = true ∧ natSrcOk f.b = true ∧ at_ i % 16 = 0 ∧ n i ≤ 65535 ∧
        (i.tm.abars.contains (at_ i) = true → s.abarBusy i.unit.team i.tm (at_ i) = false) ∧
        (n i ≠ 0 → i.tm.abars.contains (at_ i) = false → i.tm.abars.length < 64) ∧ at_ i + 16 ≤ i.tm.spadSize ∧
        ({ i.tm with abars := [] } : Team).guarded (at_ i) 16 = false ∧ i.tm.pendingAt (at_ i) 16 = false)
      (fun s i t => t = (s.passUnit i).modTeam i.unit.team (fun t =>
        if n i = 0 then { (t.setSpad (at_ i) (List.replicate 16 0)) with abars := others i }
        else { (t.setAbar (at_ i) { expb := 0, arrv := n i, inita := n i, phase := 0, erro := 0, errl := 0, live := true }) with abars := others i ++ [at_ i] })) ∧
    GangCompletes (.abarr h f) h (fun _ i => sOk f.a = true ∧ i.tm.abars.contains (at_ i) = true ∧ (i.tm.abar (at_ i)).arrv ≠ 0 ∧
        i.tm.pendingAt (at_ i) 16 = false)
      (fun s i t => t = (s.passUnit i).modTeam i.unit.team (fun t => t.modAbar (at_ i) (fun b => ({ b with arrv := b.arrv - 1 }).settle))) ∧
    GangCompletes (.abexp h f) h
      (fun _ i => sOk f.a = true ∧ natSrcOk f.b = true ∧ i.tm.abars.contains (at_ i) = true ∧ n i < 2 ^ 32 ∧ (i.tm.abar (at_ i)).expb + n i < 2 ^ 32 ∧
        i.tm.pendingAt (at_ i) 16 = false)
      (fun s i t => t = (s.passUnit i).modTeam i.unit.team (fun t => t.modAbar (at_ i) (fun b => ({ b with expb := b.expb + n i }).settle))) ∧
    (∀ s i s' i', s.Issues i → h.scp = .gang → s.GangStarts i s' i' → phase (sOk f.d || f.d == .zero) i' → age i' < 2 ^ 31 →
      (age i' = 0 → exec (.abwait h f) s = .next ((s'.waitAll i'.performer (.abar (at_ i') (n i'))).trySave i'.unit.team)) ∧
      (age i' ≠ 0 → PerformsIn (.abwait h f) s s' i'.performer (s'.report i' h f.d false (some (error i'))))) ∧
    GangCompletes (.abtest h f) h (fun _ i => phase (sOk f.d) i ∧ age i < 2 ^ 31)
      (fun s i t => t = s.report i h f.d true (if age i = 0 then none else some (error i))) ∧
    ∀ (s : State) (i : Issuer) (d : Operand) (test : Bool) (e : Byte), errTraps e = false →
      s.report i h d test (some e) = (s.dropL1 i.tm.core).passWith i (fun g =>
        let g := match d with | .s k => g.wrS k.toNat (BitVec.ofNat 64 (e.toNat + 2 ^ 8)) | _ => g
        let g := g.setCc ccTmo (e &&& errTimeout != 0)
        if test then g.setCc ccZ false else g)

/-- R103, R340 to R342, R408: `XPUT` and `XGET` between devices issue one engine operation, the words of the run in order; an
`XPUT` makes one arrival and with bit 15 notifies a counter of the target; data that another device puts lands at once when its
pages take it, and what finds the bounce ring full comes later; a request for data is answered with what committed memory
holds, or from a POISON page with zeros and POISON. Where the spec leaves a point open it rests on the model's choices, log
entries 16 and 22. -/
def Obligations.DeviceTransfersComplete : Prop :=
  (∀ (h : Hdr) (f : FmtT) (r : BitVec 8), f.e = .s r → r.toNat < 128 →
    let x := fun (i : Issuer) => ({
      len := (i.g.rdS r.toNat).toNat, spad := bits (i.g.rdS (sIdx f.d)).toNat 0 32, glob := (i.g.rdS (sIdx f.a)).toNat,
      rank := (i.g.rdScalar f.b).toNat, abar := (i.g.rdS (sIdx f.c)).toNat } : Xfer)
    let ok := fun (writes : Bool) (s : State) (i : Issuer) =>
      sOk f.d = true ∧ sOk f.a = true ∧ natSrcOk f.b = true ∧ sOk f.c = true ∧ 4 ≤ (x i).len ∧ (x i).len ≤ 2 ^ 24 ∧ (x i).len % 4 = 0 ∧
      (x i).spad % 4 = 0 ∧ (x i).glob % 4 = 0 ∧ (x i).rank ≤ 255 ∧ (x i).rank < s.span.size ∧ i.tm.abars.contains (x i).abar = true ∧
      (x i).spad + (x i).len ≤ i.tm.spadSize ∧
      (writes = true → i.tm.guarded (x i).spad (x i).len = false ∧ i.tm.pendingAt (x i).spad (x i).len = false) ∧ s.engineFull i.tm.core false = false
    GangCompletes (.xget h f) h (ok true)
      (fun s i t => t = (s.passUnit i).issueEngine i.unit.team
        { gang := i.unit.gang, abar := some (x i).abar, counter := none, cont := none, arrives := false, charges := true,
          segs := wordSegs (.xget (x i).rank) 0 (x i).glob (x i).spad (x i).len }) ∧
    GangCompletes (.xput h f) h (ok false)
      (fun s i t => t = (s.passUnit i).issueEngine i.unit.team
        { gang := i.unit.gang, abar := some (x i).abar, counter := none, cont := none, arrives := true, charges := false,
          notify := if f.imm.getLsbD 15 then some ((x i).rank, ctrKey (bits f.imm.toNat 10 2) (bits f.imm.toNat 0 10)) else none,
          segs := wordSegs (.xput (x i).rank) 0 (x i).glob (x i).spad (x i).len })) ∧
  (∀ (s : State) (asid : Nat) (addr : W64) (data : List Byte) (notify : Option Nat), s.slotOfAsid asid = none →
    exec (.xputReceive asid addr data notify) s = .next (if data = [] then s.countDone notify else s) ∧
    ∀ n, exec (.xgetRequest asid addr n) s = .next (s.send (.xgetData [] errFault))) ∧
  (∀ (s t : State) (asid k : Nat) (addr : W64) (data : List Byte) (notify : Option Nat), s.slotOfAsid asid = some k → data ≠ [] →
    let u := t.modCtx k (fun c => { c with partial_ := Tab.del c.partial_ addr.toNat })
    (s.incoming k (pageRuns (data.length / 65536 + 2) addr.toNat data) false = .ok (t, false, []) → (t.ctx k).bncSeq = (s.ctx k).bncSeq →
      Tab.get (s.ctx k).partial_ 0 addr.toNat ≤ (u.ctx k).bncrp → exec (.xputReceive asid addr data notify) s = .next (u.countDone notify)) ∧
    (∀ va bs r, s.incoming k (pageRuns (data.length / 65536 + 2) addr.toNat data) false = .ok (t, false, (va, bs) :: r) →
      ∃ v : State, exec (.xputReceive asid addr data notify) s = .next { v with
        inbox := t.inbox ++ [.xputReceive asid (BitVec.ofNat 64 va) (bs ++ r.flatMap (·.2)) notify] } ∧ v.mem = t.mem)) ∧
  ∀ (s : State) (asid k : Nat) (addr : W64) (n : Nat), s.slotOfAsid asid = some k →
    (s.segPages k .read addr.toNat n = .poison → exec (.xgetRequest asid addr n) s = .next (s.send (.xgetData (List.replicate n 0) errPoison))) ∧
    ∀ ps, s.segPages k .read addr.toNat n = .ok ps → (∀ j < n, (Tab.find? s.uncorr ((pageOf ps (addr.toNat + j)).loc (addr.toNat + j))).isSome = false) →
      exec (.xgetRequest asid addr n) s =
        .next (s.send (.xgetData ((List.range n).map (fun j => s.commByte ((pageOf ps (addr.toNat + j)).loc (addr.toNat + j)))) 0))

-- tile records, the factor pool and matrix operations

/-- R50 to R63, R300, R304 to R308, R314: instructions on tile records. Each waits only while an operation in flight writes
what it needs; `TDEF` and `TLDR` put a consistent record in the register and return the chain the old one owned, `TSTR`
stores the sixteen bytes, `TGET` reads a part, `TPOOL` lays out the most blocks that fit, `TZERO` and `TFREE` leave the zero
record and give back what the record owned, and `ACCREL` gives back a slot. Where the spec leaves a point open it rests on
the model's choices, log entry 42. -/
def Obligations.TileRecordsComplete : Prop :=
  ∀ (h : Hdr) (kind : TdefKind) (fmt : Fmt) (part : TgetPart) (f : FmtT),
    let d := tIdx f.d
    let old := fun (i : Issuer) => i.g.rdT d
    let whole := fun (i : Issuer) => 2 ≤ tKind (old i) → (i.tm.chainOf (old i)).isSome = true
    let at_ := fun (i : Issuer) => (i.g.rdS (sIdx f.a) + f.imm.signExtend 64).toNat
    let acc := fun (i : Issuer) => ([{ lane := 0, va := at_ i, n := 16 }] : List LaneAcc)
    let place := fun (i : Issuer) (gl : Bool) => f.c = .imm (if gl then 1 else 0) ∧ tOk f.d = true ∧ sOk f.a = true ∧ at_ i % 16 = 0 ∧ i.tileStall [f.d] [] = .ok ()
    let slots := fun (i : Issuer) => (srcSlots (old i)).head?
    (∀ r : W128, GangCompletes (.tdef h kind fmt f) h
      (fun _ i => tOk f.d = true ∧ i.tileStall [f.d] [] = .ok () ∧ whole i ∧
        (match kind with
         | .zero => r = zeroRec fmt
         | .acc => (fmt = .i8 ∨ fmt = .f32 ∨ fmt = .f64) ∧ r = slotRec fmt 0xFFFF
         | .dense =>
           let u := (i.g.rdS (sIdx f.a)).toNat
           sOk f.a = true ∧ (fmt = .l6 → sSrcOk f.b = true) ∧ u < 2 ^ 24 ∧ u % 256 = 0 ∧ u + setBytes fmt 32 ≤ i.tm.spadSize ∧
             r = mkRec 1 32 fmt 0 u 0 0xFFFF 0 (if fmt = .l6 then bits (i.g.rdScalar f.b).toNat 0 8 else 0)))
      (fun s i t => t = s.writeTile i d r (i.tm.owned (old i)))) ∧
    (∀ (gl : Bool) (r : W128) (u : State), GangCompletes (.tldr h f) h
      (fun s i => place i gl ∧ whole i ∧ i.tm.recOk false r = true ∧
        (if gl then at_ i + 16 ≤ 2 ^ 56 ∧ ∃ vals, s.globalLoad i .weak .team (acc i) = .ok (vals, u) ∧ r = BitVec.ofNat 128 (vals.headD (0, 0)).2
         else at_ i + 16 ≤ i.tm.spadSize ∧ i.tm.pendingAt (at_ i) 16 = false ∧ u = s ∧ r = BitVec.ofNat 128 (i.tm.spadNat (at_ i) 16)))
      (fun _ i t => t = u.writeTile i d r (if (i.tm.owned r).headD 0xFFFF = (i.tm.owned (old i)).headD 0xFFFE then [] else i.tm.owned (old i)))) ∧
    (∀ (gl : Bool) (u : State), GangCompletes (.tstr h f) h
      (fun s i => place i gl ∧
        (if gl then at_ i + 16 ≤ 2 ^ 56 ∧ s.globalStore i .weak (acc i) (fun _ => leBytes 16 (old i).toNat) = .ok u
         else at_ i + 16 ≤ i.tm.spadSize ∧ i.tm.guarded (at_ i) 16 = false ∧ i.tm.pendingAt (at_ i) 16 = false))
      (fun s i t => t = if gl then u.passUnit i else (s.passUnit i).modTeam i.unit.team (fun t => t.setSpad (at_ i) (leBytes 16 (old i).toNat)))) ∧
    GangCompletes (.tget h part f) h (fun _ i => sOk f.d = true ∧ tOk f.a = true ∧ i.tileStall [f.a] [] = .ok ())
      (fun s i t =>
        let r := i.g.rdT (tIdx f.a)
        t = s.passLate i h.la.toNat [(.s (sIdx f.d), match part with
          | .lo => r.extractLsb' 0 64 | .hi => r.extractLsb' 64 64 | .kind => BitVec.ofNat 64 (tKind r) | .rank => BitVec.ofNat 64 (tRank r))]) ∧
    (∀ n : Nat, GangCompletes (.tpool h fmt f) h
      (fun _ i =>
        let base := (i.g.rdS (sIdx f.a)).toNat
        let size := (i.g.rdS (sIdx f.b)).toNat
        sOk f.a = true ∧ sOk f.b = true ∧ (∀ p, i.tm.pool = some p → p.free.length = p.count) ∧
        (size ≠ 0 → 0 < n ∧ n ≤ 4095 ∧ poolFits size (colBlock fmt) n = true ∧ poolFits size (colBlock fmt) (n + 1) = false ∧ base % 256 = 0 ∧
          base + size ≤ i.tm.spadSize ∧ ({ i.tm with pool := none } : Team).guarded base (linkBytes n) = false ∧ i.tm.pendingAt base (linkBytes n) = false))
      (fun s i t =>
        let base := (i.g.rdS (sIdx f.a)).toNat
        ((i.g.rdS (sIdx f.b)).toNat = 0 → t = (s.passUnit i).modTeam i.unit.team (fun t => { t with pool := none })) ∧
        ((i.g.rdS (sIdx f.b)).toNat ≠ 0 → t = (s.passUnit i).modTeam i.unit.team (fun t =>
          { (t.setSpad base ((List.range n).flatMap (fun k => leBytes 2 (if k + 1 < n then k + 1 else 0xFFFF)) ++ List.replicate (linkBytes n - 2 * n) 0)) with
              pool := some { base := base, fmt := fmt, block := colBlock fmt, count := n, free := List.range n } })))) ∧
    GangCompletes (.tzero h f) h
      (fun _ i => tOk f.d = true ∧ i.tileStall [f.d] (if tLoc (old i) = 1 then [] else [f.d]) = .ok () ∧ i.tm.recOk true (old i) = true ∧
        ∀ n, slots i = some n → i.tm.slotWait n = .ok ())
      (fun s i t =>
        let z := zeroRec (tFmt (old i))
        (∀ n, slots i = some n → t = (s.writeTile i d z []).modTeam i.unit.team (fun t => t.dropSlot (tFmt (old i)) n)) ∧
        (slots i = none → t = s.writeTile i d z (i.tm.owned (old i)))) ∧
    GangCompletes (.tfree h f) h
      (fun _ i => tOk f.d = true ∧ i.tileStall [f.d] [f.d] = .ok () ∧ i.tm.recOk true (old i) = true ∧ tLoc (old i) ≠ 1)
      (fun s i t => t = s.writeTile i d (zeroRec (tFmt (old i))) (i.tm.owned (old i))) ∧
    GangCompletes (.accrel h f) h
      (fun _ i => tOk f.d = true ∧ i.tileStall [f.d] [] = .ok () ∧ i.tm.recOk false (old i) = true ∧ tLoc (old i) = 1 ∧
        ∀ n, slots i = some n → i.tm.slotWait n = .ok ())
      (fun s i t => (slots i = none → t = s.passUnit i) ∧
        (∀ n, slots i = some n → t = (s.passWith i (fun g => g.wrT d (slotRec (tFmt (old i)) 0xFFFF))).modTeam i.unit.team (fun t => t.dropSlot (tFmt (old i)) n)))

/-- R155, R203, R282, R314: `MBATCH` opens the next of at most 16 batches and `MWAIT` waits for one; `STASH` writes the
tile's elements row by row to one place and column by column to another; where the second copy cannot be written yet it issues
again and writes only that one. Where the spec leaves a point open it rests on the model's choices, log entries 36 and 42. -/
def Obligations.BatchesAndStashComplete : Prop :=
  ∀ (h : Hdr),
    (∀ f, GangCompletes (.mbatch h f) h (fun _ i => sOk f.d = true ∧ i.g.lastBatch - i.tm.batchDone i.unit.gang < 16)
      (GangBecomes (fun _ i g => { (g.wrS (sIdx f.d) (BitVec.ofNat 64 (i.g.lastBatch + 1))) with lastBatch := i.g.lastBatch + 1 }))) ∧
    (∀ (f : FmtT) s i s' i', s.Issues i → h.scp = .gang → s.GangStarts i s' i' →
      natSrcOk f.a = true → 0 < (i'.g.rdScalar f.a).toNat → (i'.g.rdScalar f.a).toNat ≤ i'.g.lastBatch →
      ((i'.g.rdScalar f.a).toNat ≤ i'.tm.batchDone i'.unit.gang → PerformsIn (.mwait h f) s s' i'.performer (s'.passUnit i')) ∧
      (i'.tm.batchDone i'.unit.gang < (i'.g.rdScalar f.a).toNat →
        exec (.mwait h f) s = .next ((s'.waitAll i'.performer (.batch (i'.g.rdScalar f.a).toNat)).trySave i'.unit.team))) ∧
    ∀ (fmt : Fmt) (f : FmtM),
      let r := fun (i : Issuer) => i.g.rdT (tIdx f.d)
      let p := fun (i : Issuer) => (i.g.rdS (sIdx f.a) + f.off.signExtend 64).toNat
      let q := fun (i : Issuer) => (i.g.rdS (sIdx f.b) + f.off.signExtend 64).toNat
      let rows := fun (i : Issuer) => i.tm.stashElems (r i) fmt
      let exc := fun (i : Issuer) => (rows i).foldl (fun e row => row.foldl (fun e x => e ||| x.2) e) (0 : Exc)
      let plain := fun (i : Issuer) => (rows i).flatMap (fun row => row.flatMap (fun x => leBytes (stashBytes fmt) x.1))
      let turned := fun (i : Issuer) => (List.range 32).flatMap (fun j => (rows i).flatMap (fun row => leBytes (stashBytes fmt) (row.getD j (0, 0)).1))
      let legal := fun (i : Issuer) =>
        tOk f.d = true ∧ sOk f.a = true ∧ sOk f.b = true ∧ i.tileStall [f.d] [] = .ok () ∧ i.tileStall [] [f.d] = .ok () ∧ i.tm.recOk false (r i) = true ∧
        tKind (r i) < 2 ∧ (tKind (r i) = 1 → if tLoc (r i) = 0 then fmt = tFmt (r i) else slotFmtOk (r i) fmt = true) ∧
        p i % 128 = 0 ∧ q i % 128 = 0 ∧ p i + 1024 * stashBytes fmt ≤ 2 ^ 56 ∧ q i + 1024 * stashBytes fmt ≤ 2 ^ 56 ∧ overlaps (p i) (1024 * stashBytes fmt) (q i) (1024 * stashBytes fmt) = false ∧
        ∀ x ∈ i.tm.srcRuns (r i), i.tm.pendingAt x.1 x.2 = false ∧ ∀ m ∈ i.tm.mops, ∀ y ∈ m.2.writes, overlaps x.1 x.2 y.1 y.2 = false
      (∀ u v : State, GangCompletes (.stash h fmt f) h
        (fun s i => legal i ∧
          (if i.g.plainDone then s.stashCopy i (q i) (turned i) = .ok v
           else (∀ row ∈ rows i, ∀ x ∈ row, enabledExc i.g.fpmode x.2 = false) ∧ s.stashCopy i (p i) (plain i) = .ok u ∧
             (u.modGang i.unit.team i.unit.gang (fun g => g.orFlags (exc i))).stashCopy i (q i) (turned i) = .ok v))
        (fun _ i t => t = v.passUnit i)) ∧
      ∀ (u : State) (e : Stop), GangCompletes (.stash h fmt f) h
        (fun s i => legal i ∧ i.g.plainDone = false ∧ (∀ row ∈ rows i, ∀ x ∈ row, enabledExc i.g.fpmode x.2 = false) ∧ s.stashCopy i (p i) (plain i) = .ok u ∧
          (u.modGang i.unit.team i.unit.gang (fun g => g.orFlags (exc i))).stashCopy i (q i) (turned i) = .error e)
        (fun _ i t => t = (((u.modGang i.unit.team i.unit.gang (fun g => g.orFlags (exc i))).modGang i.unit.team i.unit.gang
          (fun g => { g with plainDone := true })).waitAll (i.performer (some h)) (.retry false)))

/-- R65, R87, R299, R300, R309 to R313, R315 to R320: matrix and rank operations at issue. With legal operands, room for the
result and no stall, each is issued with its operands as they stand, its destination taken, and the gang goes on; `ACCRD`
and `TNORM` put their result in registers; the rounding of a zero tile clears DNS. An operation that is ready completes.
Where the spec leaves a point open it rests on the model's choices, log entries 21, 37 and 42. -/
def Obligations.MatrixOperationsComplete : Prop :=
  ∀ (h : Hdr) (fmt : Fmt) (tr abs : Bool) (f : FmtT) (place : Place) (n : Nat) (new : Bool),
    let A := fun (i : Issuer) => i.g.rdT (tIdx f.a)
    let B := fun (i : Issuer) => i.g.rdT (tIdx f.b)
    let D := fun (i : Issuer) => i.g.rdT (tIdx f.d)
    let three := fun (i : Issuer) => tOk f.a = true ∧ tOk f.b = true ∧ tOk f.d = true ∧ i.tileStall [f.a, f.b, f.d] [f.a, f.b] = .ok () ∧
      i.tm.recOk false (A i) = true ∧ i.tm.recOk false (B i) = true ∧ i.tm.recOk true (D i) = true
    let two := fun (k11 : Bool) (i : Issuer) => tOk f.a = true ∧ tOk f.d = true ∧ i.tileStall [f.a, f.d] [f.a] = .ok () ∧
      i.tm.recOk k11 (A i) = true ∧ i.tm.recOk true (D i) = true
    let one := fun (k11 : Bool) (o : Operand) (read : List Operand) (i : Issuer) => tOk o = true ∧ i.tileStall [o] read = .ok () ∧ i.tm.recOk k11 (i.g.rdT (tIdx o)) = true
    let issued := fun (ins : Instr) (srcs : Issuer → List W128) (words : Issuer → List W64) (s : State) (i : Issuer) (t : State) =>
      t = s.issueRank i ins (tIdx f.d) (D i) (srcs i) (words i) place
    let slotOp := fun (i : Issuer) (op : MatOp) => { op with gangs := [(i.unit.gang, i.g.openBatch)] }
    (∀ s i s' w, s.Issues i → scopesGST.contains h.scp = true → s.Starts i h f.imm.toNat s' w →
      let i' := w.repIssuer
      let vs := w.voters h f.c
      tOk f.a = true → tOk f.b = true → tOk f.d = true → i'.tileStall [f.a, f.b, f.d] [] = .ok () → (∀ g ∈ w.gangs, w.tm.tregBusy g (tIdx f.d) = false) →
      (∀ r ∈ [A i', B i', D i'], w.tm.recOk false r = true) → (∀ r ∈ [A i', B i'], tKind r < 2 ∧ tLoc r = 0) → tKind (D i') = 1 → tLoc (D i') = 1 →
      (∀ r ∈ w.mmaOlds f.d, 2 ≤ tKind r → (w.tm.chainOf r).isSome = true) → w.wordOk f.c = true → dissent w.scope vs = [] →
      (∀ v ∈ vs, wordFieldsOk (A i') (B i') (D i') v.word = true) →
      (vs = [] → PerformsIn (.mma h f) s s' w.p (s'.passAll w.p)) ∧
      (vs ≠ [] → s'.placeDense w.tm (D i') (tFmt (D i')) = .ok (.dense fmt n new) →
        PerformsIn (.mma h f) s s' w.p (((s'.passAll w.p).modTeam w.p.team (fun t => t.takePlace (.dense fmt n new))).issueMat w.p.team
          (w.mmaOp (.mma h f) f vs (A i') (B i') (D i') n new)))) ∧
    GangCompletes (.accz h f) h
      (fun s i => one false f.d [] i ∧ tLoc (D i) = 1 ∧ s.placeDense i.tm (D i) (tFmt (D i)) = .ok (.dense fmt n new))
      (fun s i t => t = ((s.passUnit i).modTeam i.unit.team (fun t => t.takePlace (.dense fmt n new))).issueMat i.unit.team
        (slotOp i { gangs := [], instr := .accz h f, recs := [D i], slots := [n], dst := if new then .record (slotRec (tFmt (D i)) n) else .keep,
                    treg := if new then some (tIdx f.d) else none })) ∧
    GangCompletes (.accwr h fmt f) h
      (fun _ i => one false f.d [] i ∧ tLoc (D i) = 1 ∧ tSlot (D i) = some n ∧ accwrOk (tFmt (D i)) fmt = true ∧ vRunOk i.tm.nregs (fmt == .f64) 32 f.a = true)
      (fun s i t => t = (s.passUnit i).issueMat i.unit.team
        (slotOp i { gangs := [], instr := .accwr h fmt f, recs := [D i], slots := [n],
                    words := BitVec.ofNat 64 (laneMask (i.active h)) :: (List.range 1024).map (fun k =>
                      if (i.active h).contains (k / 32) then BitVec.ofNat 64 (i.g.runElem (fmt == .f64) f.a (k % 32) (k / 32)) else 0) })) ∧
    GangCompletes (.accrd h fmt f) h
      (fun _ i => one false f.a [f.a] i ∧ tKind (A i) < 2 ∧ (tKind (A i) = 1 → tLoc (A i) = 1 ∧ slotFmtOk (A i) fmt = true) ∧ vRunOk i.tm.nregs (fmt == .f64) 32 f.d = true ∧
        ∀ l ∈ i.active h, enabledExc i.g.fpmode (rowExc (i.tm.accRow (A i) fmt l)) = false)
      (fun s i t => t = (s.modGang i.unit.team i.unit.gang (fun g =>
          g.orFlags ((i.active h).foldl (fun e l => e ||| rowExc (i.tm.accRow (A i) fmt l)) 0))).passLate i h.la.toNat
        ((i.active h).flatMap (fun l => accWrites fmt (Operand.idx f.d) l (i.tm.accRow (A i) fmt l)))) ∧
    ((∀ k, f.d ≠ .t k) →
      let c := f.imm.toNat
      let at_ := fun (i : Issuer) => (i.g.rdS (sIdx f.d)).toNat
      GangCompletes (.cturn h fmt tr f) h
        (fun _ i => sOk f.d = true ∧ 4 ≤ c ∧ c ≤ 32 ∧ c % 4 = 0 ∧ vRunOk i.tm.nregs (fmt == .f64) c f.a = true ∧ at_ i % 16 = 0 ∧
          at_ i + setBytes fmt c ≤ i.tm.spadSize ∧ i.tm.guarded (at_ i) (setBytes fmt c) = false ∧ i.tm.pendingAt (at_ i) (setBytes fmt c) = false)
        (fun s i t => t = (s.passUnit i).issueMat i.unit.team
          (slotOp i { gangs := [], instr := .cturn h fmt tr f, recs := [], writes := [(at_ i, setBytes fmt c)],
                      words := BitVec.ofNat 64 (at_ i) :: (List.range (32 * c)).map (fun k =>
                        if (i.active h).contains (k / c) then BitVec.ofNat 64 (i.g.runElem (fmt == .f64) f.a (k % c) (k / c) % 2 ^ fmtWidth fmt) else 0) }))) ∧
    (∀ k, f.d = .t k →
      let cols := fun (i : Issuer) (o : Operand) => (List.range (32 * f.imm.toNat)).map (fun q =>
        if (i.active h).contains (q % 32) then BitVec.ofNat 64 (i.g.runElem false o (q / 32) (q % 32) % 2 ^ fmtWidth fmt) else (0 : W64))
      GangCompletes (.cturn h fmt false f) h
        (fun _ i => one true f.d [f.d] i ∧ (fmt = .bf16 ∨ fmt = .f16 ∨ fmt = .f32) ∧ 0 < f.imm.toNat ∧ f.imm.toNat ≤ 16 ∧
          vRunOk i.tm.nregs false f.imm.toNat f.a = true ∧ vRunOk i.tm.nregs false f.imm.toNat f.b = true ∧
          (∀ p, i.tm.pool = some p → colBlock fmt ≤ p.block) ∧ i.tm.placeChain fmt f.imm.toNat = .ok place)
        (issued (.cturn h fmt false f) (fun _ => []) (fun i => cols i f.a ++ cols i f.b))) ∧
    GangCompletes (.tmul h f) h
      (fun s i => three i ∧ tFmt (A i) = tFmt (B i) ∧ tLoc (A i) = 0 ∧ tLoc (B i) = 0 ∧
        (if tKind (A i) = 0 ∨ tKind (B i) = 0 then place = .zero (tFmt (A i))
         else if tKind (A i) = 1 ∧ tKind (B i) = 1 then s.placeDense i.tm (D i) (accFmt (tFmt (A i))) = .ok place
         else i.tm.placeChain (tFmt (A i)) (if tKind (A i) = 1 then tRank (B i) else if tKind (B i) = 1 then tRank (A i) else min (tRank (A i)) (tRank (B i))) = .ok place))
      (issued (.tmul h f) (fun i => [A i, B i]) (fun _ => [])) ∧
    GangCompletes (.tadd h f) h
      (fun s i => three i ∧ taddFmtOk (A i) (B i) = true ∧
        (if tKind (A i) = 1 ∨ tKind (B i) = 1 then s.placeDense i.tm (D i) (accFmt (tFmt (A i))) = .ok place
         else if tKind (A i) = 0 ∧ tKind (B i) = 0 then place = .zero (tFmt (A i))
         else if 32 < tRank (A i) + tRank (B i) then s.placeDense i.tm (D i) (accFmt (tFmt (A i))) = .ok place
         else i.tm.placeChain (tFmt (A i)) (tRank (A i) + tRank (B i)) = .ok place))
      (issued (.tadd h f) (fun i => [A i, B i]) (fun _ => [])) ∧
    GangCompletes (.tscl h f) h (fun s i => two false i ∧ sOk f.b = true ∧ s.placeLike i.tm (D i) (A i) = .ok place)
      (issued (.tscl h f) (fun i => [A i]) (fun i => [i.g.rdS (sIdx f.b)])) ∧
    GangCompletes (.ttrn h f) h (fun s i => two false i ∧ s.placeLike i.tm (D i) (A i) = .ok place) (issued (.ttrn h f) (fun i => [A i]) (fun _ => [])) ∧
    GangCompletes (.tdense h f) h
      (fun s i => two true i ∧ (tLoc (A i) = 1 ∧ f.a = f.d ∨ s.placeDense i.tm (D i) (accFmt (tFmt (A i))) = .ok place))
      (fun s i t => (tLoc (A i) = 1 ∧ f.a = f.d → t = s.passUnit i) ∧
        (¬ (tLoc (A i) = 1 ∧ f.a = f.d) → issued (.tdense h f) (fun i => [A i]) (fun _ => []) s i t)) ∧
    GangCompletes (.tmv h f) h
      (fun _ i =>
        let w64 := tFmt (A i) == .f64
        one false f.a [f.a] i ∧ (∃ k, f.d = .v k) ∧ (∃ k, f.b = .v k) ∧ laneSrcOk i.tm.nregs w64 f.d = true ∧ laneSrcOk i.tm.nregs w64 f.b = true ∧
        ¬ (tLoc (A i) = 1 ∧ tFmt (A i) = .i8))
      (fun s i t => t = (s.passUnit i).issueMat i.unit.team
        ((slotOp i { gangs := [], instr := .tmv h f, recs := [A i],
                     words := BitVec.ofNat 64 (laneMask (i.active h)) :: (List.range 32).map (fun l =>
                       if (i.active h).contains l then BitVec.ofNat 64 (i.g.rdReg (tFmt (A i) == .f64) f.b l) else 0) }).reading i.tm [A i])) ∧
    GangCompletes (.trnd h abs f) h
      (fun s i => one true f.d [f.d] i ∧ tKind (D i) ≠ 1 ∧ sOk f.b = true ∧ tauOk ((i.g.rdS (sIdx f.b)).toNat % 2 ^ 32) = true ∧
        (if tKind (D i) = 0 then i.tm.ccBusy i.unit.gang = false
         else (∀ r ∈ i.tm.srcRuns (D i), i.tm.pendingAt r.1 r.2 = false) ∧ s.freeSlot i.tm .f32 = some n))
      (fun s i t => (tKind (D i) = 0 → t = s.passWith i (fun g => g.setCc ccDns false)) ∧
        (tKind (D i) ≠ 0 → t = ((s.passUnit i).modTeam i.unit.team (fun t => t.takeSlot .f32 n)).issueMat i.unit.team
          { (slotOp i { gangs := [], instr := .trnd h abs f, recs := [D i], words := [i.g.rdS (sIdx f.b)] }).reading i.tm [D i] with
            treg := some (tIdx f.d), dst := .round n, slots := [n], wblocks := i.tm.owned (D i), writes := i.tm.srcRuns (D i) })) ∧
    GangCompletes (.tnorm h f) h
      (fun _ i => one false f.a [f.a] i ∧ sOk f.d = true ∧ ¬ (tLoc (A i) = 1 ∧ tFmt (A i) = .i8) ∧ ∀ r ∈ i.tm.srcRuns (A i), i.tm.pendingAt r.1 r.2 = false)
      (fun s i t => t = s.passLate i h.la.toNat [(.s (sIdx f.d), BitVec.ofNat 64
        (if tKind (A i) = 0 then 0 else frobenius (tFmt (A i)) (i.tm.values i.tm.spadByte (roundNum (resSpec (tFmt (A i)))) (i.tm.owned (A i)) (A i))))]) ∧
    ∀ (s : State) (team k : Nat) (t : Team) (o : MatOp), s.team? team = some t → Tab.find? t.mops k = some o → t.matReady k o = true →
      let rd := fun a => (Tab.find? (s.mixBytes t o).1 a).getD (t.spadByte a)
      exec (.matrixOpComplete team k) s = .next (((s.mixBytes t o).2.countSkips t.core o rd).modTeam team (fun t => t.completeMat k o rd))

-- collectives, triggers and launches

/-- R163 to R167, R335, R337 to R339: `COLL` puts one collective over the group's ring, whose buffer's granules become
pending, and every gang goes on; `SPANMAP` gives a group without running collectives a new ring and the next epoch; `SPANST`
reads a word of the span state. Where the spec leaves a point open it rests on the model's choices, log entry 23. -/
def Obligations.CollectivesComplete : Prop :=
  ∀ (h : Hdr) (op : CollOp) (red : RedOp) (f : FmtT),
    (∀ s i s' w, s.Issues i → h.scp = .team → s.Starts i h 0 s' w →
      ∀ (k : BitVec 8) (pos root : Nat), f.e = .s k → k.toNat < 128 →
      let r := w.rep.rdT (tIdx f.a)
      let e := (w.rep.rdS k.toNat).toNat
      let n := bits e 0 21
      let grp := (w.rep.rdScalar f.b).toNat
      let tmo := (w.rep.rdS (sIdx f.c)).toNat
      let ring := s'.ringOrder w.tm.ctx grp
      let bytes := n * stashBytes (tFmt r)
      let abar := (w.rep.rdS (sIdx f.d)).toNat
      tOk f.a = true → sOk f.d = true → natSrcOk f.b = true → sOk f.c = true → w.repIssuer.tileStall [f.a] [] = .ok () → w.tm.recOk true r = true →
      tKind r = 1 → tLoc r = 0 → 0 < n → n ≤ 2 ^ 20 → bits e 21 11 = 0 → bits e 40 24 = 0 →
      (if op = .bcast then indexOf? (· == bits e 32 8) ring = some root else bits e 32 8 = 0 ∧ root = 0) →
      grp < 64 → 0 < tmo → tmo < 2 ^ 32 → indexOf? (· == s'.span.rank) ring = some pos → collFmtOk op (tFmt r) = true →
      (op = .alltoall → n % ring.length = 0) → w.tm.abars.contains abar = true → tU r + bytes ≤ w.tm.spadSize →
      w.tm.guarded (tU r) bytes = false → w.tm.pendingAt (tU r) bytes = false →
      let c : Coll := { ctx := w.tm.ctx, team := w.p.team, group := grp, epoch := (s'.ring w.tm.ctx grp).epoch, seq := (s'.ring w.tm.ctx grp).seq, op := op, red := red,
                        fmt := tFmt r, n := n, base := tU r, root := root, abar := abar, ring := ring, pos := pos }
      let u := (s'.passAll w.p).modRing w.tm.ctx grp (fun x => { x with seq := x.seq + 1 })
      let v : State := { u with nextId := u.nextId + 1 }
      PerformsIn (.coll h op red f) s s' w.p
        { (v.modTeam w.p.team (fun t => t.addPending (granules (tU r) bytes))) with colls := Tab.put u.colls u.nextId c }) ∧
    (∀ (vals : List (Nat × Nat)) (u : State),
      let g := fun (i : Issuer) => (i.g.rdScalar f.b).toNat
      let p := fun (i : Issuer) => (i.g.rdScalar f.c).toNat
      let ranks := vals.map (·.2)
      GangCompletes (.spanmap h f) h
        (fun s i => sOk f.a = true ∧ natSrcOk f.b = true ∧ natSrcOk f.c = true ∧ g i < 64 ∧ p i ≤ 256 ∧
          (∀ x ∈ s.colls, ¬ (x.2.ctx = i.tm.ctx ∧ x.2.group = g i)) ∧
          (∀ k < p i, ((i.g.rdS (sIdx f.a)).toNat + k) % 2 ^ 64 < 2 ^ 56) ∧
          (if p i = 0 then vals = [] ∧ u = s
           else s.globalLoad i .weak .team ((List.range (p i)).map (fun k => { lane := k, va := ((i.g.rdS (sIdx f.a)).toNat + k) % 2 ^ 64, n := 1 })) = .ok (vals, u) ∧
             (∀ x ∈ ranks, x < u.span.size) ∧ ranks.eraseDups.length = ranks.length ∧ u.span.rank ∈ ranks))
        (fun _ i t =>
          let v := u.modRing i.tm.ctx (g i) (fun r => { ranks := if p i = 0 then none else some ranks, epoch := r.epoch + 1, seq := 0 })
          t = { (v.passUnit i) with chunks := v.chunks.filter (fun c =>
            !(c.ctx == i.tm.ctx && c.group == g i && decide (c.epoch < (v.ring i.tm.ctx (g i)).epoch))) })) ∧
    (∀ k : BitVec 8, f.b = .imm k → k.toNat ≤ 4 →
      GangCompletes (.spanst h f) h (fun _ _ => sOk f.d = true)
        (GangBecomes (fun s _ g => g.wrS (sIdx f.d) (if k.toNat < 4 then s.span.live.extractLsb' (64 * k.toNat) 64
          else BitVec.ofNat 64 (s.span.rank % 2 ^ 8 + s.span.size % 2 ^ 9 * 2 ^ 8 + s.span.epoch.toNat * 2 ^ 32)))))

/-- R168 to R170, R343 to R347: `TRIGARM` arms a free slot of the context with the trigger its descriptor holds, and the
slot fires at once where its predicate is true, with Z then set; `TRIGCNT` adds to a counter or sets it and reads it back;
`TRIGDIS` disarms a slot and says whether it was armed. Where the spec leaves a point open it rests on the model's choices,
log entry 38. -/
def Obligations.TriggersComplete : Prop :=
  ∀ (h : Hdr) (f : FmtT),
    let k := fun (i : Issuer) => (i.g.rdScalar f.a).toNat
    let wing := fun (i : Issuer) => wingOfCore i.tm.core
    let at_ := fun (i : Issuer) => (i.g.rdS (sIdx f.b)).toNat
    let n := fun (i : Issuer) => (i.g.rdScalar f.b).toNat % 2 ^ 32
    let old := fun (s : State) (i : Issuer) => (s.ctrVal (ctrKey (wing i) (k i))).toNat
    let new := fun (s : State) (i : Issuer) => if f.imm.getLsbD 0 then n i else min (old s i + n i) (2 ^ 32 - 1)
    (∀ tr, GangCompletes (.trigarm h f) h
      (fun s i => natSrcOk f.a = true ∧ sOk f.b = true ∧ at_ i % 16 = 0 ∧ k i ≤ 255 ∧ at_ i + 128 ≤ i.tm.spadSize ∧ i.tm.pendingAt (at_ i) 128 = false ∧
        Tab.find? s.trig.slots (slotKey (wing i) (k i)) = none ∧ s.ownsSlot i.tm.ctx (wing i) (k i) = true ∧
        triggerOf i.tm.ctx (wing i) s.span.size (fun o => i.tm.spadNat (at_ i + o) 8) = some tr ∧ s.triggerOwned (wing i) tr = true)
      (fun s i t =>
        let fires := (s.wing (wing i)).state == .online && s.predicate (wing i) tr
        let u := s.passWith i (fun g => g.setCc ccZ fires)
        let v : State := { u with trig := { u.trig with slots := Tab.put u.trig.slots (slotKey (wing i) (k i)) tr } }
        t = if fires then v.fireSlot (slotKey (wing i) (k i)) else v)) ∧
    GangCompletes (.trigcnt h f) h
      (fun s i => (f.d = .zero ∨ sOk f.d = true) ∧ natSrcOk f.a = true ∧ natSrcOk f.b = true ∧ k i ≤ 1023 ∧ s.ownsCtr i.tm.ctx (wing i) (k i) = true)
      (fun s i t => t = (s.passWith i (fun g => match f.d with | .s r => g.wrS r.toNat (BitVec.ofNat 64 (new s i)) | _ => g)).updateCtr
        (wing i) (k i) (f.imm.getLsbD 0) (n i)) ∧
    GangCompletes (.trigdis h f) h
      (fun s i => sOk f.d = true ∧ natSrcOk f.a = true ∧ k i ≤ 255 ∧ s.ownsSlot i.tm.ctx (wing i) (k i) = true)
      (fun s i t =>
        let armed := (Tab.find? s.trig.slots (slotKey (wing i) (k i))).isSome
        let u := s.passWith i (fun g => (g.wrS (sIdx f.d) (if armed then 1 else 0)).setCc ccZ (!armed))
        t = { u with trig := { u.trig with slots := Tab.del u.trig.slots (slotKey (wing i) (k i)) } }) ∧
    ∀ (s : State) (w c m : Nat) (set : Bool), bitAt (Tab.get s.trig.ctrown 0 (ctrKey w c)).toNat 8 = true →
      let v := BitVec.ofNat 32 (if set then m else min ((s.ctrVal (ctrKey w c)).toNat + m) (2 ^ 32 - 1))
      ((s.wing w).state = .online → s.updateCtr w c set m =
        ({ s with trig := { s.trig with counters := Tab.set s.trig.counters 0 (ctrKey w c) v } } : State).evaluate w (some c)) ∧
      ((s.wing w).state ≠ .online → s.updateCtr w c set m = s.modWing w (fun x => { x with queued := x.queued ++ [(c, set, m)] }))

/-- R38, R39, R190, R191, R255, R256, R348 to R351: `LAUNCH` reads a record and starts a grid of the launch, whose number sD
receives; `CJOIN` waits for one child or all and receives a status; `LABORT` aborts the launch; `TRQ` reads or drops entries
of the gang's trap queue; `PERF` reads a counter. Where the spec leaves a point open it rests on the model's choices, log
entries 26 and 32. -/
def Obligations.LaunchesComplete : Prop :=
  ∀ (h : Hdr),
    (∀ (f : FmtT) (L : Launch) (parent : Grid) (vals : List (Nat × Nat)) (u : State),
      let a := fun (i : Issuer) => (i.g.rdS (sIdx f.a)).toNat
      GangCompletes (.launch h f) h
        (fun s i => sOk f.d = true ∧ sOk f.a = true ∧ a i % 64 = 0 ∧ a i + 64 ≤ 2 ^ 56 ∧ s.launch? i.tm.launch = some L ∧ Tab.find? L.grids i.tm.grid = some parent ∧
          parent.depth < 12 ∧ (L.grids.filter (fun p => !p.2.done)).length < 65535 ∧
          s.globalLoad i .weak .team ((List.range 8).map (fun k => ({ lane := k, va := a i + 8 * k, n := 8 } : LaneAcc))) = .ok (vals, u) ∧
          u.setsWait i.tm.ctx (recOf (vals.flatMap (fun p => leBytes 8 p.2))) = false)
        (fun _ i t =>
          let n := L.grids.length
          let x := recOf (vals.flatMap (fun p => leBytes 8 p.2))
          let w := u.noteSets i.tm.ctx x
          let c := w.childGrid i L parent x
          let v := ((w.modLaunch i.tm.launch (fun L =>
            { L with grids := Tab.modify (Tab.put L.grids n c.1) i.tm.grid (fun p => if c.1.done then p else { p with kids := p.kids + 1 }) })).modTeam
              i.unit.team (fun t => { t with kids := t.kids ++ [n] })).passWith i (fun g => g.wrS (sIdx f.d) (BitVec.ofNat 64 n))
          t = if c.2 then v.contextError i.tm.launch else v)) ∧
    (∀ (f : FmtT) (L : Launch),
      let n := fun (i : Issuer) => (i.g.rdScalar f.a).toNat
      let ns := fun (i : Issuer) => if n i = 0 then i.tm.kids else [n i]
      let retired := fun (i : Issuer) => ∀ k ∈ ns i, ∀ g, Tab.find? L.grids k = some g → g.done = true
      ∀ s i s' i', s.Issues i → h.scp = .gang → s.GangStarts i s' i' → sOk f.d = true → natSrcOk f.a = true → (n i' = 0 ∨ n i' ∈ i'.tm.kids) →
        s'.launch? i'.tm.launch = some L →
        (retired i' → PerformsIn (.cjoin h f) s s' i'.performer
          ((((ns i').foldl (fun s k => s.mergeChild i'.tm.launch k) s').passWith i' (fun g => g.wrS (sIdx f.d) ((firstStatus L (ns i')).setWidth 64))).dropL1 i'.tm.core)) ∧
        (¬ retired i' → exec (.cjoin h f) s = .next ((s'.waitAll i'.performer (.join (ns i'))).trySave i'.unit.team))) ∧
    (∀ f : FmtT, GangCompletes (.labort h f) h (fun _ i => natSrcOk f.a = true ∧ (i.g.rdScalar f.a).toNat < 2 ^ 16)
      (fun s i t => t = s.abortLaunch i.tm.launch stLabort (BitVec.ofNat 16 (i.g.rdScalar f.a).toNat))) ∧
    (∀ f : FmtR,
      let n := fun (i : Issuer) => (i.g.rdScalar f.a).toNat
      (∀ b : BitVec 8, f.b = .op (.imm b) → b.toNat ≤ 4 →
        GangCompletes (.trq h false f) h (fun _ i => i.g.handler = true ∧ sSrcOk f.a = true ∧ sOk f.d = true)
          (fun s i t =>
            (∀ e, i.g.queue[n i]? = some e → GangBecomes (fun _ _ g => (g.wrS (sIdx f.d) (e.word b.toNat)).setCc ccZ false) s i t) ∧
            (i.g.queue[n i]? = none → GangBecomes (fun _ _ g => (g.wrS (sIdx f.d) 0).setCc ccZ true) s i t))) ∧
      GangCompletes (.trq h true f) h (fun _ i => i.g.handler = true ∧ sSrcOk f.a = true ∧ 0 < n i ∧ n i < i.g.queue.length)
        (GangBecomes (fun _ i g => { g with queue := g.queue.eraseIdx (n i) }))) ∧
    ∀ (f : FmtR) (c : PerfCtr), GangCompletes (.perf h c f) h (fun _ _ => sOk f.d = true)
      (fun s i t => t = (s.readPerf i c).2.passWith i (fun g => g.wrS (sIdx f.d) (s.readPerf i c).1) ∧
        (c = .gissue → s.readPerf i c = (i.g.gissue, s)) ∧ (c = .gparted → s.readPerf i c = (i.g.gparted, s)))

-- events inside the part

/-- R13, R94, R103, R153, R158, R162, R164 to R167, R170, R201, R202, R342, R345, R383: what engines, collectives and trigger actions do by
themselves: a segment lands, is put on the fix-up list, also behind an earlier one with its bytes, or fails at its replay; an
operation makes its arrival or resumes its gang; a collective is granted its staging, takes a chunk, or times out; an action of
a trigger goes on, skips words, replays them and completes. Where the spec leaves a point open it rests on the model's choices,
log entries 22, 23 and 38. -/
def Obligations.EngineEventsComplete : Prop :=
  (∀ (s : State) (team op seg : Nat) (t : Team) (o : EngOp) (q : Seg), s.engOp? team op = some (t, o) → o.segs.find? (fun q => q.ord == seg) = some q →
    o.segs.any q.after = false →
    (o.fix.any q.after = true → exec (.engineLand team op seg) s = .next (s.segSkipped team op q)) ∧
    (o.fix.any q.after = false →
      (∀ s' e, s.trySeg team t q = .done s' e → exec (.engineLand team op seg) s = .next (s'.segDone team op q e)) ∧
      (∀ p, s.trySeg team t q = .fault p → exec (.engineLand team op seg) s = .next (s.segSkipped team op q)) ∧
      (s.trySeg team t q = .bad → exec (.engineLand team op seg) s = .next (s.segSkipped team op q)))) ∧
  (∀ (s : State) (team op : Nat) (t : Team) (o : EngOp) (q : Seg), s.engOp? team op = some (t, o) → s.fixReady team t o = true → o.fix = [q] →
    (∀ s' e, s.trySeg team t q = .done s' e → exec (.fixupReplay team op) s = .next (s'.segDone team op q e)) ∧
    (∀ p, s.trySeg team t q = .fault p → exec (.fixupReplay team op) s = .next (s.segDone team op q errFault)) ∧
    (s.trySeg team t q = .bad → exec (.fixupReplay team op) s = .next (s.segDone team op q errFault))) ∧
  (∀ (s : State) (team op : Nat) (t : Team) (o : EngOp), s.engOp? team op = some (t, o) → o.finished = true →
    (∀ a, o.arrives = true → o.abar = some a →
      let u := (s.modTeam team (fun t => t.opArrives op o)).countDone o.counter
      ((∀ t' : Team, t'.opArrives op o = { (t'.modAbar a (fun b => b.arrive (if t'.liveGangs = [] then 0 else o.err))) with ops := Tab.del t'.ops op })) ∧
      (o.notify = none → exec (.engineArrival team op) s = .next u) ∧
      (∀ r c, o.notify = some (r, c) → exec (.engineArrival team op) s = .next
        (if (o.err &&& errFault != 0) = true then u else if r = u.span.rank then u.updateCtr (c / 1024) (c % 1024) false 1
          else u.sendTo r (.xput r (s.ctx t.ctx).asid 0 [] (some c))))) ∧
    (∀ a, o.cont = some a → errTraps o.err = false → (t.gang o.gang).handler = false → exec (.copyYieldResume team op) s = .next
      ((((s.modTeam team (fun t => { t with ops := Tab.del t.ops op })).countDone o.counter).modGang team o.gang (fun g => g.goTo g.liveSlices a)).dropL1 t.core))) ∧
  (∀ (s : State) (id : Nat) (c : Coll) (t : Team), Tab.find? s.colls id = some c → s.team? c.team = some t →
    (s.grantable id c = true → exec (.collStagingGrant id) s = .next
      (((({ s with colls := Tab.modify s.colls id (fun c => { c with granted := true }) } : State).collStart id c t).collCheck id).collHeld id c)) ∧
    (c.granted = true → c.expired = false →
      (t.status ≠ .saved → exec (.collTimeout id) s = .next (s.collEnd id c errTimeout)) ∧
      (t.status = .saved → exec (.collTimeout id) s = .next { s with colls := Tab.modify s.colls id (fun c => { c with expired := true }) }))) ∧
  (∀ (s : State) (c : Chunk),
    (s.slotOfAsid c.ctx = none → exec (.chunkArrival c) s = .next s) ∧
    ∀ k, s.slotOfAsid c.ctx = some k →
      let c' := { c with ctx := k }
      (c.epoch < (s.ring k c.group).epoch → exec (.chunkArrival c) s = .next s) ∧
      ((s.ring k c.group).epoch < c.epoch →
        (s.chunks.length < 256 → exec (.chunkArrival c) s = .next { s with chunks := s.chunks ++ [c'] }) ∧
        (1024 ≤ s.chunks.length → exec (.chunkArrival c) s = .next s)) ∧
      (∀ id x, c.epoch = (s.ring k c.group).epoch → List.find? (fun p => chunkNames c' p.2) s.colls = some (id, x) →
        exec (.chunkArrival c) s = .next (if x.granted then s.collTake id c' else { s with chunks := s.chunks ++ [c'] })) ∧
      (c.epoch = (s.ring k c.group).epoch → List.find? (fun p => chunkNames c' p.2) s.colls = none →
        exec (.chunkArrival c) s = .next (if c.seq < (s.ring k c.group).seq then s else { s with chunks := s.chunks ++ [c'] }))) ∧
  (∀ (s s' : State) (t : Trigger) (n : Nat), t.len ≠ 0 →
    (∀ e, s.actWord t t.src t.dst = .done s' e → s.actRun t (n + 1) = s'.actRun { t with src := t.src + 4, dst := t.dst + 4, len := t.len - 4, err := t.err ||| e } n) ∧
    (s.actWord t t.src t.dst = .bad ∨ (∃ p, s.actWord t t.src t.dst = .fault p) →
      s.actRun t (n + 1) = s.actRun { t with src := t.src + 4, dst := t.dst + 4, len := t.len - 4, err := t.err ||| 0, fix := t.fix ++ [(t.src, t.dst)] } n)) ∧
  ∀ (s : State) (ctx idx : Nat) (t : Trigger), (s.ctx ctx).actions[idx]? = some t → (s.ctx ctx).resident = true → s.actAbsent t = none →
    let goes := fun (u : State) (t' : Trigger) => if t'.len = 0 ∧ t'.fix = [] then (u.modCtx ctx (fun c => { c with actions := c.actions.eraseIdx idx })).actDone t'
      else u.modCtx ctx (fun c => { c with actions := c.actions.set idx t' })
    (t.len ≠ 0 → s.actWord t t.src t.dst ≠ .waits →
      let r := (s.pickBelow (t.len / 4)).2.actRun t ((s.pickBelow (t.len / 4)).1 + 1)
      exec (.triggerActionComplete ctx idx 0) s = .next (goes r.1 r.2)) ∧
    (t.len = 0 → s.actReady t = true →
      let r := s.actReplay t t.fix
      exec (.triggerActionComplete ctx idx (if s.actFails t then errFault else 0)) s = .next (goes r.1 { t with fix := [], err := r.2 }))

/-- R39 to R42, R171, R174, R175, R182, R183, R187 to R189, R202, R390, R396 to R399, R404, R411: the dispatchers take a record
and start its launch, stop a queue at a SERIAL record after a failed one, close and open segments and replay them, place teams
and retire them; a launch commits, or reports a merge conflict; a full pool is extended or its policy applies; an irrevocable
launch publishes. What one event makes ready to commit is put in the order of queues. Where the spec leaves a point open it
rests on the model's choices, log entries 32 and 39. -/
def Obligations.LaunchEventsComplete : Prop :=
  (∀ (s : State) (ctx idx : Nat) (r : ReadyRec), s.mayTake ctx idx = some r →
    let u := s.modCtx ctx (fun c => { c with ready := c.ready.filter (fun x => x != r), turn := (r.queue + 1) % 64 })
    let x := r.lrec
    let stops := recSerial x = true ∧ ∃ n ∈ (s.queue ctx r.queue).bad, n < r.ord
    (stops → recType x ≠ 1 → recType x ≠ 2 → exec (.dispatch ctx idx) s = .next ((s.modQueue ctx r.queue (fun q => { q with cstop := true })).raiseIstat ctx istatCstop)) ∧
    (¬ stops →
      (∀ sets, recType x ≠ 1 → recType x ≠ 2 → u.checkRec ctx x false = .ok sets → exec (.dispatch ctx idx) s = .next ((u.noteSets ctx x).startLaunch ctx r x sets none).2) ∧
      (∀ st, recType x ≠ 1 → recType x ≠ 2 → u.checkRec ctx x false = .reject st →
        exec (.dispatch ctx idx) s = .next (((u.newTag ctx).2.endRecord ctx r.queue r.ord x st 0 r.attempt).inQueueOrder ctx s.nextId)) ∧
      (recType x = 1 → x.code = 0 → x.frame = 0 → x.trapvec = 0 → x.dims = 0 → x.shape = 0 → x.setptr = 0 → bits x.attr.toNat 28 4 = 0 →
        exec (.ckpt ctx idx) s = .next ((u.modCtx ctx (fun c =>
          if recSeg x = 15 then { c with openSeg := Tab.del c.openSeg r.queue }
          else { c with openSeg := Tab.put c.openSeg r.queue (recSeg x), segs := Tab.put c.segs (recSeg x) {} })).endRecord ctx r.queue r.ord x stCommitted 0 r.attempt)) ∧
      (∀ g, recType x = 2 → (u.ctx ctx).recomputeOk x = true → Tab.find? (u.ctx ctx).segs (recSeg x) = some g →
        let p : Replay := { rr := r, lo := x.code.toNat, hi := x.frame.toNat, scratch := x.trapvec.toNat, todo := g.recs, mem0 := s.mem, remote0 := s.remote }
        exec (.recompute ctx idx) s = .next ((u.modCtx ctx (fun c => { c with replays := Tab.put c.replays r.queue p })).stampReady ctx r.queue)))) ∧
  (∀ (s : State) (ctx q : Nat) (p : Replay) (t : State), (s.ctx ctx).replays = [(q, p)] → s.replayStep ctx q p = some t →
    exec (.replayNext ctx) s = .next (t.inQueueOrder ctx s.nextId)) ∧
  (∀ (s : State) (launch grid core : Nat) (L : Launch) (g : Grid), s.launch? launch = some L → Tab.find? L.grids grid = some g →
    L.held = false → s.fleet.halt = false → (s.ctx L.ctx).saving = false → g.done = false → g.placed < g.total → s.fits L.ctx g.lrec core = true →
    s.heldBack launch grid = false → s.outranked launch grid = false →
    (recCohort g.lrec = false → exec (.teamPlace launch grid core) s = .next (s.placeTeam launch grid core)) ∧
    (∀ t, recCohort g.lrec = true → s.placeAll launch grid L.ctx core g.lrec g.total = some t → exec (.teamPlace launch grid core) s = .next t)) ∧
  (∀ (s : State) (team : Nat) (t : Team), s.team? team = some t → t.status = .running → t.liveGangs = [] → t.ops = [] → t.mops = [] →
    (∀ p ∈ s.colls, p.2.team ≠ team) →
    exec (.teamRetire team) s = .next (((s.modLaunch t.launch (fun L => { L with grids := Tab.modify L.grids t.grid (fun g =>
      { g with retired := g.retired + 1, wsets := (if L.it then Tab.put g.wsets t.index t.ws else g.wsets) }) })).removeTeams t.ctx [team] (fun _ => false)).checkGrid
        t.launch 14 t.grid)) ∧
  ∀ (s : State) (launch : Nat) (L : Launch), s.launch? launch = some L → L.held = false →
    (L.replay = none → s.commitTurn L.ctx L.readyAt = true →
      (∀ va lo hi, L.clash = some (va, lo, hi) →
        exec (.launchCommit launch) s = .next (((s.reportMerge L.ctx va lo hi).abortLaunch launch stMerge).inQueueOrder L.ctx s.nextId)) ∧
      (L.clash = none → (∀ p ∈ L.finalWrites s.commByte, s.reachable p.1 = true) → exec (.launchCommit launch) s = .next
        (((((s.commitWrites L.ctx launch (L.finalWrites s.commByte)).appendSeg L).dropLaunch launch).endRecord L.ctx L.queue L.ord L.lrec stCommitted 0 L.attempt).inQueueOrder
          L.ctx s.nextId))) ∧
    (L.poolNeed ≠ 0 → s.poolSize L.ctx < s.poolUsed L.ctx + L.poolNeed →
      let c := s.ctx L.ctx
      let n := min (c.upcnt + 256) c.upmax
      let at_ := s.drv.ctxbase.toNat + 64 * L.ctx + 56
      let u := s.raiseIstat L.ctx istatPool
      s.reachable at_ = true →
      (c.upcnt < c.upmax → exec (.poolFull launch) s = .next (((s.setCommAll (cellsAt at_ (leBytes 2 n))).modCtx L.ctx
        (fun c => { c with upcnt := n })).modLaunch launch (fun L => { L with poolNeed := 0 }))) ∧
      (c.upmax ≤ c.upcnt → (L.overIrr && L.replay.isNone) = false → exec (.poolFull launch) s = .next ((u.abortLaunch launch stOverflow).inQueueOrder L.ctx u.nextId)) ∧
      (c.upmax ≤ c.upcnt → (L.overIrr && L.replay.isNone) = true →
        exec (.poolFull launch) s = .next (u.modLaunch launch (fun L => { L with publishing := true, poolNeed := 0 })))) ∧
    (L.publishing = true → (∀ p ∈ s.launches, p.2.ctx = L.ctx → p.1 ≠ launch → L.disp ≤ p.2.disp ∧ p.2.irrev = false) →
      (∀ p ∈ L.lines, s.reachable p.1 = true) →
      exec (.irrevocablePublish launch) s = .next (((s.commitWrites L.ctx launch L.lines).modLaunch launch (fun L =>
        { L with irrev := true, publishing := false, lines := [], sig := [] })).inQueueOrder L.ctx s.nextId))

/-- R36, R42, R102, R103, R147, R192, R198 to R201, R222, R403, R406, R410: the pager's answers, late results, and the
events of pre-emption. Slices that wait for a resolved page may issue again, and a page given up faults; a forced save, the
end of a drain, the pre-emption of a parked team and a restoration happen where they may. Where the spec leaves a point open
it rests on the model's choices, log entries 29 and 30. -/
def Obligations.PreemptionEventsComplete : Prop :=
  (∀ (s : State) (ctx page : Nat),
    exec (.pageFaultResolved ctx page true) s = .next ((s.atPage ctx page).foldl (fun s q =>
      s.modGang q.1 q.2.1 (fun g => g.modSlices q.2.2 (fun x => { x with wait := .ready })))
      (s.modCtx ctx (fun c => { c with lost := c.lost.filter (· != page) }))) ∧
    exec (.pageFaultResolved ctx page false) s = .next ((s.atPage ctx page).foldl
      (fun s q => s.takeTrap q.1 q.2.1 q.2.2 ((s.gang q.1 q.2.1).trapEntry none q.2.2 cPage ((s.gang q.1 q.2.1).pageAddr q.2.2)
        (if (s.gang q.1 q.2.1).plainDone then 1 else 0)))
      (s.givePage ctx page))) ∧
  (∀ (s : State) (u : UnitId) (idx : Nat) (p : Pending), (s.gang u.team u.gang).pend[idx]? = some p → p.writes ≠ [] →
    ∃ w ∈ p.writes,
      let rest := p.writes.filter (fun x => x.1.place ≠ w.1.place)
      exec (.longLatencyResult u idx) s = .next ((s.pickBelow p.writes.length).2.modGang u.team u.gang (fun g =>
        { ((p.writes.filter (fun x => x.1.place = w.1.place)).foldl Gang.writeDest g) with
          pend := if rest = [] then g.pend.eraseIdx idx else g.pend.set idx { p with writes := rest } }))) ∧
  (∀ (s : State) (team : Nat) (t : Team), s.team? team = some t →
    (∀ u, t.prq = true → t.status ≠ .saved → s.saveAll false (s.together team) = some u → exec (.prqDeadline team) s = .next u) ∧
    (t.drains = true → exec (.saveDrainTimeout team) s = .next (s.modTeam team (fun t => { t with ops := t.ops.map (fun (p : Nat × EngOp) =>
      (p.1, { p.2 with segs := p.2.segs.filter (fun q => !q.kind.lands), fix := p.2.fix ++ p.2.segs.filter (fun q => q.kind.lands) })) }))) ∧
    (t.parked = true → t.prq = false → s.wantsRoom t.ctx = true → exec (.parkPreempt team) s = .next ((s.modTeam team (fun t => { t with parkedOut := true })).raisePrq [team])) ∧
    (∀ core, t.status = .saved → (s.ctx t.ctx).saving = false → s.fleet.halt = false → s.coreFor t core = some core →
      (∀ a n image, t.saveAt = some (a, n, image) → s.unitsOpen a n = true) →
      (∃ id ∈ s.together team, ∃ x, s.team? id = some x ∧ x.status = .saved ∧ s.eligible id x = true) →
      (t.cohort = false → s.imageOk t = true → exec (.teamRestore team core) s = .next (s.restoreTeam team core)) ∧
      (∀ u, (s.restoreTeam team core).restoreAll core (s.together team) = some u → exec (.teamRestore team core) s = .next u))) ∧
  (∀ (s : State) (slot : Nat), s.drv.ctxBusy = true → s.drv.ctxSlot = slot → (s.ctx slot).saving = true →
    (∀ p ∈ s.teams, p.2.ctx = slot → p.2.status ≠ .running) →
    exec (.ctxSaveDone slot) s = .next { s.modCtx slot (fun c => { c with saving := false }) with drv := { s.drv with ctxBusy := false, ctxDone := true } }) ∧
  ∀ (s : State), s.drv.tlbBusy = true → exec .tlbMarkDrained s = .next { s with drv := { s.drv with tlbBusy := false } }

/-- R102, R125, R342, R386, R393 to R396, R400, R401, R408, R411, R412: what the host and other devices do through windows and
registers, and what registers read as. Where the spec leaves a point open it rests on the model's choices, log entries 16 and 40. -/
def Obligations.HostWindowCompletes : Prop :=
  (∀ (s : State) (a n : Nat) (data : List Byte), s.boot.powered = true →
    (a + n ≤ 4 * wingBytes → (∀ k < n, s.present (k + a) = true ∧ s.reachable (k + a) = true) →
      let marked := s.markedWords ((List.range n).map (· + a))
      exec (.hdmRead a n) s = .next ((s.send (.hostData ((List.range n).map (fun k => s.commByte (k + a))) (marked != 0))).uncorrectable marked)) ∧
    (a + n ≤ 4 * wingBytes → (∃ k < n, s.present (k + a) = true ∧ s.reachable (k + a) = false) →
      exec (.hdmRead a n) s = .next { s with inbox := s.inbox ++ [.hdmRead a n] }) ∧
    (a + data.length ≤ 4 * wingBytes → (∃ k < data.length, s.present (a + k) = true ∧ s.reachable (a + k) = false) →
      exec (.hdmWrite a data) s = .next { s with inbox := s.inbox ++ [.hdmWrite a data] }) ∧
    (a + data.length ≤ 4 * wingBytes → (∀ k < data.length, s.present (a + k) = true ∧ s.reachable (a + k) = true) →
      exec (.hdmWrite a data) s = .next (s.setCommAll ((List.range data.length).zip data |>.map (fun p => (a + p.1, p.2)))))) ∧
  (∀ (s : State) (asid addr k : Nat) (bs : List Byte) (ps : List PageTr), s.slotOfAsid asid = some k → s.segPages k .write addr bs.length = .ok ps →
    exec (.remoteLineRequest asid addr (some bs)) s =
      .next (s.setCommAll ((List.range bs.length).zip bs |>.map (fun q => ((pageOf ps (addr + q.1)).loc (addr + q.1), q.2))))) ∧
  (∀ (s : State) (slot q : Nat) (val : W64), s.hasQueue slot q = true →
    exec (.qrsv slot q) s = .next ((s.reserveSlot slot q).2.send (.qrsv (BitVec.ofNat 64 (s.queue slot q).qwp))) ∧
    exec (.qdb slot q) s = .next (s.lookQueue slot q) ∧
    ((s.queue slot q).fetches = true → exec (.queuePollTimer slot q) s = .next (s.lookQueue slot q)) ∧
    (exec (.qreset slot q val) s = .next (if val = 1 ∧ (s.queue slot q).en = false then
      s.modQueue slot q (fun q => { q with qrp := q.qwp, ovr := false, cstop := false, wait := false, bad := [] }) else s)) ∧
    ((s.queue slot q).cstop = true → exec (.cstopClear slot q) s = .next (s.modQueue slot q (fun x => { x with
      cstop := false, bad := match (s.ctx slot).nextOrd q with | some n => x.bad.filter (fun m => decide (n < m)) | none => [] })))) ∧
  (∀ (s : State) (slot : Nat) (val : W64), (s.ctx slot).resident = true → val.toNat ≤ (s.ctx slot).bncSeq →
    exec (.bncrp slot val) s = .next (((s.ctx slot).bounces.filter (fun b => decide (b.upto ≤ val.toNat))).foldl (fun s b => s.countDone b.notify)
      (s.modCtx slot (fun c => { c with bncrp := val.toNat, bounces := c.bounces.filter (fun b => decide (val.toNat < b.upto)) })))) ∧
  ∀ (s : State) (off : Nat) (val : W64),
    let write := fun (bar : Bool) (off : Nat) => exec (.registerWrite bar off val) s
    (off % 8 ≠ 0 → ∀ bar, write bar off = .next s) ∧
    (s.boot.powered = true → write false 0x0 = .next { s with drv := { s.drv with ctxbase := val } } ∧
      write false 0x28 = .next { s with drv := { s.drv with savebase := val } } ∧ write false 0xC008 = .next { s with boot := { s.boot with addr := val } }) ∧
    write false 0x8 = (match bits val.toNat 8 4 with
      | 1 => exec (.ctxLoad (bits val.toNat 0 8)) s | 2 => exec (.ctxSave (bits val.toNat 0 8)) s | 3 => exec (.ctxResume (bits val.toNat 0 8)) s
      | 4 => exec (.ctxKill (bits val.toNat 0 8)) s | 5 => exec (.ctxUnload (bits val.toNat 0 8)) s | 6 => exec (.ctxUpool (bits val.toNat 0 8)) s
      | _ => .next (if s.boot.powered then { s with drv := { s.drv with ctxErr := true } } else s)) ∧
    (∀ w k, w < 4 → k < 256 → write false (0x2000 + w * 0x800 + 8 * k) = exec (.trgownWrite w k val) s) ∧
    (∀ w k, w < 4 → k < 1024 → write false (0x4000 + w * 0x2000 + 8 * k) = exec (.ctrownWrite w k val) s) ∧
    write false 0xD000 = exec (.modeWrite val) s ∧
    (∀ slot q, slot < 256 → q < 64 → (s.ctx slot).resident = true →
      write true (8192 * slot + 64 * q) = .next (s.modQueue slot q (fun x => { x with qbase := BitVec.ofNat 64 (val.toNat / 4096 * 4096) })) ∧
      write true (8192 * slot + 64 * q + 8) = .next (s.modQueue slot q (fun x => { x with qcfg := BitVec.ofNat 64 (val.toNat % 64) })) ∧
      write true (8192 * slot + 64 * q + 0x30) = exec (.qdb slot q) s) ∧
    (∀ bar len, off % 8 ≠ 0 ∨ len ≠ 8 → s.readReg bar off len = BitVec.allOnes 64) ∧
    s.readReg false 0x0 8 = s.drv.ctxbase ∧ s.readReg false 0xC008 8 = s.boot.addr ∧ s.readReg false 0xD000 8 = s.fleet.mode ∧
    (∀ slot q, slot < 256 → q < 64 → (s.ctx slot).resident = true →
      s.readReg true (8192 * slot + 64 * q) 8 = (s.queue slot q).qbase ∧
      (s.readReg true (8192 * slot + 0x1010) 8).getLsbD q = ((s.queue slot q).ovr || (s.queue slot q).cstop)) ∧
    ∀ core, core < 640 → (s.readReg false (0x400 + 8 * core) 8).getLsbD 1 = (s.runningTeams (fun t => t.core == core)).isEmpty

/-- R105, R106, R136, R198, R402, R403, R406, R409, R411 to R413, R421, R422, R427: the driver's commands. Each is refused
with ERR where its rule says so, and else has its effect at once or starts an operation. Where the spec leaves a point open
it rests on the model's choices, log entry 40. -/
def Obligations.DriverCommandsComplete : Prop :=
  ∀ (s : State) (val : W64), s.boot.powered = true →
    (∀ slot : Nat, slot < 256 →
      let c := s.ctx slot
      let ready : State := { s with drv := { s.drv with ctxSlot := slot, ctxDone := false, ctxErr := false } }
      let done := fun (t : State) => ({ t with drv := { t.drv with ctxDone := true } } : State)
      let read : State := { s.noteRead ((List.range 64).map (· + s.entryAt slot)) with drv := ready.drv }
      (s.drv.ctxBusy = true → ∀ ins ∈ [Instr.ctxLoad slot, .ctxSave slot, .ctxResume slot, .ctxKill slot, .ctxUnload slot, .ctxUpool slot],
        exec ins s = .next { s with drv := { s.drv with ctxErr := true } }) ∧
      (s.drv.ctxBusy = false →
        (s.present (s.entryAt slot) = true → s.reachable (s.entryAt slot) = true → entryValid (s.ctxEntry slot) = true → c.resident = false →
          s.slotOfAsid (bits (s.ctxEntry slot) 0 16) = none →
          exec (.ctxLoad slot) s = .next (done (read.modCtx slot (fun c => c.load (s.ctxEntry slot) s.closedWings)))) ∧
        (s.present (s.entryAt slot) = true → s.reachable (s.entryAt slot) = false →
          exec (.ctxLoad slot) s = .next { s with inbox := s.inbox ++ [.ctxLoad slot] }) ∧
        (c.resident = true →
          (∃ t : State, t = (({ ready with drv := { ready.drv with ctxBusy := true } } : State).modCtx slot (fun c => { c with saving := true })).raisePrq
              (s.runningTeams (fun t => t.ctx == slot)) ∧
            exec (.ctxSave slot) s = .next { t with drv := { t.drv with ctxDone := !t.drv.ctxBusy } }) ∧
          (∃ t : State, t = ((s.launches.filter (fun p => p.2.ctx == slot && p.2.held)).map (·.1)).foldl (fun s id => s.resumeHeld id) ready ∧
            exec (.ctxResume slot) s = .next { t with drv := { t.drv with ctxDone := !t.drv.ctxBusy } }) ∧
          (∃ t : State, t = ready.killAll slot ∧ exec (.ctxKill slot) s = .next { t with drv := { t.drv with ctxDone := !t.drv.ctxBusy } }) ∧
          ((∀ p ∈ s.teams, p.2.ctx ≠ slot) → (∀ p ∈ s.launches, p.2.ctx ≠ slot) → c.replays = [] → c.ready = [] →
            exec (.ctxUnload slot) s = .next (done { ready.modCtx slot Ctx.unload with chunks := s.chunks.filter (fun ch => ch.ctx != slot) })) ∧
          (s.present (s.entryAt slot) = true → s.reachable (s.entryAt slot) = true → c.upcnt ≤ bits (s.ctxEntry slot) 464 16 → bits (s.ctxEntry slot) 464 16 ≤ 32768 → bits (s.ctxEntry slot) 384 64 % 8 = 0 →
            exec (.ctxUpool slot) s = .next (done (read.modCtx slot (fun c =>
              { c with uptab := bits (s.ctxEntry slot) 384 64, upmax := bits (s.ctxEntry slot) 464 16 }))))))) ∧
    (∀ d : Driver, d = { s.drv with tlbAsid := bits val.toNat 0 16, tlbAll := bitAt val.toNat 18, tlbErr := s.drv.tlbErr && !bitAt val.toNat 62 } →
      s.drv.tlbBusy = false →
      (bits val.toNat 16 2 = 1 → exec (.tlbMark val) s = .next
        { s.mapTlbs (fun l => l.map (fun e => if d.names e then { e with drain := true } else e)) with drv := { d with tlbBusy := true } }) ∧
      (bits val.toNat 16 2 = 2 → s.slotOfAsid d.tlbAsid = none → exec (.tlbConfirm val) s = .next
        (({ s with drv := d } : State).mapTlbs (fun l => l.filter (fun e => !(d.names e && e.drain))))) ∧
      (∀ k, bits val.toNat 16 2 = 2 → s.slotOfAsid d.tlbAsid = some k → d.tlbAll = true → exec (.tlbConfirm val) s = .next
        ((({ s with drv := d } : State).mapTlbs (fun l => l.filter (fun e => !(d.names e && e.drain)))).releaseWalks k)) ∧
      (∀ k m, bits val.toNat 16 2 = 2 → s.slotOfAsid d.tlbAsid = some k → d.tlbAll = false → ({ s with drv := d } : State).frameMove k = some m →
        (∀ p ∈ s.launches, p.2.ctx = k → p.2.tracked = true → ∀ j < 2 ^ m.size / 128,
          p.2.hit (pteLoc d.tlbold m.size d.tlbAsid (d.tlbva.toNat / 2 ^ m.size * 2 ^ m.size + 128 * j)) = false) →
        exec (.tlbConfirm val) s = .next
          ((((({ s with drv := d } : State).moveFrame m).inQueueOrder k s.nextId).mapTlbs (fun l => l.filter (fun e => !(d.names e && e.drain)))).releaseWalks k))) ∧
    (∀ w k, w < 4 → k < 256 → exec (.trgownWrite w k val) s = .next { s with trig := { s.trig with
      trgown := Tab.set s.trig.trgown 0 (slotKey w k) (ownField val),
      slots := if ownerLost (Tab.get s.trig.trgown 0 (slotKey w k)) (ownField val) then Tab.del s.trig.slots (slotKey w k) else s.trig.slots } }) ∧
    (∀ w k, w < 4 → k < 1024 →
      let old := (Tab.get s.trig.ctrown 0 (ctrKey w k)).toNat
      let new := (ownField val).toNat
      exec (.ctrownWrite w k val) s = .next { s with trig := { s.trig with
        ctrown := Tab.set s.trig.ctrown 0 (ctrKey w k) (ownField val),
        counters := if bits new 0 8 ≠ bits old 0 8 ∨ (bitAt new 8 = true ∧ bitAt old 8 = false) then Tab.del s.trig.counters (ctrKey w k) else s.trig.counters } }) ∧
    (∀ w, w < 4 →
      ((s.wing w).state = .online → 1 < s.onlineWings → ∃ u : State, u = (portsOf w).foldl (fun s p => s.modPort p (fun x => { x with state := 0 })) (s.setWing w .draining false) ∧
        exec (.wingDrain w) s = .next (u.raisePrq (u.runningTeams (fun t => wingOfCore t.core == w)))) ∧
      ((s.wing w).state ≠ .online → exec (.wingDrain w) s = .next (s.wingRefuses w)) ∧
      ((s.wing w).state = .offline →
        let lost := ((s.runningTeams (fun t => wingOfCore t.core == w)).filterMap (fun id => (s.team? id).map (·.launch))).eraseDups
        let gone := lost.foldl (fun u l => u.abortLaunch l stKilled) (s.setWing w .resetting false)
        ∃ u : State, u = (Tab.keys gone.ctxs).foldl (fun u k => u.inQueueOrder k s.nextId) gone ∧ exec (.wingReset w) s = .next { u with cores := u.cores.map (fun (p : Nat × CoreRec) => (p.1, if wingOfCore p.1 = w then { p.2 with tlb := [], l1 := [] } else p.2)) }) ∧
      ((s.wing w).state = .offline → exec (.wingOnline w) s = .next (((s.wing w).queued.foldl (fun s u => s.applyCtr w u)
        ((portsOf w).foldl (fun s p => s.modPort p (fun x => if x.disable then x else { x with state := 1 }))
          ((s.setWing w .online false).modWing w (fun x => { x with queued := [] })))).evaluate w none))) ∧
    (let f := BitVec.ofNat 64 (bits val.toNat 0 32)
      let used := Tab.get s.rep.spares 0 (bankKey f)
      let rep : Repair := { s.rep with rowret := f, fail := s.rep.fail && !bitAt val.toNat 34 }
      ((s.rep.busy = true ∨ 160 ≤ bits val.toNat 2 8) → exec (.rowretGo val) s = .next { s with rep := rep }) ∧
      (s.rep.busy = false → bits val.toNat 2 8 < 160 →
        (16 ≤ used → exec (.rowretGo val) s = .next { s with rep := { rep with fail := true } }) ∧
        (used < 16 → exec (.rowretGo val) s = .next { s with rep := { rep with busy := true, copying := f } }))) ∧
    (∀ p, exec (.retrain p) s = .next (s.modPort p (fun x => if x.disable then x else { x with state := 1 })) ∧
      ∀ on, exec (.spanctlDisable p on) s = .next (s.modPort p (fun x => { x with disable := on, state := if on then 0 else if x.disable then 1 else x.state }))) ∧
    (∀ core on, core < 640 → ∃ t : State, t = s.modCore core (fun c => { c with dis := on }) ∧
      exec (.corectlDis core on) s = .next (if on then t.raisePrq (t.runningTeams (fun x => x.core == core)) else t)) ∧
    (∀ r, exec (.spanrjGo r false) s = .next { s with span := { s.span with rjRank := r % 256, rjErr := true } } ∧
      ((s.span.size ≤ r % 256 ∨ s.reaches (r % 256) = false) →
        exec (.spanrjGo r true) s = .next { s with span := { s.span with rjRank := r % 256, rjErr := true } }) ∧
      (r % 256 < s.span.size → s.reaches (r % 256) = true → exec (.spanrjGo r true) s = .next { s with
        span := { s.span with rjRank := r % 256 }, inbox := s.inbox ++ [.livenessFlood ⟨0, BitVec.ofNat 256 (2 ^ (r % 256))⟩] })) ∧
    (∀ refused : Prop, refused = (exec (.modeWrite val) s = .next { s with fleet := { s.fleet with err := true } }) →
      (modeOk val = false → refused) ∧ (s.fleet.busy = true → refused) ∧
      (modeEcc val ≠ modeEcc s.fleet.mode → (∃ p ∈ s.ctxs, p.2.resident = true) → refused) ∧
      (modeOk val = true → s.fleet.busy = false → modeEcc val ≠ modeEcc s.fleet.mode → (∀ p ∈ s.ctxs, p.2.resident = false) →
        exec (.modeWrite val) s = .next { s with fleet := { s.fleet with busy := true, next := val } }) ∧
      (modeOk val = true → s.fleet.busy = false → modeEcc val = modeEcc s.fleet.mode → exec (.modeWrite val) s = .next (s.modeInForce val)))

/-- R41, R339, R382, R411 to R420, R422 to R428: what happens to the device by itself and at its edges: wings, rows, ports,
liveness, modes, thermal samples and droop flags, power, reset and boot, and the SPDM responder. Where the spec leaves a
point open it rests on the model's choices, log entries 33, 34, 35 and 41. -/
def Obligations.DeviceEventsComplete : Prop :=
  (∀ (s : State) (w : Nat),
    ((s.wing w).state = .draining → s.wingEmpty w = true → exec (.wingDrained w) s = .next ((s.setWing w .offline true).moveLists w (s.otherWing w))) ∧
    ((s.wing w).state = .resetting → exec (.wingResetDone w) s = .next (s.setWing w .offline true))) ∧
  (∀ (s : State), s.rep.busy = true → exec .rowCopyDone s = .next { s with rep := { s.rep with
    busy := false, spares := Tab.adjust s.rep.spares 0 (bankKey s.rep.copying) (· + 1), rows := min (s.rep.rows + 1) (2 ^ 64 - 1) } }) ∧
  (∀ (s : State) (p : Nat), (s.port p).state = 1 →
    exec (.retrainDone p) s = .next (((s.pickBelow 256).2.modPort p (fun x => { x with
      state := 2, known := true, peer := if x.known then x.peer else (s.pickBelow 256).1 })).sendWaiting)) ∧
  (∀ (s : State) (r : Nat),
    (r ≠ s.span.rank → s.rankLive r = true → (Tab.find? s.span.quiet r).isSome = false → exec (.peerDeadTimeout r) s = .next { s with
      span := { s.span with quiet := Tab.put s.span.quiet r () }, inbox := s.inbox ++ [.livenessFlood ⟨BitVec.ofNat 256 (2 ^ r), 0⟩] }) ∧
    ∃ port n, port < 16 ∧ exec (.idleFlit r) s = .next (({ s.pick.2 with span := { s.span with quiet := Tab.del s.span.quiet r } } : State).modPort port
      (fun x => if x.state = 2 then { x with errcnt := min (x.errcnt + n) 65535 } else x))) ∧
  (∀ (s : State) (down up new : BitVec 256), new = (((s.span.live &&& ~~~ down) ||| up) ||| BitVec.ofNat 256 (2 ^ s.span.rank)) &&& rankMask s.span.size →
    (new = s.span.live → up = 0 → exec (.livenessFlood ⟨down, up⟩) s = .next s) ∧
    ((new ≠ s.span.live ∨ up ≠ 0) → ∃ t : State,
      t = { s with span := { s.span with live := new, epoch := s.span.epoch + 1, quiet := s.span.quiet.filter (fun p => !up.getLsbD p.1) } } ∧
      exec (.livenessFlood ⟨down, up⟩) s = .next (if new = s.span.live then t else t.raiseEvent evLive))) ∧
  (∀ (s : State),
    (s.fleet.busy = true → exec .eccChangeDone s = .next (({ s with mem := [], uncorr := [], fleet := { s.fleet with busy := false } } : State).modeInForce s.fleet.next)) ∧
    (s.fleet.capPending = true → exec .clockCapChange s = .next { s with fleet := { s.fleet with
      mclk := (clockCaps s.fleet.mode).1, vclk := (clockCaps s.fleet.mode).2, capPending := false } })) ∧
  (∀ (s : State) (core temp : Nat), core < 640 → s.boot.powered = true →
    ((temp < 120 ∨ s.fleet.halt = true) → exec (.thermalSample core temp) s = .next (((s.exclude core temp).protect (wingOfCore core)).telemetry (wingOfCore core))) ∧
    (120 ≤ temp → s.fleet.halt = false → exec (.thermalSample core temp) s = .next (((s.exclude core temp).protect (wingOfCore core)).telemetry (wingOfCore core)).haltAll) ∧
    (∀ b, exec (.droopFlag core b) s = .next (s.modCore core (fun c => { c with droop := b, droopHold := !b && (c.droop || c.droopHold) }))) ∧
    ((s.core core).droopHold = true → exec (.droopHoldExpiry core) s = .next (s.modCore core (fun c => { c with droopHold := false })))) ∧
  (∀ (s : State),
    exec .powerLoss s = .next (s.lost false [] []) ∧ exec .powerOn s = .next (if s.boot.powered then s else s.lost true [] []) ∧
    exec .deviceReset s = .next (if s.boot.powered then s.lost true s.mem s.uncorr else s) ∧
    (s.boot.tokens < 64 → exec .signTokenRefill s = .next { s with boot := { s.boot with tokens := s.boot.tokens + 1 } }) ∧
    (s.boot.powered = true → (s.boot.state = 0 ∨ s.boot.state = 4) → exec .bootctlGo s = .next { s with boot := { s.boot with state := 1, err := 0 } }) ∧
    (s.boot.powered = true → s.boot.state ≠ 0 → s.boot.state ≠ 4 → exec .bootctlGo s = .next s) ∧
    (s.boot.state = 1 → exec (.bootImageLoaded [] true) s = .next { s with boot := { s.boot with state := 4, err := 6 } }) ∧
    ∀ img : List Byte, s.boot.state = 1 → img.length = s.boot.len.toNat →
      ∃ u : State, u = s.hostHolds s.boot.addr.toNat img ∧
      (u.imageErr img ≠ 0 → exec (.bootImageLoaded img false) s = .next { u with boot := { u.boot with state := 4, err := u.imageErr img } }) ∧
      (u.imageErr img = 0 → exec (.bootImageLoaded img false) s = .next { u with boot := { u.boot with
        state := 3, err := 0, svn := imageSvn img, sram := img, meas := u.measures img,
        floor := if bitAt (img.getD 13 0).toNat 0 && decide (u.boot.floor.toNat < (imageSvn img).toNat) then imageSvn img else u.boot.floor } })) ∧
  ∀ (s : State) (box slot index : Nat) (nonce : List Byte), s.boot.powered = true → s.boot.state = 3 →
    let digest := digestBytes (sha256 Config.certChain)
    let commits := fun (code : Byte) (body : List Byte) => ({ s.releaseSigned with boot := { s.boot with
      leaf := s.boot.leaf + 1, tokens := s.boot.tokens - 1, signing := some (box, code, s.boot.leaf, body, body ++ nonce) } } : State)
    exec (.getVersion box) s = .next (s.send (.spdm box 0x04 [0x13])) ∧
    exec (.getCapabilities box) s = .next (s.send (.spdm box 0x61 (leBytes 4 0x16))) ∧
    exec (.negotiateAlgorithms box) s = .next (s.send (.spdm box 0x63 (leBytes 4 1 ++ [Config.vendorRegistry, 0] ++ leBytes 2 1))) ∧
    exec (.getDigests box) s = .next (s.send (.spdm box 0x01 digest)) ∧
    exec (.getCertificate box slot) s = .next (s.send (if slot = 0 then .spdm box 0x02 Config.certChain else .spdmError box spdmInvalid)) ∧
    (s.boot.leaf < 2 ^ 40 → s.boot.tokens ≠ 0 → exec (.challenge box nonce) s = .next (commits 0x03 digest) ∧
      (1 ≤ index → index ≤ 5 → exec (.getMeasurements box index true nonce) s = .next (commits 0x60 (s.measBlock index)))) ∧
    (s.boot.leaf < 2 ^ 40 → s.boot.tokens = 0 → exec (.challenge box nonce) s = .next (s.releaseSigned.send (.spdmError box spdmBusy))) ∧
    (2 ^ 40 ≤ s.boot.leaf → exec (.challenge box nonce) s = .next (s.releaseSigned.send (.spdmError box spdmUnspecified))) ∧
    (∀ b code leaf body msg, s.boot.signing = some (b, code, leaf, body, msg) → happen .release s = .next
      (({ s with cur := none, boot := { s.boot with signing := none } } : State).send (.spdm b code (body ++ Config.hssSign (leaf / 2 ^ 20) (leaf % 2 ^ 20) msg)))) ∧
    (1 ≤ index → index ≤ 5 → exec (.getMeasurements box index false nonce) s = .next (s.send (.spdm box 0x60 (s.measBlock index)))) ∧
    exec (.getMeasurements box 0 false nonce) s = .next (s.send (.spdm box 0x60 [5]))

-- checks before an instruction is performed

/-- R27, R32, R225, R226: an instruction whose scope the opcode map does not allow raises illegal-scope, and nothing else happens;
no slice waits at a rendezvous. At TEAM scope every live gang of the team takes the trap, with SETFLT; at SET scope the issuing
gang does (log entry 48). -/
def Obligations.IllegalScopesTrap : Prop :=
  ∀ (ins : Instr) (h : Hdr) (legal : List Scope) (s : State) (i : Issuer),
    scopesOf ins = some (h, legal) → s.issuer? = some i → barred ins i = false → h.scp ∉ legal → TrapsAtScope ins s i h cIllegalScope

/-- R29, R32: a SET-scope instruction whose set is not declared, or does not hold the issuing gang, raises illegal-operand before
any rendezvous begins, in the issuing gang and with SETFLT (log entry 48). -/
def Obligations.SetMembershipIsChecked : Prop :=
  ∀ (ins : Instr) (h : Hdr) (legal : List Scope) (n : Nat) (s : State) (i : Issuer),
    scopesOf ins = some (h, legal) → setNoOf ins = some n → h.scp = .set → .set ∈ legal → s.issuer? = some i → barred ins i = false →
    ((i.tm.sets.getD n {}).mask = 0 ∨ bitAt (i.tm.sets.getD n {}).mask i.unit.gang = false) → TrapsAtScope ins s i h cIllegalOperand

/-- R211: linear indices, the target of a format-B displacement counted in slots from the branch's own slot, and the trap of a
target outside the range, which every taken branch and `CALL` raise. -/
def Obligations.DisplacementsCountSlots : Prop :=
  (∀ a : W64, linOf a = (a >>> 6).toNat * 5 + (a &&& 7).toNat) ∧
  ∀ (pc : W64) (disp : W32),
    let lin : Int := (linOf pc : Int) + (disp.signExtend 64).toInt
    (0 ≤ lin → lin < 5 * 2 ^ 50 → dispTarget pc disp.toInt = .ok (BitVec.ofNat 64 ((lin.toNat / 5) <<< 6 ||| lin.toNat % 5))) ∧
    (lin < 0 ∨ 5 * 2 ^ 50 ≤ lin → ∀ (s : State) (i : Issuer) (h : Hdr), s.issuer? = some i → i.pc = pc → h.scp = .lane →
      ∃ a : W64, Traps (.bra h disp) s i (some h) cIllegalBranch a ∧ (i.g.ganged = true → Traps (.call h disp) s i (some h) cIllegalBranch a) ∧
        (∀ cond, condHolds cond i.g.cc i.tm.prq = true → Traps (.bcc h cond disp) s i (some h) cIllegalBranch a) ∧
        ((∃ k ∈ i.slices, (i.g.activeIn h (lanesOf [k])).isEmpty = true) → Traps (.bmz h disp) s i (some h) cIllegalBranch a) ∧
        ((∃ k ∈ i.slices, (i.g.activeIn h (lanesOf [k])).isEmpty = false) → Traps (.bmnz h disp) s i (some h) cIllegalBranch a))

-- decoding and stepping

/-- R204, R213 to R219, R225, R239: every well-formed encoded instruction has a 96-bit word that decodes to it, and every word
that decodes gives a well-formed instruction whose word it is: no bit of a slot is dropped. -/
def Obligations.EncodingRoundTrips : Prop :=
  (∀ i : Instr, i.WellFormed = true → i.isEvent = false → ∃ w, encodeSlot i = some w ∧ w < 2 ^ 96 ∧ decodeSlot w = some i) ∧
  ∀ (w : Nat) (i : Instr), w < 2 ^ 96 → decodeSlot w = some i → i.WellFormed = true ∧ i.isEvent = false ∧ encodeSlot i = some w

/-- R213 to R215: words that the spec writes out, one of each format, decode to the instructions it gives them. -/
def Obligations.WrittenWordsDecode : Prop :=
  decodeTableWord 96 0x0000003B0000040060144040 = some (.fadd { scp := .lane, la := 0, msel := 1, mneg := false }
    { d := .v 5, a := .v 3, b := .op (.v 4), c := .v 0, ty := .f32, rm := .dyn, sat := false, ccw := false, xt := 0 }) ∧
  decodeTableWord 96 0x0000008002E900608C100111 = some (.sadd { scp := .gang, la := 0, msel := 0, mneg := false }
    { d := .s 4, a := .s 4, b := .imm32 128, c := .v 0, ty := .n64, rm := .dyn, sat := false, ccw := false, xt := 0 }) ∧
  decodeTableWord 96 0xFFFFFFFE0000000000000001 = some (.bra { scp := .lane, la := 0, msel := 0, mneg := false } 0xFFFFFFFE) ∧
  decodeTableWord 96 0x0000008000E000000000000C = some (.enter { scp := .lane, la := 0, msel := 0, mneg := false } 128) ∧
  decodeTableWord 96 0x0000000000100A60800C4080 = some (.ld { scp := .lane, la := 0, msel := 1, mneg := false }
    { d := .v 3, a := .s 4, b := .v 10, sz := .b32, ord := .weak, vis := .team, ch := .none, space := .global, off := 0 }) ∧
  decodeTableWord 96 0x0000000000F502A0340001B4 = some (.mma { scp := .gang, la := 0, msel := 0, mneg := false }
    { d := .t 0, a := .t 1, b := .t 2, c := .v 30, e := .v 0, imm := 0 })

/-- R204, R208, R209, R212, R222 to R224: a unit that issues performs the instruction that the slot at its address decodes to, after
the checks of its line; what `step` adds around `exec` is the translation of the line, the results that are due, and the choice
among what may happen (log entry 6). -/
def Obligations.StepRunsDecoded : Prop :=
  (∀ (s : State) (u : UnitId) (i : Issuer) (line : Nat) (p : PageTr), ({ s with cur := some u } : State).issuer? = some i →
    ({ s with cur := some u } : State).readLine i.tm.core i.tm.ctx (lineOf i.pc) = .ok (line, p) →
    (lineOk line = false → issue u s = ({ s with cur := some u } : State).stop i.performer (.trap cIllegalLine (BitVec.ofNat 64 (lineOf i.pc)) 0)) ∧
    (lineOk line = true → i.atEntry = true → lineTgt line 0 = false → issue u s = ({ s with cur := some u } : State).stop i.performer .entry) ∧
    (lineOk line = true → (i.atEntry = true → lineTgt line 0 = true) →
      (decodeSlot (lineSlot line (i.pc.toNat % 8)) = none →
        issue u s = ({ s with cur := some u } : State).stop i.performer (.trap cIllegalInstruction 0 0)) ∧
      ∀ ins, decodeSlot (lineSlot line (i.pc.toNat % 8)) = some ins → i.matrixStall (lineSlot line (i.pc.toNat % 8)) ins = false →
        issue u s = exec ins (({ s with cur := some u } : State).prepare i ins p))) ∧
  ∀ s : State,
    (s.choices = [] → step s = .next s) ∧
    (s.choices ≠ [] → ∃ c ∈ s.choices, ∃ s', (s' = s ∨ s' = s.pick.2) ∧ step s = happen c s') ∧
    (∀ u, happen (.unit u) s = issue u s) ∧ (∀ i, happen (.event i) s = exec i (s.forEvent (eventKind i))) ∧
    (∀ i, happen (.input i) s = exec i { s.forEvent (eventKind i) with inbox := s.inbox.drop 1 }) ∧
    (∀ ctx idx t, (s.forEvent .all).tryPost ctx idx = some t → happen (.post ctx idx) s = .next t)

/-- R416, R418, R420, R421: a step of any unit, any event and any input keeps both memories in the model's
canonical form (log entries 2 and 16), the fleet mode a legal one, also the mode a change in progress goes to, at most 64
tokens in the signing bucket and the leaf counter within 2^40; and neither the leaf counter nor FLOOR ever goes down. -/
def Obligations.StepsKeepDeviceState : Prop :=
  ∀ s t : State, s.Inv → Steps s t → t.Inv ∧ s.boot.leaf ≤ t.boot.leaf ∧ s.boot.floor ≤ t.boot.floor

/-- R387, R401, R403, R411, R414, R421, R425, R427: the device after reset: no context, launch or team; every register of the
tables that gives a reset value holds it, and what every step keeps of
the device (`State.Inv`) holds. FLOOR is the fused value. -/
def Obligations.ResetLeaves : Prop :=
  let s := State.reset
  s.Inv ∧ s.clock = 0 ∧ s.launches = [] ∧ s.teams = [] ∧ s.choices = [] ∧
  (∀ k, (s.ctx k).resident = false ∧ (s.ctx k).istat = 0 ∧ (s.ctx k).imask = 0 ∧ ∀ q,
    (s.queue k q).qbase = 0 ∧ (s.queue k q).qcfg = 0 ∧ (s.queue k q).qwp = 0 ∧ (s.queue k q).qrp = 0 ∧
    (s.queue k q).ovr = false ∧ (s.queue k q).cstop = false ∧ (s.queue k q).wait = false) ∧
  (s.drv.ctxSlot = 0 ∧ s.drv.ctxBusy = false ∧ s.drv.ctxDone = false ∧ s.drv.ctxErr = false ∧
    s.drv.tlbAsid = 0 ∧ s.drv.tlbAll = false ∧ s.drv.tlbErr = false ∧ s.drv.tlbBusy = false) ∧
  (∀ w < 4, (s.wing w).state = .online ∧ (s.wing w).drained = false ∧ (s.wing w).err = false ∧
    (∀ k < 256, Tab.get s.trig.trgown 0 (slotKey w k) = 0) ∧ ∀ k < 1024, Tab.get s.trig.ctrown 0 (ctrKey w k) = 0) ∧
  (s.rep.rowret = 0 ∧ s.rep.busy = false ∧ s.rep.fail = false ∧ s.rep.rows = 0 ∧ ∀ k, 16 - Tab.get s.rep.spares 0 k = 16) ∧
  (∀ p < 16, (s.port p).state = 0 ∧ (s.port p).disable = false ∧ (s.port p).errcnt = 0) ∧ (∀ c, (s.core c).dis = false) ∧
  (s.boot.state = 0 ∧ s.boot.err = 0 ∧ s.boot.svn = 0 ∧ s.boot.floor = Config.fusedFloor ∧ s.boot.addr = 0 ∧ s.boot.len = 0) ∧
  (modePwr s.fleet.mode = 2 ∧ modeSplit s.fleet.mode = 0 ∧ modeEcc s.fleet.mode = 0 ∧ bits s.fleet.mode.toNat 6 3 = 0 ∧
    bits s.fleet.mode.toNat 9 4 = 3 ∧ modeThot s.fleet.mode = 95 ∧ bits s.fleet.mode.toNat 20 44 = 0) ∧
  (s.fleet.busy = false ∧ s.fleet.err = false ∧ s.fleet.evstat = 0 ∧ s.fleet.evmask = 0 ∧ s.fleet.cecc = 0 ∧ s.fleet.ueccn = 0 ∧ s.fleet.thrtl = 0)
end

