-- ==== Sys2Proof/Laws/Tab.lean ====
section
/-! SUPPORT. Laws of sparse tables: read after write, and that every write keeps the canonical form. They hold of every list
of pairs, in canonical form or not, so no statement about registers needs an invariant. -/

namespace Sys2Proof

variable {α : Type}

@[simp] theorem Tab.find_nil (k : Nat) : Tab.find? ([] : Tab α) k = none := rfl

theorem Tab.find_put (t : Tab α) (k j : Nat) (v : α) : Tab.find? (Tab.put t k v) j = if j = k then some v else Tab.find? t j := by
  induction t with
  | nil => rcases eq_or_ne j k with rfl | h <;> simp_all [Tab.put, Tab.find?, Ne.symm]
  | cons p r ih =>
    obtain ⟨i, a⟩ := p
    simp only [Tab.put]
    split
    · simp only [Tab.find?, ih]
      by_cases h1 : j = k <;> by_cases h2 : i = j <;> simp_all
    · split
      · simp only [Tab.find?]
        by_cases h1 : j = k <;> by_cases h2 : i = j <;> simp_all
      · simp only [Tab.find?]
        by_cases h1 : j = k <;> by_cases h2 : i = j <;> simp_all <;> (intro h; exact absurd h.symm h1)

theorem Tab.find_del (t : Tab α) (k j : Nat) : Tab.find? (Tab.del t k) j = if j = k then none else Tab.find? t j := by
  induction t with
  | nil => simp [Tab.del]
  | cons p r ih =>
    obtain ⟨i, a⟩ := p
    simp only [Tab.del]
    split
    · simp only [ih, Tab.find?]
      by_cases h1 : j = k <;> by_cases h2 : i = j <;> simp_all
    · simp only [Tab.find?, ih]
      by_cases h1 : j = k <;> by_cases h2 : i = j <;> simp_all

theorem Tab.put_put (t : Tab α) (k : Nat) (u v : α) : Tab.put (Tab.put t k u) k v = Tab.put t k v := by
  induction t with
  | nil => simp [Tab.put]
  | cons p r ih =>
    obtain ⟨i, a⟩ := p
    by_cases h1 : i < k
    · simp [Tab.put, h1, ih]
    · by_cases h2 : i = k
      · simp [Tab.put, h2]
      · simp [Tab.put, h1, h2]

/-- Two changes of one entry are one. -/
theorem Tab.modify_modify (t : Tab α) (k : Nat) (f g : α → α) : Tab.modify (Tab.modify t k f) k g = Tab.modify t k (g ∘ f) := by
  cases h : Tab.find? t k with
  | none => simp [Tab.modify, h]
  | some a => simp [Tab.modify, h, Tab.find_put, Tab.put_put]

/-- Read after write. -/
theorem Tab.get_set [DecidableEq α] (t : Tab α) (d : α) (k j : Nat) (v : α) :
    Tab.get (Tab.set t d k v) d j = if j = k then v else Tab.get t d j := by
  by_cases h1 : v = d <;> by_cases h2 : j = k <;> simp [Tab.get, Tab.set, h1, h2, Tab.find_put, Tab.find_del]

@[simp] theorem Tab.get_set_same [DecidableEq α] (t : Tab α) (d : α) (k : Nat) (v : α) : Tab.get (Tab.set t d k v) d k = v := by
  simp [Tab.get_set]

theorem Tab.get_set_other [DecidableEq α] (t : Tab α) (d : α) {k j : Nat} (v : α) (h : j ≠ k) :
    Tab.get (Tab.set t d k v) d j = Tab.get t d j := by
  simp [Tab.get_set, h]

@[simp] theorem Tab.get_nil (d : α) (k : Nat) : Tab.get ([] : Tab α) d k = d := rfl

theorem Tab.find_modify (t : Tab α) (k j : Nat) (f : α → α) :
    Tab.find? (Tab.modify t k f) j = if j = k then (Tab.find? t j).map f else Tab.find? t j := by
  unfold Tab.modify
  split
  · rename_i a h
    by_cases e : j = k
    · subst e; simp [Tab.find_put, h]
    · simp [Tab.find_put, e]
  · rename_i h
    by_cases e : j = k
    · subst e; simp [h]
    · simp [e]

@[simp] theorem Tab.find_modify_same (t : Tab α) (k : Nat) (f : α → α) : Tab.find? (Tab.modify t k f) k = (Tab.find? t k).map f := by
  simp [Tab.find_modify]

theorem Tab.find_modify_other (t : Tab α) {k j : Nat} (f : α → α) (h : j ≠ k) : Tab.find? (Tab.modify t k f) j = Tab.find? t j := by
  simp [Tab.find_modify, h]

theorem Tab.get_adjust [DecidableEq α] (t : Tab α) (d : α) (k j : Nat) (f : α → α) :
    Tab.get (Tab.adjust t d k f) d j = if j = k then f (Tab.get t d k) else Tab.get t d j := by
  simp [Tab.adjust, Tab.get_set]

-- the canonical form

/-- Keys strictly rising, as a statement on lists. -/
theorem Tab.sorted_iff (t : Tab α) : Tab.sorted t = true ↔ (t.map Prod.fst).Pairwise (· < ·) := by
  induction t with
  | nil => simp [Tab.sorted]
  | cons p r ih =>
    obtain ⟨i, a⟩ := p
    cases r with
    | nil => simp [Tab.sorted]
    | cons q r =>
      obtain ⟨j, b⟩ := q
      simp only [Tab.sorted, Bool.and_eq_true, decide_eq_true_eq, List.map_cons, List.pairwise_cons] at ih ⊢
      rw [ih]
      constructor
      · rintro ⟨h, h1, h2⟩
        refine ⟨?_, h1, h2⟩
        intro x hx
        rcases List.mem_cons.mp hx with rfl | hx
        · exact h
        · exact lt_trans h (h1 x hx)
      · rintro ⟨h, h1, h2⟩
        exact ⟨h j (by simp), h1, h2⟩

theorem Tab.mem_put {t : Tab α} {k : Nat} {v : α} {p : Nat × α} (h : p ∈ Tab.put t k v) : p = (k, v) ∨ p ∈ t := by
  induction t with
  | nil => simpa [Tab.put] using h
  | cons q r ih =>
    obtain ⟨i, a⟩ := q
    simp only [Tab.put] at h
    split at h
    · rcases List.mem_cons.mp h with h | h
      · simp [h]
      · rcases ih h with h | h <;> simp [h]
    · split at h <;> rcases List.mem_cons.mp h with h | h <;> simp [h]

theorem Tab.mem_del {t : Tab α} {k : Nat} {p : Nat × α} (h : p ∈ Tab.del t k) : p ∈ t := by
  induction t with
  | nil => simp [Tab.del] at h
  | cons q r ih =>
    obtain ⟨i, a⟩ := q
    simp only [Tab.del] at h
    split at h
    · exact List.mem_cons_of_mem _ (ih h)
    · rcases List.mem_cons.mp h with h | h
      · simp [h]
      · exact List.mem_cons_of_mem _ (ih h)

theorem Tab.sorted_put {t : Tab α} (k : Nat) (v : α) (h : Tab.sorted t = true) : Tab.sorted (Tab.put t k v) = true := by
  rw [Tab.sorted_iff] at h ⊢
  induction t with
  | nil => simp [Tab.put]
  | cons q r ih =>
    obtain ⟨i, a⟩ := q
    simp only [List.map_cons, List.pairwise_cons] at h
    simp only [Tab.put]
    split
    · rename_i hik
      simp only [List.map_cons, List.pairwise_cons]
      refine ⟨?_, ih h.2⟩
      intro x hx
      obtain ⟨p, hp, rfl⟩ := List.mem_map.mp hx
      rcases Tab.mem_put hp with rfl | hp
      · exact hik
      · exact h.1 _ (List.mem_map_of_mem hp)
    · split
      · rename_i _ hik
        subst hik
        simpa using h
      · rename_i h1 h2
        simp only [List.map_cons, List.pairwise_cons]
        refine ⟨?_, h.1, h.2⟩
        intro x hx
        rcases List.mem_cons.mp hx with rfl | hx
        · show k < x; omega
        · have := h.1 x hx; omega

theorem Tab.sorted_del {t : Tab α} (k : Nat) (h : Tab.sorted t = true) : Tab.sorted (Tab.del t k) = true := by
  rw [Tab.sorted_iff] at h ⊢
  induction t with
  | nil => simp [Tab.del]
  | cons q r ih =>
    obtain ⟨i, a⟩ := q
    simp only [List.map_cons, List.pairwise_cons] at h
    simp only [Tab.del]
    split
    · exact ih h.2
    · simp only [List.map_cons, List.pairwise_cons]
      refine ⟨?_, ih h.2⟩
      intro x hx
      obtain ⟨p, hp, rfl⟩ := List.mem_map.mp hx
      exact h.1 _ (List.mem_map_of_mem (Tab.mem_del hp))

/-- Writing keeps the canonical form. -/
theorem Tab.wf_set [DecidableEq α] {d : α} {t : Tab α} (k : Nat) (v : α) (h : Tab.wf d t = true) : Tab.wf d (Tab.set t d k v) = true := by
  simp only [Tab.wf, Bool.and_eq_true, List.all_eq_true, decide_eq_true_eq] at h ⊢
  unfold Tab.set
  split
  · exact ⟨Tab.sorted_del k h.1, fun p hp => h.2 p (Tab.mem_del hp)⟩
  · rename_i hv
    refine ⟨Tab.sorted_put k v h.1, fun p hp => ?_⟩
    rcases Tab.mem_put hp with rfl | hp
    · exact hv
    · exact h.2 p hp

theorem Tab.wf_setAll [DecidableEq α] {d : α} (l : List (Nat × α)) {t : Tab α} (h : Tab.wf d t = true) : Tab.wf d (Tab.setAll t d l) = true := by
  induction l generalizing t with
  | nil => exact h
  | cons p r ih => exact ih (Tab.wf_set p.1 p.2 h)

@[simp] theorem Tab.wf_nil [DecidableEq α] (d : α) : Tab.wf d ([] : Tab α) = true := rfl

/-- Equal readings make equal tables: the point of the canonical form. -/
theorem Tab.get_of_lt [DecidableEq α] {d : α} {i k : Nat} {a : α} {r : Tab α} (h : Tab.wf d ((i, a) :: r) = true) (hk : k < i) :
    Tab.get ((i, a) :: r) d k = d := by
  simp only [Tab.wf, Bool.and_eq_true, Tab.sorted_iff, List.map_cons, List.pairwise_cons] at h
  have hn : ∀ (r : Tab α), (∀ x ∈ r.map Prod.fst, k < x) → Tab.find? r k = none := by
    intro r
    induction r with
    | nil => simp
    | cons q r ih =>
      intro hq
      have : q.1 ≠ k := by have := hq q.1 (by simp); omega
      simp only [Tab.find?, this, if_false]
      exact ih (fun x hx => hq x (by simp [hx]))
  have : Tab.find? ((i, a) :: r) k = none := hn _ (by
    intro x hx
    rcases List.mem_cons.mp hx with rfl | hx
    · exact hk
    · exact lt_trans hk (h.1.1 x hx))
  simp [Tab.get, this]

end Sys2Proof
end

