-- ==== Sys2Proof/Laws/State.lean ====
section
/-! SUPPORT. One lemma per field for each named update of the state, of a team and of a gang, so that no proof unfolds a
record update. -/

namespace Sys2Proof.Machine

open Sys2Proof

variable (s : State)

-- modTeam

@[simp] theorem State.modTeam_free (id : Nat) (g : Team → Team) : (s.modTeam id g).free = s.free := rfl
@[simp] theorem State.modTeam_cur (id : Nat) (g : Team → Team) : (s.modTeam id g).cur = s.cur := rfl
@[simp] theorem State.modTeam_nextId (id : Nat) (g : Team → Team) : (s.modTeam id g).nextId = s.nextId := rfl
@[simp] theorem State.modTeam_inbox (id : Nat) (g : Team → Team) : (s.modTeam id g).inbox = s.inbox := rfl
@[simp] theorem State.modTeam_out (id : Nat) (g : Team → Team) : (s.modTeam id g).out = s.out := rfl
@[simp] theorem State.modTeam_mem (id : Nat) (g : Team → Team) : (s.modTeam id g).mem = s.mem := rfl
@[simp] theorem State.modTeam_uncorr (id : Nat) (g : Team → Team) : (s.modTeam id g).uncorr = s.uncorr := rfl
@[simp] theorem State.modTeam_remote (id : Nat) (g : Team → Team) : (s.modTeam id g).remote = s.remote := rfl
@[simp] theorem State.modTeam_clock (id : Nat) (g : Team → Team) : (s.modTeam id g).clock = s.clock := rfl
@[simp] theorem State.modTeam_cores (id : Nat) (g : Team → Team) : (s.modTeam id g).cores = s.cores := rfl
@[simp] theorem State.modTeam_ctxs (id : Nat) (g : Team → Team) : (s.modTeam id g).ctxs = s.ctxs := rfl
@[simp] theorem State.modTeam_launches (id : Nat) (g : Team → Team) : (s.modTeam id g).launches = s.launches := rfl
@[simp] theorem State.modTeam_colls (id : Nat) (g : Team → Team) : (s.modTeam id g).colls = s.colls := rfl
@[simp] theorem State.modTeam_chunks (id : Nat) (g : Team → Team) : (s.modTeam id g).chunks = s.chunks := rfl
@[simp] theorem State.modTeam_wings (id : Nat) (g : Team → Team) : (s.modTeam id g).wings = s.wings := rfl
@[simp] theorem State.modTeam_trig (id : Nat) (g : Team → Team) : (s.modTeam id g).trig = s.trig := rfl
@[simp] theorem State.modTeam_drv (id : Nat) (g : Team → Team) : (s.modTeam id g).drv = s.drv := rfl
@[simp] theorem State.modTeam_rep (id : Nat) (g : Team → Team) : (s.modTeam id g).rep = s.rep := rfl
@[simp] theorem State.modTeam_span (id : Nat) (g : Team → Team) : (s.modTeam id g).span = s.span := rfl
@[simp] theorem State.modTeam_order (id : Nat) (g : Team → Team) : (s.modTeam id g).order = s.order := rfl
@[simp] theorem State.modTeam_fleet (id : Nat) (g : Team → Team) : (s.modTeam id g).fleet = s.fleet := rfl
@[simp] theorem State.modTeam_boot (id : Nat) (g : Team → Team) : (s.modTeam id g).boot = s.boot := rfl

-- modLaunch

@[simp] theorem State.modLaunch_free (id : Nat) (g : Launch → Launch) : (s.modLaunch id g).free = s.free := rfl
@[simp] theorem State.modLaunch_cur (id : Nat) (g : Launch → Launch) : (s.modLaunch id g).cur = s.cur := rfl
@[simp] theorem State.modLaunch_nextId (id : Nat) (g : Launch → Launch) : (s.modLaunch id g).nextId = s.nextId := rfl
@[simp] theorem State.modLaunch_inbox (id : Nat) (g : Launch → Launch) : (s.modLaunch id g).inbox = s.inbox := rfl
@[simp] theorem State.modLaunch_out (id : Nat) (g : Launch → Launch) : (s.modLaunch id g).out = s.out := rfl
@[simp] theorem State.modLaunch_mem (id : Nat) (g : Launch → Launch) : (s.modLaunch id g).mem = s.mem := rfl
@[simp] theorem State.modLaunch_uncorr (id : Nat) (g : Launch → Launch) : (s.modLaunch id g).uncorr = s.uncorr := rfl
@[simp] theorem State.modLaunch_remote (id : Nat) (g : Launch → Launch) : (s.modLaunch id g).remote = s.remote := rfl
@[simp] theorem State.modLaunch_clock (id : Nat) (g : Launch → Launch) : (s.modLaunch id g).clock = s.clock := rfl
@[simp] theorem State.modLaunch_cores (id : Nat) (g : Launch → Launch) : (s.modLaunch id g).cores = s.cores := rfl
@[simp] theorem State.modLaunch_ctxs (id : Nat) (g : Launch → Launch) : (s.modLaunch id g).ctxs = s.ctxs := rfl
@[simp] theorem State.modLaunch_teams (id : Nat) (g : Launch → Launch) : (s.modLaunch id g).teams = s.teams := rfl
@[simp] theorem State.modLaunch_colls (id : Nat) (g : Launch → Launch) : (s.modLaunch id g).colls = s.colls := rfl
@[simp] theorem State.modLaunch_chunks (id : Nat) (g : Launch → Launch) : (s.modLaunch id g).chunks = s.chunks := rfl
@[simp] theorem State.modLaunch_wings (id : Nat) (g : Launch → Launch) : (s.modLaunch id g).wings = s.wings := rfl
@[simp] theorem State.modLaunch_trig (id : Nat) (g : Launch → Launch) : (s.modLaunch id g).trig = s.trig := rfl
@[simp] theorem State.modLaunch_drv (id : Nat) (g : Launch → Launch) : (s.modLaunch id g).drv = s.drv := rfl
@[simp] theorem State.modLaunch_rep (id : Nat) (g : Launch → Launch) : (s.modLaunch id g).rep = s.rep := rfl
@[simp] theorem State.modLaunch_span (id : Nat) (g : Launch → Launch) : (s.modLaunch id g).span = s.span := rfl
@[simp] theorem State.modLaunch_order (id : Nat) (g : Launch → Launch) : (s.modLaunch id g).order = s.order := rfl
@[simp] theorem State.modLaunch_fleet (id : Nat) (g : Launch → Launch) : (s.modLaunch id g).fleet = s.fleet := rfl
@[simp] theorem State.modLaunch_boot (id : Nat) (g : Launch → Launch) : (s.modLaunch id g).boot = s.boot := rfl

-- modCtx

@[simp] theorem State.modCtx_free (k : Nat) (g : Ctx → Ctx) : (s.modCtx k g).free = s.free := rfl
@[simp] theorem State.modCtx_cur (k : Nat) (g : Ctx → Ctx) : (s.modCtx k g).cur = s.cur := rfl
@[simp] theorem State.modCtx_nextId (k : Nat) (g : Ctx → Ctx) : (s.modCtx k g).nextId = s.nextId := rfl
@[simp] theorem State.modCtx_inbox (k : Nat) (g : Ctx → Ctx) : (s.modCtx k g).inbox = s.inbox := rfl
@[simp] theorem State.modCtx_out (k : Nat) (g : Ctx → Ctx) : (s.modCtx k g).out = s.out := rfl
@[simp] theorem State.modCtx_mem (k : Nat) (g : Ctx → Ctx) : (s.modCtx k g).mem = s.mem := rfl
@[simp] theorem State.modCtx_uncorr (k : Nat) (g : Ctx → Ctx) : (s.modCtx k g).uncorr = s.uncorr := rfl
@[simp] theorem State.modCtx_remote (k : Nat) (g : Ctx → Ctx) : (s.modCtx k g).remote = s.remote := rfl
@[simp] theorem State.modCtx_clock (k : Nat) (g : Ctx → Ctx) : (s.modCtx k g).clock = s.clock := rfl
@[simp] theorem State.modCtx_cores (k : Nat) (g : Ctx → Ctx) : (s.modCtx k g).cores = s.cores := rfl
@[simp] theorem State.modCtx_launches (k : Nat) (g : Ctx → Ctx) : (s.modCtx k g).launches = s.launches := rfl
@[simp] theorem State.modCtx_teams (k : Nat) (g : Ctx → Ctx) : (s.modCtx k g).teams = s.teams := rfl
@[simp] theorem State.modCtx_colls (k : Nat) (g : Ctx → Ctx) : (s.modCtx k g).colls = s.colls := rfl
@[simp] theorem State.modCtx_chunks (k : Nat) (g : Ctx → Ctx) : (s.modCtx k g).chunks = s.chunks := rfl
@[simp] theorem State.modCtx_wings (k : Nat) (g : Ctx → Ctx) : (s.modCtx k g).wings = s.wings := rfl
@[simp] theorem State.modCtx_trig (k : Nat) (g : Ctx → Ctx) : (s.modCtx k g).trig = s.trig := rfl
@[simp] theorem State.modCtx_drv (k : Nat) (g : Ctx → Ctx) : (s.modCtx k g).drv = s.drv := rfl
@[simp] theorem State.modCtx_rep (k : Nat) (g : Ctx → Ctx) : (s.modCtx k g).rep = s.rep := rfl
@[simp] theorem State.modCtx_span (k : Nat) (g : Ctx → Ctx) : (s.modCtx k g).span = s.span := rfl
@[simp] theorem State.modCtx_order (k : Nat) (g : Ctx → Ctx) : (s.modCtx k g).order = s.order := rfl
@[simp] theorem State.modCtx_fleet (k : Nat) (g : Ctx → Ctx) : (s.modCtx k g).fleet = s.fleet := rfl
@[simp] theorem State.modCtx_boot (k : Nat) (g : Ctx → Ctx) : (s.modCtx k g).boot = s.boot := rfl

-- modCore

@[simp] theorem State.modCore_free (k : Nat) (g : CoreRec → CoreRec) : (s.modCore k g).free = s.free := rfl
@[simp] theorem State.modCore_cur (k : Nat) (g : CoreRec → CoreRec) : (s.modCore k g).cur = s.cur := rfl
@[simp] theorem State.modCore_nextId (k : Nat) (g : CoreRec → CoreRec) : (s.modCore k g).nextId = s.nextId := rfl
@[simp] theorem State.modCore_inbox (k : Nat) (g : CoreRec → CoreRec) : (s.modCore k g).inbox = s.inbox := rfl
@[simp] theorem State.modCore_out (k : Nat) (g : CoreRec → CoreRec) : (s.modCore k g).out = s.out := rfl
@[simp] theorem State.modCore_mem (k : Nat) (g : CoreRec → CoreRec) : (s.modCore k g).mem = s.mem := rfl
@[simp] theorem State.modCore_uncorr (k : Nat) (g : CoreRec → CoreRec) : (s.modCore k g).uncorr = s.uncorr := rfl
@[simp] theorem State.modCore_remote (k : Nat) (g : CoreRec → CoreRec) : (s.modCore k g).remote = s.remote := rfl
@[simp] theorem State.modCore_clock (k : Nat) (g : CoreRec → CoreRec) : (s.modCore k g).clock = s.clock := rfl
@[simp] theorem State.modCore_ctxs (k : Nat) (g : CoreRec → CoreRec) : (s.modCore k g).ctxs = s.ctxs := rfl
@[simp] theorem State.modCore_launches (k : Nat) (g : CoreRec → CoreRec) : (s.modCore k g).launches = s.launches := rfl
@[simp] theorem State.modCore_teams (k : Nat) (g : CoreRec → CoreRec) : (s.modCore k g).teams = s.teams := rfl
@[simp] theorem State.modCore_colls (k : Nat) (g : CoreRec → CoreRec) : (s.modCore k g).colls = s.colls := rfl
@[simp] theorem State.modCore_chunks (k : Nat) (g : CoreRec → CoreRec) : (s.modCore k g).chunks = s.chunks := rfl
@[simp] theorem State.modCore_wings (k : Nat) (g : CoreRec → CoreRec) : (s.modCore k g).wings = s.wings := rfl
@[simp] theorem State.modCore_trig (k : Nat) (g : CoreRec → CoreRec) : (s.modCore k g).trig = s.trig := rfl
@[simp] theorem State.modCore_drv (k : Nat) (g : CoreRec → CoreRec) : (s.modCore k g).drv = s.drv := rfl
@[simp] theorem State.modCore_rep (k : Nat) (g : CoreRec → CoreRec) : (s.modCore k g).rep = s.rep := rfl
@[simp] theorem State.modCore_span (k : Nat) (g : CoreRec → CoreRec) : (s.modCore k g).span = s.span := rfl
@[simp] theorem State.modCore_order (k : Nat) (g : CoreRec → CoreRec) : (s.modCore k g).order = s.order := rfl
@[simp] theorem State.modCore_fleet (k : Nat) (g : CoreRec → CoreRec) : (s.modCore k g).fleet = s.fleet := rfl
@[simp] theorem State.modCore_boot (k : Nat) (g : CoreRec → CoreRec) : (s.modCore k g).boot = s.boot := rfl

-- modWing

@[simp] theorem State.modWing_free (w : Nat) (g : Wing → Wing) : (s.modWing w g).free = s.free := rfl
@[simp] theorem State.modWing_cur (w : Nat) (g : Wing → Wing) : (s.modWing w g).cur = s.cur := rfl
@[simp] theorem State.modWing_nextId (w : Nat) (g : Wing → Wing) : (s.modWing w g).nextId = s.nextId := rfl
@[simp] theorem State.modWing_inbox (w : Nat) (g : Wing → Wing) : (s.modWing w g).inbox = s.inbox := rfl
@[simp] theorem State.modWing_out (w : Nat) (g : Wing → Wing) : (s.modWing w g).out = s.out := rfl
@[simp] theorem State.modWing_mem (w : Nat) (g : Wing → Wing) : (s.modWing w g).mem = s.mem := rfl
@[simp] theorem State.modWing_uncorr (w : Nat) (g : Wing → Wing) : (s.modWing w g).uncorr = s.uncorr := rfl
@[simp] theorem State.modWing_remote (w : Nat) (g : Wing → Wing) : (s.modWing w g).remote = s.remote := rfl
@[simp] theorem State.modWing_clock (w : Nat) (g : Wing → Wing) : (s.modWing w g).clock = s.clock := rfl
@[simp] theorem State.modWing_cores (w : Nat) (g : Wing → Wing) : (s.modWing w g).cores = s.cores := rfl
@[simp] theorem State.modWing_ctxs (w : Nat) (g : Wing → Wing) : (s.modWing w g).ctxs = s.ctxs := rfl
@[simp] theorem State.modWing_launches (w : Nat) (g : Wing → Wing) : (s.modWing w g).launches = s.launches := rfl
@[simp] theorem State.modWing_teams (w : Nat) (g : Wing → Wing) : (s.modWing w g).teams = s.teams := rfl
@[simp] theorem State.modWing_colls (w : Nat) (g : Wing → Wing) : (s.modWing w g).colls = s.colls := rfl
@[simp] theorem State.modWing_chunks (w : Nat) (g : Wing → Wing) : (s.modWing w g).chunks = s.chunks := rfl
@[simp] theorem State.modWing_trig (w : Nat) (g : Wing → Wing) : (s.modWing w g).trig = s.trig := rfl
@[simp] theorem State.modWing_drv (w : Nat) (g : Wing → Wing) : (s.modWing w g).drv = s.drv := rfl
@[simp] theorem State.modWing_rep (w : Nat) (g : Wing → Wing) : (s.modWing w g).rep = s.rep := rfl
@[simp] theorem State.modWing_span (w : Nat) (g : Wing → Wing) : (s.modWing w g).span = s.span := rfl
@[simp] theorem State.modWing_order (w : Nat) (g : Wing → Wing) : (s.modWing w g).order = s.order := rfl
@[simp] theorem State.modWing_fleet (w : Nat) (g : Wing → Wing) : (s.modWing w g).fleet = s.fleet := rfl
@[simp] theorem State.modWing_boot (w : Nat) (g : Wing → Wing) : (s.modWing w g).boot = s.boot := rfl

-- send

@[simp] theorem State.send_free (x : Output) : (s.send x).free = s.free := rfl
@[simp] theorem State.send_cur (x : Output) : (s.send x).cur = s.cur := rfl
@[simp] theorem State.send_nextId (x : Output) : (s.send x).nextId = s.nextId := rfl
@[simp] theorem State.send_inbox (x : Output) : (s.send x).inbox = s.inbox := rfl
@[simp] theorem State.send_mem (x : Output) : (s.send x).mem = s.mem := rfl
@[simp] theorem State.send_uncorr (x : Output) : (s.send x).uncorr = s.uncorr := rfl
@[simp] theorem State.send_remote (x : Output) : (s.send x).remote = s.remote := rfl
@[simp] theorem State.send_clock (x : Output) : (s.send x).clock = s.clock := rfl
@[simp] theorem State.send_cores (x : Output) : (s.send x).cores = s.cores := rfl
@[simp] theorem State.send_ctxs (x : Output) : (s.send x).ctxs = s.ctxs := rfl
@[simp] theorem State.send_launches (x : Output) : (s.send x).launches = s.launches := rfl
@[simp] theorem State.send_teams (x : Output) : (s.send x).teams = s.teams := rfl
@[simp] theorem State.send_colls (x : Output) : (s.send x).colls = s.colls := rfl
@[simp] theorem State.send_chunks (x : Output) : (s.send x).chunks = s.chunks := rfl
@[simp] theorem State.send_wings (x : Output) : (s.send x).wings = s.wings := rfl
@[simp] theorem State.send_trig (x : Output) : (s.send x).trig = s.trig := rfl
@[simp] theorem State.send_drv (x : Output) : (s.send x).drv = s.drv := rfl
@[simp] theorem State.send_rep (x : Output) : (s.send x).rep = s.rep := rfl
@[simp] theorem State.send_span (x : Output) : (s.send x).span = s.span := rfl
@[simp] theorem State.send_order (x : Output) : (s.send x).order = s.order := rfl
@[simp] theorem State.send_fleet (x : Output) : (s.send x).fleet = s.fleet := rfl
@[simp] theorem State.send_boot (x : Output) : (s.send x).boot = s.boot := rfl

-- modGang

@[simp] theorem State.modGang_free (id i : Nat) (g : Gang → Gang) : (s.modGang id i g).free = s.free := rfl
@[simp] theorem State.modGang_cur (id i : Nat) (g : Gang → Gang) : (s.modGang id i g).cur = s.cur := rfl
@[simp] theorem State.modGang_nextId (id i : Nat) (g : Gang → Gang) : (s.modGang id i g).nextId = s.nextId := rfl
@[simp] theorem State.modGang_inbox (id i : Nat) (g : Gang → Gang) : (s.modGang id i g).inbox = s.inbox := rfl
@[simp] theorem State.modGang_out (id i : Nat) (g : Gang → Gang) : (s.modGang id i g).out = s.out := rfl
@[simp] theorem State.modGang_mem (id i : Nat) (g : Gang → Gang) : (s.modGang id i g).mem = s.mem := rfl
@[simp] theorem State.modGang_uncorr (id i : Nat) (g : Gang → Gang) : (s.modGang id i g).uncorr = s.uncorr := rfl
@[simp] theorem State.modGang_remote (id i : Nat) (g : Gang → Gang) : (s.modGang id i g).remote = s.remote := rfl
@[simp] theorem State.modGang_clock (id i : Nat) (g : Gang → Gang) : (s.modGang id i g).clock = s.clock := rfl
@[simp] theorem State.modGang_cores (id i : Nat) (g : Gang → Gang) : (s.modGang id i g).cores = s.cores := rfl
@[simp] theorem State.modGang_ctxs (id i : Nat) (g : Gang → Gang) : (s.modGang id i g).ctxs = s.ctxs := rfl
@[simp] theorem State.modGang_launches (id i : Nat) (g : Gang → Gang) : (s.modGang id i g).launches = s.launches := rfl
@[simp] theorem State.modGang_colls (id i : Nat) (g : Gang → Gang) : (s.modGang id i g).colls = s.colls := rfl
@[simp] theorem State.modGang_chunks (id i : Nat) (g : Gang → Gang) : (s.modGang id i g).chunks = s.chunks := rfl
@[simp] theorem State.modGang_wings (id i : Nat) (g : Gang → Gang) : (s.modGang id i g).wings = s.wings := rfl
@[simp] theorem State.modGang_trig (id i : Nat) (g : Gang → Gang) : (s.modGang id i g).trig = s.trig := rfl
@[simp] theorem State.modGang_drv (id i : Nat) (g : Gang → Gang) : (s.modGang id i g).drv = s.drv := rfl
@[simp] theorem State.modGang_rep (id i : Nat) (g : Gang → Gang) : (s.modGang id i g).rep = s.rep := rfl
@[simp] theorem State.modGang_span (id i : Nat) (g : Gang → Gang) : (s.modGang id i g).span = s.span := rfl
@[simp] theorem State.modGang_order (id i : Nat) (g : Gang → Gang) : (s.modGang id i g).order = s.order := rfl
@[simp] theorem State.modGang_fleet (id i : Nat) (g : Gang → Gang) : (s.modGang id i g).fleet = s.fleet := rfl
@[simp] theorem State.modGang_boot (id i : Nat) (g : Gang → Gang) : (s.modGang id i g).boot = s.boot := rfl

-- pick

@[simp] theorem State.pick_cur : (s.pick).2.cur = s.cur := rfl
@[simp] theorem State.pick_nextId : (s.pick).2.nextId = s.nextId := rfl
@[simp] theorem State.pick_inbox : (s.pick).2.inbox = s.inbox := rfl
@[simp] theorem State.pick_out : (s.pick).2.out = s.out := rfl
@[simp] theorem State.pick_mem : (s.pick).2.mem = s.mem := rfl
@[simp] theorem State.pick_uncorr : (s.pick).2.uncorr = s.uncorr := rfl
@[simp] theorem State.pick_remote : (s.pick).2.remote = s.remote := rfl
@[simp] theorem State.pick_clock : (s.pick).2.clock = s.clock := rfl
@[simp] theorem State.pick_cores : (s.pick).2.cores = s.cores := rfl
@[simp] theorem State.pick_ctxs : (s.pick).2.ctxs = s.ctxs := rfl
@[simp] theorem State.pick_launches : (s.pick).2.launches = s.launches := rfl
@[simp] theorem State.pick_teams : (s.pick).2.teams = s.teams := rfl
@[simp] theorem State.pick_colls : (s.pick).2.colls = s.colls := rfl
@[simp] theorem State.pick_chunks : (s.pick).2.chunks = s.chunks := rfl
@[simp] theorem State.pick_wings : (s.pick).2.wings = s.wings := rfl
@[simp] theorem State.pick_trig : (s.pick).2.trig = s.trig := rfl
@[simp] theorem State.pick_drv : (s.pick).2.drv = s.drv := rfl
@[simp] theorem State.pick_rep : (s.pick).2.rep = s.rep := rfl
@[simp] theorem State.pick_span : (s.pick).2.span = s.span := rfl
@[simp] theorem State.pick_order : (s.pick).2.order = s.order := rfl
@[simp] theorem State.pick_fleet : (s.pick).2.fleet = s.fleet := rfl
@[simp] theorem State.pick_boot : (s.pick).2.boot = s.boot := rfl

-- fresh

@[simp] theorem State.fresh_free : (s.fresh).2.free = s.free := rfl
@[simp] theorem State.fresh_cur : (s.fresh).2.cur = s.cur := rfl
@[simp] theorem State.fresh_inbox : (s.fresh).2.inbox = s.inbox := rfl
@[simp] theorem State.fresh_out : (s.fresh).2.out = s.out := rfl
@[simp] theorem State.fresh_mem : (s.fresh).2.mem = s.mem := rfl
@[simp] theorem State.fresh_uncorr : (s.fresh).2.uncorr = s.uncorr := rfl
@[simp] theorem State.fresh_remote : (s.fresh).2.remote = s.remote := rfl
@[simp] theorem State.fresh_clock : (s.fresh).2.clock = s.clock := rfl
@[simp] theorem State.fresh_cores : (s.fresh).2.cores = s.cores := rfl
@[simp] theorem State.fresh_ctxs : (s.fresh).2.ctxs = s.ctxs := rfl
@[simp] theorem State.fresh_launches : (s.fresh).2.launches = s.launches := rfl
@[simp] theorem State.fresh_teams : (s.fresh).2.teams = s.teams := rfl
@[simp] theorem State.fresh_colls : (s.fresh).2.colls = s.colls := rfl
@[simp] theorem State.fresh_chunks : (s.fresh).2.chunks = s.chunks := rfl
@[simp] theorem State.fresh_wings : (s.fresh).2.wings = s.wings := rfl
@[simp] theorem State.fresh_trig : (s.fresh).2.trig = s.trig := rfl
@[simp] theorem State.fresh_drv : (s.fresh).2.drv = s.drv := rfl
@[simp] theorem State.fresh_rep : (s.fresh).2.rep = s.rep := rfl
@[simp] theorem State.fresh_span : (s.fresh).2.span = s.span := rfl
@[simp] theorem State.fresh_order : (s.fresh).2.order = s.order := rfl
@[simp] theorem State.fresh_fleet : (s.fresh).2.fleet = s.fleet := rfl
@[simp] theorem State.fresh_boot : (s.fresh).2.boot = s.boot := rfl

-- pickBelow

@[simp] theorem State.pickBelow_cur (n : Nat) : (s.pickBelow n).2.cur = s.cur := rfl
@[simp] theorem State.pickBelow_nextId (n : Nat) : (s.pickBelow n).2.nextId = s.nextId := rfl
@[simp] theorem State.pickBelow_inbox (n : Nat) : (s.pickBelow n).2.inbox = s.inbox := rfl
@[simp] theorem State.pickBelow_out (n : Nat) : (s.pickBelow n).2.out = s.out := rfl
@[simp] theorem State.pickBelow_mem (n : Nat) : (s.pickBelow n).2.mem = s.mem := rfl
@[simp] theorem State.pickBelow_uncorr (n : Nat) : (s.pickBelow n).2.uncorr = s.uncorr := rfl
@[simp] theorem State.pickBelow_remote (n : Nat) : (s.pickBelow n).2.remote = s.remote := rfl
@[simp] theorem State.pickBelow_clock (n : Nat) : (s.pickBelow n).2.clock = s.clock := rfl
@[simp] theorem State.pickBelow_cores (n : Nat) : (s.pickBelow n).2.cores = s.cores := rfl
@[simp] theorem State.pickBelow_ctxs (n : Nat) : (s.pickBelow n).2.ctxs = s.ctxs := rfl
@[simp] theorem State.pickBelow_launches (n : Nat) : (s.pickBelow n).2.launches = s.launches := rfl
@[simp] theorem State.pickBelow_teams (n : Nat) : (s.pickBelow n).2.teams = s.teams := rfl
@[simp] theorem State.pickBelow_colls (n : Nat) : (s.pickBelow n).2.colls = s.colls := rfl
@[simp] theorem State.pickBelow_chunks (n : Nat) : (s.pickBelow n).2.chunks = s.chunks := rfl
@[simp] theorem State.pickBelow_wings (n : Nat) : (s.pickBelow n).2.wings = s.wings := rfl
@[simp] theorem State.pickBelow_trig (n : Nat) : (s.pickBelow n).2.trig = s.trig := rfl
@[simp] theorem State.pickBelow_drv (n : Nat) : (s.pickBelow n).2.drv = s.drv := rfl
@[simp] theorem State.pickBelow_rep (n : Nat) : (s.pickBelow n).2.rep = s.rep := rfl
@[simp] theorem State.pickBelow_span (n : Nat) : (s.pickBelow n).2.span = s.span := rfl
@[simp] theorem State.pickBelow_order (n : Nat) : (s.pickBelow n).2.order = s.order := rfl
@[simp] theorem State.pickBelow_fleet (n : Nat) : (s.pickBelow n).2.fleet = s.fleet := rfl
@[simp] theorem State.pickBelow_boot (n : Nat) : (s.pickBelow n).2.boot = s.boot := rfl

theorem State.pickBelow_lt {n : Nat} (h : 0 < n) : (s.pickBelow n).1 < n := Nat.mod_lt _ h

-- teams and gangs

theorem State.team_modTeam (id j : Nat) (g : Team → Team) :
    (s.modTeam id g).team? j = if j = id then (s.team? j).map g else s.team? j := Tab.find_modify s.teams id j g

@[simp] theorem State.team_modTeam_same (id : Nat) (g : Team → Team) : (s.modTeam id g).team? id = (s.team? id).map g :=
  Tab.find_modify_same s.teams id g

theorem State.team_modTeam_other {id j : Nat} (g : Team → Team) (h : j ≠ id) : (s.modTeam id g).team? j = s.team? j :=
  Tab.find_modify_other s.teams g h

theorem State.launch_modLaunch (id j : Nat) (g : Launch → Launch) :
    (s.modLaunch id g).launch? j = if j = id then (s.launch? j).map g else s.launch? j := Tab.find_modify s.launches id j g

theorem State.ctx_modCtx (k j : Nat) (g : Ctx → Ctx) : (s.modCtx k g).ctx j = if j = k then g (s.ctx k) else s.ctx j :=
  Tab.get_adjust s.ctxs {} k j g

@[simp] theorem State.ctx_modCtx_same (k : Nat) (g : Ctx → Ctx) : (s.modCtx k g).ctx k = g (s.ctx k) := by
  simp [State.ctx_modCtx]

theorem State.core_modCore (k j : Nat) (g : CoreRec → CoreRec) : (s.modCore k g).core j = if j = k then g (s.core k) else s.core j :=
  Tab.get_adjust s.cores {} k j g

variable (t : Team)

@[simp] theorem Team.modGang_launch (i : Nat) (g : Gang → Gang) : (t.modGang i g).launch = t.launch := rfl
@[simp] theorem Team.modGang_ctx (i : Nat) (g : Gang → Gang) : (t.modGang i g).ctx = t.ctx := rfl
@[simp] theorem Team.modGang_grid (i : Nat) (g : Gang → Gang) : (t.modGang i g).grid = t.grid := rfl
@[simp] theorem Team.modGang_index (i : Nat) (g : Gang → Gang) : (t.modGang i g).index = t.index := rfl
@[simp] theorem Team.modGang_core (i : Nat) (g : Gang → Gang) : (t.modGang i g).core = t.core := rfl
@[simp] theorem Team.modGang_places (i : Nat) (g : Gang → Gang) : (t.modGang i g).places = t.places := rfl
@[simp] theorem Team.modGang_parkedOut (i : Nat) (g : Gang → Gang) : (t.modGang i g).parkedOut = t.parkedOut := rfl
@[simp] theorem Team.modGang_status (i : Nat) (g : Gang → Gang) : (t.modGang i g).status = t.status := rfl
@[simp] theorem Team.modGang_nregs (i : Nat) (g : Gang → Gang) : (t.modGang i g).nregs = t.nregs := rfl
@[simp] theorem Team.modGang_spadSize (i : Nat) (g : Gang → Gang) : (t.modGang i g).spadSize = t.spadSize := rfl
@[simp] theorem Team.modGang_trapvec (i : Nat) (g : Gang → Gang) : (t.modGang i g).trapvec = t.trapvec := rfl
@[simp] theorem Team.modGang_cohort (i : Nat) (g : Gang → Gang) : (t.modGang i g).cohort = t.cohort := rfl
@[simp] theorem Team.modGang_spad (i : Nat) (g : Gang → Gang) : (t.modGang i g).spad = t.spad := rfl
@[simp] theorem Team.modGang_pending (i : Nat) (g : Gang → Gang) : (t.modGang i g).pending = t.pending := rfl
@[simp] theorem Team.modGang_sets (i : Nat) (g : Gang → Gang) : (t.modGang i g).sets = t.sets := rfl
@[simp] theorem Team.modGang_queues (i : Nat) (g : Gang → Gang) : (t.modGang i g).queues = t.queues := rfl
@[simp] theorem Team.modGang_pool (i : Nat) (g : Gang → Gang) : (t.modGang i g).pool = t.pool := rfl
@[simp] theorem Team.modGang_slots (i : Nat) (g : Gang → Gang) : (t.modGang i g).slots = t.slots := rfl
@[simp] theorem Team.modGang_abars (i : Nat) (g : Gang → Gang) : (t.modGang i g).abars = t.abars := rfl
@[simp] theorem Team.modGang_ops (i : Nat) (g : Gang → Gang) : (t.modGang i g).ops = t.ops := rfl
@[simp] theorem Team.modGang_mops (i : Nat) (g : Gang → Gang) : (t.modGang i g).mops = t.mops := rfl
@[simp] theorem Team.modGang_prq (i : Nat) (g : Gang → Gang) : (t.modGang i g).prq = t.prq := rfl
@[simp] theorem Team.modGang_prdl (i : Nat) (g : Gang → Gang) : (t.modGang i g).prdl = t.prdl := rfl
@[simp] theorem Team.modGang_halted (i : Nat) (g : Gang → Gang) : (t.modGang i g).halted = t.halted := rfl
@[simp] theorem Team.modGang_ws (i : Nat) (g : Gang → Gang) : (t.modGang i g).ws = t.ws := rfl
@[simp] theorem Team.modGang_kids (i : Nat) (g : Gang → Gang) : (t.modGang i g).kids = t.kids := rfl
@[simp] theorem Team.modGang_saveAt (i : Nat) (g : Gang → Gang) : (t.modGang i g).saveAt = t.saveAt := rfl

@[simp] theorem Team.modGang_length (i : Nat) (g : Gang → Gang) : (t.modGang i g).gangs.length = t.gangs.length := by
  simp [Team.modGang]

theorem Team.gang_modGang (i j : Nat) (g : Gang → Gang) :
    (t.modGang i g).gang j = if j = i ∧ i < t.gangs.length then g (t.gang j) else t.gang j := by
  unfold Team.gang Team.modGang
  simp only [List.getD_eq_getElem?_getD, List.getElem?_modify]
  by_cases h : j = i
  · subst h
    by_cases hl : j < t.gangs.length <;> simp [hl]
  · simp [h, Ne.symm h]

theorem Team.gang_modGang_same {i : Nat} (g : Gang → Gang) (h : i < t.gangs.length) : (t.modGang i g).gang i = g (t.gang i) := by
  simp [Team.gang_modGang, h]

theorem Team.gang_modGang_other {i j : Nat} (g : Gang → Gang) (h : j ≠ i) : (t.modGang i g).gang j = t.gang j := by
  simp [Team.gang_modGang, h]

theorem State.gang_modGang_same {s : State} {id i : Nat} {t : Team} (g : Gang → Gang) (ht : s.team? id = some t) (h : i < t.gangs.length) :
    (s.modGang id i g).gang id i = g (s.gang id i) := by
  simp only [State.gang, State.modGang, State.team_modTeam_same, ht, Option.map_some]
  exact Team.gang_modGang_same t g h

theorem State.team_modGang {s : State} {id i : Nat} {t : Team} (g : Gang → Gang) (ht : s.team? id = some t) :
    (s.modGang id i g).team? id = some (t.modGang i g) := by
  simp [State.modGang, ht]

theorem Team.modGang_modGang (i : Nat) (f g : Gang → Gang) : (t.modGang i f).modGang i g = t.modGang i (g ∘ f) := by
  simp only [Team.modGang, List.modify_modify_eq]

theorem State.modGang_modGang (s : State) (id i : Nat) (f g : Gang → Gang) :
    (s.modGang id i f).modGang id i g = s.modGang id i (g ∘ f) := by
  unfold State.modGang State.modTeam
  simp only [Tab.modify_modify]
  congr 2
  funext t
  exact Team.modGang_modGang t i f g

theorem State.gang_modGang_other {s : State} {id i j k : Nat} (g : Gang → Gang) (h : j ≠ id ∨ k ≠ i) :
    (s.modGang id i g).gang j k = s.gang j k := by
  simp only [State.gang, State.modGang, State.team_modTeam]
  by_cases hj : j = id
  · subst hj
    rcases h with h | h
    · exact absurd rfl h
    · cases hs : s.team? j with
      | none => simp
      | some t => simp [Team.gang_modGang_other t g h]
  · simp [hj]

variable (x : Gang)

@[simp] theorem Gang.modSlice_ganged (i : Nat) (g : Slice → Slice) : (x.modSlice i g).ganged = x.ganged := rfl
@[simp] theorem Gang.modSlice_v (i : Nat) (g : Slice → Slice) : (x.modSlice i g).v = x.v := rfl
@[simp] theorem Gang.modSlice_n (i : Nat) (g : Slice → Slice) : (x.modSlice i g).n = x.n := rfl
@[simp] theorem Gang.modSlice_b (i : Nat) (g : Slice → Slice) : (x.modSlice i g).b = x.b := rfl
@[simp] theorem Gang.modSlice_s (i : Nat) (g : Slice → Slice) : (x.modSlice i g).s = x.s := rfl
@[simp] theorem Gang.modSlice_m (i : Nat) (g : Slice → Slice) : (x.modSlice i g).m = x.m := rfl
@[simp] theorem Gang.modSlice_t (i : Nat) (g : Slice → Slice) : (x.modSlice i g).t = x.t := rfl
@[simp] theorem Gang.modSlice_g (i : Nat) (g : Slice → Slice) : (x.modSlice i g).g = x.g := rfl
@[simp] theorem Gang.modSlice_cc (i : Nat) (g : Slice → Slice) : (x.modSlice i g).cc = x.cc := rfl
@[simp] theorem Gang.modSlice_fpmode (i : Nat) (g : Slice → Slice) : (x.modSlice i g).fpmode = x.fpmode := rfl
@[simp] theorem Gang.modSlice_flags (i : Nat) (g : Slice → Slice) : (x.modSlice i g).flags = x.flags := rfl
@[simp] theorem Gang.modSlice_stkptr (i : Nat) (g : Slice → Slice) : (x.modSlice i g).stkptr = x.stkptr := rfl
@[simp] theorem Gang.modSlice_stklim (i : Nat) (g : Slice → Slice) : (x.modSlice i g).stklim = x.stklim := rfl
@[simp] theorem Gang.modSlice_stack (i : Nat) (g : Slice → Slice) : (x.modSlice i g).stack = x.stack := rfl
@[simp] theorem Gang.modSlice_queue (i : Nat) (g : Slice → Slice) : (x.modSlice i g).queue = x.queue := rfl
@[simp] theorem Gang.modSlice_handler (i : Nat) (g : Slice → Slice) : (x.modSlice i g).handler = x.handler := rfl
@[simp] theorem Gang.modSlice_savedGanged (i : Nat) (g : Slice → Slice) : (x.modSlice i g).savedGanged = x.savedGanged := rfl
@[simp] theorem Gang.modSlice_savedApplied (i : Nat) (g : Slice → Slice) : (x.modSlice i g).savedApplied = x.savedApplied := rfl
@[simp] theorem Gang.modSlice_savedPlain (i : Nat) (g : Slice → Slice) : (x.modSlice i g).savedPlain = x.savedPlain := rfl
@[simp] theorem Gang.modSlice_savedWaits (i : Nat) (g : Slice → Slice) : (x.modSlice i g).savedWaits = x.savedWaits := rfl
@[simp] theorem Gang.modSlice_trec (i : Nat) (g : Slice → Slice) : (x.modSlice i g).trec = x.trec := rfl
@[simp] theorem Gang.modSlice_applied (i : Nat) (g : Slice → Slice) : (x.modSlice i g).applied = x.applied := rfl
@[simp] theorem Gang.modSlice_plainDone (i : Nat) (g : Slice → Slice) : (x.modSlice i g).plainDone = x.plainDone := rfl
@[simp] theorem Gang.modSlice_pend (i : Nat) (g : Slice → Slice) : (x.modSlice i g).pend = x.pend := rfl
@[simp] theorem Gang.modSlice_lastBatch (i : Nat) (g : Slice → Slice) : (x.modSlice i g).lastBatch = x.lastBatch := rfl
@[simp] theorem Gang.modSlice_gissue (i : Nat) (g : Slice → Slice) : (x.modSlice i g).gissue = x.gissue := rfl
@[simp] theorem Gang.modSlice_gparted (i : Nat) (g : Slice → Slice) : (x.modSlice i g).gparted = x.gparted := rfl

@[simp] theorem Gang.modSlices_ganged (l : List Nat) (g : Slice → Slice) : (x.modSlices l g).ganged = x.ganged := by
  induction l generalizing x with
  | nil => rfl
  | cons a r ih => exact (ih (x.modSlice a g)).trans rfl

@[simp] theorem Gang.modSlices_v (l : List Nat) (g : Slice → Slice) : (x.modSlices l g).v = x.v := by
  induction l generalizing x with
  | nil => rfl
  | cons a r ih => exact (ih (x.modSlice a g)).trans rfl

@[simp] theorem Gang.modSlices_n (l : List Nat) (g : Slice → Slice) : (x.modSlices l g).n = x.n := by
  induction l generalizing x with
  | nil => rfl
  | cons a r ih => exact (ih (x.modSlice a g)).trans rfl

@[simp] theorem Gang.modSlices_b (l : List Nat) (g : Slice → Slice) : (x.modSlices l g).b = x.b := by
  induction l generalizing x with
  | nil => rfl
  | cons a r ih => exact (ih (x.modSlice a g)).trans rfl

@[simp] theorem Gang.modSlices_s (l : List Nat) (g : Slice → Slice) : (x.modSlices l g).s = x.s := by
  induction l generalizing x with
  | nil => rfl
  | cons a r ih => exact (ih (x.modSlice a g)).trans rfl

@[simp] theorem Gang.modSlices_m (l : List Nat) (g : Slice → Slice) : (x.modSlices l g).m = x.m := by
  induction l generalizing x with
  | nil => rfl
  | cons a r ih => exact (ih (x.modSlice a g)).trans rfl

@[simp] theorem Gang.modSlices_t (l : List Nat) (g : Slice → Slice) : (x.modSlices l g).t = x.t := by
  induction l generalizing x with
  | nil => rfl
  | cons a r ih => exact (ih (x.modSlice a g)).trans rfl

@[simp] theorem Gang.modSlices_g (l : List Nat) (g : Slice → Slice) : (x.modSlices l g).g = x.g := by
  induction l generalizing x with
  | nil => rfl
  | cons a r ih => exact (ih (x.modSlice a g)).trans rfl

@[simp] theorem Gang.modSlices_cc (l : List Nat) (g : Slice → Slice) : (x.modSlices l g).cc = x.cc := by
  induction l generalizing x with
  | nil => rfl
  | cons a r ih => exact (ih (x.modSlice a g)).trans rfl

@[simp] theorem Gang.modSlices_fpmode (l : List Nat) (g : Slice → Slice) : (x.modSlices l g).fpmode = x.fpmode := by
  induction l generalizing x with
  | nil => rfl
  | cons a r ih => exact (ih (x.modSlice a g)).trans rfl

@[simp] theorem Gang.modSlices_flags (l : List Nat) (g : Slice → Slice) : (x.modSlices l g).flags = x.flags := by
  induction l generalizing x with
  | nil => rfl
  | cons a r ih => exact (ih (x.modSlice a g)).trans rfl

@[simp] theorem Gang.modSlices_stkptr (l : List Nat) (g : Slice → Slice) : (x.modSlices l g).stkptr = x.stkptr := by
  induction l generalizing x with
  | nil => rfl
  | cons a r ih => exact (ih (x.modSlice a g)).trans rfl

@[simp] theorem Gang.modSlices_stklim (l : List Nat) (g : Slice → Slice) : (x.modSlices l g).stklim = x.stklim := by
  induction l generalizing x with
  | nil => rfl
  | cons a r ih => exact (ih (x.modSlice a g)).trans rfl

@[simp] theorem Gang.modSlices_stack (l : List Nat) (g : Slice → Slice) : (x.modSlices l g).stack = x.stack := by
  induction l generalizing x with
  | nil => rfl
  | cons a r ih => exact (ih (x.modSlice a g)).trans rfl

@[simp] theorem Gang.modSlices_queue (l : List Nat) (g : Slice → Slice) : (x.modSlices l g).queue = x.queue := by
  induction l generalizing x with
  | nil => rfl
  | cons a r ih => exact (ih (x.modSlice a g)).trans rfl

@[simp] theorem Gang.modSlices_handler (l : List Nat) (g : Slice → Slice) : (x.modSlices l g).handler = x.handler := by
  induction l generalizing x with
  | nil => rfl
  | cons a r ih => exact (ih (x.modSlice a g)).trans rfl

@[simp] theorem Gang.modSlices_savedGanged (l : List Nat) (g : Slice → Slice) : (x.modSlices l g).savedGanged = x.savedGanged := by
  induction l generalizing x with
  | nil => rfl
  | cons a r ih => exact (ih (x.modSlice a g)).trans rfl

@[simp] theorem Gang.modSlices_savedApplied (l : List Nat) (g : Slice → Slice) : (x.modSlices l g).savedApplied = x.savedApplied := by
  induction l generalizing x with
  | nil => rfl
  | cons a r ih => exact (ih (x.modSlice a g)).trans rfl

@[simp] theorem Gang.modSlices_savedPlain (l : List Nat) (g : Slice → Slice) : (x.modSlices l g).savedPlain = x.savedPlain := by
  induction l generalizing x with
  | nil => rfl
  | cons a r ih => exact (ih (x.modSlice a g)).trans rfl

@[simp] theorem Gang.modSlices_savedWaits (l : List Nat) (g : Slice → Slice) : (x.modSlices l g).savedWaits = x.savedWaits := by
  induction l generalizing x with
  | nil => rfl
  | cons a r ih => exact (ih (x.modSlice a g)).trans rfl

@[simp] theorem Gang.modSlices_trec (l : List Nat) (g : Slice → Slice) : (x.modSlices l g).trec = x.trec := by
  induction l generalizing x with
  | nil => rfl
  | cons a r ih => exact (ih (x.modSlice a g)).trans rfl

@[simp] theorem Gang.modSlices_applied (l : List Nat) (g : Slice → Slice) : (x.modSlices l g).applied = x.applied := by
  induction l generalizing x with
  | nil => rfl
  | cons a r ih => exact (ih (x.modSlice a g)).trans rfl

@[simp] theorem Gang.modSlices_plainDone (l : List Nat) (g : Slice → Slice) : (x.modSlices l g).plainDone = x.plainDone := by
  induction l generalizing x with
  | nil => rfl
  | cons a r ih => exact (ih (x.modSlice a g)).trans rfl

@[simp] theorem Gang.modSlices_pend (l : List Nat) (g : Slice → Slice) : (x.modSlices l g).pend = x.pend := by
  induction l generalizing x with
  | nil => rfl
  | cons a r ih => exact (ih (x.modSlice a g)).trans rfl

@[simp] theorem Gang.modSlices_lastBatch (l : List Nat) (g : Slice → Slice) : (x.modSlices l g).lastBatch = x.lastBatch := by
  induction l generalizing x with
  | nil => rfl
  | cons a r ih => exact (ih (x.modSlice a g)).trans rfl

@[simp] theorem Gang.modSlices_gissue (l : List Nat) (g : Slice → Slice) : (x.modSlices l g).gissue = x.gissue := by
  induction l generalizing x with
  | nil => rfl
  | cons a r ih => exact (ih (x.modSlice a g)).trans rfl

@[simp] theorem Gang.modSlices_gparted (l : List Nat) (g : Slice → Slice) : (x.modSlices l g).gparted = x.gparted := by
  induction l generalizing x with
  | nil => rfl
  | cons a r ih => exact (ih (x.modSlice a g)).trans rfl

@[simp] theorem Gang.countIssue_slices (l : List Nat) : (x.countIssue l).slices = x.slices := rfl
@[simp] theorem Gang.countIssue_ganged (l : List Nat) : (x.countIssue l).ganged = x.ganged := rfl
@[simp] theorem Gang.countIssue_v (l : List Nat) : (x.countIssue l).v = x.v := rfl
@[simp] theorem Gang.countIssue_n (l : List Nat) : (x.countIssue l).n = x.n := rfl
@[simp] theorem Gang.countIssue_b (l : List Nat) : (x.countIssue l).b = x.b := rfl
@[simp] theorem Gang.countIssue_s (l : List Nat) : (x.countIssue l).s = x.s := rfl
@[simp] theorem Gang.countIssue_m (l : List Nat) : (x.countIssue l).m = x.m := rfl
@[simp] theorem Gang.countIssue_t (l : List Nat) : (x.countIssue l).t = x.t := rfl
@[simp] theorem Gang.countIssue_g (l : List Nat) : (x.countIssue l).g = x.g := rfl
@[simp] theorem Gang.countIssue_cc (l : List Nat) : (x.countIssue l).cc = x.cc := rfl
@[simp] theorem Gang.countIssue_fpmode (l : List Nat) : (x.countIssue l).fpmode = x.fpmode := rfl
@[simp] theorem Gang.countIssue_flags (l : List Nat) : (x.countIssue l).flags = x.flags := rfl
@[simp] theorem Gang.countIssue_stkptr (l : List Nat) : (x.countIssue l).stkptr = x.stkptr := rfl
@[simp] theorem Gang.countIssue_stklim (l : List Nat) : (x.countIssue l).stklim = x.stklim := rfl
@[simp] theorem Gang.countIssue_stack (l : List Nat) : (x.countIssue l).stack = x.stack := rfl
@[simp] theorem Gang.countIssue_queue (l : List Nat) : (x.countIssue l).queue = x.queue := rfl
@[simp] theorem Gang.countIssue_handler (l : List Nat) : (x.countIssue l).handler = x.handler := rfl
@[simp] theorem Gang.countIssue_savedGanged (l : List Nat) : (x.countIssue l).savedGanged = x.savedGanged := rfl
@[simp] theorem Gang.countIssue_savedApplied (l : List Nat) : (x.countIssue l).savedApplied = x.savedApplied := rfl
@[simp] theorem Gang.countIssue_savedPlain (l : List Nat) : (x.countIssue l).savedPlain = x.savedPlain := rfl
@[simp] theorem Gang.countIssue_savedWaits (l : List Nat) : (x.countIssue l).savedWaits = x.savedWaits := rfl
@[simp] theorem Gang.countIssue_trec (l : List Nat) : (x.countIssue l).trec = x.trec := rfl
@[simp] theorem Gang.countIssue_lastBatch (l : List Nat) : (x.countIssue l).lastBatch = x.lastBatch := rfl

end Sys2Proof.Machine
end

