-- ==== Sys2Proof/Laws/Gang.lean ====
section
/-! SUPPORT. Laws of one gang: registers read after they are written, slices that pass an instruction, and the bypass file. -/

namespace Sys2Proof.Machine

open Sys2Proof

variable (g : Gang)

/-- Lane register keys do not collide below lane 32. -/
theorem laneKey_inj {r q l k : Nat} (hl : l < 32) (hk : k < 32) : 32 * r + l = 32 * q + k ↔ r = q ∧ l = k := by omega

theorem Gang.rdV_wrV {r q l k : Nat} (x : W32) (hl : l < 32) (hk : k < 32) :
    (g.wrV r l x).rdV q k = if q = r ∧ k = l then x else g.rdV q k := by
  simp only [Gang.rdV, Gang.wrV, Tab.get_set, laneKey_inj hk hl]
theorem Gang.rdN_wrN {r q l k : Nat} (x : W32) (hl : l < 32) (hk : k < 32) :
    (g.wrN r l x).rdN q k = if q = r ∧ k = l then x else g.rdN q k := by
  simp only [Gang.rdN, Gang.wrN, Tab.get_set, laneKey_inj hk hl]
theorem Gang.rdB_wrB {r q l k : Nat} (x : W64) (hl : l < 32) (hk : k < 32) :
    (g.wrB r l x).rdB q k = if q = r ∧ k = l then x else g.rdB q k := by
  simp only [Gang.rdB, Gang.wrB, Tab.get_set, laneKey_inj hk hl]
theorem Gang.rdS_wrS (r q : Nat) (x : W64) : (g.wrS r x).rdS q = if q = r then x else g.rdS q := by
  simp only [Gang.rdS, Gang.wrS, Tab.get_set]
theorem Gang.rdG_wrG (r q : Nat) (x : W32) : (g.wrG r x).rdG q = if q = r then x else g.rdG q := by
  simp only [Gang.rdG, Gang.wrG, Tab.get_set]
theorem Gang.rdT_wrT (r q : Nat) (x : W128) : (g.wrT r x).rdT q = if q = r then x else g.rdT q := by
  simp only [Gang.rdT, Gang.wrT, Tab.get_set]
theorem Gang.rdM_wrM (r q : Nat) (x : W32) : (g.wrM r x).rdM q = if q = r ∧ r ≠ 0 then x else g.rdM q := by
  unfold Gang.rdM Gang.wrM
  by_cases h : r = 0
  · simp [h]
  · by_cases hq : q = 0
    · simp [hq, Ne.symm h, h]
    · simp only [h, hq, if_false, Tab.get_set]
      by_cases e : q = r <;> simp [e, h]

-- the other registers of a register write

@[simp] theorem Gang.wrV_n (r l : Nat) (x : W32) : (g.wrV r l x).n = g.n := rfl
@[simp] theorem Gang.wrV_b (r l : Nat) (x : W32) : (g.wrV r l x).b = g.b := rfl
@[simp] theorem Gang.wrN_v (r l : Nat) (x : W32) : (g.wrN r l x).v = g.v := rfl
@[simp] theorem Gang.wrN_b (r l : Nat) (x : W32) : (g.wrN r l x).b = g.b := rfl
@[simp] theorem Gang.wrB_v (r l : Nat) (x : W64) : (g.wrB r l x).v = g.v := rfl
@[simp] theorem Gang.wrB_n (r l : Nat) (x : W64) : (g.wrB r l x).n = g.n := rfl

-- slices

theorem Gang.slice_modSlice (i k : Nat) (f : Slice → Slice) :
    (g.modSlice i f).slice k = if k = i ∧ i < g.slices.length then f (g.slice k) else g.slice k := by
  unfold Gang.slice Gang.modSlice
  simp only [List.getD_eq_getElem?_getD, List.getElem?_modify]
  by_cases h : k = i
  · subst h
    by_cases hl : k < g.slices.length <;> simp [hl]
  · simp [h, Ne.symm h]

@[simp] theorem Gang.modSlice_length (i : Nat) (f : Slice → Slice) : (g.modSlice i f).slices.length = g.slices.length := by
  simp [Gang.modSlice]

@[simp] theorem Gang.modSlices_length (l : List Nat) (f : Slice → Slice) : (g.modSlices l f).slices.length = g.slices.length := by
  induction l generalizing g with
  | nil => rfl
  | cons a r ih => exact (ih (g.modSlice a f)).trans (by simp)

theorem Gang.slice_modSlices_other {l : List Nat} {k : Nat} (f : Slice → Slice) (h : k ∉ l) : (g.modSlices l f).slice k = g.slice k := by
  induction l generalizing g with
  | nil => rfl
  | cons a r ih =>
    rw [List.mem_cons, not_or] at h
    exact (ih (g.modSlice a f) h.2).trans (by simp [Gang.slice_modSlice, h.1])

theorem Gang.slice_modSlices_mem {l : List Nat} {k : Nat} (f : Slice → Slice) (h : k ∈ l) (hn : l.Nodup) (hk : k < g.slices.length) :
    (g.modSlices l f).slice k = f (g.slice k) := by
  induction l generalizing g with
  | nil => simp at h
  | cons a r ih =>
    rw [List.nodup_cons] at hn
    rcases List.mem_cons.mp h with rfl | h'
    · exact (Gang.slice_modSlices_other (g.modSlice k f) f hn.1).trans (by simp [Gang.slice_modSlice, hk])
    · have hne : k ≠ a := fun e => hn.1 (e ▸ h')
      exact (ih (g.modSlice a f) h' hn.2 (by simpa using hk)).trans (by simp [Gang.slice_modSlice, hne])

/-- A live slice is one of the gang's slices. -/
theorem Gang.live_lt {k : Nat} (h : (g.slice k).live = true) : k < g.slices.length := by
  by_contra hk
  simp [Gang.slice, List.getD_eq_getElem?_getD, List.getElem?_eq_none (by omega : g.slices.length ≤ k)] at h

theorem Gang.liveSlices_nodup : g.liveSlices.Nodup := List.Nodup.filter _ (List.nodup_range)

theorem Gang.mem_liveSlices {k : Nat} : k ∈ g.liveSlices ↔ k < 8 ∧ (g.slice k).live = true := by
  simp [Gang.liveSlices]

/-- Passing moves the passing slices to the following slot, and no other. -/
theorem Gang.slice_pass {l : List Nat} {k : Nat} (h : k ∈ l) (hn : l.Nodup) (hk : (g.slice k).live = true) :
    (g.pass l).slice k = { g.slice k with pc := nextSlot (g.slice k).pc, wait := .ready } :=
  Gang.slice_modSlices_mem g _ h hn (g.live_lt hk)

theorem Gang.slice_pass_other {l : List Nat} {k : Nat} (h : k ∉ l) : (g.pass l).slice k = g.slice k :=
  Gang.slice_modSlices_other g _ h

theorem Gang.slice_goTo {l : List Nat} {k : Nat} (a : W64) (h : k ∈ l) (hn : l.Nodup) (hk : (g.slice k).live = true) :
    (g.goTo l a).slice k = { g.slice k with pc := a, wait := .ready } :=
  Gang.slice_modSlices_mem g _ h hn (g.live_lt hk)

theorem Gang.slice_goTo_other {l : List Nat} {k : Nat} (a : W64) (h : k ∉ l) : (g.goTo l a).slice k = g.slice k :=
  Gang.slice_modSlices_other g _ h

-- lanes

theorem mem_lanesOf {l : List Nat} {n : Nat} : n ∈ lanesOf l ↔ n / 4 ∈ l := by
  simp only [lanesOf, List.mem_flatMap, List.mem_cons, List.not_mem_nil, or_false]
  constructor
  · rintro ⟨k, hk, h⟩
    have : n / 4 = k := by omega
    exact this ▸ hk
  · intro h
    exact ⟨n / 4, h, by omega⟩

theorem lanesOf_lt {l : List Nat} (h : ∀ k ∈ l, k < 8) {n : Nat} (hn : n ∈ lanesOf l) : n < 32 := by
  have := h _ (mem_lanesOf.mp hn)
  omega

theorem lanesOf_nodup {l : List Nat} (h : l.Nodup) : (lanesOf l).Nodup := by
  induction l with
  | nil => simp [lanesOf]
  | cons a r ih =>
    rw [List.nodup_cons] at h
    have he : lanesOf (a :: r) = [4 * a, 4 * a + 1, 4 * a + 2, 4 * a + 3] ++ lanesOf r := rfl
    rw [he, List.nodup_append]
    refine ⟨by simp, ih h.2, ?_⟩
    intro x hx y hy
    have h1 : x / 4 = a := by simp at hx; omega
    have h2 := mem_lanesOf.mp hy
    rintro rfl
    exact h.1 (h1 ▸ h2)

end Sys2Proof.Machine
end

