-- ==== Sys2Proof/Laws/Lane.lean ====
section
/-! SUPPORT. What the lane forms do, said once: class S, class L and lane comparisons (R222, R257, R258, R261). -/

namespace Sys2Proof.Machine

open Sys2Proof

/-- A result of the issuing unit that is settled is a performed instruction. -/
theorem settle_ok (s t : State) (p : Performer) : s.settle p (.ok t) = .next (s.after p t) := rfl

theorem Issues.find {s : State} {i : Issuer} (hi : s.Issues i) : s.issuer? = some i := hi.1

theorem Issuer.eq {s : State} {i : Issuer} (h : s.issuer? = some i) :
    s.team? i.unit.team = some i.tm ∧ i.g = i.tm.gang i.unit.gang ∧ i.slices = unitSlices i.g i.unit := by
  unfold State.issuer? at h
  split at h
  · cases h
  · split at h
    · cases h
    · rename_i u _ t ht
      cases h
      exact ⟨ht, rfl, rfl⟩

/-- Two changes of the issuing gang that agree on it are the same. -/
theorem State.modGang_congr {s : State} {i : Issuer} (hi : s.issuer? = some i) (f f' : Gang → Gang) (h : f i.g = f' i.g) :
    s.modGang i.unit.team i.unit.gang f = s.modGang i.unit.team i.unit.gang f' := by
  obtain ⟨ht, hg, -⟩ := Issuer.eq hi
  unfold State.modGang State.modTeam
  congr 1
  unfold State.team? at ht
  simp only [Tab.modify, ht]
  congr 1
  unfold Team.modGang
  congr 1
  apply List.ext_getElem? 
  intro n
  simp only [List.getElem?_modify]
  by_cases hn : i.unit.gang = n
  · subst hn
    simp only [if_true]
    cases hgn : i.tm.gangs[i.unit.gang]? with
    | none => rfl
    | some x =>
      have : i.g = x := by rw [hg, Team.gang, List.getD_eq_getElem?_getD, hgn]; rfl
      simp [← this, h]
  · simp [hn]

theorem State.modGang_withGang {s : State} {i : Issuer} (hi : s.issuer? = some i) (f : Gang → Gang) :
    s.modGang i.unit.team i.unit.gang f = s.withGang i (f i.g) := State.modGang_congr hi f _ rfl

theorem perform_ok {s : State} {i : Issuer} (hi : s.issuer? = some i) (h : Option Hdr) (f : Issuer → Except Stop State) {t : State} (ht : f i = .ok t) :
    s.perform h f = .next (s.after i.performer t) := by
  simp only [State.perform, hi, ht, settle_ok]
  rfl

theorem lane_ok {s : State} {i : Issuer} {h : Hdr} (hi : s.issuer? = some i) (hs : h.scp = .lane) (f : Issuer → Except Stop State) {t : State}
    (ht : f i = .ok t) : s.lane h f = .next (s.after i.performer t) := by
  unfold State.lane
  simp only [hi, hs, if_true, ht, settle_ok]
  rfl

-- writing lanes

variable (g : Gang)

theorem Gang.wrLane_b (w : Bool) (o : Operand) (l x : Nat) : (g.wrLane w o l x).b = g.b := by
  cases o <;> cases w <;> rfl

theorem Gang.rdV_wrLane {w : Bool} {o : Operand} {l x r k : Nat} (hl : l < 32) (hk : k < 32) (hr : dstHoldsV o w r = false ∨ k ≠ l) :
    (g.wrLane w o l x).rdV r k = g.rdV r k := by
  cases o <;> cases w <;> simp_all [Gang.wrLane, dstHoldsV, Gang.wrV2, Gang.rdV_wrV] <;> try rfl
  all_goals (rcases hr with hr | hr <;> simp_all)

theorem Gang.rdN_wrLane {w : Bool} {o : Operand} {l x r k : Nat} (hl : l < 32) (hk : k < 32) (hr : dstHoldsN o w r = false ∨ k ≠ l) :
    (g.wrLane w o l x).rdN r k = g.rdN r k := by
  cases o <;> cases w <;> simp_all [Gang.wrLane, dstHoldsN, Gang.wrN2, Gang.rdN_wrN] <;> try rfl
  all_goals (rcases hr with hr | hr <;> simp_all)

/-- The halves of a 64-bit value joined again. -/
theorem halves (x : Nat) : ((BitVec.ofNat 64 x).extractLsb' 32 32 ++ (BitVec.ofNat 64 x).extractLsb' 0 32 : BitVec 64) = BitVec.ofNat 64 x := by
  apply BitVec.eq_of_getLsbD_eq
  intro i hi
  simp only [BitVec.getLsbD_append, BitVec.getLsbD_extractLsb']
  by_cases h : i < 32
  · simp [h]
  · have : i - 32 < 32 := by omega
    have e : 32 + (i - 32) = i := by omega
    simp [h, this, e]

/-- A lane destination that a lane instruction may name, but for b0. -/
def isLaneReg : Operand → Bool | .v _ => true | .n _ => true | _ => false

theorem Gang.rdReg_wrLane {w : Bool} {o : Operand} {l : Nat} (x : Nat) (hl : l < 32) (ho : isLaneReg o = true) :
    (g.wrLane w o l x).rdReg w o l = x % 2 ^ (if w then 64 else 32) := by
  cases o <;> simp [isLaneReg] at ho <;> cases w <;>
    simp [Gang.wrLane, Gang.rdReg, Gang.rdV2, Gang.wrV2, Gang.rdN2, Gang.wrN2, Gang.rdV_wrV, Gang.rdN_wrN, hl, halves]

theorem Gang.rdReg_wrLane_other {w : Bool} {o : Operand} {l k : Nat} (x : Nat) (hl : l < 32) (hk : k < 32) (h : k ≠ l) (ho : isLaneReg o = true) :
    (g.wrLane w o l x).rdReg w o k = g.rdReg w o k := by
  cases o <;> simp [isLaneReg] at ho <;> cases w <;>
    simp [Gang.wrLane, Gang.rdReg, Gang.rdV2, Gang.wrV2, Gang.rdN2, Gang.wrN2, Gang.rdV_wrV, Gang.rdN_wrN, hl, hk, h]

/-- Lanes written one after another. -/
def Gang.wrLanes (g : Gang) (w : Bool) (d : Operand) (ls : List Nat) (res : Nat → Nat) : Gang := ls.foldl (fun h l => h.wrLane w d l (res l)) g

theorem Gang.wrLanes_b (w : Bool) (d : Operand) (ls : List Nat) (res : Nat → Nat) : (g.wrLanes w d ls res).b = g.b := by
  induction ls generalizing g with
  | nil => rfl
  | cons a r ih => exact (ih (g.wrLane w d a (res a))).trans (Gang.wrLane_b g w d a _)

theorem Gang.wrLanes_rdV {w : Bool} {d : Operand} {ls : List Nat} {res : Nat → Nat} {r k : Nat} (hls : ∀ l ∈ ls, l < 32) (hk : k < 32)
    (hr : dstHoldsV d w r = false ∨ k ∉ ls) : (g.wrLanes w d ls res).rdV r k = g.rdV r k := by
  induction ls generalizing g with
  | nil => rfl
  | cons a l ih =>
    have ha := hls a (by simp)
    have h1 : dstHoldsV d w r = false ∨ k ≠ a := hr.imp id (fun h e => h (by simp [e]))
    have h2 : dstHoldsV d w r = false ∨ k ∉ l := hr.imp id (fun h e => h (by simp [e]))
    exact (ih (g.wrLane w d a (res a)) (fun x hx => hls x (by simp [hx])) h2).trans (Gang.rdV_wrLane g ha hk h1)

theorem Gang.wrLanes_rdN {w : Bool} {d : Operand} {ls : List Nat} {res : Nat → Nat} {r k : Nat} (hls : ∀ l ∈ ls, l < 32) (hk : k < 32)
    (hr : dstHoldsN d w r = false ∨ k ∉ ls) : (g.wrLanes w d ls res).rdN r k = g.rdN r k := by
  induction ls generalizing g with
  | nil => rfl
  | cons a l ih =>
    have ha := hls a (by simp)
    have h1 : dstHoldsN d w r = false ∨ k ≠ a := hr.imp id (fun h e => h (by simp [e]))
    have h2 : dstHoldsN d w r = false ∨ k ∉ l := hr.imp id (fun h e => h (by simp [e]))
    exact (ih (g.wrLane w d a (res a)) (fun x hx => hls x (by simp [hx])) h2).trans (Gang.rdN_wrLane g ha hk h1)

theorem Gang.wrLanes_other {w : Bool} {d : Operand} {ls : List Nat} {res : Nat → Nat} {k : Nat} (hls : ∀ l ∈ ls, l < 32) (hk : k < 32)
    (ho : isLaneReg d = true) (h : k ∉ ls) : (g.wrLanes w d ls res).rdReg w d k = g.rdReg w d k := by
  induction ls generalizing g with
  | nil => rfl
  | cons a l ih =>
    rw [List.mem_cons, not_or] at h
    exact (ih (g.wrLane w d a (res a)) (fun x hx => hls x (by simp [hx])) h.2).trans
      (Gang.rdReg_wrLane_other g _ (hls a (by simp)) hk h.1 ho)

theorem Gang.wrLanes_mem {w : Bool} {d : Operand} {ls : List Nat} {res : Nat → Nat} {k : Nat} (hls : ∀ l ∈ ls, l < 32)
    (ho : isLaneReg d = true) (h : k ∈ ls) (hn : ls.Nodup) : (g.wrLanes w d ls res).rdReg w d k = res k % 2 ^ (if w then 64 else 32) := by
  induction ls generalizing g with
  | nil => simp at h
  | cons a l ih =>
    rw [List.nodup_cons] at hn
    have hl : ∀ x ∈ l, x < 32 := fun x hx => hls x (by simp [hx])
    rcases List.mem_cons.mp h with rfl | h'
    · exact (Gang.wrLanes_other (g.wrLane w d k (res k)) hl (hls k (by simp)) ho hn.1).trans (Gang.rdReg_wrLane g _ (hls k (by simp)) ho)
    · exact ih (g.wrLane w d a (res a)) hl h' hn.2

theorem Gang.wrLanes_same (w : Bool) (d : Operand) (ls : List Nat) (res : Nat → Nat) :
    g.wrLanes w d ls res = { g with v := (g.wrLanes w d ls res).v, n := (g.wrLanes w d ls res).n } := by
  induction ls generalizing g with
  | nil => rfl
  | cons a r ih =>
    have h : (g.wrLane w d a (res a)) = { g with v := (g.wrLane w d a (res a)).v, n := (g.wrLane w d a (res a)).n } := by
      cases d <;> cases w <;> rfl
    have e : g.wrLanes w d (a :: r) res = (g.wrLane w d a (res a)).wrLanes w d r res := rfl
    rw [e, ih, h]

-- the bypass file

/-- One lane's shift (R228). -/
def Gang.shiftLane (g h : Gang) (l : Nat) (x : W64) : Gang :=
  (((h.wrB 3 l (g.rdB 2 l)).wrB 2 l (g.rdB 1 l)).wrB 1 l (g.rdB 0 l)).wrB 0 l x

theorem shiftLanes_same (g h : Gang) (ls : List Nat) (new : Nat → W64) :
    ls.foldl (fun h l => g.shiftLane h l (new l)) h = { h with b := (ls.foldl (fun h l => g.shiftLane h l (new l)) h).b } := by
  induction ls generalizing h with
  | nil => rfl
  | cons a r ih => simp only [List.foldl_cons]; rw [ih]; rfl

theorem shiftLane_other (g h : Gang) {l r k : Nat} (x : W64) (hl : l < 32) (hk : k < 32) (hkl : k ≠ l) : (g.shiftLane h l x).rdB r k = h.rdB r k := by
  simp [Gang.shiftLane, Gang.rdB_wrB, hl, hk, hkl]

theorem shiftLanes_other (g h : Gang) {ls : List Nat} (new : Nat → W64) {r k : Nat} (hls : ∀ l ∈ ls, l < 32) (hk : k < 32) (h1 : k ∉ ls) :
    (ls.foldl (fun h l => g.shiftLane h l (new l)) h).rdB r k = h.rdB r k := by
  induction ls generalizing h with
  | nil => rfl
  | cons a l ih =>
    rw [List.mem_cons, not_or] at h1
    exact (ih (g.shiftLane h a (new a)) (fun x hx => hls x (by simp [hx])) h1.2).trans (shiftLane_other g h _ (hls a (by simp)) hk h1.1)

theorem shiftLanes_mem (g h : Gang) {ls : List Nat} (new : Nat → W64) {k : Nat} (hls : ∀ l ∈ ls, l < 32) (hn : ls.Nodup) (h1 : k ∈ ls) :
    let r := ls.foldl (fun h l => g.shiftLane h l (new l)) h
    r.rdB 0 k = new k ∧ r.rdB 1 k = g.rdB 0 k ∧ r.rdB 2 k = g.rdB 1 k ∧ r.rdB 3 k = g.rdB 2 k := by
  induction ls generalizing h with
  | nil => simp at h1
  | cons a l ih =>
    rw [List.nodup_cons] at hn
    have hl : ∀ x ∈ l, x < 32 := fun x hx => hls x (by simp [hx])
    rcases List.mem_cons.mp h1 with rfl | h'
    · have hk := hls k (by simp)
      simp only [List.foldl_cons, shiftLanes_other g _ new hl hk hn.1]
      simp [Gang.shiftLane, Gang.rdB_wrB, hk]
    · exact ih (g.shiftLane h a (new a)) hl hn.2 h'

theorem Gang.shiftBypass_eq (ls : List Nat) (new : Nat → W64) : g.shiftBypass ls new = ls.foldl (fun h l => g.shiftLane h l (new l)) g := rfl

/-- The lane results of an instruction are found again. -/
theorem resultOf_map (ls : List Nat) (f : Nat → Nat × Exc) {l : Nat} (h : l ∈ ls) : resultOf (ls.map (fun l => (l, f l))) l = (f l).1 := by
  have : (ls.map (fun l => (l, f l))).find? (fun r => r.1 == l) = some (l, f l) := by
    induction ls with
    | nil => simp at h
    | cons a r ih =>
      by_cases e : a = l
      · simp [e]
      · have h' : l ∈ r := by simpa [Ne.symm e] using h
        simp [e, ih h']
  simp [resultOf, this]

theorem laneExc_ok (gg : Gang) (n : Nat) (ls : List Nat) (f : Nat → Nat × Exc) (h : ∀ l ∈ ls, enabledExc gg.fpmode (f l).2 = false) :
    laneExc gg n (ls.map (fun l => (l, f l))) = .ok (ls.foldl (fun e l => e ||| (f l).2) 0) := by
  have hb : (ls.map (fun l => (l, f l))).filter (fun r => enabledExc gg.fpmode r.2.2) = [] := by
    rw [List.filter_eq_nil_iff]
    intro p hp
    obtain ⟨l, hl, rfl⟩ := List.mem_map.mp hp
    simp [h l hl]
  simp only [laneExc, hb, if_true, List.foldl_map]

theorem Issuer.active_mem {i : Issuer} {h : Hdr} {l : Nat} (hl : l ∈ i.active h) : l ∈ i.lanes := (List.mem_filter.mp hl).1

/-- The slices of a performing gang are different live slices of it. -/
structure Issuer.Apart (i : Issuer) : Prop where
  apart : i.slices.Nodup
  slice : ∀ k ∈ i.slices, k < 8 ∧ (i.g.slice k).live = true

theorem Issuer.Real.toApart {i : Issuer} (hr : i.Real) : i.Apart := ⟨hr.apart, hr.slice⟩

theorem Issuer.Apart.lane_lt {i : Issuer} (hr : i.Apart) {l : Nat} (hl : l ∈ i.lanes) : l < 32 := lanesOf_lt (fun k hk => (hr.slice k hk).1) hl

theorem Issuer.Apart.passed {i : Issuer} (hr : i.Apart) {g' : Gang} (hs : g'.slices = i.g.slices) : i.g.Passed (g'.pass i.slices) i.slices := by
  have e : ∀ k, g'.slice k = i.g.slice k := fun k => by simp [Gang.slice, hs]
  refine ⟨fun k hk => ?_, fun k hk => ?_⟩
  · rw [Gang.slice_pass g' hk hr.apart (by rw [e]; exact (hr.slice k hk).2), e]
  · rw [Gang.slice_pass_other g' hk, e]

theorem Gang.pass_counted {g g' : Gang} {l : List Nat} (h1 : g'.ganged = g.ganged) (h2 : g'.gissue = g.gissue) (h3 : g'.gparted = g.gparted) :
    g.Counted (g'.pass l) l := by
  simp [Gang.Counted, Gang.pass, Gang.countIssue, h1, h2, h3]

theorem Gang.pass_same (g : Gang) (l : List Nat) : g.SameButIssue (g.pass l) := by
  have h : ∀ (l : List Nat) (f : Slice → Slice) (g : Gang), g.modSlices l f = { g with slices := (g.modSlices l f).slices } := by
    intro l f
    induction l with
    | nil => intro g; rfl
    | cons a r ih =>
      intro g
      have e : g.modSlices (a :: r) f = (g.modSlice a f).modSlices r f := rfl
      rw [e, ih]; rfl
  unfold Gang.SameButIssue Gang.pass
  rw [h]; rfl

@[simp] theorem Gang.pass_v (g : Gang) (l : List Nat) : (g.pass l).v = g.v := by simp [Gang.pass]
@[simp] theorem Gang.pass_n (g : Gang) (l : List Nat) : (g.pass l).n = g.n := by simp [Gang.pass]
@[simp] theorem Gang.pass_b (g : Gang) (l : List Nat) : (g.pass l).b = g.b := by simp [Gang.pass]
@[simp] theorem Gang.pass_s (g : Gang) (l : List Nat) : (g.pass l).s = g.s := by simp [Gang.pass]
@[simp] theorem Gang.pass_m (g : Gang) (l : List Nat) : (g.pass l).m = g.m := by simp [Gang.pass]
@[simp] theorem Gang.pass_t (g : Gang) (l : List Nat) : (g.pass l).t = g.t := by simp [Gang.pass]
@[simp] theorem Gang.pass_g (g : Gang) (l : List Nat) : (g.pass l).g = g.g := by simp [Gang.pass]
@[simp] theorem Gang.pass_cc (g : Gang) (l : List Nat) : (g.pass l).cc = g.cc := by simp [Gang.pass]
@[simp] theorem Gang.pass_fpmode (g : Gang) (l : List Nat) : (g.pass l).fpmode = g.fpmode := by simp [Gang.pass]
@[simp] theorem Gang.pass_flags (g : Gang) (l : List Nat) : (g.pass l).flags = g.flags := by simp [Gang.pass]
@[simp] theorem Gang.pass_stkptr (g : Gang) (l : List Nat) : (g.pass l).stkptr = g.stkptr := by simp [Gang.pass]
@[simp] theorem Gang.pass_stack (g : Gang) (l : List Nat) : (g.pass l).stack = g.stack := by simp [Gang.pass]
@[simp] theorem Gang.pass_ganged (g : Gang) (l : List Nat) : (g.pass l).ganged = g.ganged := by simp [Gang.pass]
@[simp] theorem Gang.pass_handler (g : Gang) (l : List Nat) : (g.pass l).handler = g.handler := by simp [Gang.pass]

theorem laneDstOk_reg {n : Nat} {w : Bool} {d : Operand} (h : laneDstOk n w d = true) (hb : isBypass d = false) : isLaneReg d = true := by
  cases d <;> simp_all [laneDstOk, isBypass, isLaneReg]

theorem laneDstOk_b {n : Nat} {w : Bool} {d : Operand} (h : laneDstOk n w d = true) (hb : isBypass d = true) : d = .b 0 := by
  cases d <;> simp_all [laneDstOk, isBypass]

/-- A gang with only its bypass file changed. -/
theorem Gang.shiftBypass_same (ls : List Nat) (new : Nat → W64) : g.shiftBypass ls new = { g with b := (g.shiftBypass ls new).b } :=
  shiftLanes_same g g ls new

theorem Gang.shiftBypass_mem {ls : List Nat} (new : Nat → W64) {k : Nat} (hls : ∀ l ∈ ls, l < 32) (hn : ls.Nodup) (h1 : k ∈ ls) :
    (g.shiftBypass ls new).rdB 0 k = new k ∧ (∀ r < 3, (g.shiftBypass ls new).rdB (r + 1) k = g.rdB r k) := by
  obtain ⟨h0, ha, hb, hc⟩ := shiftLanes_mem g g new hls hn h1
  refine ⟨h0, fun r hr => ?_⟩
  have : r = 0 ∨ r = 1 ∨ r = 2 := by omega
  rcases this with rfl | rfl | rfl
  · exact ha
  · exact hb
  · exact hc

theorem Gang.shiftBypass_other {ls : List Nat} (new : Nat → W64) {r k : Nat} (hls : ∀ l ∈ ls, l < 32) (hk : k < 32) (h1 : k ∉ ls) :
    (g.shiftBypass ls new).rdB r k = g.rdB r k := shiftLanes_other g g new hls hk h1

/-- What `writeLanes` leaves (R228, R258). -/
structure LanesWritten (g : Gang) (w : Bool) (d : Operand) (all act : List Nat) (res : Nat → Nat) (g' : Gang) : Prop where
  dest     : isBypass d = false → ∀ l ∈ act, g'.rdReg w d l = res l % 2 ^ (if w then 64 else 32)
  bypass   : ∀ l ∈ act, g'.rdB 0 l = BitVec.ofNat 64 (res l)
  inactive : ∀ l ∈ all, l ∉ act → g'.rdB 0 l = if isBypass d then g.rdB 0 l else BitVec.ofNat 64 (g.rdReg w d l)
  shifted  : ∀ l ∈ all, ∀ k < 3, g'.rdB (k + 1) l = g.rdB k l
  vKept    : ∀ r l, l < 32 → dstHoldsV d w r = false ∨ l ∉ act → g'.rdV r l = g.rdV r l
  nKept    : ∀ r l, l < 32 → dstHoldsN d w r = false ∨ l ∉ act → g'.rdN r l = g.rdN r l
  bKept    : ∀ r l, l < 32 → l ∉ all → g'.rdB r l = g.rdB r l
  rest     : g' = { g with v := g'.v, n := g'.n, b := g'.b }

theorem Gang.writeLanes_spec {nregs : Nat} {w : Bool} {d : Operand} {all act : List Nat} {res : Nat → Nat}
    (hd : laneDstOk nregs w d = true) (hsub : ∀ l ∈ act, l ∈ all) (hlt : ∀ l ∈ all, l < 32) (hnd : all.Nodup) (hand : act.Nodup) :
    LanesWritten g w d all act res (g.writeLanes w d all act res) := by
  have halt : ∀ l ∈ act, l < 32 := fun l hl => hlt l (hsub l hl)
  unfold Gang.writeLanes
  change LanesWritten g w d all act res ((g.wrLanes w d act res).shiftBypass all _)
  have hWs := Gang.wrLanes_same g w d act res
  have hWv := fun r l hl hc => Gang.wrLanes_rdV (w := w) (d := d) (ls := act) (res := res) (r := r) (k := l) g halt hl hc
  have hWn := fun r l hl hc => Gang.wrLanes_rdN (w := w) (d := d) (ls := act) (res := res) (r := r) (k := l) g halt hl hc
  have hWo := fun l (hl : l < 32) hreg hna => Gang.wrLanes_other (w := w) (d := d) (ls := act) (res := res) (k := l) g halt hl hreg hna
  have hWm := fun l hreg hl => Gang.wrLanes_mem (w := w) (d := d) (ls := act) (res := res) (k := l) g halt hreg hl hand
  have hWb : (g.wrLanes w d act res).b = g.b := Gang.wrLanes_b _ _ _ _ _
  generalize hW : g.wrLanes w d act res = W at *
  have hWrd : ∀ r l, W.rdB r l = g.rdB r l := fun r l => by simp [Gang.rdB, hWb]
  generalize hN : (fun l => _ : Nat → W64) = N
  have hNact : ∀ l ∈ act, N l = BitVec.ofNat 64 (res l) := by intro l hl; rw [← hN]; simp [hl]
  have hNb : isBypass d = true → ∀ l, l ∉ act → N l = g.rdB 0 l := by
    intro hb l hl; rw [← hN]; cases d <;> simp only [isBypass, Bool.false_eq_true] at hb; simp [hl]
  have hNr : isLaneReg d = true → ∀ l, l ∉ act → N l = BitVec.ofNat 64 (W.rdReg w d l) := by
    intro hb l hl; rw [← hN, ← hW]; cases d <;> simp only [isLaneReg, Bool.false_eq_true] at hb <;> simp [hl, Gang.wrLanes]
  clear hN
  have hSame := Gang.shiftBypass_same W all N
  have hmem := fun l (hl : l ∈ all) => Gang.shiftBypass_mem W N hlt hnd hl
  have hoth := fun r l (hl : l < 32) (hn : l ∉ all) => Gang.shiftBypass_other W N (r := r) hlt hl hn
  generalize W.shiftBypass all N = S at *
  have hSv : S.v = W.v := by rw [hSame]
  have hSn : S.n = W.n := by rw [hSame]
  have hv : ∀ r l, S.rdV r l = W.rdV r l := fun r l => by simp [Gang.rdV, hSv]
  have hn : ∀ r l, S.rdN r l = W.rdN r l := fun r l => by simp [Gang.rdN, hSn]
  constructor
  · intro hdb l hl
    have hreg := laneDstOk_reg hd hdb
    have : S.rdReg w d l = W.rdReg w d l := by
      cases d <;> simp [isLaneReg] at hreg <;> simp [Gang.rdReg, Gang.rdV2, Gang.rdN2, hv, hn]
    rw [this, hWm l hreg hl]
  · intro l hl
    rw [(hmem l (hsub l hl)).1, hNact l hl]
  · intro l hl hna
    rw [(hmem l hl).1]
    cases hbd : isBypass d with
    | true => simpa using hNb hbd l hna
    | false =>
      have hreg := laneDstOk_reg hd hbd
      rw [hNr hreg l hna, hWo l (hlt l hl) hreg hna]; simp
  · intro l hl k hk
    rw [(hmem l hl).2 k hk, hWrd]
  · intro r l hl hc
    rw [hv, hWv r l hl hc]
  · intro r l hl hc
    rw [hn, hWn r l hl hc]
  · intro r l hl hna
    rw [hoth r l hl hna, hWrd]
  · rw [hSame, hWs]

/-- What a class-S result leaves in the performing gang. -/
theorem laneDone_of {i : Issuer} (hr : i.Apart) {h : Hdr} {nregs : Nat} {w : Bool} {d : Operand} {res : Nat → Nat × Exc} {val : Nat → Nat}
    (hd : laneDstOk nregs w d = true) (hres : ∀ l ∈ i.active h, val l = (res l).1) :
    LaneDone i h w d res (((i.g.writeLanes w d i.lanes (i.active h) val).orFlags ((i.active h).foldl (fun e l => e ||| (res l).2) 0)).pass i.slices) := by
  have hlt : ∀ l ∈ i.lanes, l < 32 := fun l hl => hr.lane_lt hl
  have hnd : i.lanes.Nodup := lanesOf_nodup hr.apart
  have hspec := Gang.writeLanes_spec (res := val) i.g hd (fun l hl => Issuer.active_mem (h := h) hl) hlt hnd (hnd.filter _)
  generalize i.g.writeLanes w d i.lanes (i.active h) val = S at *
  generalize hE : (i.active h).foldl (fun e l => e ||| (res l).2) (0 : Exc) = E
  have hb : ∀ r l, ((S.orFlags E).pass i.slices).rdB r l = S.rdB r l := fun r l => by simp [Gang.rdB, Gang.orFlags]
  have hv : ∀ r l, ((S.orFlags E).pass i.slices).rdV r l = S.rdV r l := fun r l => by simp [Gang.rdV, Gang.orFlags]
  have hn : ∀ r l, ((S.orFlags E).pass i.slices).rdN r l = S.rdN r l := fun r l => by simp [Gang.rdN, Gang.orFlags]
  constructor
  · intro hdb l hl
    have hreg := laneDstOk_reg hd hdb
    have : ((S.orFlags E).pass i.slices).rdReg w d l = S.rdReg w d l := by
      cases d <;> simp [isLaneReg] at hreg <;> simp [Gang.rdReg, Gang.rdV2, Gang.rdN2, hv, hn]
    rw [this, hspec.dest hdb l hl, hres l hl]
  · intro l hl
    rw [hb, hspec.bypass l hl, hres l hl]
  · intro l hl hna
    rw [hb, hspec.inactive l hl hna]
  · intro l hl k hk
    rw [hb, hspec.shifted l hl k hk]
  · simp only [Gang.pass_flags, Gang.orFlags, hE]
    rw [hspec.rest]
  · apply hr.passed
    simp only [Gang.orFlags]; rw [hspec.rest]
  · apply Gang.pass_counted <;> simp only [Gang.orFlags] <;> rw [hspec.rest]
  · intro r l hl hc
    rw [hv, hspec.vKept r l hl hc]
  · intro r l hl hc
    rw [hn, hspec.nKept r l hl hc]
  · intro r l hl _ hna
    rw [hb, hspec.bKept r l hl hna]
  · have h1 := Gang.pass_same (S.orFlags E) i.slices
    have h2 : S.orFlags E = { i.g with v := S.v, n := S.n, b := S.b, flags := (S.orFlags E).flags } := by
      simp only [Gang.orFlags]
      rw [hspec.rest]
    rw [h2] at h1 ⊢
    simpa [Gang.SameButIssue] using h1

/-- Class S, once: with legal operands and no enabled exception the instruction completes, and its gang is left as
`LaneDone` says. -/
theorem laneShort_completes {s : State} {i : Issuer} {h : Hdr} {w : Bool} {d : Operand} {ok : Team → Bool} {res : Gang → Nat → Nat × Exc}
    (hi : s.Issues i) (hs : h.scp = .lane) (hd : laneDstOk i.tm.nregs w d = true) (ho : ok i.tm = true)
    (he : ∀ l ∈ i.active h, enabledExc i.g.fpmode (res i.g l).2 = false) :
    ∃ g', s.laneShort h w d ok res = .next (s.after i.performer (s.withGang i g')) ∧ LaneDone i h w d (res i.g) g' := by
  obtain ⟨hf, hr⟩ := hi
  have hexc := laneExc_ok i.g i.unit.gang (i.active h) (res i.g) he
  refine ⟨_, ?_, laneDone_of hr.toApart hd (fun l hl => resultOf_map _ _ hl)⟩
  apply lane_ok hf hs
  simp only [hd, ho, illegalOperandIf, trapIf, Bool.not_true, Bool.or_false, Bool.false_eq_true, if_false, hexc, bind, Except.bind]
  rw [State.passWith, State.modGang_withGang hf]

-- late results

theorem lowHalf (x : Nat) : (BitVec.ofNat 64 (x % 2 ^ 32)).setWidth 32 = BitVec.ofNat 32 x := by
  apply BitVec.eq_of_toNat_eq
  simp

theorem lowHalf' (x : Nat) : BitVec.ofNat 32 x = (BitVec.ofNat 64 x).extractLsb' 0 32 := by
  apply BitVec.eq_of_toNat_eq
  simp

theorem highHalf (x : Nat) : (BitVec.ofNat 64 (x / 2 ^ 32)).setWidth 32 = (BitVec.ofNat 64 x).extractLsb' 32 32 := by
  apply BitVec.eq_of_toNat_eq
  simp [Nat.shiftRight_eq_div_pow]
  omega

/-- The late places of a lane result, written, are the lane written. -/
theorem lateLane_writes (w : Bool) (d : Operand) (l x : Nat) (hd : isLaneReg d = true) :
    (lateLane w d l x).foldl Gang.writeDest g = g.wrLane w d l x := by
  cases d <;> simp [isLaneReg] at hd <;> cases w <;>
    simp only [lateLane, Gang.writeDest, Gang.wrLane, Gang.wrV2, Gang.wrN2, if_true, if_false, Bool.false_eq_true, List.foldl_cons, List.foldl_nil,
      lowHalf, highHalf]
  all_goals rw [lowHalf']

theorem lateLanes_writes (w : Bool) (d : Operand) (ls : List Nat) (res : Nat → Nat) (hd : isLaneReg d = true) :
    (ls.flatMap (fun l => lateLane w d l (res l))).foldl Gang.writeDest g = g.wrLanes w d ls res := by
  induction ls generalizing g with
  | nil => rfl
  | cons a r ih =>
    simp only [List.flatMap_cons, List.foldl_append, lateLane_writes g w d a (res a) hd, ih]
    rfl

theorem lateDstOk_reg {n : Nat} {w : Bool} {d : Operand} (h : lateDstOk n w d = true) : isLaneReg d = true := by
  cases d <;> simp_all [lateDstOk, laneDstOk, isLaneReg]

/-- What a class-L result leaves in the performing gang. -/
theorem lateDone_of {i : Issuer} (hr : i.Apart) {h : Hdr} {la : Nat} {w : Bool} {d : Operand} {res : Nat → Nat × Exc} {val : Nat → Nat}
    (hreg : isLaneReg d = true) (hres : ∀ l ∈ i.active h, val l = (res l).1) :
    LateDone i h la w d res ((i.g.orFlags ((i.active h).foldl (fun e l => e ||| (res l).2) 0)).passLate i.slices la
      ((i.active h).flatMap (fun l => lateLane w d l (val l)))) := by
  have hlt : ∀ l ∈ i.active h, l < 32 := fun l hl => hr.lane_lt (Issuer.active_mem hl)
  have hnd : (i.active h).Nodup := (lanesOf_nodup hr.apart).filter _
  let ws := (i.active h).flatMap (fun l => lateLane w d l (val l))
  let E := (i.active h).foldl (fun e l => e ||| (res l).2) (0 : Exc)
  have hws : ∀ g : Gang, ws.foldl Gang.writeDest g = g.wrLanes w d (i.active h) val := fun g => lateLanes_writes g w d (i.active h) _ hreg
  change LateDone i h la w d res ((i.g.orFlags E).passLate i.slices la ws)
  by_cases hla : la = 0
  · have e : (i.g.orFlags E).passLate i.slices (la) ws = ((i.g.orFlags E).wrLanes w d (i.active h) (val)).pass i.slices := by
      simp only [Gang.passLate, hla, if_true, hws]
    rw [e]
    have hsame := Gang.wrLanes_same (i.g.orFlags E) w d (i.active h) (val)
    have hm := fun l hl => Gang.wrLanes_mem (res := val) (w := w) (i.g.orFlags E) hlt hreg (k := l) hl hnd
    have hv := fun r l hl hc => Gang.wrLanes_rdV (w := w) (d := d) (res := val) (i.g.orFlags E) hlt (r := r) (k := l) hl hc
    have hn := fun r l hl hc => Gang.wrLanes_rdN (w := w) (d := d) (res := val) (i.g.orFlags E) hlt (r := r) (k := l) hl hc
    generalize (i.g.orFlags E).wrLanes w d (i.active h) _ = S at *
    constructor
    · intro _ l hl
      have : (S.pass i.slices).rdReg w d l = S.rdReg w d l := by
        cases d <;> simp [isLaneReg] at hreg <;> simp [Gang.rdReg, Gang.rdV2, Gang.rdN2, Gang.rdV, Gang.rdN]
      rw [this, hm l hl, hres l hl]
    · exact fun h => absurd hla h
    · exact fun h => absurd hla h
    · rw [Gang.pass_flags, hsame]; rfl
    · apply hr.passed; rw [hsame]; rfl
    · apply Gang.pass_counted <;> rw [hsame] <;> rfl
    · intro r l hl hc
      exact (by simp [Gang.rdV] : (S.pass i.slices).rdV r l = S.rdV r l).trans (hv r l hl hc)
    · intro r l hl hc
      exact (by simp [Gang.rdN] : (S.pass i.slices).rdN r l = S.rdN r l).trans (hn r l hl hc)
    · have h1 := Gang.pass_same S i.slices
      have h2 : S = { i.g with v := S.v, n := S.n, flags := S.flags } := by rw [hsame]; rfl
      rw [h2] at h1 ⊢
      simpa [Gang.SameButIssue] using h1
  · have e : (i.g.orFlags E).passLate i.slices (la) ws = { (i.g.orFlags E).pass i.slices with
        pend := ((i.g.orFlags E).pass i.slices).pend ++ [{ writes := ws, left := (List.range 8).map (fun k => if i.slices.contains k then la else 1000000) }] } := by
      simp only [Gang.passLate, hla, if_false]
    rw [e]
    constructor
    · exact fun h => absurd h hla
    · exact fun _ => ⟨by simp [Gang.orFlags], by simp [Gang.orFlags], { writes := ws, left := (List.range 8).map (fun k => if i.slices.contains k then la else 1000000) },
        by simp [Gang.pass, Gang.countIssue, Gang.orFlags], rfl⟩
    · intro _ l hl
      simp only [Gang.land, List.foldl_append, List.foldl_cons, List.foldl_nil, hws]
      have := fun Y : Gang => Gang.wrLanes_mem (res := val) (w := w) Y hlt hreg hl hnd
      rw [hres l hl] at this
      generalize List.foldl _ _ _ = Y
      have h3 := this Y
      cases d <;> simp [isLaneReg] at hreg <;> simpa [Gang.rdReg, Gang.rdV2, Gang.rdN2, Gang.rdV, Gang.rdN] using h3
    · simp [Gang.orFlags, E]
    · exact hr.passed rfl
    · exact Gang.pass_counted rfl rfl rfl
    · intro r l _ _; simp [Gang.rdV, Gang.orFlags]
    · intro r l _ _; simp [Gang.rdN, Gang.orFlags]
    · have h1 := Gang.pass_same (i.g.orFlags E) i.slices
      unfold Gang.SameButIssue at h1 ⊢
      rw [h1]; simp [Gang.orFlags]

/-- Class L, once. -/
theorem laneLate_completes {s : State} {i : Issuer} {h : Hdr} {la : Gang → Nat} {w : Bool} {d : Operand} {ok : Team → Bool} {res : Gang → Nat → Nat × Exc}
    (hi : s.Issues i) (hs : h.scp = .lane) (hd : lateDstOk i.tm.nregs w d = true) (ho : ok i.tm = true)
    (he : ∀ l ∈ i.active h, enabledExc i.g.fpmode (res i.g l).2 = false) :
    ∃ g', s.laneLate h la w d ok res = .next (s.after i.performer (s.withGang i g')) ∧ LateDone i h (la i.g) w d (res i.g) g' := by
  obtain ⟨hf, hr⟩ := hi
  have hexc := laneExc_ok i.g i.unit.gang (i.active h) (res i.g) he
  refine ⟨_, ?_, lateDone_of hr.toApart (lateDstOk_reg hd) (fun l hl => resultOf_map _ _ hl)⟩
  apply lane_ok hf hs
  simp only [hd, ho, illegalOperandIf, trapIf, Bool.not_true, Bool.or_false, Bool.false_eq_true, if_false, hexc, bind, Except.bind]
  simp only [State.passLate, State.modGang_modGang]
  rw [State.modGang_withGang hf]
  rfl

-- masks

theorem bitAt_toNat {n : Nat} (x : BitVec n) (l : Nat) : bitAt x.toNat l = x.getLsbD l := by
  simp [bitAt, BitVec.getLsbD, Nat.testBit_eq_decide_div_mod_eq, beq_eq_decide]

theorem getLsbD_setBit (x : W64) {i k : Nat} (v : Bool) (hk : k < 64) :
    (setBit x i v).getLsbD k = if k = i then v else x.getLsbD k := by
  have h2 : (BitVec.ofNat 64 (2 ^ i)).getLsbD k = decide (i = k) := by
    rw [BitVec.getLsbD_ofNat, Nat.testBit_two_pow]; simp [hk]
  unfold setBit
  cases v with
  | false => simp only [Bool.false_eq_true, if_false, BitVec.getLsbD_and, BitVec.getLsbD_not, h2, hk]; by_cases e : k = i <;> simp [e, Ne.symm]
  | true => simp only [if_true, BitVec.getLsbD_or, h2]; by_cases e : k = i <;> simp [e, Ne.symm]

/-- One bit of a mask register written. -/
theorem setMaskBit (x : W32) {i k : Nat} (v : Bool) (hi : i < 32) (hk : k < 32) :
    bitAt ((setBit (x.setWidth 64) i v).setWidth 32).toNat k = if k = i then v else bitAt x.toNat k := by
  rw [bitAt_toNat, bitAt_toNat, BitVec.getLsbD_setWidth, getLsbD_setBit _ _ (by omega)]
  by_cases e : k = i
  · simp [e, hi]
  · have : k < 64 := by omega
    simp [e, hk, this]

theorem writeMask_spec (g : Gang) {r : Nat} {ls : List Nat} (val : Nat → Bool) (hr : r ≠ 0) (hls : ∀ l ∈ ls, l < 32) :
    (∀ k < 32, bitAt ((g.writeMask r ls val).rdM r).toNat k = if k ∈ ls then val k else bitAt (g.rdM r).toNat k) ∧
    (∀ q, q ≠ r → (g.writeMask r ls val).rdM q = g.rdM q) ∧
    g.writeMask r ls val = { g with m := (g.writeMask r ls val).m } := by
  induction ls generalizing g with
  | nil => exact ⟨fun k _ => by simp [Gang.writeMask], fun q _ => rfl, rfl⟩
  | cons a l ih =>
    have ha := hls a (by simp)
    obtain ⟨h1, h2, h3⟩ := ih (g.wrM r ((setBit ((g.rdM r).setWidth 64) a (val a)).setWidth 32)) (fun x hx => hls x (by simp [hx]))
    refine ⟨fun k hk => ?_, fun q hq => ?_, ?_⟩
    · refine (h1 k hk).trans ?_
      rw [Gang.rdM_wrM]
      simp only [hr, ne_eq, not_false_eq_true, and_self, if_true, setMaskBit _ _ ha hk]
      by_cases e : k = a
      · subst e; simp
      · simp [e]
    · refine (h2 q hq).trans ?_
      rw [Gang.rdM_wrM]; simp [hq]
    · have e : ∀ x, g.wrM r x = { g with m := (g.wrM r x).m } := fun x => by unfold Gang.wrM; split <;> rfl
      refine h3.trans ?_
      rw [show (g.writeMask r (a :: l) val) = (g.wrM r ((setBit ((g.rdM r).setWidth 64) a (val a)).setWidth 32)).writeMask r l val from rfl]
      generalize (g.wrM r _).writeMask r l val = S
      rw [e]

/-- A lane comparison, once. -/
theorem laneMaskOp_completes {s : State} {i : Issuer} {h : Hdr} {d : Operand} {ok : Team → Bool} {res : Gang → Nat → Bool × Exc}
    (hi : s.Issues i) (hs : h.scp = .lane) (hd : mDstOk d = true) (ho : ok i.tm = true)
    (he : ∀ l ∈ i.active h, enabledExc i.g.fpmode (res i.g l).2 = false) :
    ∃ g', s.laneMaskOp h d ok res = .next (s.after i.performer (s.withGang i g')) ∧ MaskDone i h (mIdx d) (res i.g) g' := by
  obtain ⟨hf, hr⟩ := hi
  let f : Nat → Nat × Exc := fun l => (if (res i.g l).1 then 1 else 0, (res i.g l).2)
  have hexc := laneExc_ok i.g i.unit.gang (i.active h) f he
  have hlt : ∀ l ∈ i.active h, l < 32 := fun l hl => hr.toApart.lane_lt (Issuer.active_mem hl)
  have hres : ∀ l ∈ i.active h, (resultOf ((i.active h).map (fun l => (l, f l))) l == 1) = (res i.g l).1 := by
    intro l hl
    rw [resultOf_map _ _ hl]
    cases h : (res i.g l).1 <;> simp [f, h]
  have hm : mIdx d ≠ 0 := by
    cases d <;> simp_all [mDstOk, mIdx]
    rename_i x
    intro e
    exact hd (BitVec.eq_of_toNat_eq (by simpa using e))
  refine ⟨((i.g.writeMask (mIdx d) (i.active h) (fun l => resultOf ((i.active h).map (fun l => (l, f l))) l == 1)).orFlags
    ((i.active h).foldl (fun e l => e ||| (f l).2) 0)).pass i.slices, ?_, ?_⟩
  · apply lane_ok hf hs
    simp only [hd, ho, illegalOperandIf, trapIf, Bool.not_true, Bool.or_false, Bool.false_eq_true, if_false, bind, Except.bind]
    rw [hexc]
    simp only [State.passWith]
    rw [State.modGang_withGang hf]
  · obtain ⟨h1, h2, h3⟩ := writeMask_spec i.g (r := mIdx d) (fun l => resultOf ((i.active h).map (fun l => (l, f l))) l == 1) hm hlt
    generalize hE : (i.active h).foldl (fun e l => e ||| (f l).2) (0 : Exc) = E
    generalize i.g.writeMask _ _ _ = S at *
    have hrd : ∀ q, ((S.orFlags E).pass i.slices).rdM q = S.rdM q := fun q => by simp [Gang.rdM, Gang.orFlags]
    constructor
    · intro l hl
      rw [hrd, h1 l (hlt l hl)]
      simp [hl, hres l hl]
    · intro l hl hn
      rw [hrd, h1 l hl]
      simp [hn]
    · intro r hr'
      rw [hrd, h2 r hr']
    · rw [Gang.pass_flags, ← hE]
      simp only [Gang.orFlags]
      rw [h3]
    · apply hr.toApart.passed; simp only [Gang.orFlags]; rw [h3]
    · apply Gang.pass_counted <;> simp only [Gang.orFlags] <;> rw [h3]
    · have e1 := Gang.pass_same (S.orFlags E) i.slices
      have e2 : S.orFlags E = { i.g with m := S.m, flags := (S.orFlags E).flags } := by
        simp only [Gang.orFlags]; rw [h3]
      rw [e2] at e1 ⊢
      simpa [Gang.SameButIssue] using e1

end Sys2Proof.Machine
end

