-- ==== Sys2Proof/Laws/Scope.lean ====
section
/-! SUPPORT. What a rendezvous does, said once (R27 to R32, R270), and changes of several gangs of a team. -/

namespace Sys2Proof.Machine

open Sys2Proof

-- several gangs changed

theorem State.OnlyGangs.refl (s : State) (team : Nat) (l : List Nat) : s.OnlyGangs s team l :=
  ⟨rfl, fun _ _ => rfl, fun u hu => ⟨u, hu, rfl, rfl, fun _ _ => rfl⟩⟩

theorem State.OnlyGangs.trans {s t u : State} {team : Nat} {l : List Nat} (h1 : s.OnlyGangs t team l) (h2 : t.OnlyGangs u team l) :
    s.OnlyGangs u team l := by
  refine ⟨?_, fun id hid => (h2.teams id hid).trans (h1.teams id hid), fun a ha => ?_⟩
  · have e1 := h1.device
    have e2 := h2.device
    rw [e2, e1]
  · obtain ⟨b, hb, eb, lb, kb⟩ := h1.team a ha
    obtain ⟨c, hc, ec, lc, kc⟩ := h2.team b hb
    refine ⟨c, hc, ?_, lc.trans lb, fun j hj => (kc j hj).trans (kb j hj)⟩
    rw [ec, eb]

theorem State.OnlyGangs.mono {s t : State} {team : Nat} {l l' : List Nat} (h : s.OnlyGangs t team l) (hl : ∀ j ∈ l, j ∈ l') :
    s.OnlyGangs t team l' := by
  refine ⟨h.device, h.teams, fun u hu => ?_⟩
  obtain ⟨b, hb, eb, lb, kb⟩ := h.team u hu
  exact ⟨b, hb, eb, lb, fun j hj => kb j (fun hm => hj (hl j hm))⟩

theorem State.onlyGangs_modGang (s : State) (team i : Nat) (f : Gang → Gang) : s.OnlyGangs (s.modGang team i f) team [i] := by
  refine ⟨rfl, fun id hid => State.team_modTeam_other s _ hid, fun u hu => ?_⟩
  refine ⟨u.modGang i f, State.team_modGang f hu, rfl, by simp, fun j hj => ?_⟩
  exact Team.gang_modGang_other u f (by simpa using hj)

/-- A change of each of some gangs, one after another. -/
def State.modEach (s : State) (team : Nat) (l : List (Nat × List Nat)) (f : Nat × List Nat → Gang → Gang) : State :=
  l.foldl (fun s q => s.modGang team q.1 (f q)) s

theorem State.onlyGangs_modEach (s : State) (team : Nat) (l : List (Nat × List Nat)) (f : Nat × List Nat → Gang → Gang) :
    s.OnlyGangs (s.modEach team l f) team (l.map Prod.fst) := by
  induction l generalizing s with
  | nil => exact .refl _ _ _
  | cons q r ih =>
    exact ((State.onlyGangs_modGang s team q.1 (f q)).mono (by simp)).trans ((ih (s.modGang team q.1 (f q))).mono (fun _ hj => List.mem_cons_of_mem _ hj))

theorem State.gang_modEach_other (s : State) (team : Nat) (l : List (Nat × List Nat)) (f : Nat × List Nat → Gang → Gang) {j : Nat}
    (h : j ∉ l.map Prod.fst) : (s.modEach team l f).gang team j = s.gang team j := by
  induction l generalizing s with
  | nil => rfl
  | cons q r ih =>
    simp only [List.map_cons, List.mem_cons, not_or] at h
    exact (ih (s.modGang team q.1 (f q)) h.2).trans (State.gang_modGang_other _ (.inr h.1))

theorem State.gang_modEach {s : State} {team : Nat} {l : List (Nat × List Nat)} {f : Nat × List Nat → Gang → Gang} {t : Team}
    (ht : s.team? team = some t) (hn : (l.map Prod.fst).Nodup) (hl : ∀ q ∈ l, q.1 < t.gangs.length) {q : Nat × List Nat} (hq : q ∈ l) :
    (s.modEach team l f).gang team q.1 = f q (s.gang team q.1) := by
  induction l generalizing s t with
  | nil => simp at hq
  | cons a r ih =>
    simp only [List.map_cons, List.nodup_cons] at hn
    have e : s.modEach team (a :: r) f = (s.modGang team a.1 (f a)).modEach team r f := rfl
    rw [e]
    rcases List.mem_cons.mp hq with rfl | hq'
    · rw [State.gang_modEach_other _ _ _ _ hn.1, State.gang_modGang_same _ ht (hl q (by simp))]
    · have hne : q.1 ≠ a.1 := fun h => hn.1 (h ▸ List.mem_map_of_mem hq')
      rw [ih (State.team_modGang _ ht) hn.2 (fun x hx => by simpa using hl x (by simp [hx])) hq',
        State.gang_modGang_other _ (.inr hne)]

-- arriving

theorem Gang.liveSlices_congr {g g' : Gang} (h : ∀ k, (g'.slice k).live = (g.slice k).live) : g'.liveSlices = g.liveSlices := by
  simp [Gang.liveSlices, h]

theorem Gang.live_modSlices (g : Gang) (l : List Nat) (f : Slice → Slice) (hf : ∀ x, (f x).live = x.live) (k : Nat) :
    ((g.modSlices l f).slice k).live = (g.slice k).live := by
  induction l generalizing g with
  | nil => rfl
  | cons a r ih =>
    refine (ih (g.modSlice a f)).trans ?_
    rw [Gang.slice_modSlice]
    split <;> simp [hf]

/-- A gang that does not exist has not arrived anywhere: an unlisted gang is not waiting. -/
theorem Team.arrived_lt {t : Team} {j : Nat} {pc : W64} {k : Rendez} (h : (t.gang j).arrived pc k = true) : j < t.gangs.length := by
  by_contra hj
  have : t.gang j = {} := by simp [Team.gang, List.getD_eq_getElem?_getD, List.getElem?_eq_none (by omega : t.gangs.length ≤ j)]
  rw [this] at h
  revert h
  simp [Gang.arrived, Gang.liveData, List.replicate]

theorem nodup_onesOf (n m : Nat) : (onesOf n m).Nodup := List.nodup_range.filter _

theorem Team.cover_nodup (t : Team) (k : Rendez) (gang : Nat) : (t.cover k gang).Nodup := by
  cases k
  · simp [Team.cover]
  · simp [Team.cover]
  · exact (nodup_onesOf _ _).filter _
  · exact List.nodup_range.filter _

/-- What a meeting is: the gangs that met exist, once each, in the state in which they go on. -/
structure Met (s' : State) (w : Wide) : Prop where
  found : s'.team? w.p.team = some w.tm
  once  : (w.p.gangs.map Prod.fst).Nodup
  exist : ∀ q ∈ w.p.gangs, q.1 < w.tm.gangs.length
  live  : ∀ q ∈ w.p.gangs, q.2.Nodup ∧ ∀ k ∈ q.2, k < 8 ∧ ((w.tm.gang q.1).slice k).live = true
  all   : ∀ q ∈ w.p.gangs, q.2 = (w.tm.gang q.1).liveSlices
  names : w.p.gangs.map Prod.fst = w.gangs
  parts : w.p.gangs.map Prod.fst = w.parts.filterMap id

/-- Two teams with the same live slices. -/
structure SameLive (t u : Team) : Prop where
  length : u.gangs.length = t.gangs.length
  sets   : u.sets = t.sets
  live   : ∀ j k, ((u.gang j).slice k).live = ((t.gang j).slice k).live
  any    : ∀ j, (u.gang j).isLive = (t.gang j).isLive

theorem SameLive.refl (t : Team) : SameLive t t := ⟨rfl, rfl, fun _ _ => rfl, fun _ => rfl⟩
theorem SameLive.trans {t u v : Team} (h : SameLive t u) (h' : SameLive u v) : SameLive t v :=
  ⟨h'.length.trans h.length, h'.sets.trans h.sets, fun j k => (h'.live j k).trans (h.live j k), fun j => (h'.any j).trans (h.any j)⟩

theorem Gang.isLive_modSlice (g : Gang) (i : Nat) (f : Slice → Slice) (hf : ∀ x, (f x).live = x.live) : (g.modSlice i f).isLive = g.isLive := by
  unfold Gang.isLive Gang.modSlice
  generalize g.slices = l
  simp only
  induction l generalizing i with
  | nil => simp
  | cons a r ih => cases i <;> simp [List.modify_cons, hf, ih]

theorem Gang.isLive_modSlices (g : Gang) (l : List Nat) (f : Slice → Slice) (hf : ∀ x, (f x).live = x.live) : (g.modSlices l f).isLive = g.isLive := by
  induction l generalizing g with
  | nil => rfl
  | cons a r ih => exact (ih (g.modSlice a f)).trans (g.isLive_modSlice a f hf)

theorem SameLive.modGang (t : Team) (i : Nat) (l : List Nat) (f : Slice → Slice) (hf : ∀ x, (f x).live = x.live) :
    SameLive t (t.modGang i (fun g => g.modSlices l f)) := by
  refine ⟨by simp, rfl, fun j k => ?_, fun j => ?_⟩
  · rw [Team.gang_modGang]; split
    · exact Gang.live_modSlices _ _ _ hf k
    · rfl
  · rw [Team.gang_modGang]; split
    · exact Gang.isLive_modSlices _ _ _ hf
    · rfl

theorem SameLive.cover {t u : Team} (h : SameLive t u) (k : Rendez) (g : Nat) : u.cover k g = t.cover k g := by
  cases k <;> simp [Team.cover, Team.members, Team.liveGangs, h.sets, h.any, h.length]

theorem SameLive.liveSlices {t u : Team} (h : SameLive t u) (j : Nat) : (u.gang j).liveSlices = (t.gang j).liveSlices :=
  Gang.liveSlices_congr (h.live j)

theorem SameLive.performers {t u : Team} (h : SameLive t u) (i : Issuer) (k : Rendez) (hd : Option Hdr) : u.performers i k hd = t.performers i k hd := by
  unfold Team.performers
  rw [h.cover]
  simp only [h.liveSlices]

theorem waitAll_sameLive (s : State) (p : Performer) (w : Wait) {t : Team} (ht : s.team? p.team = some t) :
    ∃ u, (s.waitAll p w).team? p.team = some u ∧ SameLive t u := by
  unfold State.waitAll
  generalize p.gangs = l
  generalize p.team = id at ht ⊢
  induction l generalizing s t with
  | nil => exact ⟨t, ht, .refl t⟩
  | cons q r ih =>
    obtain ⟨u, hu, hl⟩ := ih _ (State.team_modGang (i := q.1) _ ht)
    exact ⟨u, hu, (SameLive.modGang t q.1 q.2 (fun x => { x with wait := w, skidMax := if w = .ready then x.skidMax else x.skid }) (fun _ => rfl)).trans hl⟩

/-- The state in which the performers of a rendezvous go on does not depend on the header. -/
theorem waitAll_hdr (s : State) (t : Team) (i : Issuer) (k : Rendez) (hd : Option Hdr) (w : Wait) :
    s.waitAll (t.performers i k hd) w = s.waitAll (t.performers i k) w := rfl

theorem arriving_sameLive (s : State) {i : Issuer} (k : Rendez) (hi : s.issuer? = some i) :
    ∃ t1, (s.arriving i k).team? i.unit.team = some t1 ∧ SameLive i.tm t1 :=
  waitAll_sameLive s i.performer (.rendez k) (Issuer.eq hi).1

/-- What `Meets` gives, one by one. -/
theorem meets_live {s s' : State} {i : Issuer} {k : Rendez} {t : Team} (h : s.Meets i k s' t) :
    ∃ t1, (s.arriving i k).team? i.unit.team = some t1 ∧ t1.goes (t1.cover k i.unit.gang) = true ∧
      (∀ j ∈ t1.cover k i.unit.gang, (t1.gang j).arrived i.pc k = true) ∧
      s' = (s.arriving i k).waitAll (t1.performers i k) .ready ∧ s'.team? i.unit.team = some t ∧ SameLive t1 t := by
  obtain ⟨t1, h1, hg, h2, h3, h4⟩ := h
  refine ⟨t1, h1, hg, h2, h3, h4, ?_⟩
  obtain ⟨u, hu, hl⟩ := waitAll_sameLive (s.arriving i k) (t1.performers i k) .ready h1
  rw [← h3] at hu
  exact (Option.some.inj (hu.symm.trans h4)) ▸ hl

/-- A rendezvous whose last unit arrives performs the instruction. -/
theorem rendezvous_meets {s s' : State} {i : Issuer} {k : Rendez} {t : Team} (h : s.Meets i k s' t) (hd : Hdr)
    (f : State → Performer → Except Stop State) :
    s.rendezvous i hd k f = s'.settle (t.performers i k (some hd)) (f s' (t.performers i k (some hd))) := by
  obtain ⟨t1, h1, hg, h2, h3, -, hl⟩ := meets_live h
  rw [hl.performers i k]
  unfold State.arriving at h1 h3
  unfold State.rendezvous
  have e : s.waitAll (i.performer (some hd)) (.rendez k) = s.waitAll i.performer (.rendez k) := rfl
  simp only [e, h1]
  rw [if_pos (by simpa [List.all_eq_true, hg] using h2)]
  subst h3
  rfl

theorem meets_met {s s' : State} {i : Issuer} {k : Rendez} {t : Team} (h : s.Meets i k s' t) (hd : Option Hdr := none) :
    s'.team? i.unit.team = some t ∧ ((t.performers i k hd).gangs.map Prod.fst).Nodup ∧
    (∀ q ∈ (t.performers i k hd).gangs, q.1 < t.gangs.length ∧ q.2.Nodup ∧ ∀ n ∈ q.2, n < 8 ∧ ((t.gang q.1).slice n).live = true) := by
  obtain ⟨t1, h1, -, h2, h3, h4, hl⟩ := meets_live h
  refine ⟨h4, ?_, ?_⟩
  · have : (t.performers i k hd).gangs.map Prod.fst = t.cover k i.unit.gang := by
      simp [Team.performers, Function.comp_def]
    rw [this]; exact Team.cover_nodup t k _
  · intro q hq
    simp only [Team.performers, List.mem_map] at hq
    obtain ⟨j, hj, rfl⟩ := hq
    rw [hl.cover] at hj
    refine ⟨?_, Gang.liveSlices_nodup _, fun n hn => (Gang.mem_liveSlices _).mp hn⟩
    have := Team.arrived_lt (h2 j hj)
    simpa [hl.length] using this

/-- A GANG-scope instruction that starts is performed by the whole gang. -/
theorem gangWide_starts {s s' : State} {i i' : Issuer} {hd : Hdr} (hi : s.issuer? = some i) (h : s.GangStarts i s' i')
    (f : State → Issuer → Except Stop State) : s.gangWide hd f = s'.settle (i'.performer (some hd)) (f s' i') := by
  unfold State.gangWide
  simp only [hi]
  rcases h with ⟨hg, rfl, rfl⟩ | ⟨hg, t, hm, rfl⟩
  · simp [hg]
  · have h4 := (meets_met hm).1
    rw [if_neg (by simp [hg]), rendezvous_meets hm hd _]
    simp only [h4]
    rfl

theorem gangOp_starts {s s' : State} {i i' : Issuer} {h : Hdr} (hi : s.issuer? = some i) (hs : h.scp = .gang) (hg : s.GangStarts i s' i')
    (f : State → Issuer → Except Stop State) : s.gangOp h f = s'.settle (i'.performer (some h)) (f s' i') := by
  unfold State.gangOp
  simp only [hi, hs, if_true]
  exact gangWide_starts hi hg f

theorem uniform_starts {s s' : State} {i i' : Issuer} {h : Hdr} (hi : s.issuer? = some i) (hs : h.scp = .lane) (hg : s.GangStarts i s' i')
    (f : State → Issuer → Except Stop State) : s.uniform h f = s'.settle (i'.performer (some h)) (f s' i') := by
  unfold State.uniform
  simp only [hi, hs, if_true]
  exact gangWide_starts hi hg f

/-- The gang that starts is real. -/
theorem GangStarts.issues {s s' : State} {i i' : Issuer} (hi : s.Issues i) (h : s.GangStarts i s' i') :
    s'.team? i'.unit.team = some i'.tm ∧ i'.g = i'.tm.gang i'.unit.gang ∧ i'.unit.gang < i'.tm.gangs.length ∧
    i'.slices.Nodup ∧ (∀ k ∈ i'.slices, k < 8 ∧ (i'.g.slice k).live = true) ∧ i'.unit.team = i.unit.team ∧ i'.unit.gang = i.unit.gang := by
  obtain ⟨hf, hr⟩ := hi
  rcases h with ⟨_, rfl, rfl⟩ | ⟨_, t, hm, rfl⟩
  · obtain ⟨a, b, -⟩ := Issuer.eq hf
    exact ⟨a, b, hr.gang, hr.apart, hr.slice, rfl, rfl⟩
  · obtain ⟨a, b, c⟩ := meets_met hm
    have := c (i.unit.gang, (t.gang i.unit.gang).liveSlices) (by simp [Team.performers, Team.cover])
    exact ⟨a, rfl, this.1, this.2.1, this.2.2, rfl, rfl⟩

/-- A scoped instruction that starts is performed. -/
theorem wideOp_starts {s s' : State} {i : Issuer} {h : Hdr} {setNo : Nat} {legal : List Scope} {w : Wide} (hi : s.issuer? = some i)
    (hl : legal.contains h.scp = true) (hw : s.Starts i h setNo s' w) (f : State → Wide → Except Stop State) :
    s.wideOp h setNo legal f = s'.settle w.p (f s' w) := by
  unfold State.wideOp
  unfold State.Starts at hw
  simp only [hi, hl, Bool.not_true, Bool.false_eq_true, if_false]
  cases hs : h.scp with
  | lane => simp [hs] at hw
  | gang =>
    simp only [hs] at hw ⊢
    obtain ⟨i', hg, rfl⟩ := hw
    exact gangWide_starts hi hg _
  | set =>
    simp only [hs] at hw ⊢
    obtain ⟨hb, t, hm, rfl⟩ := hw
    simp only [hb, Bool.not_true, Bool.false_eq_true, if_false]
    rw [rendezvous_meets hm h _]
    simp only [(meets_met hm).1]
    have e : (t.performers i (.set setNo) (some h)).gangs.map (·.1) = t.cover (.set setNo) i.unit.gang := by simp [Team.performers, Function.comp_def]
    rw [e]
  | team =>
    simp only [hs] at hw ⊢
    obtain ⟨t, hm, rfl⟩ := hw
    rw [rendezvous_meets hm h _]
    simp only [(meets_met hm).1]
    have e : (t.performers i .team (some h)).gangs.map (·.1) = t.cover .team i.unit.gang := by simp [Team.performers, Function.comp_def]
    rw [e]

theorem filterMap_parts (l : List Nat) (p : Nat → Bool) : (l.map (fun j => if p j then some j else none)).filterMap id = l.filter p := by
  induction l with
  | nil => rfl
  | cons a r ih => by_cases h : p a <;> simp_all

theorem meets_sets {s s' : State} {i : Issuer} {k : Rendez} {t : Team} (hi : s.issuer? = some i) (h : s.Meets i k s' t) : SameLive i.tm t := by
  obtain ⟨t1, h1, -, -, -, -, hl⟩ := meets_live h
  obtain ⟨u1, hu1, hl1⟩ := arriving_sameLive s k hi
  exact (Option.some.inj (hu1.symm.trans h1) ▸ hl1).trans hl

theorem performers_gangs (t : Team) (i : Issuer) (k : Rendez) (hd : Option Hdr) : (t.performers i k hd).gangs.map Prod.fst = t.cover k i.unit.gang := by
  simp [Team.performers, Function.comp_def]

theorem performers_slices {t : Team} {i : Issuer} {k : Rendez} {hd : Option Hdr} {q : Nat × List Nat} (h : q ∈ (t.performers i k hd).gangs) :
    q.2 = (t.gang q.1).liveSlices := by
  simp only [Team.performers, List.mem_map] at h
  obtain ⟨j, -, rfl⟩ := h
  rfl

/-- A gang that starts is performed by all its live slices. -/
theorem GangStarts.whole {s s' : State} {i i' : Issuer} (hi : s.Issues i) (h : s.GangStarts i s' i') : i'.slices = i'.g.liveSlices := by
  obtain ⟨hf, hr⟩ := hi
  rcases h with ⟨hg, rfl, rfl⟩ | ⟨_, t, hm, rfl⟩
  · rw [(Issuer.eq hf).2.2]
    have := hr.form
    rw [hg] at this
    cases hu : i'.unit.slice with
    | none => simp [unitSlices, hu]
    | some k => simp [hu] at this
  · rfl

/-- The gangs of a scoped instruction that starts are there, once each, with live slices. -/
theorem Starts.met {s s' : State} {i : Issuer} {h : Hdr} {setNo : Nat} {w : Wide} (hi : s.Issues i) (hw : s.Starts i h setNo s' w) : Met s' w := by
  unfold State.Starts at hw
  cases hs : h.scp with
  | lane => simp [hs] at hw
  | gang =>
    simp only [hs] at hw
    obtain ⟨i', hg, rfl⟩ := hw
    obtain ⟨a, b, c, d, e, -, e2⟩ := GangStarts.issues hi hg
    refine ⟨a, by simp [Issuer.performer], ?_, ?_, ?_, ?_, ?_⟩
    · simpa [Issuer.performer] using c
    · simp only [Issuer.performer, List.mem_singleton, forall_eq]
      exact ⟨d, fun k hk => b ▸ e k hk⟩
    · simp only [Issuer.performer, List.mem_singleton, forall_eq, ← b]
      exact GangStarts.whole hi hg
    · simp [Issuer.performer, e2]
    · simp [Issuer.performer, e2]
  | set =>
    simp only [hs] at hw
    obtain ⟨-, t, hm, rfl⟩ := hw
    obtain ⟨a, b, c⟩ := meets_met hm (some h)
    refine ⟨a, b, fun q hq => (c q hq).1, fun q hq => ⟨(c q hq).2.1, fun k hk => (c q hq).2.2 k hk⟩, fun q hq => performers_slices hq, ?_, ?_⟩
    · exact performers_gangs _ _ _ _
    · simp only
      rw [performers_gangs, filterMap_parts, ← (meets_sets hi.1 hm).sets]; rfl
  | team =>
    simp only [hs] at hw
    obtain ⟨t, hm, rfl⟩ := hw
    obtain ⟨a, b, c⟩ := meets_met hm (some h)
    refine ⟨a, b, fun q hq => (c q hq).1, fun q hq => ⟨(c q hq).2.1, fun k hk => (c q hq).2.2 k hk⟩, fun q hq => performers_slices hq, ?_, ?_⟩
    · exact performers_gangs _ _ _ _
    · simp only
      rw [performers_gangs, filterMap_parts]; rfl

/-- A change of every performing gang of a scoped instruction. -/
theorem Met.modEach {s' : State} {w : Wide} (hm : Met s' w) (f : Nat × List Nat → Gang → Gang) :
    s'.OnlyGangs (s'.modEach w.p.team w.p.gangs f) w.p.team (w.p.gangs.map Prod.fst) ∧
    ∀ q ∈ w.p.gangs, (s'.modEach w.p.team w.p.gangs f).gang w.p.team q.1 = f q (s'.gang w.p.team q.1) :=
  ⟨State.onlyGangs_modEach _ _ _ _, fun _ hq => State.gang_modEach hm.found hm.once hm.exist hq⟩

end Sys2Proof.Machine
end

