-- ==== Sys2Proof/Laws/Wide.lean ====
section
/-! SUPPORT. What the scoped forms do, said once: one change in every performing gang, late and short lane movements, and
scalar results (R31, R222, R247, R269). -/

namespace Sys2Proof.Machine

open Sys2Proof

theorem passWide_eq (s : State) (p : Performer) (f : Gang → Gang) : s.passWide p f = s.modEach p.team p.gangs (fun q g => (f g).pass q.2) := rfl
theorem passAll_eq (s : State) (p : Performer) : s.passAll p = s.modEach p.team p.gangs (fun q g => g.pass q.2) := rfl

theorem Starts.scope {s s' : State} {i : Issuer} {h : Hdr} {setNo : Nat} {w : Wide} (hw : s.Starts i h setNo s' w) : h.scp = w.scope := by
  unfold State.Starts at hw
  cases hs : h.scp <;> simp only [hs] at hw
  · obtain ⟨_, _, rfl⟩ := hw; rfl
  · obtain ⟨_, _, _, rfl⟩ := hw; rfl
  · obtain ⟨_, _, rfl⟩ := hw; rfl

/-- A scoped instruction whose effect is one change in every performing gang completes. -/
theorem wide_completes {ins : Instr} {h : Hdr} {setNo : Nat} {legal : List Scope} {ok : Wide → Prop} {R : Wide → Nat → List Nat → Gang → Gang → Prop}
    {F : State → Wide → Except Stop State} {legal' : List Scope} (f : Wide → Nat × List Nat → Gang → Gang)
    (hx : ∀ s, exec ins s = s.wideOp h setNo legal' F) (hsub : ∀ x, legal.contains x = true → legal'.contains x = true)
    (hF : ∀ s w, legal.contains w.scope = true → ok w → Met s w → F s w = .ok (s.modEach w.p.team w.p.gangs (f w)))
    (hR : ∀ s w, ok w → Met s w → ∀ q ∈ w.p.gangs, R w q.1 q.2 (w.tm.gang q.1) (f w q (w.tm.gang q.1))) :
    WideCompletes ins h setNo legal ok R := by
  intro s i s' w hi hl hw ho
  have hm := Starts.met hi hw
  refine ⟨s'.modEach w.p.team w.p.gangs (f w), ?_, (hm.modEach (f w)).1, fun q hq => ?_⟩
  · unfold PerformsIn
    rw [hx, wideOp_starts hi.1 (hsub _ hl) hw, hF s' w (Starts.scope hw ▸ hl) ho hm]
    rfl
  · rw [(hm.modEach (f w)).2 q hq]
    have e : s'.gang w.p.team q.1 = w.tm.gang q.1 := by simp [State.gang, hm.found]
    rw [e]
    exact hR s' w ho hm q hq

-- parts of the lane space

theorem indexOf_lt {α : Type} (p : α → Bool) (l : List α) {x : α} (hx : x ∈ l) (hp : p x = true) : ∃ k, indexOf? p l = some k ∧ k < l.length := by
  induction l with
  | nil => simp at hx
  | cons a r ih =>
    by_cases ha : p a
    · exact ⟨0, by simp [indexOf?, ha], by simp⟩
    · rcases List.mem_cons.mp hx with rfl | h
      · exact absurd hp ha
      · obtain ⟨k, hk, hl⟩ := ih h
        exact ⟨k + 1, by simp [indexOf?, ha, hk], by simpa using hl⟩

/-- A fold over numbered parts is a fold over the gangs that hold them. -/
theorem parts_fold (parts : List (Option Nat)) (n : Nat) (hn : (parts.filterMap id).Nodup) (f : State → Nat → Nat → State) (s : State) :
    (((List.range' n parts.length).zip parts).foldl (fun s p => match p.2 with | none => s | some g => f s p.1 g) s) =
    (parts.filterMap id).foldl (fun s g => f s (n + (indexOf? (· == some g) parts).getD 0) g) s := by
  induction parts generalizing n s with
  | nil => rfl
  | cons a r ih =>
    cases a with
    | none =>
      simp only [List.length_cons, List.range'_succ, List.zip_cons_cons, List.foldl_cons, List.filterMap_cons_none (f := id) rfl]
      simp only [List.filterMap_cons_none (f := id) rfl] at hn
      rw [ih (n + 1) hn]
      have : ∀ (l : List Nat), (∀ g ∈ l, some g ∈ r) → ∀ s, l.foldl (fun s g => f s (n + 1 + (indexOf? (· == some g) r).getD 0) g) s =
          l.foldl (fun s g => f s (n + (indexOf? (· == some g) (none :: r)).getD 0) g) s := by
        intro l
        induction l with
        | nil => intro _ s; rfl
        | cons g l ihl =>
          intro hl s
          obtain ⟨k, hk, -⟩ := indexOf_lt (· == some g) r (hl g (by simp)) (by simp)
          have e : n + 1 + (indexOf? (· == some g) r).getD 0 = n + (indexOf? (· == some g) (none :: r)).getD 0 := by
            simp [indexOf?, hk]; omega
          simp only [List.foldl_cons, e]
          exact ihl (fun x hx => hl x (by simp [hx])) _
      exact this _ (fun g hg => by simpa using hg) s
    | some a =>
      have hcons : (some a :: r).filterMap id = a :: r.filterMap id := by simp
      rw [hcons] at hn ⊢
      obtain ⟨ha, hn⟩ := List.nodup_cons.mp hn
      simp only [List.length_cons, List.range'_succ, List.zip_cons_cons, List.foldl_cons]
      rw [ih (n + 1) hn]
      have e0 : n + (indexOf? (· == some a) (some a :: r)).getD 0 = n := by simp [indexOf?]
      rw [e0]
      have : ∀ (l : List Nat), (∀ g ∈ l, some g ∈ r ∧ g ≠ a) → ∀ s, l.foldl (fun s g => f s (n + 1 + (indexOf? (· == some g) r).getD 0) g) s =
          l.foldl (fun s g => f s (n + (indexOf? (· == some g) (some a :: r)).getD 0) g) s := by
        intro l
        induction l with
        | nil => intro _ s; rfl
        | cons g l ihl =>
          intro hl s
          obtain ⟨k, hk, -⟩ := indexOf_lt (· == some g) r (hl g (by simp)).1 (by simp)
          have hne : ¬ (a = g) := fun h => (hl g (by simp)).2 h.symm
          have e : n + 1 + (indexOf? (· == some g) r).getD 0 = n + (indexOf? (· == some g) (some a :: r)).getD 0 := by
            simp [indexOf?, hk, hne]; omega
          simp only [List.foldl_cons, e]
          exact ihl (fun x hx => hl x (by simp [hx])) _
      exact this _ (fun g hg => ⟨by simpa using hg, fun h => ha (h ▸ hg)⟩) _

theorem foldl_names {l : List (Nat × List Nat)} (F : State → Nat → State) (s : State) :
    (l.map Prod.fst).foldl F s = l.foldl (fun s q => F s q.1) s := by
  rw [List.foldl_map]

/-- A change of every member by its part number. -/
theorem Met.partsFold {s : State} {w : Wide} (hm : Met s w) (f : Nat → Gang → Gang) :
    (((List.range w.parts.length).zip w.parts).foldl (fun s p =>
      match p.2 with
      | none => s
      | some g => s.modGang w.p.team g (f p.1)) s) = s.modEach w.p.team w.p.gangs (fun q => f (w.partOf q.1)) := by
  have h := parts_fold w.parts 0 (hm.parts ▸ hm.once) (fun s n g => s.modGang w.p.team g (f n)) s
  rw [List.range_eq_range'] 
  refine h.trans ?_
  rw [← hm.parts, foldl_names]
  simp only [Nat.zero_add]
  rfl

theorem Met.lateWide {s : State} {w : Wide} (hm : Met s w) (la : Nat) (ws : Nat → List (Dest × W64)) :
    s.lateWide w la ws = s.modEach w.p.team w.p.gangs (fun q g => g.passLate g.liveSlices la (ws (w.partOf q.1))) :=
  hm.partsFold (fun n m => m.passLate m.liveSlices la (ws n))

theorem Met.shortWide {s : State} {w : Wide} (hm : Met s w) (w64 : Bool) (d : Operand) (f : Nat → Gang → Gang) :
    s.shortWide w w64 d f = s.modEach w.p.team w.p.gangs (fun q g =>
      let m := f (w.partOf q.1) g
      (m.shiftBypass (lanesOf m.liveSlices) (fun l => BitVec.ofNat 64 (m.rdReg w64 (w.reg d) l))).pass m.liveSlices) :=
  hm.partsFold (fun n m =>
    let m := f n m
    (m.shiftBypass (lanesOf m.liveSlices) (fun l => BitVec.ofNat 64 (m.rdReg w64 (w.reg d) l))).pass m.liveSlices)

/-- A performing gang as an issuer. -/
theorem Met.apart {s : State} {w : Wide} (hm : Met s w) {q : Nat × List Nat} (hq : q ∈ w.p.gangs) : (w.unitOf q.1 q.2).Apart :=
  ⟨(hm.live q hq).1, (hm.live q hq).2⟩

/-- A scoped instruction whose effect is two changes, one after the other, in every performing gang. -/
theorem wide_completes_two {ins : Instr} {h : Hdr} {setNo : Nat} {legal : List Scope} {ok : Wide → Prop} {R : Wide → Nat → List Nat → Gang → Gang → Prop}
    {F : State → Wide → Except Stop State} {legal' : List Scope} (f f' : Wide → Nat × List Nat → Gang → Gang)
    (hx : ∀ s, exec ins s = s.wideOp h setNo legal' F) (hsub : ∀ x, legal.contains x = true → legal'.contains x = true)
    (hF : ∀ s w, legal.contains w.scope = true → ok w → Met s w → F s w = .ok ((s.modEach w.p.team w.p.gangs (f w)).modEach w.p.team w.p.gangs (f' w)))
    (hR : ∀ s w, ok w → Met s w → ∀ q ∈ w.p.gangs, R w q.1 q.2 (w.tm.gang q.1) (f' w q (f w q (w.tm.gang q.1)))) :
    WideCompletes ins h setNo legal ok R := by
  intro s i s' w hi hl hw ho
  have hm := Starts.met hi hw
  refine ⟨_, by unfold PerformsIn; rw [hx, wideOp_starts hi.1 (hsub _ hl) hw, hF s' w (Starts.scope hw ▸ hl) ho hm]; rfl, ?_, fun q hq => ?_⟩
  · exact (State.onlyGangs_modEach _ _ _ _).trans (State.onlyGangs_modEach _ _ _ _)
  · obtain ⟨u', hu, -, hlen, -⟩ := (State.onlyGangs_modEach s' w.p.team w.p.gangs (f w)).team w.tm hm.found
    rw [State.gang_modEach hu hm.once (fun x hx => hlen ▸ hm.exist x hx) hq, (hm.modEach (f w)).2 q hq]
    have e : s'.gang w.p.team q.1 = w.tm.gang q.1 := by simp [State.gang, hm.found]
    rw [e]
    exact hR s' w ho hm q hq

-- reads are no wider than their type

theorem Gang.rdReg_lt (g : Gang) (w : Bool) (r : Operand) (hr : isLaneReg r = true) (l : Nat) : g.rdReg w r l < 2 ^ (if w then 64 else 32) := by
  cases r <;> simp [isLaneReg] at hr <;> cases w <;> simp only [Gang.rdReg, if_true, Bool.false_eq_true, if_false] <;> exact BitVec.isLt _

theorem Wide.reg_laneReg {w : Wide} {w64 : Bool} {o : Operand} (h : w.vecOk w64 o = true) : isLaneReg (w.reg o) = true := by
  cases o <;> simp [Wide.vecOk, Wide.reg, isLaneReg] at *

theorem Wide.rdAt_lt {w : Wide} {t : Ty} {o : Operand} (h : w.vecOk (tyPair t) o = true) (l : Nat) :
    w.rdAt t o l < 2 ^ (if tyPair t then 64 else 32) := by
  have hr := Wide.reg_laneReg h
  unfold Wide.rdAt
  split
  · exact Nat.two_pow_pos _
  · simp only
    split
    · have : ∀ (g : Gang) (r : Operand) (x : Nat), isLaneReg r = true → g.rdLane t r x = g.rdReg (tyPair t) r x := by
        intro g r x hr; cases r <;> simp [isLaneReg] at hr <;> rfl
      rw [this _ _ _ hr]
      exact Gang.rdReg_lt _ _ _ hr _
    · exact Nat.two_pow_pos _

/-- A register operand of a scoped movement is a lane destination. -/
theorem Wide.reg_dstOk {w : Wide} {w64 : Bool} {o : Operand} (h : w.vecOk w64 o = true) : ∃ n, laneDstOk n w64 (w.reg o) = true := by
  cases o <;> simp [Wide.vecOk, Wide.reg] at *
  · exact ⟨w.tm.nregs, h⟩
  · rename_i i
    refine ⟨2 ^ 8, ?_⟩
    simp only [laneDstOk, Bool.and_eq_true, decide_eq_true_eq]
    refine ⟨BitVec.isLt _, ?_⟩
    obtain ⟨-, h⟩ := h
    cases w64 <;> simp_all [evenIf]

/-- Writing lanes and then shifting the bypass file to what the destination holds is the class-S write. -/
theorem Gang.moved_eq (g : Gang) {nregs : Nat} {w64 : Bool} {d : Operand} {all act : List Nat} {val : Nat → Nat} (hd : laneDstOk nregs w64 d = true)
    (hreg : isLaneReg d = true) (hlt : ∀ l ∈ act, l < 32) (hn : act.Nodup) (hval : ∀ l ∈ act, val l < 2 ^ (if w64 then 64 else 32)) :
    (let m := g.wrLanes w64 d act val; m.shiftBypass all (fun l => BitVec.ofNat 64 (m.rdReg w64 d l))) = g.writeLanes w64 d all act val := by
  unfold Gang.writeLanes
  change ((g.wrLanes w64 d act val).shiftBypass all _) = (g.wrLanes w64 d act val).shiftBypass all _
  congr 1
  funext l
  split
  · rename_i h
    have hl : l ∈ act := by simpa using h
    rw [Gang.wrLanes_mem (res := val) (w := w64) g hlt hreg hl hn, Nat.mod_eq_of_lt (hval l hl)]
  · cases d <;> simp [isLaneReg] at hreg <;> rfl

-- the active lanes of a part

theorem flatMap_part (parts : List (Option Nat)) (n k : Nat) (A : Nat → List Nat) (hA : ∀ g, ∀ l ∈ A g, l < 32) {g : Nat}
    (hk : indexOf? (· == some g) parts = some k) :
    (((List.range' n parts.length).zip parts).flatMap (fun p =>
      match p.2 with
      | none => []
      | some g => (A g).map (· + 32 * p.1))).filter (fun l => l / 32 == n + k) = (A g).map (· + 32 * (n + k)) := by
  have far : ∀ (parts : List (Option Nat)) (n m : Nat), m < n →
      (((List.range' n parts.length).zip parts).flatMap (fun p =>
        match p.2 with
        | none => []
        | some g => (A g).map (· + 32 * p.1))).filter (fun l => l / 32 == m) = [] := by
    intro parts
    induction parts with
    | nil => intro n m _; rfl
    | cons a r ih =>
      intro n m h
      simp only [List.length_cons, List.range'_succ, List.zip_cons_cons, List.flatMap_cons, List.filter_append]
      rw [ih (n + 1) m (by omega), List.append_nil]
      cases a with
      | none => rfl
      | some b =>
        rw [List.filter_eq_nil_iff]
        intro l hl
        obtain ⟨x, hx, rfl⟩ := List.mem_map.mp hl
        have := hA b x hx
        simp only [beq_iff_eq]
        omega
  induction parts generalizing n k with
  | nil => simp [indexOf?] at hk
  | cons a r ih =>
    simp only [List.length_cons, List.range'_succ, List.zip_cons_cons, List.flatMap_cons, List.filter_append]
    by_cases ha : a = some g
    · subst ha
      have : k = 0 := by simpa [indexOf?, eq_comm] using hk
      subst this
      rw [Nat.add_zero, far r (n + 1) n (by omega), List.append_nil, List.filter_eq_self]
      intro l hl
      obtain ⟨x, hx, rfl⟩ := List.mem_map.mp hl
      have := hA g x hx
      simp only [beq_iff_eq]
      omega
    · have hne : (a == some g) = false := by simpa using ha
      simp only [indexOf?, hne, Bool.false_eq_true, if_false, Option.map_eq_some_iff] at hk
      obtain ⟨k', hk', rfl⟩ := hk
      have e : n + (k' + 1) = n + 1 + k' := by omega
      rw [e, ih (n + 1) k' hk']
      cases a with
      | none => rfl
      | some b =>
        have : List.filter (fun l => l / 32 == n + 1 + k') ((A b).map (· + 32 * n)) = [] := by
          rw [List.filter_eq_nil_iff]
          intro l hl
          obtain ⟨x, hx, rfl⟩ := List.mem_map.mp hl
          have := hA b x hx
          simp only [beq_iff_eq]
          omega
        simp only [this, List.nil_append]

/-- The active lanes of the space that lie in a performing gang's part. -/
theorem Met.activePart {s : State} {w : Wide} (hm : Met s w) (h : Hdr) {q : Nat × List Nat} (hq : q ∈ w.p.gangs) :
    (w.active h).filter (fun l => l / 32 == w.partOf q.1) = ((w.unitOf q.1 q.2).active h).map (· + 32 * w.partOf q.1) := by
  have hmem : some q.1 ∈ w.parts := by
    have : q.1 ∈ w.parts.filterMap id := hm.parts ▸ List.mem_map_of_mem hq
    simpa using this
  obtain ⟨k, hk, -⟩ := indexOf_lt (· == some q.1) w.parts hmem (by simp)
  have hp : w.partOf q.1 = k := by simp [Wide.partOf, hk]
  have hA : ∀ g, ∀ l ∈ w.activeOf h g, l < 32 := by
    intro g l hl
    exact lanesOf_lt (fun k hk => ((Gang.mem_liveSlices _).mp hk).1) (List.mem_filter.mp hl).1
  have := flatMap_part w.parts 0 k (w.activeOf h) hA hk
  rw [Nat.zero_add] at this
  have e : w.activeOf h q.1 = (w.unitOf q.1 q.2).active h := by
    simp only [Wide.activeOf, Issuer.active, Issuer.lanes, Wide.unitOf, hm.all q hq]
  rw [hp, Wide.active, List.range_eq_range', ← e]
  exact this

/-- The late places of a movement's result in one part. -/
theorem Met.latePart {s : State} {w : Wide} (hm : Met s w) (h : Hdr) {q : Nat × List Nat} (hq : q ∈ w.p.gangs) (w64 : Bool) (d : Operand) (val : Nat → Nat) :
    ((w.active h).filter (fun l => l / 32 == w.partOf q.1)).flatMap (fun l => lateLane w64 d (l % 32) (val l)) =
    ((w.unitOf q.1 q.2).active h).flatMap (fun l => lateLane w64 d l (val (32 * w.partOf q.1 + l))) := by
  rw [hm.activePart h hq, List.flatMap_map]
  have hA : ∀ l ∈ (w.unitOf q.1 q.2).active h, l < 32 := fun l hl => (hm.apart hq).lane_lt (Issuer.active_mem hl)
  generalize (w.unitOf q.1 q.2).active h = L at hA
  induction L with
  | nil => rfl
  | cons a r ih =>
    have ha := hA a (by simp)
    simp only [List.flatMap_cons]
    rw [ih (fun l hl => hA l (by simp [hl]))]
    have e1 : (a + 32 * w.partOf q.1) % 32 = a := by omega
    have e2 : a + 32 * w.partOf q.1 = 32 * w.partOf q.1 + a := by omega
    rw [e1, e2]

-- scalar results

theorem Gang.writes_s (g : Gang) (d : Nat) (x : W64) : Gang.writeDest g (.s d, x) = g.wrS d x := rfl

theorem cc_masked (a b : W64) (k : Nat) (hk : k < 64) :
    ((a &&& ~~~ BitVec.ofNat 64 15) ||| (b &&& BitVec.ofNat 64 15)).getLsbD k = if k < 4 then b.getLsbD k else a.getLsbD k := by
  have h15 : (BitVec.ofNat 64 15).getLsbD k = decide (k < 4) := by
    have : ∀ k : Fin 64, (BitVec.ofNat 64 15).getLsbD k.1 = decide (k.1 < 4) := by decide
    exact this ⟨k, hk⟩
  simp only [BitVec.getLsbD_or, BitVec.getLsbD_and, BitVec.getLsbD_not, h15, hk]
  by_cases h : k < 4 <;> simp [h]

/-- CC with its bits Z, N, C and V replaced. -/
def mergeCc (old : W64) : Option W64 → W64
  | some c => (old &&& ~~~ BitVec.ofNat 64 15) ||| (c &&& BitVec.ofNat 64 15)
  | none => old

/-- The places of a scalar result. -/
def scalarWrites (d : Nat) (val : W64) (cc : Option W64) : List (Dest × W64) :=
  (Dest.s d, val) :: (match cc with | some c => [(Dest.cc 15, c)] | none => [])

theorem scalar_land (g : Gang) (d : Nat) (val : W64) (cc : Option W64) :
    (scalarWrites d val cc).foldl Gang.writeDest g =
      { g.wrS d val with cc := mergeCc g.cc cc } := by
  cases cc <;> rfl

/-- What a scalar result leaves in a gang (R222, R249). -/
theorem scalarDone_of (g : Gang) (l : List Nat) (la d : Nat) (val : W64) (cc : Option W64) :
    ScalarDone g (g.passLate l la (scalarWrites d val cc)) l la d val cc := by
  have hpassed : ∀ g' : Gang, g'.slices = g.slices → (∀ k ∈ l, k < 8 ∧ (g.slice k).live = true) → l.Nodup → g.Passed (g'.pass l) l := by
    intro g' hs hl hn
    have e : ∀ k, g'.slice k = g.slice k := fun k => by simp [Gang.slice, hs]
    refine ⟨fun k hk => ?_, fun k hk => ?_⟩
    · rw [Gang.slice_pass g' hk hn (by rw [e]; exact (hl k hk).2), e]
    · rw [Gang.slice_pass_other g' hk, e]
  by_cases hla : la = 0
  · have e : g.passLate l la (scalarWrites d val cc) = (({ g.wrS d val with cc := mergeCc g.cc cc } : Gang)).pass l := by
      simp only [Gang.passLate, hla, if_true, scalar_land]
    rw [e]
    constructor
    · intro _
      refine ⟨?_, fun k hk => ?_⟩
      · simp only [Gang.rdS, Gang.pass_s, Gang.wrS]; exact Tab.get_set_same _ _ _ _
      · cases cc with
        | none => simp [mergeCc]
        | some c => simp only [Gang.pass_cc, mergeCc]; rw [cc_masked _ _ _ hk]
    · exact fun h => absurd hla h
    · exact fun h => absurd hla h
    · intro r hr
      simp only [Gang.rdS, Gang.pass_s, Gang.wrS]
      exact Tab.get_set_other _ _ _ hr
    · exact hpassed _ rfl
    · exact Gang.pass_counted rfl rfl rfl
    · have h1 := Gang.pass_same (({ g.wrS d val with cc := mergeCc g.cc cc } : Gang)) l
      unfold Gang.SameButIssue at h1 ⊢
      rw [h1]; simp [Gang.wrS]
  · have e : g.passLate l la (scalarWrites d val cc) = { g.pass l with
        pend := (g.pass l).pend ++ [{ writes := scalarWrites d val cc, left := (List.range 8).map (fun k => if l.contains k then la else 1000000) }] } := by
      simp only [Gang.passLate, hla, if_false]
    rw [e]
    constructor
    · exact fun h => absurd h hla
    · exact fun _ => ⟨by simp, by simp, { writes := scalarWrites d val cc, left := (List.range 8).map (fun k => if l.contains k then la else 1000000) }, rfl, rfl⟩
    · intro _
      simp only [Gang.land, List.foldl_append, List.foldl_cons, List.foldl_nil, scalar_land]
      generalize List.foldl _ _ _ = Y
      refine ⟨by simp only [Gang.rdS, Gang.wrS]; exact Tab.get_set_same _ _ _ _, fun c hc k hk => ?_⟩
      subst hc
      simp only [mergeCc]
      rw [cc_masked _ _ _ (by omega), if_pos hk]
    · intro r _; simp [Gang.rdS]
    · exact hpassed _ rfl
    · exact Gang.pass_counted rfl rfl rfl
    · have h1 := Gang.pass_same g l
      unfold Gang.SameButIssue at h1 ⊢
      rw [h1]

/-- Every performing gang changed and passed, in a state with the same teams. -/
theorem Met.passWide {s u : State} {w : Wide} (hm : Met s w) (hu : u.teams = s.teams) (f : Gang → Gang) : u.WidePassed (u.passWide w.p f) w f := by
  have hf : u.team? w.p.team = some w.tm := by unfold State.team?; rw [hu]; exact hm.found
  refine ⟨State.onlyGangs_modEach .., fun q hq => ?_⟩
  have := State.gang_modEach (f := fun q g => (f g).pass q.2) hf hm.once hm.exist hq
  unfold Gang.PassedWith
  rw [passWide_eq, this]
  simp only [State.gang, hf]

end Sys2Proof.Machine
end

