-- ==== Sys2Proof/Laws/Control.lean ====
section
/-! SUPPORT. What going on does to a gang, said once (R205, R222, R256), and the forms GANG, uniform and unscoped. -/

namespace Sys2Proof.Machine

open Sys2Proof

/-- Slices changed and counted: nothing else of the gang changes. -/
theorem Gang.advance {g : Gang} {l : List Nat} (f : Slice → Slice) (hn : l.Nodup) (hl : ∀ k ∈ l, (g.slice k).live = true) :
    (∀ k ∈ l, ((g.modSlices l f).countIssue l).slice k = f (g.slice k)) ∧
    (∀ k, k ∉ l → ((g.modSlices l f).countIssue l).slice k = g.slice k) ∧
    g.Counted ((g.modSlices l f).countIssue l) l ∧ g.SameButIssue ((g.modSlices l f).countIssue l) := by
  refine ⟨fun k hk => Gang.slice_modSlices_mem g f hk hn (Gang.live_lt g (hl k hk)), fun k hk => Gang.slice_modSlices_other g f hk, ?_, ?_⟩
  · simp [Gang.Counted, Gang.countIssue]
  · have h : ∀ (l : List Nat) (f : Slice → Slice) (g : Gang), g.modSlices l f = { g with slices := (g.modSlices l f).slices } := by
      intro l f
      induction l with
      | nil => intro g; rfl
      | cons a r ih =>
        intro g
        have e : g.modSlices (a :: r) f = (g.modSlice a f).modSlices r f := rfl
        rw [e, ih]; rfl
    unfold Gang.SameButIssue Gang.countIssue
    rw [h]

/-- Going on at the following slot. -/
theorem Gang.wentOn_pass {g : Gang} {l : List Nat} (hn : l.Nodup) (hl : ∀ k ∈ l, (g.slice k).live = true) :
    g.WentOn (g.pass l) l (fun k => nextSlot (g.slice k).pc) := by
  obtain ⟨a, b, c, d⟩ := Gang.advance (g := g) (fun x => { x with pc := nextSlot x.pc, wait := .ready }) hn hl
  exact ⟨⟨a, b⟩, c, d⟩

/-- Going on at an address. -/
theorem Gang.wentOn_goTo {g : Gang} {l : List Nat} (pc : W64) (hn : l.Nodup) (hl : ∀ k ∈ l, (g.slice k).live = true) :
    g.WentOn (g.goTo l pc) l (fun _ => pc) := by
  obtain ⟨a, b, c, d⟩ := Gang.advance (g := g) (fun x => { x with pc := pc, wait := .ready }) hn hl
  exact ⟨⟨a, b⟩, c, d⟩

/-- The gang that starts is the issuing gang of the state in which it starts. -/
theorem GangStarts.apart {s s' : State} {i i' : Issuer} (hi : s.Issues i) (h : s.GangStarts i s' i') : i'.Apart := by
  obtain ⟨-, -, -, d, e, -, -⟩ := GangStarts.issues hi h
  exact ⟨d, e⟩

/-- Two changes of one gang of a state that agree on it are the same. -/
theorem State.modGang_at {s : State} {team gang : Nat} {t : Team} (ht : s.team? team = some t) (f f' : Gang → Gang) (h : f (t.gang gang) = f' (t.gang gang)) :
    s.modGang team gang f = s.modGang team gang f' := by
  unfold State.modGang State.modTeam
  congr 1
  unfold State.team? at ht
  simp only [Tab.modify, ht]
  congr 1
  unfold Team.modGang
  congr 1
  apply List.ext_getElem?
  intro n
  simp only [List.getElem?_modify]
  by_cases hn : gang = n
  · subst hn
    simp only [if_true]
    cases hgn : t.gangs[gang]? with
    | none => rfl
    | some x =>
      have : t.gang gang = x := by rw [Team.gang, List.getD_eq_getElem?_getD, hgn]; rfl
      simp [← this, h]
  · simp [hn]

theorem GangStarts.modGang {s s' : State} {i i' : Issuer} (hi : s.Issues i) (h : s.GangStarts i s' i') (f : Gang → Gang) :
    s'.modGang i'.unit.team i'.unit.gang f = s'.withGang i' (f i'.g) := by
  obtain ⟨a, b, -, -, -, -, -⟩ := GangStarts.issues hi h
  exact State.modGang_at a f (fun _ => f i'.g) (by rw [b])

/-- A GANG-scope instruction that changes its gang at once completes. -/
theorem gang_completes {ins : Instr} {h : Hdr} {ok : State → Issuer → Prop} {eff : State → Issuer → State → Prop} {F : State → Issuer → Except Stop State}
    (hx : ∀ s, exec ins s = s.gangOp h F)
    (hF : ∀ (s s' : State) (i i' : Issuer), s.Issues i → s.GangStarts i s' i' → ok s' i' → ∃ t, F s' i' = .ok t ∧ eff s' i' t) : GangCompletes ins h ok eff := by
  intro s i s' i' hi hs hg ho
  obtain ⟨t, h1, h2⟩ := hF s s' i i' hi hg ho
  exact ⟨t, by unfold PerformsIn; rw [hx, gangOp_starts hi.1 hs hg, h1]; rfl, h2⟩

theorem uniform_completes {ins : Instr} {h : Hdr} {ok : State → Issuer → Prop} {eff : State → Issuer → State → Prop} {F : State → Issuer → Except Stop State}
    (hx : ∀ s, exec ins s = s.uniform h F)
    (hF : ∀ (s s' : State) (i i' : Issuer), s.Issues i → s.GangStarts i s' i' → ok s' i' → ∃ t, F s' i' = .ok t ∧ eff s' i' t) : UniformCompletes ins h ok eff := by
  intro s i s' i' hi hs hg ho
  obtain ⟨t, h1, h2⟩ := hF s s' i i' hi hg ho
  exact ⟨t, by unfold PerformsIn; rw [hx, uniform_starts hi.1 hs hg, h1]; rfl, h2⟩

/-- An unscoped instruction completes. -/
theorem unit_completes {ins : Instr} {h : Hdr} {F : State → Issuer → Except Stop State} {s t : State} {i : Issuer}
    (hx : ∀ s, exec ins s = s.lane h (F s)) (hi : s.Issues i) (hs : h.scp = .lane) (hF : F s i = .ok t) : Performs ins s i.performer t := by
  unfold Performs
  rw [hx, lane_ok hi.1 hs _ hF]

theorem GangStarts.becomes {s s' : State} {i i' : Issuer} (hi : s.Issues i) (h : s.GangStarts i s' i') (f : State → Issuer → Gang → Gang) :
    GangBecomes f s' i' (s'.passWith i' (f s' i')) := by
  refine ⟨(f s' i' i'.g).pass i'.slices, ?_, rfl⟩
  exact GangStarts.modGang hi h (fun g => (f s' i' g).pass i'.slices)

end Sys2Proof.Machine
end

