-- ==== Sys2Proof/Laws/Memory.lean ====
section
/-! SUPPORT. Memory, said once: what translating, reading and storing can change (R98, R102, R122, R176, R180, R407), and
that views agree where their parts do. -/

namespace Sys2Proof.Machine

open Sys2Proof

theorem State.core_perfAdd (s : State) (core c n k : Nat) : (s.perfAdd core c n).core k =
    if k = core then { s.core core with perf := Tab.adjust (s.core core).perf 0 c (fun x => x + BitVec.ofNat 64 n) } else s.core k :=
  State.core_modCore _ _ _ _

-- committed bytes

theorem State.commByte_setComm (s : State) (a loc : Nat) (v : Byte) : (s.setComm a v).commByte loc = if loc = a then v else s.commByte loc := by
  unfold State.setComm State.commByte
  by_cases h : a < localEnd
  · by_cases h' : loc < localEnd
    · simp only [if_pos h, if_pos h', Tab.get_set]
    · have : loc ≠ a := by omega
      simp [h, h', this]
  · by_cases h' : loc < localEnd
    · have : loc ≠ a := by omega
      simp [h, h', this]
    · simp only [if_neg h, if_neg h', Tab.get_set]

theorem State.setComm_rest (s : State) (a : Nat) (v : Byte) :
    s.setComm a v = { s with mem := (s.setComm a v).mem, uncorr := (s.setComm a v).uncorr, remote := (s.setComm a v).remote } := by
  unfold State.setComm
  split <;> rfl

theorem State.setCommAll_rest (l : List (Nat × Byte)) (s : State) :
    s.setCommAll l = { s with mem := (s.setCommAll l).mem, uncorr := (s.setCommAll l).uncorr, remote := (s.setCommAll l).remote } := by
  induction l generalizing s with
  | nil => rfl
  | cons p r ih =>
    have e : s.setCommAll (p :: r) = (s.setComm p.1 p.2).setCommAll r := rfl
    rw [e, ih, State.setComm_rest]

theorem State.commByte_setCommAll (l : List (Nat × Byte)) (s : State) (loc : Nat) (h : ∀ p ∈ l, p.1 ≠ loc) :
    (s.setCommAll l).commByte loc = s.commByte loc := by
  induction l generalizing s with
  | nil => rfl
  | cons p r ih =>
    have e : s.setCommAll (p :: r) = (s.setComm p.1 p.2).setCommAll r := rfl
    rw [e, ih _ (fun q hq => h q (List.mem_cons_of_mem _ hq)), State.commByte_setComm, if_neg (fun hh => h p (List.mem_cons_self ..) hh.symm)]

-- reads

/-- What reading can change, entry addresses `as` given once for all. -/
structure Reads (as : List Nat) (core : Nat) (s t : State) : Prop where
  device  : t = { s with cores := t.cores, launches := t.launches, free := t.free, mem := t.mem, uncorr := t.uncorr, remote := t.remote,
                         order := t.order, fleet := t.fleet, out := t.out }
  quiet   : s.uncorr = [] → t.uncorr = [] ∧ t.fleet = s.fleet ∧ t.out = s.out
  cores   : ∀ c, c ≠ core → t.core c = s.core c
  launch  : ∀ id, (t.launch? id).map Launch.unsigned = (s.launch? id).map Launch.unsigned
  memory  : (∀ e ∈ (s.core core).tlb, e.at_ ∈ as) → (∀ e ∈ (t.core core).tlb, e.at_ ∈ as) ∧ ∀ loc, OffEntries as loc → t.commByte loc = s.commByte loc

theorem Reads.refl (as : List Nat) (core : Nat) (s : State) : Reads as core s s :=
  ⟨rfl, fun h => ⟨h, rfl, rfl⟩, fun _ _ => rfl, fun _ => rfl, fun h => ⟨h, fun _ _ => rfl⟩⟩

theorem Reads.trans {as : List Nat} {core : Nat} {s t u : State} (h : Reads as core s t) (h' : Reads as core t u) : Reads as core s u := by
  refine ⟨?_, fun hq => ?_, fun c hc => (h'.cores c hc).trans (h.cores c hc), fun id => (h'.launch id).trans (h.launch id), fun ha => ?_⟩
  · rw [h'.device, h.device]
  · obtain ⟨a, b, c⟩ := h.quiet hq
    obtain ⟨d, e, f⟩ := h'.quiet a
    exact ⟨d, e.trans b, f.trans c⟩
  · obtain ⟨a, b⟩ := h.memory ha
    obtain ⟨c, d⟩ := h'.memory a
    exact ⟨c, fun loc hl => (d loc hl).trans (b loc hl)⟩

theorem Reads.modCore (as : List Nat) (core : Nat) (s : State) (f : CoreRec → CoreRec) (hf : ∀ c : CoreRec, (∀ e ∈ c.tlb, e.at_ ∈ as) → ∀ e ∈ (f c).tlb, e.at_ ∈ as) :
    Reads as core s (s.modCore core f) := by
  refine ⟨rfl, fun h => ⟨h, rfl, rfl⟩, fun c hc => ?_, fun _ => rfl, fun h => ⟨?_, fun _ _ => rfl⟩⟩
  · rw [State.core_modCore, if_neg hc]
  · rw [State.core_modCore, if_pos rfl]; exact hf _ h

theorem Reads.perfAdd (as : List Nat) (core n k : Nat) (s : State) : Reads as core s (s.perfAdd core n k) := Reads.modCore _ _ _ _ (fun _ h => h)

theorem Reads.pick (as : List Nat) (core n : Nat) (s : State) : Reads as core s (s.pickBelow n).2 :=
  ⟨rfl, fun h => ⟨h, rfl, rfl⟩, fun _ _ => rfl, fun _ => rfl, fun h => ⟨h, fun _ _ => rfl⟩⟩

theorem Reads.modOrder (as : List Nat) (core : Nat) (s : State) (f : Order → Order) : Reads as core s (s.modOrder f) :=
  ⟨rfl, fun h => ⟨h, rfl, rfl⟩, fun _ _ => rfl, fun _ => rfl, fun h => ⟨h, fun _ _ => rfl⟩⟩

/-- Raising an event changes the fleet and what is sent, and nothing else. -/
theorem State.raiseEvent_rest (s : State) (i : Nat) : s.raiseEvent i = { s with fleet := (s.raiseEvent i).fleet, out := (s.raiseEvent i).out } := by
  unfold State.raiseEvent
  simp only
  split <;> rfl

/-- Noting uncorrectable words changes the fleet and what is sent, and nothing else. -/
theorem State.noteRead_rest (s : State) (locs : List Nat) : s.noteRead locs = { s with fleet := (s.noteRead locs).fleet, out := (s.noteRead locs).out } := by
  unfold State.noteRead State.uncorrectable
  split
  · rfl
  · simp only
    rw [State.raiseEvent_rest]

/-- Without a marked word nothing is noted. -/
theorem State.noteRead_quiet {s : State} (h : s.uncorr = []) (locs : List Nat) : s.noteRead locs = s := by
  have e : s.markedWords locs = 0 := by
    unfold State.markedWords
    simp [h]
  unfold State.noteRead State.uncorrectable
  rw [e]; rfl

theorem Reads.noteRead (as : List Nat) (core : Nat) (s : State) (locs : List Nat) : Reads as core s (s.noteRead locs) := by
  have e := s.noteRead_rest locs
  refine ⟨?_, fun h => ?_, fun c _ => ?_, fun _ => ?_, fun h => ⟨?_, fun _ _ => ?_⟩⟩
  · obtain ⟨a, b, e⟩ : ∃ a b, s.noteRead locs = { s with fleet := a, out := b } := ⟨_, _, e⟩
    rw [e]
  · rw [State.noteRead_quiet h]; exact ⟨h, rfl, rfl⟩
  · rw [e]; rfl
  · rw [e]; rfl
  · rw [e]; exact h
  · rw [e]; rfl

theorem Reads.foldl {α : Type} {as : List Nat} {core : Nat} (l : List α) (f : State → α → State) (h : ∀ s, ∀ x ∈ l, Reads as core s (f s x)) (s : State) :
    Reads as core s (l.foldl f s) := by
  induction l generalizing s with
  | nil => exact .refl ..
  | cons a r ih => exact (h s a (List.mem_cons_self ..)).trans (ih (fun s x hx => h s x (List.mem_cons_of_mem _ hx)) _)

theorem Reads.fillTlb {as : List Nat} (core : Nat) (s : State) {p : PageTr} (hp : p.at_ ∈ as) : Reads as core s (s.fillTlb core p) := by
  unfold State.fillTlb
  split
  · exact .refl ..
  · refine Reads.trans (t := match s.slotOfAsid p.asid with
      | some k => s.noteRead (s.walkBytes p.base (s.ctx k).ptroot [(48, 8), (39, 9), (30, 9), (21, 9), (16, 5)])
      | none => s) ?_ ?_
    · split
      · exact Reads.noteRead ..
      · exact .refl ..
    · refine (Reads.modCore as core _ _ (fun c hc e he => ?_)).trans (Reads.perfAdd ..)
      have := List.mem_of_mem_take he
      rcases List.mem_cons.mp this with h | h
      · rw [h]; exact hp
      · exact hc e h

theorem mem_tlb_map {as : List Nat} {l : List TlbEntry} (h : ∀ e ∈ l, e.at_ ∈ as) (f : TlbEntry → TlbEntry) (hf : ∀ e, (f e).at_ = e.at_) :
    ∀ e ∈ l.map f, e.at_ ∈ as := by
  intro e he
  obtain ⟨x, hx, rfl⟩ := List.mem_map.mp he
  rw [hf]; exact h x hx

theorem Reads.setComm_device {s t : State} (h : t = { s with mem := t.mem, uncorr := t.uncorr, remote := t.remote }) :
    t = { s with cores := t.cores, launches := t.launches, free := t.free, mem := t.mem, uncorr := t.uncorr, remote := t.remote,
                 order := t.order, fleet := t.fleet, out := t.out } := by
  obtain ⟨a, b, c, h⟩ : ∃ a b c, t = { s with mem := a, uncorr := b, remote := c } := ⟨_, _, _, h⟩
  subst h; rfl

/-- A write marks nothing. -/
theorem State.setCommAll_uncorr (l : List (Nat × Byte)) {s : State} (h : s.uncorr = []) : (s.setCommAll l).uncorr = [] := by
  induction l generalizing s with
  | nil => exact h
  | cons p r ih =>
    have e : s.setCommAll (p :: r) = (s.setComm p.1 p.2).setCommAll r := rfl
    rw [e]
    refine ih ?_
    unfold State.setComm
    split
    · simp [h, Tab.del]
    · exact h

theorem Reads.setCommAll {as : List Nat} (core : Nat) (s : State) {a : Nat} (bs : List Byte) (ha : (∀ e ∈ (s.core core).tlb, e.at_ ∈ as) → a ∈ as) :
    Reads as core s (s.setCommAll ((List.range 8).zip bs |>.map (fun q => (a + q.1, q.2)))) := by
  have e := State.setCommAll_rest ((List.range 8).zip bs |>.map (fun q => (a + q.1, q.2))) s
  refine ⟨?_, fun h => ⟨State.setCommAll_uncorr _ h, ?_, ?_⟩, fun c _ => ?_, fun _ => ?_, fun h => ⟨?_, fun loc hl => State.commByte_setCommAll _ _ _ ?_⟩⟩
  · exact Reads.setComm_device e
  · rw [e]
  · rw [e]
  · rw [e]; rfl
  · rw [e]; rfl
  · rw [e]; exact h
  · intro p hp
    obtain ⟨q, hq, rfl⟩ := List.mem_map.mp hp
    have : q.1 < 8 := by have := (List.of_mem_zip hq).1; simpa using this
    have := hl a (ha h)
    show a + q.1 ≠ loc
    omega

theorem Reads.forwardLine {as : List Nat} (core : Nat) (s : State) (p : PageTr) : Reads as core s (s.forwardLine core p) := by
  unfold State.forwardLine
  split
  · exact .refl ..
  · refine (Reads.perfAdd as core 9 1 s).trans ?_
    generalize s.perfAdd core 9 1 = s
    cases hf : (s.core core).tlb.find? (fun e => e.asid == p.asid && e.page == p.base) with
    | none => simp only [hf]; exact .refl ..
    | some e =>
      simp only [hf]
      have hm := List.mem_of_find?_eq_some hf
      split
      · exact Reads.modCore _ _ _ _ (fun c hc => mem_tlb_map hc _ (fun e => by split <;> rfl))
      · split
        · exact Reads.trans (Reads.setCommAll core s _ (fun h => h e hm)) (Reads.modCore _ _ _ _ (fun c hc => mem_tlb_map hc _ (fun e => by split <;> rfl)))
        · exact Reads.modCore _ _ _ _ (fun c hc => mem_tlb_map hc _ (fun e => by split <;> rfl))

theorem Reads.touchPages (core : Nat) (s : State) (ps : List PageTr) (accs : List LaneAcc) {as : List Nat} (h : ∀ p ∈ ps, p.at_ ∈ as) :
    Reads as core s (s.touchPages core ps accs) :=
  (Reads.foldl ps _ (fun s _ hp => Reads.fillTlb core s (h _ hp)) s).trans (Reads.foldl _ _ (fun s _ _ => Reads.forwardLine core s _) _)

theorem Reads.recordRead (as : List Nat) (core : Nat) (s : State) (launch : Nat) (imm : Bool) (loc : Nat) :
    Reads as core s (s.recordRead launch imm loc) := by
  unfold State.recordRead
  split
  · exact .refl ..
  · refine ⟨rfl, fun h => ⟨h, rfl, rfl⟩, fun _ _ => rfl, fun id => ?_, fun h => ⟨h, fun _ _ => rfl⟩⟩
    rw [State.launch_modLaunch]
    split
    · rw [Option.map_map]
      congr 1
      funext L
      simp only [Function.comp, Launch.unsigned]
      split <;> rfl
    · rfl

theorem Reads.evictL1 (as : List Nat) (core : Nat) (s : State) (loc : Nat) : Reads as core s (s.evictL1 core loc) := by
  unfold State.evictL1
  simp only
  split
  · exact .refl ..
  · exact (Reads.pick ..).trans (Reads.modCore _ _ _ _ (fun _ h => h))

/-- A core's L1 with a sector brought in. -/
def CoreRec.refilled (c : CoreRec) (x : L1Sector) : CoreRec := { c with l1 := x :: c.l1.filter (fun y => !(y.view == x.view && y.loc == x.loc)) }

/-- The sector that a refill brings in. -/
def State.sector (s : State) (w : Viewer) (imm : Bool) (loc : Nat) : L1Sector :=
  ⟨s.viewKey w imm, sectorOf loc, (List.range 32).map (fun k => s.viewByte w imm (sectorOf loc + k))⟩

theorem refillL1_eq (s : State) (core : Nat) (w : Viewer) (imm : Bool) (loc : Nat) :
    s.refillL1 core w imm loc = (s.modCore core (fun c => c.refilled (s.sector w imm loc))).evictL1 core loc := rfl

theorem Reads.refillL1 (as : List Nat) (core : Nat) (s : State) (w : Viewer) (imm : Bool) (loc : Nat) : Reads as core s (s.refillL1 core w imm loc) := by
  rw [refillL1_eq]
  exact Reads.trans (Reads.modCore as core s (fun c => c.refilled (s.sector w imm loc)) (fun _ h => h)) (Reads.evictL1 ..)

/-- What asking L1 can leave: nothing new, a sector dropped, or a sector brought in, with at most one free value used. -/
theorem fromL1_cases (s : State) (core : Nat) (w : Viewer) (imm l1 : Bool) (loc n : Nat) :
    ∃ s1, (s1 = s ∨ s1 = (s.pickBelow 2).2) ∧ ((s.fromL1 core w imm l1 loc n).2 = s1 ∨ (s.fromL1 core w imm l1 loc n).2 = s.dropSector core loc ∨
      (s.fromL1 core w imm l1 loc n).2 = (s1.refillL1 core w imm loc).perfAdd core 2 1) := by
  unfold State.fromL1
  simp only
  split
  · exact ⟨s, .inl rfl, .inr (.inl rfl)⟩
  · split
    · exact ⟨s, .inl rfl, .inr (.inr rfl)⟩
    · split
      · exact ⟨s, .inl rfl, .inl rfl⟩
      · split
        · exact ⟨_, .inr rfl, .inl rfl⟩
        · exact ⟨_, .inr rfl, .inr (.inr rfl)⟩

theorem Reads.fromL1 (as : List Nat) (core : Nat) (s : State) (w : Viewer) (imm l1 : Bool) (loc n : Nat) :
    Reads as core s (s.fromL1 core w imm l1 loc n).2 := by
  obtain ⟨s1, h1, h⟩ := fromL1_cases s core w imm l1 loc n
  have hr : Reads as core s s1 := by
    rcases h1 with rfl | rfl
    · exact .refl ..
    · exact Reads.pick ..
  rcases h with e | e | e <;> rw [e]
  · exact hr
  · exact Reads.modCore _ _ _ _ (fun _ h => h)
  · exact hr.trans ((Reads.refillL1 ..).trans (Reads.perfAdd ..))

/-- Reading a unit uses at most one free value and changes the order of accesses. -/
theorem readUnit_cases (s : State) (it : Bool) (agents : List Nat) (key loc : Nat) (cur : List Byte) :
    ∃ s1 f, (s1 = s ∨ ∃ n, s1 = (s.pickBelow n).2) ∧ (s.readUnit it agents key loc cur).2 = s1.modOrder f := by
  unfold State.readUnit
  simp only
  generalize (if it = true then [(cur, none)] else s.order.versions agents key loc cur) = vs
  by_cases h : vs.length = 1
  · simp only [if_pos h]
    exact ⟨_, _, .inl rfl, rfl⟩
  · simp only [if_neg h]
    exact ⟨_, _, .inr ⟨_, rfl⟩, rfl⟩

theorem Reads.readUnit (as : List Nat) (core : Nat) (s : State) (it : Bool) (agents : List Nat) (key loc : Nat) (cur : List Byte) :
    Reads as core s (s.readUnit it agents key loc cur).2 := by
  obtain ⟨s1, f, h, e⟩ := readUnit_cases s it agents key loc cur
  rw [e]
  rcases h with rfl | ⟨n, rfl⟩
  · exact Reads.modOrder ..
  · exact (Reads.pick ..).trans (Reads.modOrder ..)

theorem readUnits_cons (s : State) (it : Bool) (agents : List Nat) (key : Nat) (cur : Nat → Nat → List Byte) (u : Nat × Nat) (r : List (Nat × Nat)) :
    s.readUnits it agents key cur (u :: r) =
      ((s.readUnit it agents key u.1 (cur u.1 u.2)).1 ++ ((s.readUnit it agents key u.1 (cur u.1 u.2)).2.readUnits it agents key cur r).1,
       ((s.readUnit it agents key u.1 (cur u.1 u.2)).2.readUnits it agents key cur r).2) := by
  have h : ∀ (l : List (Nat × Nat)) (acc : List Byte × State),
      l.foldl (fun (acc : List Byte × State) u =>
        let (b, s) := acc.2.readUnit it agents key u.1 (cur u.1 u.2)
        (acc.1 ++ b, s)) acc = (acc.1 ++ (acc.2.readUnits it agents key cur l).1, (acc.2.readUnits it agents key cur l).2) := by
    intro l
    induction l with
    | nil => intro acc; simp [State.readUnits]
    | cons a l ih =>
      intro acc
      unfold State.readUnits
      simp only [List.foldl_cons]
      rw [ih, ih (_, _)]
      simp
  conv_lhs => unfold State.readUnits
  rw [List.foldl_cons, h]
  simp

theorem Reads.readUnits (as : List Nat) (core : Nat) (it : Bool) (agents : List Nat) (key : Nat) (cur : Nat → Nat → List Byte) (units : List (Nat × Nat))
    (s : State) : Reads as core s (s.readUnits it agents key cur units).2 := by
  induction units generalizing s with
  | nil => exact .refl ..
  | cons u r ih => rw [readUnits_cons]; exact (Reads.readUnit ..).trans (ih _)

theorem loadPart_eq (s : State) (core : Nat) (it : Bool) (agents : List Nat) (w : Viewer) (imm l1 : Bool) (loc n : Nat) (units : List (Nat × Nat)) :
    s.loadPart core it agents w imm l1 loc n units = match (s.fromL1 core w imm l1 loc n).1 with
      | some old => (old, (s.fromL1 core w imm l1 loc n).2)
      | none => (s.fromL1 core w imm l1 loc n).2.readUnits it agents ((s.fromL1 core w imm l1 loc n).2.viewKey w imm)
          (fun a k => (List.range k).map (fun j => (s.fromL1 core w imm l1 loc n).2.viewByte w imm (a + j))) units := by
  unfold State.loadPart
  obtain ⟨o, u⟩ := s.fromL1 core w imm l1 loc n
  cases o <;> rfl

theorem Reads.loadPart (as : List Nat) (core : Nat) (s : State) (it : Bool) (agents : List Nat) (w : Viewer) (imm l1 : Bool) (loc n : Nat)
    (units : List (Nat × Nat)) : Reads as core s (s.loadPart core it agents w imm l1 loc n units).2 := by
  rw [loadPart_eq]
  split
  · exact Reads.fromL1 ..
  · exact (Reads.fromL1 ..).trans (Reads.readUnits ..)

/-- One sector part of a lane's load. -/
def loadStep (core : Nat) (it : Bool) (agents : List Nat) (w : Viewer) (ord : MemOrder) (vis : Vis) (x : LaneAcc) (acc : List Byte × State)
    (q : PageTr × Nat × Nat) : List Byte × State :=
  let u := acc.2.loadPart core it agents w (pteImm q.1.pte) (l1Serves ord vis q.1) q.2.1 q.2.2 (loadUnits ord x q.2.1 q.2.2)
  (acc.1 ++ u.1, u.2.recordRead w.launch (pteImm q.1.pte) q.2.1)

theorem loadAcc_eq (s : State) (core : Nat) (it : Bool) (agents : List Nat) (w : Viewer) (ord : MemOrder) (vis : Vis) (ps : List PageTr) (x : LaneAcc) :
    s.loadAcc core it agents w ord vis ps x =
      (leNat ((partsOf ps x).foldl (loadStep core it agents w ord vis x) ([], s)).1, ((partsOf ps x).foldl (loadStep core it agents w ord vis x) ([], s)).2) := rfl

theorem Reads.loadAcc (as : List Nat) (core : Nat) (s : State) (it : Bool) (agents : List Nat) (w : Viewer) (ord : MemOrder) (vis : Vis)
    (ps : List PageTr) (x : LaneAcc) : Reads as core s (s.loadAcc core it agents w ord vis ps x).2 := by
  rw [loadAcc_eq]
  suffices h : ∀ (l : List (PageTr × Nat × Nat)) (acc : List Byte × State),
      Reads as core acc.2 (l.foldl (loadStep core it agents w ord vis x) acc).2 from h _ ([], s)
  intro l
  induction l with
  | nil => exact fun acc => .refl ..
  | cons q r ih => exact fun acc => Reads.trans (Reads.trans (Reads.loadPart ..) (Reads.recordRead ..)) (ih (loadStep core it agents w ord vis x acc q))

/-- The values of some accesses, one after another. -/
def State.loadAll (s : State) (core : Nat) (it : Bool) (agents : List Nat) (w : Viewer) (ord : MemOrder) (vis : Vis) (ps : List PageTr)
    (accs : List LaneAcc) : List (Nat × Nat) × State :=
  accs.foldl (fun (acc : List (Nat × Nat) × State) x =>
    let (v, s) := acc.2.loadAcc core it agents w ord vis ps x
    (acc.1 ++ [(x.lane, v)], s)) ([], s)

theorem loadAll_fold (core : Nat) (it : Bool) (agents : List Nat) (w : Viewer) (ord : MemOrder) (vis : Vis) (ps : List PageTr)
    (accs : List LaneAcc) (acc : List (Nat × Nat) × State) :
    accs.foldl (fun (acc : List (Nat × Nat) × State) x =>
      let (v, s) := acc.2.loadAcc core it agents w ord vis ps x
      (acc.1 ++ [(x.lane, v)], s)) acc =
      (acc.1 ++ (acc.2.loadAll core it agents w ord vis ps accs).1, (acc.2.loadAll core it agents w ord vis ps accs).2) := by
  induction accs generalizing acc with
  | nil => simp [State.loadAll]
  | cons x r ih =>
    unfold State.loadAll
    simp only [List.foldl_cons]
    rw [ih, ih (_, _)]
    simp

theorem loadAll_cons (s : State) (core : Nat) (it : Bool) (agents : List Nat) (w : Viewer) (ord : MemOrder) (vis : Vis) (ps : List PageTr)
    (x : LaneAcc) (accs : List LaneAcc) :
    s.loadAll core it agents w ord vis ps (x :: accs) =
      ((x.lane, (s.loadAcc core it agents w ord vis ps x).1) :: ((s.loadAcc core it agents w ord vis ps x).2.loadAll core it agents w ord vis ps accs).1,
       ((s.loadAcc core it agents w ord vis ps x).2.loadAll core it agents w ord vis ps accs).2) := by
  conv_lhs => unfold State.loadAll
  simp only [List.foldl_cons]
  rw [loadAll_fold]
  rfl

theorem Reads.loadAll (as : List Nat) (core : Nat) (it : Bool) (agents : List Nat) (w : Viewer) (ord : MemOrder) (vis : Vis) (ps : List PageTr)
    (accs : List LaneAcc) (s : State) :
    Reads as core s (s.loadAll core it agents w ord vis ps accs).2 ∧ (s.loadAll core it agents w ord vis ps accs).1.map Prod.fst = accs.map (·.lane) := by
  induction accs generalizing s with
  | nil => exact ⟨.refl .., rfl⟩
  | cons x r ih =>
    rw [loadAll_cons]
    exact ⟨Reads.trans (Reads.loadAcc ..) (ih _).1, by simp [(ih _).2]⟩

-- no remote page: memory is untouched

theorem Reads.memOf {s t : State} (h : t.mem = s.mem ∧ t.uncorr = s.uncorr ∧ t.remote = s.remote) {u : State}
    (h' : u.mem = t.mem ∧ u.uncorr = t.uncorr ∧ u.remote = t.remote) : u.mem = s.mem ∧ u.uncorr = s.uncorr ∧ u.remote = s.remote :=
  ⟨h'.1.trans h.1, h'.2.1.trans h.2.1, h'.2.2.trans h.2.2⟩

/-- The memories of two states agree. -/
abbrev SameMem (s t : State) : Prop := t.mem = s.mem ∧ t.uncorr = s.uncorr ∧ t.remote = s.remote

theorem sameMem_foldl {α : Type} (l : List α) (f : State → α → State) (h : ∀ s, ∀ x ∈ l, SameMem s (f s x)) (s : State) : SameMem s (l.foldl f s) := by
  induction l generalizing s with
  | nil => exact ⟨rfl, rfl, rfl⟩
  | cons a r ih => exact Reads.memOf (h s a (List.mem_cons_self ..)) (ih (fun s x hx => h s x (List.mem_cons_of_mem _ hx)) _)

theorem sameMem_noteRead (s : State) (locs : List Nat) : SameMem s (s.noteRead locs) := by
  rw [State.noteRead_rest]
  exact ⟨rfl, rfl, rfl⟩

theorem sameMem_fillTlb (s : State) (core : Nat) (p : PageTr) : SameMem s (s.fillTlb core p) := by
  unfold State.fillTlb
  split
  · exact ⟨rfl, rfl, rfl⟩
  · refine Reads.memOf (t := match s.slotOfAsid p.asid with
      | some k => s.noteRead (s.walkBytes p.base (s.ctx k).ptroot [(48, 8), (39, 9), (30, 9), (21, 9), (16, 5)])
      | none => s) ?_ ⟨rfl, rfl, rfl⟩
    split
    · exact sameMem_noteRead ..
    · exact ⟨rfl, rfl, rfl⟩

theorem mem_pageOf (ps : List PageTr) (va : Nat) : pageOf ps va ∈ ps ∨ pageOf ps va = { base := 0, size := 16, pte := 0, at_ := 0, asid := 0, hit := true } := by
  unfold pageOf
  cases h : ps.find? (·.covers va) with
  | none => exact .inr rfl
  | some p => exact .inl (List.mem_of_find?_eq_some h)

theorem pageOf_local {ps : List PageTr} (h : ∀ p ∈ ps, pteRemote p.pte = false) (va : Nat) : pteRemote (pageOf ps va).pte = false := by
  rcases mem_pageOf ps va with h' | h'
  · exact h _ h'
  · rw [h']; rfl

theorem forwardLine_local {p : PageTr} (h : pteRemote p.pte = false) (s : State) (core : Nat) : s.forwardLine core p = s := by
  unfold State.forwardLine
  simp [h]

theorem sameMem_touchPages {ps : List PageTr} (h : ∀ p ∈ ps, pteRemote p.pte = false) (s : State) (core : Nat) (accs : List LaneAcc) :
    SameMem s (s.touchPages core ps accs) := by
  unfold State.touchPages
  refine Reads.memOf (sameMem_foldl ps _ (fun s p _ => sameMem_fillTlb s core p) s) (sameMem_foldl _ _ (fun s q hq => ?_) _)
  unfold accLines at hq
  obtain ⟨l, -, rfl⟩ := List.mem_map.mp hq
  rw [forwardLine_local (pageOf_local h _)]
  exact ⟨rfl, rfl, rfl⟩

theorem sameMem_refillL1 (s : State) (core : Nat) (w : Viewer) (imm : Bool) (loc : Nat) : SameMem s (s.refillL1 core w imm loc) := by
  rw [refillL1_eq]
  generalize s.sector w imm loc = x
  unfold State.evictL1
  simp only
  split <;> exact ⟨rfl, rfl, rfl⟩

theorem sameMem_fromL1 (s : State) (core : Nat) (w : Viewer) (imm l1 : Bool) (loc n : Nat) : SameMem s (s.fromL1 core w imm l1 loc n).2 := by
  obtain ⟨s1, h1, h⟩ := fromL1_cases s core w imm l1 loc n
  have hr : SameMem s s1 := by rcases h1 with rfl | rfl <;> exact ⟨rfl, rfl, rfl⟩
  have hp : ∀ u : State, SameMem u (u.perfAdd core 2 1) := fun _ => ⟨rfl, rfl, rfl⟩
  rcases h with e | e | e <;> rw [e]
  · exact hr
  · exact ⟨rfl, rfl, rfl⟩
  · exact Reads.memOf hr (Reads.memOf (sameMem_refillL1 ..) (hp _))

theorem sameMem_readUnits (it : Bool) (agents : List Nat) (key : Nat) (cur : Nat → Nat → List Byte) (units : List (Nat × Nat)) (s : State) :
    SameMem s (s.readUnits it agents key cur units).2 := by
  induction units generalizing s with
  | nil => exact ⟨rfl, rfl, rfl⟩
  | cons u r ih =>
    rw [readUnits_cons]
    refine Reads.memOf ?_ (ih _)
    obtain ⟨s1, f, h, e⟩ := readUnit_cases s it agents key u.1 (cur u.1 u.2)
    rw [e]
    rcases h with rfl | ⟨n, rfl⟩ <;> exact ⟨rfl, rfl, rfl⟩

theorem sameMem_loadPart (s : State) (core : Nat) (it : Bool) (agents : List Nat) (w : Viewer) (imm l1 : Bool) (loc n : Nat) (units : List (Nat × Nat)) :
    SameMem s (s.loadPart core it agents w imm l1 loc n units).2 := by
  rw [loadPart_eq]
  split
  · exact sameMem_fromL1 ..
  · exact Reads.memOf (sameMem_fromL1 ..) (sameMem_readUnits ..)

theorem sameMem_recordRead (s : State) (launch : Nat) (imm : Bool) (loc : Nat) : SameMem s (s.recordRead launch imm loc) := by
  unfold State.recordRead
  split <;> exact ⟨rfl, rfl, rfl⟩

theorem sameMem_loadAll (core : Nat) (it : Bool) (agents : List Nat) (w : Viewer) (ord : MemOrder) (vis : Vis) (ps : List PageTr)
    (accs : List LaneAcc) (s : State) : SameMem s (s.loadAll core it agents w ord vis ps accs).2 := by
  induction accs generalizing s with
  | nil => exact ⟨rfl, rfl, rfl⟩
  | cons x r ih =>
    rw [loadAll_cons]
    refine Reads.memOf ?_ (ih _)
    rw [loadAcc_eq]
    suffices h : ∀ (l : List (PageTr × Nat × Nat)) (acc : List Byte × State),
        SameMem acc.2 (l.foldl (loadStep core it agents w ord vis x) acc).2 from h _ ([], s)
    intro l
    induction l with
    | nil => exact fun acc => ⟨rfl, rfl, rfl⟩
    | cons q r ih => exact fun acc => Reads.memOf (Reads.memOf (sameMem_loadPart ..) (sameMem_recordRead ..)) (ih (loadStep core it agents w ord vis x acc q))

-- views agree where what they read agrees

/-- What a view reads, in two states. -/
structure SameView (s t : State) : Prop where
  mem    : t.mem = s.mem ∧ t.uncorr = s.uncorr ∧ t.remote = s.remote
  ctxs   : t.ctxs = s.ctxs
  teams  : t.teams = s.teams
  launch : ∀ id, (t.launch? id).map Launch.unsigned = (s.launch? id).map Launch.unsigned

theorem SameView.refl (s : State) : SameView s s := ⟨⟨rfl, rfl, rfl⟩, rfl, rfl, fun _ => rfl⟩
theorem SameView.trans {s t u : State} (h : SameView s t) (h' : SameView t u) : SameView s u :=
  ⟨Reads.memOf h.mem h'.mem, h'.ctxs.trans h.ctxs, h'.teams.trans h.teams, fun id => (h'.launch id).trans (h.launch id)⟩

theorem Reads.sameView {as : List Nat} {core : Nat} {s t : State} (h : Reads as core s t) (hm : SameMem s t) : SameView s t :=
  ⟨hm, by rw [h.device], by rw [h.device], h.launch⟩

theorem SameView.commByte {s t : State} (h : SameView s t) (loc : Nat) : t.commByte loc = s.commByte loc := by
  unfold State.commByte
  rw [h.mem.1, h.mem.2.2]

theorem SameView.launched {s t : State} (h : SameView s t) (id : Nat) :
    (s.launch? id = none ∧ t.launch? id = none) ∨ ∃ L M, s.launch? id = some L ∧ t.launch? id = some M ∧ M = { L with sig := M.sig } := by
  have e := h.launch id
  cases hs : s.launch? id with
  | none => rw [hs] at e; exact .inl ⟨rfl, by simpa using e⟩
  | some L =>
    cases ht : t.launch? id with
    | none => rw [hs, ht] at e; cases e
    | some M =>
      rw [hs, ht] at e
      refine .inr ⟨L, M, rfl, rfl, ?_⟩
      have e' := Option.some.inj e
      unfold Launch.unsigned at e'
      have := congrArg (fun X : Launch => { X with sig := M.sig }) e'
      exact this

theorem SameView.baseByte {s t : State} (h : SameView s t) (L : Launch) (x : Tab Unit) (grid loc : Nat) :
    t.baseByte { L with sig := x } grid loc = s.baseByte L grid loc := by
  unfold State.baseByte State.ctx
  rw [h.ctxs]
  simp only [h.commByte]

theorem SameView.wsByte {s t : State} (h : SameView s t) (L : Launch) (x : Tab Unit) (grid loc : Nat) (ws : WSet) :
    t.wsByte { L with sig := x } grid ws loc = s.wsByte L grid ws loc := by
  unfold State.wsByte
  simp only [h.baseByte]

theorem SameView.viewByte {s t : State} (h : SameView s t) (w : Viewer) (imm : Bool) (loc : Nat) : t.viewByte w imm loc = s.viewByte w imm loc := by
  unfold State.viewByte State.team? State.itByte
  rw [h.teams]
  rcases h.launched w.launch with ⟨a, b⟩ | ⟨L, M, a, b, e⟩
  · rw [a, b]; exact h.commByte loc
  · rw [a, b]
    simp only
    rw [e]
    simp only [h.commByte, h.baseByte, h.wsByte]

theorem SameView.viewKey {s t : State} (h : SameView s t) (w : Viewer) (imm : Bool) : t.viewKey w imm = s.viewKey w imm := by
  unfold State.viewKey
  rcases h.launched w.launch with ⟨a, b⟩ | ⟨L, M, a, b, e⟩
  · rw [a, b]
  · rw [a, b]; simp only; rw [e]

-- values read

theorem L1Current.of {s : State} {core : Nat} {w : Viewer} (hc : s.L1Current core w) {t : State} (hv : SameView s t)
    (hl : ∀ x ∈ (t.core core).l1, x ∈ (s.core core).l1 ∨ ∃ imm loc, x = s.sector w imm loc) : t.L1Current core w := by
  intro x hx im hk
  simp only [hv.viewByte]
  rw [hv.viewKey] at hk
  rcases hl x hx with h | ⟨imm, loc, rfl⟩
  · exact hc x h im hk
  · have : ∀ a, s.viewByte w imm a = s.viewByte w im a := by
      intro a
      unfold State.sector State.viewKey at hk
      unfold State.viewByte
      cases hl : s.launch? w.launch with
      | none => rfl
      | some L =>
        rw [hl] at hk
        revert hk
        cases imm <;> cases im <;> cases h1 : L.irrev <;> cases h2 : L.it <;> simp [h1, h2]
    simp only [State.sector, this]

theorem mem_evictL1 {s : State} {core loc : Nat} {x : L1Sector} (h : x ∈ ((s.evictL1 core loc).core core).l1) : x ∈ (s.core core).l1 := by
  unfold State.evictL1 at h
  simp only at h
  split at h
  · exact h
  · rw [State.core_modCore, if_pos rfl] at h
    exact List.mem_of_mem_filter h

theorem mem_refillL1 {s : State} {core : Nat} {w : Viewer} {imm : Bool} {loc : Nat} {x : L1Sector} (h : x ∈ ((s.refillL1 core w imm loc).core core).l1) :
    x ∈ (s.core core).l1 ∨ x = s.sector w imm loc := by
  rw [refillL1_eq] at h
  have h := mem_evictL1 h
  rw [State.core_modCore, if_pos rfl] at h
  rcases List.mem_cons.mp h with h | h
  · exact .inr h
  · exact .inl (List.mem_of_mem_filter h)

theorem core_readUnits (it : Bool) (agents : List Nat) (key : Nat) (cur : Nat → Nat → List Byte) (units : List (Nat × Nat)) (s : State) :
    (s.readUnits it agents key cur units).2.cores = s.cores := by
  induction units generalizing s with
  | nil => rfl
  | cons u r ih =>
    rw [readUnits_cons]
    refine (ih _).trans ?_
    obtain ⟨s1, f, h, e⟩ := readUnit_cases s it agents key u.1 (cur u.1 u.2)
    rw [e]
    rcases h with rfl | ⟨n, rfl⟩ <;> rfl

theorem L1Current.fromL1 {s : State} {core : Nat} {w : Viewer} (hc : s.L1Current core w) (imm l1 : Bool) (loc n : Nat) :
    (s.fromL1 core w imm l1 loc n).2.L1Current core w := by
  refine L1Current.of hc (Reads.sameView (Reads.fromL1 [] core s w imm l1 loc n) (sameMem_fromL1 s core w imm l1 loc n)) (fun x hx => ?_)
  obtain ⟨s1, h1, h⟩ := fromL1_cases s core w imm l1 loc n
  have hr : (s1.core core).l1 = (s.core core).l1 ∧ s1.sector w imm loc = s.sector w imm loc := by
    rcases h1 with rfl | rfl
    · exact ⟨rfl, rfl⟩
    · have hv : SameView s (s.pickBelow 2).2 := ⟨⟨rfl, rfl, rfl⟩, rfl, rfl, fun _ => rfl⟩
      exact ⟨rfl, by simp only [State.sector, hv.viewByte, hv.viewKey]⟩
  rcases h with e | e | e <;> rw [e] at hx
  · rw [hr.1] at hx; exact .inl hx
  · rw [show (s.dropSector core loc).core core = _ from (State.core_modCore s core core _).trans (if_pos rfl)] at hx
    exact .inl (List.mem_of_mem_filter hx)
  · rw [State.core_perfAdd, if_pos rfl] at hx
    have hx : x ∈ ((s1.refillL1 core w imm loc).core core).l1 := hx
    rcases mem_refillL1 hx with h | h
    · rw [hr.1] at h; exact .inl h
    · rw [hr.2] at h; exact .inr ⟨imm, loc, h⟩

theorem L1Current.loadPart {s : State} {core : Nat} {w : Viewer} (hc : s.L1Current core w) (it : Bool) (agents : List Nat) (imm l1 : Bool) (loc n : Nat)
    (units : List (Nat × Nat)) : (s.loadPart core it agents w imm l1 loc n units).2.L1Current core w := by
  rw [loadPart_eq]
  split
  · exact L1Current.fromL1 hc imm l1 loc n
  · refine L1Current.of (L1Current.fromL1 hc imm l1 loc n) (Reads.sameView (Reads.readUnits [] core ..) (sameMem_readUnits ..)) (fun x hx => ?_)
    unfold State.core at hx ⊢
    rw [core_readUnits] at hx
    exact .inl hx

/-- Whether some slices may read only the latest writes, or read them as an isolated task does. -/
def Latest (it : Bool) (agents : List Nat) (s : State) : Prop := it = true ∨ ∀ p ∈ s.order.past, s.order.hidden agents p = false

theorem Order.versions_latest {o : Order} {agents : List Nat} (h : ∀ p ∈ o.past, o.hidden agents p = false) (key loc : Nat) (cur : List Byte) :
    o.versions agents key loc cur = [(cur, none)] := by
  have e : o.openSeqs agents (o.of key loc cur.length) = [] := by
    unfold Order.openSeqs
    generalize hL : ((o.of key loc cur.length).map (·.seq)).eraseDups.reverse = L
    cases L with
    | nil => rfl
    | cons q r =>
      refine List.takeWhile_cons_of_neg ?_
      have hq : q ∈ ((o.of key loc cur.length).map (·.seq)).eraseDups.reverse := by rw [hL]; simp
      have hq' : q ∈ (o.of key loc cur.length).map (·.seq) := by simpa using hq
      obtain ⟨p, hp, rfl⟩ := List.mem_map.mp hq'
      intro hall
      have := List.all_eq_true.mp hall p (List.mem_filter.mpr ⟨hp, by simp⟩)
      rw [h p (List.mem_of_mem_filter hp)] at this
      exact absurd this (by simp)
  unfold Order.versions
  rw [e]; rfl

theorem readUnit_latest {it : Bool} {agents : List Nat} {s : State} (h : Latest it agents s) (key loc : Nat) (cur : List Byte) :
    (s.readUnit it agents key loc cur).1 = cur ∧ Latest it agents (s.readUnit it agents key loc cur).2 := by
  have e : (if it = true then [(cur, none)] else s.order.versions agents key loc cur) = [(cur, none)] := by
    split
    · rfl
    · rename_i hi
      exact Order.versions_latest (h.resolve_left hi) key loc cur
  unfold State.readUnit
  rw [e]
  exact ⟨rfl, h⟩

theorem readUnits_latest {it : Bool} {agents : List Nat} (key : Nat) (cur : Nat → Nat → List Byte) (units : List (Nat × Nat)) {s : State} (h : Latest it agents s) :
    (s.readUnits it agents key cur units).1 = units.flatMap (fun u => cur u.1 u.2) ∧ Latest it agents (s.readUnits it agents key cur units).2 := by
  induction units generalizing s with
  | nil => exact ⟨rfl, h⟩
  | cons u r ih =>
    obtain ⟨a, b⟩ := readUnit_latest h key u.1 (cur u.1 u.2)
    obtain ⟨c, d⟩ := ih b
    rw [readUnits_cons]
    exact ⟨by simp [a, c], d⟩

/-- The units of a range are its bytes, each once and in order. -/
theorem unitsOf_bytes {α : Type} (strong : Bool) (va n : Nat) (f : Nat → α) :
    (unitsOf strong va n).flatMap (fun u => (List.range u.2).map (fun j => f (u.1 + j))) = (List.range n).map (fun k => f (va + k)) := by
  have run : ∀ a b, (List.range (a + b)).map (fun k => f (va + k)) =
      (List.range a).map (fun k => f (va + k)) ++ (List.range b).map (fun j => f (va + a + j)) := by
    intro a b
    rw [List.range_add, List.map_append, List.map_map]
    congr 1
    exact List.map_congr_left (fun k _ => by simp [Nat.add_assoc])
  unfold unitsOf
  split
  · suffices h : ∀ m, 8 * m ≤ n + 7 → (((List.range m).map (fun k => (va + 8 * k, min (n - 8 * k) 8))).flatMap
        (fun u => (List.range u.2).map (fun j => f (u.1 + j)))) = (List.range (min n (8 * m))).map (fun k => f (va + k)) by
      rw [h _ (by omega)]
      congr 2
      omega
    intro m
    induction m with
    | zero => intro _; simp
    | succ m ih =>
      intro hm
      rw [List.range_succ, List.map_append, List.flatMap_append, ih (by omega)]
      have e : min n (8 * (m + 1)) = min n (8 * m) + min (n - 8 * m) 8 := by omega
      rw [e, run]
      have e2 : min n (8 * m) = 8 * m := by omega
      simp [e2]
  · -- the bytes of the units that begin before place m
    suffices h : ∀ m, m ≤ n → (((List.range m).filterMap (fun k =>
        if decide (va ≤ (va + k) / 4 * 4) && decide ((va + k) / 4 * 4 + 4 ≤ va + n) then (if (va + k) % 4 = 0 then some ((va + k) / 4 * 4, 4) else none)
        else some (va + k, 1))).flatMap (fun u => (List.range u.2).map (fun j => f (u.1 + j)))) =
        (List.range (if 0 < m ∧ va ≤ (va + m - 1) / 4 * 4 ∧ (va + m - 1) / 4 * 4 + 4 ≤ va + n then (va + m - 1) / 4 * 4 + 4 - va else m)).map (fun k => f (va + k)) by
      have := h n (Nat.le_refl _)
      refine this.trans ?_
      congr 2
      split <;> omega
    intro m
    induction m with
    | zero => intro _; simp
    | succ m ih =>
      intro hm
      rw [List.range_succ, List.filterMap_append, List.flatMap_append, ih (by omega)]
      generalize hE : (if 0 < m ∧ va ≤ (va + m - 1) / 4 * 4 ∧ (va + m - 1) / 4 * 4 + 4 ≤ va + n then (va + m - 1) / 4 * 4 + 4 - va else m) = E
      generalize hF : (if 0 < m + 1 ∧ va ≤ (va + (m + 1) - 1) / 4 * 4 ∧ (va + (m + 1) - 1) / 4 * 4 + 4 ≤ va + n then
        (va + (m + 1) - 1) / 4 * 4 + 4 - va else m + 1) = F
      have e0 : va + (m + 1) - 1 = va + m := by omega
      rw [e0] at hF
      clear ih
      by_cases hw : va ≤ (va + m) / 4 * 4 ∧ (va + m) / 4 * 4 + 4 ≤ va + n
      · rw [if_pos ⟨by omega, hw⟩] at hF
        simp only [List.filterMap_cons, List.filterMap_nil, hw, decide_true, Bool.and_self, if_true]
        by_cases h4 : (va + m) % 4 = 0
        · have e2 : E = m := by rw [← hE]; split <;> omega
          have e3 : F = m + 4 := by omega
          have e4 : (va + m) / 4 * 4 = va + m := by omega
          rw [e2, e3, run]
          simp [h4, e4]
        · have e2 : E = F := by rw [← hE, ← hF, if_pos (by omega)]; omega
          simp [h4, e2]
      · rw [if_neg (by simp only [not_and] at hw ⊢; exact fun _ h => hw h)] at hF
        have e2 : E = m := by rw [← hE]; split <;> omega
        have hc : ¬ (decide (va ≤ (va + m) / 4 * 4) && decide ((va + m) / 4 * 4 + 4 ≤ va + n)) = true := by simpa using hw
        simp only [List.filterMap_cons, List.filterMap_nil, hc]
        rw [e2, ← hF, run]
        simp

theorem fromL1_value {s : State} {core : Nat} {w : Viewer} {imm l1 : Bool} {loc n : Nat} (h : l1 = false ∨ (s.L1Current core w ∧ loc % 32 + n ≤ 32)) :
    (s.fromL1 core w imm l1 loc n).1 = none := by
  unfold State.fromL1
  simp only
  split
  · rfl
  · next hl =>
    obtain ⟨hc, hn⟩ := h.resolve_left (by simpa using hl)
    split
    · rfl
    · next x hx =>
      have hp : (s.core core).findL1 (s.viewKey w imm) loc = some x := hx
      unfold CoreRec.findL1 at hp
      have hq := List.find?_some hp
      simp only [Bool.and_eq_true, beq_iff_eq] at hq
      have hd := hc x (List.mem_of_find?_eq_some hp) imm hq.1
      have e : (x.data.drop (loc - x.loc)).take n = (List.range n).map (fun k => s.viewByte w imm (loc + k)) := by
        rw [hd, hq.2]
        apply List.ext_getElem?
        intro k
        have hs : sectorOf loc = loc / 32 * 32 := rfl
        simp only [List.getElem?_take, List.getElem?_drop, List.getElem?_map]
        by_cases hk : k < n
        · rw [if_pos hk, List.getElem?_range (by omega), List.getElem?_range (by omega)]
          simp only [Option.map_some]
          congr 2
          omega
        · rw [if_neg hk, List.getElem?_eq_none (by simpa using hk)]; rfl
      rw [if_pos e]

theorem order_fromL1 (s : State) (core : Nat) (w : Viewer) (imm l1 : Bool) (loc n : Nat) : (s.fromL1 core w imm l1 loc n).2.order = s.order := by
  have hr : ∀ u : State, (u.refillL1 core w imm loc).order = u.order := by
    intro u
    rw [refillL1_eq]
    generalize u.sector w imm loc = x
    unfold State.evictL1
    simp only
    split <;> rfl
  obtain ⟨s1, h1, h⟩ := fromL1_cases s core w imm l1 loc n
  have h1 : s1.order = s.order := by rcases h1 with rfl | rfl <;> rfl
  rcases h with e | e | e <;> rw [e]
  · exact h1
  · rfl
  · exact (hr _).trans h1

theorem loadPart_value {s : State} {core : Nat} {it : Bool} {agents : List Nat} {w : Viewer} {imm l1 : Bool} {loc n : Nat} (strong : Bool)
    (hs : Latest it agents s) (h : l1 = false ∨ (s.L1Current core w ∧ loc % 32 + n ≤ 32)) :
    (s.loadPart core it agents w imm l1 loc n (unitsOf strong loc n)).1 = (List.range n).map (fun k => s.viewByte w imm (loc + k)) ∧
    Latest it agents (s.loadPart core it agents w imm l1 loc n (unitsOf strong loc n)).2 := by
  rw [loadPart_eq, fromL1_value h]
  simp only
  have hv := Reads.sameView (Reads.fromL1 [] core s w imm l1 loc n) (sameMem_fromL1 s core w imm l1 loc n)
  have hl : Latest it agents (s.fromL1 core w imm l1 loc n).2 := by unfold Latest; rw [order_fromL1]; exact hs
  obtain ⟨a, b⟩ := readUnits_latest (key := (s.fromL1 core w imm l1 loc n).2.viewKey w imm)
    (cur := fun a k => (List.range k).map (fun j => (s.fromL1 core w imm l1 loc n).2.viewByte w imm (a + j))) (units := unitsOf strong loc n) hl
  refine ⟨?_, b⟩
  rw [a, unitsOf_bytes]
  simp only [hv.viewByte]

theorem loadParts_value (core : Nat) (it : Bool) (agents : List Nat) (w : Viewer) (ord : MemOrder) (vis : Vis) (x : LaneAcc)
    (l : List (PageTr × Nat × Nat)) (acc : List Byte × State) (s : State) (hv : SameView s acc.2) (hs : Latest it agents acc.2)
    (hf : (∀ q ∈ l, l1Serves ord vis q.1 = false) ∨ ((∀ q ∈ l, q.2.1 % 32 + q.2.2 ≤ 32) ∧ acc.2.L1Current core w)) :
    (l.foldl (loadStep core it agents w ord vis x) acc).1 =
      acc.1 ++ l.flatMap (fun q => (List.range q.2.2).map (fun k => s.viewByte w (pteImm q.1.pte) (q.2.1 + k))) ∧
    SameView s (l.foldl (loadStep core it agents w ord vis x) acc).2 ∧ Latest it agents (l.foldl (loadStep core it agents w ord vis x) acc).2 ∧
    (acc.2.L1Current core w → (l.foldl (loadStep core it agents w ord vis x) acc).2.L1Current core w) := by
  induction l generalizing acc with
  | nil => exact ⟨by simp, hv, hs, fun h => h⟩
  | cons q r ih =>
    let u := acc.2.loadPart core it agents w (pteImm q.1.pte) (l1Serves ord vis q.1) q.2.1 q.2.2 (loadUnits ord x q.2.1 q.2.2)
    have hv1 : SameView acc.2 u.2 := Reads.sameView (Reads.loadPart [] core ..) (sameMem_loadPart ..)
    have hv2 : SameView u.2 (u.2.recordRead w.launch (pteImm q.1.pte) q.2.1) := Reads.sameView (Reads.recordRead [] core ..) (sameMem_recordRead ..)
    have hvn : SameView s (loadStep core it agents w ord vis x acc q).2 := hv.trans (hv1.trans hv2)
    have hsame : ∀ (v : State) (a : Nat) (b : Bool) (c : Nat), (v.recordRead a b c).core core = v.core core ∧ (v.recordRead a b c).order = v.order := by
      intro v a b c; unfold State.recordRead; split <;> exact ⟨rfl, rfl⟩
    have hcur : acc.2.L1Current core w → (loadStep core it agents w ord vis x acc q).2.L1Current core w := by
      intro hc
      refine L1Current.of (L1Current.loadPart hc it agents (pteImm q.1.pte) (l1Serves ord vis q.1) q.2.1 q.2.2 (loadUnits ord x q.2.1 q.2.2)) hv2 (fun y hy => ?_)
      have e : (loadStep core it agents w ord vis x acc q).2.core core = u.2.core core := (hsame _ _ _ _).1
      rw [e] at hy
      exact .inl hy
    obtain ⟨hval, hlat⟩ := loadPart_value (core := core) (w := w) (imm := pteImm q.1.pte) (l1 := l1Serves ord vis q.1) (loc := q.2.1) (n := q.2.2)
      (ord != .weak && x.va % x.n == 0) hs (hf.imp (fun h => h q (List.mem_cons_self ..)) (fun h => ⟨h.2, h.1 q (List.mem_cons_self ..)⟩))
    have hlat' : Latest it agents (loadStep core it agents w ord vis x acc q).2 := by
      unfold Latest
      show it = true ∨ ∀ p ∈ (u.2.recordRead w.launch (pteImm q.1.pte) q.2.1).order.past, (u.2.recordRead w.launch (pteImm q.1.pte) q.2.1).order.hidden agents p = false
      rw [(hsame _ _ _ _).2]
      exact hlat
    obtain ⟨a, b, c, d⟩ := ih (loadStep core it agents w ord vis x acc q) hvn hlat'
      (hf.imp (fun h y hy => h y (List.mem_cons_of_mem _ hy)) (fun h => ⟨fun y hy => h.1 y (List.mem_cons_of_mem _ hy), hcur h.2⟩))
    refine ⟨?_, b, c, fun h => d (hcur h)⟩
    rw [List.foldl_cons, a]
    have e : (loadStep core it agents w ord vis x acc q).1 = acc.1 ++ (List.range q.2.2).map (fun k => s.viewByte w (pteImm q.1.pte) (q.2.1 + k)) := by
      show acc.1 ++ u.1 = _
      congr 1
      refine hval.trans ?_
      simp only [hv.viewByte]
    rw [e, List.append_assoc, List.flatMap_cons]

/-- The values of some accesses are those their agent sees, where no earlier value is left to read. -/
theorem loadAll_value (core : Nat) (it : Bool) (agents : List Nat) (w : Viewer) (ord : MemOrder) (vis : Vis) (ps : List PageTr) (accs : List LaneAcc)
    (t : State) (s : State) (hv : SameView s t) (hs : Latest it agents t) (hf : (∀ x ∈ accs, ∀ q ∈ partsOf ps x, l1Serves ord vis q.1 = false) ∨
      ((∀ x ∈ accs, ∀ q ∈ partsOf ps x, q.2.1 % 32 + q.2.2 ≤ 32) ∧ t.L1Current core w)) :
    (t.loadAll core it agents w ord vis ps accs).1 = accs.map (fun x => (x.lane, s.seen w ps x)) := by
  induction accs generalizing t with
  | nil => rfl
  | cons x r ih =>
    obtain ⟨a, b, c, d⟩ := loadParts_value core it agents w ord vis x (partsOf ps x) ([], t) s hv hs
      (hf.imp (fun h => h x (List.mem_cons_self ..)) (fun h => ⟨h.1 x (List.mem_cons_self ..), h.2⟩))
    rw [loadAll_cons, loadAcc_eq]
    simp only
    rw [ih _ b c (hf.imp (fun h y hy => h y (List.mem_cons_of_mem _ hy)) (fun h => ⟨fun y hy => h.1 y (List.mem_cons_of_mem _ hy), d h.2⟩)), a]
    simp [State.seen]

theorem PageTr.loc_mod {p : PageTr} (h : 16 ≤ p.size) (va : Nat) : p.loc va % 32 = va % 32 := by
  have hd : va % 2 ^ p.size % 32 = va % 32 := Nat.mod_mod_of_dvd _ (Nat.pow_dvd_pow (m := 5) 2 (by omega))
  unfold PageTr.loc pteLoc
  simp only
  generalize va % 2 ^ p.size = off at *
  split
  · split
    · unfold hostLoc; omega
    · unfold rankLoc; omega
  · split
    · simp only [nearPhys, wingBytes]
      split <;> omega
    · omega

theorem sectorParts_fit (f va n : Nat) : ∀ q ∈ sectorParts f va n, q.1 % 32 + q.2 ≤ 32 := by
  induction f generalizing va n with
  | zero => intro q h; cases h
  | succ f ih =>
    intro q h
    unfold sectorParts at h
    split at h
    · cases h
    · simp only at h
      rcases List.mem_cons.mp h with h | h
      · rw [h]; simp only; omega
      · exact ih _ _ q h

theorem partsOf_fit {ps : List PageTr} (h : ∀ p ∈ ps, 16 ≤ p.size) (x : LaneAcc) : ∀ q ∈ partsOf ps x, q.2.1 % 32 + q.2.2 ≤ 32 := by
  intro q hq
  unfold partsOf at hq
  obtain ⟨a, ha, rfl⟩ := List.mem_map.mp hq
  simp only
  rw [PageTr.loc_mod]
  · exact sectorParts_fit _ _ _ a ha
  · rcases mem_pageOf ps a.1 with h' | h'
    · exact h _ h'
    · rw [h']

end Sys2Proof.Machine
end

