-- ==== Sys2Proof/Laws/Stores.lean ====
section
/-! SUPPORT. Stores, said once: which bytes a store of several lanes leaves (R111), and what each write does to what agents
see (R122, R173, R180). -/

namespace Sys2Proof.Machine

open Sys2Proof

-- tables written in bulk

theorem Tab.get_setAll {α : Type} [DecidableEq α] (d : α) (l : List (Nat × α)) (t : Tab α) (a : Nat) :
    (∃ p ∈ l, p.1 = a ∧ Tab.get (Tab.setAll t d l) d a = p.2) ∨ ((∀ p ∈ l, p.1 ≠ a) ∧ Tab.get (Tab.setAll t d l) d a = Tab.get t d a) := by
  induction l generalizing t with
  | nil => exact .inr ⟨fun _ h => (by cases h), rfl⟩
  | cons p r ih =>
    have e : Tab.setAll t d (p :: r) = Tab.setAll (Tab.set t d p.1 p.2) d r := rfl
    rw [e]
    rcases ih (Tab.set t d p.1 p.2) with ⟨q, hq, h1, h2⟩ | ⟨h1, h2⟩
    · exact .inl ⟨q, List.mem_cons_of_mem _ hq, h1, h2⟩
    · by_cases hp : p.1 = a
      · exact .inl ⟨p, List.mem_cons_self .., hp, by rw [h2, Tab.get_set, if_pos hp.symm]⟩
      · refine .inr ⟨fun q hq => ?_, by rw [h2, Tab.get_set, if_neg (fun h => hp h.symm)]⟩
        rcases List.mem_cons.mp hq with h | h
        · rw [h]; exact hp
        · exact h1 q h

theorem Tab.get_setRange {α : Type} [DecidableEq α] (d : α) (t : Tab α) (k : Nat) (vs : List α) (a : Nat) :
    Tab.get (Tab.setRange t d k vs) d a = if k ≤ a ∧ a < k + vs.length then vs.getD (a - k) d else Tab.get t d a := by
  unfold Tab.setRange
  have hm : ∀ p ∈ (List.range vs.length).zip vs |>.map (fun p => (k + p.1, p.2)), ∃ j, ∃ h : j < vs.length, p = (k + j, vs[j]) := by
    intro p hp
    obtain ⟨q, hq, rfl⟩ := List.mem_map.mp hp
    obtain ⟨n, hn, rfl⟩ := List.mem_iff_getElem.mp hq
    simp only [List.length_zip, List.length_range, Nat.min_self] at hn
    exact ⟨n, hn, by simp⟩
  rcases Tab.get_setAll d ((List.range vs.length).zip vs |>.map (fun p => (k + p.1, p.2))) t a with ⟨p, hp, h1, h2⟩ | ⟨h1, h2⟩
  · obtain ⟨j, hj, rfl⟩ := hm p hp
    simp only at h1 h2
    subst h1
    rw [h2, if_pos ⟨by omega, by omega⟩]
    simp [List.getD_eq_getElem?_getD, hj]
  · rw [h2, if_neg]
    rintro ⟨ha, hb⟩
    refine h1 (a, vs[a - k]'(by omega)) ?_ rfl
    refine List.mem_map.mpr ⟨(a - k, vs[a - k]'(by omega)), ?_, by simp; omega⟩
    refine List.mem_iff_getElem.mpr ⟨a - k, by simp; omega, by simp⟩

theorem Tab.find_putAll {α : Type} (l : List (Nat × α)) (t : Tab α) (a : Nat) (v : α) (h : Tab.find? (Tab.putAll t l) a = some v) :
    (a, v) ∈ l ∨ Tab.find? t a = some v := by
  induction l generalizing t with
  | nil => exact .inr h
  | cons p r ih =>
    have e : Tab.putAll t (p :: r) = Tab.putAll (Tab.put t p.1 p.2) r := rfl
    rw [e] at h
    rcases ih _ h with h | h
    · exact .inl (List.mem_cons_of_mem _ h)
    · rw [Tab.find_put] at h
      split at h
      · next ha => exact .inl (by cases h; rw [ha]; exact List.mem_cons_self ..)
      · exact .inr h

theorem Tab.find_putAll_some {α : Type} (l : List (Nat × α)) (t : Tab α) (a : Nat) (h : (∃ p ∈ l, p.1 = a) ∨ (Tab.find? t a).isSome = true) :
    (Tab.find? (Tab.putAll t l) a).isSome = true := by
  induction l generalizing t with
  | nil => exact h.resolve_left (by rintro ⟨p, hp, -⟩; cases hp)
  | cons p r ih =>
    have e : Tab.putAll t (p :: r) = Tab.putAll (Tab.put t p.1 p.2) r := rfl
    rw [e]
    apply ih
    rw [Tab.find_put]
    by_cases hp : p.1 = a
    · right; rw [if_pos hp.symm]; rfl
    · rcases h with ⟨q, hq, hqa⟩ | h
      · rcases List.mem_cons.mp hq with h' | h'
        · exact absurd (h' ▸ hqa) hp
        · exact .inl ⟨q, h', hqa⟩
      · right; rw [if_neg (fun h => hp h.symm)]; exact h

-- the bytes of a store

theorem length_leBytes (n v : Nat) : (leBytes n v).length = n := by
  induction n generalizing v with
  | zero => rfl
  | succ n ih => simp [leBytes, ih]

/-- What has been stored comes from some lane of `accs`. -/
def FromLanes (accs : List LaneAcc) (data : Nat → List Byte) (t : Tab Byte) : Prop := ∀ a b, Tab.find? t a = some b → StoredAt accs data a b

theorem storePiece_spec (it : Bool) (lane : Nat) (acc : Tab Byte × State) (piece : List (Nat × Byte)) :
    (∀ a b, Tab.find? (storePiece it lane acc piece).1 a = some b → (a, b) ∈ piece ∨ Tab.find? acc.1 a = some b) ∧
    (∀ a, (∃ p ∈ piece, p.1 = a) ∨ (Tab.find? acc.1 a).isSome = true → (Tab.find? (storePiece it lane acc piece).1 a).isSome = true) ∧
    (∃ n, (storePiece it lane acc piece).2 = { acc.2 with free := n }) := by
  obtain ⟨t, s⟩ := acc
  have hn : ∀ p ∈ (piece.partition (fun p => (Tab.find? t p.1).isSome)).2, p ∈ piece := by
    intro p hp; rw [List.partition_eq_filter_filter] at hp; exact List.mem_of_mem_filter hp
  have hc : ∀ a, (∃ p ∈ piece, p.1 = a) ∨ (Tab.find? t a).isSome = true →
      (∃ p ∈ (piece.partition (fun p => (Tab.find? t p.1).isSome)).2, p.1 = a) ∨ (Tab.find? t a).isSome = true := by
    rintro a (⟨p, hp, rfl⟩ | h)
    · by_cases hs : (Tab.find? t p.1).isSome = true
      · exact .inr hs
      · refine .inl ⟨p, ?_, rfl⟩
        rw [List.partition_eq_filter_filter]
        exact List.mem_filter.mpr ⟨hp, by simpa using hs⟩
    · exact .inr h
  -- whichever part of the piece is put
  have put : ∀ l, (l = (piece.partition (fun p => (Tab.find? t p.1).isSome)).2 ∨ l = piece) →
      (∀ a b, Tab.find? (Tab.putAll t l) a = some b → (a, b) ∈ piece ∨ Tab.find? t a = some b) ∧
      (∀ a, (∃ p ∈ piece, p.1 = a) ∨ (Tab.find? t a).isSome = true → (Tab.find? (Tab.putAll t l) a).isSome = true) := by
    rintro l (rfl | rfl)
    · exact ⟨fun a b h => (Tab.find_putAll _ _ _ _ h).imp (hn _) id, fun a h => Tab.find_putAll_some _ _ _ (hc a h)⟩
    · exact ⟨fun a b h => Tab.find_putAll _ _ _ _ h, fun a h => Tab.find_putAll_some _ _ _ h⟩
  unfold storePiece
  simp only
  split
  · exact ⟨(put _ (.inl rfl)).1, (put _ (.inl rfl)).2, s.free, rfl⟩
  · split
    · refine ⟨?_, ?_, s.free, rfl⟩ <;> split
      · exact (put _ (.inr rfl)).1
      · exact (put _ (.inl rfl)).1
      · exact (put _ (.inr rfl)).2
      · exact (put _ (.inl rfl)).2
    · refine ⟨?_, ?_, s.free + 1, rfl⟩ <;> simp only <;> split
      · exact (put _ (.inl rfl)).1
      · exact (put _ (.inr rfl)).1
      · exact (put _ (.inl rfl)).2
      · exact (put _ (.inr rfl)).2

/-- One piece of a store, with its lane. -/
def putPiece (it : Bool) (acc : Tab Byte × State) (p : Nat × List (Nat × Byte)) : Tab Byte × State := storePiece it p.1 acc p.2

theorem storePieces_spec (it : Bool) (pieces : List (Nat × List (Nat × Byte))) (acc : Tab Byte × State) :
    (∀ a b, Tab.find? (pieces.foldl (putPiece it) acc).1 a = some b → (∃ p ∈ pieces, (a, b) ∈ p.2) ∨ Tab.find? acc.1 a = some b) ∧
    (∀ a, (∃ p ∈ pieces, ∃ q ∈ p.2, q.1 = a) ∨ (Tab.find? acc.1 a).isSome = true → (Tab.find? (pieces.foldl (putPiece it) acc).1 a).isSome = true) ∧
    (∃ n, (pieces.foldl (putPiece it) acc).2 = { acc.2 with free := n }) := by
  induction pieces generalizing acc with
  | nil => exact ⟨fun a b h => .inr h, fun a h => h.resolve_left (by rintro ⟨p, hp, -⟩; cases hp), acc.2.free, rfl⟩
  | cons p r ih =>
    obtain ⟨a1, a2, n, a3⟩ := storePiece_spec it p.1 acc p.2
    obtain ⟨b1, b2, m, b3⟩ := ih (putPiece it acc p)
    refine ⟨fun a b h => ?_, fun a h => b2 a ?_, m, ?_⟩
    · rcases b1 a b h with ⟨q, hq, h⟩ | h
      · exact .inl ⟨q, List.mem_cons_of_mem _ hq, h⟩
      · exact (a1 a b h).imp (fun h => ⟨p, List.mem_cons_self .., h⟩) id
    · rcases h with ⟨q, hq, x, hx, hxa⟩ | h
      · rcases List.mem_cons.mp hq with h' | h'
        · subst h'; exact .inr (a2 a (.inl ⟨x, hx, hxa⟩))
        · exact .inl ⟨q, h', x, hx, hxa⟩
      · exact .inr (a2 a (.inr h))
    · rw [List.foldl_cons, b3]
      unfold putPiece
      rw [a3]

/-- The bytes one lane stores. -/
def laneBytes (data : Nat → List Byte) (x : LaneAcc) : List (Nat × Byte) := (List.range x.n).zip (data x.lane) |>.map (fun q => (x.va + q.1, q.2))

/-- The pieces of one lane's store. -/
def lanePieces (ord : MemOrder) (data : Nat → List Byte) (x : LaneAcc) : List (List (Nat × Byte)) :=
  (((laneBytes data x).map (fun q => q.1 / storeUnit ord x)).eraseDups).map (fun u => (laneBytes data x).filter (fun q => q.1 / storeUnit ord x == u))

theorem mem_laneBytes {data : Nat → List Byte} {x : LaneAcc} {p : Nat × Byte} :
    p ∈ laneBytes data x ↔ ∃ k < x.n, p.1 = x.va + k ∧ (data x.lane)[k]? = some p.2 := by
  unfold laneBytes
  constructor
  · intro h
    obtain ⟨q, hq, rfl⟩ := List.mem_map.mp h
    obtain ⟨n, hn, rfl⟩ := List.mem_iff_getElem.mp hq
    simp only [List.length_zip, List.length_range] at hn
    exact ⟨n, by omega, by simp, by simp [List.getElem?_eq_getElem (show n < (data x.lane).length by omega)]⟩
  · rintro ⟨k, hk, h1, h2⟩
    obtain ⟨hl, h2⟩ := List.getElem?_eq_some_iff.mp h2
    refine List.mem_map.mpr ⟨(k, p.2), List.mem_iff_getElem.mpr ⟨k, by simp; omega, by simp [h2]⟩, by rw [← h1]⟩

theorem mem_lanePieces {ord : MemOrder} {data : Nat → List Byte} {x : LaneAcc} {p : List (Nat × Byte)} (h : p ∈ lanePieces ord data x) : ∀ q ∈ p, q ∈ laneBytes data x := by
  unfold lanePieces at h
  obtain ⟨u, -, rfl⟩ := List.mem_map.mp h
  exact fun q hq => List.mem_of_mem_filter hq

theorem lanePieces_all {ord : MemOrder} {data : Nat → List Byte} {x : LaneAcc} {q : Nat × Byte} (h : q ∈ laneBytes data x) : ∃ p ∈ lanePieces ord data x, q ∈ p := by
  unfold lanePieces
  refine ⟨_, List.mem_map.mpr ⟨q.1 / storeUnit ord x, ?_, rfl⟩, List.mem_filter.mpr ⟨h, by simp⟩⟩
  exact List.mem_eraseDups.mpr (List.mem_map.mpr ⟨q, h, rfl⟩)

theorem resolveStores_eq (s : State) (ord : MemOrder) (it : Bool) (l : List LaneAcc) (data : Nat → List Byte) :
    s.resolveStores ord it l data = (l.flatMap (fun x => (lanePieces ord data x).map (fun p => (x.lane, p)))).foldl (putPiece it) ([], s) := by
  unfold State.resolveStores
  rw [List.foldl_flatMap]
  congr 1
  funext acc x
  unfold lanePieces
  rw [List.map_map, List.foldl_map]
  rfl

/-- R111: what a store of several lanes leaves at an address is some lane's byte, and every covered address is stored. -/
theorem resolveStores_spec (s : State) (ord : MemOrder) (it : Bool) (l : List LaneAcc) (data : Nat → List Byte) :
    (∀ a b, Tab.find? (s.resolveStores ord it l data).1 a = some b → StoredAt l data a b) ∧
    (∀ a, (∃ x ∈ l, ∃ k < x.n, a = x.va + k ∧ k < (data x.lane).length) → (Tab.find? (s.resolveStores ord it l data).1 a).isSome = true) ∧
    (∃ n, (s.resolveStores ord it l data).2 = { s with free := n }) := by
  rw [resolveStores_eq]
  obtain ⟨a1, a2, a3⟩ := storePieces_spec it (l.flatMap (fun x => (lanePieces ord data x).map (fun p => (x.lane, p)))) ([], s)
  refine ⟨fun a b h => ?_, fun a h => a2 a (.inl ?_), a3⟩
  · rcases a1 a b h with ⟨p, hp, h⟩ | h
    · obtain ⟨x, hx, hp⟩ := List.mem_flatMap.mp hp
      obtain ⟨q, hq, rfl⟩ := List.mem_map.mp hp
      obtain ⟨k, hk, e1, e2⟩ := mem_laneBytes.mp (mem_lanePieces hq _ h)
      exact ⟨x, hx, k, hk, e1, e2⟩
    · cases h
  · obtain ⟨x, hx, k, hk, e, hl⟩ := h
    obtain ⟨p, hp, hq⟩ := lanePieces_all (ord := ord) (data := data) (x := x) (q := (a, (data x.lane)[k])) (mem_laneBytes.mpr ⟨k, hk, e, by simp [hl]⟩)
    exact ⟨(x.lane, p), List.mem_flatMap.mpr ⟨x, hx, List.mem_map.mpr ⟨p, hp, rfl⟩⟩, _, hq, rfl⟩

theorem Tab.mem_of_find {α : Type} {t : Tab α} {a : Nat} {b : α} (h : Tab.find? t a = some b) : (a, b) ∈ t := by
  induction t with
  | nil => cases h
  | cons p r ih =>
    unfold Tab.find? at h
    split at h
    · next e => cases h; rw [← e]; exact List.mem_cons_self ..
    · exact List.mem_cons_of_mem _ (ih h)

theorem Tab.find_of_mem {α : Type} {t : Tab α} (hs : (t.map Prod.fst).Pairwise (· < ·)) {p : Nat × α} (h : p ∈ t) : Tab.find? t p.1 = some p.2 := by
  induction t with
  | nil => cases h
  | cons q r ih =>
    simp only [List.map_cons, List.pairwise_cons] at hs
    unfold Tab.find?
    rcases List.mem_cons.mp h with h | h
    · subst h; simp
    · have := hs.1 p.1 (List.mem_map.mpr ⟨p, h, rfl⟩)
      rw [if_neg (by omega)]
      exact ih hs.2 h

theorem sorted_putAll {α : Type} (l : List (Nat × α)) (t : Tab α) (h : Tab.sorted t = true) : Tab.sorted (Tab.putAll t l) = true := by
  induction l generalizing t with
  | nil => exact h
  | cons p r ih => exact ih _ (Tab.sorted_put _ _ h)

theorem sorted_storePieces (it : Bool) (pieces : List (Nat × List (Nat × Byte))) (acc : Tab Byte × State) (h : Tab.sorted acc.1 = true) :
    Tab.sorted (pieces.foldl (putPiece it) acc).1 = true := by
  induction pieces generalizing acc with
  | nil => exact h
  | cons p r ih =>
    refine ih _ ?_
    unfold putPiece storePiece
    simp only
    split
    · exact sorted_putAll _ _ h
    · split <;> exact sorted_putAll _ _ h

theorem resolveStores_mem (s : State) (ord : MemOrder) (it : Bool) (l : List LaneAcc) (data : Nat → List Byte) :
    ∀ p ∈ (s.resolveStores ord it l data).1, StoredAt l data p.1 p.2 := by
  intro p hp
  refine (resolveStores_spec s ord it l data).1 _ _ (Tab.find_of_mem ?_ hp)
  rw [resolveStores_eq]
  exact (Tab.sorted_iff _).mp (sorted_storePieces _ _ ([], s) rfl)

-- the write set of an isolated task (R180)

theorem wsByte_of_plain {s : State} {L : Launch} {grid : Nat} {w : WSet} {loc : Nat} {x : PlainByte} (h : Tab.find? w.plain loc = some x) :
    s.wsByte L grid w loc = x.val := by
  unfold State.wsByte
  rw [h]

theorem wsByte_of_red {s : State} {L : Launch} {grid : Nat} {w w' : WSet} {loc : Nat} (h : Tab.find? w.plain loc = none) (h' : Tab.find? w'.plain loc = none)
    (hr : w'.redAt loc = w.redAt loc) : s.wsByte L grid w' loc = s.wsByte L grid w loc := by
  unfold State.wsByte
  rw [h, h', hr]

theorem wsByte_put (s : State) (L : Launch) (grid : Nat) (w : WSet) (a loc : Nat) (x : PlainByte) :
    s.wsByte L grid { w with plain := Tab.put w.plain a x } loc = if loc = a then x.val else s.wsByte L grid w loc := by
  by_cases h : loc = a
  · rw [if_pos h]
    exact wsByte_of_plain (by simp only [Tab.find_put, if_pos h])
  · rw [if_neg h]
    have e : Tab.find? ({ w with plain := Tab.put w.plain a x } : WSet).plain loc = Tab.find? w.plain loc := by simp only [Tab.find_put, if_neg h]
    cases hp : Tab.find? w.plain loc with
    | none => exact wsByte_of_red hp (by rw [e, hp]) rfl
    | some y => rw [wsByte_of_plain hp]; exact wsByte_of_plain (by rw [e, hp])

-- writes in a view

theorem baseByte_congr {s t : State} (hc : ∀ loc, t.commByte loc = s.commByte loc) (hx : t.ctxs = s.ctxs) {L M : Launch} (h : M.snap = L.snap ∧ M.replay = L.replay ∧ M.ctx = L.ctx ∧ M.grids = L.grids)
    (grid loc : Nat) : t.baseByte M grid loc = s.baseByte L grid loc := by
  unfold State.baseByte State.ctx
  rw [h.1, h.2.1, h.2.2.1, h.2.2.2, hx]
  simp only [hc]

/-- One byte written by an agent: the agent sees it there, and sees every other location as before (R122, R173, R180). -/
theorem viewByte_writeByte (s : State) (w : Viewer) (ht : (s.team? w.team).isSome = true) (imm : Bool) (a va : Nat) (v : Byte) (loc : Nat) :
    (s.writeByte w imm a va v).viewByte w imm loc = if loc = a then v else s.viewByte w imm loc := by
  obtain ⟨t, ht⟩ := Option.isSome_iff_exists.mp ht
  have comm : (s.launch? w.launch = none ∨ ∃ L, s.launch? w.launch = some L ∧ (imm || L.irrev) = true) →
      (s.setComm a v).viewByte w imm loc = if loc = a then v else s.viewByte w imm loc := by
    intro h
    have e : (s.setComm a v).launch? w.launch = s.launch? w.launch := by rw [State.setComm_rest]; rfl
    unfold State.viewByte
    rw [e]
    rcases h with h | ⟨L, h, hi⟩
    · rw [h]; exact State.commByte_setComm ..
    · rw [h]; simp only [hi, if_true]; exact State.commByte_setComm ..
  unfold State.writeByte
  cases hl : s.launch? w.launch with
  | none => exact comm (.inl hl)
  | some L =>
    simp only
    split
    · next hi => exact comm (.inr ⟨L, hl, hi⟩)
    · next hi =>
      split
      · next hit =>
        have hb : ∀ (wt : WSet) (loc : Nat), (s.modTeam w.team (fun t => { t with ws := { t.ws with plain := Tab.put t.ws.plain a { val := v, va := va } } })).wsByte L t.grid wt loc =
            s.wsByte L t.grid wt loc := by
          intro wt loc
          have hbase : ∀ g b, (s.modTeam w.team (fun t => { t with ws := { t.ws with plain := Tab.put t.ws.plain a { val := v, va := va } } })).baseByte L g b = s.baseByte L g b :=
            fun g b => baseByte_congr (fun _ => rfl) rfl ⟨rfl, rfl, rfl, rfl⟩ g b
          unfold State.wsByte
          simp only [hbase]
        have hl1 : (s.modTeam w.team (fun t => { t with ws := { t.ws with plain := Tab.put t.ws.plain a { val := v, va := va } } })).launch? w.launch = some L := hl
        have hg : (s.modTeam w.team (fun t => { t with ws := { t.ws with plain := Tab.put t.ws.plain a { val := v, va := va } } })).team? w.team =
            some { t with ws := { t.ws with plain := Tab.put t.ws.plain a { val := v, va := va } } } := by
          rw [State.team_modTeam, if_pos rfl, ht]; rfl
        unfold State.viewByte
        rw [hl1, hl]
        simp only [if_neg hi, if_pos hit]
        rw [hg, ht]
        simp only
        unfold State.itByte
        rw [hb, wsByte_put]
      · next hit =>
        unfold State.viewByte
        rw [State.launch_modLaunch, if_pos rfl, hl]
        simp only [Option.map_some, if_neg hi, if_neg hit, Tab.find_put]
        split
        · rfl
        · congr 1

-- what writing changes

/-- A launch without its understory bytes and its wait for room. -/
def Launch.unlined (L : Launch) : Launch := { L with lines := [], poolNeed := 0 }

/-- What the writes of an agent can change. -/
structure Writes (w : Viewer) (s t : State) : Prop where
  device   : t = { s with teams := t.teams, launches := t.launches, cores := t.cores, free := t.free, mem := t.mem, uncorr := t.uncorr, remote := t.remote,
                          order := t.order, fleet := t.fleet, out := t.out }
  teams    : ∀ id, id ≠ w.team → t.team? id = s.team? id
  own      : ∀ u, s.team? w.team = some u → ∃ u', t.team? w.team = some u' ∧ u' = { u with ws := u'.ws }
  launches : ∀ id, id ≠ w.launch → t.launch? id = s.launch? id
  launch   : (t.launch? w.launch).map Launch.unlined = (s.launch? w.launch).map Launch.unlined

theorem Writes.refl (w : Viewer) (s : State) : Writes w s s := ⟨rfl, fun _ _ => rfl, fun u h => ⟨u, h, rfl⟩, fun _ _ => rfl, rfl⟩

theorem Writes.trans {w : Viewer} {s t u : State} (h : Writes w s t) (h' : Writes w t u) : Writes w s u := by
  refine ⟨by rw [h'.device, h.device], fun id hi => (h'.teams id hi).trans (h.teams id hi), fun x hx => ?_, fun id hi => (h'.launches id hi).trans (h.launches id hi),
    h'.launch.trans h.launch⟩
  obtain ⟨y, hy, e⟩ := h.own x hx
  obtain ⟨z, hz, e'⟩ := h'.own y hy
  exact ⟨z, hz, by rw [e', e]⟩

theorem Writes.modTeam (w : Viewer) (s : State) (f : Team → Team) (hf : ∀ u : Team, f u = { u with ws := (f u).ws }) : Writes w s (s.modTeam w.team f) := by
  refine ⟨rfl, fun id hi => by rw [State.team_modTeam, if_neg hi], fun u hu => ⟨f u, ?_, hf u⟩, fun _ _ => rfl, rfl⟩
  rw [State.team_modTeam, if_pos rfl, hu]; rfl

theorem Writes.modLaunch (w : Viewer) (s : State) (f : Launch → Launch) (hf : ∀ L : Launch, (f L).unlined = L.unlined) : Writes w s (s.modLaunch w.launch f) := by
  refine ⟨rfl, fun _ _ => rfl, fun u hu => ⟨u, hu, rfl⟩, fun id hi => by rw [State.launch_modLaunch, if_neg hi], ?_⟩
  rw [State.launch_modLaunch, if_pos rfl, Option.map_map]
  congr 1
  funext L
  exact hf L

theorem Writes.modCore (w : Viewer) (s : State) (core : Nat) (f : CoreRec → CoreRec) : Writes w s (s.modCore core f) :=
  ⟨rfl, fun _ _ => rfl, fun u hu => ⟨u, hu, rfl⟩, fun _ _ => rfl, rfl⟩

theorem Writes.setComm (w : Viewer) (s : State) (a : Nat) (v : Byte) : Writes w s (s.setComm a v) := by
  have e := State.setComm_rest s a v
  obtain ⟨x, y, z, e⟩ : ∃ x y z, s.setComm a v = { s with mem := x, uncorr := y, remote := z } := ⟨_, _, _, e⟩
  rw [e]
  exact ⟨rfl, fun _ _ => rfl, fun u hu => ⟨u, hu, rfl⟩, fun _ _ => rfl, rfl⟩

theorem Writes.writeByte (w : Viewer) (s : State) (imm : Bool) (a va : Nat) (v : Byte) : Writes w s (s.writeByte w imm a va v) := by
  unfold State.writeByte
  split
  · exact .setComm ..
  · split
    · exact .setComm ..
    · split
      · exact Writes.modTeam w s _ (fun _ => rfl)
      · exact Writes.modLaunch w s _ (fun _ => rfl)

/-- A published launch, or an agent outside every launch, writes committed memory (R122, R189). -/
def State.published (s : State) (w : Viewer) : Bool := match s.launch? w.launch with | some L => L.irrev | none => true

theorem commByte_writeByte (s : State) (w : Viewer) (imm : Bool) (a va : Nat) (v : Byte) (loc : Nat) (h : loc ≠ a ∨ (imm = false ∧ s.published w = false)) :
    (s.writeByte w imm a va v).commByte loc = s.commByte loc := by
  unfold State.published at h
  unfold State.writeByte
  split
  · next hl =>
    rw [State.commByte_setComm, if_neg]
    rw [hl] at h
    exact h.resolve_right (by simp)
  · next L hl =>
    rw [hl] at h
    split
    · next hi =>
      rw [State.commByte_setComm, if_neg]
      refine h.resolve_right (fun h => ?_)
      simp [h.1, show L.irrev = false from h.2] at hi
    · split <;> rfl

theorem Writes.published {w : Viewer} {s t : State} (h : Writes w s t) : t.published w = s.published w := by
  have e := h.launch
  unfold State.published
  cases hs : s.launch? w.launch <;> cases ht : t.launch? w.launch <;> rw [hs, ht] at e
  · cases e
  · cases e
  · have e' := congrArg Launch.irrev (Option.some.inj e)
    exact e'

theorem Writes.someTeam {w : Viewer} {s t : State} (h : Writes w s t) (ht : (s.team? w.team).isSome = true) : (t.team? w.team).isSome = true := by
  obtain ⟨u, hu⟩ := Option.isSome_iff_exists.mp ht
  obtain ⟨u', hu', -⟩ := h.own u hu
  rw [hu']; rfl

theorem sameView_patchL1 (s : State) (core key a : Nat) (v : Byte) : SameView s (s.patchL1 core key a v) := ⟨⟨rfl, rfl, rfl⟩, rfl, rfl, fun _ => rfl⟩

/-- One byte of a store. -/
def State.storeByte (s : State) (core : Nat) (w : Viewer) (ps : List PageTr) (p : Nat × Byte) : State :=
  (s.writeByte w (pteImm (pageOf ps p.1).pte) ((pageOf ps p.1).loc p.1) p.1 p.2).patchL1 core
    ((s.writeByte w (pteImm (pageOf ps p.1).pte) ((pageOf ps p.1).loc p.1) p.1 p.2).viewKey w (pteImm (pageOf ps p.1).pte)) ((pageOf ps p.1).loc p.1) p.2

theorem storeBytes_eq (s : State) (core : Nat) (w : Viewer) (ps : List PageTr) (l : List (Nat × Byte)) :
    s.storeBytes (some core) w ps l = l.foldl (fun s p => s.storeByte core w ps p) s := rfl

theorem core_writeByte (s : State) (w : Viewer) (imm : Bool) (a va : Nat) (v : Byte) : (s.writeByte w imm a va v).cores = s.cores := by
  unfold State.writeByte
  split
  · rw [State.setComm_rest]
  · split
    · rw [State.setComm_rest]
    · split <;> rfl

/-- Storing bytes, one after another: what may change, the bytes of committed memory that do not, and what the agent sees. -/
theorem storeBytes_spec (core : Nat) (w : Viewer) (ps : List PageTr) (l : List (Nat × Byte)) (s : State) (ht : (s.team? w.team).isSome = true) :
    Writes w s (s.storeBytes (some core) w ps l) ∧
    (∀ loc, (∀ p ∈ l, (pageOf ps p.1).loc p.1 = loc → pteImm (pageOf ps p.1).pte = false ∧ s.published w = false) →
      (s.storeBytes (some core) w ps l).commByte loc = s.commByte loc) ∧
    ∀ b, (∀ p ∈ l, pteImm (pageOf ps p.1).pte = b) → ∀ loc,
      (∃ p ∈ l, (pageOf ps p.1).loc p.1 = loc ∧ (s.storeBytes (some core) w ps l).viewByte w b loc = p.2) ∨
      ((∀ p ∈ l, (pageOf ps p.1).loc p.1 ≠ loc) ∧ (s.storeBytes (some core) w ps l).viewByte w b loc = s.viewByte w b loc) := by
  simp only [storeBytes_eq]
  induction l generalizing s with
  | nil => exact ⟨.refl .., fun _ _ => rfl, fun _ _ _ => .inr ⟨fun _ h => (by cases h), rfl⟩⟩
  | cons p r ih =>
    have hw : Writes w s (s.storeByte core w ps p) := (Writes.writeByte ..).trans (Writes.modCore ..)
    obtain ⟨a, b, c⟩ := ih (s.storeByte core w ps p) (hw.someTeam ht)
    refine ⟨hw.trans a, fun loc h => ?_, fun im him loc => ?_⟩
    · rw [List.foldl_cons, b loc (fun q hq e => ?_)]
      · unfold State.storeByte
        rw [(sameView_patchL1 ..).commByte, commByte_writeByte]
        by_cases e : (pageOf ps p.1).loc p.1 = loc
        · exact .inr (h p (List.mem_cons_self ..) e)
        · exact .inl (fun e' => e e'.symm)
      · rw [hw.published]; exact h q (List.mem_cons_of_mem _ hq) e
    · have hv : (s.storeByte core w ps p).viewByte w im loc = if loc = (pageOf ps p.1).loc p.1 then p.2 else s.viewByte w im loc := by
        unfold State.storeByte
        rw [(sameView_patchL1 ..).viewByte, him p (List.mem_cons_self ..), viewByte_writeByte s w ht]
      rw [List.foldl_cons]
      rcases c im (fun q hq => him q (List.mem_cons_of_mem _ hq)) loc with ⟨q, hq, h1, h2⟩ | ⟨h1, h2⟩
      · exact .inl ⟨q, List.mem_cons_of_mem _ hq, h1, h2⟩
      · rw [h2, hv]
        by_cases e : loc = (pageOf ps p.1).loc p.1
        · exact .inl ⟨p, List.mem_cons_self .., e.symm, by rw [if_pos e]⟩
        · refine .inr ⟨fun q hq => ?_, by rw [if_neg e]⟩
          rcases List.mem_cons.mp hq with h | h
          · rw [h]; exact fun e' => e e'.symm
          · exact h1 q h

-- the checks of an access

theorem laneCheck_ok {l : List LaneAcc} {bad : LaneAcc → Bool} {cause : Nat} (h : ∀ x ∈ l, bad x = false) : laneCheck l bad cause = .ok () := by
  unfold laneCheck
  rw [List.find?_eq_none.mpr (fun x hx => by rw [h x hx]; simp)]

theorem mem_accesses {g : Gang} {f : FmtM} {space : Space} {useB : Bool} {lanes : List Nat} {n : Nat} {x : LaneAcc} (h : x ∈ g.accesses f space useB lanes n) :
    x.n = n ∧ x.lane ∈ lanes ∧ x.va = (g.address space f.a f.b f.off useB x.lane).toNat := by
  unfold Gang.accesses at h
  obtain ⟨l, hl, rfl⟩ := List.mem_map.mp h
  exact ⟨rfl, hl, rfl⟩

theorem accesses_lanes (g : Gang) (f : FmtM) (space : Space) (useB : Bool) (lanes : List Nat) (n : Nat) :
    (g.accesses f space useB lanes n).map (·.lane) = lanes := by
  unfold Gang.accesses
  rw [List.map_map]
  exact List.map_id' lanes

theorem sizeBytes_pos (z : Size) : 0 < sizeBytes z ∧ ∃ k ≤ 4, sizeBytes z = 2 ^ k := by
  cases z
  all_goals first
    | exact ⟨by decide, 0, by decide, rfl⟩
    | exact ⟨by decide, 1, by decide, rfl⟩
    | exact ⟨by decide, 2, by decide, rfl⟩
    | exact ⟨by decide, 3, by decide, rfl⟩
    | exact ⟨by decide, 4, by decide, rfl⟩

theorem Team.spadCheck_ok {t : Team} {l : List LaneAcc} (h : ∀ x ∈ l, x.va + x.n ≤ t.spadSize ∧ x.va % x.n = 0) : t.spadCheck l = .ok () := by
  unfold Team.spadCheck
  rw [laneCheck_ok (fun x hx => by have := (h x hx).1; simp; omega)]
  exact laneCheck_ok (fun x hx => by simp [(h x hx).2])

theorem Team.spadStoreCheck_ok {t : Team} {l : List LaneAcc} (h : ∀ x ∈ l, t.guarded x.va x.n = false ∧ t.pendingAt x.va x.n = false) : t.spadStoreCheck l = .ok () := by
  unfold Team.spadStoreCheck
  rw [laneCheck_ok (fun x hx => (h x hx).1)]
  exact laneCheck_ok (fun x hx => (h x hx).2)

theorem Team.spadStall_ok {t : Team} {l : List LaneAcc} (h : ∀ x ∈ l, t.pendingAt x.va x.n = false) : t.spadStall l = .ok () := by
  unfold Team.spadStall
  rw [if_neg]
  simp only [List.any_eq_true, not_exists, not_and, Bool.not_eq_true]
  exact h

theorem globalSpaceOk_ok {l : List LaneAcc} (h : ∀ x ∈ l, x.va + x.n ≤ 2 ^ 56) : globalSpaceOk l = .ok () :=
  laneCheck_ok (fun x hx => by have := h x hx; simp; omega)

-- loads

theorem Reads.onlyReads {s t : State} {core : Nat} {ps : List PageTr} (h : Reads (s.entriesOf core ps) core s t)
    (hm : (∀ p ∈ ps, pteRemote p.pte = false) → SameMem s t) : s.OnlyReads t core ps := by
  refine ⟨h.device, fun hq => (h.quiet hq).2, h.cores, h.launch, (h.memory (fun e he => ?_)).2, hm⟩
  exact List.mem_append_left _ (List.mem_map_of_mem he)

/-- The state in which a global load reads: its translations made and its lines forwarded. -/
def State.loadFrom (s : State) (i : Issuer) (ord : MemOrder) (vis : Vis) (ps : List PageTr) (accs : List LaneAcc) : State :=
  s.touchPages i.tm.core ps (s.forwarded i.tm.core i.viewer ord vis ps accs)

/-- The values of a global load, and the state after its last read. -/
def State.loadedAll (s : State) (i : Issuer) (ord : MemOrder) (vis : Vis) (ps : List PageTr) (accs : List LaneAcc) : List (Nat × Nat) × State :=
  (s.loadFrom i ord vis ps accs).loadAll i.tm.core ((s.loadFrom i ord vis ps accs).itView i.viewer) i.agents i.viewer ord vis ps accs

/-- The state that a global load leaves: an acquire beyond the team makes L1 current (R118). -/
def State.loadedState (s : State) (i : Issuer) (ord : MemOrder) (vis : Vis) (ps : List PageTr) (accs : List LaneAcc) : State :=
  let t := (s.loadedAll i ord vis ps accs).2.modOrder (fun o => o.settle i.agents)
  if ord = .acq && vis != .team then t.dropL1 i.tm.core else t

theorem loadedState_reads (s : State) (i : Issuer) (ord : MemOrder) (vis : Vis) (ps : List PageTr) (accs : List LaneAcc) :
    s.OnlyReads (s.loadedState i ord vis ps accs) i.tm.core ps := by
  unfold State.loadedState
  refine Reads.onlyReads ?_ (fun hl => ?_)
  · refine Reads.trans (Reads.touchPages i.tm.core s ps (s.forwarded i.tm.core i.viewer ord vis ps accs) (fun p hp => List.mem_append_right _ (List.mem_map_of_mem hp))) ?_
    refine Reads.trans (Reads.loadAll _ _ ((s.loadFrom i ord vis ps accs).itView i.viewer) i.agents i.viewer ord vis ps accs _).1 ?_
    refine Reads.trans (Reads.modOrder _ _ _ (fun o => o.settle i.agents)) ?_
    simp only
    split
    · exact Reads.modCore _ _ _ _ (fun c h => h)
    · exact .refl ..
  · refine Reads.memOf (sameMem_touchPages hl s i.tm.core (s.forwarded i.tm.core i.viewer ord vis ps accs)) ?_
    refine Reads.memOf (sameMem_loadAll i.tm.core ((s.loadFrom i ord vis ps accs).itView i.viewer) i.agents i.viewer ord vis ps accs _) ?_
    simp only
    split <;> exact ⟨rfl, rfl, rfl⟩

theorem globalLoad_eq {s : State} {i : Issuer} {ord : MemOrder} {vis : Vis} {accs : List LaneAcc} {ps : List PageTr}
    (h2 : s.xlatAll (some i.tm.core) i.tm.ctx .read accs = .ok ps) (h3 : s.existing ps accs = .ok ()) (h4 : s.readable i.viewer ps accs = .ok ()) :
    s.globalLoad i ord vis accs = .ok ((s.loadedAll i ord vis ps accs).1, s.loadedState i ord vis ps accs) := by
  unfold State.globalLoad
  simp only [h2, h3, h4, bind, Except.bind]
  rfl

/-- What reaches memory through translations changes no launch, no context, no team and no order. -/
theorem touchPages_keeps (s : State) (core : Nat) (ps : List PageTr) (accs : List LaneAcc) :
    (s.touchPages core ps accs).launches = s.launches ∧ (s.touchPages core ps accs).order = s.order := by
  have fold : ∀ {α : Type} (l : List α) (f : State → α → State), (∀ s x, (f s x).launches = s.launches ∧ (f s x).order = s.order) →
      ∀ s, (l.foldl f s).launches = s.launches ∧ (l.foldl f s).order = s.order := by
    intro α l f h
    induction l with
    | nil => exact fun _ => ⟨rfl, rfl⟩
    | cons a r ih => intro s; rw [List.foldl_cons]; exact ⟨(ih _).1.trans (h s a).1, (ih _).2.trans (h s a).2⟩
  have note : ∀ (s : State) (l : List Nat), (s.noteRead l).launches = s.launches ∧ (s.noteRead l).order = s.order := by
    intro s l; rw [State.noteRead_rest]; exact ⟨rfl, rfl⟩
  have fill : ∀ (s : State) (p : PageTr), (s.fillTlb core p).launches = s.launches ∧ (s.fillTlb core p).order = s.order := by
    intro s p
    have cored : ∀ (u : State) (f : CoreRec → CoreRec), ((u.modCore core f).perfAdd core 4 1).launches = u.launches ∧
        ((u.modCore core f).perfAdd core 4 1).order = u.order := fun _ _ => ⟨rfl, rfl⟩
    unfold State.fillTlb
    split
    · exact ⟨rfl, rfl⟩
    · simp only
      obtain ⟨a, b⟩ := cored (match s.slotOfAsid p.asid with
        | some k => s.noteRead (s.walkBytes p.base (s.ctx k).ptroot [(48, 8), (39, 9), (30, 9), (21, 9), (16, 5)])
        | none => s) (fun c => { c with tlb := ({ asid := p.asid, page := p.base, size := p.size, pte := p.pte, at_ := p.at_ } :: c.tlb).take 512 })
      refine ⟨a.trans ?_, b.trans ?_⟩ <;> clear a b <;> split
      · exact (note s _).1
      · rfl
      · exact (note s _).2
      · rfl
  have forward : ∀ (s : State) (p : PageTr), (s.forwardLine core p).launches = s.launches ∧ (s.forwardLine core p).order = s.order := by
    intro s p
    have comm : ∀ (s : State) (l : List (Nat × Byte)), (s.setCommAll l).launches = s.launches ∧ (s.setCommAll l).order = s.order := by
      intro s l; rw [State.setCommAll_rest]; exact ⟨rfl, rfl⟩
    unfold State.forwardLine
    split
    · exact ⟨rfl, rfl⟩
    · simp only
      split
      · exact ⟨rfl, rfl⟩
      · split
        · exact ⟨rfl, rfl⟩
        · split
          · exact comm _ _
          · exact ⟨rfl, rfl⟩
  unfold State.touchPages
  obtain ⟨a, b⟩ := fold ps (fun s p => s.fillTlb core p) fill s
  obtain ⟨c, d⟩ := fold (accLines ps accs) (fun s p => s.forwardLine core p.2) (fun s p => forward s p.2) (ps.foldl (fun s p => s.fillTlb core p) s)
  exact ⟨c.trans a, d.trans b⟩

theorem latest_loadFrom {s : State} {i : Issuer} (h : s.Settled i) (ord : MemOrder) (vis : Vis) (ps : List PageTr) (accs : List LaneAcc) :
    Latest ((s.loadFrom i ord vis ps accs).itView i.viewer) i.agents (s.loadFrom i ord vis ps accs) := by
  obtain ⟨a, b⟩ := touchPages_keeps s i.tm.core ps (s.forwarded i.tm.core i.viewer ord vis ps accs)
  unfold Latest State.loadFrom
  rw [b]
  have : (s.touchPages i.tm.core ps (s.forwarded i.tm.core i.viewer ord vis ps accs)).itView i.viewer = s.itView i.viewer := by
    unfold State.itView State.launch?
    rw [a]
  rw [this]
  exact h

-- loads of the scratchpad

theorem State.OnlyOrder.trans {s t u : State} (h : s.OnlyOrder t) (h' : t.OnlyOrder u) : s.OnlyOrder u := by
  obtain ⟨o, n, rfl⟩ : ∃ o n, t = { s with order := o, free := n } := ⟨_, _, h⟩
  obtain ⟨o', n', rfl⟩ : ∃ o' n', u = { ({ s with order := o, free := n } : State) with order := o', free := n' } := ⟨_, _, h'⟩
  rfl

/-- Reading units changes the order of accesses and the free values used, and nothing else. -/
theorem readUnits_only (it : Bool) (agents : List Nat) (key : Nat) (cur : Nat → Nat → List Byte) (units : List (Nat × Nat)) (s : State) :
    s.OnlyOrder (s.readUnits it agents key cur units).2 := by
  induction units generalizing s with
  | nil => rfl
  | cons u r ih =>
    rw [readUnits_cons]
    obtain ⟨s1, f, h, e⟩ := readUnit_cases s it agents key u.1 (cur u.1 u.2)
    have h1 : s.OnlyOrder (s.readUnit it agents key u.1 (cur u.1 u.2)).2 := by
      rw [e]
      rcases h with rfl | ⟨n, rfl⟩ <;> rfl
    exact h1.trans (ih _)

/-- One lane of a scratchpad load. -/
def spadStep (i : Issuer) (it : Bool) (ord : MemOrder) (acc : List (Nat × Nat) × State) (x : LaneAcc) : List (Nat × Nat) × State :=
  let r := acc.2.readUnits it i.agents spadKey (fun a k => i.tm.spadBytes (a - spadLoc i.unit.team 0) k) (loadUnits ord x (spadLoc i.unit.team x.va) x.n)
  (acc.1 ++ [(x.lane, leNat r.1)], r.2)

theorem spadBytes_units (i : Issuer) (ord : MemOrder) (x : LaneAcc) :
    (loadUnits ord x (spadLoc i.unit.team x.va) x.n).flatMap (fun u => i.tm.spadBytes (u.1 - spadLoc i.unit.team 0) u.2) = i.tm.spadBytes x.va x.n := by
  have e : ∀ a k, spadLoc i.unit.team 0 ≤ a →
      i.tm.spadBytes (a - spadLoc i.unit.team 0) k = (List.range k).map (fun j => i.tm.spadByte (a + j - spadLoc i.unit.team 0)) := by
    intro a k h
    unfold Team.spadBytes
    exact List.map_congr_left (fun j _ => by congr 1; omega)
  have hm : ∀ u ∈ loadUnits ord x (spadLoc i.unit.team x.va) x.n, spadLoc i.unit.team 0 ≤ u.1 := by
    have hx : spadLoc i.unit.team 0 ≤ spadLoc i.unit.team x.va := by unfold spadLoc; omega
    intro u hu
    unfold loadUnits unitsOf at hu
    split at hu
    · obtain ⟨k, -, rfl⟩ := List.mem_map.mp hu
      simp only; omega
    · obtain ⟨k, -, hk⟩ := List.mem_filterMap.mp hu
      simp only [Bool.and_eq_true, decide_eq_true_eq] at hk
      split at hk
      · split at hk
        · cases hk; simp only; omega
        · cases hk
      · cases hk; simp only; omega
  rw [List.flatMap_congr (fun u hu => e u.1 u.2 (hm u hu))]
  unfold loadUnits
  rw [unitsOf_bytes _ _ _ (fun a => i.tm.spadByte (a - spadLoc i.unit.team 0))]
  unfold Team.spadBytes
  refine List.map_congr_left (fun j _ => ?_)
  congr 1
  unfold spadLoc
  omega

theorem spadSteps_spec (i : Issuer) (it : Bool) (ord : MemOrder) (accs : List LaneAcc) (acc : List (Nat × Nat) × State) :
    acc.2.OnlyOrder (accs.foldl (spadStep i it ord) acc).2 ∧ (accs.foldl (spadStep i it ord) acc).1.map Prod.fst = acc.1.map Prod.fst ++ accs.map (·.lane) ∧
    (Latest it i.agents acc.2 → (accs.foldl (spadStep i it ord) acc).1 = acc.1 ++ accs.map (fun x => (x.lane, i.tm.spadNat x.va x.n))) := by
  induction accs generalizing acc with
  | nil => exact ⟨rfl, by simp, fun _ => by simp⟩
  | cons x r ih =>
    obtain ⟨a, b, c⟩ := ih (spadStep i it ord acc x)
    have h1 := readUnits_only it i.agents spadKey (fun a k => i.tm.spadBytes (a - spadLoc i.unit.team 0) k) (loadUnits ord x (spadLoc i.unit.team x.va) x.n) acc.2
    refine ⟨?_, ?_, fun hl => ?_⟩
    · rw [List.foldl_cons]
      exact State.OnlyOrder.trans (t := (spadStep i it ord acc x).2) h1 a
    · rw [List.foldl_cons, b]
      simp [spadStep]
    · obtain ⟨v, l⟩ := readUnits_latest spadKey (fun a k => i.tm.spadBytes (a - spadLoc i.unit.team 0) k) (loadUnits ord x (spadLoc i.unit.team x.va) x.n) hl
      rw [List.foldl_cons, c l]
      have e : (spadStep i it ord acc x).1 = acc.1 ++ [(x.lane, i.tm.spadNat x.va x.n)] := by
        unfold spadStep
        simp only
        rw [v, spadBytes_units]
        rfl
      rw [e]
      simp

theorem spadLoad_eq (s : State) (i : Issuer) (ord : MemOrder) (accs : List LaneAcc) :
    s.spadLoad i ord accs = ((accs.foldl (spadStep i (s.itView i.viewer) ord) ([], s)).1,
      (accs.foldl (spadStep i (s.itView i.viewer) ord) ([], s)).2.modOrder (fun o => o.settle i.agents)) := rfl

theorem countRounds_order {s t : State} (h : s.OnlyOrder t) (core : Nat) (accs : List LaneAcc) :
    (s.countRounds core accs).OnlyOrder (t.countRounds core accs) := by
  unfold State.OnlyOrder at h ⊢
  obtain ⟨o, n, rfl⟩ : ∃ o n, t = { s with order := o, free := n } := ⟨_, _, h⟩
  unfold State.countRounds
  simp only
  split <;> rfl

theorem loadValues_done {s : State} {i : Issuer} {f : FmtM} {space : Space} {lanes : List Nat} (h : s.LoadOk i f space lanes) :
    ∃ vals t, s.loadValues i f space lanes = .ok (vals, t) ∧ s.Loaded i f space lanes vals t := by
  cases space with
  | spad =>
    have ha : ∀ x ∈ i.g.accesses f .spad true lanes (sizeBytes f.sz), x.n = sizeBytes f.sz := fun x hx => (mem_accesses hx).1
    obtain ⟨a, b, c⟩ := spadSteps_spec i (s.itView i.viewer) f.ord (i.g.accesses f .spad true lanes (sizeBytes f.sz)) ([], s)
    refine ⟨(s.spadLoad i f.ord (i.g.accesses f .spad true lanes (sizeBytes f.sz))).1,
      (s.spadLoad i f.ord (i.g.accesses f .spad true lanes (sizeBytes f.sz))).2.countRounds i.tm.core (i.g.accesses f .spad true lanes (sizeBytes f.sz)), ?_, ?_, ?_, ?_⟩
    · unfold State.loadValues
      simp only
      rw [Team.spadCheck_ok (fun x hx => by rw [ha x hx]; exact ⟨(h x hx).1, (h x hx).2.1⟩), Team.spadStall_ok (fun x hx => by rw [ha x hx]; exact (h x hx).2.2)]
      rfl
    · rw [spadLoad_eq]
      exact b.trans (by simp [accesses_lanes])
    · refine countRounds_order ?_ _ _
      rw [spadLoad_eq]
      unfold State.OnlyOrder at a ⊢
      simp only
      rw [a]; rfl
    · intro hs
      rw [spadLoad_eq]
      refine (c hs).trans ?_
      simp only [List.nil_append]
      exact List.map_congr_left (fun x hx => by rw [ha x hx])
  | stack =>
    have ha : ∀ x ∈ i.g.accesses f .stack true lanes (sizeBytes f.sz), x.n = sizeBytes f.sz := fun x hx => (mem_accesses hx).1
    refine ⟨_, _, ?_, rfl, rfl⟩
    unfold State.loadValues
    simp only
    rw [laneCheck_ok (fun x hx => by have := (h x hx).1; simp; omega), laneCheck_ok (fun x hx => by simp [(h x hx).2.1]), laneCheck_ok (fun x hx => by have := (h x hx).2.2; simp; omega)]
    rfl
  | global =>
    have ha : ∀ x ∈ i.g.accesses f .global true lanes (sizeBytes f.sz), x.n = sizeBytes f.sz := fun x hx => (mem_accesses hx).1
    obtain ⟨h1, ps, h2, h3, h4⟩ := h
    refine ⟨(s.loadedAll i f.ord f.vis ps (i.g.accesses f .global true lanes (sizeBytes f.sz))).1, s.loadedState i f.ord f.vis ps (i.g.accesses f .global true lanes (sizeBytes f.sz)), ?_, ?_, ?_⟩
    · unfold State.loadValues
      simp only
      rw [globalSpaceOk_ok (fun x hx => by rw [ha x hx]; exact h1 x hx), globalLoad_eq h2 h3 h4]
      rfl
    · unfold State.loadedAll
      rw [(Reads.loadAll [] ..).2, accesses_lanes]
    · intro ps' hps
      obtain rfl : ps = ps' := by rw [h2] at hps; exact Except.ok.inj hps
      exact ⟨loadedState_reads .., fun hs hf => loadAll_value _ _ _ _ _ _ _ _ _ _ (SameView.refl _) (latest_loadFrom hs f.ord f.vis ps _)
        (hf.imp id (fun h => ⟨fun x _ => partsOf_fit h.1 x, h.2⟩))⟩

-- stores

theorem viewByte_poolNeed (s : State) (w : Viewer) (b : Bool) (loc : Nat) :
    (s.modLaunch w.launch (fun L => { L with poolNeed := 0 })).viewByte w b loc = s.viewByte w b loc := by
  unfold State.viewByte
  rw [State.launch_modLaunch, if_pos rfl]
  cases s.launch? w.launch <;> rfl

theorem storedAt_of {l : List LaneAcc} {data : Nat → List Byte} {n : Nat} (hn : ∀ x ∈ l, x.n = n) (hd : ∀ k, (data k).length = n)
    {s : State} {ord : MemOrder} {it : Bool} {a : Nat} (h : ∃ x ∈ l, x.va ≤ a ∧ a < x.va + n) : ∃ p ∈ (s.resolveStores ord it l data).1, p.1 = a := by
  obtain ⟨x, hx, h1, h2⟩ := h
  have := (resolveStores_spec s ord it l data).2.1 a ⟨x, hx, a - x.va, by rw [hn x hx]; omega, by omega, by rw [hd]; omega⟩
  obtain ⟨b, hb⟩ := Option.isSome_iff_exists.mp this
  exact ⟨(a, b), Tab.mem_of_find hb, rfl⟩

theorem spad_setAll {l : List LaneAcc} {data : Nat → List Byte} {n : Nat} (hn : ∀ x ∈ l, x.n = n) (hd : ∀ k, (data k).length = n)
    (s : State) (ord : MemOrder) (it : Bool) (m : Tab Byte) (a : Nat) :
    ((∀ x ∈ l, a < x.va ∨ x.va + n ≤ a) → Tab.get (Tab.setAll m 0 (s.resolveStores ord it l data).1) 0 a = Tab.get m 0 a) ∧
    ((∃ x ∈ l, x.va ≤ a ∧ a < x.va + n) → StoredAt l data a (Tab.get (Tab.setAll m 0 (s.resolveStores ord it l data).1) 0 a)) := by
  rcases Tab.get_setAll (0 : Byte) (s.resolveStores ord it l data).1 m a with ⟨p, hp, h1, h2⟩ | ⟨h1, h2⟩
  · have hs := resolveStores_mem s ord it l data p hp
    subst h1
    refine ⟨fun h => ?_, fun _ => by rw [h2]; exact hs⟩
    obtain ⟨x, hx, k, hk, e, -⟩ := hs
    have := h x hx
    rw [hn x hx] at hk
    omega
  · refine ⟨fun _ => h2, fun h => ?_⟩
    obtain ⟨p, hp, e⟩ := storedAt_of hn hd (s := s) (ord := ord) (it := it) h
    exact absurd e (h1 p hp)

theorem stack_stores (g : Gang) (l : List LaneAcc) (data : Nat → List Byte) (n : Nat) (hl : (l.map (·.lane)).Nodup)
    (hb : ∀ x ∈ l, x.va + n ≤ 2 ^ 32) (hd : ∀ k, (data k).length = n) (lane a : Nat) (ha : a < 2 ^ 32) :
    (l.foldl (fun g x => g.setStack x.lane x.va (data x.lane)) g) = { g with stack := (l.foldl (fun g x => g.setStack x.lane x.va (data x.lane)) g).stack } ∧
    ((∀ x ∈ l, x.lane = lane → a < x.va ∨ x.va + n ≤ a) → (l.foldl (fun g x => g.setStack x.lane x.va (data x.lane)) g).stackByte lane a = g.stackByte lane a) ∧
    (∀ x ∈ l, x.lane = lane → x.va ≤ a → a < x.va + n → (l.foldl (fun g x => g.setStack x.lane x.va (data x.lane)) g).stackByte lane a = (data lane).getD (a - x.va) 0) := by
  have one : ∀ (g : Gang) (x : LaneAcc), x.va + n ≤ 2 ^ 32 → (g.setStack x.lane x.va (data x.lane)).stackByte lane a =
      if x.lane = lane ∧ x.va ≤ a ∧ a < x.va + n then (data lane).getD (a - x.va) 0 else g.stackByte lane a := by
    intro g x hx
    unfold Gang.setStack Gang.stackByte stackKey
    simp only
    rw [Tab.get_setRange, hd]
    by_cases h : x.lane = lane
    · subst h
      by_cases h' : x.va ≤ a ∧ a < x.va + n
      · rw [if_pos ⟨by omega, by omega⟩, if_pos ⟨rfl, h'⟩]
        congr 1; omega
      · rw [if_neg (by omega), if_neg (fun h => h' h.2)]
    · rw [if_neg (by omega), if_neg (fun h' => h h'.1)]
  induction l generalizing g with
  | nil => exact ⟨rfl, fun _ => rfl, fun _ h => (by cases h)⟩
  | cons y r ih =>
    simp only [List.map_cons, List.nodup_cons] at hl
    obtain ⟨a1, a2, a3⟩ := ih (g.setStack y.lane y.va (data y.lane)) hl.2 (fun x hx => hb x (List.mem_cons_of_mem _ hx))
    rw [List.foldl_cons]
    refine ⟨by rw [a1]; rfl, fun h => ?_, fun x hx e h1 h2 => ?_⟩
    · rw [a2 (fun x hx => h x (List.mem_cons_of_mem _ hx)), one g y (hb y (List.mem_cons_self ..)), if_neg]
      rintro ⟨e, h1, h2⟩
      have := h y (List.mem_cons_self ..) e
      omega
    · rcases List.mem_cons.mp hx with hx | hx
      · subst hx
        rw [a2 (fun z hz ez => absurd (List.mem_map.mpr ⟨z, hz, ez.trans e.symm⟩) hl.1), one g x (hb x (List.mem_cons_self ..)), if_pos ⟨e, h1, h2⟩]
      · exact a3 x hx e h1 h2

theorem aligned_le {va n : Nat} (h : ∃ k ≤ 4, n = 2 ^ k) (h1 : va < 2 ^ 32) (h2 : va % n = 0) : va + n ≤ 2 ^ 32 := by
  obtain ⟨k, hk, rfl⟩ := h
  have hd : (2 : Nat) ^ k ∣ 2 ^ 32 := Nat.pow_dvd_pow 2 (by omega)
  have hv : (2 : Nat) ^ k ∣ va := Nat.dvd_of_mod_eq_zero h2
  obtain ⟨x, hx⟩ := hd
  obtain ⟨y, hy⟩ := hv
  have hp : 0 < (2 : Nat) ^ k := Nat.two_pow_pos k
  rw [hx] at h1 ⊢
  rw [hy] at h1 ⊢
  have : y < x := Nat.lt_of_mul_lt_mul_left h1
  calc 2 ^ k * y + 2 ^ k = 2 ^ k * (y + 1) := by rw [Nat.mul_add, Nat.mul_one]
    _ ≤ 2 ^ k * x := Nat.mul_le_mul_left _ this

/-- The state in which a global store is made: its translations made, and the lines forwarded that go to remote pages at once. -/
def State.storeFrom (s : State) (i : Issuer) (ps : List PageTr) (accs : List LaneAcc) : State :=
  s.touchPages i.tm.core ps (accs.filter (fun x => s.direct i.viewer (pageOf ps x.va)))

/-- A global store once its checks are made. -/
def State.storedState (s : State) (i : Issuer) (ord : MemOrder) (ps : List PageTr) (accs : List LaneAcc) (data : Nat → List Byte) : State :=
  let u := s.storeFrom i ps accs
  let r := u.resolveStores ord (u.itView i.viewer) accs data
  ((r.2.modLaunch i.tm.launch (fun L => { L with poolNeed := 0 })).storeUnits i.agents i.viewer ord ps accs).storeBytes (some i.tm.core) i.viewer ps r.1

theorem Reads.writes {as : List Nat} {core : Nat} {s t : State} (h : Reads as core s t) (hl : t.launches = s.launches) (w : Viewer) : Writes w s t := by
  have ht : t.teams = s.teams := by rw [h.device]
  refine ⟨?_, fun _ _ => ?_, fun u hu => ⟨u, ?_, rfl⟩, fun _ _ => ?_, ?_⟩
  · have e := h.device
    generalize t.cores = a at e
    generalize t.free = b at e
    generalize t.mem = c at e
    generalize t.uncorr = d at e
    generalize t.remote = f at e
    generalize t.order = g at e
    generalize t.fleet = k at e
    generalize t.out = m at e
    rw [hl] at e
    subst e; rfl
  · unfold State.team?; rw [ht]
  · unfold State.team? at hu ⊢; rw [ht]; exact hu
  · unfold State.launch?; rw [hl]
  · unfold State.launch?; rw [hl]

/-- Recording the units of a store changes the order of accesses and nothing else. -/
theorem storeUnits_only (s : State) (agents : List Nat) (w : Viewer) (ord : MemOrder) (ps : List PageTr) (accs : List LaneAcc) :
    ∃ o, s.storeUnits agents w ord ps accs = { s with order := o } := by
  have fold : ∀ {α : Type} (l : List α) (f : State → α → State), (∀ s x, ∃ o, f s x = { s with order := o }) → ∀ s : State, ∃ o, l.foldl f s = { s with order := o } := by
    intro α l f h
    induction l with
    | nil => exact fun s => ⟨s.order, rfl⟩
    | cons a r ih =>
      intro s
      obtain ⟨o, e⟩ := h s a
      obtain ⟨o', e'⟩ := ih (f s a)
      exact ⟨o', by rw [List.foldl_cons, e', e]⟩
  exact fold _ _ (fun s x => fold _ _ (fun s q => ⟨_, rfl⟩) s) s

/-- What a global store leaves. -/
theorem storedState_spec {s : State} {i : Issuer} (hi : s.team? i.unit.team = some i.tm) (ord : MemOrder) (ps : List PageTr) (accs : List LaneAcc) (data : Nat → List Byte) :
    let t := s.storedState i ord ps accs data
    let B := ((s.storeFrom i ps accs).resolveStores ord ((s.storeFrom i ps accs).itView i.viewer) accs data).1
    Writes i.viewer s t ∧
    (∀ loc, OffEntries (s.entriesOf i.tm.core ps) loc → (∀ a b, StoredAt accs data a b → (pageOf ps a).loc a = loc → pteImm (pageOf ps a).pte = false ∧ s.published i.viewer = false) →
      t.commByte loc = s.commByte loc) ∧
    ∀ b, (∀ a v, StoredAt accs data a v → pteImm (pageOf ps a).pte = b) →
      ((∀ p ∈ ps, pteRemote p.pte = false) ∨ accs.filter (fun x => s.direct i.viewer (pageOf ps x.va)) = []) → ∀ loc,
      (∃ p ∈ B, (pageOf ps p.1).loc p.1 = loc ∧ t.viewByte i.viewer b loc = p.2) ∨
      ((∀ p ∈ B, (pageOf ps p.1).loc p.1 ≠ loc) ∧ t.viewByte i.viewer b loc = s.viewByte i.viewer b loc) := by
  intro t B
  have hr : Reads (s.entriesOf i.tm.core ps) i.tm.core s (s.storeFrom i ps accs) :=
    Reads.touchPages i.tm.core s ps _ (fun p hp => List.mem_append_right _ (List.mem_map_of_mem hp))
  have hlv : (s.storeFrom i ps accs).launches = s.launches := (touchPages_keeps ..).1
  have hmem : ((∀ p ∈ ps, pteRemote p.pte = false) ∨ accs.filter (fun x => s.direct i.viewer (pageOf ps x.va)) = []) → SameMem s (s.storeFrom i ps accs) := by
    intro h
    unfold State.storeFrom
    rcases h with h | h
    · exact sameMem_touchPages h s _ _
    · rw [h]
      exact sameMem_foldl ps _ (fun s p _ => sameMem_fillTlb s _ p) _
  have ht : t = ((((s.storeFrom i ps accs).resolveStores ord ((s.storeFrom i ps accs).itView i.viewer) accs data).2.modLaunch
      i.tm.launch (fun L => { L with poolNeed := 0 })).storeUnits i.agents i.viewer ord ps accs).storeBytes (some i.tm.core) i.viewer ps B := rfl
  obtain ⟨n, hn⟩ := (resolveStores_spec (s.storeFrom i ps accs) ord ((s.storeFrom i ps accs).itView i.viewer) accs data).2.2
  have hm : ∀ p ∈ B, StoredAt accs data p.1 p.2 := resolveStores_mem _ _ _ _ _
  generalize ((s.storeFrom i ps accs).resolveStores ord ((s.storeFrom i ps accs).itView i.viewer) accs data).2 = s2 at hn ht
  clear_value B
  generalize s.storeFrom i ps accs = s1 at hr hlv hmem hn
  obtain ⟨o, ho⟩ := storeUnits_only (s2.modLaunch i.tm.launch (fun L => { L with poolNeed := 0 })) i.agents i.viewer ord ps accs
  have hw1 : Writes i.viewer s s1 := hr.writes hlv _
  have hw2 : Writes i.viewer s1 s2 := by rw [hn]; exact ⟨rfl, fun _ _ => rfl, fun u hu => ⟨u, hu, rfl⟩, fun _ _ => rfl, rfl⟩
  have hw3 : Writes i.viewer s2 (s2.modLaunch i.tm.launch (fun L => { L with poolNeed := 0 })) := Writes.modLaunch i.viewer s2 _ (fun _ => rfl)
  have hw4 : Writes i.viewer (s2.modLaunch i.tm.launch (fun L => { L with poolNeed := 0 }))
      ((s2.modLaunch i.tm.launch (fun L => { L with poolNeed := 0 })).storeUnits i.agents i.viewer ord ps accs) := by
    rw [ho]; exact ⟨rfl, fun _ _ => rfl, fun u hu => ⟨u, hu, rfl⟩, fun _ _ => rfl, rfl⟩
  have hw := hw1.trans (hw2.trans (hw3.trans hw4))
  obtain ⟨a, b, c⟩ := storeBytes_spec i.tm.core i.viewer ps B ((s2.modLaunch i.tm.launch (fun L => { L with poolNeed := 0 })).storeUnits i.agents i.viewer ord ps accs)
    (hw.someTeam (show (s.team? i.viewer.team).isSome = true by show (s.team? i.unit.team).isSome = true; rw [hi]; rfl))
  rw [ht]
  refine ⟨hw.trans a, fun loc hoff h => ?_, fun im him hrem loc => ?_⟩
  · rw [b loc (fun p hp e => ?_)]
    · rw [ho]
      show s2.commByte loc = _
      rw [hn]
      exact (hr.memory (fun e he => List.mem_append_left _ (List.mem_map_of_mem he))).2 loc hoff
    · rw [hw.published]
      exact h p.1 p.2 (hm p hp) e
  · have hv : ((s2.modLaunch i.tm.launch (fun L => { L with poolNeed := 0 })).storeUnits i.agents i.viewer ord ps accs).viewByte i.viewer im loc = s.viewByte i.viewer im loc := by
      have hs : ∀ u : State, SameView u { u with order := o } := fun _ => ⟨⟨rfl, rfl, rfl⟩, rfl, rfl, fun _ => rfl⟩
      have hf : SameView s1 s2 := by rw [hn]; exact ⟨⟨rfl, rfl, rfl⟩, rfl, rfl, fun _ => rfl⟩
      rw [ho, (hs _).viewByte, show i.tm.launch = i.viewer.launch from rfl, viewByte_poolNeed, hf.viewByte]
      exact (hr.sameView (hmem hrem)).viewByte _ _ _
    rcases c im (fun p hp => him p.1 p.2 (hm p hp)) loc with ⟨p, hp, h1, h2⟩ | ⟨h1, h2⟩
    · exact .inl ⟨p, hp, h1, h2⟩
    · exact .inr ⟨h1, h2.trans hv⟩

/-- Counting bank rounds changes only a counter of the core. -/
theorem countRounds_only (u : State) (core : Nat) (accs : List LaneAcc) :
    ∃ cores, u.countRounds core accs = { u with cores := cores } ∧
      ∀ c, ((u.countRounds core accs).core c).tlb = (u.core c).tlb ∧ ((u.countRounds core accs).core c).l1 = (u.core c).l1 := by
  unfold State.countRounds
  simp only
  split
  · exact ⟨_, rfl, fun c => ⟨rfl, rfl⟩⟩
  · refine ⟨_, rfl, fun c => ?_⟩
    rw [State.core_perfAdd]
    split
    · next e => subst e; exact ⟨rfl, rfl⟩
    · exact ⟨rfl, rfl⟩

theorem Team.setSpadAll_spad (t : Team) (bytes : Tab Byte) : (t.setSpadAll bytes).spad = Tab.setAll t.spad 0 bytes := rfl

/-- Scratchpad bytes replaced: only what matrix operations in flight have kept changes beside them (R65). -/
theorem Team.setSpadAll_same (t : Team) (bytes : Tab Byte) :
    t.setSpadAll bytes = { t with spad := (t.setSpadAll bytes).spad, mops := (t.setSpadAll bytes).mops } ∧ t.SameMops (t.setSpadAll bytes) := by
  refine ⟨rfl, ?_⟩
  unfold Team.SameMops
  show ((t.mops.map (fun p => (p.1, p.2.saw t (Tab.keys bytes)))).map _) = _
  rw [List.map_map]
  rfl

/-- A scratchpad store once its checks are made. -/
def State.spadStored (s : State) (i : Issuer) (ord : MemOrder) (accs : List LaneAcc) (data : Nat → List Byte) : State :=
  let r := s.resolveStores ord (s.itView i.viewer) accs data
  ((r.2.spadUnits i ord accs).modTeam i.unit.team (fun t => t.setSpadAll r.1)).countRounds i.tm.core accs

/-- Recording the units of a scratchpad store changes the order of accesses and nothing else. -/
theorem spadUnits_only (s : State) (i : Issuer) (ord : MemOrder) (accs : List LaneAcc) : ∃ o, s.spadUnits i ord accs = { s with order := o } := by
  unfold State.spadUnits
  induction accs generalizing s with
  | nil => exact ⟨s.order, rfl⟩
  | cons x r ih =>
    obtain ⟨o, e⟩ := ih (s.writeUnits i.agents spadKey (fun a k => i.tm.spadBytes (a - spadLoc i.unit.team 0) k) (loadUnits ord x (spadLoc i.unit.team x.va) x.n))
    exact ⟨o, by rw [List.foldl_cons, e]; rfl⟩

theorem spadStored_spec {s : State} {i : Issuer} (ht : s.team? i.unit.team = some i.tm) (ord : MemOrder) (accs : List LaneAcc) (data : Nat → List Byte) :
    let t := s.spadStored i ord accs data
    (t = { s with teams := t.teams, cores := t.cores, free := t.free, order := t.order } ∧ (∀ c, (t.core c).tlb = (s.core c).tlb ∧ (t.core c).l1 = (s.core c).l1) ∧
      (∀ id, id ≠ i.unit.team → t.team? id = s.team? id)) ∧
    t.team? i.unit.team = some (i.tm.setSpadAll (s.resolveStores ord (s.itView i.viewer) accs data).1) := by
  obtain ⟨n, hn⟩ := (resolveStores_spec s ord (s.itView i.viewer) accs data).2.2
  unfold State.spadStored
  generalize s.resolveStores ord (s.itView i.viewer) accs data = r at hn ⊢
  obtain ⟨B, s2⟩ := r
  simp only at hn ⊢
  subst hn
  obtain ⟨o, ho⟩ := spadUnits_only { s with free := n } i ord accs
  rw [ho]
  obtain ⟨cores, h1, h2⟩ := countRounds_only (({ s with free := n, order := o } : State).modTeam i.unit.team (fun t => t.setSpadAll B)) i.tm.core accs
  rw [h1] at h2 ⊢
  refine ⟨⟨rfl, h2, fun id hid => ?_⟩, ?_⟩
  · show State.team? (State.modTeam { s with free := n, order := o } _ _) _ = _
    rw [State.team_modTeam, if_neg hid]; rfl
  · show State.team? (State.modTeam { s with free := n, order := o } _ _) _ = _
    rw [State.team_modTeam, if_pos rfl]
    show Option.map _ (s.team? i.unit.team) = _
    rw [ht]; rfl

theorem storeValues_spad {s : State} {i : Issuer} (ht : s.team? i.unit.team = some i.tm) {f : FmtM} {lanes : List Nat}
    (h : s.StoreOk i f .spad lanes) : ∃ t, s.storeValues i f .spad lanes = .ok t ∧ s.Stored i f .spad lanes t := by
  have ha : ∀ x ∈ i.g.accesses f .spad true lanes (sizeBytes f.sz), x.n = sizeBytes f.sz := fun x hx => (mem_accesses hx).1
  obtain ⟨h1, h2⟩ := spadStored_spec ht f.ord (i.g.accesses f .spad true lanes (sizeBytes f.sz)) (fun l => leBytes (sizeBytes f.sz) (i.g.dataNat f.d l (sizeBytes f.sz)))
  obtain ⟨h3, h4⟩ := i.tm.setSpadAll_same (s.resolveStores f.ord (s.itView i.viewer) (i.g.accesses f .spad true lanes (sizeBytes f.sz))
    (fun l => leBytes (sizeBytes f.sz) (i.g.dataNat f.d l (sizeBytes f.sz)))).1
  refine ⟨s.spadStored i f.ord (i.g.accesses f .spad true lanes (sizeBytes f.sz)) (fun l => leBytes (sizeBytes f.sz) (i.g.dataNat f.d l (sizeBytes f.sz))), ?_, h1, _, h2, h3, h4,
    fun a => spad_setAll ha (fun l => length_leBytes _ _) s f.ord (s.itView i.viewer) i.tm.spad a⟩
  unfold State.storeValues
  simp only
  rw [Team.spadCheck_ok (fun x hx => by rw [ha x hx]; exact ⟨(h x hx).1, (h x hx).2.1⟩), Team.spadStoreCheck_ok (fun x hx => by rw [ha x hx]; exact (h x hx).2.2)]
  rfl

theorem storeValues_stack {s : State} {i : Issuer} (ht : s.team? i.unit.team = some i.tm) (hg : i.g = i.tm.gang i.unit.gang) {f : FmtM} {lanes : List Nat} (hl : lanes.Nodup)
    (h : s.StoreOk i f .stack lanes) : ∃ t, s.storeValues i f .stack lanes = .ok t ∧ s.Stored i f .stack lanes t := by
  have hd : ∀ l, (leBytes (sizeBytes f.sz) (i.g.dataNat f.d l (sizeBytes f.sz))).length = sizeBytes f.sz := fun l => length_leBytes _ _
  have ha : ∀ x ∈ i.g.accesses f .stack true lanes (sizeBytes f.sz), x.n = sizeBytes f.sz ∧ x.lane ∈ lanes ∧
      x.va = (i.g.address .stack f.a f.b f.off true x.lane).toNat := fun x hx => mem_accesses hx
  have hb : ∀ x ∈ i.g.accesses f .stack true lanes (sizeBytes f.sz), x.va + sizeBytes f.sz ≤ 2 ^ 32 :=
    fun x hx => aligned_le (sizeBytes_pos f.sz).2 (h x hx).1 (h x hx).2.1
  have hs := fun lane a ha' => stack_stores i.g (i.g.accesses f .stack true lanes (sizeBytes f.sz)) (fun l => leBytes (sizeBytes f.sz) (i.g.dataNat f.d l (sizeBytes f.sz))) (sizeBytes f.sz)
    (by rw [accesses_lanes]; exact hl) hb hd lane a ha'
  refine ⟨s.withGang i ((i.g.accesses f .stack true lanes (sizeBytes f.sz)).foldl (fun g x => g.setStack x.lane x.va (leBytes (sizeBytes f.sz) (i.g.dataNat f.d x.lane (sizeBytes f.sz)))) i.g), ?_, ?_⟩
  rotate_left
  · unfold State.Stored
    simp only
    refine ⟨(i.g.accesses f .stack true lanes (sizeBytes f.sz)).foldl (fun g x => g.setStack x.lane x.va (leBytes (sizeBytes f.sz) (i.g.dataNat f.d x.lane (sizeBytes f.sz)))) i.g,
      ?_, ?_, ?_, ?_⟩
    · exact rfl
    · have e := (hs 0 0 (Nat.two_pow_pos 32)).1
      exact e
    · intro l hll k hk
      have hm : (⟨l, (i.g.address .stack f.a f.b f.off true l).toNat, sizeBytes f.sz⟩ : LaneAcc) ∈ i.g.accesses f .stack true lanes (sizeBytes f.sz) := List.mem_map.mpr ⟨l, hll, rfl⟩
      have := hb _ hm
      simp only at this
      rw [(hs l _ (by omega)).2.2 _ hm rfl (by simp) (by simp; exact hk)]
      simp
    · intro l a hla hout
      refine (hs l a hla).2.1 (fun x hx e => ?_)
      obtain ⟨-, b, c⟩ := ha x hx
      rw [e] at b c
      rw [c]
      rcases hout with h' | h'
      · exact absurd b h'
      · exact h'
  · unfold State.storeValues
    simp only
    rw [laneCheck_ok (fun x hx => by have := (h x hx).1; simp; omega), laneCheck_ok (fun x hx => by simp [(h x hx).2.1]), laneCheck_ok (fun x hx => by have := (h x hx).2.2; simp; omega)]
    simp only [bind, Except.bind]
    congr 1
    exact State.modGang_at ht _ _ (by rw [← hg])

theorem storeValues_global {s : State} {i : Issuer} (ht : s.team? i.unit.team = some i.tm) {f : FmtM} {lanes : List Nat}
    (h : s.StoreOk i f .global lanes) : ∃ t, s.storeValues i f .global lanes = .ok t ∧ s.Stored i f .global lanes t := by
  have hd : ∀ l, (leBytes (sizeBytes f.sz) (i.g.dataNat f.d l (sizeBytes f.sz))).length = sizeBytes f.sz := fun l => length_leBytes _ _
  have ha : ∀ x ∈ i.g.accesses f .global true lanes (sizeBytes f.sz), x.n = sizeBytes f.sz := fun x hx => (mem_accesses hx).1
  obtain ⟨h1, ps, h2⟩ := h
  refine ⟨s.storedState i f.ord ps (i.g.accesses f .global true lanes (sizeBytes f.sz)) (fun l => leBytes (sizeBytes f.sz) (i.g.dataNat f.d l (sizeBytes f.sz))), ?_, ?_⟩
  · unfold State.storeValues
    simp only
    rw [globalSpaceOk_ok (fun x hx => by rw [ha x hx]; exact h1 x hx)]
    simp only [bind, Except.bind]
    unfold State.globalStore
    simp only [h2, bind, Except.bind]
    rfl
  · intro ps' hps
    obtain rfl : ps = ps' := by rw [h2] at hps; exact Except.ok.inj hps
    obtain ⟨hw, hc, hv⟩ := storedState_spec ht f.ord ps (i.g.accesses f .global true lanes (sizeBytes f.sz)) (fun l => leBytes (sizeBytes f.sz) (i.g.dataNat f.d l (sizeBytes f.sz)))
    refine ⟨⟨hw.device, hw.teams, hw.own _ ht, hw.launches, hw.launch⟩, fun loc ho hcov => hc loc ho ?_, fun b hb hrem loc => ?_⟩
    · rintro a v ⟨x, hx, k, hk, rfl, -⟩ e
      rw [ha x hx] at hk
      exact hcov x hx k hk e
    · have hfil : (∀ p ∈ ps, pteRemote p.pte = false) ∨
          (i.g.accesses f .global true lanes (sizeBytes f.sz)).filter (fun x => s.direct i.viewer (pageOf ps x.va)) = [] := by
        rcases hrem with ⟨e, hp⟩ | h
        · right
          refine List.filter_eq_nil_iff.mpr (fun x hx => ?_)
          have h1 := hb x hx 0 (sizeBytes_pos f.sz).1
          rw [e] at h1
          have h2 : s.published i.viewer = false := hp
          unfold State.direct
          rw [show pteImm (pageOf ps x.va).pte = false from h1, Bool.false_or]
          show ¬ s.published i.viewer = true
          rw [h2]
          simp
        · exact .inl h
      rcases hv b (by rintro a v ⟨x, hx, k, hk, rfl, -⟩; rw [ha x hx] at hk; exact hb x hx k hk) hfil loc with ⟨p, hp, e, ev⟩ | ⟨hn, ev⟩
      · have hst := resolveStores_mem _ _ _ _ _ p hp
        refine ⟨fun hno => ?_, fun _ => ⟨p.1, e, by rw [ev]; exact hst⟩⟩
        obtain ⟨x, hx, k, hk, e', -⟩ := hst
        rw [ha x hx] at hk
        rw [e'] at e
        exact absurd e (hno x hx k hk)
      · refine ⟨fun _ => ev, ?_⟩
        rintro ⟨x, hx, k, hk, e⟩
        obtain ⟨p, hp, e'⟩ := storedAt_of ha hd (s := s.storeFrom i ps (i.g.accesses f .global true lanes (sizeBytes f.sz))) (ord := f.ord)
          (it := (s.storeFrom i ps (i.g.accesses f .global true lanes (sizeBytes f.sz))).itView i.viewer) (a := x.va + k) ⟨x, hx, by omega, by omega⟩
        have := hn p hp
        rw [e'] at this
        exact absurd e this

theorem storeValues_done {s : State} {i : Issuer} (ht : s.team? i.unit.team = some i.tm) (hg : i.g = i.tm.gang i.unit.gang) {f : FmtM} {space : Space} {lanes : List Nat} (hl : lanes.Nodup)
    (h : s.StoreOk i f space lanes) : ∃ t, s.storeValues i f space lanes = .ok t ∧ s.Stored i f space lanes t := by
  cases space with
  | spad => exact storeValues_spad ht h
  | stack => exact storeValues_stack ht hg hl h
  | global => exact storeValues_global ht h

end Sys2Proof.Machine
end

