-- ==== Sys2Proof/Laws/Atomics.lean ====
section
/-! SUPPORT. Atomics, said once: what one unit, one page and the units of the scratchpad can change (R142, R144, R286 to R288). -/

namespace Sys2Proof.Machine

open Sys2Proof

theorem atomPages_ok {r : State × List (Nat × Nat) × Bool × Option Stop} (h : r.2.2.2 = none) : ∃ s1 olds wrote, r = (s1, olds, wrote, none) := by
  obtain ⟨a, b, c, d⟩ := r
  exact ⟨a, b, c, by simp only at h; rw [h]⟩

theorem atomic_global {s : State} {i : Issuer} {h : Hdr} {o : Option AtomOp} {ty : AtomTy} {mred : Bool} {f : FmtM} {s1 : State} {olds : List (Nat × Nat)} {wrote : Bool}
    (h1 : atomOperands i.tm f .global (h.scp == .gang) mred (atomBytes ty) = true)
    (h2 : ∀ x ∈ i.g.accesses f .global false (i.atomLanes h) (atomBytes ty), x.va + atomBytes ty ≤ 2 ^ 56 ∧ x.va % atomBytes ty = 0)
    (h3 : s.atomPages i mred (i.atomJob o ty f (i.atomLanes h)) f.d 32 (i.g.accesses f .global false (i.atomLanes h) (atomBytes ty)) [] false = (s1, olds, wrote, none)) :
    s.atomic i h o ty .global mred f = .ok ((if (f.ord = .acq ∨ f.ord = .acqRel) ∧ f.vis ≠ .team then s1.dropL1 i.tm.core else s1).passLate i h.la.toNat
          (atomDests h o ty mred f (i.atomLanes h) olds wrote), none) := by
  have ha : ∀ x ∈ i.g.accesses f .global false (i.atomLanes h) (atomBytes ty), x.n = atomBytes ty := fun x hx => (mem_accesses hx).1
  unfold State.atomic
  simp only [h1, Bool.not_true, illegalOperandIf, trapIf, Bool.false_eq_true, if_false, bind, Except.bind]
  rw [globalSpaceOk_ok (fun x hx => by rw [ha x hx]; exact (h2 x hx).1), laneCheck_ok (fun x hx => by simp [(h2 x hx).2]), h3]

theorem atomic_unit {ins : Instr} {h : Hdr} {o : Option AtomOp} {ty : AtomTy} {space : Space} {mred : Bool} {f : FmtM} {s t : State} {i : Issuer}
    (hx : ∀ s, exec ins s = s.atomicOp h o ty space mred f) (hi : s.Issues i) (hs : h.scp = .lane)
    (key : s.atomic i h o ty space mred f = .ok (t, none)) : Performs ins s i.performer t := by
  unfold Performs
  rw [hx]
  unfold State.atomicOp
  simp only [hs, hi.1, key]
  rfl

theorem atomic_gang {ins : Instr} {h : Hdr} {o : Option AtomOp} {ty : AtomTy} {space : Space} {mred : Bool} {f : FmtM} {s s' t : State} {i i' : Issuer}
    (hx : ∀ s, exec ins s = s.atomicOp h o ty space mred f) (hi : s.Issues i) (hs : h.scp = .gang) (hg : s.GangStarts i s' i')
    (key : s'.atomic i' h o ty space mred f = .ok (t, none)) : PerformsIn ins s s' i'.performer t := by
  unfold PerformsIn
  rw [hx]
  unfold State.atomicOp
  simp only [hs]
  rw [gangWide_starts hi.1 hg, key]
  rfl

theorem storeBytes_frame (core : Nat) (w : Viewer) (ps : List PageTr) (l : List (Nat × Byte)) (s : State) (ht : (s.team? w.team).isSome = true) (loc : Nat)
    (h : ∀ p ∈ l, (pageOf ps p.1).loc p.1 ≠ loc) : (s.storeBytes (some core) w ps l).commByte loc = s.commByte loc :=
  (storeBytes_spec core w ps l s ht).2.1 loc (fun p hp e => absurd e (h p hp))

/-- One unit of an atomic keeps the other bytes of committed memory. -/
theorem atomUnit_frame {s t : State} {i : Issuer} {mred : Bool} {j : AtomJob} {p : PageTr} {va : Nat} {lanes : List Nat} {o : List (Nat × Nat)} {wr : Bool}
    (ht : (s.team? i.unit.team).isSome = true) (h : s.atomUnit i mred j p va lanes = .ok (o, wr, t)) :
    (t.team? i.unit.team).isSome = true ∧ ∀ loc, (∀ k < atomBytes j.ty, (pageOf [p] (va + k)).loc (va + k) ≠ loc) → t.commByte loc = s.commByte loc := by
  have hdrop : ∀ (u : State) (a : Nat), (u.dropSector i.tm.core a).team? i.unit.team = u.team? i.unit.team ∧
      ∀ loc, (u.dropSector i.tm.core a).commByte loc = u.commByte loc := fun _ _ => ⟨rfl, fun _ => rfl⟩
  unfold State.atomUnit at h
  simp only [bind, Except.bind] at h
  split at h
  · next r hr =>
    split at h
    · cases h
    · split at h
      · cases h
      · cases h
        refine ⟨?_, fun _ _ => rfl⟩
        rw [(hdrop _ _).1]
        show (State.team? (State.modTeam _ _ _) _).isSome = true
        rw [State.team_modTeam]
        split
        · simpa using ht
        · exact ht
  · generalize hu : (s.recordRead i.viewer.launch (pteImm p.pte) (p.loc va)).atomicUnit i.agents _ _ _ _ = u at h
    have hrec : ∀ loc, u.commByte loc = s.commByte loc := by
      intro loc
      subst hu
      unfold State.commByte
      obtain ⟨a, -, c⟩ := sameMem_recordRead s i.viewer.launch (pteImm p.pte) (p.loc va)
      show (if loc < localEnd then Tab.get (s.recordRead i.viewer.launch (pteImm p.pte) (p.loc va)).mem 0 loc
        else Tab.get (s.recordRead i.viewer.launch (pteImm p.pte) (p.loc va)).remote 0 loc) = _
      rw [a, c]
    have hteam : (u.team? i.unit.team).isSome = true := by
      subst hu
      show ((s.recordRead i.viewer.launch (pteImm p.pte) (p.loc va)).team? i.unit.team).isSome = true
      unfold State.recordRead; split <;> exact ht
    split at h
    · cases h
      rw [(hdrop _ _).1]
      exact ⟨hteam, fun loc _ => ((hdrop _ _).2 loc).trans (hrec loc)⟩
    · next v hv =>
      split at h
      · cases h
      · split at h
        · cases h
        · cases h
          rw [(hdrop _ _).1]
          refine ⟨(storeBytes_spec _ i.viewer _ _ _ hteam).1.someTeam hteam, fun loc hl => ?_⟩
          rw [(hdrop _ _).2, storeBytes_frame _ i.viewer _ _ _ hteam loc, hrec]
          intro q hq
          obtain ⟨a, ha, rfl⟩ := List.mem_map.mp hq
          have : a.1 < atomBytes j.ty := by have := (List.of_mem_zip ha).1; simpa using this
          exact hl _ this

theorem atomUnits_frame {i : Issuer} {mred : Bool} {j : AtomJob} {p : PageTr} {accs : List LaneAcc} (units : List Nat) :
    ∀ {s t : State} {o : List (Nat × Nat)} {wr : Bool}, (s.team? i.unit.team).isSome = true → s.atomUnits i mred j p accs units = .ok (o, wr, t) →
    ∀ loc, (∀ va ∈ units, ∀ k < atomBytes j.ty, (pageOf [p] (va + k)).loc (va + k) ≠ loc) → t.commByte loc = s.commByte loc := by
  induction units with
  | nil => intro s t o wr ht h loc _; unfold State.atomUnits at h; cases h; rfl
  | cons va r ih =>
    intro s t o wr ht h loc hl
    unfold State.atomUnits at h
    simp only [bind, Except.bind] at h
    split at h
    · cases h
    · next x hx =>
      obtain ⟨o1, w1, s1⟩ := x
      obtain ⟨a, b⟩ := atomUnit_frame ht hx
      split at h
      · cases h
      · next y hy =>
        obtain ⟨o2, w2, s2⟩ := y
        cases h
        rw [ih a hy loc (fun v hv => hl v (List.mem_cons_of_mem _ hv)), b loc (hl va (List.mem_cons_self ..))]

theorem leNat_leBytes (n v : Nat) : leNat (leBytes n v) = v % 2 ^ (8 * n) := by
  induction n generalizing v with
  | zero => simp [leBytes, leNat, Nat.mod_one]
  | succ n ih =>
    have e : leNat (leBytes (n + 1) v) = v % 256 + 256 * leNat (leBytes n (v / 256)) := by simp [leBytes, leNat]
    rw [e, ih, show 8 * (n + 1) = 8 + 8 * n by omega, Nat.pow_add, Nat.mod_mul]

theorem spadByte_setSpad (t : Team) (va : Nat) (bs : List Byte) (a : Nat) : (t.setSpad va bs).spadByte a = if va ≤ a ∧ a < va + bs.length then bs.getD (a - va) 0 else t.spadByte a := by
  unfold Team.setSpad Team.spadByte
  exact Tab.get_setRange 0 t.spad va bs a

theorem spadNat_setSpad (t : Team) (va n : Nat) (bs : List Byte) (hb : bs.length = n) : (t.setSpad va bs).spadNat va n = leNat bs := by
  unfold Team.spadNat Team.spadBytes
  congr 1
  apply List.ext_getElem?
  intro k
  rw [List.getElem?_map]
  by_cases hk : k < n
  · rw [List.getElem?_range hk, Option.map_some, spadByte_setSpad, if_pos ⟨by omega, by omega⟩]
    rw [List.getD_eq_getElem?_getD, show va + k - va = k by omega, List.getElem?_eq_getElem (by omega)]
    rfl
  · rw [List.getElem?_eq_none (by simpa using hk), List.getElem?_eq_none (by omega)]
    rfl

theorem spadNat_other (t : Team) (va vb n : Nat) (bs : List Byte) (hb : bs.length = n) (h : vb + n ≤ va ∨ va + n ≤ vb) : (t.setSpad va bs).spadNat vb n = t.spadNat vb n := by
  unfold Team.spadNat Team.spadBytes
  congr 1
  apply List.map_congr_left
  intro k hk
  have := List.mem_range.mp hk
  rw [spadByte_setSpad, if_neg (by omega)]

def unitAt (t : Team) (j : AtomJob) (accs : List LaneAcc) (va : Nat) := j.unit (t.spadNat va (atomBytes j.ty)) ((accs.filter (fun x => x.va == va)).map (·.lane))

theorem atomUnits_spec (j : AtomJob) (accs : List LaneAcc) (units : List Nat) (hd : units.Pairwise (fun a b => b + atomBytes j.ty ≤ a ∨ a + atomBytes j.ty ≤ b)) (t : Team) :
    let r := t.atomUnits j accs units
    (∀ q, q ∈ r.1 ↔ ∃ va ∈ units, q ∈ (unitAt t j accs va).1) ∧ (r.2.1 = true ↔ ∃ va ∈ units, (unitAt t j accs va).2.isSome = true) ∧
    (∀ a, (∀ va ∈ units, a < va ∨ va + atomBytes j.ty ≤ a) → r.2.2.spadByte a = t.spadByte a) ∧
    (∀ vb, (∀ va ∈ units, vb + atomBytes j.ty ≤ va ∨ va + atomBytes j.ty ≤ vb) → r.2.2.spadNat vb (atomBytes j.ty) = t.spadNat vb (atomBytes j.ty)) ∧
    ∀ va ∈ units, r.2.2.spadNat va (atomBytes j.ty) = match (unitAt t j accs va).2 with | some v => v % 2 ^ (8 * atomBytes j.ty) | none => t.spadNat va (atomBytes j.ty) := by
  induction units generalizing t with
  | nil => exact ⟨fun q => by simp [Team.atomUnits], by simp [Team.atomUnits], fun _ _ => rfl, fun _ _ => rfl, fun _ h => (by cases h)⟩
  | cons va r ih =>
    have hp := List.pairwise_cons.mp hd
    -- the state of the scratchpad after the first unit
    obtain ⟨u, hu⟩ : ∃ u, u = (match (unitAt t j accs va).2 with | some v => t.setSpad va (leBytes (atomBytes j.ty) v) | none => t) := ⟨_, rfl⟩
    have e : t.atomUnits j accs (va :: r) = ((unitAt t j accs va).1 ++ (u.atomUnits j accs r).1, (unitAt t j accs va).2.isSome || (u.atomUnits j accs r).2.1, (u.atomUnits j accs r).2.2) := by
      rw [hu]; rfl
    have hother : ∀ vb, (vb + atomBytes j.ty ≤ va ∨ va + atomBytes j.ty ≤ vb) → u.spadNat vb (atomBytes j.ty) = t.spadNat vb (atomBytes j.ty) := by
      intro vb h
      rw [hu]
      cases (unitAt t j accs va).2 with
      | none => rfl
      | some v => exact spadNat_other _ _ _ _ _ (length_leBytes _ _) h
    have hat : ∀ vb ∈ r, unitAt u j accs vb = unitAt t j accs vb := by
      intro vb hvb
      unfold unitAt
      rw [hother vb (by have := hp.1 vb hvb; omega)]
    have hbyte : ∀ a, (a < va ∨ va + atomBytes j.ty ≤ a) → u.spadByte a = t.spadByte a := by
      intro a h
      rw [hu]
      cases (unitAt t j accs va).2 with
      | none => rfl
      | some v => simp only; rw [spadByte_setSpad, if_neg (by rw [length_leBytes]; omega)]
    obtain ⟨a1, a2, a3, a4, a5⟩ := ih hp.2 u
    rw [e]
    refine ⟨fun q => ?_, ?_, fun a h => ?_, fun vb h => ?_, fun vb hvb => ?_⟩
    · simp only [List.mem_append, a1, List.mem_cons, exists_eq_or_imp]
      constructor
      · rintro (h | ⟨vb, hb, h⟩)
        · exact .inl h
        · exact .inr ⟨vb, hb, by rw [← hat vb hb]; exact h⟩
      · rintro (h | ⟨vb, hb, h⟩)
        · exact .inl h
        · exact .inr ⟨vb, hb, by rw [hat vb hb]; exact h⟩
    · simp only [Bool.or_eq_true, a2, List.mem_cons, exists_eq_or_imp]
      constructor
      · rintro (h | ⟨vb, hb, h⟩)
        · exact .inl h
        · exact .inr ⟨vb, hb, by rw [← hat vb hb]; exact h⟩
      · rintro (h | ⟨vb, hb, h⟩)
        · exact .inl h
        · exact .inr ⟨vb, hb, by rw [hat vb hb]; exact h⟩
    · rw [a3 a (fun v hv => h v (List.mem_cons_of_mem _ hv)), hbyte a (h va (List.mem_cons_self ..))]
    · rw [a4 vb (fun v hv => h v (List.mem_cons_of_mem _ hv)), hother vb (h va (List.mem_cons_self ..))]
    · rcases List.mem_cons.mp hvb with h | h
      · subst h
        simp only
        rw [a4 vb (fun v hv => by have := hp.1 v hv; omega), hu]
        cases (unitAt t j accs vb).2 with
        | none => rfl
        | some v =>
          simp only
          rw [spadNat_setSpad _ _ _ _ (length_leBytes _ _), leNat_leBytes]
      · simp only
        rw [a5 vb h, hat vb h, hother vb (by have := hp.1 vb h; omega)]

theorem leNat_lt (l : List Byte) : leNat l < 2 ^ (8 * l.length) := by
  induction l with
  | nil => simp [leNat]
  | cons b r ih =>
    have e : leNat (b :: r) = b.toNat + 256 * leNat r := rfl
    rw [e, List.length_cons, show 8 * (r.length + 1) = 8 + 8 * r.length by omega, Nat.pow_add]
    have := b.isLt
    omega

theorem eraseDups_nodup {α : Type} [BEq α] [LawfulBEq α] (l : List α) : l.eraseDups.Nodup := by
  suffices h : ∀ n (l : List α), l.length ≤ n → l.eraseDups.Nodup from h l.length l (Nat.le_refl _)
  intro n
  induction n with
  | zero =>
    intro l h
    have : l = [] := List.length_eq_zero_iff.mp (by omega)
    subst this; simp
  | succ n ih =>
    intro l h
    cases l with
    | nil => simp
    | cons a r =>
      rw [List.eraseDups_cons]
      refine List.nodup_cons.mpr ⟨fun hm => ?_, ih _ (Nat.le_trans (List.length_filter_le ..) (by simpa using h))⟩
      simp at hm

theorem units_apart {l : List Nat} {n : Nat} (hn : l.Nodup) (hd : ∀ a ∈ l, a % n = 0) : l.Pairwise (fun a b => b + n ≤ a ∨ a + n ≤ b) := by
  refine hn.imp_of_mem ?_
  intro a b ha hb hne
  obtain ⟨x, rfl⟩ := Nat.dvd_of_mod_eq_zero (hd a ha)
  obtain ⟨y, rfl⟩ := Nat.dvd_of_mod_eq_zero (hd b hb)
  have hxy : x ≠ y := fun e => hne (by rw [e])
  rcases Nat.lt_or_gt_of_ne hxy with h | h
  · right; calc n * x + n = n * (x + 1) := by rw [Nat.mul_add, Nat.mul_one]
      _ ≤ n * y := Nat.mul_le_mul_left _ h
  · left; calc n * y + n = n * (y + 1) := by rw [Nat.mul_add, Nat.mul_one]
      _ ≤ n * x := Nat.mul_le_mul_left _ h

end Sys2Proof.Machine
end

