-- ==== Sys2Proof/Laws/Encoding.lean ====
section
/-! SUPPORT. Packing a word and reading its fields agree (R204, R213 to R219): the lemmas that the round trip of the decoder
rests on. -/

namespace Sys2Proof

/-- The fields read from a packed word, by the widths they were packed with. -/
theorem unpack_pack (l : List (Nat × Nat)) (h : ∀ p ∈ l, p.2 < 2 ^ p.1) : unpackFields (l.map Prod.fst) (packFields l) = l.map Prod.snd := by
  induction l with
  | nil => rfl
  | cons p r ih =>
    obtain ⟨w, v⟩ := p
    have hv : v < 2 ^ w := h (w, v) (List.mem_cons_self ..)
    have hp : 0 < 2 ^ w := Nat.two_pow_pos w
    simp only [List.map_cons, unpackFields, packFields, Nat.mod_eq_of_lt hv]
    rw [Nat.add_mul_mod_self_left, Nat.mod_eq_of_lt hv, Nat.add_mul_div_left _ _ hp, Nat.div_eq_of_lt hv, Nat.zero_add,
      ih (fun q hq => h q (List.mem_cons_of_mem _ hq))]

/-- A packed word is no wider than its fields together. -/
theorem packFields_lt (l : List (Nat × Nat)) : packFields l < 2 ^ (l.map Prod.fst).sum := by
  induction l with
  | nil => simp [packFields]
  | cons p r ih =>
    obtain ⟨w, v⟩ := p
    have h1 : v % 2 ^ w < 2 ^ w := Nat.mod_lt _ (Nat.two_pow_pos w)
    simp only [packFields, List.map_cons, List.sum_cons, Nat.pow_add]
    calc v % 2 ^ w + 2 ^ w * packFields r < 2 ^ w + 2 ^ w * packFields r := by omega
      _ = 2 ^ w * (packFields r + 1) := by rw [Nat.mul_add, Nat.mul_one, Nat.add_comm]
      _ ≤ 2 ^ w * 2 ^ (r.map Prod.fst).sum := Nat.mul_le_mul_left _ ih

-- code tables

theorem scope_code (x : Scope) : codeToVal scopeTab (valToCode scopeTab x) = some x ∧ valToCode scopeTab x < 2 ^ 2 := by cases x <;> decide
theorem ty_code (x : Ty) : codeToVal tyTab (valToCode tyTab x) = some x ∧ valToCode tyTab x < 2 ^ 5 := by cases x <;> decide
theorem rm_code (x : Rm) : codeToVal rmTab (valToCode rmTab x) = some x ∧ valToCode rmTab x < 2 ^ 3 := by cases x <;> decide
theorem size_code (x : Size) : codeToVal sizeTab (valToCode sizeTab x) = some x ∧ valToCode sizeTab x < 2 ^ 4 := by cases x <;> decide
theorem ord_code (x : MemOrder) : codeToVal ordTab (valToCode ordTab x) = some x ∧ valToCode ordTab x < 2 ^ 3 := by cases x <;> decide
theorem vis_code (x : Vis) : codeToVal visTab (valToCode visTab x) = some x ∧ valToCode visTab x < 2 ^ 2 := by cases x <;> decide
theorem hint_code (x : Hint) : codeToVal hintTab (valToCode hintTab x) = some x ∧ valToCode hintTab x < 2 ^ 2 := by cases x <;> decide
theorem space_code (x : Space) : codeToVal spaceTab (valToCode spaceTab x) = some x ∧ valToCode spaceTab x < 2 ^ 2 := by cases x <;> decide

/-- An operand is read back from its specifier (R219). -/
theorem operand_code (o : Operand) : Operand.ofCode o.code = some o ∧ o.code < 2 ^ 11 := by
  cases o with
  | m i => revert i; decide
  | g i => revert i; decide
  | v i =>
    have e1 : (i.toNat) / 256 = 0 := by omega
    have e2 : (i.toNat) % 256 = i.toNat := by omega
    exact ⟨by simp only [Operand.ofCode, Operand.code, e1, e2, BitVec.ofNat_toNat, BitVec.setWidth_eq], by simp only [Operand.code]; omega⟩
  | n i =>
    have e1 : (0x100 + i.toNat) / 256 = 1 := by omega
    have e2 : (0x100 + i.toNat) % 256 = i.toNat := by omega
    exact ⟨by simp only [Operand.ofCode, Operand.code, e1, e2, BitVec.ofNat_toNat, BitVec.setWidth_eq], by simp only [Operand.code]; omega⟩
  | b i =>
    have e1 : (0x200 + i.toNat) / 256 = 2 := by omega
    have e2 : (0x200 + i.toNat) % 256 = i.toNat := by omega
    exact ⟨by simp only [Operand.ofCode, Operand.code, e1, e2, BitVec.ofNat_toNat, BitVec.setWidth_eq], by simp only [Operand.code]; omega⟩
  | s i =>
    have e1 : (0x300 + i.toNat) / 256 = 3 := by omega
    have e2 : (0x300 + i.toNat) % 256 = i.toNat := by omega
    exact ⟨by simp only [Operand.ofCode, Operand.code, e1, e2, BitVec.ofNat_toNat, BitVec.setWidth_eq], by simp only [Operand.code]; omega⟩
  | x i =>
    have e1 : (0x400 + i.toNat) / 256 = 4 := by omega
    have e2 : (0x400 + i.toNat) % 256 = i.toNat := by omega
    exact ⟨by simp only [Operand.ofCode, Operand.code, e1, e2, BitVec.ofNat_toNat, BitVec.setWidth_eq], by simp only [Operand.code]; omega⟩
  | t i =>
    have e1 : (0x500 + i.toNat) / 256 = 5 := by omega
    have e2 : (0x500 + i.toNat) % 256 = i.toNat := by omega
    exact ⟨by simp only [Operand.ofCode, Operand.code, e1, e2, BitVec.ofNat_toNat, BitVec.setWidth_eq], by simp only [Operand.code]; omega⟩
  | imm i =>
    have e1 : (0x700 + i.toNat) / 256 = 7 := by omega
    have e2 : (0x700 + i.toNat) % 256 = i.toNat := by omega
    exact ⟨by simp only [Operand.ofCode, Operand.code, e1, e2, BitVec.ofNat_toNat, BitVec.setWidth_eq], by simp only [Operand.code]; omega⟩

/-- E is read back from its specifier (R218). -/
theorem ext_code (e : ExtOperand) : ExtOperand.ofCode e.code = some e ∧ e.code < 2 ^ 10 := by
  cases e with
  | v i =>
    have e1 : (i.toNat) / 256 = 0 := by omega
    have e2 : (i.toNat) % 256 = i.toNat := by omega
    exact ⟨by simp only [ExtOperand.ofCode, ExtOperand.code, e1, e2, BitVec.ofNat_toNat, BitVec.setWidth_eq], by simp only [ExtOperand.code]; omega⟩
  | s i =>
    have e1 : (0x100 + i.toNat) / 256 = 1 := by omega
    have e2 : (0x100 + i.toNat) % 256 = i.toNat := by omega
    exact ⟨by simp only [ExtOperand.ofCode, ExtOperand.code, e1, e2, BitVec.ofNat_toNat, BitVec.setWidth_eq], by simp only [ExtOperand.code]; omega⟩
  | t i =>
    have e1 : (0x200 + i.toNat) / 256 = 2 := by omega
    have e2 : (0x200 + i.toNat) % 256 = i.toNat := by omega
    exact ⟨by simp only [ExtOperand.ofCode, ExtOperand.code, e1, e2, BitVec.ofNat_toNat, BitVec.setWidth_eq], by simp only [ExtOperand.code]; omega⟩

/-- A header is read back from its fields (R213). -/
theorem hdr_code (h : Hdr) : Hdr.ofFields (valToCode scopeTab h.scp) h.la.toNat h.msel.toNat h.mneg.toNat = some h := by
  unfold Hdr.ofFields
  rw [(scope_code h.scp).1]
  cases h with
  | mk a b c d => cases d <;> simp

/-- A field of one bit. -/
theorem bool_code (b : Bool) : ((b.toNat == 1) = b) ∧ b.toNat < 2 ^ 1 := by cases b <;> decide

/-- A raw word whose parts the slot can hold: the opcode has the word's format, and the operands use the form it selects
(R214, R215). -/
def RawWord.Fits : RawWord → Prop
  | .r opc fn _ f => opc < 256 ∧ fn < 256 ∧ (match f.b with
      | .op _ => opFormat opc = some .r ∨ (opFormat opc = some .ri ∧ f.c = .zero)
      | .imm32 _ => opFormat opc = some .ri ∧ f.c = .zero ∧ f.sat = false ∧ f.xt = 0)
  | .i opc _ _ => opc < 256 ∧ opFormat opc = some .i
  | .m opc fn _ _ => opc < 256 ∧ fn < 256 ∧ opFormat opc = some .m
  | .b opc cond _ _ _ => opc < 256 ∧ cond < 64 ∧ opFormat opc = some .b
  | .t opc fn _ _ => opc < 256 ∧ fn < 256 ∧ opFormat opc = some .t

/-- The low byte of a packed word is its first field. -/
theorem pack_opc {opc : Nat} {l : List (Nat × Nat)} (h : opc < 256) : packFields ((8, opc) :: l) % 256 = opc := by
  show (opc % 2 ^ 8 + 2 ^ 8 * packFields l) % 256 = opc
  omega

/-- A word of format R is read back. -/
theorem unpackR_pack {opc fn : Nat} {h : Hdr} {f : FmtR} {o : Operand} (hb : f.b = .op o) (h1 : opc < 256) (h2 : fn < 256) :
    unpackR (RawWord.pack (.r opc fn h f)) = some (.r opc fn h f) := by
  obtain ⟨d, a, b, c, ty, rm, sat, ccw, xt⟩ := f
  subst hb
  unfold unpackR RawWord.pack
  dsimp only [Hdr.fields, List.cons_append, List.nil_append]
  have e := unpack_pack [(8, opc), (2, valToCode scopeTab h.scp), (4, h.la.toNat), (3, h.msel.toNat), (1, h.mneg.toNat), (11, d.code), (11, a.code),
    (11, o.code), (11, c.code), (5, valToCode tyTab ty), (3, valToCode rmTab rm), (1, sat.toNat), (1, ccw.toNat), (8, fn), (16, xt.toNat)] (by
      have := (scope_code h.scp).2; have := (operand_code d).2; have := (operand_code a).2; have := (operand_code o).2; have := (operand_code c).2
      have := (ty_code ty).2; have := (rm_code rm).2; have := (bool_code sat).2; have := (bool_code ccw).2; have := (bool_code h.mneg).2
      have := h.la.isLt; have := h.msel.isLt; have := xt.isLt
      simp only [List.forall_mem_cons, List.not_mem_nil, false_implies, implies_true, and_true]
      refine ⟨?_, ?_, ?_, ?_, ?_, ?_, ?_, ?_, ?_, ?_, ?_, ?_, ?_, ?_, ?_⟩ <;> assumption)
  simp only [List.map_cons, List.map_nil] at e
  rw [show layoutR = [8, 2, 4, 3, 1, 11, 11, 11, 11, 5, 3, 1, 1, 8, 16] from rfl, e]
  simp only [hdr_code, (operand_code d).1, (operand_code a).1, (operand_code o).1, (operand_code c).1, (ty_code ty).1, (rm_code rm).1, bool_code,
    BitVec.ofNat_toNat, BitVec.setWidth_eq, bind, Option.bind]

/-- A word of form I is read back. -/
theorem unpackI_pack {opc fn : Nat} {h : Hdr} {f : FmtR} {v : W32} (hb : f.b = .imm32 v) (hc : f.c = .zero) (hs : f.sat = false) (hx : f.xt = 0)
    (h1 : opc < 256) (h2 : fn < 256) :
    unpackI (RawWord.pack (.r opc fn h f)) = some (.r opc fn h f) := by
  obtain ⟨d, a, b, c, ty, rm, sat, ccw, xt⟩ := f
  cases hb; cases hc; cases hs; cases hx
  unfold unpackI RawWord.pack
  dsimp only [Hdr.fields, List.cons_append, List.nil_append]
  have e := unpack_pack [(8, opc), (2, valToCode scopeTab h.scp), (4, h.la.toNat), (3, h.msel.toNat), (1, h.mneg.toNat), (11, d.code), (11, a.code), (8, fn), (5, valToCode tyTab ty), (3, valToCode rmTab rm), (1, ccw.toNat), (1, 1), (6, 0), (32, v.toNat)] (by
      have := (scope_code h.scp).2; have := h.la.isLt; have := h.msel.isLt; have := (bool_code h.mneg).2
      have := (operand_code d).2; have := (operand_code a).2; have := (ty_code ty).2; have := (rm_code rm).2; have := (bool_code ccw).2; have := v.isLt
      simp only [List.forall_mem_cons, List.not_mem_nil, false_implies, implies_true, and_true]
      refine ⟨?_, ?_, ?_, ?_, ?_, ?_, ?_, ?_, ?_, ?_, ?_, ?_, ?_, ?_⟩ <;> first | assumption | decide)
  simp only [List.map_cons, List.map_nil] at e
  rw [show layoutI = [8, 2, 4, 3, 1, 11, 11, 8, 5, 3, 1, 1, 6, 32] from rfl, e]
  simp only [hdr_code, (operand_code d).1, (operand_code a).1, (ty_code ty).1, (rm_code rm).1, bool_code, BitVec.ofNat_toNat, BitVec.setWidth_eq, bind, Option.bind]
  try rfl

/-- A word that has form I only is read back. -/
theorem unpackIOnly_pack {opc : Nat} {h : Hdr} {imm : W32} (h1 : opc < 256) :
    unpackIOnly (RawWord.pack (.i opc h imm)) = some (.i opc h imm) := by
  unfold unpackIOnly RawWord.pack
  dsimp only [Hdr.fields, List.cons_append, List.nil_append]
  have e := unpack_pack [(8, opc), (2, valToCode scopeTab h.scp), (4, h.la.toNat), (3, h.msel.toNat), (1, h.mneg.toNat), (11, 0), (11, 0), (8, 0), (5, 0), (3, 7), (1, 0), (1, 0), (6, 0), (32, imm.toNat)] (by
      have := (scope_code h.scp).2; have := h.la.isLt; have := h.msel.isLt; have := (bool_code h.mneg).2
      have := imm.isLt
      simp only [List.forall_mem_cons, List.not_mem_nil, false_implies, implies_true, and_true]
      refine ⟨?_, ?_, ?_, ?_, ?_, ?_, ?_, ?_, ?_, ?_, ?_, ?_, ?_, ?_⟩ <;> first | assumption | decide)
  simp only [List.map_cons, List.map_nil] at e
  rw [show layoutI = [8, 2, 4, 3, 1, 11, 11, 8, 5, 3, 1, 1, 6, 32] from rfl, e]
  simp only [hdr_code, BitVec.ofNat_toNat, BitVec.setWidth_eq, bind, Option.bind]
  try rfl

/-- A word of format M is read back. -/
theorem unpackM_pack {opc fn : Nat} {h : Hdr} {f : FmtM} (h1 : opc < 256) (h2 : fn < 256) :
    unpackM (RawWord.pack (.m opc fn h f)) = some (.m opc fn h f) := by
  unfold unpackM RawWord.pack
  dsimp only [Hdr.fields, List.cons_append, List.nil_append]
  have e := unpack_pack [(8, opc), (2, valToCode scopeTab h.scp), (4, h.la.toNat), (3, h.msel.toNat), (1, h.mneg.toNat), (11, f.d.code), (11, f.a.code), (11, f.b.code), (4, valToCode sizeTab f.sz), (3, valToCode ordTab f.ord), (2, valToCode visTab f.vis), (2, valToCode hintTab f.ch), (2, valToCode spaceTab f.space), (8, fn), (24, f.off.toNat)] (by
      have := (scope_code h.scp).2; have := h.la.isLt; have := h.msel.isLt; have := (bool_code h.mneg).2
      have := (operand_code f.d).2; have := (operand_code f.a).2; have := (operand_code f.b).2; have := (size_code f.sz).2; have := (ord_code f.ord).2
      have := (vis_code f.vis).2; have := (hint_code f.ch).2; have := (space_code f.space).2; have := f.off.isLt
      simp only [List.forall_mem_cons, List.not_mem_nil, false_implies, implies_true, and_true]
      refine ⟨?_, ?_, ?_, ?_, ?_, ?_, ?_, ?_, ?_, ?_, ?_, ?_, ?_, ?_, ?_⟩ <;> first | assumption | decide)
  simp only [List.map_cons, List.map_nil] at e
  rw [show layoutM = [8, 2, 4, 3, 1, 11, 11, 11, 4, 3, 2, 2, 2, 8, 24] from rfl, e]
  simp only [hdr_code, (operand_code f.d).1, (operand_code f.a).1, (operand_code f.b).1, (size_code f.sz).1, (ord_code f.ord).1, (vis_code f.vis).1, (hint_code f.ch).1, (space_code f.space).1,
    BitVec.ofNat_toNat, BitVec.setWidth_eq, bind, Option.bind]
  try rfl

/-- A word of format B is read back. -/
theorem unpackB_pack {opc cond : Nat} {h : Hdr} {a : Operand} {disp : W32} (h1 : opc < 256) (h2 : cond < 64) :
    unpackB (RawWord.pack (.b opc cond h a disp)) = some (.b opc cond h a disp) := by
  unfold unpackB RawWord.pack
  dsimp only [Hdr.fields, List.cons_append, List.nil_append]
  have e := unpack_pack [(8, opc), (2, valToCode scopeTab h.scp), (4, h.la.toNat), (3, h.msel.toNat), (1, h.mneg.toNat), (6, cond), (5, 0), (11, a.code), (24, 0), (32, disp.toNat)] (by
      have := (scope_code h.scp).2; have := h.la.isLt; have := h.msel.isLt; have := (bool_code h.mneg).2
      have := (operand_code a).2; have := disp.isLt
      simp only [List.forall_mem_cons, List.not_mem_nil, false_implies, implies_true, and_true]
      refine ⟨?_, ?_, ?_, ?_, ?_, ?_, ?_, ?_, ?_, ?_⟩ <;> first | assumption | decide)
  simp only [List.map_cons, List.map_nil] at e
  rw [show layoutB = [8, 2, 4, 3, 1, 6, 5, 11, 24, 32] from rfl, e]
  simp only [hdr_code, (operand_code a).1, BitVec.ofNat_toNat, BitVec.setWidth_eq, bind, Option.bind]
  try rfl

/-- A word of format T is read back. -/
theorem unpackT_pack {opc fn : Nat} {h : Hdr} {f : FmtT} (h1 : opc < 256) (h2 : fn < 256) :
    unpackT (RawWord.pack (.t opc fn h f)) = some (.t opc fn h f) := by
  unfold unpackT RawWord.pack
  dsimp only [Hdr.fields, List.cons_append, List.nil_append]
  have e := unpack_pack [(8, opc), (2, valToCode scopeTab h.scp), (4, h.la.toNat), (3, h.msel.toNat), (1, h.mneg.toNat), (11, f.d.code), (11, f.a.code), (11, f.b.code), (11, f.c.code), (8, fn), (10, f.e.code), (16, f.imm.toNat)] (by
      have := (scope_code h.scp).2; have := h.la.isLt; have := h.msel.isLt; have := (bool_code h.mneg).2
      have := (operand_code f.d).2; have := (operand_code f.a).2; have := (operand_code f.b).2; have := (operand_code f.c).2; have := (ext_code f.e).2; have := f.imm.isLt
      simp only [List.forall_mem_cons, List.not_mem_nil, false_implies, implies_true, and_true]
      refine ⟨?_, ?_, ?_, ?_, ?_, ?_, ?_, ?_, ?_, ?_, ?_, ?_⟩ <;> first | assumption | decide)
  simp only [List.map_cons, List.map_nil] at e
  rw [show layoutT = [8, 2, 4, 3, 1, 11, 11, 11, 11, 8, 10, 16] from rfl, e]
  simp only [hdr_code, (operand_code f.d).1, (operand_code f.a).1, (operand_code f.b).1, (operand_code f.c).1, (ext_code f.e).1, BitVec.ofNat_toNat, BitVec.setWidth_eq, bind, Option.bind]
  try rfl

/-- A packed word cut into two. -/
theorem pack_append (l r : List (Nat × Nat)) : packFields (l ++ r) = packFields l + 2 ^ (l.map Prod.fst).sum * packFields r := by
  induction l with
  | nil => simp [packFields]
  | cons p l ih =>
    obtain ⟨w, v⟩ := p
    simp only [List.cons_append, packFields, ih, List.map_cons, List.sum_cons, Nat.pow_add, Nat.mul_add, Nat.mul_assoc, Nat.add_assoc]

theorem packFields_lt_of {l : List (Nat × Nat)} {n : Nat} (h : (l.map Prod.fst).sum = n) : packFields l < 2 ^ n := h ▸ packFields_lt l

/-- The word of an instruction of format R. -/
theorem pack_op {opc fn : Nat} {h : Hdr} {f : FmtR} {o : Operand} (hb : f.b = .op o) : RawWord.pack (.r opc fn h f) = packFields (h.fields opc ++
    [(11, f.d.code), (11, f.a.code), (11, o.code), (11, f.c.code), (5, valToCode tyTab f.ty), (3, valToCode rmTab f.rm),
     (1, f.sat.toNat), (1, f.ccw.toNat), (8, fn), (16, f.xt.toNat)]) := by
  unfold RawWord.pack; dsimp only; rw [hb]

/-- The word of an instruction of form I. -/
theorem pack_imm {opc fn : Nat} {h : Hdr} {f : FmtR} {v : W32} (hb : f.b = .imm32 v) : RawWord.pack (.r opc fn h f) = packFields (h.fields opc ++
    [(11, f.d.code), (11, f.a.code), (8, fn), (5, valToCode tyTab f.ty), (3, valToCode rmTab f.rm), (1, f.ccw.toNat), (1, 1), (6, 0), (32, v.toNat)]) := by
  unfold RawWord.pack; dsimp only; rw [hb]

/-- Every raw word is one slot wide (R204). -/
theorem RawWord.pack_lt (r : RawWord) : r.pack < 2 ^ 96 := by
  cases r with
  | r opc fn h f =>
    cases hb : f.b with
    | op o => rw [pack_op hb]; exact packFields_lt_of (by simp [Hdr.fields])
    | imm32 v => rw [pack_imm hb]; exact packFields_lt_of (by simp [Hdr.fields])
  | i opc h imm => exact packFields_lt_of (by simp [Hdr.fields])
  | m opc fn h f => exact packFields_lt_of (by simp [Hdr.fields])
  | b opc cond h a disp => exact packFields_lt_of (by simp [Hdr.fields])
  | t opc fn h f => exact packFields_lt_of (by simp [Hdr.fields])

/-- Bit 57 of a word of format R without a C operand is 0 (R215). -/
theorem pack_bit57_op {opc fn : Nat} {h : Hdr} {f : FmtR} {o : Operand} (hb : f.b = .op o) (hc : f.c = .zero) :
    RawWord.pack (.r opc fn h f) / 2 ^ 57 % 2 = 0 := by
  rw [pack_op hb, hc]
  have e : ∀ rest, packFields (h.fields opc ++ ((11, f.d.code) :: (11, f.a.code) :: (11, o.code) :: (11, Operand.zero.code) :: rest)) / 2 ^ 57 % 2 = 0 := by
    intro rest
    have e1 := pack_append (h.fields opc ++ [(11, f.d.code), (11, f.a.code), (11, o.code)]) ((11, Operand.zero.code) :: rest)
    have e2 := packFields_lt (h.fields opc ++ [(11, f.d.code), (11, f.a.code), (11, o.code)])
    have hs : ((h.fields opc ++ [(11, f.d.code), (11, f.a.code), (11, o.code)]).map Prod.fst).sum = 51 := by simp [Hdr.fields]
    rw [hs] at e1 e2
    rw [show packFields ((11, Operand.zero.code) :: rest) = 2 ^ 11 * packFields rest from by
      show 0 % 2 ^ 11 + 2 ^ 11 * packFields rest = _; omega] at e1
    rw [List.append_assoc] at e1
    simp only [List.cons_append, List.nil_append] at e1
    rw [e1]
    omega
  exact e _

/-- Bit 57 of a word of form I is 1 (R215). -/
theorem pack_bit57_imm {opc fn : Nat} {h : Hdr} {f : FmtR} {v : W32} (hb : f.b = .imm32 v) : RawWord.pack (.r opc fn h f) / 2 ^ 57 % 2 = 1 := by
  rw [pack_imm hb]
  have e1 := pack_append (h.fields opc ++ [(11, f.d.code), (11, f.a.code), (8, fn), (5, valToCode tyTab f.ty), (3, valToCode rmTab f.rm), (1, f.ccw.toNat)])
    [(1, 1), (6, 0), (32, v.toNat)]
  have e2 := packFields_lt (h.fields opc ++ [(11, f.d.code), (11, f.a.code), (8, fn), (5, valToCode tyTab f.ty), (3, valToCode rmTab f.rm), (1, f.ccw.toNat)])
  have hs : ((h.fields opc ++ [(11, f.d.code), (11, f.a.code), (8, fn), (5, valToCode tyTab f.ty), (3, valToCode rmTab f.rm), (1, f.ccw.toNat)]).map Prod.fst).sum = 57 := by
    simp [Hdr.fields]
  rw [hs] at e1 e2
  rw [List.append_assoc] at e1
  simp only [List.cons_append, List.nil_append] at e1
  rw [e1]
  rw [show packFields [(1, 1), (6, 0), (32, v.toNat)] = 1 % 2 ^ 1 + 2 ^ 1 * packFields [(6, 0), (32, v.toNat)] from rfl]
  omega

/-- A raw word that fits is read back from its packing (R214, R215, R225). -/
theorem unpackSlot_pack {r : RawWord} (h : r.Fits) : unpackSlot r.pack = some r := by
  have opc : ∀ (opc : Nat) (h : Hdr) (l : List (Nat × Nat)), opc < 256 → packFields (h.fields opc ++ l) % 256 = opc := fun _ _ _ h => pack_opc h
  cases r with
  | r o fn hd f =>
    obtain ⟨h1, h2, h3⟩ := h
    have e : RawWord.pack (.r o fn hd f) % 256 = o := by
      cases hb : f.b with
      | op p => rw [pack_op hb]; exact opc _ _ _ h1
      | imm32 v => rw [pack_imm hb]; exact opc _ _ _ h1
    unfold unpackSlot
    rw [e]
    cases hb : f.b with
    | op p =>
      rw [hb] at h3
      rcases h3 with h3 | ⟨h3, h4⟩
      · rw [h3]; exact unpackR_pack hb h1 h2
      · rw [h3]; dsimp only; rw [pack_bit57_op hb h4]; exact unpackR_pack hb h1 h2
    | imm32 v =>
      rw [hb] at h3
      obtain ⟨h3, h4, h5, h6⟩ := h3
      rw [h3]; dsimp only; rw [pack_bit57_imm hb]; exact unpackI_pack hb h4 h5 h6 h1 h2
  | i o hd imm =>
    unfold unpackSlot
    rw [show RawWord.pack (.i o hd imm) % 256 = o from opc _ _ _ h.1, h.2]
    exact unpackIOnly_pack h.1
  | m o fn hd f =>
    unfold unpackSlot
    rw [show RawWord.pack (.m o fn hd f) % 256 = o from opc _ _ _ h.1, h.2.2]
    exact unpackM_pack h.1 h.2.1
  | b o cond hd a disp =>
    unfold unpackSlot
    rw [show RawWord.pack (.b o cond hd a disp) % 256 = o from opc _ _ _ h.1, h.2.2]
    exact unpackB_pack h.1 h.2.1
  | t o fn hd f =>
    unfold unpackSlot
    rw [show RawWord.pack (.t o fn hd f) % 256 = o from opc _ _ _ h.1, h.2.2]
    exact unpackT_pack h.1 h.2.1

/-- A table whose values differ gives back the code of a value read from it. -/
theorem code_val {α : Type} [DecidableEq α] {n : Nat} {x : α} (tab : List (Nat × α)) (hn : (tab.map Prod.snd).Nodup) (h : codeToVal tab n = some x) :
    valToCode tab x = n := by
  induction tab with
  | nil => simp [codeToVal] at h
  | cons p r ih =>
    obtain ⟨k, y⟩ := p
    simp only [List.map_cons, List.nodup_cons] at hn
    by_cases e : k = n
    · subst e
      have : y = x := by simpa [codeToVal] using h
      subst this
      simp [valToCode]
    · have h' : codeToVal r n = some x := by simpa [codeToVal, e] using h
      have hx : x ∈ r.map Prod.snd := by
        unfold codeToVal at h'
        obtain ⟨q, hq, rfl⟩ := Option.map_eq_some_iff.mp h'
        exact List.mem_map_of_mem (List.mem_of_find?_eq_some hq)
      have hy : y ≠ x := fun he => hn.1 (he ▸ hx)
      have := ih hn.2 h'
      simpa [valToCode, hy] using this

/-- A word packed again from its fields. -/
theorem pack_unpack (ws : List Nat) (w : Nat) (h : w < 2 ^ ws.sum) : packFields (ws.zip (unpackFields ws w)) = w := by
  induction ws generalizing w with
  | nil => simp only [List.sum_nil, Nat.pow_zero, Nat.lt_one_iff] at h; subst h; rfl
  | cons k r ih =>
    have hp : 0 < 2 ^ k := Nat.two_pow_pos k
    simp only [unpackFields, List.zip_cons_cons, packFields, Nat.mod_mod]
    rw [ih (w / 2 ^ k) (by rw [List.sum_cons, Nat.pow_add] at h; exact Nat.div_lt_of_lt_mul h)]
    exact Nat.mod_add_div w (2 ^ k)

/-- An operand read from a specifier has that specifier (R219). -/
theorem operand_val {n : Nat} {o : Operand} (hn : n < 2 ^ 11) (h : Operand.ofCode n = some o) : o.code = n := by
  have hq : n / 256 < 8 := by omega
  unfold Operand.ofCode at h
  dsimp only at h
  generalize hk : n / 256 = k at h hq
  have hm : n % 256 < 256 := Nat.mod_lt _ (by decide)
  have hd : n = 256 * k + n % 256 := by omega
  match k, hq with
  | 0, _ => cases h; simp only [Operand.code, BitVec.toNat_ofNat]; omega
  | 1, _ => cases h; simp only [Operand.code, BitVec.toNat_ofNat]; omega
  | 2, _ => cases h; simp only [Operand.code, BitVec.toNat_ofNat]; omega
  | 3, _ => cases h; simp only [Operand.code, BitVec.toNat_ofNat]; omega
  | 4, _ => cases h; simp only [Operand.code, BitVec.toNat_ofNat]; omega
  | 5, _ => cases h; simp only [Operand.code, BitVec.toNat_ofNat]; omega
  | 6, _ =>
    change (if n % 256 < 8 then some (Operand.m (BitVec.ofNat 3 (n % 256))) else if n % 256 < 16 then some (.g (BitVec.ofNat 3 (n % 256 - 8))) else none) = some o at h
    split at h
    · cases h; simp only [Operand.code, BitVec.toNat_ofNat]; omega
    · split at h
      · cases h; simp only [Operand.code, BitVec.toNat_ofNat]; omega
      · cases h
  | 7, _ => cases h; simp only [Operand.code, BitVec.toNat_ofNat]; omega

/-- E likewise (R218). -/
theorem ext_val {n : Nat} {e : ExtOperand} (hn : n < 2 ^ 10) (h : ExtOperand.ofCode n = some e) : e.code = n := by
  have hq : n / 256 < 4 := by omega
  unfold ExtOperand.ofCode at h
  generalize hk : n / 256 = k at h hq
  have hm : n % 256 < 256 := Nat.mod_lt _ (by decide)
  match k, hq with
  | 0, _ => cases h; simp only [ExtOperand.code, BitVec.toNat_ofNat]; omega
  | 1, _ => cases h; simp only [ExtOperand.code, BitVec.toNat_ofNat]; omega
  | 2, _ => cases h; simp only [ExtOperand.code, BitVec.toNat_ofNat]; omega
  | 3, _ => cases h

/-- The fields of a header read from a word. -/
theorem hdr_val {scp la msel mneg : Nat} {h : Hdr} (h1 : la < 2 ^ 4) (h2 : msel < 2 ^ 3) (h3 : mneg < 2 ^ 1) (e : Hdr.ofFields scp la msel mneg = some h) (opc : Nat) :
    h.fields opc = [(8, opc), (2, scp), (4, la), (3, msel), (1, mneg)] := by
  unfold Hdr.ofFields at e
  obtain ⟨s, hs, rfl⟩ := Option.map_eq_some_iff.mp e
  unfold Hdr.fields
  have e1 : (BitVec.ofNat 4 la).toNat = la := by simp only [BitVec.toNat_ofNat]; exact Nat.mod_eq_of_lt h1
  have e2 : (BitVec.ofNat 3 msel).toNat = msel := by simp only [BitVec.toNat_ofNat]; exact Nat.mod_eq_of_lt h2
  have e3 : (mneg == 1).toNat = mneg := by
    have : mneg = 0 ∨ mneg = 1 := by omega
    rcases this with rfl | rfl <;> rfl
  rw [code_val scopeTab (by decide) hs, e1, e2, e3]

/-- A bit read as a Bool and written again. -/
theorem bit_val {n : Nat} (h : n < 2 ^ 1) : (n == 1).toNat = n := by
  have : n = 0 ∨ n = 1 := by omega
  rcases this with rfl | rfl <;> rfl

/-- A field read as a bit vector and written again. -/
theorem ofNat_val {k n : Nat} (h : n < 2 ^ k) : (BitVec.ofNat k n).toNat = n := by
  rw [BitVec.toNat_ofNat]; exact Nat.mod_eq_of_lt h


/-- The fields of a word fit their widths. -/
theorem unpack_lt (ws : List Nat) (w : Nat) : ∀ q ∈ ws.zip (unpackFields ws w), q.2 < 2 ^ q.1 := by
  induction ws generalizing w with
  | nil => intro q hq; cases hq
  | cons k r ih =>
    intro q hq
    rcases List.mem_cons.mp hq with rfl | hq
    · exact Nat.mod_lt _ (Nat.two_pow_pos k)
    · exact ih _ q hq

/-- A word of format R is what packing its fields gives. -/
theorem unpackR_val {w : Nat} {r : RawWord} (hw : w < 2 ^ 96) (h : unpackR w = some r) : r.pack = w := by
  have p := pack_unpack layoutR w hw
  have b := unpack_lt layoutR w
  unfold unpackR at h
  generalize unpackFields layoutR w = l at h p b
  split at h
  next opc scp la msel mneg d a b c ty rm sat ccw fn xt =>
    simp only [layoutR, layoutH, List.cons_append, List.nil_append, List.zip_cons_cons, List.zip_nil_right, List.forall_mem_cons] at p b
    obtain ⟨b1, b2, b3, b4, b5, b6, b7, b8, b9, b10, b11, b12, b13, b14, b15, -⟩ := b
    simp only [bind, Option.bind_eq_some_iff] at h
    obtain ⟨hd, e0, d', ed, a', ea, b', eb, c', ec, ty', ety, rm', erm, h⟩ := h
    cases h
    rw [pack_op rfl]
    simp only [hdr_val b3 b4 b5 e0, operand_val b6 ed, operand_val b7 ea, operand_val b8 eb, operand_val b9 ec, code_val tyTab (by decide) ety,
      code_val rmTab (by decide) erm, bit_val b12, bit_val b13, ofNat_val b15, List.cons_append, List.nil_append]
    exact p
  · cases h
/-- A word of format M likewise. -/
theorem unpackM_val {w : Nat} {r : RawWord} (hw : w < 2 ^ 96) (h : unpackM w = some r) : r.pack = w := by
  have p := pack_unpack layoutM w hw
  have b := unpack_lt layoutM w
  unfold unpackM at h
  generalize unpackFields layoutM w = l at h p b
  split at h
  next opc scp la msel mneg d a b sz ord vis ch space fn off =>
    simp only [layoutM, layoutH, List.cons_append, List.nil_append, List.zip_cons_cons, List.zip_nil_right, List.forall_mem_cons] at p b
    obtain ⟨b1, b2, b3, b4, b5, b6, b7, b8, b9, b10, b11, b12, b13, b14, b15, -⟩ := b
    simp only [bind, Option.bind_eq_some_iff] at h
    obtain ⟨hd, e0, d', ed, a', ea, b', eb, sz', esz, ord', eord, vis', evis, ch', ech, space', espace, h⟩ := h
    cases h
    simp only [RawWord.pack, hdr_val b3 b4 b5 e0, operand_val b6 ed, operand_val b7 ea, operand_val b8 eb, code_val sizeTab (by decide) esz,
      code_val ordTab (by decide) eord, code_val visTab (by decide) evis, code_val hintTab (by decide) ech, code_val spaceTab (by decide) espace,
      ofNat_val b15, List.cons_append, List.nil_append]
    exact p
  · cases h
/-- A word of format T likewise. -/
theorem unpackT_val {w : Nat} {r : RawWord} (hw : w < 2 ^ 96) (h : unpackT w = some r) : r.pack = w := by
  have p := pack_unpack layoutT w hw
  have b := unpack_lt layoutT w
  unfold unpackT at h
  generalize unpackFields layoutT w = l at h p b
  split at h
  next opc scp la msel mneg d a b c fn e imm =>
    simp only [layoutT, layoutH, List.cons_append, List.nil_append, List.zip_cons_cons, List.zip_nil_right, List.forall_mem_cons] at p b
    obtain ⟨b1, b2, b3, b4, b5, b6, b7, b8, b9, b10, b11, b12, -⟩ := b
    simp only [bind, Option.bind_eq_some_iff] at h
    obtain ⟨hd, e0, d', ed, a', ea, b', eb, c', ec, e', ee, h⟩ := h
    cases h
    simp only [RawWord.pack, hdr_val b3 b4 b5 e0, operand_val b6 ed, operand_val b7 ea, operand_val b8 eb, operand_val b9 ec, ext_val b11 ee,
      ofNat_val b12, List.cons_append, List.nil_append]
    exact p
  · cases h
/-- A word of format B likewise. -/
theorem unpackB_val {w : Nat} {r : RawWord} (hw : w < 2 ^ 96) (h : unpackB w = some r) : r.pack = w := by
  have p := pack_unpack layoutB w hw
  have b := unpack_lt layoutB w
  unfold unpackB at h
  generalize unpackFields layoutB w = l at h p b
  split at h
  next opc scp la msel mneg cond r1 a r2 disp =>
    simp only [layoutB, layoutH, List.cons_append, List.nil_append, List.zip_cons_cons, List.zip_nil_right, List.forall_mem_cons] at p b
    obtain ⟨b1, b2, b3, b4, b5, b6, b7, b8, b9, b10, -⟩ := b
    simp only [bind, Option.bind_eq_some_iff] at h
    obtain ⟨hd, e0, a', ea, h⟩ := h
    split at h
    · next hz =>
      simp only [Bool.and_eq_true, beq_iff_eq] at hz
      obtain ⟨rfl, rfl⟩ := hz
      cases h
      simp only [RawWord.pack, hdr_val b3 b4 b5 e0, operand_val b8 ea, ofNat_val b10, List.cons_append, List.nil_append]
      exact p
    · cases h
  · cases h
/-- A word that has form I only likewise. -/
theorem unpackIOnly_val {w : Nat} {r : RawWord} (hw : w < 2 ^ 96) (h : unpackIOnly w = some r) : r.pack = w := by
  have p := pack_unpack layoutI w hw
  have b := unpack_lt layoutI w
  unfold unpackIOnly at h
  generalize unpackFields layoutI w = l at h p b
  split at h
  next opc scp la msel mneg d a fn ty rm ccw ib res imm =>
    simp only [layoutI, layoutH, List.cons_append, List.nil_append, List.zip_cons_cons, List.zip_nil_right, List.forall_mem_cons] at p b
    obtain ⟨b1, b2, b3, b4, b5, b6, b7, b8, b9, b10, b11, b12, b13, b14, -⟩ := b
    simp only [bind, Option.bind_eq_some_iff] at h
    obtain ⟨hd, e0, h⟩ := h
    split at h
    · next hz =>
      simp only [Bool.and_eq_true, beq_iff_eq] at hz
      obtain ⟨⟨⟨⟨⟨⟨⟨rfl, rfl⟩, rfl⟩, rfl⟩, rfl⟩, rfl⟩, rfl⟩, rfl⟩ := hz
      cases h
      simp only [RawWord.pack, hdr_val b3 b4 b5 e0, ofNat_val b14, List.cons_append, List.nil_append]
      exact p
    · cases h
  · cases h
/-- A word of form I likewise. -/
theorem unpackI_val {w : Nat} {r : RawWord} (hw : w < 2 ^ 96) (hb : w / 2 ^ 57 % 2 = 1) (h : unpackI w = some r) : r.pack = w := by
  have p := pack_unpack layoutI w hw
  have b := unpack_lt layoutI w
  unfold unpackI at h
  generalize unpackFields layoutI w = l at h p b
  split at h
  next opc scp la msel mneg d a fn ty rm ccw ib res imm =>
    simp only [layoutI, layoutH, List.cons_append, List.nil_append, List.zip_cons_cons, List.zip_nil_right, List.forall_mem_cons] at p b
    obtain ⟨b1, b2, b3, b4, b5, b6, b7, b8, b9, b10, b11, b12, b13, b14, -⟩ := b
    simp only [bind, Option.bind_eq_some_iff] at h
    obtain ⟨hd, e0, d', ed, a', ea, ty', ety, rm', erm, h⟩ := h
    split at h
    · next hz =>
      simp only [beq_iff_eq] at hz
      subst hz
      cases h
      rw [pack_imm rfl]
      simp only [hdr_val b3 b4 b5 e0, operand_val b6 ed, operand_val b7 ea, code_val tyTab (by decide) ety, code_val rmTab (by decide) erm,
        bit_val b11, ofNat_val b14, List.cons_append, List.nil_append]
      have hib : ib = 1 := by
        have e1 := pack_append [(8, opc), (2, scp), (4, la), (3, msel), (1, mneg), (11, d), (11, a), (8, fn), (5, ty), (3, rm), (1, ccw)] [(1, ib), (6, 0), (32, imm)]
        have e2 := packFields_lt [(8, opc), (2, scp), (4, la), (3, msel), (1, mneg), (11, d), (11, a), (8, fn), (5, ty), (3, rm), (1, ccw)]
        have hs : ([(8, opc), (2, scp), (4, la), (3, msel), (1, mneg), (11, d), (11, a), (8, fn), (5, ty), (3, rm), (1, ccw)].map Prod.fst).sum = 57 := by simp
        rw [hs] at e1 e2
        simp only [List.cons_append, List.nil_append] at e1
        rw [p, show packFields [(1, ib), (6, 0), (32, imm)] = ib % 2 ^ 1 + 2 ^ 1 * packFields [(6, 0), (32, imm)] from rfl] at e1
        omega
      rw [hib] at p
      exact p
    · cases h
  · cases h

/-- What a function code that must be zero tells. -/
theorem fnZero_some {fn : Nat} {k i : Instr} (h : fnZero fn k = some i) : fn = 0 ∧ i = k := by
  unfold fnZero at h
  split at h
  · next e => cases h; exact ⟨by simpa using e, rfl⟩
  · cases h

/-- What a function code of one bit tells. -/
theorem fnBool_some {fn : Nat} {k : Bool → Instr} {i : Instr} (h : fnBool fn k = some i) : ∃ b : Bool, fn = b.toNat ∧ i = k b := by
  unfold fnBool at h
  split at h
  · next e => cases h; exact ⟨false, by simpa using e, rfl⟩
  · split at h
    · next e => cases h; exact ⟨true, by simpa using e, rfl⟩
    · cases h

/-- What a function code read by a table tells. -/
theorem fnTab_some {α : Type} [DecidableEq α] {tab : List (Nat × α)} {fn : Nat} {k : α → Instr} {i : Instr} (h : fnTab tab fn k = some i)
    (hn : (tab.map Prod.snd).Nodup) : ∃ x, fn = valToCode tab x ∧ i = k x := by
  obtain ⟨x, hx, rfl⟩ := Option.map_eq_some_iff.mp h
  exact ⟨x, (code_val tab hn hx).symm, rfl⟩

/-- What the function code of an atomic tells (R231). -/
theorem fnAtom_some {fn : Nat} {k : AtomOp → AtomTy → Instr} {i : Instr} (h : fnAtom fn k = some i) :
    ∃ op ty, fn = valToCode atomTab op + 16 * valToCode atomTyTab ty ∧ i = k op ty := by
  simp only [fnAtom, bind, Option.bind_eq_some_iff] at h
  obtain ⟨op, h1, ty, h2, h⟩ := h
  cases h
  have e1 := code_val atomTab (by decide) h1
  have e2 := code_val atomTyTab (by decide) h2
  exact ⟨op, ty, by omega, rfl⟩

/-- What the function code of a compare and swap tells (R231). -/
theorem fnCas_some {fn : Nat} {k : AtomTy → Instr} {i : Instr} (h : fnCas fn k = some i) : ∃ ty, fn = 16 * valToCode atomTyTab ty ∧ i = k ty := by
  unfold fnCas at h
  split at h
  · next e =>
    obtain ⟨ty, h2, rfl⟩ := Option.map_eq_some_iff.mp h
    have e2 := code_val atomTyTab (by decide) h2
    simp only [beq_iff_eq] at e
    exact ⟨ty, by omega, rfl⟩
  · cases h

/-- The opcode map and the encoder agree on every raw word that is an instruction. -/
theorem toRaw_toInstr {r : RawWord} {i : Instr} (h : r.toInstr = some i) (hf : match r with | .r _ fn _ _ => fn < 256 | _ => True) : i.toRaw = some r := by
  cases r with
  | r opc fn hd f =>
    simp only [RawWord.toInstr] at h
    split at h
    all_goals first
      | (obtain ⟨rfl, rfl⟩ := fnZero_some h; rfl)
      | (obtain ⟨b, rfl, rfl⟩ := fnBool_some h; rfl)
      | (obtain ⟨x, rfl, rfl⟩ := fnTab_some h (by decide); rfl)
      | (cases h; simp only [Instr.toRaw, BitVec.toNat_ofNat]; rw [Nat.mod_eq_of_lt hf]; done)
      | (split at h
         · next e => simp only [beq_iff_eq] at e; cases h; subst e; rfl
         · split at h
           · next e => simp only [beq_iff_eq] at e; cases h; subst e; rfl
           · cases h)
      | (cases h; done)
      | (repeat' split at h
         all_goals first
           | (next e => simp only [beq_iff_eq] at e; cases h; subst e; rfl)
           | (cases h; done)
           | (next e =>
              obtain ⟨op, ho, rfl⟩ := Option.map_eq_some_iff.mp h
              have e1 := code_val redTab (by decide) ho
              have e2 := bit_val (n := fn / 8) (by omega)
              simp only [Instr.toRaw, e1, e2]
              rw [show fn % 8 + 8 * (fn / 8) = fn from by omega]))
  | i opc hd imm =>
    simp only [RawWord.toInstr] at h
    split at h
    · next e => simp only [beq_iff_eq] at e; cases h; subst e; rfl
    · split at h
      · next e => simp only [beq_iff_eq] at e; cases h; subst e; rfl
      · cases h
  | m opc fn hd f =>
    simp only [RawWord.toInstr] at h
    split at h
    all_goals first
      | (obtain ⟨rfl, rfl⟩ := fnZero_some h; rfl)
      | (obtain ⟨b, rfl, rfl⟩ := fnBool_some h; rfl)
      | (obtain ⟨x, rfl, rfl⟩ := fnTab_some h (by decide); rfl)
      | (obtain ⟨op, ty, rfl, rfl⟩ := fnAtom_some h; rfl)
      | (obtain ⟨ty, rfl, rfl⟩ := fnCas_some h; rfl)
      | (cases h; done)
  | b opc cond hd a disp =>
    simp only [RawWord.toInstr] at h
    split at h
    all_goals first
      | (cases h; done)
      | (split at h
         · next e =>
           simp only [Bool.and_eq_true, beq_iff_eq] at e
           first
             | (obtain ⟨⟨⟨rfl, rfl⟩, rfl⟩, rfl⟩ := e; cases h; rfl)
             | (obtain ⟨⟨rfl, rfl⟩, rfl⟩ := e; cases h; rfl)
             | (obtain ⟨rfl, rfl⟩ := e; cases h; rfl)
             | (obtain rfl := e; obtain ⟨c, hc, rfl⟩ := Option.map_eq_some_iff.mp h; simp only [Instr.toRaw, code_val condTab (by decide) hc])
         · cases h)
  | t opc fn hd f =>
    simp only [RawWord.toInstr] at h
    split at h
    all_goals first
      | (obtain ⟨rfl, rfl⟩ := fnZero_some h; rfl)
      | (obtain ⟨b, rfl, rfl⟩ := fnBool_some h; rfl)
      | (obtain ⟨x, rfl, rfl⟩ := fnTab_some h (by decide); rfl)
      | (cases h; done)
      | (split at h
         · next e =>
           obtain ⟨x, hx, rfl⟩ := Option.map_eq_some_iff.mp h
           have e1 := code_val shapeTab (by decide) hx
           have e2 := bit_val (n := fn / 4 % 2) (by omega)
           have e3 := bit_val (n := fn / 8) (by omega)
           simp only [Instr.toRaw, e1, e2, e3]
           rw [show fn % 4 + 4 * (fn / 4 % 2) + 8 * (fn / 8) = fn from by omega]
         · cases h)
      | (split at h
         · next e =>
           obtain ⟨x, hx, rfl⟩ := Option.map_eq_some_iff.mp h
           have e1 := code_val fmtTab (by decide) hx
           have e2 := bit_val (n := fn / 16) (by omega)
           simp only [Instr.toRaw, e1, e2]
           rw [show fn % 16 + 16 * (fn / 16) = fn from by omega]
         · cases h)
      | (simp only [bind, Option.bind_eq_some_iff] at h
         obtain ⟨x, hx, y, hy, h⟩ := h
         cases h
         have e1 := code_val tdefTab (by decide) hx
         have e2 := code_val fmtTab (by decide) hy
         simp only [Instr.toRaw, e1, e2]
         rw [show 16 * (fn / 16) + fn % 16 = fn from by omega])
      | (simp only [bind, Option.bind_eq_some_iff] at h
         obtain ⟨x, hx, y, hy, h⟩ := h
         cases h
         have e1 := code_val collTab (by decide) hx
         have e2 := code_val redTab (by decide) hy
         simp only [Instr.toRaw, e1, e2]
         rw [show fn % 8 + 8 * (fn / 8) = fn from by omega])

/-- A slot word is what packing its raw fields gives. -/
theorem unpackSlot_val {w : Nat} {r : RawWord} (hw : w < 2 ^ 96) (h : unpackSlot w = some r) : r.pack = w := by
  unfold unpackSlot at h
  split at h
  · exact unpackR_val hw h
  · split at h
    · next e => exact unpackI_val hw (by simpa using e) h
    · exact unpackR_val hw h
  · exact unpackIOnly_val hw h
  · exact unpackM_val hw h
  · exact unpackB_val hw h
  · exact unpackT_val hw h
  · cases h

/-- The function code of a word of format R has eight bits. -/
theorem unpackSlot_fn {w opc fn : Nat} {h : Hdr} {f : FmtR} (e : unpackSlot w = some (.r opc fn h f)) : fn < 256 := by
  have hr : ∀ {w}, unpackR w = some (.r opc fn h f) → fn < 256 := by
    intro w e
    have b := unpack_lt layoutR w
    unfold unpackR at e
    generalize unpackFields layoutR w = l at e b
    split at e
    · simp only [layoutR, layoutH, List.cons_append, List.nil_append, List.zip_cons_cons, List.forall_mem_cons] at b
      simp only [bind, Option.bind_eq_some_iff] at e
      obtain ⟨_, _, _, _, _, _, _, _, _, _, _, _, _, _, e⟩ := e
      cases e
      exact b.2.2.2.2.2.2.2.2.2.2.2.2.2.1
    · cases e
  have hi : ∀ {w}, unpackI w = some (.r opc fn h f) → fn < 256 := by
    intro w e
    have b := unpack_lt layoutI w
    unfold unpackI at e
    generalize unpackFields layoutI w = l at e b
    split at e
    · simp only [layoutI, layoutH, List.cons_append, List.nil_append, List.zip_cons_cons, List.forall_mem_cons] at b
      simp only [bind, Option.bind_eq_some_iff] at e
      obtain ⟨_, _, _, _, _, _, _, _, _, _, e⟩ := e
      split at e
      · cases e
        exact b.2.2.2.2.2.2.2.1
      · cases e
    · cases e
  have no : ∀ {o : Option RawWord}, (∀ r, o = some r → ∀ opc fn h f, r ≠ .r opc fn h f) → o = some (.r opc fn h f) → fn < 256 :=
    fun h1 h2 => absurd rfl (h1 _ h2 _ _ _ _)
  unfold unpackSlot at e
  split at e
  · exact hr e
  · split at e
    · exact hi e
    · exact hr e
  · refine no ?_ e
    intro r hr
    unfold unpackIOnly at hr
    split at hr
    · simp only [bind, Option.bind_eq_some_iff] at hr
      obtain ⟨_, _, hr⟩ := hr
      split at hr
      · cases hr; intro _ _ _ _ c; cases c
      · cases hr
    · cases hr
  · refine no ?_ e
    intro r hr
    unfold unpackM at hr
    split at hr
    · simp only [bind, Option.bind_eq_some_iff] at hr
      obtain ⟨_, _, _, _, _, _, _, _, _, _, _, _, _, _, _, _, _, _, hr⟩ := hr
      cases hr; intro _ _ _ _ c; cases c
    · cases hr
  · refine no ?_ e
    intro r hr
    unfold unpackB at hr
    split at hr
    · simp only [bind, Option.bind_eq_some_iff] at hr
      obtain ⟨_, _, _, _, hr⟩ := hr
      split at hr
      · cases hr; intro _ _ _ _ c; cases c
      · cases hr
    · cases hr
  · refine no ?_ e
    intro r hr
    unfold unpackT at hr
    split at hr
    · simp only [bind, Option.bind_eq_some_iff] at hr
      obtain ⟨_, _, _, _, _, _, _, _, _, _, _, _, hr⟩ := hr
      cases hr; intro _ _ _ _ c; cases c
    · cases hr
  · cases e

end Sys2Proof
end

