-- ==== Sys2Proof/Laws/Engines.lean ====
section
/-! SUPPORT. The issue checks of the engines and of the abar instructions, said once (R152, R154, R289). -/

namespace Sys2Proof.Machine

open Sys2Proof

/-- Ranges within the allocation, and for a writer unguarded with nothing pending, pass the issue checks (R289). -/
theorem engineCheck_ok {t : Team} {writes : Bool} {n : Nat} {runs : List Nat}
    (h : ∀ a ∈ runs, a + n ≤ t.spadSize ∧ (writes = true → t.guarded a n = false ∧ t.pendingAt a n = false)) : t.engineCheck writes n runs = .ok () := by
  have none : ∀ (p : Nat → Bool), (∀ a ∈ runs, p a = false) → runs.find? p = none := fun p hp => by
    rw [List.find?_eq_none]; intro a ha; simp [hp a ha]
  unfold Team.engineCheck
  simp only [bind, Except.bind]
  rw [none _ (fun a ha => by have := (h a ha).1; simp; omega)]
  cases writes with
  | false => rfl
  | true =>
    simp only [if_true]
    rw [none _ (fun a ha => ((h a ha).2 rfl).1), none _ (fun a ha => ((h a ha).2 rfl).2)]

/-- A registered abar passes its check (R152). -/
theorem checkAbar_ok {t : Team} {x : W64} (h : t.abars.contains x.toNat = true) : t.checkAbar x = .ok x.toNat := by
  unfold Team.checkAbar illegalOperandIf trapIf
  simp only [h, Bool.not_true, Bool.false_eq_true, if_false]
  rfl

/-- An operand check that finds nothing wrong. -/
theorem ill_ok {c : Bool} (h : c = false) : illegalOperandIf c = .ok () := by subst h; rfl
/-- Going on after a check that passed. -/
theorem ok_bind {α β : Type} (a : α) (f : α → Except Stop β) : (Except.ok a >>= f) = f a := rfl
/-- A phase that is open or has completed answers (R154). -/
theorem query_ok {b : Abar} {n : Nat} (h : (b.phase + 2 ^ 32 - n) % 2 ^ 32 < 2 ^ 31) :
    b.query n = .ok (if (b.phase + 2 ^ 32 - n) % 2 ^ 32 = 0 then none else some (if (b.phase + 2 ^ 32 - n) % 2 ^ 32 = 1 then b.errl else 0x80)) := by
  unfold Abar.query
  generalize (b.phase + 2 ^ 32 - n) % 2 ^ 32 = a at h ⊢
  by_cases e : a = 0
  · simp only [e, if_true]
  · simp only [e, if_false]
    rw [if_neg (by omega)]

end Sys2Proof.Machine
end

