-- ==== Sys2Proof/Laws/Keeps.lean ====
section
/-! SUPPORT. What a step keeps of the device (`State.Ok`), said once for each function of the state's own operations, of memory, of ending and saving a gang:
if the state it is given has it, so has every state it gives. -/

set_option Elab.async false

namespace Sys2Proof.Machine

open Sys2Proof

/-- `State.Inv` of `s`, with the device's next attestation leaf at least `b.1` and its security version floor at least
`b.2`. It is irreducible so that no lemma below unfolds it by accident. -/
@[irreducible] def State.Ok (b : Nat × Byte) (s : State) : Prop :=
  s.MemOk ∧ (modeOk s.fleet.mode = true ∧ (s.fleet.busy = true → modeOk s.fleet.next = true)) ∧ s.boot.tokens ≤ 64 ∧
  (b.1 ≤ s.boot.leaf ∧ s.boot.leaf ≤ 2 ^ 40) ∧ b.2 ≤ s.boot.floor

variable {b : Nat × Byte}

theorem State.ok_iff (s : State) : s.Ok b ↔ s.Inv ∧ b.1 ≤ s.boot.leaf ∧ b.2 ≤ s.boot.floor := by
  unfold State.Ok State.Inv
  tauto

@[simp] theorem State.ok_upd (s : State) (a1 a2 a3 a4 a5 a7 a9 a10 a11 a12 a13 a14 a15 a16 a17 a18 a19 a20 a21) :
    State.Ok b ⟨a1, a2, a3, a4, a5, s.mem, a7, s.remote, a9, a10, a11, a12, a13, a14, a15, a16, a17, a18, a19, a20, a21, s.fleet, s.boot⟩ ↔ s.Ok b := by
  unfold State.Ok
  exact Iff.rfl
@[simp] theorem State.ok_fleet (s : State) (a1 a2 a3 a4 a5 a7 a9 a10 a11 a12 a13 a14 a15 a16 a17 a18 a19 a20 a21 f3 f5 f6 f7 f8 f9 f10 f11 f12 f13 f14 f15) :
    State.Ok b ⟨a1, a2, a3, a4, a5, s.mem, a7, s.remote, a9, a10, a11, a12, a13, a14, a15, a16, a17, a18, a19, a20, a21,
      ⟨s.fleet.mode, s.fleet.busy, f3, s.fleet.next, f5, f6, f7, f8, f9, f10, f11, f12, f13, f14, f15⟩, s.boot⟩ ↔ s.Ok b := by
  unfold State.Ok
  exact Iff.rfl
@[simp] theorem State.ok_boot (s : State) (a1 a2 a3 a4 a5 a7 a9 a10 a11 a12 a13 a14 a15 a16 a17 a18 a19 a20 a21 f1 f2 f3 f4 f6 f7 f8 f9 f11) :
    State.Ok b ⟨a1, a2, a3, a4, a5, s.mem, a7, s.remote, a9, a10, a11, a12, a13, a14, a15, a16, a17, a18, a19, a20, a21,
      s.fleet, ⟨f1, f2, f3, f4, s.boot.floor, f6, f7, f8, f9, s.boot.leaf, f11, s.boot.tokens⟩⟩ ↔ s.Ok b := by
  unfold State.Ok
  exact Iff.rfl
@[simp] theorem State.ok_ite (c : Prop) [Decidable c] (s t : State) : State.Ok b (if c then s else t) ↔ (c → s.Ok b) ∧ (¬c → t.Ok b) := by
  split <;> simp [*]
@[simp] theorem State.ok_snd_ite {α : Type} (c : Prop) [Decidable c] (x y : α × State) : State.Ok b (if c then x else y).2 ↔ (c → x.2.Ok b) ∧ (¬c → y.2.Ok b) := by
  split <;> simp [*]
@[simp] theorem foldl_ok {α : Type} {f : State → α → State} (l : List α) {s : State} (hf : ∀ s a, s.Ok b → (f s a).Ok b) (h : s.Ok b) : (l.foldl f s).Ok b := by
  induction l generalizing s with
  | nil => exact h
  | cons a l ih => exact ih (hf s a h)

theorem foldl_keeps {α β : Type} {P : β → Prop} {f : β → α → β} (l : List α) (hf : ∀ x a, P x → P (f x a)) {x : β} (h : P x) : P (l.foldl f x) := by
  induction l generalizing x with
  | nil => exact h
  | cons a l ih => exact ih (hf x a h)

/-- A value that an operation gives, if it gives one. -/
def Got {ε α : Type} (P : α → Prop) : Except ε α → Prop
  | .ok a => P a
  | .error _ => True
@[simp] theorem got_ok {ε α : Type} (P : α → Prop) (a : α) : Got P (.ok a : Except ε α) ↔ P a := Iff.rfl
@[simp] theorem got_error {ε α : Type} (P : α → Prop) (e : ε) : Got P (.error e : Except ε α) ↔ True := Iff.rfl
@[simp] theorem got_pure {ε α : Type} (P : α → Prop) (a : α) : Got P (pure a : Except ε α) ↔ P a := Iff.rfl
theorem got_elim {ε α : Type} {P : α → Prop} {x : Except ε α} {a : α} (h : Got P x) (hx : x = .ok a) : P a := by
  subst hx
  exact h
theorem got_bind {ε α β : Type} {P : β → Prop} {Q : α → Prop} {x : Except ε α} {f : α → Except ε β} (hx : Got Q x) (hf : ∀ a, Q a → Got P (f a)) : Got P (x >>= f) := by
  cases x with
  | ok a => exact hf a hx
  | error e => trivial
theorem got_skip {ε α β : Type} {P : β → Prop} {x : Except ε α} {f : α → Except ε β} (hf : ∀ a, x = .ok a → Got P (f a)) : Got P (x >>= f) := by
  cases x with
  | ok a => exact hf a rfl
  | error e => trivial
@[simp] theorem got_bind_any {ε α β : Type} {P : β → Prop} {x : Except ε α} {f : α → Except ε β} (hf : ∀ a, Got P (f a)) : Got P (x >>= f) :=
  got_skip (fun a _ => hf a)
@[simp] theorem got_ite {ε α : Type} (P : α → Prop) (c : Prop) [Decidable c] (x y : Except ε α) : Got P (if c then x else y) ↔ (c → Got P x) ∧ (¬c → Got P y) := by
  split <;> simp [*]

/-- Whatever next state the result has is one that `State.Ok` holds of. -/
def Res.Keeps (b : Nat × Byte) (r : Res) : Prop := ∀ t, r = .next t → t.Ok b
@[simp] theorem keeps_next (t : State) : Res.Keeps b (.next t) ↔ t.Ok b := by simp [Res.Keeps]
@[simp] theorem keeps_fault (t) : Res.Keeps b (.fault t) ↔ True := by simp [Res.Keeps]
@[simp] theorem keeps_refused (t) : Res.Keeps b (.refused t) ↔ True := by simp [Res.Keeps]
@[simp] theorem keeps_ite (c : Prop) [Decidable c] (x y : Res) : Res.Keeps b (if c then x else y) ↔ (c → Res.Keeps b x) ∧ (¬c → Res.Keeps b y) := by
  split <;> simp [*]

-- Machine/Access.lean

@[simp] theorem State.pick_ok {s : State} (h0 : s.Ok b) : (State.pick s).2.Ok b := by
  unfold State.pick
  simp [*]

@[simp] theorem State.pickBelow_ok {s : State} (n : Nat) (h0 : s.Ok b) : (State.pickBelow s n).2.Ok b := by
  unfold State.pickBelow
  simp [*]

@[simp] theorem State.fresh_ok {s : State} (h0 : s.Ok b) : (State.fresh s).2.Ok b := by
  unfold State.fresh
  simp [*]

@[simp] theorem State.send_ok {s : State} (o : Output) (h0 : s.Ok b) : (State.send s o).Ok b := by
  unfold State.send
  simp [*]

@[simp] theorem State.modTeam_ok {s : State} (id : Nat) (f : Team → Team) (h0 : s.Ok b) : (State.modTeam s id f).Ok b := by
  unfold State.modTeam
  simp [*]

@[simp] theorem State.modLaunch_ok {s : State} (id : Nat) (f : Launch → Launch) (h0 : s.Ok b) : (State.modLaunch s id f).Ok b := by
  unfold State.modLaunch
  simp [*]

@[simp] theorem State.modCtx_ok {s : State} (k : Nat) (f : Ctx → Ctx) (h0 : s.Ok b) : (State.modCtx s k f).Ok b := by
  unfold State.modCtx
  simp [*]

@[simp] theorem State.modCore_ok {s : State} (k : Nat) (f : CoreRec → CoreRec) (h0 : s.Ok b) : (State.modCore s k f).Ok b := by
  unfold State.modCore
  simp [*]

@[simp] theorem State.modGang_ok {s : State} (team i : Nat) (f : Gang → Gang) (h0 : s.Ok b) : (State.modGang s team i f).Ok b := by
  unfold State.modGang
  simp [*]

@[simp] theorem State.raiseIstat_ok {s : State} (k bit : Nat) (h0 : s.Ok b) : (State.raiseIstat s k bit).Ok b := by
  unfold State.raiseIstat
  simp [*]

@[simp] theorem State.raiseEvent_ok {s : State} (i : Nat) (h0 : s.Ok b) : (State.raiseEvent s i).Ok b := by
  unfold State.raiseEvent
  simp [*]

@[simp] theorem State.perfAdd_ok {s : State} (core ctr n : Nat) (h0 : s.Ok b) : (State.perfAdd s core ctr n).Ok b := by
  unfold State.perfAdd
  simp [*]

@[simp] theorem State.modWing_ok {s : State} (w : Nat) (f : Wing → Wing) (h0 : s.Ok b) : (State.modWing s w f).Ok b := by
  unfold State.modWing
  simp [*]

@[simp] theorem State.sendTo_ok {s : State} (r : Nat) (o : Output) (h0 : s.Ok b) : (State.sendTo s r o).Ok b := by
  unfold State.sendTo
  try dsimp only
  repeat' split
  all_goals simp (maxDischargeDepth := 40) +contextual [*]

@[simp] theorem State.uncorrectable_ok {s : State} (n : Nat) (h0 : s.Ok b) : (State.uncorrectable s n).Ok b := by
  unfold State.uncorrectable
  try dsimp only
  repeat' split
  all_goals simp (maxDischargeDepth := 40) +contextual [*]

@[simp] theorem State.noteRead_ok {s : State} (locs : List Nat) (h0 : s.Ok b) : (State.noteRead s locs).Ok b := by
  unfold State.noteRead
  try dsimp only
  repeat' split
  all_goals simp (maxDischargeDepth := 40) +contextual [*]

@[simp] theorem State.modOrder_ok {s : State} (f : Order → Order) (h0 : s.Ok b) : (State.modOrder s f).Ok b := by
  unfold State.modOrder
  try dsimp only
  repeat' split
  all_goals simp (maxDischargeDepth := 40) +contextual [*]

-- Machine/Memory.lean

@[simp] theorem State.setComm_ok {s : State} (loc : Nat) (v : Byte) (h0 : s.Ok b) : (State.setComm s loc v).Ok b := by
  unfold State.setComm
  unfold State.Ok at h0 ⊢
  split
  · exact ⟨⟨Tab.wf_set _ _ h0.1.1, h0.1.2⟩, h0.2⟩
  · exact ⟨⟨h0.1.1, Tab.wf_set _ _ h0.1.2⟩, h0.2⟩

@[simp] theorem State.setCommAll_ok {s : State} (l : List (Nat × Byte)) (h0 : s.Ok b) : (State.setCommAll s l).Ok b := by
  unfold State.setCommAll
  try dsimp only [State.pick, State.pickBelow, State.fresh]
  repeat' split
  all_goals try dsimp only
  repeat' split
  all_goals simp (maxDischargeDepth := 40) +contextual [*]

@[simp] theorem State.fillTlb_ok {s : State} (core : Nat) (p : PageTr) (h0 : s.Ok b) : (State.fillTlb s core p).Ok b := by
  unfold State.fillTlb
  try dsimp only
  repeat' split
  all_goals simp (maxDischargeDepth := 40) +contextual [*]

@[simp] theorem State.forwardLine_ok {s : State} (core : Nat) (p : PageTr) (h0 : s.Ok b) : (State.forwardLine s core p).Ok b := by
  unfold State.forwardLine
  dsimp only
  repeat' split
  all_goals simp (maxDischargeDepth := 40) [*]

@[simp] theorem State.recordRead_ok {s : State} (launch : Nat) (imm : Bool) (loc : Nat) (h0 : s.Ok b) : (State.recordRead s launch imm loc).Ok b := by
  unfold State.recordRead
  simp [*]

@[simp] theorem State.writeByte_ok {s : State} (w : Viewer) (imm : Bool) (loc va : Nat) (v : Byte) (h0 : s.Ok b) : (State.writeByte s w imm loc va v).Ok b := by
  unfold State.writeByte
  split <;> simp [*]

@[simp] theorem State.dropL1_ok {s : State} (core : Nat) (h0 : s.Ok b) : (State.dropL1 s core).Ok b := by
  unfold State.dropL1
  simp [*]

@[simp] theorem State.dropSector_ok {s : State} (core loc : Nat) (h0 : s.Ok b) : (State.dropSector s core loc).Ok b := by
  unfold State.dropSector
  simp [*]

@[simp] theorem State.dropLines_ok {s : State} (locs : List Nat) (h0 : s.Ok b) : (State.dropLines s locs).Ok b := by
  unfold State.dropLines
  simp [*]

@[simp] theorem State.patchL1_ok {s : State} (core key loc : Nat) (v : Byte) (h0 : s.Ok b) : (State.patchL1 s core key loc v).Ok b := by
  unfold State.patchL1
  simp [*]

@[simp] theorem State.evictL1_ok {s : State} (core loc : Nat) (h0 : s.Ok b) : (State.evictL1 s core loc).Ok b := by
  unfold State.evictL1
  try dsimp only
  repeat' split
  all_goals simp (maxDischargeDepth := 40) +contextual [*]

@[simp] theorem State.refillL1_ok {s : State} (core : Nat) (w : Viewer) (imm : Bool) (loc : Nat) (h0 : s.Ok b) : (State.refillL1 s core w imm loc).Ok b := by
  unfold State.refillL1
  try dsimp only
  repeat' split
  all_goals simp (maxDischargeDepth := 40) +contextual [*]

@[simp] theorem State.refillLine_ok {s : State} (core : Nat) (w : Viewer) (imm : Bool) (loc : Nat) (h0 : s.Ok b) : (State.refillLine s core w imm loc).Ok b := by
  unfold State.refillLine
  try dsimp only
  repeat' split
  all_goals simp (maxDischargeDepth := 40) +contextual [*]

@[simp] theorem State.fromL1_ok {s : State} (core : Nat) (w : Viewer) (imm l1 : Bool) (loc n : Nat) (h0 : s.Ok b) : (State.fromL1 s core w imm l1 loc n).2.Ok b := by
  unfold State.fromL1
  try dsimp only
  repeat' split
  all_goals simp (maxDischargeDepth := 40) +contextual [*]

@[simp] theorem State.noteOutside_ok {s : State} (ctx va n : Nat) (h0 : s.Ok b) : (State.noteOutside s ctx va n).Ok b := by
  unfold State.noteOutside
  try dsimp only
  repeat' split
  all_goals simp (maxDischargeDepth := 40) +contextual [*]

theorem State.writeOutside_ok {s : State} (ctx va : Nat) (bs : List Byte) (h0 : s.Ok b) : Got (State.Ok b) (s.writeOutside ctx va bs) := by
  unfold State.writeOutside
  exact got_bind_any (fun _ => by simp [*])

-- Machine/MemOps.lean

@[simp] theorem State.readUnit_ok {s : State} (it : Bool) (agents : List Nat) (key loc : Nat) (cur : List Byte) (h0 : s.Ok b) : (State.readUnit s it agents key loc cur).2.Ok b := by
  unfold State.readUnit
  try dsimp only
  repeat' split
  all_goals simp (maxDischargeDepth := 40) +contextual [*]

@[simp] theorem State.readUnits_ok {s : State} (it : Bool) (agents : List Nat) (key : Nat) (cur : Nat → Nat → List Byte) (units : List (Nat × Nat))
    (h0 : s.Ok b) : (State.readUnits s it agents key cur units).2.Ok b := by
  unfold State.readUnits
  have key : ∀ (l : List (Nat × Nat)) (x : List Byte × State), x.2.Ok b → (l.foldl (fun (acc : List Byte × State) u =>
      let (b, s) := acc.2.readUnit it agents key u.1 (cur u.1 u.2)
      (acc.1 ++ b, s)) x).2.Ok b := fun l x hx =>
    foldl_keeps (P := fun (x : List Byte × State) => x.2.Ok b) l (fun x a (hx : x.2.Ok b) => by exact State.readUnit_ok it agents key a.1 (cur a.1 a.2) hx) hx
  exact key units ([], s) h0

@[simp] theorem State.writeUnits_ok {s : State} (agents : List Nat) (key : Nat) (cur : Nat → Nat → List Byte) (units : List (Nat × Nat)) (h0 : s.Ok b) : (State.writeUnits s agents key cur units).Ok b := by
  unfold State.writeUnits
  try dsimp only
  repeat' split
  all_goals simp (maxDischargeDepth := 40) +contextual [*]

@[simp] theorem State.atomicUnit_ok {s : State} (agents : List Nat) (key loc : Nat) (cur : List Byte) (wrote : Bool) (h0 : s.Ok b) : (State.atomicUnit s agents key loc cur wrote).Ok b := by
  unfold State.atomicUnit
  try dsimp only
  repeat' split
  all_goals simp (maxDischargeDepth := 40) +contextual [*]

@[simp] theorem State.loadPart_ok {s : State} (core : Nat) (it : Bool) (agents : List Nat) (w : Viewer) (imm l1 : Bool) (loc n : Nat) (units : List (Nat × Nat))
    (h0 : s.Ok b) : (State.loadPart s core it agents w imm l1 loc n units).2.Ok b := by
  have h1 := State.fromL1_ok core w imm l1 loc n h0
  unfold State.loadPart
  split <;> rename_i e <;> rw [e] at h1
  · exact h1
  · exact State.readUnits_ok _ _ _ _ _ h1

-- Machine/Ending.lean

@[simp] theorem State.release_ok {s : State} (team gang : Nat) (f : Gang → Gang) (h0 : s.Ok b) : (State.release s team gang f).Ok b := by
  unfold State.release
  simp [*]

@[simp] theorem State.modGroup_ok {s : State} (ctx slot : Nat) (f : Group → Group) (h0 : s.Ok b) : (State.modGroup s ctx slot f).Ok b := by
  unfold State.modGroup
  simp [*]

@[simp] theorem State.releaseBroken_ok {s : State} (ms : List Member) (h0 : s.Ok b) : (State.releaseBroken s ms).Ok b := by
  unfold State.releaseBroken
  refine foldl_ok _ (fun s a hs => ?_) h0
  repeat' split
  all_goals simp (maxDischargeDepth := 40) +contextual [*]

@[simp] theorem State.breakGroup_ok {s : State} (ctx slot : Nat) (killed : Member → Bool) (h0 : s.Ok b) : (State.breakGroup s ctx slot killed).Ok b := by
  unfold State.breakGroup
  simp [*]

@[simp] theorem State.killMembers_ok {s : State} (ctx : Nat) (killed : Member → Bool) (h0 : s.Ok b) : (State.killMembers s ctx killed).Ok b := by
  unfold State.killMembers
  try dsimp only
  repeat' split
  all_goals simp (maxDischargeDepth := 40) +contextual [*]

@[simp] theorem State.freeUnjoined_ok {s : State} (ctx : Nat) (teams : List Nat) (h0 : s.Ok b) : (State.freeUnjoined s ctx teams).Ok b := by
  unfold State.freeUnjoined
  try dsimp only
  repeat' split
  all_goals simp (maxDischargeDepth := 40) +contextual [*]

@[simp] theorem State.dropHomes_ok {s : State} (ctx : Nat) (teams : List Nat) (h0 : s.Ok b) : (State.dropHomes s ctx teams).Ok b := by
  unfold State.dropHomes
  simp [*]

@[simp] theorem State.removeTeams_ok {s : State} (ctx : Nat) (teams : List Nat) (killed : Member → Bool) (h0 : s.Ok b) : (State.removeTeams s ctx teams killed).Ok b := by
  unfold State.removeTeams
  try dsimp only
  repeat' split
  all_goals simp (maxDischargeDepth := 40) +contextual [*]

@[simp] theorem State.mergeChild_ok {s : State} (launch grid : Nat) (h0 : s.Ok b) : (State.mergeChild s launch grid).Ok b := by
  unfold State.mergeChild
  dsimp only
  repeat' split
  all_goals simp (maxDischargeDepth := 40) [*]

@[simp] theorem State.mergeChildren_ok {s : State} (launch grid : Nat) (h0 : s.Ok b) : (State.mergeChildren s launch grid).Ok b := by
  unfold State.mergeChildren
  try dsimp only [State.pick, State.pickBelow, State.fresh]
  repeat' split
  all_goals try dsimp only
  repeat' split
  all_goals simp (maxDischargeDepth := 40) +contextual [*]

@[simp] theorem State.modQueue_ok {s : State} (ctx q : Nat) (f : LQueue → LQueue) (h0 : s.Ok b) : (State.modQueue s ctx q f).Ok b := by
  unfold State.modQueue
  simp [*]

@[simp] theorem State.stampReady_ok {s : State} (ctx q : Nat) (h0 : s.Ok b) : (State.stampReady s ctx q).Ok b := by
  unfold State.stampReady
  dsimp only
  repeat' split
  all_goals simp (maxDischargeDepth := 40) [*]

@[simp] theorem State.restamp_ok {s : State} (ctx n q : Nat) (h0 : s.Ok b) : (State.restamp s ctx n q).Ok b := by
  unfold State.restamp
  try dsimp only
  repeat' split
  all_goals simp (maxDischargeDepth := 40) +contextual [*]

@[simp] theorem State.inQueueOrder_ok {s : State} (ctx n : Nat) (h0 : s.Ok b) : (State.inQueueOrder s ctx n).Ok b := by
  unfold State.inQueueOrder
  try dsimp only
  repeat' split
  all_goals simp (maxDischargeDepth := 40) +contextual [*]

@[simp] theorem State.post_ok {s : State} (ctx : Nat) (p : Post) (h0 : s.Ok b) : (State.post s ctx p).Ok b := by
  unfold State.post
  try dsimp only
  repeat' split
  all_goals simp (maxDischargeDepth := 40) +contextual [*]

theorem State.putWord_ok {s : State} (ctx : Nat) (at_ : W64) (val : Nat) (h0 : s.Ok b) : ∀ t, s.putWord ctx at_ val = some t → t.Ok b := by
  have h := State.writeOutside_ok ctx at_.toNat (leBytes 8 val) h0
  unfold State.putWord
  intro t ht
  split at ht
  · next e => cases ht; exact got_elim h e
  · split at ht
    · cases ht
    · cases ht; exact h0

@[simp] theorem State.endRecord_ok {s : State} (ctx q ord : Nat) (r : LaunchRec) (status : Byte) (code : BitVec 16) (attempt : Nat) (h0 : s.Ok b) :
    (State.endRecord s ctx q ord r status code attempt).Ok b := by
  unfold State.endRecord
  extract_lets word t s1 s2 s3
  have h1 : s1.Ok b := by
    show ((if r.join = 0 then some s else s.putWord ctx r.join word).getD (s.post ctx (.word r.join word (recIntr r) none))).Ok b
    split
    · exact h0
    · cases h : s.putWord ctx r.join word with
      | none => exact State.post_ok _ _ h0
      | some u => exact State.putWord_ok ctx r.join word h0 u h
  clear_value t s1
  have h3 : s3.Ok b := by simp (maxDischargeDepth := 40) [s3, s2, h1]
  clear_value s3
  split <;> simp (maxDischargeDepth := 40) [h3]

@[simp] theorem State.dropLaunch_ok {s : State} (id : Nat) (h0 : s.Ok b) : (State.dropLaunch s id).Ok b := by
  unfold State.dropLaunch
  try dsimp only
  repeat' split
  all_goals simp (maxDischargeDepth := 40) +contextual [*]

@[simp] theorem State.failReplay_ok {s : State} (ctx q : Nat) (status : Byte) (code : BitVec 16) (h0 : s.Ok b) : (State.failReplay s ctx q status code).Ok b := by
  unfold State.failReplay
  try dsimp only
  repeat' split
  all_goals simp (maxDischargeDepth := 40) +contextual [*]

@[simp] theorem State.abortLaunch_ok {s : State} (id : Nat) (status : Byte) (code : BitVec 16) (h : s.Ok b) : (s.abortLaunch id status code).Ok b := by
  unfold State.abortLaunch
  repeat' split
  all_goals simp (maxDischargeDepth := 40) [*]

@[simp] theorem State.conflictAbort_ok {s : State} (id : Nat) (h0 : s.Ok b) : (State.conflictAbort s id).Ok b := by
  unfold State.conflictAbort
  try dsimp only
  repeat' split
  all_goals simp (maxDischargeDepth := 40) +contextual [*]

@[simp] theorem State.checkGrid_ok {s : State} (launch : Nat) (fuel grid : Nat) (h0 : s.Ok b) : (State.checkGrid s launch fuel grid).Ok b := by
  induction fuel generalizing grid s with
  | zero => exact h0
  | succ n ih =>
    unfold State.checkGrid
    try dsimp only
    repeat' split
    all_goals simp (maxDischargeDepth := 40) [*]

-- Machine/Saving.lean

@[simp] theorem State.saveTeam_ok {s : State} (team unit : Nat) (coop : Bool) (h0 : s.Ok b) : (State.saveTeam s team unit coop).Ok b := by
  unfold State.saveTeam
  split
  · exact h0
  · dsimp only
    exact State.modTeam_ok _ _ (State.setCommAll_ok _ (State.fresh_ok h0))

theorem State.saveOne_ok {s : State} (coop : Bool) (id : Nat) (h0 : s.Ok b) : ∀ t, (State.saveOne s coop id) = some t → t.Ok b := by
  unfold State.saveOne
  repeat' split
  all_goals rintro t ⟨⟩
  all_goals simp (maxDischargeDepth := 40) [*]

theorem State.saveAll_ok {s : State} (coop : Bool) (teams : List Nat) (h0 : s.Ok b) : ∀ t, (State.saveAll s coop teams) = some t → t.Ok b := by
  induction teams generalizing s with
  | nil => rintro t ⟨⟩; exact h0
  | cons a l ih =>
    intro t ht
    unfold State.saveAll at ht
    split at ht
    · cases ht
    · exact ih (State.saveOne_ok _ _ h0 _ (by assumption)) t ht
@[simp] theorem State.saveAll_getD_ok {s t : State} (coop : Bool) (teams : List Nat) (h0 : s.Ok b) (ht : t.Ok b) : ((s.saveAll coop teams).getD t).Ok b := by
  cases h : s.saveAll coop teams with
  | none => exact ht
  | some u => exact State.saveAll_ok coop teams h0 u h

@[simp] theorem State.trySave_ok {s : State} (team : Nat) (h0 : s.Ok b) : (State.trySave s team).Ok b := by
  unfold State.trySave
  split <;> simp [*]

-- Machine/Ops.lean

@[simp] theorem State.haltSlices_ok {s : State} (team gang : Nat) (slices : List Nat) (trap already : Bool) (h0 : s.Ok b) : (State.haltSlices s team gang slices trap already).Ok b := by
  unfold State.haltSlices
  try dsimp only
  repeat' split
  all_goals simp (maxDischargeDepth := 40) +contextual [*]

@[simp] theorem State.haltGang_ok {s : State} (team gang : Nat) (stopped : List Nat) (h0 : s.Ok b) : (State.haltGang s team gang stopped).Ok b := by
  unfold State.haltGang
  dsimp only
  split
  · exact State.haltSlices_ok _ _ _ _ _ h0
  · exact foldl_ok _ (fun s a hs => State.haltSlices_ok _ _ _ _ _ hs) h0

@[simp] theorem State.haltTeam_ok {s : State} (team gang : Nat) (stopped : List Nat) (h0 : s.Ok b) : (State.haltTeam s team gang stopped).Ok b := by
  unfold State.haltTeam
  split
  · exact h0
  · exact State.modTeam_ok _ _ (foldl_ok _ (fun s a hs => State.haltGang_ok _ _ _ hs) h0)

@[simp] theorem State.contextError_ok {s : State} (launch : Nat) (h0 : s.Ok b) : (State.contextError s launch).Ok b := by
  unfold State.contextError
  simp [*]

@[simp] theorem State.trapToHost_ok {s : State} (launch : Nat) (h0 : s.Ok b) : (State.trapToHost s launch).Ok b := by
  unfold State.trapToHost
  split
  · exact h0
  · dsimp only
    split
    · exact State.raiseIstat_ok _ _ (State.modLaunch_ok _ _ (foldl_ok _ (fun s a hs => State.haltTeam_ok _ _ _ hs) h0))
    · exact State.abortLaunch_ok _ _ _ h0

@[simp] theorem State.takeTrap_ok {s : State} (team gang : Nat) (slices : List Nat) (e : TrapEntry) (h0 : s.Ok b) : (State.takeTrap s team gang slices e).Ok b := by
  unfold State.takeTrap
  repeat' split
  all_goals simp (maxDischargeDepth := 40) [*]

@[simp] theorem State.resumeTeam_ok {s : State} (team : Nat) (h0 : s.Ok b) : (State.resumeTeam s team).Ok b := by
  unfold State.resumeTeam
  simp [*]

@[simp] theorem State.returnFromTrap_ok {s : State} (team gang : Nat) (h0 : s.Ok b) : (State.returnFromTrap s team gang).Ok b := by
  unfold State.returnFromTrap
  dsimp only
  repeat' split
  all_goals simp (maxDischargeDepth := 40) [*]

@[simp] theorem State.waitAll_ok {s : State} (p : Performer) (w : Wait) (h0 : s.Ok b) : (State.waitAll s p w).Ok b := by
  unfold State.waitAll
  refine foldl_ok _ (fun s a hs => ?_) h0
  try dsimp only
  repeat' split
  all_goals simp (maxDischargeDepth := 40) +contextual [*]

@[simp] theorem State.cancelWaits_ok {s : State} (ctx team gang : Nat) (h0 : s.Ok b) : (State.cancelWaits s ctx team gang).Ok b := by
  unfold State.cancelWaits
  simp [*]

@[simp] theorem State.trapAll_ok {s : State} (p : Performer) (cause : Nat) (addr : W64) (info : Nat → W64) (h0 : s.Ok b) : (State.trapAll s p cause addr info).Ok b := by
  unfold State.trapAll
  exact foldl_ok _ (fun s a hs => State.takeTrap_ok _ _ _ _ hs) h0

theorem State.stop_ok {s : State} (p : Performer) (x : Stop) (h0 : s.Ok b) : Res.Keeps b (State.stop s p x) := by
  unfold State.stop
  split <;> simp only [keeps_next, keeps_fault]
  · exact State.trapAll_ok _ _ _ _ h0
  · exact State.trapAll_ok _ _ _ _ (foldl_ok _ (fun s a hs => State.modGang_ok _ _ _ hs) h0)
  · simp (maxDischargeDepth := 40) [*]
  · simp (maxDischargeDepth := 40) [*]
  · simp (maxDischargeDepth := 40) [*]
  · simp (maxDischargeDepth := 40) [*]
  · simp (maxDischargeDepth := 40) [*]
  · split <;> simp (maxDischargeDepth := 40) [*]
  · simp (maxDischargeDepth := 40) [*]

@[simp] theorem State.countSkid_ok (s : State) {t : State} (p : Performer) (h0 : t.Ok b) : (s.countSkid t p).Ok b := by
  unfold State.countSkid
  split
  · exact h0
  · split
    · exact h0
    · refine foldl_ok _ (fun s a hs => ?_) h0
      split <;> simp (maxDischargeDepth := 40) [*]

theorem State.settle_ok {s : State} (p : Performer) (r : Except Stop State) (h0 : s.Ok b) (hr : Got (State.Ok b) r) : Res.Keeps b (s.settle p r) := by
  cases r with
  | ok t => exact keeps_next _ |>.mpr (State.trySave_ok _ (State.countSkid_ok _ _ hr))
  | error x => exact State.stop_ok _ _ h0

@[simp] theorem State.passUnit_ok {s : State} (i : Issuer) (h0 : s.Ok b) : (State.passUnit s i).Ok b := by
  unfold State.passUnit
  simp [*]

@[simp] theorem State.goUnit_ok {s : State} (i : Issuer) (pc : W64) (h0 : s.Ok b) : (State.goUnit s i pc).Ok b := by
  unfold State.goUnit
  simp [*]

theorem State.perform_ok {s : State} {h : Option Hdr} {f : Issuer → Except Stop State} (h0 : s.Ok b) (hf : ∀ i, Got (State.Ok b) (f i)) :
    Res.Keeps b (s.perform h f) := by
  unfold State.perform
  split
  · simp
  · exact State.settle_ok _ _ h0 (hf _)

theorem State.scopeTrap_ok {s : State} (i : Issuer) (h : Hdr) (cause : Nat) (h0 : s.Ok b) : Res.Keeps b (s.scopeTrap i h cause) := by
  unfold State.scopeTrap
  simp only [keeps_next]
  have h1 := State.takeTrap_ok i.unit.team i.unit.gang i.slices (i.g.trapEntry (some h) i.slices cause 0 0 (h.scp == .set || h.scp == .team)) h0
  split
  · exact foldl_ok _ (fun s a hs => State.takeTrap_ok _ _ _ _ hs) h1
  · exact h1

theorem State.lane_ok {s : State} {h : Hdr} {f : Issuer → Except Stop State} (h0 : s.Ok b) (hf : ∀ i, Got (State.Ok b) (f i)) : Res.Keeps b (s.lane h f) := by
  unfold State.lane
  split
  · simp
  · split
    · exact State.settle_ok _ _ h0 (hf _)
    · exact State.scopeTrap_ok _ _ _ h0

@[simp] theorem State.mismatchTraps_ok {s : State} (team : Nat) (gs : List Nat) (cause : Nat) (setflt : Bool) (h0 : s.Ok b) : (State.mismatchTraps s team gs cause setflt).Ok b := by
  unfold State.mismatchTraps
  refine foldl_ok _ (fun s a hs => ?_) h0
  try dsimp only
  repeat' split
  all_goals simp (maxDischargeDepth := 40) +contextual [*]

@[simp] theorem State.testRendez_ok {s : State} (team : Nat) (t : Team) (h0 : s.Ok b) : (State.testRendez s team t).Ok b := by
  unfold State.testRendez
  split <;> simp [*]

theorem State.rendezvous_ok {s : State} {i : Issuer} {h : Hdr} {k : Rendez} {f : State → Performer → Except Stop State} (h0 : s.Ok b)
    (hf : ∀ s p, s.Ok b → Got (State.Ok b) (f s p)) : Res.Keeps b (s.rendezvous i h k f) := by
  unfold State.rendezvous
  try dsimp only
  split
  · simp (maxDischargeDepth := 40) [*]
  · split
    · exact State.settle_ok _ _ (by simp (maxDischargeDepth := 40) [*]) (hf _ _ (by simp (maxDischargeDepth := 40) [*]))
    · simp (maxDischargeDepth := 40) [*]

theorem State.gangWide_ok {s : State} {h : Hdr} {f : State → Issuer → Except Stop State} (h0 : s.Ok b) (hf : ∀ s i, s.Ok b → Got (State.Ok b) (f s i)) :
    Res.Keeps b (s.gangWide h f) := by
  unfold State.gangWide
  split
  · simp
  · split
    · exact State.settle_ok _ _ h0 (hf _ _ h0)
    · refine State.rendezvous_ok h0 (fun s p hs => ?_)
      split
      · exact hs
      · exact hf _ _ hs

theorem State.gangOp_ok {s : State} {h : Hdr} {f : State → Issuer → Except Stop State} (h0 : s.Ok b) (hf : ∀ s i, s.Ok b → Got (State.Ok b) (f s i)) :
    Res.Keeps b (s.gangOp h f) := by
  unfold State.gangOp
  split
  · simp
  · split
    · exact State.gangWide_ok h0 hf
    · exact State.scopeTrap_ok _ _ _ h0

theorem State.wideOp_ok {s : State} {h : Hdr} {n : Nat} {l : List Scope} {f : State → Wide → Except Stop State} (h0 : s.Ok b)
    (hf : ∀ s w, s.Ok b → Got (State.Ok b) (f s w)) : Res.Keeps b (s.wideOp h n l f) := by
  unfold State.wideOp
  split
  · simp
  · split
    · exact State.scopeTrap_ok _ _ _ h0
    · split
      · exact State.scopeTrap_ok _ _ _ h0
      · exact State.gangWide_ok h0 (fun s i hs => hf _ _ hs)
      · dsimp only
        split
        · exact State.scopeTrap_ok _ _ _ h0
        · refine State.rendezvous_ok h0 (fun s p hs => ?_)
          split
          · exact hs
          · exact hf _ _ hs
      · refine State.rendezvous_ok h0 (fun s p hs => ?_)
        split
        · exact hs
        · exact hf _ _ hs

@[simp] theorem State.passAll_ok {s : State} (p : Performer) (h0 : s.Ok b) : (State.passAll s p).Ok b := by
  unfold State.passAll
  refine foldl_ok _ (fun s a hs => ?_) h0
  try dsimp only
  repeat' split
  all_goals simp (maxDischargeDepth := 40) +contextual [*]

theorem State.uniform_ok {s : State} {h : Hdr} {f : State → Issuer → Except Stop State} (h0 : s.Ok b) (hf : ∀ s i, s.Ok b → Got (State.Ok b) (f s i)) :
    Res.Keeps b (s.uniform h f) := by
  unfold State.uniform
  split
  · simp
  · split
    · exact State.gangWide_ok h0 hf
    · exact State.scopeTrap_ok _ _ _ h0

-- Machine/Operands.lean

@[simp] theorem State.passLate_ok {s : State} (i : Issuer) (la : Nat) (ws : List (Dest × W64)) (h0 : s.Ok b) : (State.passLate s i la ws).Ok b := by
  unfold State.passLate
  simp [*]

@[simp] theorem State.passWith_ok {s : State} (i : Issuer) (f : Gang → Gang) (h0 : s.Ok b) : (State.passWith s i f).Ok b := by
  unfold State.passWith
  simp [*]

@[simp] theorem State.passWide_ok {s : State} (p : Performer) (f : Gang → Gang) (h0 : s.Ok b) : (State.passWide s p f).Ok b := by
  unfold State.passWide
  try dsimp only [State.pick, State.pickBelow, State.fresh]
  repeat' split
  all_goals try dsimp only
  repeat' split
  all_goals simp (maxDischargeDepth := 40) +contextual [*]

end Sys2Proof.Machine
end

