-- ==== Sys2Proof/Laws/KeepsMemory.lean ====
section
/-! SUPPORT. What a step keeps of the device (`State.Ok`), said once for each function of the memory instructions, of the atomics and of fetching:
if the state it is given has it, so has every state it gives. -/

set_option Elab.async false

namespace Sys2Proof.Machine

open Sys2Proof

variable {b : Nat × Byte}

-- Machine/MemOps.lean

theorem storePiece_ok {acc : Tab Byte × State} (it : Bool) (lane : Nat) (piece : List (Nat × Byte)) (h0 : acc.2.Ok b) : (storePiece it lane acc piece).2.Ok b := by
  unfold storePiece
  dsimp only [State.pickBelow, State.pick]
  repeat' split
  all_goals simp (maxDischargeDepth := 40) [*]

@[simp] theorem State.resolveStores_ok {s : State} (ord : MemOrder) (it : Bool) (l : List LaneAcc) (data : Nat → List Byte) (h0 : s.Ok b) :
    (s.resolveStores ord it l data).2.Ok b := by
  unfold State.resolveStores
  refine foldl_keeps (P := fun x : Tab Byte × State => x.2.Ok b) _ (fun x a hx => ?_) h0
  exact foldl_keeps (P := fun x : Tab Byte × State => x.2.Ok b) _ (fun x a hx => storePiece_ok _ _ _ hx) hx

@[simp] theorem State.touchPages_ok {s : State} (core : Nat) (ps : List PageTr) (accs : List LaneAcc) (h0 : s.Ok b) : (State.touchPages s core ps accs).Ok b := by
  unfold State.touchPages
  simp (maxDischargeDepth := 40) +contextual [*]

@[simp] theorem State.loadAcc_ok {s : State} (core : Nat) (it : Bool) (agents : List Nat) (w : Viewer) (ord : MemOrder) (vis : Vis) (ps : List PageTr) (x : LaneAcc)
    (h0 : s.Ok b) : (s.loadAcc core it agents w ord vis ps x).2.Ok b := by
  unfold State.loadAcc
  exact foldl_keeps (P := fun x : List Byte × State => x.2.Ok b) _ (fun x a hx => State.recordRead_ok _ _ _ (State.loadPart_ok _ _ _ _ _ _ _ _ _ hx)) h0

theorem State.globalLoad_ok {s : State} (i : Issuer) (ord : MemOrder) (vis : Vis) (accs : List LaneAcc) (h0 : s.Ok b) :
    Got (fun x : List (Nat × Nat) × State => x.2.Ok b) (s.globalLoad i ord vis accs) := by
  unfold State.globalLoad
  refine got_skip (fun ps _ => got_skip (fun _ _ => got_skip (fun _ _ => ?_)))
  have hk : (accs.foldl (fun (acc : List (Nat × Nat) × State) x =>
      match acc.2.loadAcc i.tm.core ((s.touchPages i.tm.core ps (s.forwarded i.tm.core i.viewer ord vis ps accs)).itView i.viewer) i.agents i.viewer ord vis ps x with
      | (v, s) => (acc.1 ++ [(x.lane, v)], s)) ([], s.touchPages i.tm.core ps (s.forwarded i.tm.core i.viewer ord vis ps accs))).2.Ok b :=
    foldl_keeps (P := fun x : List (Nat × Nat) × State => x.2.Ok b) accs (fun x a hx => State.loadAcc_ok _ _ _ _ _ _ _ _ hx) (State.touchPages_ok _ _ _ h0)
  revert hk
  try dsimp only
  generalize List.foldl _ _ _ = r
  intro hk
  simp only [got_ok]
  split <;> simp (maxDischargeDepth := 40) [*]

@[simp] theorem State.storeUnits_ok {s : State} (agents : List Nat) (w : Viewer) (ord : MemOrder) (ps : List PageTr) (accs : List LaneAcc) (h0 : s.Ok b) :
    (s.storeUnits agents w ord ps accs).Ok b := by
  unfold State.storeUnits
  exact foldl_ok _ (fun s a hs => foldl_ok _ (fun s q hs => State.writeUnits_ok _ _ _ _ hs) hs) h0

@[simp] theorem State.storeBytes_ok {s : State} (core : Option Nat) (w : Viewer) (ps : List PageTr) (l : List (Nat × Byte)) (h0 : s.Ok b) : (State.storeBytes s core w ps l).Ok b := by
  unfold State.storeBytes
  refine foldl_ok _ (fun s a hs => ?_) h0
  try dsimp only
  split <;> simp (maxDischargeDepth := 40) [*]

theorem State.globalStore_ok {s : State} (i : Issuer) (ord : MemOrder) (accs : List LaneAcc) (data : Nat → List Byte) (h0 : s.Ok b) :
    Got (State.Ok b) (s.globalStore i ord accs data) := by
  unfold State.globalStore
  refine got_skip (fun ps _ => ?_)
  exact State.storeBytes_ok _ _ _ _ (State.storeUnits_ok _ _ _ _ _ (State.modLaunch_ok _ _ (State.resolveStores_ok _ _ _ _ (State.touchPages_ok _ _ _ h0))))

@[simp] theorem State.countRounds_ok {s : State} (core : Nat) (accs : List LaneAcc) (h0 : s.Ok b) : (State.countRounds s core accs).Ok b := by
  unfold State.countRounds
  simp [*]

-- Machine/Mem.lean

@[simp] theorem State.spadLoad_ok {s : State} (i : Issuer) (ord : MemOrder) (accs : List LaneAcc) (h0 : s.Ok b) : (s.spadLoad i ord accs).2.Ok b := by
  unfold State.spadLoad
  have key : (accs.foldl (fun (acc : List (Nat × Nat) × State) x =>
      match acc.2.readUnits (s.itView i.viewer) i.agents spadKey (fun a k => i.tm.spadBytes (a - spadLoc i.unit.team 0) k)
        (loadUnits ord x (spadLoc i.unit.team x.va) x.n) with
      | (bs, s') => (acc.1 ++ [(x.lane, leNat bs)], s')) ([], s)).2.Ok b :=
    foldl_keeps (P := fun x : List (Nat × Nat) × State => x.2.Ok b) accs (fun x a hx => State.readUnits_ok _ _ _ _ _ hx) h0
  revert key
  generalize List.foldl _ _ _ = r
  intro h
  simp only [State.modOrder_ok, h]

@[simp] theorem State.spadUnits_ok {s : State} (i : Issuer) (ord : MemOrder) (accs : List LaneAcc) (h0 : s.Ok b) : (s.spadUnits i ord accs).Ok b := by
  unfold State.spadUnits
  exact foldl_ok _ (fun s a hs => State.writeUnits_ok _ _ _ _ hs) h0

theorem State.loadValues_ok {s : State} (i : Issuer) (f : FmtM) (space : Space) (lanes : List Nat) (h0 : s.Ok b) :
    Got (fun x : List (Nat × Nat) × State => x.2.Ok b) (s.loadValues i f space lanes) := by
  unfold State.loadValues
  try dsimp only
  split
  all_goals repeat' with_reducible refine got_skip (fun _ _ => ?_)
  · exact State.globalLoad_ok _ _ _ _ h0
  all_goals simp (maxDischargeDepth := 40) [*]

theorem State.storeValues_ok {s : State} (i : Issuer) (f : FmtM) (space : Space) (lanes : List Nat) (h0 : s.Ok b) :
    Got (State.Ok b) (s.storeValues i f space lanes) := by
  unfold State.storeValues
  try dsimp only
  split
  all_goals repeat' with_reducible refine got_skip (fun _ _ => ?_)
  · exact State.globalStore_ok _ _ _ _ h0
  all_goals simp (maxDischargeDepth := 40) [*]

theorem State.laneLoad_ok {s : State} (h : Hdr) (f : FmtM) (space : Space) (h0 : s.Ok b) : Res.Keeps b (State.laneLoad s h f space) := by
  exact State.lane_ok h0 (fun i => got_skip (fun _ _ => got_bind (State.loadValues_ok _ _ _ _ h0) (fun a ha => State.passLate_ok _ _ _ ha)))

theorem State.laneStore_ok {s : State} (h : Hdr) (f : FmtM) (space : Space) (h0 : s.Ok b) : Res.Keeps b (State.laneStore s h f space) := by
  exact State.lane_ok h0 (fun i => got_skip (fun _ _ => got_bind (State.storeValues_ok _ _ _ _ h0) (fun a ha => State.passUnit_ok _ ha)))

theorem execLd_ok (h : Hdr) (f : FmtM) {s : State} (h0 : s.Ok b) : Res.Keeps b (execLd h f s) := State.laneLoad_ok _ _ _ h0

theorem execSt_ok (h : Hdr) (f : FmtM) {s : State} (h0 : s.Ok b) : Res.Keeps b (execSt h f s) := State.laneStore_ok _ _ _ h0

theorem execLds_ok (h : Hdr) (f : FmtM) {s : State} (h0 : s.Ok b) : Res.Keeps b (execLds h f s) := State.laneLoad_ok _ _ _ h0

theorem execSts_ok (h : Hdr) (f : FmtM) {s : State} (h0 : s.Ok b) : Res.Keeps b (execSts h f s) := State.laneStore_ok _ _ _ h0

theorem execLdl_ok (h : Hdr) (f : FmtM) {s : State} (h0 : s.Ok b) : Res.Keeps b (execLdl h f s) := State.laneLoad_ok _ _ _ h0

theorem execStl_ok (h : Hdr) (f : FmtM) {s : State} (h0 : s.Ok b) : Res.Keeps b (execStl h f s) := State.laneStore_ok _ _ _ h0

theorem execLdu_ok (h : Hdr) (f : FmtM) {s : State} (h0 : s.Ok b) : Res.Keeps b (execLdu h f s) := by
  exact State.gangOp_ok h0 (fun s i h0 => got_skip (fun _ _ => got_bind (State.loadValues_ok _ _ _ _ h0) (fun a ha => State.passLate_ok _ _ _ ha)))

theorem execStu_ok (h : Hdr) (f : FmtM) {s : State} (h0 : s.Ok b) : Res.Keeps b (execStu h f s) := by
  exact State.gangOp_ok h0 (fun s i h0 => got_skip (fun _ _ => got_bind (State.storeValues_ok _ _ _ _ h0) (fun a ha => State.passUnit_ok _ ha)))

theorem execPld_ok (h : Hdr) (room : Bool) (f : FmtM) {s : State} (h0 : s.Ok b) : Res.Keeps b (execPld h room f s) := by
  refine State.lane_ok h0 (fun i => got_skip (fun _ _ => ?_))
  refine State.passUnit_ok _ (foldl_ok _ (fun s a hs => ?_) h0)
  try dsimp only
  split
  · refine (State.ok_ite _ _ _).mpr ⟨fun _ => hs, fun _ => foldl_ok _ (fun s a hs => ?_) hs⟩
    split <;> simp (maxDischargeDepth := 40) [*]
  · exact hs

theorem execFence_ok (h : Hdr) (f : FmtM) {s : State} (h0 : s.Ok b) : Res.Keeps b (execFence h f s) := by
  unfold execFence
  try dsimp only
  split
  · exact State.gangWide_ok h0 (fun s i h0 => by simp (maxDischargeDepth := 40) [*])
  · exact State.lane_ok h0 (fun i => by simp (maxDischargeDepth := 40) [*])

theorem execCmaint_ok (h : Hdr) (all : Bool) (f : FmtM) {s : State} (h0 : s.Ok b) : Res.Keeps b (execCmaint h all f s) := by
  refine State.lane_ok h0 (fun i => ?_)
  try dsimp only
  split
  · simp (maxDischargeDepth := 40) [*]
  · refine got_skip (fun _ _ => State.passUnit_ok _ (foldl_ok _ (fun s a hs => ?_) h0))
    try dsimp only
    split <;> simp (maxDischargeDepth := 40) [*]

-- Machine/Atomics.lean

theorem State.atomUnit_ok {s : State} (i : Issuer) (mred : Bool) (j : AtomJob) (p : PageTr) (va : Nat) (lanes : List Nat) (h0 : s.Ok b) :
    Got (fun x : List (Nat × Nat) × Bool × State => x.2.2.Ok b) (s.atomUnit i mred j p va lanes) := by
  unfold State.atomUnit
  try dsimp only
  split
  · refine got_skip (fun _ _ => got_skip (fun _ _ => ?_))
    simp (maxDischargeDepth := 40) [*]
  · split
    · simp (maxDischargeDepth := 40) [*]
    · refine got_skip (fun _ _ => got_skip (fun _ _ => ?_))
      simp (maxDischargeDepth := 40) [*]

@[simp] theorem State.spadAtomics_ok {s : State} (i : Issuer) (j : AtomJob) (accs : List LaneAcc) (t : Team) (units : List Nat) (h0 : s.Ok b) :
    (s.spadAtomics i j accs t units).Ok b := by
  unfold State.spadAtomics
  exact foldl_ok _ (fun s a hs => State.atomicUnit_ok _ _ _ _ _ hs) h0

theorem State.atomUnits_ok {s : State} (i : Issuer) (mred : Bool) (j : AtomJob) (p : PageTr) (accs : List LaneAcc) (units : List Nat) (h0 : s.Ok b) :
    Got (fun x : List (Nat × Nat) × Bool × State => x.2.2.Ok b) (s.atomUnits i mred j p accs units) := by
  induction units generalizing s with
  | nil => exact h0
  | cons va rest ih =>
    unfold State.atomUnits
    exact got_bind (State.atomUnit_ok _ _ _ _ _ _ h0) (fun a ha => got_bind (ih ha) (fun a ha => ha))

theorem State.atomPage_ok {s : State} (i : Issuer) (mred : Bool) (j : AtomJob) (p : PageTr) (accs : List LaneAcc) (h0 : s.Ok b) :
    Got (fun x : List (Nat × Nat) × Bool × State => x.2.2.Ok b) (s.atomPage i mred j p accs) := by
  unfold State.atomPage
  exact got_skip (fun _ _ => got_skip (fun _ _ => got_bind (State.atomUnits_ok _ _ _ _ _ _ (State.touchPages_ok _ _ _ h0)) (fun a ha => State.modLaunch_ok _ _ ha)))

theorem State.atomPages_ok {s : State} (i : Issuer) (mred : Bool) (j : AtomJob) (d : Operand) (fuel : Nat) (accs : List LaneAcc)
    (olds : List (Nat × Nat)) (wrote : Bool) (h0 : s.Ok b) : (s.atomPages i mred j d fuel accs olds wrote).1.Ok b := by
  induction fuel generalizing s accs olds wrote with
  | zero => simpa [State.atomPages] using h0
  | succ n ih =>
    cases accs with
    | nil => simpa [State.atomPages] using h0
    | cons x r =>
      unfold State.atomPages
      dsimp only
      split
      · simp (maxDischargeDepth := 40) [*]
      · split
        · simp (maxDischargeDepth := 40) [*]
        · rename_i heq
          exact ih _ _ _ (got_elim (P := fun x : List (Nat × Nat) × Bool × State => x.2.2.Ok b) (State.atomPage_ok _ _ _ _ _ h0) heq)

theorem State.atomic_ok {s : State} (i : Issuer) (h : Hdr) (op : Option AtomOp) (ty : AtomTy) (space : Space) (mred : Bool) (f : FmtM) (h0 : s.Ok b) :
    Got (fun x : State × Option Stop => x.1.Ok b) (s.atomic i h op ty space mred f) := by
  unfold State.atomic
  refine got_skip (fun _ _ => ?_)
  split
  · refine got_skip (fun _ _ => got_skip (fun _ _ => ?_))
    have key := State.atomPages_ok i mred (i.atomJob op ty f (i.atomLanes h)) f.d 32 (i.g.accesses f .global false (i.atomLanes h) (atomBytes ty)) [] false h0
    split
    · rename_i heq
      rw [heq] at key
      exact key
    · rename_i heq
      rw [heq] at key
      replace key : State.Ok b _ := key
      simp only [got_ok]
      exact State.passLate_ok _ _ _ (by split <;> simp (maxDischargeDepth := 40) [*])
  · exact got_skip (fun _ _ => got_skip (fun _ _ => by simp (maxDischargeDepth := 40) [*]))

theorem State.atomicOp_ok {s : State} (h : Hdr) (op : Option AtomOp) (ty : AtomTy) (space : Space) (mred : Bool) (f : FmtM) (h0 : s.Ok b) : Res.Keeps b (State.atomicOp s h op ty space mred f) := by
  unfold State.atomicOp
  split
  · refine State.gangWide_ok h0 (fun s i h0 => ?_)
    have key := State.atomic_ok i h op ty space mred f h0
    split
    · trivial
    · rename_i heq
      rw [heq] at key
      exact key
    · trivial
  · split
    · simp
    · split
      · exact State.scopeTrap_ok _ _ _ h0
      · rename_i i _ _
        have key := State.atomic_ok i h op ty space mred f h0
        split
        · exact State.stop_ok _ _ h0
        · rename_i heq
          rw [heq] at key
          exact State.settle_ok _ _ h0 key
        · rename_i heq
          rw [heq] at key
          exact State.stop_ok _ _ key

theorem execAtom_ok (h : Hdr) (op : AtomOp) (ty : AtomTy) (f : FmtM) {s : State} (h0 : s.Ok b) : Res.Keeps b (execAtom h op ty f s) := State.atomicOp_ok _ _ _ _ _ _ h0

theorem execAcas_ok (h : Hdr) (ty : AtomTy) (f : FmtM) {s : State} (h0 : s.Ok b) : Res.Keeps b (execAcas h ty f s) := State.atomicOp_ok _ _ _ _ _ _ h0

theorem execMred_ok (h : Hdr) (op : AtomOp) (ty : AtomTy) (f : FmtM) {s : State} (h0 : s.Ok b) : Res.Keeps b (execMred h op ty f s) := State.atomicOp_ok _ _ _ _ _ _ h0

theorem execAtoms_ok (h : Hdr) (op : AtomOp) (ty : AtomTy) (f : FmtM) {s : State} (h0 : s.Ok b) : Res.Keeps b (execAtoms h op ty f s) := State.atomicOp_ok _ _ _ _ _ _ h0

theorem execAcass_ok (h : Hdr) (ty : AtomTy) (f : FmtM) {s : State} (h0 : s.Ok b) : Res.Keeps b (execAcass h ty f s) := State.atomicOp_ok _ _ _ _ _ _ h0

-- Machine/Fetch.lean

@[simp] theorem State.prepare_ok {s : State} (i : Issuer) (ins : Instr) (p : PageTr) (h0 : s.Ok b) : (State.prepare s i ins p).Ok b := by
  unfold State.prepare
  simp (maxDischargeDepth := 40) [*]

end Sys2Proof.Machine
end

