-- ==== Sys2Proof/Laws/KeepsControl.lean ====
section
/-! SUPPORT. What a step keeps of the device (`State.Ok`), said once for each function of triggers, groups, queues and control flow:
if the state it is given has it, so has every state it gives. -/

set_option Elab.async false

namespace Sys2Proof.Machine

open Sys2Proof

variable {b : Nat × Byte}

-- Machine/TriggerOps.lean

@[simp] theorem State.pollQueue_ok {s : State} (ctx q fuel : Nat) (h0 : s.Ok b) : (State.pollQueue s ctx q fuel).Ok b := by
  induction fuel generalizing s ctx q with
  | zero => exact h0
  | succ n ih =>
    unfold State.pollQueue
    try dsimp only
    repeat' split
    all_goals simp (maxDischargeDepth := 40) +contextual [*]

@[simp] theorem State.lookQueue_ok {s : State} (ctx q : Nat) (h0 : s.Ok b) : (State.lookQueue s ctx q).Ok b := by
  unfold State.lookQueue
  simp [*]

@[simp] theorem State.reserveSlot_ok {s : State} (ctx q : Nat) (h0 : s.Ok b) : (State.reserveSlot s ctx q).2.Ok b := by
  unfold State.reserveSlot
  dsimp only
  repeat' split
  all_goals simp (maxDischargeDepth := 40) [*]

theorem State.writeSlot_ok {s : State} (ctx q w : Nat) (bytes : List Byte) (h0 : s.Ok b) : ∀ t, s.writeSlot ctx q w bytes = some t → t.Ok b := by
  have h := State.writeOutside_ok ctx ((s.queue ctx q).slotAt w) bytes h0
  unfold State.writeSlot
  intro t ht
  dsimp only at ht
  split at ht
  · cases ht; exact h0
  · split at ht
    · next e => cases ht; exact State.lookQueue_ok _ _ (got_elim h e)
    · split at ht
      · cases ht
      · cases ht; exact h0

theorem State.enqueueFrom_ok {s : State} (ctx q src : Nat) (h0 : s.Ok b) : ∀ t, s.enqueueFrom ctx q src = some t → t.Ok b := by
  unfold State.enqueueFrom
  intro t ht
  split at ht
  · split at ht
    · cases ht
    · cases ht; exact h0
  · have h1 := State.reserveSlot_ok ctx q (State.noteOutside_ok ctx src 64 h0)
    dsimp only at ht
    cases ht
    cases e : State.writeSlot _ ctx q _ _ with
    | none => exact State.post_ok _ _ h1
    | some u => exact State.writeSlot_ok _ _ _ _ h1 u e

@[simp] theorem State.fireSlot_ok {s : State} (key : Nat) (h0 : s.Ok b) : (State.fireSlot s key).Ok b := by
  unfold State.fireSlot
  split
  · exact h0
  · dsimp only
    split
    · cases e : State.enqueueFrom _ _ _ _ with
      | none => simp (maxDischargeDepth := 40) [*]
      | some u => exact State.enqueueFrom_ok _ _ _ (by simp (maxDischargeDepth := 40) [*]) u e
    · simp (maxDischargeDepth := 40) [*]

@[simp] theorem State.evaluate_ok {s : State} (wing : Nat) (only : Option Nat) (h0 : s.Ok b) : (State.evaluate s wing only).Ok b := by
  unfold State.evaluate
  try dsimp only [State.pick, State.pickBelow, State.fresh]
  repeat' split
  all_goals try dsimp only
  repeat' split
  all_goals simp (maxDischargeDepth := 40) +contextual [*]

@[simp] theorem State.updateCtr_ok {s : State} (wing k : Nat) (set : Bool) (n : Nat) (h0 : s.Ok b) : (State.updateCtr s wing k set n).Ok b := by
  unfold State.updateCtr
  simp [*]

@[simp] theorem State.countDone_ok {s : State} (c : Option Nat) (h0 : s.Ok b) : (State.countDone s c).Ok b := by
  unfold State.countDone
  split <;> simp [*]

theorem State.doPost_ok {s : State} (ctx : Nat) (p : Post) (h0 : s.Ok b) : ∀ t, s.doPost ctx p = some t → t.Ok b := by
  unfold State.doPost
  intro t ht
  split at ht
  · next a val intr ctr =>
    cases e : s.putWord ctx a val with
    | none => rw [e] at ht; cases ht
    | some u =>
      have hu := State.putWord_ok ctx a val h0 u e
      rw [e] at ht
      cases ht
      split <;> simp (maxDischargeDepth := 40) [hu]
  · exact State.enqueueFrom_ok _ _ _ h0 t ht
  · exact State.writeSlot_ok _ _ _ _ h0 t ht

-- Machine/EngineOps.lean

@[simp] theorem State.issueEngine_ok {s : State} (team : Nat) (op : EngOp) (h0 : s.Ok b) : (State.issueEngine s team op).Ok b := by
  unfold State.issueEngine
  simp [*]

@[simp] theorem State.engineRead_ok {s : State} (marked : Nat → Bool) (byte : Nat → Byte) (locs : List Nat) (h0 : s.Ok b) :
    (s.engineRead marked byte locs).2.2.Ok b := by
  unfold State.engineRead
  split <;> simp (maxDischargeDepth := 40) [*]

@[simp] theorem State.segDone_ok {s : State} (team op : Nat) (q : Seg) (err : Byte) (h0 : s.Ok b) : (State.segDone s team op q err).Ok b := by
  unfold State.segDone
  repeat' split
  all_goals simp (maxDischargeDepth := 40) [*]

@[simp] theorem State.segSkipped_ok {s : State} (team op : Nat) (q : Seg) (h0 : s.Ok b) : (State.segSkipped s team op q).Ok b := by
  unfold State.segSkipped
  simp [*]

-- Machine/GroupOps.lean

@[simp] theorem State.deliver_ok {s : State} (m : Member) (a : Arrival) (x : W64) (h0 : s.Ok b) : (State.deliver s m a x).Ok b := by
  unfold State.deliver
  dsimp only
  repeat' split
  all_goals simp (maxDischargeDepth := 40) [*]

@[simp] theorem State.completePhases_ok {s : State} (ctx slot fuel : Nat) (h0 : s.Ok b) : (State.completePhases s ctx slot fuel).Ok b := by
  induction fuel generalizing s ctx slot with
  | zero => exact h0
  | succ n ih =>
    unfold State.completePhases
    try dsimp only [State.pick, State.pickBelow, State.fresh]
    repeat' split
    all_goals simp (maxDischargeDepth := 40) +contextual [*]

@[simp] theorem State.leaveGroup_ok {s : State} (ctx slot team gang : Nat) (h0 : s.Ok b) : (State.leaveGroup s ctx slot team gang).Ok b := by
  unfold State.leaveGroup
  simp [*]

@[simp] theorem State.leaveAll_ok {s : State} (ctx team gang : Nat) (h0 : s.Ok b) : (State.leaveAll s ctx team gang).Ok b := by
  unfold State.leaveAll
  refine foldl_ok _ (fun s a hs => ?_) h0
  try dsimp only
  repeat' split
  all_goals simp (maxDischargeDepth := 40) +contextual [*]

-- Machine/Queues.lean

@[simp] theorem State.serveQueue_ok {s : State} (team q fuel : Nat) (h0 : s.Ok b) : (State.serveQueue s team q fuel).Ok b := by
  induction fuel generalizing s team q with
  | zero => exact h0
  | succ n ih =>
    unfold State.serveQueue
    repeat' split
    all_goals simp (maxDischargeDepth := 40) [*]

@[simp] theorem State.serveQueues_ok {s : State} (team : Nat) (h0 : s.Ok b) : (State.serveQueues s team).Ok b := by
  unfold State.serveQueues
  try dsimp only [State.pick, State.pickBelow, State.fresh]
  repeat' split
  all_goals try dsimp only
  repeat' split
  all_goals simp (maxDischargeDepth := 40) +contextual [*]

theorem execQdef_ok (h : Hdr) (f : FmtT) {s : State} (h0 : s.Ok b) : Res.Keeps b (execQdef h f s) := State.wideOp_ok h0 (fun s w h0 => by simp (maxDischargeDepth := 40) [*])

theorem execQpush_ok (h : Hdr) (try_ : Bool) (f : FmtT) {s : State} (h0 : s.Ok b) : Res.Keeps b (execQpush h try_ f s) := by
  refine State.gangOp_ok h0 (fun s i h0 => ?_)
  repeat' (first | split | with_reducible refine got_skip (fun _ _ => ?_))
  all_goals simp (maxDischargeDepth := 40) [*]

theorem execQpop_ok (h : Hdr) (try_ : Bool) (f : FmtT) {s : State} (h0 : s.Ok b) : Res.Keeps b (execQpop h try_ f s) := by
  refine State.gangOp_ok h0 (fun s i h0 => ?_)
  repeat' (first | split | with_reducible refine got_skip (fun _ _ => ?_))
  all_goals simp (maxDischargeDepth := 40) [*]

-- Machine/Groups.lean

theorem execGnew_ok (h : Hdr) (f : FmtT) {s : State} (h0 : s.Ok b) : Res.Keeps b (execGnew h f s) := by
  refine State.wideOp_ok h0 (fun s w h0 => got_skip (fun _ _ => ?_))
  try dsimp only
  split <;> simp (maxDischargeDepth := 40) [*]

theorem execGjoin_ok (h : Hdr) (f : FmtT) {s : State} (h0 : s.Ok b) : Res.Keeps b (execGjoin h f s) := State.gangOp_ok h0 (fun s i h0 => by simp (maxDischargeDepth := 40) [*])

theorem execGleave_ok (h : Hdr) (f : FmtT) {s : State} (h0 : s.Ok b) : Res.Keeps b (execGleave h f s) := State.gangOp_ok h0 (fun s i h0 => by simp (maxDischargeDepth := 40) [*])

@[simp] theorem State.arrive_ok {s : State} (i : Issuer) (a : Operand) (ok : Bool) (arr : Arrival) (h0 : s.Ok b) : Got (State.Ok b) (State.arrive s i a ok arr) := by
  unfold State.arrive
  repeat' with_reducible refine got_skip (fun _ _ => ?_)
  split <;> simp (maxDischargeDepth := 40) [*]

theorem execGbar_ok (h : Hdr) (f : FmtT) {s : State} (h0 : s.Ok b) : Res.Keeps b (execGbar h f s) := State.gangOp_ok h0 (fun s i h0 => by simp [*])

theorem execGvote_ok (h : Hdr) (all : Bool) (f : FmtT) {s : State} (h0 : s.Ok b) : Res.Keeps b (execGvote h all f s) := State.gangOp_ok h0 (fun s i h0 => by simp [*])

theorem execGred_ok (h : Hdr) (op : RedOp) (f : FmtT) {s : State} (h0 : s.Ok b) : Res.Keeps b (execGred h op f s) := State.gangOp_ok h0 (fun s i h0 => by simp [*])

theorem execGreset_ok (h : Hdr) (f : FmtT) {s : State} (h0 : s.Ok b) : Res.Keeps b (execGreset h f s) := State.gangOp_ok h0 (fun s i h0 => by simp (maxDischargeDepth := 40) [*])

theorem execGinfo_ok (h : Hdr) (f : FmtT) {s : State} (h0 : s.Ok b) : Res.Keeps b (execGinfo h f s) := State.gangOp_ok h0 (fun s i h0 => by simp (maxDischargeDepth := 40) [*])

-- Machine/Control.lean

theorem execNop_ok {s : State} (h0 : s.Ok b) : Res.Keeps b (execNop s) := State.perform_ok h0 (fun i => by simp [*])

theorem execBra_ok (h : Hdr) (disp : W32) {s : State} (h0 : s.Ok b) : Res.Keeps b (execBra h disp s) := State.lane_ok h0 (fun i => by simp [*])

theorem execBcc_ok (h : Hdr) (cond : Cond) (disp : W32) {s : State} (h0 : s.Ok b) : Res.Keeps b (execBcc h cond disp s) := State.lane_ok h0 (fun i => by simp [*])

theorem State.branchMask_ok {s : State} (h : Hdr) (onZero : Bool) (disp : W32) (h0 : s.Ok b) : Res.Keeps b (State.branchMask s h onZero disp) := by
  refine State.lane_ok h0 (fun i => ?_)
  try dsimp only
  split <;> simp (maxDischargeDepth := 40) [*]

theorem execBmz_ok (h : Hdr) (disp : W32) {s : State} (h0 : s.Ok b) : Res.Keeps b (execBmz h disp s) := State.branchMask_ok _ _ _ h0

theorem execBmnz_ok (h : Hdr) (disp : W32) {s : State} (h0 : s.Ok b) : Res.Keeps b (execBmnz h disp s) := State.branchMask_ok _ _ _ h0

@[simp] theorem State.transfer_ok {s : State} (i : Issuer) (a : W64) (link : Bool) (h0 : s.Ok b) : Got (State.Ok b) (State.transfer s i a link) := by
  unfold State.transfer
  simp [*]

theorem execBind_ok (h : Hdr) (a : Operand) {s : State} (h0 : s.Ok b) : Res.Keeps b (execBind h a s) := State.uniform_ok h0 (fun s i h0 => by simp [*])

theorem execCall_ok (h : Hdr) (disp : W32) {s : State} (h0 : s.Ok b) : Res.Keeps b (execCall h disp s) := State.uniform_ok h0 (fun s i h0 => by simp [*])

theorem execCalli_ok (h : Hdr) (a : Operand) {s : State} (h0 : s.Ok b) : Res.Keeps b (execCalli h a s) := State.uniform_ok h0 (fun s i h0 => by simp [*])

theorem execRet_ok (h : Hdr) {s : State} (h0 : s.Ok b) : Res.Keeps b (execRet h s) := State.uniform_ok h0 (fun s i h0 => by simp [*])

theorem execRegang_ok (h : Hdr) {s : State} (h0 : s.Ok b) : Res.Keeps b (execRegang h s) := by
  unfold execRegang
  split
  · simp
  · split
    · exact State.scopeTrap_ok _ _ _ h0
    · split
      · exact State.settle_ok _ _ h0 (by simp (maxDischargeDepth := 40) [*])
      · exact State.rendezvous_ok h0 (fun s p hs => by simp (maxDischargeDepth := 40) [*])

@[simp] theorem State.dropHome_ok {s : State} (ctx team gang : Nat) (h0 : s.Ok b) : (State.dropHome s ctx team gang).Ok b := by
  unfold State.dropHome
  simp [*]

@[simp] theorem State.gangRetired_ok {s : State} (ctx team gang : Nat) (h0 : s.Ok b) : (State.gangRetired s ctx team gang).Ok b := by
  unfold State.gangRetired
  repeat' split
  all_goals simp (maxDischargeDepth := 40) [*]

theorem execExit_ok (h : Hdr) {s : State} (h0 : s.Ok b) : Res.Keeps b (execExit h s) := State.lane_ok h0 (fun i => by simp [*])

theorem execYield_ok (h : Hdr) {s : State} (h0 : s.Ok b) : Res.Keeps b (execYield h s) := State.lane_ok h0 (fun i => by simp [*])

theorem execEnter_ok (h : Hdr) (size : W32) {s : State} (h0 : s.Ok b) : Res.Keeps b (execEnter h size s) := State.uniform_ok h0 (fun s i h0 => by simp (maxDischargeDepth := 40) [*])

theorem execLeave_ok (h : Hdr) {s : State} (h0 : s.Ok b) : Res.Keeps b (execLeave h s) := State.uniform_ok h0 (fun s i h0 => by simp (maxDischargeDepth := 40) [*])

@[simp] theorem State.debugTrap_ok {s : State} (i : Issuer) (h : Hdr) (cause : Nat) (info : W64) (h0 : s.Ok b) : (State.debugTrap s i h cause info).Ok b := by
  unfold State.debugTrap
  simp [*]

theorem execBkpt_ok (h : Hdr) {s : State} (h0 : s.Ok b) : Res.Keeps b (execBkpt h s) := State.lane_ok h0 (fun i => by
  simp only [got_ok]
  split <;> simp (maxDischargeDepth := 40) [*])

theorem execTrap_ok (h : Hdr) (code : W32) {s : State} (h0 : s.Ok b) : Res.Keeps b (execTrap h code s) := State.lane_ok h0 (fun i => by simp [*])

theorem execRte_ok (h : Hdr) {s : State} (h0 : s.Ok b) : Res.Keeps b (execRte h s) := State.lane_ok h0 (fun i => by simp [*])

end Sys2Proof.Machine
end

