-- ==== Sys2Proof/Laws/KeepsEngines.lean ====
section
/-! SUPPORT. What a step keeps of the device (`State.Ok`), said once for each function of the engines, of transfers and of the host's queues:
if the state it is given has it, so has every state it gives. -/

set_option Elab.async false

namespace Sys2Proof.Machine

open Sys2Proof

variable {b : Nat × Byte}

-- Machine/Engines.lean

theorem execCopy_ok (h : Hdr) (shape : CopyShape) (out yld : Bool) (f : FmtT) {s : State} (h0 : s.Ok b) : Res.Keeps b (execCopy h shape out yld f s) := State.gangOp_ok h0 (fun s i h0 => by simp (maxDischargeDepth := 40) [*])

theorem execGather_ok (h : Hdr) (f : FmtT) {s : State} (h0 : s.Ok b) : Res.Keeps b (execGather h f s) := State.gangOp_ok h0 (fun s i h0 => by simp (maxDischargeDepth := 40) [*])

theorem execScatter_ok (h : Hdr) (mode : ScatterMode) (f : FmtT) {s : State} (h0 : s.Ok b) : Res.Keeps b (execScatter h mode f s) := State.gangOp_ok h0 (fun s i h0 => by simp (maxDischargeDepth := 40) [*])

theorem execAbinit_ok (h : Hdr) (f : FmtT) {s : State} (h0 : s.Ok b) : Res.Keeps b (execAbinit h f s) := State.gangOp_ok h0 (fun s i h0 => by simp (maxDischargeDepth := 40) [*])

theorem execAbarr_ok (h : Hdr) (f : FmtT) {s : State} (h0 : s.Ok b) : Res.Keeps b (execAbarr h f s) := State.gangOp_ok h0 (fun s i h0 => by simp (maxDischargeDepth := 40) [*])

theorem execAbexp_ok (h : Hdr) (f : FmtT) {s : State} (h0 : s.Ok b) : Res.Keeps b (execAbexp h f s) := State.gangOp_ok h0 (fun s i h0 => by simp (maxDischargeDepth := 40) [*])

@[simp] theorem State.report_ok {s : State} (i : Issuer) (h : Hdr) (d : Operand) (test : Bool) (r : Option Byte) (h0 : s.Ok b) : (State.report s i h d test r).Ok b := by
  unfold State.report
  simp (maxDischargeDepth := 40) [*]

theorem execAbwait_ok (h : Hdr) (f : FmtT) {s : State} (h0 : s.Ok b) : Res.Keeps b (execAbwait h f s) := by
  refine State.gangOp_ok h0 (fun s i h0 => got_skip (fun x _ => ?_))
  dsimp only
  split <;> simp (maxDischargeDepth := 40) [*]

theorem execAbtest_ok (h : Hdr) (f : FmtT) {s : State} (h0 : s.Ok b) : Res.Keeps b (execAbtest h f s) :=
  State.gangOp_ok h0 (fun s i h0 => got_skip (fun x _ => by simp (maxDischargeDepth := 40) [*]))

/-- What a tried segment leaves, if it lands. -/
def Tried.Keeps (b : Nat × Byte) : Tried → Prop
  | .done s _ => s.Ok b
  | _ => True
@[simp] theorem tried_done (s : State) (e : Byte) : (Tried.done s e).Keeps b ↔ s.Ok b := Iff.rfl
@[simp] theorem tried_fault (p : Nat) : (Tried.fault p).Keeps b ↔ True := Iff.rfl
@[simp] theorem tried_full (p : Nat) : (Tried.full p).Keeps b ↔ True := Iff.rfl
@[simp] theorem tried_absent (p : Nat) : (Tried.absent p).Keeps b ↔ True := Iff.rfl
@[simp] theorem tried_bad : Tried.bad.Keeps b ↔ True := Iff.rfl
@[simp] theorem tried_waits : Tried.waits.Keeps b ↔ True := Iff.rfl
@[simp] theorem tried_ite (c : Prop) [Decidable c] (x y : Tried) : (if c then x else y).Keeps b ↔ (c → x.Keeps b) ∧ (¬c → y.Keeps b) := by
  split <;> simp (maxDischargeDepth := 40) [*]
theorem tried_elim {x : Tried} {s : State} {e : Byte} (h : x.Keeps b) (hx : x = .done s e) : s.Ok b := by
  subst hx
  exact h

theorem State.trySeg_ok {s : State} (team : Nat) (t : Team) (q : Seg) (h0 : s.Ok b) : (s.trySeg team t q).Keeps b := by
  have store : ∀ {s : State} (x : Except Stop Unit) (w : Viewer) (ps : List PageTr) (l : List (Nat × Byte)) (f : Launch → Launch), s.Ok b →
      (match x with
        | .error (.pool _ n) => Tried.full n
        | .error _ => .waits
        | .ok _ => .done ((s.modLaunch t.launch f).storeBytes none w ps l) 0).Keeps b := by
    intro s x w ps l f hs
    split <;> simp (maxDischargeDepth := 40) [*]
  have reads : ∀ {s : State} (m : Nat → Bool) (y : Nat → Byte) (l : List Nat) (f : Nat → Bool) (g : Nat → Nat) (l' : List Nat), s.Ok b →
      (l'.foldl (fun s va => s.recordRead t.launch (f va) (g va)) (s.engineRead m y l).2.2).Ok b :=
    fun m y l f g l' hs => foldl_ok _ (fun s a hs => by simp (maxDischargeDepth := 40) [*]) (by simp (maxDischargeDepth := 40) [*])
  unfold State.trySeg
  dsimp only [State.pickBelow, State.pick]
  split
  · simp (maxDischargeDepth := 40) [*]
  · simp (maxDischargeDepth := 40) [*]
  · split
    all_goals simp only [tried_done, tried_fault, tried_bad, tried_waits, tried_absent]
    · simp (maxDischargeDepth := 40) [*]
    · exact State.modTeam_ok _ _ (reads _ _ _ _ _ _ h0)
  · split
    · trivial
    · split
      all_goals first | trivial | exact store _ _ _ _ _ h0
  · split
    · trivial
    · split
      all_goals first | trivial | skip
      split
      · rename_i heq
        exact tried_elim (store _ _ _ _ _ (reads _ _ _ _ _ _ h0)) heq
      · exact store _ _ _ _ _ (reads _ _ _ _ _ _ h0)
  · split
    · split
      all_goals simp (maxDischargeDepth := 40) [*]
    · repeat' split
      all_goals first | trivial | simp (maxDischargeDepth := 40) [*]
  · refine (tried_ite _ _ _).mpr ⟨fun _ => trivial, fun _ => (tried_ite _ _ _).mpr ⟨fun _ => ?_, fun _ => ?_⟩⟩
    · split
      all_goals first | trivial | skip
      split
      · trivial
      · simp (maxDischargeDepth := 40) [*]
    · repeat' split
      all_goals first | trivial | simp (maxDischargeDepth := 40) [*]

theorem execEngineLand_ok (team op seg : Nat) {s : State} (h0 : s.Ok b) : Res.Keeps b (execEngineLand team op seg s) := by
  unfold execEngineLand
  split
  · simp
  · split
    · simp
    · split
      · simp
      · split
        · simp (maxDischargeDepth := 40) [*]
        · split
          · rename_i heq
            have hd := tried_elim (State.trySeg_ok _ _ _ h0) heq
            simp (maxDischargeDepth := 40) [*]
          all_goals simp (maxDischargeDepth := 40) [*]

theorem State.replayFix_ok {s : State} (team op : Nat) (l : List Seg) (h0 : s.Ok b) : Res.Keeps b (State.replayFix s team op l) := by
  induction l generalizing s with
  | nil => simpa [State.replayFix] using h0
  | cons q r ih =>
    unfold State.replayFix
    split
    · simp (maxDischargeDepth := 40) [*]
    · split
      · rename_i heq
        have hd := tried_elim (State.trySeg_ok _ _ _ h0) heq
        exact ih (State.segDone_ok _ _ _ _ hd)
      · exact ih (State.segDone_ok _ _ _ _ h0)
      · exact ih (State.segDone_ok _ _ _ _ h0)
      all_goals simp (maxDischargeDepth := 40) [*]

theorem execFixupReplay_ok (team op : Nat) {s : State} (h0 : s.Ok b) : Res.Keeps b (execFixupReplay team op s) := by
  unfold execFixupReplay
  split
  · simp
  · split
    · exact State.replayFix_ok _ _ _ h0
    · simp

@[simp] theorem State.notifyEnd_ok {s : State} (asid : Nat) (o : EngOp) (h0 : s.Ok b) : (State.notifyEnd s asid o).Ok b := by
  unfold State.notifyEnd
  split <;> simp [*]

theorem execEngineArrival_ok (team op : Nat) {s : State} (h0 : s.Ok b) : Res.Keeps b (execEngineArrival team op s) := by
  unfold execEngineArrival
  repeat' split
  all_goals simp (maxDischargeDepth := 40) [*]

theorem execCopyYieldResume_ok (team op : Nat) {s : State} (h0 : s.Ok b) : Res.Keeps b (execCopyYieldResume team op s) := by
  unfold execCopyYieldResume
  repeat' split
  all_goals simp (maxDischargeDepth := 40) [*]

-- Machine/MatOps.lean

@[simp] theorem State.issueMat_ok {s : State} (team : Nat) (op : MatOp) (h0 : s.Ok b) : (State.issueMat s team op).Ok b := by
  unfold State.issueMat
  simp [*]

@[simp] theorem State.issueRank_ok {s : State} (i : Issuer) (ins : Instr) (reg : Nat) (d : W128) (srcs : List W128) (words : List W64) (p : Place) (h0 : s.Ok b) : (State.issueRank s i ins reg d srcs words p).Ok b := by
  unfold State.issueRank
  repeat' split
  all_goals simp (maxDischargeDepth := 40) [*]

@[simp] theorem State.mixBytes_ok {s : State} (t : Team) (op : MatOp) (h0 : s.Ok b) : (s.mixBytes t op).2.Ok b := by
  unfold State.mixBytes
  exact foldl_keeps (P := fun x : Tab Byte × State => x.2.Ok b) _ (fun x a hx => by simpa [State.pick] using hx) h0

@[simp] theorem State.countSkips_ok {s : State} (core : Nat) (op : MatOp) (rd : Nat → Byte) (h0 : s.Ok b) : (State.countSkips s core op rd).Ok b := by
  unfold State.countSkips
  try dsimp only [State.pick, State.pickBelow, State.fresh]
  repeat' split
  all_goals try dsimp only
  repeat' split
  all_goals simp (maxDischargeDepth := 40) +contextual [*]

-- Machine/Tiles.lean

@[simp] theorem State.writeTile_ok {s : State} (i : Issuer) (reg : Nat) (r : W128) (ret : List Nat) (h0 : s.Ok b) : (State.writeTile s i reg r ret).Ok b := by
  unfold State.writeTile
  simp [*]

theorem execTdef_ok (h : Hdr) (kind : TdefKind) (fmt : Fmt) (f : FmtT) {s : State} (h0 : s.Ok b) : Res.Keeps b (execTdef h kind fmt f s) := by
  refine State.gangOp_ok h0 (fun s i h0 => ?_)
  repeat' (first | split | with_reducible refine got_skip (fun _ _ => ?_))
  all_goals simp (maxDischargeDepth := 40) [*]

theorem execTldr_ok (h : Hdr) (f : FmtT) {s : State} (h0 : s.Ok b) : Res.Keeps b (execTldr h f s) := by
  refine State.gangOp_ok h0 (fun s i h0 => got_skip (fun r _ => got_skip (fun _ _ => got_skip (fun ret _ => ?_))))
  refine got_bind (Q := fun x : Nat × State => x.2.Ok b) ?_ (fun a ha => got_skip (fun _ _ => ?_))
  · split
    · exact got_skip (fun _ _ => got_bind (State.globalLoad_ok _ _ _ _ h0) (fun a ha => ha))
    · refine got_skip (fun _ _ => ?_)
      simp (maxDischargeDepth := 40) [*]
  · simp (maxDischargeDepth := 40) [*]

theorem execTstr_ok (h : Hdr) (f : FmtT) {s : State} (h0 : s.Ok b) : Res.Keeps b (execTstr h f s) := by
  refine State.gangOp_ok h0 (fun s i h0 => got_skip (fun r _ => got_skip (fun _ _ => ?_)))
  try dsimp only
  split
  · exact got_skip (fun _ _ => got_bind (State.globalStore_ok _ _ _ _ h0) (fun a ha => State.passUnit_ok _ ha))
  · simp (maxDischargeDepth := 40) [*]

theorem execTget_ok (h : Hdr) (part : TgetPart) (f : FmtT) {s : State} (h0 : s.Ok b) : Res.Keeps b (execTget h part f s) := State.gangOp_ok h0 (fun s i h0 => by simp (maxDischargeDepth := 40) [*])

theorem execTpool_ok (h : Hdr) (fmt : Fmt) (f : FmtT) {s : State} (h0 : s.Ok b) : Res.Keeps b (execTpool h fmt f s) := State.gangOp_ok h0 (fun s i h0 => by simp (maxDischargeDepth := 40) [*])

theorem execTzero_ok (h : Hdr) (f : FmtT) {s : State} (h0 : s.Ok b) : Res.Keeps b (execTzero h f s) := by
  refine State.gangOp_ok h0 (fun s i h0 => ?_)
  repeat' (first | split | with_reducible refine got_skip (fun _ _ => ?_))
  all_goals simp (maxDischargeDepth := 40) [*]

theorem execTfree_ok (h : Hdr) (f : FmtT) {s : State} (h0 : s.Ok b) : Res.Keeps b (execTfree h f s) := State.gangOp_ok h0 (fun s i h0 => by simp (maxDischargeDepth := 40) [*])

theorem execAccrel_ok (h : Hdr) (f : FmtT) {s : State} (h0 : s.Ok b) : Res.Keeps b (execAccrel h f s) := by
  refine State.gangOp_ok h0 (fun s i h0 => ?_)
  repeat' (first | split | with_reducible refine got_skip (fun _ _ => ?_))
  all_goals simp (maxDischargeDepth := 40) [*]

theorem execMbatch_ok (h : Hdr) (f : FmtT) {s : State} (h0 : s.Ok b) : Res.Keeps b (execMbatch h f s) := State.gangOp_ok h0 (fun s i h0 => by simp [*])

theorem execMwait_ok (h : Hdr) (f : FmtT) {s : State} (h0 : s.Ok b) : Res.Keeps b (execMwait h f s) := State.gangOp_ok h0 (fun s i h0 => by simp (maxDischargeDepth := 40) [*])

@[simp] theorem State.stashCopy_ok {s : State} (i : Issuer) (va : Nat) (bs : List Byte) (h0 : s.Ok b) : Got (State.Ok b) (s.stashCopy i va bs) := by
  unfold State.stashCopy
  exact got_skip (fun _ _ => got_skip (fun ps _ => State.storeBytes_ok _ _ _ _ (State.modLaunch_ok _ _ (State.touchPages_ok _ _ _ h0))))

@[simp] theorem plainInfo_ok (done : Bool) {r : Except Stop State} (h : Got (State.Ok b) r) : Got (State.Ok b) (plainInfo done r) := by
  unfold plainInfo
  split
  · trivial
  · trivial
  · exact h

theorem execStash_ok (h : Hdr) (fmt : Fmt) (f : FmtM) {s : State} (h0 : s.Ok b) : Res.Keeps b (execStash h fmt f s) := by
  refine State.gangOp_ok h0 (fun s i h0 => got_skip (fun _ _ => got_skip (fun r _ => got_skip (fun _ _ => got_skip (fun _ _ => got_skip (fun _ _ => ?_))))))
  dsimp only
  refine got_skip (fun _ _ => got_skip (fun _ _ => got_skip (fun _ _ => got_skip (fun _ _ => ?_))))
  split
  · trivial
  · split
    · trivial
    · split
      · exact got_bind (plainInfo_ok _ (State.stashCopy_ok _ _ _ h0)) (fun a ha => State.passUnit_ok _ ha)
      · refine got_bind (State.stashCopy_ok _ _ _ h0) (fun a ha => ?_)
        split
        · rename_i heq
          exact State.passUnit_ok _ (got_elim (P := State.Ok b) (State.stashCopy_ok _ _ _ (State.modGang_ok _ _ _ ha)) heq)
        · simp (maxDischargeDepth := 40) [*]

-- Machine/Collective.lean

@[simp] theorem State.modRing_ok {s : State} (ctx g : Nat) (f : Ring → Ring) (h0 : s.Ok b) : (State.modRing s ctx g f).Ok b := by
  unfold State.modRing
  simp [*]

@[simp] theorem State.collSend_ok {s : State} (c : Coll) (pos : Nat) (kind : ChunkKind) (index : Nat) (xs : List W64) (h0 : s.Ok b) : (State.collSend s c pos kind index xs).Ok b := by
  unfold State.collSend
  simp [*]

@[simp] theorem State.collEnd_ok {s : State} (id : Nat) (c : Coll) (err : Byte) (h0 : s.Ok b) : (State.collEnd s id c err).Ok b := by
  unfold State.collEnd
  simp [*]

@[simp] theorem State.collCheck_ok {s : State} (id : Nat) (h0 : s.Ok b) : (State.collCheck s id).Ok b := by
  unfold State.collCheck
  split <;> simp [*]

@[simp] theorem State.collLand_ok {s : State} (id : Nat) (c : Coll) (k lo : Nat) (xs : List W64) (h0 : s.Ok b) : (State.collLand s id c k lo xs).Ok b := by
  unfold State.collLand
  simp [*]

@[simp] theorem State.collTake_ok {s : State} (id : Nat) (ch : Chunk) (h0 : s.Ok b) : (State.collTake s id ch).Ok b := by
  unfold State.collTake
  dsimp only
  repeat' split
  all_goals simp (maxDischargeDepth := 40) [*]

@[simp] theorem State.collStart_ok {s : State} (id : Nat) (c : Coll) (t : Team) (h0 : s.Ok b) : (State.collStart s id c t).Ok b := by
  unfold State.collStart
  dsimp only
  repeat' split
  all_goals simp (maxDischargeDepth := 40) +contextual [*]

@[simp] theorem State.collHeld_ok {s : State} (id : Nat) (c : Coll) (h0 : s.Ok b) : (State.collHeld s id c).Ok b := by
  unfold State.collHeld
  simp (maxDischargeDepth := 40) +contextual [*]

theorem execColl_ok (h : Hdr) (op : CollOp) (red : RedOp) (f : FmtT) {s : State} (h0 : s.Ok b) : Res.Keeps b (execColl h op red f s) := State.wideOp_ok h0 (fun s w h0 => by simp (maxDischargeDepth := 40) [*])

theorem execCollStagingGrant_ok (coll : Nat) {s : State} (h0 : s.Ok b) : Res.Keeps b (execCollStagingGrant coll s) := by
  unfold execCollStagingGrant
  repeat' split
  all_goals simp (maxDischargeDepth := 40) [*]

theorem execChunkArrival_ok (c : Chunk) {s : State} (h0 : s.Ok b) : Res.Keeps b (execChunkArrival c s) := by
  unfold execChunkArrival
  dsimp only
  repeat' split
  all_goals simp (maxDischargeDepth := 40) [*]

theorem execCollTimeout_ok (coll : Nat) {s : State} (h0 : s.Ok b) : Res.Keeps b (execCollTimeout coll s) := by
  unfold execCollTimeout
  repeat' split
  all_goals simp [*]

@[simp] theorem State.endExpired_ok {s : State} (team : Nat) (h0 : s.Ok b) : (State.endExpired s team).Ok b := by
  unfold State.endExpired
  exact foldl_ok _ (fun s a hs => State.collEnd_ok _ _ _ hs) h0

theorem execSpanmap_ok (h : Hdr) (f : FmtT) {s : State} (h0 : s.Ok b) : Res.Keeps b (execSpanmap h f s) := by
  refine State.gangOp_ok h0 (fun s i h0 => got_skip (fun _ _ => got_skip (fun _ _ => ?_)))
  try dsimp only
  split
  · trivial
  · refine got_skip (fun _ _ => ?_)
    refine got_bind (Q := fun x : List (Nat × Nat) × State => x.2.Ok b) ?_ (fun a ha => got_skip (fun _ _ => ?_))
    · split
      · exact h0
      · exact State.globalLoad_ok _ _ _ _ h0
    · simp (maxDischargeDepth := 40) [*]

theorem execSpanst_ok (h : Hdr) (f : FmtT) {s : State} (h0 : s.Ok b) : Res.Keeps b (execSpanst h f s) := State.gangOp_ok h0 (fun s i h0 => by simp [*])

-- Machine/Transfers.lean

theorem execXget_ok (h : Hdr) (f : FmtT) {s : State} (h0 : s.Ok b) : Res.Keeps b (execXget h f s) := State.gangOp_ok h0 (fun s i h0 => by simp (maxDischargeDepth := 40) [*])

theorem execXput_ok (h : Hdr) (f : FmtT) {s : State} (h0 : s.Ok b) : Res.Keeps b (execXput h f s) := State.gangOp_ok h0 (fun s i h0 => by simp (maxDischargeDepth := 40) [*])

@[simp] theorem State.bounce_ok {s : State} (ctx va : Nat) (bs : List Byte) (h0 : s.Ok b) : (State.bounce s ctx va bs).Ok b := by
  unfold State.bounce
  repeat' split
  all_goals simp (maxDischargeDepth := 40) [*]

@[simp] theorem State.later_ok {s : State} (e : Instr) (h0 : s.Ok b) : (State.later s e).Ok b := by
  unfold State.later
  simp [*]

/-- What incoming data leaves, if it is written. -/
def Incoming.Keeps (b : Nat × Byte) : Incoming → Prop
  | .write s => s.Ok b
  | _ => True
theorem State.incomingPage_ok {s : State} (ctx va : Nat) (bs : List Byte) (h0 : s.Ok b) : (s.incomingPage ctx va bs).Keeps b := by
  unfold State.incomingPage
  repeat' split
  all_goals first | trivial | simp [Incoming.Keeps, *]

theorem State.bounceAll_ok {s : State} (ctx : Nat) (l : List (Nat × List Byte)) (h0 : s.Ok b) : (s.bounceAll ctx l).1.Ok b := by
  induction l generalizing s with
  | nil => exact h0
  | cons x r ih =>
    obtain ⟨va, bs⟩ := x
    unfold State.bounceAll
    split
    · exact ih (State.bounce_ok _ _ _ h0)
    · exact h0

theorem State.incoming_ok {s : State} (ctx : Nat) (l : List (Nat × List Byte)) (bad : Bool) (h0 : s.Ok b) :
    Got (fun x : State × Bool × List (Nat × List Byte) => x.1.Ok b) (s.incoming ctx l bad) := by
  induction l generalizing s bad with
  | nil => exact h0
  | cons x r ih =>
    obtain ⟨va, bs⟩ := x
    unfold State.incoming
    have hp := State.incomingPage_ok ctx va bs h0
    split
    · rename_i heq
      rw [heq] at hp
      exact ih _ hp
    · exact ih _ h0
    · have hb := State.bounceAll_ok ctx (bounceRuns 20 va bs) h0
      dsimp only
      split
      · exact ih _ hb
      · exact hb
    · exact h0
    · trivial

theorem execXputReceive_ok (ctx : Nat) (addr : W64) (data : List Byte) (notify : Option Nat) {s : State} (h0 : s.Ok b) : Res.Keeps b (execXputReceive ctx addr data notify s) := by
  unfold execXputReceive
  split
  · simp (maxDischargeDepth := 40) [*]
  · have key := fun k => State.incoming_ok k (pageRuns (data.length / 65536 + 2) addr.toNat data) false h0
    split
    · simp
    · rename_i heq
      replace key := got_elim (P := fun x : State × Bool × List (Nat × List Byte) => x.1.Ok b) (key _) heq
      dsimp only at key ⊢
      repeat' split
      all_goals simp (maxDischargeDepth := 40) [*]

theorem execXgetRequest_ok (ctx : Nat) (addr : W64) (len : Nat) {s : State} (h0 : s.Ok b) : Res.Keeps b (execXgetRequest ctx addr len s) := by
  unfold execXgetRequest
  dsimp only
  repeat' split
  all_goals simp (maxDischargeDepth := 40) [*]

theorem execTrigarm_ok (h : Hdr) (f : FmtT) {s : State} (h0 : s.Ok b) : Res.Keeps b (execTrigarm h f s) := by
  refine State.gangOp_ok h0 (fun s i h0 => ?_)
  repeat' (first | split | with_reducible refine got_skip (fun _ _ => ?_))
  all_goals simp (maxDischargeDepth := 40) [*]

theorem execTrigcnt_ok (h : Hdr) (f : FmtT) {s : State} (h0 : s.Ok b) : Res.Keeps b (execTrigcnt h f s) := State.gangOp_ok h0 (fun s i h0 => by simp (maxDischargeDepth := 40) [*])

theorem execTrigdis_ok (h : Hdr) (f : FmtT) {s : State} (h0 : s.Ok b) : Res.Keeps b (execTrigdis h f s) := State.gangOp_ok h0 (fun s i h0 => by simp (maxDischargeDepth := 40) [*])

/-- What one word of a trigger action leaves, if it is moved. -/
def ActWord.Keeps (b : Nat × Byte) : ActWord → Prop
  | .done s _ => s.Ok b
  | _ => True
theorem State.actWord_ok {s : State} (t : Trigger) (src dst : W64) (h0 : s.Ok b) : (s.actWord t src dst).Keeps b := by
  unfold State.actWord
  split
  · trivial
  · trivial
  · trivial
  · trivial
  · split
    rename_i bs e u heq
    have hu : u.Ok b := by
      have h2 := congrArg (fun r : List Byte × Byte × State => r.2.2) heq
      dsimp only at h2
      rw [← h2]
      split
      · exact State.engineRead_ok _ _ _ h0
      · exact h0
    clear heq
    dsimp only [State.pickBelow, State.pick]
    repeat' split
    all_goals first | trivial | simp [ActWord.Keeps, *]

theorem State.actRun_ok {s : State} (t : Trigger) (n : Nat) (h0 : s.Ok b) : (s.actRun t n).1.Ok b := by
  induction n generalizing s t with
  | zero => exact h0
  | succ n ih =>
    unfold State.actRun
    split
    · exact h0
    · have hw := State.actWord_ok t t.src t.dst h0
      split
      · rename_i heq
        rw [heq] at hw
        exact ih _ hw
      · exact ih _ h0
      · exact ih _ h0
      · exact h0

theorem State.actReplay_ok {s : State} (t : Trigger) (l : List (W64 × W64)) (h0 : s.Ok b) : (s.actReplay t l).1.Ok b := by
  induction l generalizing s t with
  | nil => exact h0
  | cons p r ih =>
    unfold State.actReplay
    have hw := State.actWord_ok t p.1 p.2 h0
    split
    · rename_i heq
      rw [heq] at hw
      exact ih _ hw
    · exact ih _ h0

@[simp] theorem State.actDone_ok {s : State} (t : Trigger) (h0 : s.Ok b) : (State.actDone s t).Ok b := by
  unfold State.actDone
  split
  · exact State.countDone_ok _ h0
  · dsimp only
    split
    · rename_i heq
      exact State.countDone_ok _ (State.putWord_ok _ _ _ h0 _ heq)
    · exact State.post_ok _ _ h0

theorem execTriggerActionComplete_ok (ctx idx : Nat) (err : Byte) {s : State} (h0 : s.Ok b) : Res.Keeps b (execTriggerActionComplete ctx idx err s) := by
  unfold execTriggerActionComplete
  dsimp only
  split
  · simp
  · split
    · simp
    · split
      · simp
      · next t _ _ _ _ =>
        have hr := State.actReplay_ok t t.fix h0
        have hw := State.actRun_ok t ((s.pickBelow (t.len / 4)).1 + 1) (State.pickBelow_ok (t.len / 4) h0)
        repeat' split
        all_goals simp (maxDischargeDepth := 40) [*]

-- Machine/HostQueues.lean

@[simp] theorem State.whenOn_ok {s t : State} (h0 : s.Ok b) (ht : t.Ok b) : Res.Keeps b (s.whenOn t) := by
  unfold State.whenOn
  split <;> simp (maxDischargeDepth := 40) [*]

theorem execHdmRead_ok (addr len : Nat) {s : State} (h0 : s.Ok b) : Res.Keeps b (execHdmRead addr len s) := by
  unfold execHdmRead
  dsimp only
  repeat' split
  all_goals simp (maxDischargeDepth := 40) [*]

theorem execHdmWrite_ok (addr : Nat) (data : List Byte) {s : State} (h0 : s.Ok b) : Res.Keeps b (execHdmWrite addr data s) := by
  unfold execHdmWrite
  try dsimp only
  split
  · simp (maxDischargeDepth := 40) [*]
  · split <;> simp (maxDischargeDepth := 40) [*]

theorem execRemoteLineRequest_ok (ctx addr : Nat) (write : Option (List Byte)) {s : State} (h0 : s.Ok b) : Res.Keeps b (execRemoteLineRequest ctx addr write s) := by
  unfold execRemoteLineRequest
  dsimp only
  repeat' split
  all_goals simp (maxDischargeDepth := 40) [*]

theorem execQrsv_ok (slot queue : Nat) {s : State} (h0 : s.Ok b) : Res.Keeps b (execQrsv slot queue s) := by
  unfold execQrsv
  dsimp only [State.pick]
  split <;> simp (maxDischargeDepth := 40) [*]

theorem execQdb_ok (slot queue : Nat) {s : State} (h0 : s.Ok b) : Res.Keeps b (execQdb slot queue s) := by
  unfold execQdb
  simp [*]

theorem execQueuePollTimer_ok (slot queue : Nat) {s : State} (h0 : s.Ok b) : Res.Keeps b (execQueuePollTimer slot queue s) := by
  unfold execQueuePollTimer
  simp [*]

theorem execQreset_ok (slot queue : Nat) (val : W64) {s : State} (h0 : s.Ok b) : Res.Keeps b (execQreset slot queue val s) := by
  unfold execQreset
  simp [*]

theorem execCstopClear_ok (slot queue : Nat) {s : State} (h0 : s.Ok b) : Res.Keeps b (execCstopClear slot queue s) := by
  unfold execCstopClear
  simp [*]

theorem execBncrp_ok (slot : Nat) (val : W64) {s : State} (h0 : s.Ok b) : Res.Keeps b (execBncrp slot val s) := by
  unfold execBncrp
  try dsimp only [State.pick, State.pickBelow, State.fresh]
  repeat' split
  all_goals try dsimp only
  repeat' split
  all_goals simp (maxDischargeDepth := 40) +contextual [*]

end Sys2Proof.Machine
end

