-- ==== Sys2Proof/Laws/KeepsDevice.lean ====
section
/-! SUPPORT. What a step keeps of the device (`State.Ok`), said once for each function of the scalar and system instructions, of contexts, of the fleet controller and of the boot controller:
if the state it is given has it, so has every state it gives. -/

set_option Elab.async false

namespace Sys2Proof.Machine

open Sys2Proof

variable {b : Nat × Byte}

-- Machine/Scalar.lean

theorem State.scalar_ok {s : State} (h : Hdr) (f : FmtR) (run : Gang → Wide → Except Stop (Gang → Gang)) (h0 : s.Ok b) : Res.Keeps b (State.scalar s h f run) := State.wideOp_ok h0 (fun s w h0 => by simp [*])

theorem State.scalarInt_ok {s : State} (h : Hdr) (f : FmtR) (op : IntOp) (h0 : s.Ok b) : Res.Keeps b (State.scalarInt s h f op) := by
  refine State.wideOp_ok h0 (fun s w h0 => got_skip (fun _ _ => ?_))
  try dsimp only
  simp only [got_ok]
  exact foldl_ok _ (fun s a hs => State.modGang_ok _ _ _ hs) h0

theorem execSadd_ok (h : Hdr) (f : FmtR) {s : State} (h0 : s.Ok b) : Res.Keeps b (execSadd h f s) := State.scalarInt_ok _ _ _ h0

theorem execSsub_ok (h : Hdr) (f : FmtR) {s : State} (h0 : s.Ok b) : Res.Keeps b (execSsub h f s) := State.scalarInt_ok _ _ _ h0

theorem execSmul_ok (h : Hdr) (hi : Bool) (f : FmtR) {s : State} (h0 : s.Ok b) : Res.Keeps b (execSmul h hi f s) := State.scalarInt_ok _ _ _ h0

theorem execSmad_ok (h : Hdr) (f : FmtR) {s : State} (h0 : s.Ok b) : Res.Keeps b (execSmad h f s) := State.scalarInt_ok _ _ _ h0

theorem execSdiv_ok (h : Hdr) (f : FmtR) {s : State} (h0 : s.Ok b) : Res.Keeps b (execSdiv h f s) := State.scalarInt_ok _ _ _ h0

theorem execSrem_ok (h : Hdr) (f : FmtR) {s : State} (h0 : s.Ok b) : Res.Keeps b (execSrem h f s) := State.scalarInt_ok _ _ _ h0

theorem execSlop_ok (h : Hdr) (lut : Byte) (f : FmtR) {s : State} (h0 : s.Ok b) : Res.Keeps b (execSlop h lut f s) := State.scalarInt_ok _ _ _ h0

theorem execSshf_ok (h : Hdr) (k : ShiftOp) (f : FmtR) {s : State} (h0 : s.Ok b) : Res.Keeps b (execSshf h k f s) := State.scalarInt_ok _ _ _ h0

theorem execSmin_ok (h : Hdr) (f : FmtR) {s : State} (h0 : s.Ok b) : Res.Keeps b (execSmin h f s) := State.scalarInt_ok _ _ _ h0

theorem execSmax_ok (h : Hdr) (f : FmtR) {s : State} (h0 : s.Ok b) : Res.Keeps b (execSmax h f s) := State.scalarInt_ok _ _ _ h0

theorem execSbit_ok (h : Hdr) (k : BitOp) (f : FmtR) {s : State} (h0 : s.Ok b) : Res.Keeps b (execSbit h k f s) := State.scalarInt_ok _ _ _ h0

theorem execSmov_ok (h : Hdr) (hi : Bool) (f : FmtR) {s : State} (h0 : s.Ok b) : Res.Keeps b (execSmov h hi f s) := State.scalar_ok _ _ _ h0

theorem execScmp_ok (h : Hdr) (f : FmtR) {s : State} (h0 : s.Ok b) : Res.Keeps b (execScmp h f s) := State.scalar_ok _ _ _ h0

theorem execSsel_ok (h : Hdr) (cond : Cond) (f : FmtR) {s : State} (h0 : s.Ok b) : Res.Keeps b (execSsel h cond f s) := State.scalar_ok _ _ _ h0

theorem execSfop_ok (h : Hdr) (k : SfopOp) (f : FmtR) {s : State} (h0 : s.Ok b) : Res.Keeps b (execSfop h k f s) := State.wideOp_ok h0 (fun s w h0 => by simp [*])

-- Machine/System.lean

@[simp] theorem State.tick_ok {s : State} (h0 : s.Ok b) : (State.tick s).Ok b := by
  unfold State.tick
  simp [*]

theorem execSget_ok (h : Hdr) (r : SReg) (f : FmtR) {s : State} (h0 : s.Ok b) : Res.Keeps b (execSget h r f s) := by
  refine State.wideOp_ok h0 (fun s w h0 => ?_)
  try dsimp only
  refine got_skip (fun _ _ => got_skip (fun _ _ => got_skip (fun _ _ => got_skip (fun _ _ => ?_))))
  exact foldl_ok _ (fun s a hs => State.modGang_ok _ _ _ hs) (by split <;> simp (maxDischargeDepth := 40) [*])

theorem execSset_ok (h : Hdr) (r : SReg) (f : FmtR) {s : State} (h0 : s.Ok b) : Res.Keeps b (execSset h r f s) := State.wideOp_ok h0 (fun s w h0 => by simp (maxDischargeDepth := 40) [*])

theorem execMop_ok (h : Hdr) (k : MaskOp) (f : FmtR) {s : State} (h0 : s.Ok b) : Res.Keeps b (execMop h k f s) := State.wideOp_ok h0 (fun s w h0 => by simp (maxDischargeDepth := 40) [*])

theorem execTrq_ok (h : Hdr) (drop : Bool) (f : FmtR) {s : State} (h0 : s.Ok b) : Res.Keeps b (execTrq h drop f s) := by
  refine State.gangOp_ok h0 (fun s i h0 => ?_)
  repeat' (first | split | with_reducible refine got_skip (fun _ _ => ?_))
  all_goals simp (maxDischargeDepth := 40) [*]

@[simp] theorem State.perfFree_ok {s : State} (core ctr : Nat) (h0 : s.Ok b) : (State.perfFree s core ctr).Ok b := by
  unfold State.perfFree
  simp [*]

@[simp] theorem State.readPerf_ok {s : State} (i : Issuer) (c : PerfCtr) (h0 : s.Ok b) : (State.readPerf s i c).2.Ok b := by
  unfold State.readPerf
  split <;> simp [*]

theorem execPerf_ok (h : Hdr) (c : PerfCtr) (f : FmtR) {s : State} (h0 : s.Ok b) : Res.Keeps b (execPerf h c f s) := by
  refine State.gangOp_ok h0 (fun s i h0 => got_skip (fun _ _ => ?_))
  exact State.passWith_ok _ _ (State.readPerf_ok _ _ h0)

-- Machine/Records.lean

@[simp] theorem State.takeRec_ok {s : State} (ctx : Nat) (r : ReadyRec) (h0 : s.Ok b) : (s.takeRec ctx r).1.Ok b := by
  unfold State.takeRec
  split <;> simp (maxDischargeDepth := 40) [*]

@[simp] theorem State.noteSets_ok {s : State} (ctx : Nat) (r : LaunchRec) (h0 : s.Ok b) : (State.noteSets s ctx r).Ok b := by
  unfold State.noteSets
  split <;> simp [*]

@[simp] theorem State.newTag_ok {s : State} (ctx : Nat) (h0 : s.Ok b) : (State.newTag s ctx).2.Ok b := by
  unfold State.newTag
  simp [*]

-- Machine/Dispatching.lean

@[simp] theorem State.startLaunch_ok {s : State} (ctx : Nat) (r : ReadyRec) (lrec : LaunchRec) (sets : List SetDecl) (replay : Option Nat) (h0 : s.Ok b) : (State.startLaunch s ctx r lrec sets replay).2.Ok b := by
  unfold State.startLaunch
  simp [*]

theorem execDispatch_ok (ctx idx : Nat) {s : State} (h0 : s.Ok b) : Res.Keeps b (execDispatch ctx idx s) := by
  unfold execDispatch
  split
  · simp
  · rename_i r _
    have ht := State.takeRec_ok ctx r h0
    dsimp only
    repeat' split
    all_goals simp only [keeps_next, keeps_refused]
    · exact ht
    · exact State.inQueueOrder_ok _ _ (State.endRecord_ok _ _ _ _ _ _ _ (State.newTag_ok _ ht))
    · exact State.inQueueOrder_ok _ _ (State.endRecord_ok _ _ _ _ _ _ _ (State.newTag_ok _ ht))
    · exact State.startLaunch_ok _ _ _ _ _ (State.noteSets_ok _ _ ht)

theorem execCkpt_ok (ctx idx : Nat) {s : State} (h0 : s.Ok b) : Res.Keeps b (execCkpt ctx idx s) := by
  unfold execCkpt
  split
  · simp
  · rename_i r _
    have ht := State.takeRec_ok ctx r h0
    dsimp only
    repeat' split
    all_goals simp (maxDischargeDepth := 40) [*]

theorem execRecompute_ok (ctx idx : Nat) {s : State} (h0 : s.Ok b) : Res.Keeps b (execRecompute ctx idx s) := by
  unfold execRecompute
  split
  · simp
  · rename_i r _
    have ht := State.takeRec_ok ctx r h0
    dsimp only
    repeat' split
    all_goals simp (maxDischargeDepth := 40) [*]

@[simp] theorem State.pickPlaces_ok {s : State} (core n : Nat) (h0 : s.Ok b) : (State.pickPlaces s core n).2.Ok b := by
  unfold State.pickPlaces
  simp (maxDischargeDepth := 40) +contextual [*]

@[simp] theorem State.placeTeam_ok {s : State} (launch grid core : Nat) (h0 : s.Ok b) : (State.placeTeam s launch grid core).Ok b := by
  unfold State.placeTeam
  dsimp only
  repeat' split
  all_goals simp (maxDischargeDepth := 40) [*]

theorem State.placeAll_ok {s : State} (launch grid ctx core : Nat) (r : LaunchRec) (n : Nat) (h0 : s.Ok b) :
    ∀ t, s.placeAll launch grid ctx core r n = some t → t.Ok b := by
  induction n generalizing s with
  | zero =>
    intro t ht
    cases ht
    exact h0
  | succ n ih =>
    intro t ht
    unfold State.placeAll at ht
    split at ht
    · cases ht
    · exact ih (State.placeTeam_ok _ _ _ h0) t ht

theorem State.tryPlace_ok {s : State} (launch grid core : Nat) (h0 : s.Ok b) : ∀ t, (State.tryPlace s launch grid core) = some t → t.Ok b := by
  intro t ht
  unfold State.tryPlace at ht
  repeat' split at ht
  all_goals first
    | (cases ht; done)
    | exact State.placeAll_ok _ _ _ _ _ _ h0 _ ht
    | (cases ht; simp (maxDischargeDepth := 40) [*])

theorem execTeamPlace_ok (launch grid core : Nat) {s : State} (h0 : s.Ok b) : Res.Keeps b (execTeamPlace launch grid core s) := by
  unfold execTeamPlace
  split
  · simp
  · rename_i heq
    split
    · simp
    · exact (keeps_next _).mpr (State.tryPlace_ok _ _ _ h0 _ heq)

theorem execTeamRetire_ok (team : Nat) {s : State} (h0 : s.Ok b) : Res.Keeps b (execTeamRetire team s) := by
  unfold execTeamRetire
  repeat' split
  all_goals simp (maxDischargeDepth := 40) [*]

-- Machine/Commit.lean

@[simp] theorem State.commitWrites_ok {s : State} (ctx self : Nat) (writes : Tab Byte) (h0 : s.Ok b) : (State.commitWrites s ctx self writes).Ok b := by
  unfold State.commitWrites
  dsimp only
  simp (maxDischargeDepth := 40) +contextual [*]

@[simp] theorem State.reportMerge_ok {s : State} (ctx va lo hi : Nat) (h0 : s.Ok b) : (State.reportMerge s ctx va lo hi).Ok b := by
  unfold State.reportMerge
  simp [*]

@[simp] theorem State.appendSeg_ok {s : State} (L : Launch) (h0 : s.Ok b) : (State.appendSeg s L).Ok b := by
  unfold State.appendSeg
  repeat' split
  all_goals simp [*]

theorem execLaunchCommit_ok (launch : Nat) {s : State} (h0 : s.Ok b) : Res.Keeps b (execLaunchCommit launch s) := by
  unfold execLaunchCommit
  repeat' split
  all_goals simp (maxDischargeDepth := 40) [*]

theorem execPoolFull_ok (launch : Nat) {s : State} (h0 : s.Ok b) : Res.Keeps b (execPoolFull launch s) := by
  unfold execPoolFull
  repeat' split
  all_goals simp (maxDischargeDepth := 40) [*]

theorem execIrrevocablePublish_ok (launch : Nat) {s : State} (h0 : s.Ok b) : Res.Keeps b (execIrrevocablePublish launch s) := by
  unfold execIrrevocablePublish
  repeat' split
  all_goals simp (maxDischargeDepth := 40) [*]

@[simp] theorem State.replayRetire_ok {s : State} (ctx q launch : Nat) (L : Launch) (h0 : s.Ok b) : (State.replayRetire s ctx q launch L).Ok b := by
  unfold State.replayRetire
  repeat' split
  all_goals simp (maxDischargeDepth := 40) [*]

@[simp] theorem State.replayDispatch_ok {s : State} (ctx q : Nat) (r : Replay) (lrec : LaunchRec) (sets : List SetDecl) (rest : List (LaunchRec × List SetDecl)) (h0 : s.Ok b) : (State.replayDispatch s ctx q r lrec sets rest).Ok b := by
  unfold State.replayDispatch
  simp [*]

theorem State.replayStep_ok {s : State} (ctx q : Nat) (r : Replay) (h0 : s.Ok b) : ∀ t, (State.replayStep s ctx q r) = some t → t.Ok b := by
  unfold State.replayStep
  repeat' split
  all_goals simp (maxDischargeDepth := 40) [*]

theorem execReplayNext_ok (ctx : Nat) {s : State} (h0 : s.Ok b) : Res.Keeps b (execReplayNext ctx s) := by
  unfold execReplayNext
  split
  · rename_i t l heq
    have hm : t ∈ (s.ctx ctx).replays.filterMap (fun p => s.replayStep ctx p.1 p.2) := by rw [heq]; exact List.mem_cons_self ..
    obtain ⟨p, -, hp⟩ := List.mem_filterMap.mp hm
    exact (keeps_next _).mpr (State.inQueueOrder_ok _ _ (State.replayStep_ok _ _ _ h0 _ hp))
  · simp

-- Machine/Contexts.lean

theorem State.ctxCommand_ok {s : State} (slot : Nat) {f : State → Option State} (h0 : s.Ok b) (hf : ∀ u, u.Ok b → ∀ t, f u = some t → t.Ok b) :
    (s.ctxCommand slot f).Ok b := by
  unfold State.ctxCommand
  try dsimp only
  split
  · exact h0
  · split
    · simp (maxDischargeDepth := 40) [*]
    · split
      · rename_i heq
        have := hf _ (by simp (maxDischargeDepth := 40) [*]) _ heq
        simp (maxDischargeDepth := 40) [*]
      · simp (maxDischargeDepth := 40) [*]

theorem State.entryCommand_ok {s : State} (slot : Nat) (e : Instr) {f : State → State} (h0 : s.Ok b) (hf : ∀ u, u.Ok b → (f u).Ok b) :
    Res.Keeps b (s.entryCommand slot e f) := by
  unfold State.entryCommand
  dsimp only
  repeat' split
  all_goals simp (maxDischargeDepth := 40) [*]

theorem execCtxLoad_ok (slot : Nat) {s : State} (h0 : s.Ok b) : Res.Keeps b (execCtxLoad slot s) := by
  refine State.entryCommand_ok _ _ h0 (fun v hv => State.ctxCommand_ok _ hv (fun u hu t ht => ?_))
  dsimp only at ht
  split at ht
  · cases ht
  · cases ht
    simp (maxDischargeDepth := 40) [*]

@[simp] theorem State.raisePrq_ok {s : State} (teams : List Nat) (h0 : s.Ok b) : (State.raisePrq s teams).Ok b := by
  unfold State.raisePrq
  try dsimp only [State.pick, State.pickBelow, State.fresh]
  repeat' split
  all_goals try dsimp only
  repeat' split
  all_goals simp (maxDischargeDepth := 40) +contextual [*]

theorem execCtxSave_ok (slot : Nat) {s : State} (h0 : s.Ok b) : Res.Keeps b (execCtxSave slot s) := by
  unfold execCtxSave
  refine (keeps_next _).mpr (State.ctxCommand_ok _ h0 (fun u hu t ht => ?_))
  dsimp only at ht
  split at ht
  · cases ht
  · cases ht
    simp (maxDischargeDepth := 40) [*]

theorem execCtxSaveDone_ok (slot : Nat) {s : State} (h0 : s.Ok b) : Res.Keeps b (execCtxSaveDone slot s) := by
  unfold execCtxSaveDone
  simp [*]

@[simp] theorem State.resumeHeld_ok {s : State} (launch : Nat) (h0 : s.Ok b) : (State.resumeHeld s launch).Ok b := by
  unfold State.resumeHeld
  try dsimp only [State.pick, State.pickBelow, State.fresh]
  repeat' split
  all_goals try dsimp only
  repeat' split
  all_goals simp (maxDischargeDepth := 40) +contextual [*]

theorem execCtxResume_ok (slot : Nat) {s : State} (h0 : s.Ok b) : Res.Keeps b (execCtxResume slot s) := by
  unfold execCtxResume
  refine (keeps_next _).mpr (State.ctxCommand_ok _ h0 (fun u hu t ht => ?_))
  dsimp only at ht
  split at ht
  · cases ht
  · cases ht
    exact foldl_ok _ (fun s a hs => State.resumeHeld_ok _ hs) hu

@[simp] theorem State.killAll_ok {s : State} (ctx : Nat) (h0 : s.Ok b) : (State.killAll s ctx).Ok b := by
  unfold State.killAll
  try dsimp only [State.pick, State.pickBelow, State.fresh]
  repeat' split
  all_goals try dsimp only
  repeat' split
  all_goals simp (maxDischargeDepth := 40) +contextual [*]

theorem execCtxKill_ok (slot : Nat) {s : State} (h0 : s.Ok b) : Res.Keeps b (execCtxKill slot s) := by
  unfold execCtxKill
  refine (keeps_next _).mpr (State.ctxCommand_ok _ h0 (fun u hu t ht => ?_))
  split at ht
  · cases ht
  · cases ht
    simp (maxDischargeDepth := 40) [*]

theorem execCtxUnload_ok (slot : Nat) {s : State} (h0 : s.Ok b) : Res.Keeps b (execCtxUnload slot s) := by
  unfold execCtxUnload
  refine (keeps_next _).mpr (State.ctxCommand_ok _ h0 (fun u hu t ht => ?_))
  dsimp only at ht
  split at ht
  · cases ht
  · cases ht
    simp (maxDischargeDepth := 40) [*]

theorem execCtxUpool_ok (slot : Nat) {s : State} (h0 : s.Ok b) : Res.Keeps b (execCtxUpool slot s) := by
  refine State.entryCommand_ok _ _ h0 (fun v hv => State.ctxCommand_ok _ hv (fun u hu t ht => ?_))
  dsimp only at ht
  split at ht
  · cases ht
  · cases ht
    simp (maxDischargeDepth := 40) [*]

theorem State.tlbCommand_ok {s : State} (val : W64) (cmd : Nat) {f : State → State} (h0 : s.Ok b) (hf : ∀ u, u.Ok b → (f u).Ok b) :
    (s.tlbCommand val cmd f).Ok b := by
  unfold State.tlbCommand
  split
  · exact h0
  · split
    · simp (maxDischargeDepth := 40) [*]
    · exact hf _ (by simp (maxDischargeDepth := 40) [*])

@[simp] theorem State.mapTlbs_ok {s : State} (f : List TlbEntry → List TlbEntry) (h0 : s.Ok b) : (State.mapTlbs s f).Ok b := by
  unfold State.mapTlbs
  simp [*]

theorem execTlbMark_ok (val : W64) {s : State} (h0 : s.Ok b) : Res.Keeps b (execTlbMark val s) := by
  unfold execTlbMark
  exact (keeps_next _).mpr (State.tlbCommand_ok _ _ h0 (fun u hu => by simp (maxDischargeDepth := 40) [*]))

theorem execTlbMarkDrained_ok {s : State} (h0 : s.Ok b) : Res.Keeps b (execTlbMarkDrained s) := by
  unfold execTlbMarkDrained
  simp [*]

@[simp] theorem State.moveFrame_ok {s : State} (m : FrameMove) (h0 : s.Ok b) : (State.moveFrame s m).Ok b := by
  unfold State.moveFrame
  simp [*]

@[simp] theorem State.releaseWalks_ok {s : State} (ctx : Nat) (h0 : s.Ok b) : (State.releaseWalks s ctx).Ok b := by
  unfold State.releaseWalks
  simp [*]

theorem execTlbConfirm_ok (val : W64) {s : State} (h0 : s.Ok b) : Res.Keeps b (execTlbConfirm val s) := by
  unfold execTlbConfirm
  refine (keeps_next _).mpr (State.tlbCommand_ok _ _ h0 (fun u hu => ?_))
  dsimp only
  have abort : ∀ (l : List Nat) (k n : Nat) {v : State}, v.Ok b → ((l.foldl (fun (s : State) id => s.conflictAbort id) v).inQueueOrder k n).Ok b :=
    fun l k n v hv => State.inQueueOrder_ok _ _ (foldl_ok _ (fun s a hs => State.conflictAbort_ok _ hs) hv)
  split
  · refine State.releaseWalks_ok _ (State.mapTlbs_ok _ ?_)
    split
    · exact hu
    · refine (State.ok_ite _ _ _).mpr ⟨fun _ => hu, fun _ => abort _ _ _ ?_⟩
      split
      · exact State.moveFrame_ok _ hu
      · exact hu
  · refine State.mapTlbs_ok _ ?_
    split
    · exact hu
    · refine (State.ok_ite _ _ _).mpr ⟨fun _ => hu, fun _ => abort _ _ _ ?_⟩
      split
      · exact State.moveFrame_ok _ hu
      · exact hu

-- Machine/FleetOps.lean

theorem State.modeInForce_ok {s : State} (m : W64) (h0 : s.Ok b) (hm : modeOk m = true) : (s.modeInForce m).Ok b := by
  unfold State.modeInForce
  refine State.raiseEvent_ok _ ?_
  unfold State.Ok at h0 ⊢
  exact ⟨h0.1, ⟨hm, h0.2.1.2⟩, h0.2.2⟩

theorem execModeWrite_ok (val : W64) {s : State} (h0 : s.Ok b) : Res.Keeps b (execModeWrite val s) := by
  unfold execModeWrite
  try dsimp only
  refine State.whenOn_ok h0 ?_
  split
  · simp (maxDischargeDepth := 40) [*]
  · rename_i hc
    have hm : modeOk val = true := by
      cases hv : modeOk val
      · simp [hv] at hc
      · rfl
    split
    · unfold State.Ok at h0 ⊢
      exact ⟨h0.1, ⟨h0.2.1.1, fun _ => hm⟩, h0.2.2⟩
    · exact State.modeInForce_ok _ h0 hm

theorem execEccChangeDone_ok {s : State} (h0 : s.Ok b) : Res.Keeps b (execEccChangeDone s) := by
  unfold execEccChangeDone
  split
  · simp
  · rename_i hb
    have hn : modeOk s.fleet.next = true := by
      unfold State.Ok at h0
      exact h0.2.1.2 (by simpa using hb)
    refine (keeps_next _).mpr (State.modeInForce_ok _ ?_ hn)
    unfold State.Ok at h0 ⊢
    exact ⟨⟨rfl, h0.1.2⟩, ⟨h0.2.1.1, fun h => by cases h⟩, h0.2.2⟩

theorem execClockCapChange_ok {s : State} (h0 : s.Ok b) : Res.Keeps b (execClockCapChange s) := by
  unfold execClockCapChange
  simp [*]

@[simp] theorem State.exclude_ok {s : State} (core temp : Nat) (h0 : s.Ok b) : (State.exclude s core temp).Ok b := by
  unfold State.exclude
  simp [*]

@[simp] theorem State.protect_ok {s : State} (wing : Nat) (h0 : s.Ok b) : (State.protect s wing).Ok b := by
  unfold State.protect
  simp [*]

@[simp] theorem State.haltAll_ok {s : State} (h0 : s.Ok b) : (State.haltAll s).Ok b := by
  unfold State.haltAll
  try dsimp only [State.pick, State.pickBelow, State.fresh]
  repeat' split
  all_goals try dsimp only
  repeat' split
  all_goals simp (maxDischargeDepth := 40) +contextual [*]

@[simp] theorem State.telemetry_ok {s : State} (wing : Nat) (h0 : s.Ok b) : (State.telemetry s wing).Ok b := by
  unfold State.telemetry
  simp (maxDischargeDepth := 40) [*]

theorem execThermalSample_ok (core temp : Nat) {s : State} (h0 : s.Ok b) : Res.Keeps b (execThermalSample core temp s) := by
  unfold execThermalSample
  try dsimp only
  split
  · simp (maxDischargeDepth := 40) [*]
  · refine State.whenOn_ok h0 ?_
    split <;> simp (maxDischargeDepth := 40) [*]

theorem execDroopFlag_ok (core : Nat) (raised : Bool) {s : State} (h0 : s.Ok b) : Res.Keeps b (execDroopFlag core raised s) := by
  unfold execDroopFlag
  split
  · simp (maxDischargeDepth := 40) [*]
  · exact State.whenOn_ok h0 (by simp (maxDischargeDepth := 40) [*])

theorem execDroopHoldExpiry_ok (core : Nat) {s : State} (h0 : s.Ok b) : Res.Keeps b (execDroopHoldExpiry core s) := by
  unfold execDroopHoldExpiry
  simp [*]

-- Machine/BootOps.lean

theorem State.lost_ok {s : State} (powered : Bool) (mem : List Host.Cell) (uncorr : Tab Unit) (h0 : s.Ok b) (hm : Memory.wf mem = true) :
    (s.lost powered mem uncorr).Ok b := by
  unfold State.lost
  unfold State.Ok at h0 ⊢
  exact ⟨⟨hm, h0.1.2⟩, ⟨(by decide +kernel : modeOk modeReset = true), fun h => Bool.noConfusion h⟩, Nat.le_refl _, h0.2.2.2⟩

theorem execPowerLoss_ok {s : State} (h0 : s.Ok b) : Res.Keeps b (execPowerLoss s) := by
  unfold execPowerLoss
  exact (keeps_next _).mpr (State.lost_ok _ _ _ h0 rfl)

theorem execPowerOn_ok {s : State} (h0 : s.Ok b) : Res.Keeps b (execPowerOn s) := by
  unfold execPowerOn
  refine (keeps_next _).mpr ?_
  split
  · exact h0
  · exact State.lost_ok _ _ _ h0 rfl

theorem execDeviceReset_ok {s : State} (h0 : s.Ok b) : Res.Keeps b (execDeviceReset s) := by
  unfold execDeviceReset
  refine (keeps_next _).mpr ?_
  split
  · exact State.lost_ok _ _ _ h0 (by unfold State.Ok at h0; exact h0.1.1)
  · exact h0

theorem execBootctlGo_ok {s : State} (h0 : s.Ok b) : Res.Keeps b (execBootctlGo s) := by
  unfold execBootctlGo
  refine State.whenOn_ok h0 ?_
  split <;> simp (maxDischargeDepth := 40) [*]

@[simp] theorem State.hostHolds_ok {s : State} (addr : Nat) (bytes : List Byte) (h0 : s.Ok b) : (State.hostHolds s addr bytes).Ok b :=
  State.setCommAll_ok _ h0

theorem execBootImageLoaded_ok (image : List Byte) (fetchFault : Bool) {s : State} (h0 : s.Ok b) : Res.Keeps b (execBootImageLoaded image fetchFault s) := by
  unfold execBootImageLoaded
  try dsimp only
  split
  · simp (maxDischargeDepth := 40) [*]
  · have hu : (if fetchFault = true then s else s.hostHolds s.boot.addr.toNat image).Ok b := by
      split
      · exact h0
      · exact State.hostHolds_ok _ _ h0
    generalize (if fetchFault = true then s else s.hostHolds s.boot.addr.toNat image) = u at hu ⊢
    clear h0
    rename' s => s0, u => s, hu => h0
    by_cases hz : (if fetchFault = true then (6 : Byte) else s.imageErr image) ≠ 0
    · rw [if_pos hz]
      simp (maxDischargeDepth := 40) [*]
    · rw [if_neg hz]
      refine (keeps_next _).mpr ?_
      unfold State.Ok at h0 ⊢
      refine ⟨h0.1, h0.2.1, h0.2.2.1, h0.2.2.2.1, ?_⟩
      dsimp only
      by_cases hlt : (bitAt (image.getD 13 0).toNat 0 && decide (s.boot.floor.toNat < (imageSvn image).toNat)) = true
      · rw [if_pos hlt]
        simp only [Bool.and_eq_true, decide_eq_true_eq] at hlt
        exact BitVec.le_def.mpr (Nat.le_trans (BitVec.le_def.mp h0.2.2.2.2) (Nat.le_of_lt hlt.2))
      · rw [if_neg hlt]
        exact h0.2.2.2.2

theorem State.spdm_ok {s : State} (box : Nat) {f : State → State} (h0 : s.Ok b) (hf : (f s).Ok b) : Res.Keeps b (s.spdm box f) := by
  unfold State.spdm
  refine State.whenOn_ok h0 ?_
  split <;> simp (maxDischargeDepth := 40) [*]

theorem execGetVersion_ok (box : Nat) {s : State} (h0 : s.Ok b) : Res.Keeps b (execGetVersion box s) := State.spdm_ok _ h0 (State.send_ok _ h0)

theorem execGetCapabilities_ok (box : Nat) {s : State} (h0 : s.Ok b) : Res.Keeps b (execGetCapabilities box s) := State.spdm_ok _ h0 (State.send_ok _ h0)

theorem execNegotiateAlgorithms_ok (box : Nat) {s : State} (h0 : s.Ok b) : Res.Keeps b (execNegotiateAlgorithms box s) := State.spdm_ok _ h0 (State.send_ok _ h0)

theorem execGetDigests_ok (box : Nat) {s : State} (h0 : s.Ok b) : Res.Keeps b (execGetDigests box s) := State.spdm_ok _ h0 (State.send_ok _ h0)

theorem execGetCertificate_ok (box slot : Nat) {s : State} (h0 : s.Ok b) : Res.Keeps b (execGetCertificate box slot s) := by
  refine State.spdm_ok _ h0 ?_
  split <;> simp (maxDischargeDepth := 40) [*]

@[simp] theorem State.releaseSigned_ok {s : State} (h0 : s.Ok b) : (State.releaseSigned s).Ok b := by
  unfold State.releaseSigned
  split
  · exact h0
  · exact State.send_ok _ ((State.ok_boot ..).mpr h0)

theorem State.signed_ok {s : State} (box : Nat) (code : Byte) (payload msg : List Byte) (h0 : s.Ok b) : (s.signed box code payload msg).Ok b := by
  have h1 := State.releaseSigned_ok h0
  unfold State.signed
  dsimp only
  generalize s.releaseSigned = u at h1 ⊢
  split
  · exact State.send_ok _ h1
  · split
    · exact State.send_ok _ h1
    · rename_i hl _
      unfold State.Ok at h1 ⊢
      exact ⟨h1.1, h1.2.1, Nat.le_trans (Nat.sub_le ..) h1.2.2.1, ⟨Nat.le_succ_of_le h1.2.2.2.1.1, Nat.lt_of_not_le hl⟩, h1.2.2.2.2⟩

theorem execChallenge_ok (box : Nat) (nonce : List Byte) {s : State} (h0 : s.Ok b) : Res.Keeps b (execChallenge box nonce s) := by
  unfold execChallenge
  exact State.spdm_ok _ h0 (State.signed_ok _ _ _ _ h0)

theorem execGetMeasurements_ok (box index : Nat) (signed : Bool) (nonce : List Byte) {s : State} (h0 : s.Ok b) : Res.Keeps b (execGetMeasurements box index signed nonce s) := by
  refine State.spdm_ok _ h0 ?_
  try dsimp only
  split
  · exact State.send_ok _ h0
  · split
    · exact State.signed_ok _ _ _ _ h0
    · exact State.send_ok _ h0

theorem execSignTokenRefill_ok {s : State} (h0 : s.Ok b) : Res.Keeps b (execSignTokenRefill s) := by
  unfold execSignTokenRefill
  split
  · simp
  · rename_i ht
    refine (keeps_next _).mpr ?_
    unfold State.Ok at h0 ⊢
    exact ⟨h0.1, h0.2.1, Nat.lt_of_not_le ht, h0.2.2.2⟩

end Sys2Proof.Machine
end

