-- ==== Sys2Proof/Laws/KeepsLanes.lean ====
section
/-! SUPPORT. What a step keeps of the device (`State.Ok`), said once for each function of the lane instructions:
if the state it is given has it, so has every state it gives. -/

set_option Elab.async false

namespace Sys2Proof.Machine

open Sys2Proof

variable {b : Nat × Byte}

-- Machine/VectorInt.lean

theorem State.laneShort_ok {s : State} (h : Hdr) (w64 : Bool) (d : Operand) (ok : Team → Bool) (res : Gang → Nat → Nat × Exc) (h0 : s.Ok b) : Res.Keeps b (State.laneShort s h w64 d ok res) := State.lane_ok h0 (fun i => by simp (maxDischargeDepth := 40) [*])

theorem State.laneLate_ok {s : State} (h : Hdr) (la : Gang → Nat) (w64 : Bool) (d : Operand) (ok : Team → Bool) (res : Gang → Nat → Nat × Exc) (h0 : s.Ok b) : Res.Keeps b (State.laneLate s h la w64 d ok res) := State.lane_ok h0 (fun i => by simp (maxDischargeDepth := 40) [*])

theorem State.laneMaskOp_ok {s : State} (h : Hdr) (d : Operand) (ok : Team → Bool) (res : Gang → Nat → Bool × Exc) (h0 : s.Ok b) : Res.Keeps b (State.laneMaskOp s h d ok res) := State.lane_ok h0 (fun i => by simp (maxDischargeDepth := 40) [*])

theorem State.laneInt_ok {s : State} (h : Hdr) (f : FmtR) (op : IntOp) (h0 : s.Ok b) : Res.Keeps b (State.laneInt s h f op) := State.laneShort_ok _ _ _ _ _ h0

theorem execIadd_ok (h : Hdr) (f : FmtR) {s : State} (h0 : s.Ok b) : Res.Keeps b (execIadd h f s) := State.laneInt_ok _ _ _ h0

theorem execIsub_ok (h : Hdr) (f : FmtR) {s : State} (h0 : s.Ok b) : Res.Keeps b (execIsub h f s) := State.laneInt_ok _ _ _ h0

theorem execImul_ok (h : Hdr) (hi : Bool) (f : FmtR) {s : State} (h0 : s.Ok b) : Res.Keeps b (execImul h hi f s) := State.laneInt_ok _ _ _ h0

theorem execImad_ok (h : Hdr) (f : FmtR) {s : State} (h0 : s.Ok b) : Res.Keeps b (execImad h f s) := State.laneInt_ok _ _ _ h0

theorem execImin_ok (h : Hdr) (f : FmtR) {s : State} (h0 : s.Ok b) : Res.Keeps b (execImin h f s) := State.laneInt_ok _ _ _ h0

theorem execImax_ok (h : Hdr) (f : FmtR) {s : State} (h0 : s.Ok b) : Res.Keeps b (execImax h f s) := State.laneInt_ok _ _ _ h0

theorem execIabs_ok (h : Hdr) (f : FmtR) {s : State} (h0 : s.Ok b) : Res.Keeps b (execIabs h f s) := State.laneInt_ok _ _ _ h0

theorem execIneg_ok (h : Hdr) (f : FmtR) {s : State} (h0 : s.Ok b) : Res.Keeps b (execIneg h f s) := State.laneInt_ok _ _ _ h0

theorem execLop_ok (h : Hdr) (lut : Byte) (f : FmtR) {s : State} (h0 : s.Ok b) : Res.Keeps b (execLop h lut f s) := State.laneInt_ok _ _ _ h0

theorem execIbit_ok (h : Hdr) (k : BitOp) (f : FmtR) {s : State} (h0 : s.Ok b) : Res.Keeps b (execIbit h k f s) := State.laneInt_ok _ _ _ h0

theorem execShf_ok (h : Hdr) (k : ShiftOp) (f : FmtR) {s : State} (h0 : s.Ok b) : Res.Keeps b (execShf h k f s) := by
  unfold execShf
  exact State.laneShort_ok _ _ _ _ _ h0

theorem execIcmp_ok (h : Hdr) (p : CmpOp) (f : FmtR) {s : State} (h0 : s.Ok b) : Res.Keeps b (execIcmp h p f s) := by
  unfold execIcmp
  exact State.laneMaskOp_ok _ _ _ _ h0

theorem execSel_ok (h : Hdr) (f : FmtR) {s : State} (h0 : s.Ok b) : Res.Keeps b (execSel h f s) := by
  unfold execSel
  exact State.laneShort_ok _ _ _ _ _ h0

theorem execBfx_ok (h : Hdr) (k : BfxOp) (f : FmtR) {s : State} (h0 : s.Ok b) : Res.Keeps b (execBfx h k f s) := by
  unfold execBfx
  exact State.laneShort_ok _ _ _ _ _ h0

theorem execLea_ok (h : Hdr) (f : FmtR) {s : State} (h0 : s.Ok b) : Res.Keeps b (execLea h f s) := by
  unfold execLea
  exact State.laneShort_ok _ _ _ _ _ h0

theorem execIdiv_ok (h : Hdr) (rem : Bool) (f : FmtR) {s : State} (h0 : s.Ok b) : Res.Keeps b (execIdiv h rem f s) := by
  unfold execIdiv
  exact State.laneLate_ok _ _ _ _ _ _ h0

theorem execIdot_ok (h : Hdr) (f : FmtR) {s : State} (h0 : s.Ok b) : Res.Keeps b (execIdot h f s) := by
  unfold execIdot
  exact State.laneShort_ok _ _ _ _ _ h0

theorem execMov_ok (h : Hdr) (f : FmtR) {s : State} (h0 : s.Ok b) : Res.Keeps b (execMov h f s) := by
  unfold execMov
  try dsimp only
  split <;> exact State.laneShort_ok _ _ _ _ _ h0

-- Machine/VectorFloat.lean

theorem State.laneFloat_ok {s : State} (h : Hdr) (f : FmtR) (x y : Bool) (op : Rm → FSpec → Nat → Nat → Nat → Nat × Exc) (h0 : s.Ok b) :
    Res.Keeps b (s.laneFloat h f x y op) := State.laneShort_ok _ _ _ _ _ h0

theorem State.laneFloatLate_ok {s : State} (h : Hdr) (f : FmtR) (x : Bool) (op : Rm → FSpec → Nat → Nat → Nat → Nat × Exc) (h0 : s.Ok b) :
    Res.Keeps b (s.laneFloatLate h f x op) := State.laneLate_ok _ _ _ _ _ _ h0

theorem execFadd_ok (h : Hdr) (f : FmtR) {s : State} (h0 : s.Ok b) : Res.Keeps b (execFadd h f s) := State.laneFloat_ok _ _ _ _ _ h0

theorem execFsub_ok (h : Hdr) (f : FmtR) {s : State} (h0 : s.Ok b) : Res.Keeps b (execFsub h f s) := State.laneFloat_ok _ _ _ _ _ h0

theorem execFmul_ok (h : Hdr) (f : FmtR) {s : State} (h0 : s.Ok b) : Res.Keeps b (execFmul h f s) := State.laneFloat_ok _ _ _ _ _ h0

theorem execFma_ok (h : Hdr) (f : FmtR) {s : State} (h0 : s.Ok b) : Res.Keeps b (execFma h f s) := State.laneFloat_ok _ _ _ _ _ h0

theorem execFms_ok (h : Hdr) (f : FmtR) {s : State} (h0 : s.Ok b) : Res.Keeps b (execFms h f s) := State.laneFloat_ok _ _ _ _ _ h0

theorem execFnma_ok (h : Hdr) (f : FmtR) {s : State} (h0 : s.Ok b) : Res.Keeps b (execFnma h f s) := State.laneFloat_ok _ _ _ _ _ h0

theorem execFnms_ok (h : Hdr) (f : FmtR) {s : State} (h0 : s.Ok b) : Res.Keeps b (execFnms h f s) := State.laneFloat_ok _ _ _ _ _ h0

theorem execFmin_ok (h : Hdr) (f : FmtR) {s : State} (h0 : s.Ok b) : Res.Keeps b (execFmin h f s) := State.laneFloat_ok _ _ _ _ _ h0

theorem execFmax_ok (h : Hdr) (f : FmtR) {s : State} (h0 : s.Ok b) : Res.Keeps b (execFmax h f s) := State.laneFloat_ok _ _ _ _ _ h0

theorem execFsgn_ok (h : Hdr) (k : SgnOp) (f : FmtR) {s : State} (h0 : s.Ok b) : Res.Keeps b (execFsgn h k f s) := State.laneFloat_ok _ _ _ _ _ h0

theorem execFcmp_ok (h : Hdr) (p : CmpOp) (f : FmtR) {s : State} (h0 : s.Ok b) : Res.Keeps b (execFcmp h p f s) := by
  unfold execFcmp
  exact State.laneMaskOp_ok _ _ _ _ h0

theorem execFclass_ok (h : Hdr) (f : FmtR) {s : State} (h0 : s.Ok b) : Res.Keeps b (execFclass h f s) := by
  unfold execFclass
  exact State.laneShort_ok _ _ _ _ _ h0

theorem execFdiv_ok (h : Hdr) (f : FmtR) {s : State} (h0 : s.Ok b) : Res.Keeps b (execFdiv h f s) := State.laneFloatLate_ok _ _ _ _ h0

theorem execFsqrt_ok (h : Hdr) (f : FmtR) {s : State} (h0 : s.Ok b) : Res.Keeps b (execFsqrt h f s) := State.laneFloatLate_ok _ _ _ _ h0

theorem execFrcp_ok (h : Hdr) (f : FmtR) {s : State} (h0 : s.Ok b) : Res.Keeps b (execFrcp h f s) := State.laneFloatLate_ok _ _ _ _ h0

theorem execFrsq_ok (h : Hdr) (f : FmtR) {s : State} (h0 : s.Ok b) : Res.Keeps b (execFrsq h f s) := State.laneFloatLate_ok _ _ _ _ h0

theorem execFexp2_ok (h : Hdr) (f : FmtR) {s : State} (h0 : s.Ok b) : Res.Keeps b (execFexp2 h f s) := State.laneFloatLate_ok _ _ _ _ h0

theorem execFlog2_ok (h : Hdr) (f : FmtR) {s : State} (h0 : s.Ok b) : Res.Keeps b (execFlog2 h f s) := State.laneFloatLate_ok _ _ _ _ h0

theorem execFscale_ok (h : Hdr) (f : FmtR) {s : State} (h0 : s.Ok b) : Res.Keeps b (execFscale h f s) := by
  unfold execFscale
  exact State.laneShort_ok _ _ _ _ _ h0

theorem execFrnd_ok (h : Hdr) (f : FmtR) {s : State} (h0 : s.Ok b) : Res.Keeps b (execFrnd h f s) := State.laneFloat_ok _ _ _ _ _ h0

-- Machine/Convert.lean

theorem execCvtf_ok (h : Hdr) (src : Ty) (f : FmtR) {s : State} (h0 : s.Ok b) : Res.Keeps b (execCvtf h src f s) := by
  unfold execCvtf
  exact State.laneShort_ok _ _ _ _ _ h0

theorem execCvti_ok (h : Hdr) (src : Ty) (f : FmtR) {s : State} (h0 : s.Ok b) : Res.Keeps b (execCvti h src f s) := by
  unfold execCvti
  exact State.laneShort_ok _ _ _ _ _ h0

theorem execCvtn_ok (h : Hdr) (src : Ty) (f : FmtR) {s : State} (h0 : s.Ok b) : Res.Keeps b (execCvtn h src f s) := by
  unfold execCvtn
  exact State.laneShort_ok _ _ _ _ _ h0

theorem execCvtl_ok (h : Hdr) (enc : Bool) (f : FmtR) {s : State} (h0 : s.Ok b) : Res.Keeps b (execCvtl h enc f s) := by
  unfold execCvtl
  exact State.laneShort_ok _ _ _ _ _ h0

theorem execPack_ok (h : Hdr) (_src : Ty) (f : FmtR) {s : State} (h0 : s.Ok b) : Res.Keeps b (execPack h _src f s) := by
  unfold execPack
  split <;> exact State.laneShort_ok _ _ _ _ _ h0

theorem execUnpk_ok (h : Hdr) (_elt : Ty) (f : FmtR) {s : State} (h0 : s.Ok b) : Res.Keeps b (execUnpk h _elt f s) := by
  unfold execUnpk
  exact State.laneShort_ok _ _ _ _ _ h0

-- Machine/Lanes.lean

@[simp] theorem State.lateWide_ok {s : State} (w : Wide) (la : Nat) (ws : Nat → List (Dest × W64)) (h0 : s.Ok b) : (State.lateWide s w la ws).Ok b := by
  unfold State.lateWide
  refine foldl_ok _ (fun s a hs => ?_) h0
  try dsimp only
  repeat' split
  all_goals simp (maxDischargeDepth := 40) +contextual [*]

@[simp] theorem State.shortWide_ok {s : State} (w : Wide) (w64 : Bool) (d : Operand) (f : Nat → Gang → Gang) (h0 : s.Ok b) : (State.shortWide s w w64 d f).Ok b := by
  unfold State.shortWide
  refine foldl_ok _ (fun s a hs => ?_) h0
  try dsimp only
  repeat' split
  all_goals simp (maxDischargeDepth := 40) +contextual [*]

theorem execShfl_ok (h : Hdr) (k : ShflOp) (f : FmtR) {s : State} (h0 : s.Ok b) : Res.Keeps b (execShfl h k f s) := State.wideOp_ok h0 (fun s w h0 => by simp [*])

theorem execBcast_ok (h : Hdr) (f : FmtR) {s : State} (h0 : s.Ok b) : Res.Keeps b (execBcast h f s) := State.wideOp_ok h0 (fun s w h0 => by simp (maxDischargeDepth := 40) [*])

theorem execXmov_ok (h : Hdr) (f : FmtR) {s : State} (h0 : s.Ok b) : Res.Keeps b (execXmov h f s) := State.wideOp_ok h0 (fun s w h0 => by simp (maxDischargeDepth := 40) [*])

theorem execXvote_ok (h : Hdr) (k : VoteOp) (f : FmtR) {s : State} (h0 : s.Ok b) : Res.Keeps b (execXvote h k f s) := State.wideOp_ok h0 (fun s w h0 => by simp (maxDischargeDepth := 40) [*])

@[simp] theorem State.flagsWide_ok {s : State} (w : Wide) (e : Exc) (h0 : s.Ok b) : (State.flagsWide s w e).Ok b := by
  unfold State.flagsWide
  try dsimp only [State.pick, State.pickBelow, State.fresh]
  repeat' split
  all_goals try dsimp only
  repeat' split
  all_goals simp (maxDischargeDepth := 40) +contextual [*]

theorem execXred_ok (h : Hdr) (op : RedOp) (f : FmtR) {s : State} (h0 : s.Ok b) : Res.Keeps b (execXred h op f s) := State.wideOp_ok h0 (fun s w h0 => by simp (maxDischargeDepth := 40) [*])

theorem execXscan_ok (h : Hdr) (op : RedOp) (excl : Bool) (f : FmtR) {s : State} (h0 : s.Ok b) : Res.Keeps b (execXscan h op excl f s) := State.wideOp_ok h0 (fun s w h0 => by simp (maxDischargeDepth := 40) [*])

theorem execConfl_ok (h : Hdr) (f : FmtR) {s : State} (h0 : s.Ok b) : Res.Keeps b (execConfl h f s) := State.gangOp_ok h0 (fun s i h0 => by simp [*])

@[simp] theorem State.writeMoved_ok {s : State} (i : Issuer) (w64 : Bool) (d : Operand) (vals : List (Nat × Nat)) (h0 : s.Ok b) : (State.writeMoved s i w64 d vals).Ok b := by
  unfold State.writeMoved
  simp [*]

theorem execCmprs_ok (h : Hdr) (f : FmtR) {s : State} (h0 : s.Ok b) : Res.Keeps b (execCmprs h f s) := State.gangOp_ok h0 (fun s i h0 => by simp [*])

theorem execExpnd_ok (h : Hdr) (f : FmtR) {s : State} (h0 : s.Ok b) : Res.Keeps b (execExpnd h f s) := State.gangOp_ok h0 (fun s i h0 => by simp [*])

theorem execSetdecl_ok (h : Hdr) (f : FmtT) {s : State} (h0 : s.Ok b) : Res.Keeps b (execSetdecl h f s) := by
  refine State.wideOp_ok h0 (fun s w h0 => ?_)
  repeat' with_reducible refine got_skip (fun _ _ => ?_)
  all_goals simp (maxDischargeDepth := 40) [*]

end Sys2Proof.Machine
end

