-- ==== Sys2Proof/Laws/KeepsWork.lean ====
section
/-! SUPPORT. What a step keeps of the device (`State.Ok`), said once for each function of launches, of preemption, of wings, of register writes and of what is left:
if the state it is given has it, so has every state it gives. -/

set_option Elab.async false

namespace Sys2Proof.Machine

open Sys2Proof

variable {b : Nat × Byte}

-- Machine/Launches.lean

theorem execLaunch_ok (h : Hdr) (f : FmtT) {s : State} (h0 : s.Ok b) : Res.Keeps b (execLaunch h f s) := by
  refine State.gangOp_ok h0 (fun s i h0 => got_skip (fun _ _ => ?_))
  try dsimp only
  refine got_skip (fun _ _ => ?_)
  split
  · trivial
  · refine got_skip (fun _ _ => got_skip (fun _ _ => ?_))
    split
    · trivial
    · refine got_bind (State.globalLoad_ok _ _ _ _ h0) (fun a ha => ?_)
      split
      · trivial
      · simp only [got_ok]
        split <;> simp (maxDischargeDepth := 40) [*]

theorem execCjoin_ok (h : Hdr) (f : FmtT) {s : State} (h0 : s.Ok b) : Res.Keeps b (execCjoin h f s) := by
  refine State.gangOp_ok h0 (fun s i h0 => got_skip (fun _ _ => ?_))
  try dsimp only
  refine got_skip (fun _ _ => ?_)
  split
  · trivial
  · refine (got_ite _ _ _ _).mpr ⟨fun _ => trivial, fun _ => ?_⟩
    exact State.dropL1_ok _ (State.passWith_ok _ _ (foldl_ok _ (fun s a hs => State.mergeChild_ok _ _ hs) h0))

theorem execLabort_ok (h : Hdr) (f : FmtT) {s : State} (h0 : s.Ok b) : Res.Keeps b (execLabort h f s) := State.gangOp_ok h0 (fun s i h0 => by simp (maxDischargeDepth := 40) [*])

-- Machine/Matrix.lean

@[simp] theorem State.mma_ok {s : State} (ins : Instr) (h : Hdr) (f : FmtT) (w : Wide) (h0 : s.Ok b) : Got (State.Ok b) (State.mma s ins h f w) := by
  unfold State.mma
  repeat' split
  all_goals simp (maxDischargeDepth := 40) [*]

theorem execMma_ok (h : Hdr) (f : FmtT) {s : State} (h0 : s.Ok b) : Res.Keeps b (execMma h f s) := State.wideOp_ok h0 (fun s w h0 => by simp [*])

theorem execAccz_ok (h : Hdr) (f : FmtT) {s : State} (h0 : s.Ok b) : Res.Keeps b (execAccz h f s) := State.gangOp_ok h0 (fun s i h0 => by simp (maxDischargeDepth := 40) [*])

theorem execAccwr_ok (h : Hdr) (fmt : Fmt) (f : FmtT) {s : State} (h0 : s.Ok b) : Res.Keeps b (execAccwr h fmt f s) := by
  refine State.gangOp_ok h0 (fun s i h0 => ?_)
  repeat' (first | split | with_reducible refine got_skip (fun _ _ => ?_))
  all_goals simp (maxDischargeDepth := 40) [*]

theorem execAccrd_ok (h : Hdr) (fmt : Fmt) (f : FmtT) {s : State} (h0 : s.Ok b) : Res.Keeps b (execAccrd h fmt f s) := State.gangOp_ok h0 (fun s i h0 => by simp (maxDischargeDepth := 40) [*])

@[simp] theorem State.turnPlanes_ok {s : State} (i : Issuer) (h : Hdr) (fmt : Fmt) (tr : Bool) (f : FmtT) (h0 : s.Ok b) : Got (State.Ok b) (State.turnPlanes s i h fmt tr f) := by
  unfold State.turnPlanes
  repeat' split
  all_goals simp (maxDischargeDepth := 40) [*]

@[simp] theorem State.turnFactors_ok {s : State} (i : Issuer) (h : Hdr) (fmt : Fmt) (tr : Bool) (f : FmtT) (h0 : s.Ok b) : Got (State.Ok b) (State.turnFactors s i h fmt tr f) := by
  unfold State.turnFactors
  repeat' split
  all_goals simp (maxDischargeDepth := 40) [*]

theorem execCturn_ok (h : Hdr) (fmt : Fmt) (tr : Bool) (f : FmtT) {s : State} (h0 : s.Ok b) : Res.Keeps b (execCturn h fmt tr f s) := by
  refine State.gangOp_ok h0 (fun s i h0 => ?_)
  repeat' (first | split | with_reducible refine got_skip (fun _ _ => ?_))
  all_goals simp (maxDischargeDepth := 40) [*]

theorem execTmul_ok (h : Hdr) (f : FmtT) {s : State} (h0 : s.Ok b) : Res.Keeps b (execTmul h f s) := State.gangOp_ok h0 (fun s i h0 => by simp (maxDischargeDepth := 40) [*])

theorem execTmv_ok (h : Hdr) (f : FmtT) {s : State} (h0 : s.Ok b) : Res.Keeps b (execTmv h f s) := State.gangOp_ok h0 (fun s i h0 => by simp (maxDischargeDepth := 40) [*])

-- Machine/Preempt.lean

theorem execHandlerEntry_ok (team gang : Nat) {s : State} (h0 : s.Ok b) : Res.Keeps b (execHandlerEntry team gang s) := by
  unfold execHandlerEntry
  split <;> simp [*]

theorem execLongLatencyResult_ok (u : UnitId) (idx : Nat) {s : State} (h0 : s.Ok b) : Res.Keeps b (execLongLatencyResult u idx s) := by
  unfold execLongLatencyResult
  split <;> simp [*]

@[simp] theorem State.dropPost_ok {s : State} (ctx : Nat) (p : Post) (h0 : s.Ok b) : (State.dropPost s ctx p).Ok b := by
  unfold State.dropPost
  split
  · split <;> simp (maxDischargeDepth := 40) [*]
  · exact h0
  · exact h0

@[simp] theorem State.givePage_ok {s : State} (ctx page : Nat) (h0 : s.Ok b) : (State.givePage s ctx page).Ok b := by
  unfold State.givePage
  dsimp only
  exact foldl_ok _ (fun s a hs => State.dropPost_ok _ _ hs) (State.modCtx_ok _ _ ((State.ok_upd ..).mpr h0))

theorem execPageFaultResolved_ok (ctx page : Nat) (ok : Bool) {s : State} (h0 : s.Ok b) : Res.Keeps b (execPageFaultResolved ctx page ok s) := by
  unfold execPageFaultResolved
  dsimp only
  split
  · exact (keeps_next _).mpr (foldl_ok _ (fun s a hs => State.modGang_ok _ _ _ hs) (State.modCtx_ok _ _ h0))
  · exact (keeps_next _).mpr (foldl_ok _ (fun s a hs => State.takeTrap_ok _ _ _ _ hs) (State.givePage_ok _ _ h0))

theorem execPrqDeadline_ok (team : Nat) {s : State} (h0 : s.Ok b) : Res.Keeps b (execPrqDeadline team s) := by
  unfold execPrqDeadline
  split
  · simp
  · split
    · simp
    · split
      · simp
      · rename_i heq
        exact (keeps_next _).mpr (State.saveAll_ok _ _ h0 _ heq)

theorem execSaveDrainTimeout_ok (team : Nat) {s : State} (h0 : s.Ok b) : Res.Keeps b (execSaveDrainTimeout team s) := by
  unfold execSaveDrainTimeout
  split <;> simp [*]

theorem execParkPreempt_ok (team : Nat) {s : State} (h0 : s.Ok b) : Res.Keeps b (execParkPreempt team s) := by
  unfold execParkPreempt
  split <;> simp [*]

@[simp] theorem State.restoreTeam_ok {s : State} (team core : Nat) (h0 : s.Ok b) : (State.restoreTeam s team core).Ok b := by
  unfold State.restoreTeam
  split
  · exact h0
  · dsimp only
    split
    all_goals
      refine (State.ok_ite _ _ _).mpr ⟨fun _ => ?_, fun _ => ?_⟩
      all_goals simp (maxDischargeDepth := 40) [*]

theorem State.restoreOne_ok {s : State} (core id : Nat) (h0 : s.Ok b) : ∀ t, (State.restoreOne s core id) = some t → t.Ok b := by
  unfold State.restoreOne
  intro t ht
  split at ht
  · cases ht; exact h0
  · split at ht
    · cases ht; exact h0
    · have key : ∀ (c : Prop) [Decidable c], (if c then none else match s.coreFor ‹Team› core with
          | none => none
          | some k => some (s.restoreTeam id k)) = some t → t.Ok b := by
        intro c _ h
        split at h
        · cases h
        · split at h
          · cases h
          · cases h
            exact State.restoreTeam_ok _ _ h0
      exact key _ ht

theorem State.restoreAll_ok {s : State} (core : Nat) (teams : List Nat) (h0 : s.Ok b) : ∀ t, (State.restoreAll s core teams) = some t → t.Ok b := by
  induction teams generalizing s with
  | nil =>
    intro t ht
    have hz : some s = some t := ht
    exact Option.some.inj hz ▸ h0
  | cons a l ih =>
    intro t ht
    unfold State.restoreAll at ht
    split at ht
    · cases ht
    · rename_i heq
      exact ih (State.restoreOne_ok _ _ h0 _ heq) t ht

theorem State.tryRestore_ok {s : State} (team core : Nat) (h0 : s.Ok b) : ∀ t, (State.tryRestore s team core) = some t → t.Ok b := by
  intro t ht
  unfold State.tryRestore at ht
  split at ht
  · cases ht
  · split at ht
    · cases ht
    · split at ht
      · cases ht
      · obtain ⟨u, hu, hr⟩ := Option.bind_eq_some_iff.mp ht
        exact State.restoreAll_ok _ _ (State.restoreOne_ok _ _ h0 u hu) t hr

theorem execTeamRestore_ok (team core : Nat) {s : State} (h0 : s.Ok b) : Res.Keeps b (execTeamRestore team core s) := by
  unfold execTeamRestore
  split
  · simp
  · rename_i heq
    exact (keeps_next _).mpr (State.tryRestore_ok _ _ h0 _ heq)

-- Machine/Rank.lean

theorem execTadd_ok (h : Hdr) (f : FmtT) {s : State} (h0 : s.Ok b) : Res.Keeps b (execTadd h f s) := State.gangOp_ok h0 (fun s i h0 => by simp (maxDischargeDepth := 40) [*])

theorem execTscl_ok (h : Hdr) (f : FmtT) {s : State} (h0 : s.Ok b) : Res.Keeps b (execTscl h f s) := State.gangOp_ok h0 (fun s i h0 => by simp (maxDischargeDepth := 40) [*])

theorem execTtrn_ok (h : Hdr) (f : FmtT) {s : State} (h0 : s.Ok b) : Res.Keeps b (execTtrn h f s) := State.gangOp_ok h0 (fun s i h0 => by simp (maxDischargeDepth := 40) [*])

theorem execTdense_ok (h : Hdr) (f : FmtT) {s : State} (h0 : s.Ok b) : Res.Keeps b (execTdense h f s) := State.gangOp_ok h0 (fun s i h0 => by simp (maxDischargeDepth := 40) [*])

theorem execTrnd_ok (h : Hdr) (abs : Bool) (f : FmtT) {s : State} (h0 : s.Ok b) : Res.Keeps b (execTrnd h abs f s) := by
  refine State.gangOp_ok h0 (fun s i h0 => ?_)
  repeat' (first | split | with_reducible refine got_skip (fun _ _ => ?_))
  all_goals simp (maxDischargeDepth := 40) [*]

theorem execTnorm_ok (h : Hdr) (f : FmtT) {s : State} (h0 : s.Ok b) : Res.Keeps b (execTnorm h f s) := State.gangOp_ok h0 (fun s i h0 => by simp (maxDischargeDepth := 40) [*])

theorem execMatrixOpComplete_ok (team op : Nat) {s : State} (h0 : s.Ok b) : Res.Keeps b (execMatrixOpComplete team op s) := by
  unfold execMatrixOpComplete
  dsimp only
  repeat' split
  all_goals simp (maxDischargeDepth := 40) [*]

-- Machine/Wings.lean

theorem execTrgownWrite_ok (wing idx : Nat) (val : W64) {s : State} (h0 : s.Ok b) : Res.Keeps b (execTrgownWrite wing idx val s) := by
  unfold execTrgownWrite
  simp [*]

theorem execCtrownWrite_ok (wing idx : Nat) (val : W64) {s : State} (h0 : s.Ok b) : Res.Keeps b (execCtrownWrite wing idx val s) := by
  unfold execCtrownWrite
  simp [*]

@[simp] theorem State.setWing_ok {s : State} (wing : Nat) (x : WingState) (drained : Bool) (h0 : s.Ok b) : (State.setWing s wing x drained).Ok b := by
  unfold State.setWing
  simp [*]

@[simp] theorem State.wingRefuses_ok {s : State} (wing : Nat) (h0 : s.Ok b) : (State.wingRefuses s wing).Ok b := by
  unfold State.wingRefuses
  simp [*]

@[simp] theorem State.modPort_ok {s : State} (p : Nat) (f : Port → Port) (h0 : s.Ok b) : (State.modPort s p f).Ok b := by
  unfold State.modPort
  simp [*]

theorem execWingDrain_ok (wing : Nat) {s : State} (h0 : s.Ok b) : Res.Keeps b (execWingDrain wing s) := by
  unfold execWingDrain
  try dsimp only [State.pick, State.pickBelow, State.fresh]
  repeat' split
  all_goals try dsimp only
  repeat' split
  all_goals simp (maxDischargeDepth := 40) +contextual [*]

@[simp] theorem State.moveLists_ok {s : State} (wing other : Nat) (h0 : s.Ok b) : (State.moveLists s wing other).Ok b := by
  unfold State.moveLists
  simp [*]

@[simp] theorem State.sendWaiting_ok {s : State} (h0 : s.Ok b) : (State.sendWaiting s).Ok b := by
  unfold State.sendWaiting
  simp [*]

theorem execWingDrained_ok (wing : Nat) {s : State} (h0 : s.Ok b) : Res.Keeps b (execWingDrained wing s) := by
  unfold execWingDrained
  simp [*]

theorem execWingReset_ok (wing : Nat) {s : State} (h0 : s.Ok b) : Res.Keeps b (execWingReset wing s) := by
  unfold execWingReset
  try dsimp only [State.pick, State.pickBelow, State.fresh]
  repeat' split
  all_goals try dsimp only
  repeat' split
  all_goals simp (maxDischargeDepth := 40) +contextual [*]

theorem execWingResetDone_ok (wing : Nat) {s : State} (h0 : s.Ok b) : Res.Keeps b (execWingResetDone wing s) := by
  unfold execWingResetDone
  simp [*]

@[simp] theorem State.applyCtr_ok {s : State} (wing : Nat) (u : Nat × Bool × Nat) (h0 : s.Ok b) : (State.applyCtr s wing u).Ok b := by
  unfold State.applyCtr
  simp [*]

theorem execWingOnline_ok (wing : Nat) {s : State} (h0 : s.Ok b) : Res.Keeps b (execWingOnline wing s) := by
  unfold execWingOnline
  try dsimp only [State.pick, State.pickBelow, State.fresh]
  repeat' split
  all_goals try dsimp only
  repeat' split
  all_goals simp (maxDischargeDepth := 40) +contextual [*]

theorem execRowretGo_ok (val : W64) {s : State} (h0 : s.Ok b) : Res.Keeps b (execRowretGo val s) := by
  unfold execRowretGo
  simp [*]

theorem execRowCopyDone_ok {s : State} (h0 : s.Ok b) : Res.Keeps b (execRowCopyDone s) := by
  unfold execRowCopyDone
  simp [*]

theorem execRetrain_ok (port : Nat) {s : State} (h0 : s.Ok b) : Res.Keeps b (execRetrain port s) := State.whenOn_ok h0 (State.modPort_ok _ _ h0)

theorem execRetrainDone_ok (port : Nat) {s : State} (h0 : s.Ok b) : Res.Keeps b (execRetrainDone port s) := by
  unfold execRetrainDone
  split
  · simp
  · exact (keeps_next _).mpr (State.sendWaiting_ok (State.modPort_ok _ _ (State.pickBelow_ok 256 h0)))

theorem execSpanctlDisable_ok (port : Nat) (on : Bool) {s : State} (h0 : s.Ok b) : Res.Keeps b (execSpanctlDisable port on s) := State.whenOn_ok h0 (State.modPort_ok _ _ h0)

theorem execCorectlDis_ok (core : Nat) (on : Bool) {s : State} (h0 : s.Ok b) : Res.Keeps b (execCorectlDis core on s) := by
  unfold execCorectlDis
  repeat' split
  all_goals simp (maxDischargeDepth := 40) [*]

theorem execPeerDeadTimeout_ok (rank : Nat) {s : State} (h0 : s.Ok b) : Res.Keeps b (execPeerDeadTimeout rank s) := by
  unfold execPeerDeadTimeout
  simp [*]

theorem execLivenessFlood_ok (flood : Flood) {s : State} (h0 : s.Ok b) : Res.Keeps b (execLivenessFlood flood s) := by
  unfold execLivenessFlood
  dsimp only
  repeat' split
  all_goals simp (maxDischargeDepth := 40) [*]

theorem execSpanrjGo_ok (rank : Nat) (running : Bool) {s : State} (h0 : s.Ok b) : Res.Keeps b (execSpanrjGo rank running s) := by
  unfold execSpanrjGo
  simp [*]

theorem execIdleFlit_ok (rank : Nat) {s : State} (h0 : s.Ok b) : Res.Keeps b (execIdleFlit rank s) := by
  unfold execIdleFlit
  simp [*]

-- Machine/RegisterWrites.lean

theorem State.writeDriver_ok {s : State} (off : Nat) (val : W64) (h0 : s.Ok b) : Res.Keeps b (State.writeDriver s off val) := by
  have set : ∀ d : Driver, Res.Keeps b (s.whenOn { s with drv := d }) := fun d => State.whenOn_ok h0 (by simp (maxDischargeDepth := 40) [*])
  unfold State.writeDriver
  try dsimp only
  refine (keeps_ite _ _ _).mpr ⟨fun _ => set _, fun _ => ?_⟩
  refine (keeps_ite _ _ _).mpr ⟨fun _ => ?_, fun _ => ?_⟩
  · split
    · exact execCtxLoad_ok _ h0
    · exact execCtxSave_ok _ h0
    · exact execCtxResume_ok _ h0
    · exact execCtxKill_ok _ h0
    · exact execCtxUnload_ok _ h0
    · exact execCtxUpool_ok _ h0
    · exact set _
  refine (keeps_ite _ _ _).mpr ⟨fun _ => ?_, fun _ => ?_⟩
  · split
    · exact execTlbConfirm_ok _ h0
    · exact execTlbMark_ok _ h0
  refine (keeps_ite _ _ _).mpr ⟨fun _ => set _, fun _ => ?_⟩
  refine (keeps_ite _ _ _).mpr ⟨fun _ => set _, fun _ => ?_⟩
  refine (keeps_ite _ _ _).mpr ⟨fun _ => set _, fun _ => ?_⟩
  refine (keeps_ite _ _ _).mpr ⟨fun _ => set _, fun _ => ?_⟩
  refine (keeps_ite _ _ _).mpr ⟨fun _ => ?_, fun _ => ?_⟩
  · have hw : ∀ w : Nat, State.Ok b (if (bitAt val.toNat 6 && s.boot.powered) = true then s.modWing w (fun x => { x with err := false }) else s) := by
      intro w
      split <;> simp (maxDischargeDepth := 40) [*]
    split
    · exact execWingDrain_ok _ (hw _)
    · exact execWingReset_ok _ (hw _)
    · exact execWingOnline_ok _ (hw _)
    · exact (keeps_next _).mpr (hw _)
  refine (keeps_ite _ _ _).mpr ⟨fun _ => ?_, fun _ => ?_⟩
  · split
    · exact execRowretGo_ok _ h0
    · exact State.whenOn_ok h0 (by simp (maxDischargeDepth := 40) [*])
  refine (keeps_ite _ _ _).mpr ⟨fun _ => ?_, fun _ => ?_⟩
  · have hp := execSpanctlDisable_ok ((off - 0x300) / 8) (bitAt val.toNat 3) h0
    split
    · rename_i heq
      rw [heq] at hp
      have hp' := (keeps_next _).mp hp
      split
      · exact execRetrain_ok _ hp'
      · exact (keeps_next _).mpr hp'
    · exact hp
  refine (keeps_ite _ _ _).mpr ⟨fun _ => execCorectlDis_ok _ _ h0, fun _ => (keeps_next _).mpr h0⟩

theorem State.writeFleet_ok {s : State} (off : Nat) (val : W64) (h0 : s.Ok b) : Res.Keeps b (State.writeFleet s off val) := by
  unfold State.writeFleet
  try dsimp only
  refine (keeps_ite _ _ _).mpr ⟨fun _ => ?_, fun _ => ?_⟩
  · split
    · exact execBootctlGo_ok h0
    · exact (keeps_next _).mpr h0
  refine (keeps_ite _ _ _).mpr ⟨fun _ => State.whenOn_ok h0 (by simp (maxDischargeDepth := 40) [*]), fun _ => ?_⟩
  refine (keeps_ite _ _ _).mpr ⟨fun _ => State.whenOn_ok h0 (by simp (maxDischargeDepth := 40) [*]), fun _ => ?_⟩
  refine (keeps_ite _ _ _).mpr ⟨fun _ => execModeWrite_ok _ h0, fun _ => ?_⟩
  refine (keeps_ite _ _ _).mpr ⟨fun _ => State.whenOn_ok h0 (by simp (maxDischargeDepth := 40) [*]), fun _ => ?_⟩
  refine (keeps_ite _ _ _).mpr ⟨fun _ => State.whenOn_ok h0 (by simp (maxDischargeDepth := 40) [*]), fun _ => ?_⟩
  refine (keeps_ite _ _ _).mpr ⟨fun _ => State.whenOn_ok h0 (by simp (maxDischargeDepth := 40) [*]), fun _ => ?_⟩
  refine (keeps_ite _ _ _).mpr ⟨fun _ => ?_, fun _ => (keeps_next _).mpr h0⟩
  have hs : State.Ok b (if (bitAt val.toNat 9 && s.boot.powered) = true then { s with span := { s.span with rjErr := false } } else s) := by
    split <;> simp (maxDischargeDepth := 40) [*]
  split
  · exact execSpanrjGo_ok _ _ (State.pickBelow_ok _ hs)
  · exact State.whenOn_ok hs (by simp (maxDischargeDepth := 40) [*])

theorem State.writeQueue_ok {s : State} (off : Nat) (val : W64) (h0 : s.Ok b) : Res.Keeps b (State.writeQueue s off val) := by
  unfold State.writeQueue
  try dsimp only
  refine (keeps_ite _ _ _).mpr ⟨fun _ => (keeps_next _).mpr h0, fun _ => ?_⟩
  refine (keeps_ite _ _ _).mpr ⟨fun _ => ?_, fun _ => ?_⟩
  · split
    · simp (maxDischargeDepth := 40) [*]
    · simp (maxDischargeDepth := 40) [*]
    · have hs : ∀ k q : Nat, State.Ok b (if bitAt val.toNat 0 = true then s.modQueue k q (fun x => { x with ovr := false }) else s) := by
        intro k q
        split <;> simp (maxDischargeDepth := 40) [*]
      split
      · exact execCstopClear_ok _ _ (hs _ _)
      · exact (keeps_next _).mpr (hs _ _)
    · exact execQdb_ok _ _ h0
    · exact execQreset_ok _ _ _ h0
    · simp (maxDischargeDepth := 40) [*]
  · split
    · simp (maxDischargeDepth := 40) [*]
    · simp (maxDischargeDepth := 40) [*]
    · exact execBncrp_ok _ _ h0
    · simp (maxDischargeDepth := 40) [*]

theorem execRegisterWrite_ok (bar : Bool) (off : Nat) (val : W64) {s : State} (h0 : s.Ok b) : Res.Keeps b (execRegisterWrite bar off val s) := by
  unfold execRegisterWrite
  refine (keeps_ite _ _ _).mpr ⟨fun _ => (keeps_next _).mpr h0, fun _ => ?_⟩
  refine (keeps_ite _ _ _).mpr ⟨fun _ => State.writeQueue_ok _ _ h0, fun _ => ?_⟩
  refine (keeps_ite _ _ _).mpr ⟨fun _ => execTrgownWrite_ok _ _ _ h0, fun _ => ?_⟩
  refine (keeps_ite _ _ _).mpr ⟨fun _ => execCtrownWrite_ok _ _ _ h0, fun _ => ?_⟩
  exact (keeps_ite _ _ _).mpr ⟨fun _ => State.writeFleet_ok _ _ h0, fun _ => State.writeDriver_ok _ _ h0⟩

-- Machine/Sync.lean

theorem execBar_ok (h : Hdr) (f : FmtT) {s : State} (h0 : s.Ok b) : Res.Keeps b (execBar h f s) := by
  unfold execBar
  split
  · simp
  · split
    · exact State.stop_ok _ _ h0
    · exact State.wideOp_ok h0 (fun s w h0 => State.passAll_ok _ h0)

theorem execSleep_ok (h : Hdr) (f : FmtT) {s : State} (h0 : s.Ok b) : Res.Keeps b (execSleep h f s) := State.lane_ok h0 (fun i => by simp (maxDischargeDepth := 40) [*])

theorem execSleepExpiry_ok (u : UnitId) {s : State} (h0 : s.Ok b) : Res.Keeps b (execSleepExpiry u s) := by
  unfold execSleepExpiry
  split <;> simp [*]

-- Machine/WorkLists.lean

@[simp] theorem State.modWlist_ok {s : State} (ctx l : Nat) (f : WList → WList) (h0 : s.Ok b) : (State.modWlist s ctx l f).Ok b := by
  unfold State.modWlist
  simp [*]

@[simp] theorem State.append_ok {s : State} (i : Issuer) (h : Hdr) (f : FmtT) (h0 : s.Ok b) : Got (State.Ok b) (s.append i h f) := by
  unfold State.append
  dsimp only [State.fresh]
  repeat' with_reducible refine got_skip (fun _ _ => ?_)
  generalize (List.map _ _ : List _) = items
  split
  · simp (maxDischargeDepth := 40) [*]
  · simp only [got_ok]
    split <;> simp (maxDischargeDepth := 40) [*]

theorem execWapp_ok (h : Hdr) (f : FmtT) {s : State} (h0 : s.Ok b) : Res.Keeps b (execWapp h f s) := by
  unfold execWapp
  split
  · exact State.gangWide_ok h0 (fun s i h0 => State.append_ok _ _ _ h0)
  · exact State.lane_ok h0 (fun i => State.append_ok _ _ _ h0)

theorem execWpop_ok (h : Hdr) (steal : Bool) (f : FmtT) {s : State} (h0 : s.Ok b) : Res.Keeps b (execWpop h steal f s) := by
  refine State.gangOp_ok h0 (fun s i h0 => ?_)
  repeat' (first | split | with_reducible refine got_skip (fun _ _ => ?_))
  all_goals simp (maxDischargeDepth := 40) [*]

@[simp] theorem State.wpopDone_ok {s : State} (ctx l : Nat) (x : W64) (z done : Bool) (h0 : s.Ok b) : (State.wpopDone s ctx l x z done).Ok b := by
  unfold State.wpopDone
  dsimp only
  repeat' split
  all_goals simp (maxDischargeDepth := 40) [*]

@[simp] theorem State.appendDone_ok {s : State} (a : Append) (n : Nat) (h0 : s.Ok b) : (State.appendDone s a n).Ok b := by
  unfold State.appendDone
  simp [*]

theorem execWappLand_ok (ctx idx : Nat) {s : State} (h0 : s.Ok b) : Res.Keeps b (execWappLand ctx idx s) := by
  unfold execWappLand
  repeat' split
  all_goals simp (maxDischargeDepth := 40) [*]

theorem execQuiescenceDone_ok (ctx : Nat) {s : State} (h0 : s.Ok b) : Res.Keeps b (execQuiescenceDone ctx s) := by
  unfold execQuiescenceDone
  try dsimp only [State.pick, State.pickBelow, State.fresh]
  repeat' split
  all_goals try dsimp only
  repeat' split
  all_goals simp (maxDischargeDepth := 40) +contextual [*]

end Sys2Proof.Machine
end

