-- ==== Sys2Proof/Laws/PerInstr.lean ====
section
/-! SUPPORT. For every instruction: the opcode map reads its raw word as that instruction, and the word fits a slot. -/

namespace Sys2Proof.Laws.Encoding

open Sys2Proof

/-- A well-formed encoded instruction is what the map of R225 gives its raw word, and a slot can hold that word; an instruction
without one is an event. -/
def Statement (i : Instr) : Prop :=
  i.fieldsOk = true → match i.toRaw with
    | some r => r.toInstr = some i ∧ r.Fits
    | none => i.isEvent = true

/-- The check of the operand fields, the last of an instruction's checks. -/
theorem rule {a : Bool} {h : Hdr} {f : FmtR} {k : RuleR} (hk : (a && f.ok h k) = true) : f.ok h k = true := (Bool.and_eq_true .. ▸ hk).2

/-- A word of an opcode that has format R only fits where its rule allows no IMM32. -/
theorem fits_r {opc fn : Nat} {h : Hdr} {f : FmtR} {k : RuleR} (hk : f.ok h k = true) (h1 : opc < 256) (h2 : fn < 256) (ho : opFormat opc = some .r)
    (hi : k.iform = false) : (RawWord.r opc fn h f).Fits := by
  refine ⟨h1, h2, ?_⟩
  cases hb : f.b with
  | op o => exact .inl ho
  | imm32 v => simp [FmtR.ok, hb, hi] at hk

/-- A word of an opcode that has formats R and I fits where its rule allows no C operand. -/
theorem fits_ri {opc fn : Nat} {h : Hdr} {f : FmtR} {k : RuleR} (hk : f.ok h k = true) (h1 : opc < 256) (h2 : fn < 256) (ho : opFormat opc = some .ri)
    (hc : k.c = false) : (RawWord.r opc fn h f).Fits := by
  refine ⟨h1, h2, ?_⟩
  cases hb : f.b with
  | op o =>
    simp only [FmtR.ok, hb, hc, Bool.and_eq_true, Bool.false_or, beq_iff_eq] at hk
    exact .inr ⟨ho, hk.1.1.1.1.1.2⟩
  | imm32 v =>
    simp only [FmtR.ok, hb, hc, Bool.and_eq_true, Bool.false_or, beq_iff_eq, Bool.not_eq_true'] at hk
    exact ⟨ho, hk.1.1.1.1.1.2, hk.1.1.1.1.2.1.2, hk.1.1.1.1.2.2⟩

theorem nop : Statement .nop := fun _ => ⟨rfl, by decide, by decide, rfl⟩
theorem bra (h : Hdr) (disp : W32) : Statement (.bra h disp) := fun _ => ⟨rfl, by decide, by decide, rfl⟩
theorem bcc (h : Hdr) (cond : Cond) (disp : W32) : Statement (.bcc h cond disp) := by
  cases cond <;> exact fun _ => ⟨rfl, by decide, by decide, rfl⟩
theorem bmz (h : Hdr) (disp : W32) : Statement (.bmz h disp) := fun _ => ⟨rfl, by decide, by decide, rfl⟩
theorem bmnz (h : Hdr) (disp : W32) : Statement (.bmnz h disp) := fun _ => ⟨rfl, by decide, by decide, rfl⟩
theorem bind (h : Hdr) (a : Operand) : Statement (.bind h a) := fun _ => ⟨rfl, by decide, by decide, rfl⟩
theorem call (h : Hdr) (disp : W32) : Statement (.call h disp) := fun _ => ⟨rfl, by decide, by decide, rfl⟩
theorem calli (h : Hdr) (a : Operand) : Statement (.calli h a) := fun _ => ⟨rfl, by decide, by decide, rfl⟩
theorem ret (h : Hdr) : Statement (.ret h) := fun _ => ⟨rfl, by decide, by decide, rfl⟩
theorem regang (h : Hdr) : Statement (.regang h) := fun _ => ⟨rfl, by decide, by decide, rfl⟩
theorem exit (h : Hdr) : Statement (.exit h) := fun _ => ⟨rfl, by decide, by decide, rfl⟩
theorem yield (h : Hdr) : Statement (.yield h) := fun _ => ⟨rfl, by decide, by decide, rfl⟩
theorem enter (h : Hdr) (size : W32) : Statement (.enter h size) := fun _ => ⟨rfl, by decide, rfl⟩
theorem leave (h : Hdr) : Statement (.leave h) := fun _ => ⟨rfl, by decide, by decide, rfl⟩
theorem bkpt (h : Hdr) : Statement (.bkpt h) := fun _ => ⟨rfl, by decide, by decide, rfl⟩
theorem trap (h : Hdr) (code : W32) : Statement (.trap h code) := fun _ => ⟨rfl, by decide, rfl⟩
theorem smov (h : Hdr) (hi : Bool) (f : FmtR) : Statement (.smov h hi f) := by
  cases hi <;> exact fun hk => ⟨rfl, fits_ri (rule hk) (by decide) (by decide) rfl rfl⟩
theorem sadd (h : Hdr) (f : FmtR) : Statement (.sadd h f) := fun hk => ⟨rfl, fits_ri (rule hk) (by decide) (by decide) rfl rfl⟩
theorem ssub (h : Hdr) (f : FmtR) : Statement (.ssub h f) := fun hk => ⟨rfl, fits_ri (rule hk) (by decide) (by decide) rfl rfl⟩
theorem smul (h : Hdr) (hi : Bool) (f : FmtR) : Statement (.smul h hi f) := by
  cases hi <;> exact fun hk => ⟨rfl, fits_ri (rule hk) (by decide) (by decide) rfl rfl⟩
theorem smad (h : Hdr) (f : FmtR) : Statement (.smad h f) := fun hk => ⟨rfl, fits_r (rule hk) (by decide) (by decide) rfl rfl⟩
theorem sdiv (h : Hdr) (f : FmtR) : Statement (.sdiv h f) := by
  intro hk
  simp only [Instr.fieldsOk, Bool.and_eq_true] at hk
  exact ⟨rfl, fits_r hk.2 (by decide) (by decide) rfl rfl⟩
theorem srem (h : Hdr) (f : FmtR) : Statement (.srem h f) := by
  intro hk
  simp only [Instr.fieldsOk, Bool.and_eq_true] at hk
  exact ⟨rfl, fits_r hk.2 (by decide) (by decide) rfl rfl⟩
theorem slop (h : Hdr) (lut : Byte) (f : FmtR) : Statement (.slop h lut f) := fun hk => ⟨by simp [RawWord.toInstr], fits_r (rule hk) (by decide) lut.isLt rfl rfl⟩
theorem sshf (h : Hdr) (k : ShiftOp) (f : FmtR) : Statement (.sshf h k f) := by
  cases k <;> exact fun hk => ⟨rfl, fits_ri (rule hk) (by decide) (by decide) rfl rfl⟩
theorem scmp (h : Hdr) (f : FmtR) : Statement (.scmp h f) := fun hk => ⟨rfl, fits_ri (rule hk) (by decide) (by decide) rfl rfl⟩
theorem ssel (h : Hdr) (cond : Cond) (f : FmtR) : Statement (.ssel h cond f) := by
  cases cond <;> exact fun hk => ⟨rfl, fits_r (rule hk) (by decide) (by decide) rfl rfl⟩
theorem smin (h : Hdr) (f : FmtR) : Statement (.smin h f) := fun hk => ⟨rfl, fits_ri (rule hk) (by decide) (by decide) rfl rfl⟩
theorem smax (h : Hdr) (f : FmtR) : Statement (.smax h f) := fun hk => ⟨rfl, fits_ri (rule hk) (by decide) (by decide) rfl rfl⟩
theorem sbit (h : Hdr) (k : BitOp) (f : FmtR) : Statement (.sbit h k f) := by
  cases k <;> exact fun hk => ⟨rfl, fits_r (rule hk) (by decide) (by decide) rfl rfl⟩
theorem sfop (h : Hdr) (k : SfopOp) (f : FmtR) : Statement (.sfop h k f) := by
  cases k <;> exact fun hk => ⟨rfl, fits_r (rule hk) (by decide) (by decide) rfl rfl⟩
theorem sget (h : Hdr) (r : SReg) (f : FmtR) : Statement (.sget h r f) := by
  cases r <;> exact fun hk => ⟨rfl, fits_r (rule hk) (by decide) (by decide) rfl rfl⟩
theorem sset (h : Hdr) (r : SReg) (f : FmtR) : Statement (.sset h r f) := by
  cases r <;> exact fun hk => ⟨rfl, fits_r (rule hk) (by decide) (by decide) rfl rfl⟩
theorem mop (h : Hdr) (k : MaskOp) (f : FmtR) : Statement (.mop h k f) := by
  cases k <;> exact fun hk => ⟨rfl, fits_r (rule hk) (by decide) (by decide) rfl rfl⟩
theorem iadd (h : Hdr) (f : FmtR) : Statement (.iadd h f) := fun hk => ⟨rfl, fits_ri (rule hk) (by decide) (by decide) rfl rfl⟩
theorem isub (h : Hdr) (f : FmtR) : Statement (.isub h f) := fun hk => ⟨rfl, fits_ri (rule hk) (by decide) (by decide) rfl rfl⟩
theorem imul (h : Hdr) (hi : Bool) (f : FmtR) : Statement (.imul h hi f) := by
  cases hi <;> exact fun hk => ⟨rfl, fits_ri (rule hk) (by decide) (by decide) rfl rfl⟩
theorem imad (h : Hdr) (f : FmtR) : Statement (.imad h f) := fun hk => ⟨rfl, fits_r (rule hk) (by decide) (by decide) rfl rfl⟩
theorem imin (h : Hdr) (f : FmtR) : Statement (.imin h f) := fun hk => ⟨rfl, fits_ri (rule hk) (by decide) (by decide) rfl rfl⟩
theorem imax (h : Hdr) (f : FmtR) : Statement (.imax h f) := fun hk => ⟨rfl, fits_ri (rule hk) (by decide) (by decide) rfl rfl⟩
theorem iabs (h : Hdr) (f : FmtR) : Statement (.iabs h f) := fun hk => ⟨rfl, fits_r (rule hk) (by decide) (by decide) rfl rfl⟩
theorem ineg (h : Hdr) (f : FmtR) : Statement (.ineg h f) := fun hk => ⟨rfl, fits_r (rule hk) (by decide) (by decide) rfl rfl⟩
theorem lop (h : Hdr) (lut : Byte) (f : FmtR) : Statement (.lop h lut f) := fun hk => ⟨by simp [RawWord.toInstr], fits_r (rule hk) (by decide) lut.isLt rfl rfl⟩
theorem shf (h : Hdr) (k : ShiftOp) (f : FmtR) : Statement (.shf h k f) := by
  cases k <;> exact fun hk => ⟨rfl, fits_ri (rule hk) (by decide) (by decide) rfl rfl⟩
theorem icmp (h : Hdr) (p : CmpOp) (f : FmtR) : Statement (.icmp h p f) := by
  cases p <;> exact fun hk => ⟨rfl, fits_ri (rule hk) (by decide) (by decide) rfl rfl⟩
theorem sel (h : Hdr) (f : FmtR) : Statement (.sel h f) := fun hk => ⟨rfl, fits_r (rule hk) (by decide) (by decide) rfl rfl⟩
theorem ibit (h : Hdr) (k : BitOp) (f : FmtR) : Statement (.ibit h k f) := by
  cases k <;> exact fun hk => ⟨rfl, fits_r (rule hk) (by decide) (by decide) rfl rfl⟩
theorem bfx (h : Hdr) (k : BfxOp) (f : FmtR) : Statement (.bfx h k f) := by
  cases k <;> exact fun hk => ⟨rfl, fits_r (rule hk) (by decide) (by decide) rfl rfl⟩
theorem lea (h : Hdr) (f : FmtR) : Statement (.lea h f) := fun hk => ⟨rfl, fits_r (rule hk) (by decide) (by decide) rfl rfl⟩
theorem idiv (h : Hdr) (rem : Bool) (f : FmtR) : Statement (.idiv h rem f) := by
  intro hk
  simp only [Instr.fieldsOk, Bool.and_eq_true] at hk
  cases rem <;> exact ⟨rfl, fits_r hk.2 (by decide) (by decide) rfl rfl⟩
theorem idot (h : Hdr) (f : FmtR) : Statement (.idot h f) := fun hk => ⟨rfl, fits_r (rule hk) (by decide) (by decide) rfl rfl⟩
theorem mov (h : Hdr) (f : FmtR) : Statement (.mov h f) := fun hk => ⟨rfl, fits_ri (rule hk) (by decide) (by decide) rfl rfl⟩
theorem fadd (h : Hdr) (f : FmtR) : Statement (.fadd h f) := fun hk => ⟨rfl, fits_ri (rule hk) (by decide) (by decide) rfl rfl⟩
theorem fsub (h : Hdr) (f : FmtR) : Statement (.fsub h f) := fun hk => ⟨rfl, fits_ri (rule hk) (by decide) (by decide) rfl rfl⟩
theorem fmul (h : Hdr) (f : FmtR) : Statement (.fmul h f) := fun hk => ⟨rfl, fits_ri (rule hk) (by decide) (by decide) rfl rfl⟩
theorem fma (h : Hdr) (f : FmtR) : Statement (.fma h f) := fun hk => ⟨rfl, fits_r (rule hk) (by decide) (by decide) rfl rfl⟩
theorem fms (h : Hdr) (f : FmtR) : Statement (.fms h f) := fun hk => ⟨rfl, fits_r (rule hk) (by decide) (by decide) rfl rfl⟩
theorem fnma (h : Hdr) (f : FmtR) : Statement (.fnma h f) := fun hk => ⟨rfl, fits_r (rule hk) (by decide) (by decide) rfl rfl⟩
theorem fnms (h : Hdr) (f : FmtR) : Statement (.fnms h f) := fun hk => ⟨rfl, fits_r (rule hk) (by decide) (by decide) rfl rfl⟩
theorem fmin (h : Hdr) (f : FmtR) : Statement (.fmin h f) := fun hk => ⟨rfl, fits_ri (rule hk) (by decide) (by decide) rfl rfl⟩
theorem fmax (h : Hdr) (f : FmtR) : Statement (.fmax h f) := fun hk => ⟨rfl, fits_ri (rule hk) (by decide) (by decide) rfl rfl⟩
theorem fsgn (h : Hdr) (k : SgnOp) (f : FmtR) : Statement (.fsgn h k f) := by
  cases k <;> exact fun hk => ⟨rfl, fits_r (rule hk) (by decide) (by decide) rfl rfl⟩
theorem fcmp (h : Hdr) (p : CmpOp) (f : FmtR) : Statement (.fcmp h p f) := by
  cases p <;> exact fun hk => ⟨rfl, fits_r (rule hk) (by decide) (by decide) rfl rfl⟩
theorem fclass (h : Hdr) (f : FmtR) : Statement (.fclass h f) := fun hk => ⟨rfl, fits_r (rule hk) (by decide) (by decide) rfl rfl⟩
theorem fdiv (h : Hdr) (f : FmtR) : Statement (.fdiv h f) := by
  intro hk
  simp only [Instr.fieldsOk, Bool.and_eq_true] at hk
  exact ⟨rfl, fits_r hk.2 (by decide) (by decide) rfl rfl⟩
theorem fsqrt (h : Hdr) (f : FmtR) : Statement (.fsqrt h f) := by
  intro hk
  simp only [Instr.fieldsOk, Bool.and_eq_true] at hk
  exact ⟨rfl, fits_r hk.2 (by decide) (by decide) rfl rfl⟩
theorem frcp (h : Hdr) (f : FmtR) : Statement (.frcp h f) := by
  intro hk
  simp only [Instr.fieldsOk, Bool.and_eq_true] at hk
  exact ⟨rfl, fits_r hk.2 (by decide) (by decide) rfl rfl⟩
theorem frsq (h : Hdr) (f : FmtR) : Statement (.frsq h f) := by
  intro hk
  simp only [Instr.fieldsOk, Bool.and_eq_true] at hk
  exact ⟨rfl, fits_r hk.2 (by decide) (by decide) rfl rfl⟩
theorem fexp2 (h : Hdr) (f : FmtR) : Statement (.fexp2 h f) := by
  intro hk
  simp only [Instr.fieldsOk, Bool.and_eq_true] at hk
  exact ⟨rfl, fits_r hk.2 (by decide) (by decide) rfl rfl⟩
theorem flog2 (h : Hdr) (f : FmtR) : Statement (.flog2 h f) := by
  intro hk
  simp only [Instr.fieldsOk, Bool.and_eq_true] at hk
  exact ⟨rfl, fits_r hk.2 (by decide) (by decide) rfl rfl⟩
theorem fscale (h : Hdr) (f : FmtR) : Statement (.fscale h f) := fun hk => ⟨rfl, fits_r (rule hk) (by decide) (by decide) rfl rfl⟩
theorem frnd (h : Hdr) (f : FmtR) : Statement (.frnd h f) := fun hk => ⟨rfl, fits_r (rule hk) (by decide) (by decide) rfl rfl⟩
theorem cvtf (h : Hdr) (src : Ty) (f : FmtR) : Statement (.cvtf h src f) := by
  intro hk
  simp only [Instr.fieldsOk, Bool.and_eq_true] at hk
  split at hk
  · cases src <;> exact ⟨rfl, fits_r hk.2 (by decide) (by decide) rfl rfl⟩
  · exact absurd hk.2 (by decide)
theorem cvti (h : Hdr) (src : Ty) (f : FmtR) : Statement (.cvti h src f) := by
  cases src <;> exact fun hk => ⟨rfl, fits_r (rule hk) (by decide) (by decide) rfl rfl⟩
theorem cvtn (h : Hdr) (src : Ty) (f : FmtR) : Statement (.cvtn h src f) := by
  cases src <;> exact fun hk => ⟨rfl, fits_r (rule hk) (by decide) (by decide) rfl rfl⟩
theorem cvtl (h : Hdr) (enc : Bool) (f : FmtR) : Statement (.cvtl h enc f) := by
  cases enc <;> exact fun hk => ⟨rfl, fits_r (rule hk) (by decide) (by decide) rfl rfl⟩
theorem pack (h : Hdr) (src : Ty) (f : FmtR) : Statement (.pack h src f) := by
  cases src <;> exact fun hk => ⟨rfl, fits_r (rule hk) (by decide) (by decide) rfl rfl⟩
theorem unpk (h : Hdr) (elt : Ty) (f : FmtR) : Statement (.unpk h elt f) := by
  cases elt <;> exact fun hk => ⟨rfl, fits_r (rule hk) (by decide) (by decide) rfl rfl⟩
theorem shfl (h : Hdr) (k : ShflOp) (f : FmtR) : Statement (.shfl h k f) := by
  intro hk
  simp only [Instr.fieldsOk, Bool.and_eq_true] at hk
  cases k <;> exact ⟨rfl, fits_r hk.2 (by decide) (by decide) rfl rfl⟩
theorem bcast (h : Hdr) (f : FmtR) : Statement (.bcast h f) := fun hk => ⟨rfl, fits_r (rule hk) (by decide) (by decide) rfl rfl⟩
theorem xvote (h : Hdr) (k : VoteOp) (f : FmtR) : Statement (.xvote h k f) := by
  intro hk
  simp only [Instr.fieldsOk, Bool.and_eq_true] at hk
  cases k <;> exact ⟨rfl, fits_r hk.2 (by decide) (by decide) rfl rfl⟩
theorem xred (h : Hdr) (op : RedOp) (f : FmtR) : Statement (.xred h op f) := by
  intro hk
  simp only [Instr.fieldsOk, Bool.and_eq_true] at hk
  cases op <;> exact ⟨rfl, fits_r hk.2 (by decide) (by decide) rfl rfl⟩
theorem xscan (h : Hdr) (op : RedOp) (excl : Bool) (f : FmtR) : Statement (.xscan h op excl f) := by
  intro hk
  simp only [Instr.fieldsOk, Bool.and_eq_true] at hk
  cases op <;> cases excl <;> exact ⟨rfl, fits_r hk.2 (by decide) (by decide) rfl rfl⟩
theorem confl (h : Hdr) (f : FmtR) : Statement (.confl h f) := fun hk => ⟨rfl, fits_r (rule hk) (by decide) (by decide) rfl rfl⟩
theorem cmprs (h : Hdr) (f : FmtR) : Statement (.cmprs h f) := fun hk => ⟨rfl, fits_r (rule hk) (by decide) (by decide) rfl rfl⟩
theorem expnd (h : Hdr) (f : FmtR) : Statement (.expnd h f) := fun hk => ⟨rfl, fits_r (rule hk) (by decide) (by decide) rfl rfl⟩
theorem xmov (h : Hdr) (f : FmtR) : Statement (.xmov h f) := fun hk => ⟨rfl, fits_r (rule hk) (by decide) (by decide) rfl rfl⟩
theorem setdecl (h : Hdr) (f : FmtT) : Statement (.setdecl h f) := fun _ => ⟨rfl, by decide, by decide, rfl⟩
theorem ld (h : Hdr) (f : FmtM) : Statement (.ld h f) := fun _ => ⟨rfl, by decide, by decide, rfl⟩
theorem st (h : Hdr) (f : FmtM) : Statement (.st h f) := fun _ => ⟨rfl, by decide, by decide, rfl⟩
theorem lds (h : Hdr) (f : FmtM) : Statement (.lds h f) := fun _ => ⟨rfl, by decide, by decide, rfl⟩
theorem sts (h : Hdr) (f : FmtM) : Statement (.sts h f) := fun _ => ⟨rfl, by decide, by decide, rfl⟩
theorem ldu (h : Hdr) (f : FmtM) : Statement (.ldu h f) := fun _ => ⟨rfl, by decide, by decide, rfl⟩
theorem stu (h : Hdr) (f : FmtM) : Statement (.stu h f) := fun _ => ⟨rfl, by decide, by decide, rfl⟩
theorem ldl (h : Hdr) (f : FmtM) : Statement (.ldl h f) := fun _ => ⟨rfl, by decide, by decide, rfl⟩
theorem stl (h : Hdr) (f : FmtM) : Statement (.stl h f) := fun _ => ⟨rfl, by decide, by decide, rfl⟩
theorem stash (h : Hdr) (fmt : Fmt) (f : FmtM) : Statement (.stash h fmt f) := by
  cases fmt <;> exact fun _ => ⟨rfl, by decide, by decide, rfl⟩
theorem pld (h : Hdr) (room : Bool) (f : FmtM) : Statement (.pld h room f) := by
  cases room <;> exact fun _ => ⟨rfl, by decide, by decide, rfl⟩
theorem fence (h : Hdr) (f : FmtM) : Statement (.fence h f) := fun _ => ⟨rfl, by decide, by decide, rfl⟩
theorem cmaint (h : Hdr) (all : Bool) (f : FmtM) : Statement (.cmaint h all f) := by
  cases all <;> exact fun _ => ⟨rfl, by decide, by decide, rfl⟩
theorem atom (h : Hdr) (op : AtomOp) (ty : AtomTy) (f : FmtM) : Statement (.atom h op ty f) := by
  cases op <;> cases ty <;> exact fun _ => ⟨rfl, by decide, by decide, rfl⟩
theorem acas (h : Hdr) (ty : AtomTy) (f : FmtM) : Statement (.acas h ty f) := by
  cases ty <;> exact fun _ => ⟨rfl, by decide, by decide, rfl⟩
theorem mred (h : Hdr) (op : AtomOp) (ty : AtomTy) (f : FmtM) : Statement (.mred h op ty f) := by
  cases op <;> cases ty <;> exact fun _ => ⟨rfl, by decide, by decide, rfl⟩
theorem atoms (h : Hdr) (op : AtomOp) (ty : AtomTy) (f : FmtM) : Statement (.atoms h op ty f) := by
  cases op <;> cases ty <;> exact fun _ => ⟨rfl, by decide, by decide, rfl⟩
theorem acass (h : Hdr) (ty : AtomTy) (f : FmtM) : Statement (.acass h ty f) := by
  cases ty <;> exact fun _ => ⟨rfl, by decide, by decide, rfl⟩
theorem copy (h : Hdr) (shape : CopyShape) (out : Bool) (yld : Bool) (f : FmtT) : Statement (.copy h shape out yld f) := by
  cases shape <;> cases out <;> cases yld <;> exact fun _ => ⟨rfl, by decide, by decide, rfl⟩
theorem gather (h : Hdr) (f : FmtT) : Statement (.gather h f) := fun _ => ⟨rfl, by decide, by decide, rfl⟩
theorem scatter (h : Hdr) (mode : ScatterMode) (f : FmtT) : Statement (.scatter h mode f) := by
  cases mode <;> exact fun _ => ⟨rfl, by decide, by decide, rfl⟩
theorem abinit (h : Hdr) (f : FmtT) : Statement (.abinit h f) := fun _ => ⟨rfl, by decide, by decide, rfl⟩
theorem abarr (h : Hdr) (f : FmtT) : Statement (.abarr h f) := fun _ => ⟨rfl, by decide, by decide, rfl⟩
theorem abwait (h : Hdr) (f : FmtT) : Statement (.abwait h f) := fun _ => ⟨rfl, by decide, by decide, rfl⟩
theorem abexp (h : Hdr) (f : FmtT) : Statement (.abexp h f) := fun _ => ⟨rfl, by decide, by decide, rfl⟩
theorem abtest (h : Hdr) (f : FmtT) : Statement (.abtest h f) := fun _ => ⟨rfl, by decide, by decide, rfl⟩
theorem wapp (h : Hdr) (f : FmtT) : Statement (.wapp h f) := fun _ => ⟨rfl, by decide, by decide, rfl⟩
theorem wpop (h : Hdr) (steal : Bool) (f : FmtT) : Statement (.wpop h steal f) := by
  cases steal <;> exact fun _ => ⟨rfl, by decide, by decide, rfl⟩
theorem tdef (h : Hdr) (kind : TdefKind) (fmt : Fmt) (f : FmtT) : Statement (.tdef h kind fmt f) := by
  cases kind <;> cases fmt <;> exact fun _ => ⟨rfl, by decide, by decide, rfl⟩
theorem tldr (h : Hdr) (f : FmtT) : Statement (.tldr h f) := fun _ => ⟨rfl, by decide, by decide, rfl⟩
theorem tstr (h : Hdr) (f : FmtT) : Statement (.tstr h f) := fun _ => ⟨rfl, by decide, by decide, rfl⟩
theorem tget (h : Hdr) (part : TgetPart) (f : FmtT) : Statement (.tget h part f) := by
  cases part <;> exact fun _ => ⟨rfl, by decide, by decide, rfl⟩
theorem mma (h : Hdr) (f : FmtT) : Statement (.mma h f) := fun _ => ⟨rfl, by decide, by decide, rfl⟩
theorem tmul (h : Hdr) (f : FmtT) : Statement (.tmul h f) := fun _ => ⟨rfl, by decide, by decide, rfl⟩
theorem accrd (h : Hdr) (fmt : Fmt) (f : FmtT) : Statement (.accrd h fmt f) := by
  cases fmt <;> exact fun _ => ⟨rfl, by decide, by decide, rfl⟩
theorem accwr (h : Hdr) (fmt : Fmt) (f : FmtT) : Statement (.accwr h fmt f) := by
  cases fmt <;> exact fun _ => ⟨rfl, by decide, by decide, rfl⟩
theorem accz (h : Hdr) (f : FmtT) : Statement (.accz h f) := fun _ => ⟨rfl, by decide, by decide, rfl⟩
theorem accrel (h : Hdr) (f : FmtT) : Statement (.accrel h f) := fun _ => ⟨rfl, by decide, by decide, rfl⟩
theorem mbatch (h : Hdr) (f : FmtT) : Statement (.mbatch h f) := fun _ => ⟨rfl, by decide, by decide, rfl⟩
theorem mwait (h : Hdr) (f : FmtT) : Statement (.mwait h f) := fun _ => ⟨rfl, by decide, by decide, rfl⟩
theorem cturn (h : Hdr) (fmt : Fmt) (tr : Bool) (f : FmtT) : Statement (.cturn h fmt tr f) := by
  cases fmt <;> cases tr <;> exact fun _ => ⟨rfl, by decide, by decide, rfl⟩
theorem tmv (h : Hdr) (f : FmtT) : Statement (.tmv h f) := fun _ => ⟨rfl, by decide, by decide, rfl⟩
theorem tadd (h : Hdr) (f : FmtT) : Statement (.tadd h f) := fun _ => ⟨rfl, by decide, by decide, rfl⟩
theorem tscl (h : Hdr) (f : FmtT) : Statement (.tscl h f) := fun _ => ⟨rfl, by decide, by decide, rfl⟩
theorem trnd (h : Hdr) (abs : Bool) (f : FmtT) : Statement (.trnd h abs f) := by
  cases abs <;> exact fun _ => ⟨rfl, by decide, by decide, rfl⟩
theorem tdense (h : Hdr) (f : FmtT) : Statement (.tdense h f) := fun _ => ⟨rfl, by decide, by decide, rfl⟩
theorem tzero (h : Hdr) (f : FmtT) : Statement (.tzero h f) := fun _ => ⟨rfl, by decide, by decide, rfl⟩
theorem tnorm (h : Hdr) (f : FmtT) : Statement (.tnorm h f) := fun _ => ⟨rfl, by decide, by decide, rfl⟩
theorem tpool (h : Hdr) (fmt : Fmt) (f : FmtT) : Statement (.tpool h fmt f) := by
  cases fmt <;> exact fun _ => ⟨rfl, by decide, by decide, rfl⟩
theorem tfree (h : Hdr) (f : FmtT) : Statement (.tfree h f) := fun _ => ⟨rfl, by decide, by decide, rfl⟩
theorem ttrn (h : Hdr) (f : FmtT) : Statement (.ttrn h f) := fun _ => ⟨rfl, by decide, by decide, rfl⟩
theorem bar (h : Hdr) (f : FmtT) : Statement (.bar h f) := fun _ => ⟨rfl, by decide, by decide, rfl⟩
theorem gnew (h : Hdr) (f : FmtT) : Statement (.gnew h f) := fun _ => ⟨rfl, by decide, by decide, rfl⟩
theorem gjoin (h : Hdr) (f : FmtT) : Statement (.gjoin h f) := fun _ => ⟨rfl, by decide, by decide, rfl⟩
theorem gleave (h : Hdr) (f : FmtT) : Statement (.gleave h f) := fun _ => ⟨rfl, by decide, by decide, rfl⟩
theorem gbar (h : Hdr) (f : FmtT) : Statement (.gbar h f) := fun _ => ⟨rfl, by decide, by decide, rfl⟩
theorem gvote (h : Hdr) (all : Bool) (f : FmtT) : Statement (.gvote h all f) := by
  cases all <;> exact fun _ => ⟨rfl, by decide, by decide, rfl⟩
theorem gred (h : Hdr) (op : RedOp) (f : FmtT) : Statement (.gred h op f) := by
  cases op <;> exact fun _ => ⟨rfl, by decide, by decide, rfl⟩
theorem greset (h : Hdr) (f : FmtT) : Statement (.greset h f) := fun _ => ⟨rfl, by decide, by decide, rfl⟩
theorem ginfo (h : Hdr) (f : FmtT) : Statement (.ginfo h f) := fun _ => ⟨rfl, by decide, by decide, rfl⟩
theorem qdef (h : Hdr) (f : FmtT) : Statement (.qdef h f) := fun _ => ⟨rfl, by decide, by decide, rfl⟩
theorem qpush (h : Hdr) (try_ : Bool) (f : FmtT) : Statement (.qpush h try_ f) := by
  cases try_ <;> exact fun _ => ⟨rfl, by decide, by decide, rfl⟩
theorem qpop (h : Hdr) (try_ : Bool) (f : FmtT) : Statement (.qpop h try_ f) := by
  cases try_ <;> exact fun _ => ⟨rfl, by decide, by decide, rfl⟩
theorem sleep (h : Hdr) (f : FmtT) : Statement (.sleep h f) := fun _ => ⟨rfl, by decide, by decide, rfl⟩
theorem coll (h : Hdr) (op : CollOp) (red : RedOp) (f : FmtT) : Statement (.coll h op red f) := by
  cases op <;> cases red <;> exact fun _ => ⟨rfl, by decide, by decide, rfl⟩
theorem xput (h : Hdr) (f : FmtT) : Statement (.xput h f) := fun _ => ⟨rfl, by decide, by decide, rfl⟩
theorem xget (h : Hdr) (f : FmtT) : Statement (.xget h f) := fun _ => ⟨rfl, by decide, by decide, rfl⟩
theorem trigarm (h : Hdr) (f : FmtT) : Statement (.trigarm h f) := fun _ => ⟨rfl, by decide, by decide, rfl⟩
theorem trigcnt (h : Hdr) (f : FmtT) : Statement (.trigcnt h f) := fun _ => ⟨rfl, by decide, by decide, rfl⟩
theorem trigdis (h : Hdr) (f : FmtT) : Statement (.trigdis h f) := fun _ => ⟨rfl, by decide, by decide, rfl⟩
theorem launch (h : Hdr) (f : FmtT) : Statement (.launch h f) := fun _ => ⟨rfl, by decide, by decide, rfl⟩
theorem cjoin (h : Hdr) (f : FmtT) : Statement (.cjoin h f) := fun _ => ⟨rfl, by decide, by decide, rfl⟩
theorem spanmap (h : Hdr) (f : FmtT) : Statement (.spanmap h f) := fun _ => ⟨rfl, by decide, by decide, rfl⟩
theorem spanst (h : Hdr) (f : FmtT) : Statement (.spanst h f) := fun _ => ⟨rfl, by decide, by decide, rfl⟩
theorem labort (h : Hdr) (f : FmtT) : Statement (.labort h f) := fun _ => ⟨rfl, by decide, by decide, rfl⟩
theorem rte (h : Hdr) : Statement (.rte h) := fun _ => ⟨rfl, by decide, by decide, rfl⟩
theorem trq (h : Hdr) (drop : Bool) (f : FmtR) : Statement (.trq h drop f) := by
  cases drop <;> exact fun hk => ⟨rfl, fits_r (rule hk) (by decide) (by decide) rfl rfl⟩
theorem perf (h : Hdr) (ctr : PerfCtr) (f : FmtR) : Statement (.perf h ctr f) := by
  cases ctr <;> exact fun hk => ⟨rfl, fits_r (rule hk) (by decide) (by decide) rfl rfl⟩
theorem handlerEntry (team gang : Nat) : Statement (.handlerEntry team gang) := fun _ => rfl
theorem pageFaultResolved (ctx : Nat) (page : Nat) (ok : Bool) : Statement (.pageFaultResolved ctx page ok) := fun _ => rfl
theorem wappLand (ctx idx : Nat) : Statement (.wappLand ctx idx) := fun _ => rfl
theorem quiescenceDone (ctx : Nat) : Statement (.quiescenceDone ctx) := fun _ => rfl
theorem matrixOpComplete (team op : Nat) : Statement (.matrixOpComplete team op) := fun _ => rfl
theorem sleepExpiry (u : UnitId) : Statement (.sleepExpiry u) := fun _ => rfl
theorem collStagingGrant (coll : Nat) : Statement (.collStagingGrant coll) := fun _ => rfl
theorem chunkArrival (c : Chunk) : Statement (.chunkArrival c) := fun _ => rfl
theorem collTimeout (coll : Nat) : Statement (.collTimeout coll) := fun _ => rfl
theorem xputReceive (ctx : Nat) (addr : W64) (data : List Byte) (notify : Option Nat) : Statement (.xputReceive ctx addr data notify) := fun _ => rfl
theorem xgetRequest (ctx : Nat) (addr : W64) (len : Nat) : Statement (.xgetRequest ctx addr len) := fun _ => rfl
theorem triggerActionComplete (ctx idx : Nat) (err : Byte) : Statement (.triggerActionComplete ctx idx err) := fun _ => rfl
theorem engineLand (team op seg : Nat) : Statement (.engineLand team op seg) := fun _ => rfl
theorem engineArrival (team op : Nat) : Statement (.engineArrival team op) := fun _ => rfl
theorem fixupReplay (team op : Nat) : Statement (.fixupReplay team op) := fun _ => rfl
theorem copyYieldResume (team op : Nat) : Statement (.copyYieldResume team op) := fun _ => rfl
theorem dispatch (ctx idx : Nat) : Statement (.dispatch ctx idx) := fun _ => rfl
theorem teamPlace (launch grid core : Nat) : Statement (.teamPlace launch grid core) := fun _ => rfl
theorem teamRetire (team : Nat) : Statement (.teamRetire team) := fun _ => rfl
theorem launchCommit (launch : Nat) : Statement (.launchCommit launch) := fun _ => rfl
theorem poolFull (launch : Nat) : Statement (.poolFull launch) := fun _ => rfl
theorem irrevocablePublish (launch : Nat) : Statement (.irrevocablePublish launch) := fun _ => rfl
theorem prqDeadline (team : Nat) : Statement (.prqDeadline team) := fun _ => rfl
theorem saveDrainTimeout (team : Nat) : Statement (.saveDrainTimeout team) := fun _ => rfl
theorem parkPreempt (team : Nat) : Statement (.parkPreempt team) := fun _ => rfl
theorem teamRestore (team core : Nat) : Statement (.teamRestore team core) := fun _ => rfl
theorem hdmRead (addr len : Nat) : Statement (.hdmRead addr len) := fun _ => rfl
theorem hdmWrite (addr : Nat) (data : List Byte) : Statement (.hdmWrite addr data) := fun _ => rfl
theorem qrsv (slot queue : Nat) : Statement (.qrsv slot queue) := fun _ => rfl
theorem qdb (slot queue : Nat) : Statement (.qdb slot queue) := fun _ => rfl
theorem queuePollTimer (slot queue : Nat) : Statement (.queuePollTimer slot queue) := fun _ => rfl
theorem qreset (slot queue : Nat) (val : W64) : Statement (.qreset slot queue val) := fun _ => rfl
theorem ckpt (ctx idx : Nat) : Statement (.ckpt ctx idx) := fun _ => rfl
theorem recompute (ctx idx : Nat) : Statement (.recompute ctx idx) := fun _ => rfl
theorem replayNext (ctx : Nat) : Statement (.replayNext ctx) := fun _ => rfl
theorem registerWrite (bar : Bool) (off : Nat) (val : W64) : Statement (.registerWrite bar off val) := fun _ => rfl
theorem ctxLoad (slot : Nat) : Statement (.ctxLoad slot) := fun _ => rfl
theorem ctxSave (slot : Nat) : Statement (.ctxSave slot) := fun _ => rfl
theorem ctxSaveDone (slot : Nat) : Statement (.ctxSaveDone slot) := fun _ => rfl
theorem ctxResume (slot : Nat) : Statement (.ctxResume slot) := fun _ => rfl
theorem ctxKill (slot : Nat) : Statement (.ctxKill slot) := fun _ => rfl
theorem ctxUnload (slot : Nat) : Statement (.ctxUnload slot) := fun _ => rfl
theorem ctxUpool (slot : Nat) : Statement (.ctxUpool slot) := fun _ => rfl
theorem tlbMark (val : W64) : Statement (.tlbMark val) := fun _ => rfl
theorem tlbMarkDrained : Statement .tlbMarkDrained := fun _ => rfl
theorem tlbConfirm (val : W64) : Statement (.tlbConfirm val) := fun _ => rfl
theorem bncrp (slot : Nat) (val : W64) : Statement (.bncrp slot val) := fun _ => rfl
theorem trgownWrite (wing idx : Nat) (val : W64) : Statement (.trgownWrite wing idx val) := fun _ => rfl
theorem ctrownWrite (wing idx : Nat) (val : W64) : Statement (.ctrownWrite wing idx val) := fun _ => rfl
theorem wingDrain (wing : Nat) : Statement (.wingDrain wing) := fun _ => rfl
theorem wingDrained (wing : Nat) : Statement (.wingDrained wing) := fun _ => rfl
theorem wingReset (wing : Nat) : Statement (.wingReset wing) := fun _ => rfl
theorem wingResetDone (wing : Nat) : Statement (.wingResetDone wing) := fun _ => rfl
theorem wingOnline (wing : Nat) : Statement (.wingOnline wing) := fun _ => rfl
theorem rowretGo (val : W64) : Statement (.rowretGo val) := fun _ => rfl
theorem rowCopyDone : Statement .rowCopyDone := fun _ => rfl
theorem retrain (port : Nat) : Statement (.retrain port) := fun _ => rfl
theorem retrainDone (port : Nat) : Statement (.retrainDone port) := fun _ => rfl
theorem spanctlDisable (port : Nat) (on : Bool) : Statement (.spanctlDisable port on) := fun _ => rfl
theorem corectlDis (core : Nat) (on : Bool) : Statement (.corectlDis core on) := fun _ => rfl
theorem peerDeadTimeout (rank : Nat) : Statement (.peerDeadTimeout rank) := fun _ => rfl
theorem livenessFlood (flood : Flood) : Statement (.livenessFlood flood) := fun _ => rfl
theorem spanrjGo (rank : Nat) (running : Bool) : Statement (.spanrjGo rank running) := fun _ => rfl
theorem modeWrite (val : W64) : Statement (.modeWrite val) := fun _ => rfl
theorem eccChangeDone : Statement .eccChangeDone := fun _ => rfl
theorem clockCapChange : Statement .clockCapChange := fun _ => rfl
theorem thermalSample (core temp : Nat) : Statement (.thermalSample core temp) := fun _ => rfl
theorem droopFlag (core : Nat) (raised : Bool) : Statement (.droopFlag core raised) := fun _ => rfl
theorem droopHoldExpiry (core : Nat) : Statement (.droopHoldExpiry core) := fun _ => rfl
theorem longLatencyResult (u : UnitId) (idx : Nat) : Statement (.longLatencyResult u idx) := fun _ => rfl
theorem remoteLineRequest (ctx addr : Nat) (write : Option (List Byte)) : Statement (.remoteLineRequest ctx addr write) := fun _ => rfl
theorem signTokenRefill : Statement .signTokenRefill := fun _ => rfl
theorem powerOn : Statement .powerOn := fun _ => rfl
theorem deviceReset : Statement .deviceReset := fun _ => rfl
theorem bootctlGo : Statement .bootctlGo := fun _ => rfl
theorem bootImageLoaded (image : List Byte) (fetchFault : Bool) : Statement (.bootImageLoaded image fetchFault) := fun _ => rfl
theorem getVersion (box : Nat) : Statement (.getVersion box) := fun _ => rfl
theorem getCapabilities (box : Nat) : Statement (.getCapabilities box) := fun _ => rfl
theorem negotiateAlgorithms (box : Nat) : Statement (.negotiateAlgorithms box) := fun _ => rfl
theorem getDigests (box : Nat) : Statement (.getDigests box) := fun _ => rfl
theorem getCertificate (box slot : Nat) : Statement (.getCertificate box slot) := fun _ => rfl
theorem challenge (box : Nat) (nonce : List Byte) : Statement (.challenge box nonce) := fun _ => rfl
theorem getMeasurements (box index : Nat) (signed : Bool) (nonce : List Byte) : Statement (.getMeasurements box index signed nonce) := fun _ => rfl
theorem idleFlit (rank : Nat) : Statement (.idleFlit rank) := fun _ => rfl
theorem powerLoss : Statement .powerLoss := fun _ => rfl
theorem cstopClear (slot queue : Nat) : Statement (.cstopClear slot queue) := fun _ => rfl

end Sys2Proof.Laws.Encoding
end

