-- ==== Sys2Proof/Laws/Tiles.lean ====
section
/-! SUPPORT. The checks of the tile instructions, said once (R51, R59, R96, R302). -/

namespace Sys2Proof.Machine

open Sys2Proof

/-- A check that finds nothing wrong. -/
theorem trap_ok {c : Bool} {cause : Nat} {a i : W64} (h : c = false) : trapIf c cause a i = .ok () := by subst h; rfl

/-- A check of a record that finds nothing wrong. -/
theorem tileTrap_ok {c : Bool} {r : Nat} (h : c = false) : tileTrapIf c r = .ok () := by subst h; rfl

/-- A t operand with a consistent record is read (R302). -/
theorem tile_ok {i : Issuer} {k11 : Bool} {o : Operand} (h1 : tOk o = true) (h2 : i.tm.recOk k11 (i.g.rdT (tIdx o)) = true) :
    i.tile k11 o = .ok (i.g.rdT (tIdx o)) := by
  unfold Issuer.tile
  dsimp only
  rw [ill_ok (by rw [h1]; rfl), ok_bind, tileTrap_ok (by rw [h2]; rfl), ok_bind]

/-- The same at step 1 of R302. -/
theorem tileAt_ok {i : Issuer} {k11 : Bool} {o : Operand} (h1 : tOk o = true) (h2 : i.tm.recOk k11 (i.g.rdT (tIdx o)) = true) :
    i.tileAt k11 o = .ok (i.g.rdT (tIdx o)) := by
  unfold Issuer.tileAt
  rw [if_pos h1, tile_ok h1 h2]

/-- A record whose chain is whole may be overwritten (R59). -/
theorem ownedBy_ok {i : Issuer} {reg : Nat} {r : W128} (h : 2 ≤ tKind r → (i.tm.chainOf r).isSome = true) : i.ownedBy reg r = .ok (i.tm.owned r) := by
  unfold Issuer.ownedBy
  rw [tileTrap_ok, ok_bind]
  by_cases e : 2 ≤ tKind r
  · have := h e
    simp only [e, decide_true, Bool.true_and, Option.isNone_eq_false_iff, this]
  · simp [e]

/-- A range within the allocation, unguarded and with nothing pending, may be written. -/
theorem spadWrite_ok {t : Team} {a n : Nat} (h1 : a + n ≤ t.spadSize) (h2 : t.guarded a n = false) (h3 : t.pendingAt a n = false) : t.spadWriteCheck a n = .ok () := by
  unfold Team.spadWriteCheck
  rw [trap_ok (by simp; omega), ok_bind, trap_ok h2, ok_bind, trap_ok h3]

/-- Ranges with nothing pending pass the landing check (R96). -/
theorem landing_ok {t : Team} {runs : List (Nat × Nat)} (h : ∀ r ∈ runs, t.pendingAt r.1 r.2 = false) : t.landingCheck runs = .ok () := by
  unfold Team.landingCheck
  rw [List.find?_eq_none.mpr (fun r hr => by simp [h r hr])]

end Sys2Proof.Machine
end

