-- ==== Sys2Proof/Laws/Traps.lean ====
section
/-! SUPPORT. What halting a team does, said once: only the halt counts of slices change (R194). -/

namespace Sys2Proof.Machine

open Sys2Proof

/-- Only slices changed, each at the same address and as live as before. -/
structure Gang.SameButSlices (g g' : Gang) : Prop where
  same   : g' = { g with slices := g'.slices }
  length : g'.slices.length = g.slices.length
  pc     : ∀ k, (g'.slice k).pc = (g.slice k).pc
  live   : ∀ k, (g'.slice k).live = (g.slice k).live

theorem Gang.SameButSlices.refl (g : Gang) : g.SameButSlices g := ⟨rfl, rfl, fun _ => rfl, fun _ => rfl⟩

theorem Gang.SameButSlices.trans {a b c : Gang} (h : a.SameButSlices b) (h' : b.SameButSlices c) : a.SameButSlices c :=
  ⟨by have e := h'.same; rw [h.same] at e; exact e, h'.length.trans h.length, fun k => (h'.pc k).trans (h.pc k), fun k => (h'.live k).trans (h.live k)⟩

theorem Gang.modSlices_only (g : Gang) (l : List Nat) (f : Slice → Slice) : g.modSlices l f = { g with slices := (g.modSlices l f).slices } := by
  induction l generalizing g with
  | nil => rfl
  | cons a r ih =>
    have e : g.modSlices (a :: r) f = (g.modSlice a f).modSlices r f := rfl
    rw [e, ih]; rfl

/-- A change of slices that keeps a projection keeps it in every slice. -/
theorem Gang.proj_modSlices {α : Type} (g : Gang) (l : List Nat) (f : Slice → Slice) (p : Slice → α) (hf : ∀ x, p (f x) = p x) (k : Nat) :
    p ((g.modSlices l f).slice k) = p (g.slice k) := by
  induction l generalizing g with
  | nil => rfl
  | cons a r ih =>
    refine (ih (g.modSlice a f)).trans ?_
    rw [Gang.slice_modSlice]
    split <;> simp [hf]

theorem Gang.sameButSlices_modSlices (g : Gang) (l : List Nat) (f : Slice → Slice) (h1 : ∀ x, (f x).pc = x.pc) (h2 : ∀ x, (f x).live = x.live) :
    g.SameButSlices (g.modSlices l f) :=
  ⟨Gang.modSlices_only g l f, Gang.modSlices_length g l f, Gang.proj_modSlices g l f (·.pc) h1, Gang.proj_modSlices g l f (·.live) h2⟩

theorem State.OnlyTeam.refl (s : State) (team : Nat) : s.OnlyTeam s team := ⟨rfl, fun _ _ => rfl⟩
theorem State.OnlyTeam.trans {a b c : State} {team : Nat} (h : a.OnlyTeam b team) (h' : b.OnlyTeam c team) : a.OnlyTeam c team := by
  refine ⟨?_, fun id hid => (h'.others id hid).trans (h.others id hid)⟩
  have e := h'.device
  rw [h.device] at e
  exact e

theorem State.onlyTeam_modTeam (s : State) (team : Nat) (f : Team → Team) : s.OnlyTeam (s.modTeam team f) team :=
  ⟨rfl, fun _ hid => State.team_modTeam_other s f hid⟩

theorem State.onlyTeam_pick (s : State) (n : Nat) (team : Nat) : s.OnlyTeam (s.pickBelow n).2 team := ⟨rfl, fun _ _ => rfl⟩

/-- A team whose gangs differ only in their slices. -/
structure Team.SameButSlices (t u : Team) : Prop where
  same   : u = { t with gangs := u.gangs }
  length : u.gangs.length = t.gangs.length
  gangs  : ∀ j, (t.gang j).SameButSlices (u.gang j)

theorem Team.SameButSlices.refl (t : Team) : t.SameButSlices t := ⟨rfl, rfl, fun _ => .refl _⟩
theorem Team.SameButSlices.trans {a b c : Team} (h : a.SameButSlices b) (h' : b.SameButSlices c) : a.SameButSlices c :=
  ⟨by have e := h'.same; rw [h.same] at e; exact e, h'.length.trans h.length, fun j => (h.gangs j).trans (h'.gangs j)⟩

/-- A state in which only slices of one team's gangs, and the free values used, changed. -/
structure State.OnlySlices (s u : State) (team : Nat) : Prop where
  only : s.OnlyTeam u team
  team : ∀ t, s.team? team = some t → ∃ t', u.team? team = some t' ∧ t.SameButSlices t'

theorem State.OnlySlices.refl (s : State) (team : Nat) : s.OnlySlices s team := ⟨.refl _ _, fun t ht => ⟨t, ht, .refl _⟩⟩
theorem State.OnlySlices.trans {a b c : State} {team : Nat} (h : a.OnlySlices b team) (h' : b.OnlySlices c team) : a.OnlySlices c team := by
  refine ⟨h.only.trans h'.only, fun t ht => ?_⟩
  obtain ⟨u, hu, e⟩ := h.team t ht
  obtain ⟨v, hv, e'⟩ := h'.team u hu
  exact ⟨v, hv, e.trans e'⟩

theorem State.onlySlices_modGang (s : State) (team i : Nat) (f : Gang → Gang) (hf : ∀ g : Gang, g.SameButSlices (f g)) :
    s.OnlySlices (s.modGang team i f) team := by
  refine ⟨State.onlyTeam_modTeam s team _, fun t ht => ⟨t.modGang i f, State.team_modGang f ht, ⟨rfl, by simp, fun j => ?_⟩⟩⟩
  rw [Team.gang_modGang]
  split
  · rename_i h; rw [h.1]; exact hf _
  · exact .refl _

theorem State.onlySlices_pick (s : State) (n team : Nat) : s.OnlySlices (s.pickBelow n).2 team :=
  ⟨State.onlyTeam_pick s n team, fun t ht => ⟨t, ht, .refl _⟩⟩

/-- What the halt does to slices that issue together: nothing, or one change of their skid counts, after which those that trap
are stopped (R194). -/
theorem State.haltSlices_cases (s : State) (team gang : Nat) (l : List Nat) (trap already : Bool) :
    (trap = false ∧ s.haltSlices team gang l trap already = s) ∨
    ∃ s1 f, (s1 = s ∨ s1 = (s.pickBelow 5).2) ∧ (∀ x : Slice, (f x).pc = x.pc ∧ (f x).live = x.live) ∧
      (trap = true → ∀ x, (f x).Halted) ∧ s.haltSlices team gang l trap already = s1.modGang team gang (fun g => g.modSlices l f) := by
  unfold State.haltSlices
  split
  · exact .inr ⟨s, (·.stops already), .inl rfl, fun _ => ⟨rfl, rfl⟩, fun _ _ => Nat.le_refl _, rfl⟩
  · rename_i h
    have ht : trap = false := by revert h; cases trap <;> simp
    split
    · exact .inl ⟨ht, rfl⟩
    · exact .inr ⟨(s.pickBelow 5).2, fun x => { x with skid := 0, skidMax := (s.pickBelow 5).1 }, .inr rfl,
        fun _ => ⟨rfl, rfl⟩, by simp [ht], rfl⟩

theorem State.onlySlices_haltSlices (s : State) (team gang : Nat) (l : List Nat) (trap already : Bool) :
    s.OnlySlices (s.haltSlices team gang l trap already) team := by
  rcases s.haltSlices_cases team gang l trap already with ⟨-, e⟩ | ⟨s1, f, h1, hf, -, e⟩
  · rw [e]; exact .refl _ _
  · rw [e]
    refine State.OnlySlices.trans (b := s1) ?_ (State.onlySlices_modGang _ _ _ _ (fun g =>
      Gang.sameButSlices_modSlices g l f (fun x => (hf x).1) (fun x => (hf x).2)))
    rcases h1 with rfl | rfl
    · exact .refl _ _
    · exact State.onlySlices_pick s 5 team

theorem State.gang_haltSlices_other (s : State) (team gang : Nat) (l : List Nat) (trap already : Bool) {j : Nat} (h : j ≠ gang) :
    (s.haltSlices team gang l trap already).gang team j = s.gang team j := by
  rcases s.haltSlices_cases team gang l trap already with ⟨-, e⟩ | ⟨s1, f, h1, -, -, e⟩
  · rw [e]
  · rw [e, State.gang_modGang_other _ (.inr h)]
    rcases h1 with rfl | rfl <;> rfl

/-- Slices outside `l` keep their counts, and those of `l` that trap are stopped. -/
theorem State.haltSlices_stops {s : State} {team gang : Nat} {l : List Nat} {trap already : Bool} {t : Team} (ht : s.team? team = some t)
    (hg : gang < t.gangs.length) (hn : l.Nodup) (hl : ∀ k ∈ l, ((t.gang gang).slice k).live = true) :
    (trap = true → ∀ k ∈ l, (((s.haltSlices team gang l trap already).gang team gang).slice k).Halted) ∧
    (∀ k, k ∉ l → ((s.haltSlices team gang l trap already).gang team gang).slice k = (s.gang team gang).slice k) := by
  have hgs : s.gang team gang = t.gang gang := by simp [State.gang, ht]
  rcases s.haltSlices_cases team gang l trap already with ⟨h, e⟩ | ⟨s1, f, h1, -, hf, e⟩
  · exact ⟨fun h' => by simp [h] at h', fun k _ => by rw [e]⟩
  · have ht1 : s1.team? team = some t := by rcases h1 with rfl | rfl <;> exact ht
    have hg1 : s1.gang team gang = t.gang gang := by simp [State.gang, ht1]
    rw [e, State.gang_modGang_same _ ht1 hg]
    refine ⟨fun h k hk => ?_, fun k hk => ?_⟩
    · rw [hg1, Gang.slice_modSlices_mem _ _ hk hn (Gang.live_lt _ (hl k hk))]
      exact hf h _
    · rw [Gang.slice_modSlices_other _ _ hk, hg1, hgs]

theorem State.onlySlices_haltGang (s : State) (team gang : Nat) (stopped : List Nat) : s.OnlySlices (s.haltGang team gang stopped) team := by
  unfold State.haltGang
  extract_lets g already
  clear_value already
  split
  · exact State.onlySlices_haltSlices _ _ _ _ _ _
  · generalize g.liveSlices = l
    clear_value g
    induction l generalizing s with
    | nil => exact .refl _ _
    | cons a r ih =>
      rw [List.foldl_cons]
      exact (State.onlySlices_haltSlices _ _ _ _ _ _).trans (ih _)

/-- Halting one gang of a team leaves its other gangs as they are. -/
theorem State.gang_haltGang_other (s : State) (team gang : Nat) (stopped : List Nat) {j : Nat} (h : j ≠ gang) :
    (s.haltGang team gang stopped).gang team j = s.gang team j := by
  unfold State.haltGang
  extract_lets g already
  clear_value already
  split
  · exact State.gang_haltSlices_other _ _ _ _ _ _ h
  · generalize g.liveSlices = l
    clear_value g
    induction l generalizing s with
    | nil => rfl
    | cons a r ih => rw [List.foldl_cons, ih _, State.gang_haltSlices_other _ _ _ _ _ _ h]

/-- The slices of a gang that raised a trap are stopped. -/
theorem State.haltGang_stops {s : State} {team gang : Nat} {stopped : List Nat} {t : Team} (ht : s.team? team = some t) (hg : gang < t.gangs.length)
    (hne : stopped ≠ []) (hl : ∀ k ∈ stopped, k < 8 ∧ ((t.gang gang).slice k).live = true) :
    ∀ k ∈ stopped, (((s.haltGang team gang stopped).gang team gang).slice k).Halted := by
  have hgs : s.gang team gang = t.gang gang := by simp [State.gang, ht]
  have hmem : ∀ k ∈ stopped, k ∈ (t.gang gang).liveSlices := fun k hk => (Gang.mem_liveSlices _).mpr (hl k hk)
  have hlive : ∀ k ∈ (t.gang gang).liveSlices, ((t.gang gang).slice k).live = true := fun k hk => ((Gang.mem_liveSlices _).mp hk).2
  have hnd := Gang.liveSlices_nodup (t.gang gang)
  unfold State.haltGang
  extract_lets g already
  clear_value already
  have hgl : g.liveSlices = (t.gang gang).liveSlices := by rw [← hgs]
  rw [hgl]
  split
  · exact fun k hk => (State.haltSlices_stops ht hg hnd hlive).1 (by simpa using hne) k (hmem k hk)
  · -- each slice is treated once, and no later one touches it
    have key : ∀ (l : List Nat) (s : State) (t : Team), s.team? team = some t → gang < t.gangs.length → l.Nodup →
        (∀ k ∈ l, ((t.gang gang).slice k).live = true) → ∀ k,
        (k ∈ l → k ∈ stopped →
          (((l.foldl (fun s k => s.haltSlices team gang [k] (stopped.contains k) already) s).gang team gang).slice k).Halted) ∧
        (k ∉ l → ((l.foldl (fun s k => s.haltSlices team gang [k] (stopped.contains k) already) s).gang team gang).slice k =
          (s.gang team gang).slice k) := by
      intro l
      induction l with
      | nil => intro s t _ _ _ _ k; exact ⟨fun h => by simp at h, fun _ => rfl⟩
      | cons a r ih =>
        intro s t ht hg hn hlive k
        obtain ⟨ha, hn⟩ := List.nodup_cons.mp hn
        rw [List.foldl_cons]
        obtain ⟨o1, o2⟩ := State.haltSlices_stops (l := [a]) (trap := stopped.contains a) (already := already) ht hg (by simp)
          (fun k hk => hlive k (by simp_all))
        obtain ⟨t', h1, es⟩ := (State.onlySlices_haltSlices s team gang [a] (stopped.contains a) already).team t ht
        obtain ⟨i1, i2⟩ := ih _ t' h1 (es.length ▸ hg) hn (fun k hk => by rw [(es.gangs gang).live]; exact hlive k (by simp [hk])) k
        refine ⟨fun h hs => ?_, fun h => ?_⟩
        · by_cases hka : k = a
          · subst hka
            rw [i2 ha]
            exact o1 (by simpa using hs) k (by simp)
          · exact i1 (by simpa [hka] using h) hs
        · rw [i2 (fun h' => h (by simp [h'])), o2 k (fun e => h (by simp_all))]
    exact fun k hk => (key _ s t ht hg hnd hlive k).1 (hmem k hk) hk

/-- What the team halt does (R194): only slices change, and the team is halted. -/
structure HaltedFrom (s u : State) (team : Nat) (t : Team) : Prop where
  only : s.OnlyTeam u team
  team : ∃ t', u.team? team = some t' ∧ t' = { t with halted := true, gangs := t'.gangs } ∧ t'.gangs.length = t.gangs.length ∧
           ∀ j, (t.gang j).SameButSlices (t'.gang j)

theorem haltGangs_fold (l : List Nat) (team gang : Nat) (stopped : List Nat) (s : State) :
    s.OnlySlices (l.foldl (fun s i => s.haltGang team i (if i = gang then stopped else [])) s) team := by
  induction l generalizing s with
  | nil => exact .refl _ _
  | cons a r ih => rw [List.foldl_cons]; exact (State.onlySlices_haltGang s team a _).trans (ih _)

theorem haltGangs_other (l : List Nat) (team gang : Nat) (stopped : List Nat) (s : State) (h : gang ∉ l) :
    (l.foldl (fun s i => s.haltGang team i (if i = gang then stopped else [])) s).gang team gang = s.gang team gang := by
  induction l generalizing s with
  | nil => rfl
  | cons a r ih =>
    simp only [List.mem_cons, not_or] at h
    rw [List.foldl_cons, ih _ h.2, State.gang_haltGang_other _ _ _ _ h.1]

theorem State.haltTeam_spec {s : State} {team gang : Nat} {stopped : List Nat} {t : Team} (ht : s.team? team = some t) :
    HaltedFrom s (s.haltTeam team gang stopped) team t := by
  unfold State.haltTeam
  simp only [ht]
  have h := haltGangs_fold t.liveGangs team gang stopped s
  obtain ⟨u, hu, e⟩ := h.team t ht
  refine ⟨h.only.trans (State.onlyTeam_modTeam _ _ _), { u with halted := true }, ?_, ?_, e.length, e.gangs⟩
  · simp only [State.team?, State.modTeam, Tab.find_modify_same] at hu ⊢
    rw [hu]; rfl
  · have := e.same
    rw [this]

theorem State.haltTeam_stops {s : State} {team gang : Nat} {stopped : List Nat} {t : Team} (ht : s.team? team = some t) (hg : gang < t.gangs.length)
    (hlv : (t.gang gang).isLive = true) (hne : stopped ≠ []) (hl : ∀ k ∈ stopped, k < 8 ∧ ((t.gang gang).slice k).live = true) :
    ∀ k ∈ stopped, (((s.haltTeam team gang stopped).gang team gang).slice k).Halted := by
  have hgs : ∀ u : State, (u.modTeam team (fun t => { t with halted := true })).gang team gang = u.gang team gang := by
    intro u
    simp only [State.gang, State.team?, State.modTeam, Tab.find_modify_same]
    cases Tab.find? u.teams team <;> rfl
  unfold State.haltTeam
  simp only [ht]
  rw [hgs]
  have hmem : gang ∈ t.liveGangs := List.mem_filter.mpr ⟨List.mem_range.mpr hg, hlv⟩
  have hnd : t.liveGangs.Nodup := List.nodup_range.filter _
  obtain ⟨l1, l2, e⟩ := List.append_of_mem hmem
  rw [e] at hnd
  have h1 : gang ∉ l1 := fun h => by
    have := (List.nodup_append.mp hnd).2.2
    exact this gang h gang (by simp) rfl
  have h2 : gang ∉ l2 := by
    have := (List.nodup_append.mp hnd).2.1
    exact (List.nodup_cons.mp this).1
  rw [e, List.foldl_append, List.foldl_cons, haltGangs_other _ _ _ _ _ h2]
  simp only [if_true]
  have h := haltGangs_fold l1 team gang stopped s
  obtain ⟨u, hu, es⟩ := h.team t ht
  exact State.haltGang_stops hu (es.length ▸ hg) hne (fun k hk => ⟨(hl k hk).1, by rw [(es.gangs gang).live]; exact (hl k hk).2⟩)

end Sys2Proof.Machine
end

