-- ==== Sys2Proof/Tests/Slice0.lean ====
section
/-! SUPPORT. Tests: words of the spec decoded, ill-formed terms refused, and for every statement a state and operands that
meet its hypotheses. -/

namespace Sys2Proof.Tests

open Sys2Proof Sys2Proof.Machine

set_option Elab.async false

-- words of the spec

def laneH : Hdr := { scp := .lane, la := 0, msel := 0, mneg := false }
def gangH : Hdr := { laneH with scp := .gang }
def setH : Hdr := { laneH with scp := .set }
def teamH : Hdr := { laneH with scp := .team }
def fmtR : FmtR := { d := .v 0, a := .v 0, b := .op (.v 0), c := .v 0, ty := .b32, rm := .dyn, sat := false, ccw := false, xt := 0 }
def fmtM : FmtM := { d := .v 0, a := .v 0, b := .v 0, sz := .b32, ord := .weak, vis := .team, ch := .none, space := .global, off := 0 }
def fmtT : FmtT := { d := .v 0, a := .v 0, b := .v 0, c := .v 0, e := .v 0, imm := 0 }

/-- The words of 11_instruction_word.md, 12_opcode_map.md, 13_isa_control_scalar.md and 18_assembly_reference.md. -/
theorem test_decode_control :
    decodeTableWord 96 0x0 = some (.nop) ∧
    decodeTableWord 96 0xFFFFFFFE0000000000000001 = some (.bra laneH 0xFFFFFFFE) ∧
    decodeTableWord 96 0xFFFFFFFD0000000000080002 = some (.bcc laneH .ne 0xFFFFFFFD) ∧
    decodeTableWord 96 0xA = some (.exit laneH) := by decide +kernel

/-- The words of 11_instruction_word.md and 18_assembly_reference.md. -/
theorem test_decode_scalar :
    decodeTableWord 96 0x3A400760608C100111 = some (.sadd gangH { fmtR with d := .s 4, a := .s 4, b := .op (.imm 96), ty := .n64 }) ∧
    decodeTableWord 96 0x8002E900608C100111 = some (.sadd gangH { fmtR with d := .s 4, a := .s 4, b := .imm32 128, ty := .n64 }) ∧
    decodeTableWord 96 0xBA40070160AC140112 = some (.ssub gangH { fmtR with d := .s 5, a := .s 5, b := .op (.imm 1), ty := .n64, ccw := true }) ∧
    decodeTableWord 96 0x38000000000024011D = some (.sget gangH .laneid { fmtR with d := .v 9 }) := by decide +kernel

/-- The words of 14_isa_vector.md and 18_assembly_reference.md. -/
theorem test_decode_lane_integer :
    decodeTableWord 96 0x40082202E800000078002F = some (.mov laneH { fmtR with d := .v 30, b := .imm32 0x400822, ty := .n32 }) ∧
    decodeTableWord 96 0x23A0003070138040028 = some (.icmp laneH .lt { fmtR with d := .m 1, a := .v 9, b := .op (.s 7), ty := .n32 }) ∧
    decodeTableWord 96 0x3A0007020120280027 = some (.shf laneH .shl { fmtR with d := .v 10, a := .v 9, b := .op (.imm 2), ty := .n32 }) := by decide +kernel

/-- The words of 01_tutorial.md and 21_program_compensated_dot.md. -/
theorem test_decode_lane_float :
    decodeTableWord 96 0x3B0000040060144040 = some (.fadd { laneH with msel := 1 } { fmtR with d := .v 5, a := .v 3, b := .op (.v 4), ty := .f32 }) ∧
    decodeTableWord 96 0x13B0028040060180043 = some (.fms laneH { fmtR with d := .v 6, a := .v 3, b := .op (.v 4), c := .v 5, ty := .f32 }) := by decide +kernel

/-- Written out by R213, R214 and the opcode map: `cvti.i32.f32 v5, v3`. -/
theorem test_decode_conversion :
    decodeTableWord 96 0xC390000000060140061 = some (.cvti laneH .f32 { fmtR with d := .v 5, a := .v 3, ty := .i32 }) := by decide +kernel

/-- The words of 21_program_compensated_dot.md and 22_program_triangular_solve.md. -/
theorem test_decode_lane_movement :
    decodeTableWord 96 0x33800072080B01C0270 = some (.shfl setH .xor { fmtR with d := .x 7, a := .x 5, b := .op (.imm 32) }) ∧
    decodeTableWord 96 0x3B00000000AC7C0273 = some (.xred setH .add { fmtR with d := .s 31, a := .v 5, ty := .f32 }) ∧
    decodeTableWord 96 0x13800000001CC584172 = some (.xvote { gangH with msel := 1 } .all { fmtR with d := .s 22, a := .v 14 }) := by decide +kernel

/-- The words of 15_isa_memory.md, 18_assembly_reference.md, 20_program_tearing.md and 22_program_triangular_solve.md. -/
theorem test_decode_memory :
    decodeTableWord 96 0x100A60800C4080 = some (.ld { laneH with msel := 1 } { fmtM with d := .v 3, a := .s 4, b := .v 10 }) ∧
    decodeTableWord 96 0x5100D6140384080 = some (.ld { laneH with msel := 1 } { fmtM with d := .v 14, a := .s 10, b := .v 13, ord := .acq, vis := .device }) ∧
    decodeTableWord 96 0x1F00600C100184 = some (.ldu gangH { fmtM with d := .s 4, a := .s 0, b := .imm 0, sz := .b64 }) ∧
    decodeTableWord 96 0x180004A700608C600185 = some (.stu gangH { fmtM with d := .s 24, a := .s 4, b := .imm 0, sz := .b128, ord := .rlx, vis := .device, off := 24 }) ∧
    decodeTableWord 96 0x4932860CCB40190 = some (.atom gangH .add .n32 { fmtM with d := .s 45, a := .s 6, b := .s 40, ord := .rlx, vis := .device }) := by decide +kernel

/-- The word of 15_isa_memory.md. -/
theorem test_decode_engines :
    decodeTableWord 96 0x58A317608C5401A0 = some (.copy gangH .d1 false false { fmtT with d := .s 21, a := .s 4, b := .s 23, c := .s 20 }) := by decide +kernel

/-- The words of 16_isa_tiles.md and 03_tiles.md. -/
theorem test_decode_tiles :
    decodeTableWord 96 0xF502A0340001B4 = some (.mma gangH { fmtT with d := .t 0, a := .t 1, b := .t 2, c := .v 30 }) ∧
    decodeTableWord 96 0x30900140C01C2 = some (.trnd gangH false { fmtT with d := .t 3, b := .s 9 }) ∧
    decodeTableWord 96 0x1000000A000A001B6 = some (.accrd gangH .f32 { fmtT with d := .v 40, a := .t 0 }) ∧
    decodeTableWord 96 0x100031562800001C6 = some (.tpool gangH .f32 { fmtT with a := .s 20, b := .s 21 }) ∧
    decodeTableWord 96 0x400030760D4140188 = some (.stash gangH .f32 { fmtM with d := .t 5, a := .s 6, b := .s 7, sz := .b8 }) := by decide +kernel

/-- The words of 17_isa_sync_collective.md and 23_program_rank_update.md. -/
theorem test_decode_sync_collective :
    decodeTableWord 96 0xC10CAC01D2 = some (.gjoin gangH { fmtT with d := .s 43, a := .g 0 }) ∧
    decodeTableWord 96 0xC1000001D4 = some (.gbar gangH { fmtT with a := .g 0 }) ∧
    decodeTableWord 96 0xE0200001EA = some (.labort gangH { fmtT with a := .imm 1 }) ∧
    decodeTableWord 96 0x45C018B700A02C5003E0 = some (.coll teamH .allreduce .add { fmtT with d := .s 20, a := .t 1, b := .imm 0, c := .s 22, e := .s 23 }) ∧
    decodeTableWord 96 0x19270064A00001E8 = some (.spanmap gangH { fmtT with a := .s 37, b := .imm 0, c := .s 36 }) ∧
    decodeTableWord 96 0x700000C7801E9 = some (.spanst gangH { fmtT with d := .s 30, b := .imm 0 }) := by decide +kernel

/-- Written out by R213, R214 and the opcode map: `perf.gang s5, GISSUE`. -/
theorem test_decode_system :
    decodeTableWord 96 0x38000000000C1401F2 = some (.perf gangH .gissue { fmtR with d := .s 5 }) := by decide +kernel
/-- One term for each check of well-formedness; each is refused, and the well-formed `SADD` is not. -/
theorem test_ill_formed :
    [ -- the header: MSEL and LA where the instruction has none
      Instr.sadd { gangH with msel := 1 } { fmtR with ty := .n64 }, .iadd { laneH with la := 1 } { fmtR with ty := .n32 },
      -- format R: an operand that is not used, a type, a rounding mode, SAT, CCW and set bits
      .scmp gangH { fmtR with d := .s 1, ty := .n64 }, .iadd laneH { fmtR with c := .v 1, ty := .n32 },
      .perf gangH .gissue { fmtR with a := .v 1 }, .iabs laneH { fmtR with b := .op (.v 1), ty := .i32 },
      .iadd laneH { fmtR with ty := .f32 }, .iadd laneH { fmtR with ty := .n32, rm := .rtz }, .imin laneH { fmtR with ty := .n32, sat := true },
      .iadd laneH { fmtR with ty := .n32, ccw := true }, .sadd gangH { fmtR with ty := .n64, xt := 1 }, .sadd setH { fmtR with ty := .n64, xt := 8 },
      -- format I: no immediate form, and A, C, SAT or XT where that form has none
      .imad laneH { fmtR with ty := .n32, b := .imm32 1 }, .mov laneH { fmtR with ty := .n32, a := .v 1, b := .imm32 1 },
      .iadd laneH { fmtR with ty := .n32, b := .imm32 1, c := .v 1 }, .iadd laneH { fmtR with ty := .n32, b := .imm32 1, sat := true },
      .iadd laneH { fmtR with ty := .n32, b := .imm32 1, xt := 1 },
      -- format M
      .pld laneH false { fmtM with d := .v 1 }, .fence laneH { fmtM with a := .v 1, sz := .b8, ord := .acq },
      .fence laneH { fmtM with b := .v 1, sz := .b8, ord := .acq }, .fence laneH { fmtM with off := 4, sz := .b8, ord := .acq },
      .st laneH { fmtM with sz := .i8 }, .ld laneH { fmtM with ord := .rel }, .ldl laneH { fmtM with ch := .keep, space := .stack },
      .ld laneH { fmtM with space := .spad },
      -- format T
      .sleep laneH { fmtT with d := .s 1 }, .mbatch gangH { fmtT with a := .s 1 }, .abarr gangH { fmtT with b := .s 1 },
      .abinit gangH { fmtT with c := .s 1 }, .abinit gangH { fmtT with e := .s 1 }, .abinit gangH { fmtT with imm := 1 },
      -- checks of single instructions
      .icmp laneH .ord { fmtR with ty := .n32 }, .atom laneH .and .f32 fmtM, .atom laneH .add .n64 fmtM, .acas laneH .f32 fmtM, .mred laneH .exch .n32 fmtM,
      .cvtf laneH .f32 { fmtR with ty := .f32 }, .cvti laneH .n32 { fmtR with ty := .n32 }, .cvtn laneH .f32 { fmtR with ty := .f32 },
      .pack laneH .f64 { fmtR with ty := .h16x2 }, .tdef gangH .zero .i32 fmtT, .copy gangH .d1 false true { fmtT with c := .s 1 },
      .coll teamH .bcast .max fmtT, .gred gangH .and { fmtT with imm := 12 }, .xput gangH { fmtT with imm := 1 }, .gjoin gangH { fmtT with imm := 2 },
      .xred gangH .and { fmtR with ty := .f32 },
      -- events that name no part of the device
      .ctxLoad 256, .xputReceive 65536 0 [] none, .qdb 0 64, .trgownWrite 4 0 0, .ctrownWrite 0 1024 0, .wingDrain 4, .retrain 16, .corectlDis 640 true,
      .idleFlit 256, .chunkArrival { ctx := 0, group := 64, epoch := 0, seq := 0, kind := .direct, index := 0, data := [] } ].all (fun i => !i.WellFormed) = true ∧
    (Instr.sadd gangH { fmtR with d := .s 4, a := .s 4, b := .imm32 128, ty := .n64 }).WellFormed = true := by decide +kernel

-- a small state: one team of one gang, which issues at the line of the placed program

def demoGang : Gang :=
  { slices := List.replicate 8 { pc := 0x10000 }, stklim := 1024,
    v := [(1 * 32, 7)],
    s := [(1, 0x10000), (2, 0x100), (3, 0x400), (4, 64), (5, 0x20000), (6, 1), (8, 0x0004000100000800), (9, 1), (10, 0x1000), (11, 0x4000),
          (12, 4), (13, 1), (16, 0x22000), (17, 0x3C000000)],
    t := [(1, mkRec 1 32 .f32 0 0x2000 0 0xFFFF 0 0), (2, slotRec .f32 0xFFFF), (4, slotRec .f32 0)],
    g := [(0, handleOf 0 1), (1, handleOf 1 1)], lastBatch := 1 }

def demoTeam : Team :=
  (({ placedTeam with
      gangs := [demoGang], abars := [0x100], sets := { mask := 1, base := 0 } :: List.replicate 7 {},
      queues := [(0, { ring := 0x600, depth := 4, mask := 1, allow := [(0, 2)] })], slots := [(0, [])] } : Team).setSpad 0x900 (leBytes 16 (zeroRec .f32).toNat)).setAbar 0x100
    { expb := 0, arrv := 1, inita := 1, phase := 1, erro := 0, errl := 0, live := true }

def demoCtx : Ctx :=
  { placedCtx with cellsz := 0x10000000, groups := [(0, { gen := 1, used := true }), (1, { gen := 1, used := true, members := [{ launch := 1, team := 1, gang := 0, slot := 0, from_ := 0 }] })] }

def demo : State :=
  { State.reset.placeWord 0 with cur := some { team := 1, gang := 0, slice := none }, ctxs := [(0, demoCtx)], teams := [(1, demoTeam)] }

def demoI : Issuer := { unit := { team := 1, gang := 0, slice := none }, tm := demoTeam, g := demoGang, slices := List.range 8 }

/-- `demo` for a team and a gang. -/
def demoOf (t : Team) : State := { demo with teams := [(1, t)] }
def issuerOf (t : Team) : Issuer := { demoI with tm := t, g := t.gang 0 }

theorem real_of (t : Team) (h1 : 0 < t.gangs.length) (h2 : (t.gang 0).ganged = true) (h3 : ∀ k < 8, ((t.gang 0).slice k).live = true) : (issuerOf t).Real :=
  ⟨h1, List.cons_ne_nil _ _, h2, List.nodup_range, fun k hk => ⟨List.mem_range.mp hk, h3 k (List.mem_range.mp hk)⟩⟩

theorem demo_issues : demo.Issues demoI := ⟨by decide +kernel, real_of demoTeam (by decide) rfl (by decide)⟩

/-- A GANG-scope instruction starts in `demo`. -/
theorem demo_gang : demo.GangStarts demoI demo demoI := .inl ⟨rfl, rfl, rfl⟩

def gangW : Wide := { p := demoI.performer (some gangH), scope := .gang, set := 0, tm := demoTeam, gangs := [0], parts := [some 0] }
theorem demo_starts (n : Nat) : demo.Starts demoI gangH n demo gangW := ⟨demoI, demo_gang, rfl⟩

/-- The performers of a wider scope in `demo`, and the state after all have arrived. -/
def wideP : Performer := { team := 1, gangs := [(0, List.range 8)], setflt := true }
def wideS (k : Rendez) : State := (demo.arriving demoI k).waitAll wideP .ready
def wideT (k : Rendez) : Team := ((wideS k).team? 1).getD demoTeam
def setW : Wide := { p := { wideP with hdr := some setH }, scope := .set, set := 0, tm := wideT (.set 0), gangs := [0], parts := [some 0] }
def teamW : Wide := { p := { wideP with hdr := some teamH }, scope := .team, set := 0, tm := wideT .team, gangs := [0], parts := [some 0] }

theorem wideP_is (k : Rendez) (h : ((((demo.arriving demoI k).team? 1).getD demoTeam).performers demoI k) = wideP) :
    wideS k = (demo.arriving demoI k).waitAll ((((demo.arriving demoI k).team? 1).getD demoTeam).performers demoI k) .ready := by rw [h]; rfl

theorem demo_set : demo.Starts demoI setH 0 (wideS (.set 0)) setW :=
  ⟨by decide +kernel, wideT (.set 0), ⟨((demo.arriving demoI (.set 0)).team? 1).getD demoTeam, by decide +kernel, by decide +kernel, by decide +kernel, wideP_is _ (by decide +kernel), by decide +kernel⟩,
    by decide +kernel⟩
theorem demo_team : demo.Starts demoI teamH 0 (wideS .team) teamW :=
  ⟨wideT .team, ⟨((demo.arriving demoI .team).team? 1).getD demoTeam, by decide +kernel, by decide +kernel, by decide +kernel, wideP_is _ (by decide +kernel), by decide +kernel⟩, by decide +kernel⟩

-- a state and operands for the hypotheses of every statement

def okVal {ε α : Type} (x : Except ε α) : Option α := match x with | .ok a => some a | .error _ => none
theorem okVal_eq {ε α : Type} {x : Except ε α} {a : α} (h : okVal x = some a) : x = .ok a := by
  cases x with
  | error e => cases h
  | ok b => cases h; rfl
theorem okVal_getD {ε α : Type} {x : Except ε α} (d : α) (h : (okVal x).isSome = true) : x = .ok ((okVal x).getD d) := by
  cases x with
  | error e => cases h
  | ok b => rfl
def pagesVal (x : SegPages) : Option (List PageTr) := match x with | .ok ps => some ps | _ => none
theorem pagesVal_some {x : SegPages} (h : (pagesVal x).isSome = true) : ∃ ps, x = .ok ps := by
  cases x with
  | ok ps => exact ⟨ps, rfl⟩
  | _ => cases h
def pagesPoison (x : SegPages) : Bool := match x with | .poison => true | _ => false
theorem okVal_some {ε α : Type} {x : Except ε α} (h : (okVal x).isSome = true) : ∃ a, x = .ok a := by
  cases x with
  | error e => cases h
  | ok b => exact ⟨b, rfl⟩

def n32 : FmtR := { fmtR with d := .v 2, a := .v 1, b := .op (.v 1), c := .v 1, ty := .n32 }
def f32 : FmtR := { n32 with ty := .f32 }
def b32 : FmtR := { n32 with ty := .b32 }

theorem witness_IntegerLanesComplete : demo.Issues demoI ∧ laneH.scp = .lane ∧ laneDstOk demoI.tm.nregs (tyPair n32.ty) n32.d = true ∧
    ([.add, .sub, .mul, .mulHi, .mad, .min, .max, .abs, .neg, .lut 0x96, .bit .popc].all (fun op => laneIntOk n32 op demoI.tm)) = true ∧
    ∀ l ∈ demoI.active laneH, enabledExc demoI.g.fpmode (intRes n32 (fun g l => laneA n32 g l + laneB n32 g l) demoI.g l).2 = false :=
  ⟨demo_issues, by decide +kernel⟩

theorem witness_LaneMovesComplete : demo.Issues demoI ∧ laneDstOk demoI.tm.nregs (tyPair n32.ty) n32.d = true ∧
    (laneSrcOk demoI.tm.nregs (tyPair n32.ty) n32.a && laneBOk demoI.tm.nregs (tyPair n32.ty) n32.b && isM (.m 1)) = true ∧
    laneSrcOk demoI.tm.nregs false n32.c = true ∧
    -- LEA: a shift of 0 and of 7 on a pair
    (laneDstOk demoI.tm.nregs true (.v 2) && laneSrcOk demoI.tm.nregs true (.v 4) && laneBOk demoI.tm.nregs false (.op (.v 1))) = true ∧
    (0 : BitVec 8).toNat < 8 ∧ (7 : BitVec 8).toNat < 8 :=
  ⟨demo_issues, by decide +kernel⟩

theorem witness_FloatLanesComplete : demo.Issues demoI ∧ laneDstOk demoI.tm.nregs (tyPair f32.ty) f32.d = true ∧ laneFloatOk f32 true true demoI.tm = true ∧
    (∀ l ∈ demoI.active laneH, enabledExc demoI.g.fpmode (floatRes f32 (fun rm F a b c => F.fma rm false false a b c) demoI.g l).2 = false) ∧
    (∀ l ∈ demoI.active laneH, enabledExc demoI.g.fpmode (perElem f32.ty (fun F a _ _ => F.fscale (effRm demoI.g.fpmode f32.rm) a 1) (demoI.g.rdLane f32.ty f32.a l) 0 0).2 = false) :=
  ⟨demo_issues, by decide +kernel⟩

/-- Division by zero sets DZ, which FPMODE does not enable here. -/
theorem witness_LongLatencyLanesComplete : demo.Issues demoI ∧ lateDstOk demoI.tm.nregs (tyPair f32.ty) f32.d = true ∧ laneIntOk n32 .div demoI.tm = true ∧
    laneFloatOk f32 true false demoI.tm = true ∧
    ∀ l ∈ demoI.active laneH, enabledExc demoI.g.fpmode (floatRes { f32 with b := .op (.v 3) } (fun rm F a b _ => F.fdiv rm a b) demoI.g l).2 = false :=
  ⟨demo_issues, by decide +kernel⟩

theorem witness_LaneComparesComplete : demo.Issues demoI ∧ mDstOk (.m 1) = true ∧ mDstOk (.m 7) = true ∧ laneFloatOk f32 true false demoI.tm = true ∧
    (∀ l ∈ demoI.active laneH, enabledExc demoI.g.fpmode (specF32.fcompare (demoI.g.rdLane f32.ty f32.a l) (demoI.g.rdSrc f32.ty f32.b l)).2 = false) :=
  ⟨demo_issues, by decide +kernel⟩

theorem witness_ConversionsComplete : demo.Issues demoI ∧ laneDstOk demoI.tm.nregs false (.v 2) = true ∧ laneSrcOk demoI.tm.nregs (tyPair .f32) (.v 1) = true ∧
    laneBOk demoI.tm.nregs false (.op (.v 1)) = true ∧
    (∀ l ∈ demoI.active laneH, enabledExc demoI.g.fpmode (numToInt .rne (tyMin .i32) (tyMax .i32) (specF32.decode (demoI.g.rdLane .f32 (.v 1) l))).2 = false) ∧
    Ty.h16x2 ≠ .l6x4 ∧ (0 : BitVec 8).toNat < 4 ∧ (3 : BitVec 8).toNat < 4 ∧ (1 : BitVec 8).toNat < (if Ty.h16x2 = .l6x4 then 4 else 2) :=
  ⟨demo_issues, by decide +kernel⟩

def sr : FmtR := { fmtR with d := .s 20, a := .s 4, b := .op (.s 6), c := .s 6, ty := .n64 }

theorem witness_ScalarIntegersComplete : demo.Issues demoI ∧ demo.Starts demoI gangH 0 demo gangW ∧
    ((scalarScopes sr).contains gangH.scp && sOk sr.d && sSrcOk sr.a && sBOk sr.b && sSrcOk sr.c) = true :=
  ⟨demo_issues, demo_starts 0, by decide +kernel⟩

theorem witness_ScalarMovesComplete : demo.Issues demoI ∧ demo.Starts demoI gangH 0 demo gangW ∧
    (sgOk (.s 20) && (sgOk (.s 4) || sSrcOk (.s 4)) && sOk (.s 20) && sSrcOk (.s 4) && sBOk (.op (.s 6))) = true ∧
    -- a copy of an immediate, of g registers, and an insertion that names one
    (({ sr with b := .imm32 5 } : FmtR).b = .imm32 5 ∧ [Scope.gang, .team].contains gangH.scp = true ∧ (sgOk (.g 1) && sgOk (.g 7)) = true ∧
      ({ sr with d := .g 1 } : FmtR).d = .g 1 ∧ scopesGST.contains gangH.scp = true) ∧
    -- the mask operations: into a mask from two masks, from an s register, and into an s register
    (mDstOk (.m 1) && isM (.m 2) && isM (.m 3) && sOk (.s 4) && sOk (.s 20)) = true :=
  ⟨demo_issues, demo_starts 0, by decide +kernel⟩

theorem witness_ScalarFloatsComplete : demo.Issues demoI ∧ demo.Starts demoI gangH 0 demo gangW ∧ (sOk (.s 20) && sSrcOk (.s 17) && sBOk (.op (.s 17)) && sSrcOk (.s 17)) = true ∧
    enabledExc gangW.rep.fpmode (specF32.fma .rne false false (gangW.rep.rdScalarF .f32 (.s 17)) (gangW.rep.rdScalarFB .f32 (.op (.s 17))) (gangW.rep.rdScalarF .f32 (.s 17))).2 = false :=
  ⟨demo_issues, demo_starts 0, by decide +kernel⟩

/-- A gang in handler state, for the registers that only a handler reads. -/
def inHandler : Team := { demoTeam with gangs := [{ demoGang with handler := true, queue := [{ cause := 0x31, slice := 0, parted := false, pc := 0x10000 }, { cause := 0x31, slice := 0, parted := false, pc := 0x10000 }] }] }
theorem handler_issues : (demoOf inHandler).Issues (issuerOf inHandler) := ⟨by decide +kernel, real_of inHandler (by decide) rfl (by decide)⟩

theorem witness_SpecialReadsComplete : demo.Issues demoI ∧ demo.Starts demoI gangH 0 demo gangW ∧ scopesGST.contains gangH.scp = true ∧
    (sOk (.s 20) = true ∧ sregSingle .clock = false ∧ SReg.clock ≠ .setinfo ∧ (sregHandler .clock = true → gangW.rep.handler = true)) ∧
    laneDstOk gangW.tm.nregs (!sregSingle .laneid) (.v 9) = true ∧
    -- SETINFO of set 7 and set 0, words 0 and 1
    (sSrcOk (.imm 7) = true ∧ (gangW.rep.rdScalar (.imm 7)).toNat < 8 ∧ (gangW.rep.rdScalar (.imm 0)).toNat < 8 ∧ (1 : BitVec 8).toNat < 2) ∧
    sregHandler .trpc = true ∧ (issuerOf inHandler).g.handler = true :=
  ⟨demo_issues, demo_starts 0, by decide +kernel⟩

theorem witness_SpecialWritesComplete : demo.Issues demoI ∧ demo.Starts demoI gangH 0 demo gangW ∧
    ([SReg.cc, .fpmode, .flags, .stkptr, .stklim].all (fun r => sregWritable r && (gangW.tm.gang 0).ssetOk r (demo.gridRec gangW.tm).stklim (gangW.rep.rdScalar (.imm 0)))) = true ∧
    (demoOf inHandler).Issues (issuerOf inHandler) ∧ sregWritable .trpc = true ∧ inHandler.gangs.all (fun g => g.handler && g.ssetOk .trpc 0 0x10000) = true ∧
    laneSrcOk inHandler.nregs true (.v 4) = true :=
  ⟨demo_issues, demo_starts 0, by decide +kernel, handler_issues, by decide +kernel⟩

theorem witness_LaneMovementCompletes : demo.Issues demoI ∧ demo.Starts demoI gangH 0 demo gangW ∧
    (gangW.vecOk false (.v 2) && gangW.vecOk false (.v 1) && gangW.vecOk (tyPair .b64) (.v 4)) = true ∧
    (∃ n, gangW.uniformB (.op (.imm 31)) = .ok n ∧ n < gangW.size) ∧
    demo.Starts demoI setH 0 (wideS (.set 0)) setW ∧ (setW.vecOk false (.x 7) && setW.vecOk false (.x 5)) = true ∧ (∃ n, setW.uniformB (.op (.imm 1)) = .ok n) ∧
    enabledExc gangW.rep.fpmode (gangW.scan gangH .add false { f32 with d := .v 2 }).2 = false :=
  ⟨demo_issues, demo_starts 0, by decide +kernel, ⟨31, okVal_eq (by decide +kernel), by decide +kernel⟩, demo_set, by decide +kernel, okVal_some (by decide +kernel), by decide +kernel⟩

theorem witness_LaneReductionsComplete : demo.Issues demoI ∧ demo.Starts demoI gangH 0 demo gangW ∧ (gangW.vecOk (tyPair .b32) (.v 1) && sOk (.s 20)) = true ∧ (1 : BitVec 3) ≠ 0 ∧
    enabledExc gangW.rep.fpmode (gangW.reduce gangH .add { f32 with d := .s 20 }).2 = false :=
  ⟨demo_issues, demo_starts 0, by decide +kernel⟩

theorem witness_LanePackingCompletes : demo.Issues demoI ∧ demo.GangStarts demoI demo demoI ∧
    (mDstOk (.m 1) && isV (.v 1) && isV (.v 2) && laneSrcOk demoI.tm.nregs (tyPair .b32) (.v 1) && laneSrcOk demoI.tm.nregs (tyPair .b32) (.v 2)) = true :=
  ⟨demo_issues, demo_gang, by decide +kernel⟩

/-- The largest mask of a team of one gang, and the largest base. -/
theorem witness_SetDeclarationCompletes : demo.Issues demoI ∧ demo.Starts demoI teamH 0 (wideS .team) teamW ∧ (sSrcOk (.s 6) && natSrcOk (.imm 0)) = true ∧
    (teamW.rep.rdScalar (.s 6)).toNat % 2 ^ 32 < 2 ^ teamW.tm.gangs.length ∧ (teamW.rep.rdScalar (.imm 0)).toNat < teamW.tm.nregs ∧ 255 < teamW.tm.nregs :=
  ⟨demo_issues, demo_team, by decide +kernel⟩

-- control

/-- A displacement of 0 goes to the branch's own slot, a target of its line; a target of linear index 0 is in range. -/
theorem witness_BranchesComplete : demo.Issues demoI ∧ 0 ≤ (linOf demoI.pc : Int) + (0 : W32).toInt ∧
    (linOf demoI.pc : Int) + (0 : W32).toInt < (5 * 2 ^ 50 : Nat) ∧ demo.checkTarget demoI.tm.core demoI.tm.ctx (addrOfLin ((linOf demoI.pc : Int) + (0 : W32).toInt).toNat) = .ok () ∧
    condHolds .al demoI.g.cc demoI.tm.prq = true ∧ condHolds .prq demoI.g.cc demoI.tm.prq = false ∧
    (∃ k ∈ demoI.slices, ((demoI.g.activeIn laneH (lanesOf [k])).isEmpty == false) = true) ∧ ¬ ∃ k ∈ demoI.slices, ((demoI.g.activeIn laneH (lanesOf [k])).isEmpty == true) = true :=
  ⟨demo_issues, by decide +kernel, by decide +kernel, okVal_eq (by decide +kernel), by decide +kernel⟩

theorem witness_TransfersComplete : demo.Issues demoI ∧ demo.GangStarts demoI demo demoI ∧ sOk (.s 1) = true ∧
    demo.checkTarget demoI.tm.core demoI.tm.ctx (demoI.g.rdS 1) = .ok () ∧ 0 ≤ (linOf demoI.pc : Int) + (0 : W32).toInt :=
  ⟨demo_issues, demo_gang, by decide +kernel, okVal_eq (by decide +kernel), by decide +kernel⟩

/-- A parted gang whose other slices wait at the instruction. -/
def parted (k : Rendez) : Team := { demoTeam with gangs := [{ demoGang with ganged := false, slices := { pc := 0x10000 } :: List.replicate 7 { pc := 0x10000, wait := .rendez k } }] }
def sliceI (k : Rendez) : Issuer := { unit := { team := 1, gang := 0, slice := some 0 }, tm := parted k, g := (parted k).gang 0, slices := [0] }
def partedS (k : Rendez) : State := { demoOf (parted k) with cur := some { team := 1, gang := 0, slice := some 0 } }
theorem parted_issues (k : Rendez) (h : (partedS k).issuer? = some (sliceI k)) : (partedS k).Issues (sliceI k) :=
  ⟨h, Nat.zero_lt_one, List.cons_ne_nil _ _, rfl, List.nodup_cons.mpr ⟨List.not_mem_nil, List.nodup_nil⟩, fun j hj => by rw [List.mem_singleton.mp hj]; exact ⟨by decide, rfl⟩⟩
theorem parted_meets (k : Rendez) (t1 t : Team) (h1 : ((partedS k).arriving (sliceI k) k).team? 1 = some t1)
    (h0 : t1.goes (t1.cover k 0) = true) (h2 : ∀ j ∈ t1.cover k 0, (t1.gang j).arrived (sliceI k).pc k = true)
    (h3 : (((partedS k).arriving (sliceI k) k).waitAll (t1.performers (sliceI k) k) .ready).team? 1 = some t) :
    (partedS k).Meets (sliceI k) k (((partedS k).arriving (sliceI k) k).waitAll (t1.performers (sliceI k) k) .ready) t := ⟨t1, h1, h0, h2, rfl, h3⟩

theorem witness_RegangCompletes : demo.Issues demoI ∧ demoI.g.ganged = true ∧ (partedS .regang).Issues (sliceI .regang) ∧ (sliceI .regang).g.ganged = false ∧
    ∃ s' t, (partedS .regang).Meets (sliceI .regang) .regang s' t :=
  ⟨demo_issues, rfl, parted_issues _ (by decide +kernel), rfl, _, _,
    parted_meets .regang ((((partedS .regang).arriving (sliceI .regang) .regang).team? 1).getD demoTeam) _ (by decide +kernel) (by decide +kernel) (by decide +kernel) rfl⟩

/-- A GANG-scope instruction starts in a parted gang when its last live slice arrives. -/
theorem witness_parted_gang_scope : ∃ s' i', (partedS .gang).GangStarts (sliceI .gang) s' i' :=
  ⟨_, _, .inr ⟨rfl, _, parted_meets .gang ((((partedS .gang).arriving (sliceI .gang) .gang).team? 1).getD demoTeam) _ (by decide +kernel) (by decide +kernel) (by decide +kernel) rfl, rfl⟩⟩

theorem witness_ExitAndYieldComplete : demo.Issues demoI ∧ demoI.g.handler = false ∧ demoI.tm.prq = false ∧
    (demoOf { demoTeam with prq := true }).Issues (issuerOf { demoTeam with prq := true }) ∧ (issuerOf { demoTeam with prq := true }).tm.prq = true ∧
    (demoOf inHandler).Issues (issuerOf inHandler) ∧ (issuerOf inHandler).g.handler = true :=
  ⟨demo_issues, by decide, by decide, ⟨by decide +kernel, real_of _ (by decide) rfl (by decide)⟩, rfl, handler_issues, rfl⟩

/-- The smallest frame; a frame that ends at STKLIM; `LEAVE` of a frame whose link is 0. -/
theorem witness_FramesComplete : demo.Issues demoI ∧ demo.GangStarts demoI demo demoI ∧
    (64 ≤ (64 : W32).toNat ∧ (64 : W32).toNat % 64 = 0 ∧ demoI.g.stkptr.toNat + (64 : W32).toNat ≤ demoI.g.stklim.toNat) ∧
    (1024 : W32).toNat % 64 = 0 ∧ demoI.g.stkptr.toNat + (1024 : W32).toNat ≤ demoI.g.stklim.toNat ∧
    (let g := { demoGang with stkptr := 64 }
     let link := leNat ((List.range 8).map (fun k => g.stackByte (4 * g.liveSlices.headD 0) (g.stkptr.toNat - 8 + k)))
     g.stkptr.toNat ≠ 0 ∧ link % 64 = 0 ∧ link + 64 ≤ g.stkptr.toNat) :=
  ⟨demo_issues, demo_gang, by decide +kernel⟩

-- exceptions

theorem witness_TrapInstructionsComplete : demo.Issues demoI ∧ demoI.active laneH = 0 :: (List.range 32).tail ∧ demoI.active { laneH with mneg := true } = [] ∧
    (demoOf inHandler).Issues (issuerOf inHandler) ∧ (issuerOf inHandler).g.handler = true :=
  ⟨demo_issues, by decide +kernel, by decide +kernel, handler_issues, rfl⟩

theorem witness_TrapsHaltAndQueue : demo.team? 1 = some demoTeam ∧ 0 < demoTeam.gangs.length ∧ (demoTeam.gang 0).isLive = true ∧ List.range 8 ≠ [] ∧
    (∀ k ∈ List.range 8, k < 8 ∧ ((demoTeam.gang 0).slice k).live = true) ∧ (demoTeam.gang 0).handler = false ∧ (demoTeam.gang 0).queue.length < 8 ∧
    demoTeam.trapvec ≠ 0 ∧ cIllegalOperand ≠ cPoison ∧ cIllegalOperand ≠ cPage := by decide +kernel

theorem witness_TrapsThatEndTheLaunch : demo.team? 1 = some demoTeam ∧ cIllegalOperand ≠ cPoison ∧ (inHandler.gang 0).handler = true ∧ (demoTeam.gang 0).handler = false ∧
    8 ≤ (List.replicate 8 ({ cause := 0x31, slice := 0, parted := false, pc := 0 } : TrapEntry)).length := by decide +kernel

/-- A halted team whose slices have all stopped. -/
def stoppedTeam : Team := { inHandler with halted := true, trapvec := 0x10000, gangs := inHandler.gangs.map (fun g => { g with handler := false, slices := g.slices.map (fun x => { x with skidMax := 0 }) }) }

theorem witness_HandlerEntryCompletes : (demoOf stoppedTeam).team? 1 = some stoppedTeam ∧ 0 < stoppedTeam.gangs.length ∧ stoppedTeam.status = .running ∧ stoppedTeam.halted = true ∧
    stoppedTeam.stopped = true ∧ (stoppedTeam.gang 0).handler = false ∧ ((stoppedTeam.gang 0).queue.head?).isSome = true ∧
    (((demoOf stoppedTeam).launch? stoppedTeam.launch).map (·.held)) = some false ∧ (demoOf stoppedTeam).entryOk stoppedTeam.ctx stoppedTeam.trapvec = true := by decide +kernel

theorem witness_HandlerReturnCompletes : (demoOf inHandler).team? 1 = some inHandler ∧ 0 < inHandler.gangs.length ∧ (inHandler.gang 0).queue.length = 2 := by decide +kernel

-- memory

def mG : FmtM := { fmtM with d := .v 2, a := .s 5, b := .v 9 }
def mS : FmtM := { mG with a := .s 3, space := .spad }
def mK : FmtM := { mG with a := .v 9, space := .stack }
def mU : FmtM := { fmtM with d := .s 20, a := .s 5, b := .imm 0, sz := .b64 }

theorem witness_LoadsComplete : demo.Issues demoI ∧ demo.GangStarts demoI demo demoI ∧
    (baseOk demoI.tm.nregs .global false mG.a && indexOk demoI.tm.nregs false mG.b && dataOk demoI.tm.nregs (sizeBytes mG.sz) fileVN mG.d &&
      baseOk demoI.tm.nregs .spad false mS.a && baseOk demoI.tm.nregs .stack false mK.a &&
      baseOk demoI.tm.nregs mU.space true mU.a && indexOk demoI.tm.nregs true mU.b && dataOk demoI.tm.nregs (sizeBytes mU.sz) fileS mU.d) = true ∧
    demo.LoadOk demoI mG .global (demoI.active laneH) ∧ demo.LoadOk demoI mS .spad (demoI.active laneH) ∧ demo.LoadOk demoI mK .stack (demoI.active laneH) ∧
    demo.LoadOk demoI mU .global [0] :=
  ⟨demo_issues, demo_gang, by decide +kernel, ⟨by decide +kernel, _, okVal_getD [] (by decide +kernel), okVal_eq (by decide +kernel), okVal_eq (by decide +kernel)⟩,
    by unfold State.LoadOk; decide +kernel, by unfold State.LoadOk; decide +kernel,
    ⟨by decide +kernel, _, okVal_getD [] (by decide +kernel), okVal_eq (by decide +kernel), okVal_eq (by decide +kernel)⟩⟩

theorem witness_StoresComplete : demo.Issues demoI ∧ (dataOk demoI.tm.nregs (sizeBytes mG.sz) fileVNBSI mG.d && dataOk demoI.tm.nregs (sizeBytes mU.sz) fileSI mU.d) = true ∧
    demo.StoreOk demoI mG .global (demoI.active laneH) ∧ demo.StoreOk demoI mS .spad (demoI.active laneH) ∧ demo.StoreOk demoI mK .stack (demoI.active laneH) ∧
    demo.StoreOk demoI mU .global [0] :=
  ⟨demo_issues, by decide +kernel, ⟨by decide +kernel, _, okVal_getD [] (by decide +kernel)⟩, by unfold State.StoreOk; decide +kernel,
    by unfold State.StoreOk; decide +kernel, ⟨by decide +kernel, _, okVal_getD [] (by decide +kernel)⟩⟩

theorem witness_FencesComplete : demo.Issues demoI ∧ demo.GangStarts demoI demo demoI ∧
    (baseOk demoI.tm.nregs .global false mG.a && indexOk demoI.tm.nregs false mG.b) = true :=
  ⟨demo_issues, demo_gang, by decide +kernel⟩

def aG : FmtM := { fmtM with d := .v 2, a := .s 5, b := .v 1, ord := .rlx, vis := .device }
def aU : FmtM := { aG with d := .s 20, b := .s 6 }

theorem witness_GlobalAtomicsComplete : demo.Issues demoI ∧ demo.GangStarts demoI demo demoI ∧
    (atomOperands demoI.tm aG .global false false 4 && atomOperands demoI.tm aU .global true false 4) = true ∧
    (∀ x ∈ demoI.g.accesses aG .global false (demoI.atomLanes laneH) 4, x.va + 4 ≤ 2 ^ 56 ∧ x.va % 4 = 0) ∧
    (demo.atomPages demoI false (demoI.atomJob (some .add) .n32 aG (demoI.atomLanes laneH)) aG.d 32 (demoI.g.accesses aG .global false (demoI.atomLanes laneH) 4) [] false).2.2.2.isNone = true ∧
    (demo.atomPages demoI false (demoI.atomJob (some .add) .n32 aU (demoI.atomLanes gangH)) aU.d 32 (demoI.g.accesses aU .global false (demoI.atomLanes gangH) 4) [] false).2.2.2.isNone = true ∧
    -- the second clause: one page of the lanes' accesses
    (demo.team? demoI.unit.team).isSome = true ∧
    ∃ r, (do let ps ← demo.xlatAll (some 0) 0 .write (demoI.g.accesses aG .global false [0] 4)
             demo.atomPage demoI false (demoI.atomJob (some .add) .n32 aG [0]) (pageOf ps 0x20000) (demoI.g.accesses aG .global false [0] 4)) = .ok r :=
  ⟨demo_issues, demo_gang, by decide +kernel, by decide +kernel, by decide +kernel, by decide +kernel, by decide +kernel, okVal_some (by decide +kernel)⟩

theorem witness_ScratchpadAtomicsComplete : demo.Issues demoI ∧ demo.GangStarts demoI demo demoI ∧
    (atomOperands demoI.tm { aG with a := .s 3 } .spad false false 4 && atomOperands demoI.tm { aU with a := .s 3 } .spad true false 4) = true ∧
    (∀ x ∈ demoI.g.accesses { aG with a := .s 3 } .spad false (demoI.atomLanes laneH) 4,
      x.va + 4 ≤ demoI.tm.spadSize ∧ x.va % 4 = 0 ∧ demoI.tm.guarded x.va 4 = false ∧ demoI.tm.pendingAt x.va 4 = false) :=
  ⟨demo_issues, demo_gang, by decide +kernel⟩

/-- A unit at the greatest value, and lanes whose operands fit 32 bits. -/
theorem witness_UnitsCombineInLaneOrder : (2 ^ 32 - 1 : Nat) < 2 ^ 32 ∧ ∀ k, laneVal [(0, 2 ^ 32 - 1)] k < 2 ^ 32 := by
  refine ⟨by decide, fun k => ?_⟩
  unfold laneVal
  simp only [List.find?]
  split <;> decide

-- groups, barriers, queues and work lists

theorem witness_GroupsComplete : demo.Issues demoI ∧ demo.GangStarts demoI demo demoI ∧ demo.Starts demoI gangH 0 demo gangW ∧ (gOk (.g 2) && sOk (.s 20) && natSrcOk (.imm 0)) = true ∧
    demo.groupCount < 65536 ∧ (demo.ctx 0).freeGroup = some 2 ∧
    demo.checkHandle 0 (demoI.g.rdG 0) = .ok 0 ∧ demo.checkHandle 0 (demoI.g.rdG 1) = .ok 1 ∧
    (demo.group 0 0).member? 1 0 = none ∧ demo.isolated demoI.tm.launch = false ∧ (demo.group 0 1).active demoI = true ∧ (2 : BitVec 8).toNat ≤ 2 :=
  ⟨demo_issues, demo_gang, demo_starts 0, by decide +kernel, by decide +kernel, by decide +kernel, okVal_eq (by decide +kernel), okVal_eq (by decide +kernel), by decide +kernel⟩

/-- With one member its arrival completes the phase. -/
theorem witness_ArrivalsComplete : demo.Issues demoI ∧ demo.GangStarts demoI demo demoI ∧ (gOk (.g 1) && sOk (.s 20) && sSrcOk (.s 6)) = true ∧
    demo.checkHandle 0 (demoI.g.rdG (gIdx (.g 1))) = .ok 1 ∧ (demo.group 0 1).active demoI = true ∧ (demo.group 0 1).broken = false ∧
    ({ demo.group 0 1 with members := [{ launch := 1, team := 1, gang := 0, slot := 0, from_ := 0, arrived := some { instr := .gbar gangH fmtT, val := 0, dest := none } }] } : Group).phaseDue = true :=
  ⟨demo_issues, demo_gang, by decide +kernel, okVal_eq (by decide +kernel), by decide +kernel⟩

def sleeping : Team := { demoTeam with gangs := [{ demoGang with slices := List.replicate 8 { pc := 0x10000, wait := .sleep } }] }

theorem witness_BarriersAndSleepComplete : demo.Issues demoI ∧ demo.Starts demoI teamH 0 (wideS .team) teamW ∧ demo.Starts demoI setH 0 (wideS (.set 0)) setW ∧ demoI.g.handler = false ∧
    (natSrcOk (.s 4) = true ∧ (demoI.g.rdScalar (.s 4)).toNat ≤ 2 ^ 24) ∧
    (demoOf sleeping).team? 1 = some sleeping ∧ unitSlices (sleeping.gang 0) { team := 1, gang := 0, slice := none } ≠ [] ∧
    (∀ k ∈ unitSlices (sleeping.gang 0) { team := 1, gang := 0, slice := none }, ((sleeping.gang 0).slice k).live = true ∧ ((sleeping.gang 0).slice k).wait = .sleep) :=
  ⟨demo_issues, demo_team, demo_set, rfl, by decide +kernel⟩

/-- A ring of one entry below 2^32, the largest mask of one gang, and the least allowance. -/
theorem witness_QueuesComplete : demo.Issues demoI ∧ demo.Starts demoI teamH 0 (wideS .team) teamW ∧ demo.GangStarts demoI demo demoI ∧
    (let ring := (teamW.rep.rdScalar (.s 3)).toNat
     let mask := (teamW.rep.rdScalar (.imm 1)).toNat % 2 ^ 32
     let depth := (teamW.rep.rdScalar (.s 6)).toNat
     ring < 2 ^ 32 ∧ ring % 8 = 0 ∧ mask < 2 ^ teamW.tm.gangs.length ∧ 0 < depth ∧ depth ≤ 256 ∧ 1 * (onesOf 32 mask).length ≤ depth ∧ teamW.tm.queueBusy 1 = false ∧
     (∀ p ∈ teamW.tm.queues, p.1 ≠ 1 → overlaps ring (8 * depth) p.2.ring (8 * p.2.depth) = false) ∧ teamW.tm.onLinks ring (8 * depth) = false ∧
     ring + 8 * depth ≤ teamW.tm.spadSize ∧ teamW.tm.pendingAt ring (8 * depth) = false) ∧
    (sOk (.s 3) && natSrcOk (.imm 1) && natSrcOk (.s 6) && sSrcOk (.s 6)) = true ∧
    ((demoI.tm.queue? 0).map (fun d => (bitAt d.mask 0, Tab.get d.allow 0 0))) = some (true, 2) ∧ ((demoI.tm.queue? 0).map (·.owners)) = some [] ∧
    demoI.tm.pendingAt 0x600 8 = false ∧
    -- a blocked pop beside an entry
    ({ ring := 0x600, depth := 4, mask := 1, allow := [], owners := [0], waiters := [(0, 20)] } : QDef).owners ≠ [] :=
  ⟨demo_issues, demo_team, demo_gang, by decide +kernel⟩

def quietCtx : Ctx := { demoCtx with wlists := [(0, { home := some (1, 0), waiting := some 20 })] }

/-- Every wing is online, so no list is being moved, wherever a list stands. -/
theorem demo_lists (l : Nat) : demo.listMoves 0 l = false := by
  have h (w : Nat) : demo.wing w = {} := by
    show (List.replicate 4 ({} : Wing)).getD w {} = {}
    cases e : (List.replicate 4 ({} : Wing))[w]? with
    | none => rw [List.getD_eq_getElem?_getD, e]; rfl
    | some x => rw [List.getD_eq_getElem?_getD, e]; exact List.eq_of_mem_replicate (List.mem_of_getElem? e)
  unfold State.listMoves
  rw [h]
  rfl

theorem witness_WorkListsComplete : demo.Issues demoI ∧ demo.GangStarts demoI demo demoI ∧ (appendOk demoI.tm.nregs false { fmtT with a := .v 9, b := .v 10 } && appendOk demoI.tm.nregs true { fmtT with a := .imm 0, b := .s 6 }) = true ∧
    (∀ q ∈ (demoI.active laneH).map (demoI.g.appendItem { fmtT with a := .v 9, b := .v 10 }), q.1 < 1024) ∧ (∀ l, demo.listMoves 0 l = false) ∧ demo.isolated demoI.tm.launch = false ∧
    ((sOk (.s 20) && sSrcOk (.imm 0)) = true ∧ demoI.g.listNumber (.imm 0) 0 = 0 ∧ (demo.wlist 0 0).home = none) ∧
    Tab.find? ({ demoCtx with inflight := [(5, { team := 1, gang := 0, items := [(0, 9)] })] } : Ctx).inflight 5 = some { team := 1, gang := 0, items := [(0, 9)] } ∧
    (demo.wlist 0 0).items.length < (demo.ctx 0).wlcap ∧ quietCtx.quiescent = true :=
  ⟨demo_issues, demo_gang, by decide +kernel, by decide +kernel, demo_lists, by decide +kernel⟩

-- engines and abars

def copyF : FmtT := { fmtT with d := .s 3, a := .s 5, b := .s 4, c := .s 2 }

/-- A copy of 64 bytes, of no bytes, and of 16 MiB rows' limit: the rows that the registers name. -/
theorem witness_CopiesComplete : demo.Issues demoI ∧ demo.GangStarts demoI demo demoI ∧
    (sOk copyF.d && sOk copyF.a && sOk copyF.b && sOk copyF.c && demoI.tm.abars.contains (demoI.g.rdS 2).toNat) = true ∧
    demo.counterOf demoI copyF.e = .ok none ∧
    demoI.g.copyRows .d1 copyF.b (demoI.g.rdS 5).toNat (demoI.g.rdS 3).toNat = .ok { len := 64, rows := [(0x20000, 0x400)] } ∧
    demoI.g.copyRows .d1 (.s 0) (demoI.g.rdS 5).toNat (demoI.g.rdS 3).toNat = .ok { len := 0, rows := [] } ∧
    (disjointRuns 64 [0x400] = true ∧ 0x400 + 64 ≤ demoI.tm.spadSize ∧ demoI.tm.guarded 0x400 64 = false ∧ demoI.tm.pendingAt 0x400 64 = false ∧ demo.engineFull 0 false = false) ∧
    -- the yielding form: its continuation
    dispTarget demoI.pc (0 : BitVec 16).toInt = .ok 0x10000 ∧ demo.checkTarget 0 0 0x10000 = .ok () ∧
    -- a trigger counter that the context owns
    ({ demo with trig := { ctrown := [(0, 0x100)] } } : State).ownsCtr 0 0 0 = true ∧
    -- the registers of a row copy: the greatest length of one dimension, and a count of rows
    (2 ^ 24 : W64).toNat ≤ 2 ^ 24 ∧ (2 ^ 24 : W64).toNat % 4 = 0 ∧ 4 * bits (4 + 2 ^ 32 : Nat) 32 16 ≤ 2 ^ 24 ∧ 4 * bits (4 + 2 ^ 32 : Nat) 32 16 ≠ 0 ∧
    4 * bits (4 + 2 ^ 32 + 2 ^ 48 : Nat) 32 16 * bits (4 + 2 ^ 32 + 2 ^ 48 : Nat) 48 16 ≠ 0 :=
  ⟨demo_issues, demo_gang, by decide +kernel, okVal_eq (by decide +kernel), okVal_eq (by decide +kernel), okVal_eq (by decide +kernel), by decide +kernel,
    okVal_eq (by decide +kernel), okVal_eq (by decide +kernel), by decide +kernel⟩

def gathF : FmtT := { fmtT with d := .s 3, a := .s 5, b := .s 8, c := .s 2 }

/-- One row of four bytes, the least of each. -/
theorem witness_GathersComplete : demo.Issues demoI ∧ demo.GangStarts demoI demo demoI ∧ demo.counterOf demoI gathF.e = .ok none ∧
    (let w := (demoI.g.rdS (sIdx gathF.b)).toNat
     let at_ := bits w 0 32
     let n := bits w 32 13
     let z := bits w 48 16
     let data := (demoI.g.rdS (sIdx gathF.d)).toNat
     let base := (demoI.g.rdS (sIdx gathF.a)).toNat
     sIdx gathF.b % 2 = 0 ∧ at_ % 4 = 0 ∧ 0 < n ∧ n ≤ 4096 ∧ bits w 45 3 = 0 ∧ 4 ≤ z ∧ z ≤ 4096 ∧ z % 4 = 0 ∧ data % 8 = 0 ∧ base % 8 = 0 ∧
     demoI.tm.abars.contains (demoI.g.rdS (sIdx gathF.c)).toNat = true ∧ at_ + 4 * n ≤ demoI.tm.spadSize ∧ data + n * z ≤ demoI.tm.spadSize ∧
     demoI.tm.guarded data (n * z) = false ∧ demoI.tm.pendingAt data (n * z) = false ∧ demoI.tm.pendingAt at_ (4 * n) = false ∧ demo.engineFull 0 true = false) :=
  ⟨demo_issues, demo_gang, okVal_eq (by decide +kernel), by decide +kernel⟩

/-- A registered abar with one arrival left, in phase 1: phase number 0 has completed and 1 is open. A free place for a new one. -/
theorem witness_AbarsComplete : demo.Issues demoI ∧ demo.GangStarts demoI demo demoI ∧ (sOk (.s 2) && natSrcOk (.imm 0) && natSrcOk (.imm 1) && sOk (.s 20)) = true ∧
    ((demoI.g.rdS 2).toNat % 16 = 0 ∧ demoI.tm.abars.contains (demoI.g.rdS 2).toNat = true ∧ demo.abarBusy 1 demoI.tm (demoI.g.rdS 2).toNat = false ∧
      (demoI.g.rdS 2).toNat + 16 ≤ demoI.tm.spadSize ∧ ({ demoI.tm with abars := [] } : Team).guarded (demoI.g.rdS 2).toNat 16 = false ∧ demoI.tm.pendingAt (demoI.g.rdS 2).toNat 16 = false) ∧
    (demoI.tm.abars.contains (demoI.g.rdS 3).toNat = false ∧ demoI.tm.abars.length < 64 ∧ (65535 : Nat) ≤ 65535) ∧
    ((demoI.tm.abar 0x100).arrv ≠ 0 ∧ (demoI.tm.abar 0x100).expb + (2 ^ 32 - 1) < 2 ^ 32) ∧
    (((demoI.tm.abar 0x100).phase + 2 ^ 32 - 0) % 2 ^ 32 = 1 ∧ ((demoI.tm.abar 0x100).phase + 2 ^ 32 - 1) % 2 ^ 32 = 0) ∧ errTraps errTimeout = false :=
  ⟨demo_issues, demo_gang, by decide +kernel⟩

/-- The page as an IMM page (R405). -/
def demoImm : State := demo.setCommAll [(0x2000, 0x13)]

def putF : FmtT := { fmtT with d := .s 3, a := .s 5, b := .imm 0, c := .s 2, e := .s 4 }

theorem witness_DeviceTransfersComplete : demo.Issues demoI ∧ demo.GangStarts demoI demo demoI ∧
    (let len := (demoI.g.rdS 4).toNat
     4 ≤ len ∧ len ≤ 2 ^ 24 ∧ len % 4 = 0 ∧ bits (demoI.g.rdS 3).toNat 0 32 % 4 = 0 ∧ (demoI.g.rdS 5).toNat % 4 = 0 ∧ (demoI.g.rdScalar (.imm 0)).toNat < demo.span.size ∧
     demoI.tm.abars.contains (demoI.g.rdS 2).toNat = true ∧ bits (demoI.g.rdS 3).toNat 0 32 + len ≤ demoI.tm.spadSize ∧
     demoI.tm.guarded 0x400 len = false ∧ demoI.tm.pendingAt 0x400 len = false ∧ demo.engineFull 0 false = false) ∧
    demo.slotOfAsid 2 = none ∧ demo.slotOfAsid 1 = some 0 ∧
    (okVal (demoImm.incoming 0 (pageRuns 2 0x20000 [1, 2, 3, 4]) false)).map (fun x => (x.2, (x.1.ctx 0).bncSeq)) = some ((false, []), (demoImm.ctx 0).bncSeq) ∧
    Tab.get (demoImm.ctx 0).partial_ 0 0x20000 ≤ (demoImm.ctx 0).bncrp ∧ ([1, 2, 3, 4] : List Byte) ≠ [] ∧
    -- a page that faults and a bounce ring of no slots: the data has still to land
    (okVal (({ demo with ctxs := [(0, { demoCtx with bncslots := 0 })] } : State).incoming 0 (pageRuns 2 (2 ^ 40) [1, 2, 3, 4]) false)).map (·.2) = some (false, [(2 ^ 40, [1, 2, 3, 4])]) ∧
    -- a POISON page (R405)
    pagesPoison ((demo.setCommAll [(0x2001, 1)]).segPages 0 .read 0x20000 4) = true ∧
    ∃ ps, demo.segPages 0 .read 0x20000 4 = .ok ps :=
  ⟨demo_issues, demo_gang, by decide +kernel, by decide +kernel, by decide +kernel, by decide +kernel, by decide +kernel, by decide +kernel, by decide +kernel, by decide +kernel, pagesVal_some (by decide +kernel)⟩

-- tiles and the matrix unit

theorem witness_TileRecordsComplete : demo.Issues demoI ∧ demo.GangStarts demoI demo demoI ∧
    -- a register that holds the zero record, a dense record, an empty and a held slot: legal and not stalled
    demoI.tileStall [.t 0, .t 1, .t 2, .t 4] [.t 1, .t 4] = .ok () ∧ ([0, 1, 2, 4].all (fun k => tOk (.t (BitVec.ofNat 8 k)) && demoI.tm.recOk true (demoI.g.rdT k))) = true ∧
    (tKind (demoI.g.rdT 0) < 2 ∧ tLoc (demoI.g.rdT 1) ≠ 1 ∧ tLoc (demoI.g.rdT 4) = 1 ∧ srcSlots (demoI.g.rdT 4) = [0] ∧ srcSlots (demoI.g.rdT 2) = []) ∧ demoI.tm.slotWait 0 = .ok () ∧
    -- TDEF of a dense tile at the last multiple of 256 at which it fits
    (let u := 61184
     u < 2 ^ 24 ∧ u % 256 = 0 ∧ u + setBytes .f32 32 ≤ demoI.tm.spadSize ∧ demoI.tm.spadSize < u + 256 + setBytes .f32 32) ∧
    -- TLDR and TSTR: sixteen bytes of the scratchpad, and of global memory
    ((demoI.g.rdS 3 + (0 : BitVec 16).signExtend 64).toNat % 16 = 0 ∧ 0x400 + 16 ≤ demoI.tm.spadSize ∧ demoI.tm.guarded 0x400 16 = false ∧ demoI.tm.pendingAt 0x400 16 = false ∧
      demoI.tm.recOk false (BitVec.ofNat 128 (demoI.tm.spadNat 0x900 16)) = true ∧ 0x20000 + 16 ≤ 2 ^ 56) ∧
    (∃ r, demo.globalLoad demoI .weak .team [{ lane := 0, va := 0x20000, n := 16 }] = .ok r) ∧
    (∃ u, demo.globalStore demoI .weak [{ lane := 0, va := 0x20000, n := 16 }] (fun _ => leBytes 16 0) = .ok u) ∧
    -- TPOOL of the most blocks that fit, and of none
    (demoI.tm.pool = none ∧ poolFits 0x4000 (colBlock .f32) 15 = true ∧ poolFits 0x4000 (colBlock .f32) 16 = false ∧ (demoI.g.rdS 10).toNat % 256 = 0 ∧
      (demoI.g.rdS 10).toNat + (demoI.g.rdS 11).toNat ≤ demoI.tm.spadSize ∧ demoI.tm.guarded 0x1000 (linkBytes 15) = false ∧ demoI.tm.pendingAt 0x1000 (linkBytes 15) = false) :=
  ⟨demo_issues, demo_gang, okVal_eq (by decide +kernel), by decide +kernel, by decide +kernel, okVal_eq (by decide +kernel), by decide +kernel, by decide +kernel,
    okVal_some (by decide +kernel), okVal_some (by decide +kernel), by decide +kernel⟩

/-- A team with a factor pool of fifteen blocks; its gang holds a low-rank tile of one block in t3, and format words in v30. -/
def demoPool : Pool := { base := 0x4000, fmt := .f32, block := colBlock .f32, count := 15, free := (List.range 15).tail }
def tileTeam : Team :=
  ({ demoTeam with
      pool := some demoPool,
      gangs := [{ demoGang with t := demoGang.t ++ [(5, demoPool.chainRec .f32 4 [0])], v := (List.range 32).map (fun l => (30 * 32 + l, 0x144)) }] } : Team).setSpad 0x4000 (leBytes 2 0xFFFF)
def tileS : State := demoOf tileTeam
def tileI : Issuer := issuerOf tileTeam
theorem tile_issues : tileS.Issues tileI := ⟨by decide +kernel, real_of tileTeam (by decide) rfl (by decide)⟩
theorem tile_gang : tileS.GangStarts tileI tileS tileI := .inl ⟨rfl, rfl, rfl⟩
def tileW : Wide := { p := tileI.performer (some gangH), scope := .gang, set := 0, tm := tileTeam, gangs := [0], parts := [some 0] }
theorem tile_starts : tileS.Starts tileI gangH 0 tileS tileW := ⟨tileI, tile_gang, rfl⟩

/-- A stash of a dense tile of the scratchpad to two places 0x2000 bytes apart. -/
theorem witness_BatchesAndStashComplete : demo.Issues demoI ∧ demo.GangStarts demoI demo demoI ∧ demoI.g.lastBatch - demoI.tm.batchDone 0 < 16 ∧
    -- MWAIT: the last closed batch, the largest number it may name, has completed
    (natSrcOk (.imm 1) = true ∧ 0 < (demoI.g.rdScalar (.imm 1)).toNat ∧ (demoI.g.rdScalar (.imm 1)).toNat ≤ demoI.g.lastBatch ∧ (demoI.g.rdScalar (.imm 1)).toNat ≤ demoI.tm.batchDone 0) ∧
    (tOk (.t 1) && sOk (.s 5) && sOk (.s 16) && demoI.tm.recOk false (demoI.g.rdT 1)) = true ∧ demoI.tileStall [.t 1] [.t 1] = .ok () ∧
    (tKind (demoI.g.rdT 1) < 2 ∧ tLoc (demoI.g.rdT 1) = 0 ∧ tFmt (demoI.g.rdT 1) = .f32 ∧ (demoI.g.rdS 5).toNat % 128 = 0 ∧ (demoI.g.rdS 16).toNat % 128 = 0 ∧
      overlaps (demoI.g.rdS 5).toNat (1024 * stashBytes .f32) (demoI.g.rdS 16).toNat (1024 * stashBytes .f32) = false ∧
      ∀ x ∈ demoI.tm.srcRuns (demoI.g.rdT 1), demoI.tm.pendingAt x.1 x.2 = false) ∧
    (demoI.g.rdS 5).toNat + 1024 * stashBytes .f32 ≤ 2 ^ 56 ∧ (demoI.g.rdS 16).toNat + 1024 * stashBytes .f32 ≤ 2 ^ 56 ∧
    -- the second place on an unmapped page
    (okVal (demo.stashCopy demoI (2 ^ 40) (List.replicate 4096 0))).isNone = true ∧
    demoI.g.plainDone = false ∧ ∃ u, demo.stashCopy demoI (demoI.g.rdS 5).toNat (List.replicate 4096 0) = .ok u :=
  ⟨demo_issues, demo_gang, by decide +kernel, by decide +kernel, by decide +kernel, okVal_eq (by decide +kernel), by decide +kernel, by decide +kernel, by decide +kernel, by decide +kernel, rfl, okVal_some (by decide +kernel)⟩

/-- A ready operation. -/
def readyOp : MatOp := { gangs := [(0, 2)], instr := .accz gangH { fmtT with d := .t 4 }, recs := [slotRec .f32 0], slots := [0] }

theorem witness_MatrixOperationsComplete : tileS.Issues tileI ∧ tileS.GangStarts tileI tileS tileI ∧ tileS.Starts tileI gangH 0 tileS tileW ∧
    -- records: dense in the scratchpad, a held slot, an empty slot, low rank
    (tOk (.t 1) && tileTeam.recOk false (tileI.g.rdT 1) && tileTeam.recOk false (tileI.g.rdT 2) && tileTeam.recOk false (tileI.g.rdT 4) && tileTeam.recOk false (tileI.g.rdT 5)) = true ∧
    tileI.tileStall [.t 1, .t 2, .t 5, .t 4] [.t 1, .t 2, .t 4, .t 5] = .ok () ∧ tileTeam.tregBusy 0 4 = false ∧
    -- MMA: words in the active lanes that agree, and no active lane
    (tileW.wordOk (.v 30) = true ∧ tileW.voters gangH (.v 30) ≠ [] ∧ dissent .gang (tileW.voters gangH (.v 30)) = [] ∧
      (∀ v ∈ tileW.voters gangH (.v 30), wordFieldsOk (tileI.g.rdT 1) (tileI.g.rdT 1) (tileI.g.rdT 4) v.word = true) ∧ tileW.voters { gangH with mneg := true } (.v 30) = []) ∧
    tileS.placeDense tileTeam (tileI.g.rdT 4) .f32 = .ok (.dense .f32 0 false) ∧ tileS.placeDense tileTeam (tileI.g.rdT 2) .f32 = .ok (.dense .f32 1 true) ∧
    -- ACCWR and ACCRD in 32 registers up to the last
    (tSlot (tileI.g.rdT 4) = some 0 ∧ accwrOk .f32 .f32 = true ∧ vRunOk tileTeam.nregs false 32 (.v 224) = true ∧ slotFmtOk (tileI.g.rdT 4) .f32 = true ∧
      ∀ l ∈ tileI.active gangH, enabledExc tileI.g.fpmode (rowExc (tileTeam.accRow (tileI.g.rdT 4) .f32 l)) = false) ∧
    -- CTURN of 4 and of 32 registers to the scratchpad, and of 16 to a factor chain
    ((tileI.g.rdS 10).toNat % 16 = 0 ∧ (tileI.g.rdS 10).toNat + setBytes .f32 32 ≤ tileTeam.spadSize ∧ vRunOk tileTeam.nregs false 4 (.v 0) = true ∧
      tileTeam.guarded 0x1000 (setBytes .f32 32) = false ∧ tileTeam.pendingAt 0x1000 (setBytes .f32 32) = false) ∧
    tileTeam.placeChain .f32 16 = .ok (.low .f32 16 [1, 2, 3, 4]) ∧
    -- products and sums of low-rank tiles
    tileTeam.placeChain .f32 4 = .ok (.low .f32 4 [1]) ∧ tileTeam.placeChain .f32 (tRank (tileI.g.rdT 5) + tRank (tileI.g.rdT 5)) = .ok (.low .f32 8 [1, 2]) ∧
    (tKind (tileI.g.rdT 5) = 2 ∧ tFmt (tileI.g.rdT 5) = .f32 ∧ taddFmtOk (tileI.g.rdT 5) (tileI.g.rdT 5) = true) ∧
    -- TSCL and TTRN of a zero tile, TMV of an even pair of registers, TRND and TNORM
    tileS.placeLike tileTeam (tileI.g.rdT 2) (tileI.g.rdT 0) = .ok (.zero .l6) ∧ (laneSrcOk tileTeam.nregs false (.v 9) && tauOk ((tileI.g.rdS 17).toNat % 2 ^ 32)) = true ∧
    (tileTeam.ccBusy 0 = false ∧ tileS.freeSlot tileTeam .f32 = some 1 ∧ ∀ r ∈ tileTeam.srcRuns (tileI.g.rdT 5), tileTeam.pendingAt r.1 r.2 = false) ∧
    ({ tileTeam with mops := [(7, readyOp)] } : Team).matReady 7 readyOp = true :=
  ⟨tile_issues, tile_gang, tile_starts, by decide +kernel, okVal_eq (by decide +kernel), by decide +kernel, by decide +kernel, okVal_eq (by decide +kernel), okVal_eq (by decide +kernel),
    by decide +kernel, by decide +kernel, okVal_eq (by decide +kernel), okVal_eq (by decide +kernel), okVal_eq (by decide +kernel), by decide +kernel, okVal_eq (by decide +kernel),
    by decide +kernel⟩

-- collectives, triggers and launches

/-- Four elements of the dense tile, a buffer of the span of one device, and the least deadline. -/
theorem witness_CollectivesComplete : demo.Issues demoI ∧ demo.Starts demoI teamH 0 (wideS .team) teamW ∧ demo.GangStarts demoI demo demoI ∧ teamW.repIssuer.tileStall [.t 1] [] = .ok () ∧
    (let r := teamW.rep.rdT 1
     let e := (teamW.rep.rdS 12).toNat
     let n := bits e 0 21
     let ring := (wideS .team).ringOrder 0 0
     let bytes := n * stashBytes (tFmt r)
     teamW.tm.recOk true r = true ∧ tKind r = 1 ∧ tLoc r = 0 ∧ 0 < n ∧ n ≤ 2 ^ 20 ∧ bits e 21 11 = 0 ∧ bits e 40 24 = 0 ∧ bits e 32 8 = 0 ∧ indexOf? (· == bits e 32 8) ring = some 0 ∧
     0 < (teamW.rep.rdS 13).toNat ∧ (teamW.rep.rdS 13).toNat < 2 ^ 32 ∧ indexOf? (· == (wideS .team).span.rank) ring = some 0 ∧ collFmtOk .allreduce (tFmt r) = true ∧ n % ring.length = 0 ∧
     teamW.tm.abars.contains (teamW.rep.rdS 2).toNat = true ∧ tU r + bytes ≤ teamW.tm.spadSize ∧ teamW.tm.guarded (tU r) bytes = false ∧ teamW.tm.pendingAt (tU r) bytes = false) ∧
    -- SPANMAP of one rank, read from a zero byte, of group 63, and of no ranks
    ((demoI.g.rdScalar (.imm 63)).toNat < 64 ∧ (demoI.g.rdScalar (.imm 1)).toNat ≤ 256 ∧ demo.colls = [] ∧ (0x20000 + 0) % 2 ^ 64 < 2 ^ 56 ∧
      (okVal (demo.globalLoad demoI .weak .team [{ lane := 0, va := 0x20000, n := 1 }])).map (fun x => (x.1, x.2.span.size, x.2.span.rank)) = some ([(0, 0)], 1, 0)) ∧
    (4 : BitVec 8).toNat ≤ 4 ∧ sOk (.s 20) = true :=
  ⟨demo_issues, demo_team, demo_gang, okVal_eq (by decide +kernel), by decide +kernel⟩

/-- A slot and a counter that the context owns, and a descriptor whose predicate is "true" and which launches the next record. -/
def trigS : State := { demo with trig := { trgown := [(255, 0x100)], ctrown := [(0, 0x100), (1023, 0x100)] } }
theorem trig_issues : trigS.Issues demoI := ⟨by decide +kernel, demo_issues.2⟩

theorem witness_TriggersComplete : trigS.Issues demoI ∧ trigS.GangStarts demoI trigS demoI ∧
    -- the last slot and the last counter of the wing
    ((demoI.g.rdS 10).toNat % 16 = 0 ∧ (demoI.g.rdS 10).toNat + 128 ≤ demoI.tm.spadSize ∧ demoI.tm.pendingAt (demoI.g.rdS 10).toNat 128 = false ∧
      Tab.find? trigS.trig.slots (slotKey 0 255) = none ∧ trigS.ownsSlot 0 0 255 = true ∧ trigS.ownsCtr 0 0 1023 = true) ∧
    ((triggerOf 0 0 trigS.span.size (fun o => demoI.tm.spadNat (0x1000 + o) 8)).map (fun tr => trigS.triggerOwned 0 tr)) = some true ∧
    (natSrcOk (.s 4) && natSrcOk (.imm 127) && sOk (.s 10) && sOk (.s 20)) = true ∧ bitAt (Tab.get trigS.trig.ctrown 0 (ctrKey 0 1023)).toNat 8 = true ∧ (trigS.wing 0).state = .online ∧
    ({ trigS with wings := [{ state := .draining }] } : State).wings.map (·.state) = [.draining] :=
  ⟨trig_issues, .inl ⟨rfl, rfl, rfl⟩, by decide +kernel⟩

/-- A running child of the team, and a retired one. -/
def childTeam : Team := { demoTeam with kids := [1, 2] }
def childS : State := { demoOf childTeam with launches := [(1, { placedLaunch with grids := placedLaunch.grids ++ [(1, { lrec := placedRec, total := 1 }), (2, { lrec := placedRec, total := 0, done := true })] })] }

theorem witness_LaunchesComplete : demo.Issues demoI ∧ demo.GangStarts demoI demo demoI ∧
    ((demoI.g.rdS 5).toNat % 64 = 0 ∧ (demoI.g.rdS 5).toNat + 64 ≤ 2 ^ 56 ∧ demo.launch? demoI.tm.launch = some placedLaunch ∧ (Tab.find? placedLaunch.grids demoI.tm.grid).map (·.depth) = some 0 ∧
      (placedLaunch.grids.filter (fun p => !p.2.done)).length < 65535) ∧
    (∃ r, demo.globalLoad demoI .weak .team ((List.range 8).map (fun k => { lane := k, va := 0x20000 + 8 * k, n := 8 })) = .ok r ∧ r.2.setsWait 0 (recOf (r.1.flatMap (fun p => leBytes 8 p.2))) = false) ∧
    -- CJOIN: of a child that has not retired, of one that has, and the unknown handle of neither
    (childTeam.kids = [1, 2] ∧ ((childS.launch? 1).bind (fun L => (Tab.find? L.grids 1).map (·.done))) = some false ∧ ((childS.launch? 1).bind (fun L => (Tab.find? L.grids 2).map (·.done))) = some true) ∧
    (natSrcOk (.imm 127) = true ∧ (demoI.g.rdScalar (.imm 127)).toNat < 2 ^ 16) ∧
    -- TRQ in handler state: the last word of an entry, an entry past the end, and an entry other than the first
    ((issuerOf inHandler).g.handler = true ∧ (4 : BitVec 8).toNat ≤ 4 ∧ (issuerOf inHandler).g.queue[1]?.isSome = true ∧ (issuerOf inHandler).g.queue[2]? = none) :=
  ⟨demo_issues, demo_gang, by decide +kernel, ⟨_, okVal_getD ([], demo) (by decide +kernel), by decide +kernel⟩, by decide +kernel⟩

-- events

def triedDone (x : Tried) : Bool := match x with | .done _ _ => true | _ => false
def triedFault (x : Tried) : Bool := match x with | .fault _ => true | _ => false
def triedBad (x : Tried) : Bool := match x with | .bad => true | _ => false
def segOut (n : Nat) : Seg := { ord := n, kind := .store, glob := 0x20000, spad := 0x400 + 64 * n, len := 4 }
def segIn (va : Nat) : Seg := { ord := 0, kind := .load, glob := va, spad := 0x400, len := 4 }
def opOf (l fix : List Seg) (arr : Bool) : EngOp := { gang := 0, abar := some 0x100, counter := none, cont := none, arrives := arr, charges := true, segs := l, fix := fix }
def opTeam (o : EngOp) : Team := { demoTeam with ops := [(3, o)] }
def demoColl (granted : Bool) : Coll :=
  { ctx := 0, team := 1, group := 0, epoch := 0, seq := 0, op := .bcast, red := .add, fmt := .f32, n := 4, base := 0x2000, root := 0, abar := 0x100, ring := [0], pos := 0, granted := granted }
def demoAct (va : Nat) : Trigger :=
  { ctx := 0, leaves := [], nodeop := 0, act := 1, queue := 0, donectr := none, src := BitVec.ofNat 64 va, dst := 0x22000, len := 4, rank := 0, status := 0 }
def demoDone (fix : List (W64 × W64)) : Trigger := { demoAct 0x20000 with len := 0, fix := fix }
def demoChunk (epoch : Nat) : Chunk := { ctx := 1, group := 0, epoch := epoch, seq := 0, kind := .move, index := 0, data := [1] }

/-- A segment on a mapped page lands, one on an unmapped page faults, and one at the end of the address space is bad. -/
theorem witness_EngineEventsComplete :
    ((demoOf (opTeam (opOf [segIn 0x20000] [] true))).engOp? 1 3).isSome = true ∧
    (opOf [segIn 0x20000] [] true).segs.any (segIn 0x20000).after = false ∧ (opOf [segIn 0x20000] [] true).fix.any (segIn 0x20000).after = false ∧
    -- a row stored behind one that was skipped and has its bytes
    (opOf [segOut 1] [segOut 0] true).segs.any (segOut 1).after = false ∧ (opOf [segOut 1] [segOut 0] true).fix.any (segOut 1).after = true ∧
    triedDone (demo.trySeg 1 demoTeam (segIn 0x20000)) = true ∧ triedFault (demo.trySeg 1 demoTeam (segIn (2 ^ 40))) = true ∧
    triedBad (demo.trySeg 1 demoTeam (segIn (2 ^ 56))) = true ∧
    (demoOf (opTeam (opOf [] [segIn 0x20000] true))).fixReady 1 (opTeam (opOf [] [segIn 0x20000] true)) (opOf [] [segIn 0x20000] true) = true ∧
    (opOf [] [] true).finished = true ∧ (opOf [] [] true).abar = some 0x100 ∧ errTraps (opOf [] [] false).err = false ∧ (demoTeam.gang (opOf [] [] false).gang).handler = false ∧
    ({ demo with colls := [(4, demoColl false)] } : State).grantable 4 (demoColl false) = true ∧ demo.team? (demoColl true).team = some demoTeam ∧ (demoColl true).expired = false ∧ demoTeam.status ≠ .saved ∧
    ({ demoTeam with status := .saved } : Team).status = .saved ∧
    -- chunks of the ring's epoch, of an earlier one, and of no context
    demo.slotOfAsid 1 = some 0 ∧ demo.slotOfAsid 2 = none ∧ (demoChunk 0).epoch = (demo.ring 0 0).epoch ∧ chunkNames { demoChunk 0 with ctx := 0 } (demoColl true) = true ∧
    ({ demo with ctxs := [(0, { demoCtx with rings := [(0, { epoch := 1 })] })] } : State).ring 0 0 = { epoch := 1 } ∧ (demo.ring 0 0).epoch < (demoChunk 1).epoch ∧ (List.replicate 255 (demoChunk 1)).length < 256 ∧ 1024 ≤ (List.replicate 1024 (demoChunk 1)).length ∧
    -- a trigger copy whose source faults, and one that takes a word
    (demoAct 0x20000).len ≠ 0 ∧ ((match demo.actWord (demoAct (2 ^ 40)) (2 ^ 40) 0x22000 with | .fault _ => true | _ => false) && (match demo.actWord (demoAct 0x20000) 0x20000 0x22000 with | .done _ _ => true | _ => false)) = true ∧
    (match demo.actWord (demoAct (2 ^ 56)) (2 ^ 56) 0x22000 with | .bad => true | _ => false) = true ∧
    (demo.ctx 0).resident = true ∧ demo.actAbsent (demoAct 0x20000) = none ∧ demo.actAbsent (demoDone []) = none ∧
    -- no word left, and a word on the fix-up list that may be replayed, or that fails
    ((demoDone []).len = 0 ∧ demo.actReady (demoDone []) = true ∧ demo.actReady (demoDone [(0x20000, 0x22000)]) = true ∧ demo.actFails (demoDone [(0x20000, 0x22000)]) = false ∧
      demo.actReady (demoDone [(2 ^ 56, 0x22000)]) = true ∧ demo.actFails (demoDone [(2 ^ 56, 0x22000)]) = true) := by
  decide +kernel

def readyS (x : LaunchRec) : State := { demo with ctxs := [(0, { demoCtx with ready := [{ queue := 0, ord := 0, lrec := x }], segs := [(0, {})] })] }
def goodRec : LaunchRec := { placedRec with trapvec := 0 }
def serialRec : LaunchRec := { goodRec with attr := goodRec.attr ||| 512 }
def serialS : State := { demo with launches := [], teams := [], ctxs := [(0, { demoCtx with ready := [{ queue := 0, ord := 1, lrec := serialRec }], queues := [(0, { bad := [0] })] })] }
def ckptRec : LaunchRec := { attr := 1 * 2 ^ 21 }
def recomputeRec : LaunchRec := { code := 0x20000, frame := 0x20080, trapvec := 0x30000, attr := 2 * 2 ^ 21 }
def recOk_ (x : RecCheck) : Bool := match x with | .ok _ => true | _ => false
def recBad (x : RecCheck) : Bool := match x with | .reject _ => true | _ => false

def doneLaunch : Launch := { placedLaunch with ready := true, readyAt := 1 }
def withLaunch (L : Launch) : State := { demo with launches := [(1, L)] }
def moreTeams (attr : W64) : Launch := { placedLaunch with grids := [(0, { lrec := { placedRec with attr := attr }, total := 2, placed := 1 })] }
def retiredTeam : Team := { demoTeam with gangs := [{ demoGang with slices := List.replicate 8 { pc := 0, live := false } }] }
def tightCtx (upcnt upmax : Nat) : Ctx := { demoCtx with upcnt := upcnt, upmax := upmax }
def needy (irr : Bool) : Launch := { placedLaunch with poolNeed := 1, overIrr := irr }

theorem witness_LaunchEventsComplete :
    ((readyS goodRec).mayTake 0 0).isSome = true ∧ recSerial goodRec = false ∧
    -- a SERIAL record behind one that failed
    (recSerial serialRec = true ∧ (serialS.mayTake 0 0).map (·.ord) = some 1 ∧ (0 ∈ (serialS.queue 0 0).bad ∧ 0 < 1) ∧ recType serialRec ≠ 1 ∧ recType serialRec ≠ 2) ∧
    (recType goodRec ≠ 1 ∧ recType goodRec ≠ 2 ∧ recOk_ ((readyS goodRec).checkRec 0 goodRec false) = true ∧ recBad ((readyS goodRec).checkRec 0 {} false) = true) ∧
    ((readyS ckptRec).mayTake 0 0).isSome = true ∧ recType ckptRec = 1 ∧ bits ckptRec.attr.toNat 28 4 = 0 ∧
    ((readyS recomputeRec).mayTake 0 0).isSome = true ∧ recType recomputeRec = 2 ∧ ((readyS recomputeRec).ctx 0).recomputeOk recomputeRec = true ∧
    -- a replay that has a record left
    (demo.replayStep 0 0 { rr := { queue := 0, ord := 0, lrec := recomputeRec }, lo := 0, hi := 128, scratch := 0x30000, todo := [(goodRec, [])], mem0 := demo.mem, remote0 := demo.remote }).isSome = true ∧
    -- the next team of a grid on the last core, and a cohort of two
    ((withLaunch (moreTeams 0)).fits 0 placedRec 639 = true ∧ (withLaunch (moreTeams 0)).heldBack 1 0 = false ∧ (withLaunch (moreTeams 0)).outranked 1 0 = false ∧ (moreTeams 0).held = false ∧ recCohort { placedRec with attr := 0 } = false ∧ demo.fleet.halt = false ∧
      (demo.ctx 0).saving = false ∧ recCohort { placedRec with attr := 8 } = true ∧ ((withLaunch (moreTeams 8)).placeAll 1 0 0 639 { placedRec with attr := 8 } 2).isSome = true) ∧
    (retiredTeam.status = .running ∧ retiredTeam.liveGangs = [] ∧ retiredTeam.ops = [] ∧ retiredTeam.mops = [] ∧ demo.colls = []) ∧
    (-- a commit in turn, without and with a merge conflict
    ((withLaunch doneLaunch).commitTurn 0 1 = true ∧ doneLaunch.held = false ∧ (∀ p ∈ doneLaunch.finalWrites demo.commByte, demo.reachable p.1 = true) ∧ doneLaunch.replay = none ∧ doneLaunch.clash = none ∧ ({ doneLaunch with it := true, conflict := some (0, 0, 1) } : Launch).clash = some (0, 0, 1)) ∧
    -- a full pool that may be extended by one unit, and one that may not, under each policy
    ((needy false).poolNeed ≠ 0 ∧ (withLaunch (needy false)).reachable ((withLaunch (needy false)).drv.ctxbase.toNat + 56) = true ∧ placedLaunch.lines = [] ∧ ({ withLaunch (needy false) with ctxs := [(0, tightCtx 0 1)] } : State).poolSize 0 < ({ withLaunch (needy false) with ctxs := [(0, tightCtx 0 1)] } : State).poolUsed 0 + 1 ∧
      (tightCtx 0 1).upcnt < (tightCtx 0 1).upmax ∧ (tightCtx 0 0).upmax ≤ (tightCtx 0 0).upcnt ∧ ((needy false).overIrr && (needy false).replay.isNone) = false ∧ ((needy true).overIrr && (needy true).replay.isNone) = true) ∧
    (∀ p ∈ (withLaunch { placedLaunch with publishing := true }).launches, p.2.ctx = 0 → p.1 ≠ 1 → placedLaunch.disp ≤ p.2.disp ∧ p.2.irrev = false)) :=
  ⟨by decide +kernel, by decide +kernel, by decide +kernel, by decide +kernel, by decide +kernel, by decide +kernel, by decide +kernel, by decide +kernel, by decide +kernel, by decide +kernel,
    by decide +kernel, by decide +kernel, by decide +kernel, by decide +kernel, by decide +kernel⟩

def drainingTeam : Team := { opTeam (opOf [segIn 0x20000] [] true) with status := .saved, gangs := [{ demoGang with slices := List.replicate 8 { pc := 0, wait := .abar 0x100 1 } }] }
def yieldedTeam : Team := { demoTeam with prq := true, gangs := [{ demoGang with slices := List.replicate 8 { pc := 0, wait := .yielded } }] }
def saveS : State := { demoOf yieldedTeam with drv := { savebase := 0x100000, savesz := 0x10000000 } }
def savedTeam : Team := { demoTeam with status := .saved }

theorem witness_PreemptionEventsComplete :
    ({ demoGang with pend := [{ writes := [(.v 2 0, 5)], left := [0, 0, 0, 0, 0, 0, 0, 0] }] } : Gang).pend[0]?.isSome = true ∧ [(Dest.v 2 0, (5 : W64))] ≠ [] ∧
    (yieldedTeam.prq = true ∧ yieldedTeam.status ≠ .saved ∧ (saveS.saveAll false (saveS.together 1)).isSome = true) ∧
    drainingTeam.drains = true ∧
    (savedTeam.status = .saved ∧ (demo.ctx savedTeam.ctx).saving = false ∧ (demoOf savedTeam).coreFor savedTeam 0 = some 0 ∧ savedTeam.cohort = false ∧
      savedTeam.saveAt = none ∧ (demoOf savedTeam).imageOk savedTeam = true ∧ (1 ∈ (demoOf savedTeam).together 1 ∧ (demoOf savedTeam).eligible 1 savedTeam = true) ∧ demo.fleet.halt = false ∧
      (((demoOf savedTeam).restoreTeam 1 0).restoreAll 0 ((demoOf savedTeam).together 1)).isSome = true) ∧
    (∀ p ∈ (demoOf savedTeam).teams, p.2.ctx = 0 → p.2.status ≠ .running) := by
  decide +kernel

def offWing : State := { State.reset with wings := { state := .offline } :: State.reset.wings.tail }

theorem witness_HostWindowCompletes : demo.boot.powered = true ∧
    -- the last byte of the device's memory, and the first 64
    (∀ k < 64, demo.present (k + 0) = true ∧ demo.reachable (k + 0) = true ∧ (Tab.find? demo.uncorr (k + 0)).isSome = false) ∧
    demo.present (4 * wingBytes - 1) = true ∧ demo.reachable (4 * wingBytes - 1) = true ∧
    -- a byte of a wing that is offline
    (offWing.present 0 = true ∧ offWing.reachable 0 = false) ∧
    demo.slotOfAsid 1 = some 0 ∧ (pagesVal (demo.segPages 0 .write 0x20000 4)).isSome = true ∧
    ({ demo with ctxs := [(0, { demoCtx with queues := [(0, { qcfg := 32 })] })] } : State).hasQueue 0 0 = true ∧
    ({ qcfg := 0x24, qwp := 1 } : LQueue).fetches = true ∧ ({ cstop := true } : LQueue).cstop = true ∧
    (demo.ctx 0).resident = true ∧ (0 : W64).toNat ≤ (demo.ctx 0).bncSeq := by
  decide +kernel


/-- A parked team whose context waits for room: its cellar is too small for the next team's stack. -/
def parkedTeam : Team := { demoTeam with gangs := [{ demoGang with slices := List.replicate 8 { pc := 0, wait := .abar 0x100 1 } }] }

theorem witness_parked_team : parkedTeam.parked = true ∧ parkedTeam.prq = false ∧
    ({ withLaunch (moreTeams 0) with ctxs := [(0, placedCtx)] } : State).wantsRoom 0 = true := by decide +kernel

/-- The entry of a context in slot 0, with the least of each field. -/
def entryS : State :=
  { State.reset.setCommAll ((List.range 64).zip (leBytes 64 (1 + 2 ^ 16 + 16 * 2 ^ 320 + 2 ^ 352 + 32768 * 2 ^ 464 + 1000 * 2 ^ 480)) |>.map (fun p => (0x40000 + p.1, p.2))) with
      drv := { ctxbase := 0x40000 } }
def modeS : State := { State.reset with fleet := { State.reset.fleet with capPending := true, busy := true } }

theorem witness_DriverCommandsComplete : State.reset.boot.powered = true ∧ State.reset.drv.ctxBusy = false ∧
    (entryS.present (entryS.entryAt 0) = true ∧ entryS.reachable (entryS.entryAt 0) = true ∧ entryValid (entryS.ctxEntry 0) = true ∧ (entryS.ctx 0).resident = false ∧ entryS.slotOfAsid (bits (entryS.ctxEntry 0) 0 16) = none) ∧
    (offWing.present (offWing.entryAt 0) = true ∧ offWing.reachable (offWing.entryAt 0) = false) ∧
    (demo.ctx 0).resident = true ∧
    -- UPOOL up to the greatest pool, UNLOAD of an empty context
    ((entryS.ctx 0).upcnt ≤ bits (entryS.ctxEntry 0) 464 16 ∧ bits (entryS.ctxEntry 0) 464 16 ≤ 32768 ∧ bits (entryS.ctxEntry 0) 384 64 % 8 = 0) ∧
    (∀ p ∈ State.reset.teams, p.2.ctx ≠ 0) ∧ (∀ p ∈ State.reset.launches, p.2.ctx ≠ 0) ∧
    -- TLBOP: mark, and confirm for an ASID of no context and of one
    (State.reset.drv.tlbBusy = false ∧ bits (0x10000 : W64).toNat 16 2 = 1 ∧ bits (0x20000 : W64).toNat 16 2 = 2 ∧ demo.slotOfAsid 0 = none ∧ demo.slotOfAsid (bits (0x60001 : W64).toNat 0 16) = some 0 ∧
      bitAt (0x60001 : W64).toNat 18 = true ∧ bitAt (0x20001 : W64).toNat 18 = false ∧ (({ demo with launches := [], drv := { tlbAsid := 1 } } : State).frameMove 0).isSome = true ∧
      ({ demo with launches := [], drv := { tlbAsid := 1 } } : State).launches = []) ∧
    -- wings: the last one online beside three others, and one offline with no team
    ((State.reset.wing 3).state = .online ∧ 1 < State.reset.onlineWings ∧ State.reset.runningTeams (fun t => wingOfCore t.core == 3) = []) ∧
    (State.reset.rep.busy = false ∧ bits (159 * 4 : W64).toNat 2 8 < 160 ∧ 160 ≤ bits (160 * 4 : W64).toNat 2 8 ∧ Tab.get State.reset.rep.spares 0 (bankKey (159 * 4)) < 16 ∧
      16 ≤ Tab.get ([(bankKey (159 * 4), 16)] : Tab Nat) 0 (bankKey (159 * 4))) ∧
    -- SPANRJ_GO: the rank past the span, a rank that no port reaches, and one that a port reaches
    (State.reset.span.size ≤ 255 % 256 ∧ State.reset.reaches 0 = false ∧ 0 % 256 < State.reset.span.size ∧ ({ State.reset with span := { ports := [{ state := 2, known := true, peer := 0 }] } } : State).reaches 0 = true) ∧
    (modeOk modeReset = true ∧ modeOk (modeReset ||| 2 ^ 63) = false ∧ State.reset.fleet.busy = false ∧ modeEcc (modeReset ^^^ 16) ≠ modeEcc modeReset ∧ modeOk (modeReset ^^^ 16) = true ∧
      ∀ p ∈ State.reset.ctxs, p.2.resident = false) := by
  decide +kernel

theorem witness_DeviceEventsComplete :
    (({ State.reset with wings := [{ state := .draining }] } : State).wing 0).state = .draining ∧ ({ State.reset with wings := [{ state := .draining }] } : State).wingEmpty 0 = true ∧
    (({ State.reset with wings := [{ state := .resetting }] } : State).wing 0).state = .resetting ∧
    ({ State.reset with rep := { busy := true } } : State).rep.busy = true ∧ (({ State.reset with span := { ports := [{ state := 1 }] } } : State).port 0).state = 1 ∧
    -- liveness of a span of two devices
    ((1 : Nat) ≠ ({ size := 2, live := 3 } : Span).rank ∧ ({ State.reset with span := { size := 2, live := 3 } } : State).rankLive 1 = true) ∧
    ((((State.reset.span.live &&& ~~~ 0) ||| 0) ||| BitVec.ofNat 256 (2 ^ 0)) &&& rankMask 1 = State.reset.span.live ∧ ((((3 : BitVec 256) &&& ~~~ 2) ||| 0) ||| BitVec.ofNat 256 (2 ^ 0)) &&& rankMask 2 ≠ 3 ∧
      (2 : BitVec 256) ≠ 0) ∧
    (modeS.fleet.busy = true ∧ modeS.fleet.capPending = true ∧
    (State.reset.boot.powered = true ∧ State.reset.fleet.halt = false ∧ (119 : Nat) < 120 ∧ (639 : Nat) < 640) ∧
    (({ State.reset with cores := [(639, { droopHold := true })] } : State).core 639).droopHold = true ∧
    (State.reset.boot.state = 0 ∧ ({ State.reset.boot with tokens := 63 } : Boot).tokens < 64 ∧ ({ State.reset.boot with state := 3 } : Boot).state ≠ 0) ∧
    ({ State.reset.boot with state := 1, len := 64 } : Boot).len.toNat = (List.replicate 64 (0 : Byte)).length ∧ State.reset.imageErr (List.replicate 64 0) ≠ 0 ∧
    ({ State.reset.boot with signing := some (0, 0x03, 0, [], []) } : Boot).signing = some (0, 0x03, 0, [], []) ∧
    demo.boot.state = 3 ∧ demo.boot.leaf < 2 ^ 40 ∧ demo.boot.tokens ≠ 0 ∧ (1 : Nat) ≤ 5) :=
  ⟨by decide +kernel, by decide +kernel, by decide +kernel, by decide +kernel, by decide +kernel, by decide +kernel, by decide +kernel, by decide +kernel⟩

-- checks, decoding and stepping

theorem witness_IllegalScopesTrap : scopesOf (.iadd gangH n32) = some (gangH, [.lane]) ∧ demo.Issues demoI ∧ barred (.iadd gangH n32) demoI = false ∧ gangH.scp ∉ [Scope.lane] :=
  ⟨rfl, demo_issues, rfl, by decide⟩

/-- Set 7, which is not declared. -/
theorem witness_SetMembershipIsChecked : scopesOf (.bar setH { fmtT with imm := 7 }) = some (setH, [.set, .team]) ∧ setNoOf (.bar setH { fmtT with imm := 7 }) = some 7 ∧ setH.scp = .set ∧
    Scope.set ∈ [Scope.set, .team] ∧ demo.issuer? = some demoI ∧ barred (.bar setH { fmtT with imm := 7 }) demoI = false ∧ (demoI.tm.sets.getD 7 {}).mask = 0 :=
  ⟨rfl, rfl, rfl, by decide, demo_issues.1, rfl, rfl⟩

/-- Linear index 0 and the greatest, the indices beside them outside the range, and a unit that branches there. -/
theorem witness_DisplacementsCountSlots :
    (linOf 1 : Int) + ((-1 : W32).signExtend 64).toInt = 0 ∧ (linOf 0x00FFFFFFFFFFFFC4 : Int) + ((0 : W32).signExtend 64).toInt = 5 * 2 ^ 50 - 1 ∧
    (linOf 0 : Int) + ((-1 : W32).signExtend 64).toInt < 0 ∧ 5 * 2 ^ 50 ≤ (linOf 0x00FFFFFFFFFFFFC4 : Int) + ((1 : W32).signExtend 64).toInt ∧
    (linOf demoI.pc : Int) + ((0x80000000 : W32).signExtend 64).toInt < 0 ∧ demo.issuer? = some demoI ∧ laneH.scp = .lane ∧ demoI.g.ganged = true ∧ condHolds .al demoI.g.cc demoI.tm.prq = true ∧
    (∃ k ∈ demoI.slices, (demoI.g.activeIn { laneH with mneg := true } (lanesOf [k])).isEmpty = true) ∧ (∃ k ∈ demoI.slices, (demoI.g.activeIn laneH (lanesOf [k])).isEmpty = false) :=
  ⟨by decide +kernel, by decide +kernel, by decide +kernel, by decide +kernel, by decide +kernel, demo_issues.1, rfl, rfl, by decide +kernel⟩

theorem witness_EncodingRoundTrips : (Instr.exit laneH).WellFormed = true ∧ (Instr.exit laneH).isEvent = false ∧ (0xA : Nat) < 2 ^ 96 ∧ decodeSlot 0xA = some (.exit laneH) := by decide +kernel

/-- The placed line passes its checks and its first slot decodes; so `step` performs it. -/
theorem witness_StepRunsDecoded : ({ State.reset.placeWord 0xA with cur := some { team := 1, gang := 0, slice := none } } : State).issuer?.isSome = true ∧
    (okVal (({ State.reset.placeWord 0xA with cur := some { team := 1, gang := 0, slice := none } } : State).readLine 0 0 0x10000)).map (fun x =>
      (lineOk x.1, lineTgt x.1 0, decodeSlot (lineSlot x.1 0))) = some (true, true, some (.exit laneH)) ∧
    -- a line that passes its checks and has no target
    (lineOk 0 && !lineTgt 0 0) = true ∧
    (State.reset.placeWord 0xA).choices = [.unit { team := 1, gang := 0, slice := none }] ∧ State.reset.choices = [] := by decide +kernel

/-- The bucket is full and the leaf counter is at its end, and `EXIT` is the next instruction. -/
def lastLeaf : State :=
  let s := State.reset.withFetchWord 96 0xA
  { s with boot := { s.boot with leaf := 2 ^ 40 } }
theorem witness_StepsKeepDeviceState : lastLeaf.Inv ∧ ∃ t, Steps lastLeaf t :=
  ⟨by unfold State.Inv State.MemOk; decide +kernel, show ∃ t, step lastLeaf = .next t from by
    have h : (match step lastLeaf with | .next _ => true | _ => false) = true := by decide +kernel
    cases hs : step lastLeaf with
    | next t => exact ⟨t, rfl⟩
    | fault f => simp [hs] at h
    | refused r => simp [hs] at h⟩

-- worked examples of the spec, one step each

/-- A gang of its own in `demo`, for a step. -/
def stepGang (g : Gang) : State := demoOf { demoTeam with gangs := [g] }
def gangAfter (i : Instr) (s : State) : Gang := match exec i s with | .next t => t.gang 1 0 | _ => { stklim := 999999 }

/-- R244: with STKPTR = 0 and STKLIM = 256, `enter #128` sets STKPTR to 128 and writes 0 at offsets 120 to 127; `enter #64` from there sets it to 192 and
writes 128 at offset 184. -/
theorem test_enter :
    (gangAfter (.enter laneH 128) (stepGang { demoGang with stklim := 256 })).stkptr = 128 ∧
    (let g := gangAfter (.enter laneH 64) (stepGang { demoGang with stklim := 256, stkptr := 128 }); g.stkptr = 192 ∧ g.stackByte 31 184 = 128 ∧ g.stackByte 31 185 = 0) := by decide +kernel

/-- R244: a third `enter #128` at 192 raises stack-overflow, and STKPTR stays 192. -/
theorem test_enter_overflow : (let g := gangAfter (.enter laneH 128) (stepGang { demoGang with stklim := 256, stkptr := 192 }); g.stkptr = 192 ∧ g.queue.length = 1) := by decide +kernel

/-- R267: 1.3 in LNS6 and back. -/
theorem test_cvtl :
    toLns6 0x3FA66666 0 = (0x12, 0x10) ∧ specF32.round .rne (lnsValue (0x12 % 64) 0) = (0x3FB50800, 0) := by decide +kernel

/-- R274: compressing 10 + L under the mask 0xA6, and expanding the result. -/
theorem test_cmprs_expnd :
    (let g := gangAfter (.cmprs { gangH with msel := 1 } { fmtR with d := .v 5, a := .v 4 })
        (stepGang { demoGang with m := [(1, 0xA6)], v := (List.range 8).map (fun l => (4 * 32 + l, BitVec.ofNat 32 (10 + l))) })
     (List.range 6).map (g.rdV 5) = [11, 12, 15, 17, 0, 0]) ∧
    (let g := gangAfter (.expnd { gangH with msel := 1 } { fmtR with d := .v 6, a := .v 5 })
        (stepGang { demoGang with m := [(1, 0xA6)], v := [(160, 11), (161, 12), (162, 15), (163, 17)] })
     (List.range 8).map (g.rdV 6) = [0, 11, 12, 0, 0, 15, 0, 17]) := by decide +kernel

/-- R287: three lanes compare and swap one unit that holds 5: they want 5, 5 and 9 and bring 9, 7 and 11. -/
theorem test_acas_lanes :
    ({ op := none, ty := .n32, x := [(0, 9), (1, 7), (2, 11)], want := [(0, 5), (1, 5), (2, 9)] } : AtomJob).unit 5 [0, 1, 2] = ([(0, 5), (1, 9), (2, 9)], some 11) := by decide +kernel

/-- FIPS 180-4, which R415 to R417 name: the digest of "abc". -/
theorem test_sha_abc : sha256 [0x61, 0x62, 0x63] = 0xba7816bf8f01cfea414140de5dae2223b00361a396177a9cb410ff61f20015ad := by decide +kernel

/-- R249: `SADD` wraps modulo 2^64, with Z and C. -/
theorem test_sadd_wraps :
    (let g := gangAfter (.sadd gangH { sr with b := .op (.imm 1), ccw := true }) (stepGang { demoGang with s := [(4, 0xFFFFFFFFFFFFFFFF)] })
     g.rdS 20 = 0 ∧ bitAt g.cc.toNat ccZ = true ∧ bitAt g.cc.toNat 2 = true) := by decide +kernel

/-- R244: `BKPT` in a lane that is active enters the pending-trap queue with cause 0x30 and resumes past itself (R245). -/
theorem test_bkpt : (gangAfter (.bkpt laneH) demo).queue.map (fun e => (e.cause, e.resume.head?)) = [(0x30, some (some 0x10001))] := by decide +kernel

end Sys2Proof.Tests
end

section
/-! SUPPORT. Arrivals at a named group (R134, R136, R329): what an arrival on a group does and what a phase that is due leaves,
each said once, and the statement about `GBAR`, `GVOTE` and `GRED`. -/

namespace Sys2Proof.Machine

open Sys2Proof

/-- A completion under some checks with some effect is one under every stronger check and with every effect that follows. -/
theorem GangCompletes.mono {ins : Instr} {h : Hdr} {ok ok' : State → Issuer → Prop} {eff eff' : State → Issuer → State → Prop}
    (hc : GangCompletes ins h ok eff) (hok : ∀ s i, ok' s i → ok s i) (heff : ∀ s i t, eff s i t → eff' s i t) : GangCompletes ins h ok' eff' := by
  intro s i s' i' hi hs hg ho
  obtain ⟨t, ht, he⟩ := hc s i s' i' hi hs hg (hok s' i' ho)
  exact ⟨t, ht, heff s' i' t he⟩

/-- The state in which a gang has arrived at a group and waits for its phase (R134). -/
def State.waitAtGroup (s : State) (i : Issuer) (k : Nat) (arr : Arrival) : State :=
  (s.modGroup i.tm.ctx k (fun g => g.modMember i.unit.team i.unit.gang (fun m => { m with arrived := some arr }))).waitAll i.performer (.group k)

/-- The members that arrived in the open phase, each with its arrival, in ascending member slot. -/
def Group.arrivals (g : Group) : List (Member × Arrival) :=
  (g.counted.filter (fun m => !m.leaving)).filterMap (fun m => m.arrived.map (fun a => (m, a)))

/-- The members that a completed phase keeps: leaving ones are gone, and those counted in it have not arrived in the next (R133, R134). -/
def Group.staying (g : Group) : List Member :=
  (g.members.filter (fun m => !m.leaving)).map (fun m => if m.from_ ≤ g.phase then { m with arrived := none } else m)

/-- The state that the completion of a group's open phase leaves: the next phase is open, and every arrival has received its
result (R134, R329). -/
def State.completePhase (s : State) (ctx k : Nat) : State :=
  let grp := s.group ctx k
  let next := s.modGroup ctx k (fun g => { g with phase := g.phase + 1, members := grp.staying, used := !grp.staying.isEmpty })
  grp.arrivals.foldl (fun s p => s.deliver p.1 p.2 (phaseResult grp p.2.instr)) next

/-- A group whose open phase is not due stays as it is. -/
theorem State.completePhases_notDue {s : State} {ctx k : Nat} (fuel : Nat) (h : (s.group ctx k).phaseDue = false) : s.completePhases ctx k fuel = s := by
  cases fuel with
  | zero => rfl
  | succ n => simp [State.completePhases, h]

/-- A phase that is due, to which one instruction made all arrivals, completes; then the next phase is looked at (R134). -/
theorem State.completePhases_due {s : State} {ctx k : Nat} (fuel : Nat) {kind : Nat × Nat × Nat} (hdue : (s.group ctx k).phaseDue = true)
    (hkind : ∀ p ∈ (s.group ctx k).arrivals, arrivalKind p.2.instr = kind) :
    s.completePhases ctx k (fuel + 1) = (s.completePhase ctx k).completePhases ctx k fuel := by
  rw [State.completePhases, State.completePhase]
  simp only [hdue, Bool.not_true, Bool.false_eq_true, if_false]
  congr 1
  change (match (s.group ctx k).arrivals with | [] => _ | (_, a) :: r => _) = _
  cases harr : (s.group ctx k).arrivals with
  | nil => rfl
  | cons p r =>
    rw [harr] at hkind
    have hagree : r.any (fun q => arrivalKind q.2.instr != arrivalKind p.2.instr) = false := by
      simp only [List.any_eq_false, bne_iff_ne, ne_eq, not_not]
      exact fun q hq => (hkind q (by simp [hq])).trans (hkind p (by simp)).symm
    simp only [hagree, Bool.false_eq_true, if_false, ← harr]
    rfl

/-- An arrival that meets its checks: at once with BRK on a broken group, else the gang waits and the group's phases are looked at (R134, R136). -/
theorem State.arrive_ok_eq {s : State} {i : Issuer} {a : Operand} {k : Nat} (arr : Arrival) (ha : gOk a = true)
    (hk : s.checkHandle i.tm.ctx (i.g.rdG (gIdx a)) = .ok k) (hact : (s.group i.tm.ctx k).active i = true) :
    s.arrive i a true arr = .ok (if (s.group i.tm.ctx k).broken then s.passWith i (brokenResult arr)
      else (s.waitAtGroup i k arr).completePhases i.tm.ctx k 4) := by
  simp only [State.arrive, ha, hk, hact, Bool.not_true, ill_ok, ok_bind]
  split <;> rfl

/-- What an arrival on group `k` leaves: a broken group lets the gang go on at once, an open phase makes it wait, and one that
is due with arrivals by one instruction completes, when the next is not due at once (R134, R136, R329). -/
structure ArrivalDone (s : State) (i : Issuer) (k : Nat) (arr : Arrival) (t : State) : Prop where
  broken   : (s.group i.tm.ctx k).broken = true → t = s.passWith i (brokenResult arr)
  waits    : (s.group i.tm.ctx k).broken = false → ((s.waitAtGroup i k arr).group i.tm.ctx k).phaseDue = false → t = s.waitAtGroup i k arr
  complete : (s.group i.tm.ctx k).broken = false → ((s.waitAtGroup i k arr).group i.tm.ctx k).phaseDue = true →
    (∀ p ∈ ((s.waitAtGroup i k arr).group i.tm.ctx k).arrivals, arrivalKind p.2.instr = arrivalKind arr.instr) →
    (((s.waitAtGroup i k arr).completePhase i.tm.ctx k).group i.tm.ctx k).phaseDue = false → t = (s.waitAtGroup i k arr).completePhase i.tm.ctx k

/-- An arrival that meets its checks is done. -/
theorem State.arrive_done {s : State} {i : Issuer} {a : Operand} {k : Nat} (arr : Arrival) (ha : gOk a = true)
    (hk : s.checkHandle i.tm.ctx (i.g.rdG (gIdx a)) = .ok k) (hact : (s.group i.tm.ctx k).active i = true) :
    ∃ t, s.arrive i a true arr = .ok t ∧ ArrivalDone s i k arr t := by
  refine ⟨_, State.arrive_ok_eq arr ha hk hact, ⟨fun hb => ?_, fun hb hdue => ?_, fun hb hdue hkind hnext => ?_⟩⟩
  · rw [if_pos hb]
  · rw [if_neg (by simp [hb]), State.completePhases_notDue 4 hdue]
  · rw [if_neg (by simp [hb]), State.completePhases_due 3 hdue hkind, State.completePhases_notDue 3 hnext]

/-- A GANG-scope instruction that is an arrival completes as one. -/
theorem arrival_completes {ins : Instr} {h : Hdr} {a : Operand} {legal : Bool} {val : Issuer → W64} {dest : Option Nat} (k : Nat)
    (hx : ∀ s, exec ins s = s.gangOp h (fun s i => s.arrive i a legal { instr := ins, val := val i, dest := dest })) :
    GangCompletes ins h
      (fun s i => legal = true ∧ gOk a = true ∧ s.checkHandle i.tm.ctx (i.g.rdG (gIdx a)) = .ok k ∧ (s.group i.tm.ctx k).active i = true)
      (fun s i t => ArrivalDone s i k { instr := ins, val := val i, dest := dest } t) := by
  refine gang_completes hx (fun _ s' _ i' _ _ hok => ?_)
  obtain ⟨rfl, ha, hk, hact⟩ := hok
  exact State.arrive_done _ ha hk hact

/-- Settles O33: an arrival that meets its checks waits, and a due phase completes once, since the next is not due. -/
theorem arrivalsComplete : Obligations.ArrivalsComplete := by
  unfold Obligations.ArrivalsComplete
  intro h f all op k arrives
  have done : ∀ {ins legal val dest},
      (∀ s, exec ins s = s.gangOp h (fun s i => s.arrive i f.a legal { instr := ins, val := val i, dest := dest })) → arrives ins legal val dest :=
    fun hx => (arrival_completes k hx).mono (fun _ _ => id) (fun _ _ _ e => ⟨e.broken, e.waits, e.complete⟩)
  exact ⟨done fun _ => rfl, done fun _ => rfl, done fun _ => rfl⟩

end Sys2Proof.Machine
end

section
/-! SUPPORT. `COPY` (R13, R158, R159, R289 to R291): the rows that its registers name, the checks it makes at issue, what it
leaves, and the statement about it. -/

namespace Sys2Proof.Machine

open Sys2Proof

/-- E = 0 names no counter (R289). -/
theorem State.counterOf_zero (s : State) (i : Issuer) : s.counterOf i .zero = .ok none := rfl

/-- A register in E names the counter of its value on the own wing, when the context owns it (R168, R289). -/
theorem State.counterOf_owned {s : State} {i : Issuer} {r : BitVec 8} (hr : r.toNat < 128)
    (ho : s.ownsCtr i.tm.ctx (wingOfCore i.tm.core) (bits (i.g.rdS r.toNat).toNat 0 10) = true) :
    s.counterOf i (.s r) = .ok (some (ctrKey (wingOfCore i.tm.core) (bits (i.g.rdS r.toNat).toNat 0 10))) := by
  unfold State.counterOf
  rw [if_neg nofun]
  simp [hr, ho]

-- the rows (R158, R290)

/-- What a copy's registers say: the bytes of a row, the rows of a plane and the planes, and the distances of rows and of planes
in global memory and in the scratchpad. -/
structure CopyDims where
  len       : Nat
  rows      : Nat
  planes    : Nat
  globRow   : Int
  spadRow   : Nat
  globPlane : Int
  spadPlane : Nat

/-- The places of the rows in (plane, row) order. -/
def CopyDims.places (d : CopyDims) (glob spad : Nat) : List (Nat × Nat) :=
  (List.range d.planes).flatMap (fun (p : Nat) => (List.range d.rows).map (fun (r : Nat) =>
    ((BitVec.ofInt 64 ((glob : Int) + p * d.globPlane + r * d.globRow)).toNat, spad + p * d.spadPlane + r * d.spadRow)))

/-- The limits of R158 and R290: at most 16 MiB, and multiples of 4 in the scratchpad. -/
structure CopyDims.Fits (d : CopyDims) (spad : Nat) : Prop where
  size  : d.len * d.rows * d.planes ≤ 2 ^ 24
  place : spad % 4 = 0
  len   : d.len % 4 = 0
  row   : d.spadRow % 4 = 0
  plane : d.spadPlane % 4 = 0

/-- The dimensions in the registers from B on (R290). -/
def Gang.copyDims (g : Gang) (shape : CopyShape) (b : Operand) : CopyDims :=
  let w := (g.rdS (sIdx b)).toNat
  let one := shape == .d1
  { len := w % 2 ^ 32
    rows := if one then 1 else bits w 32 16
    planes := if shape == .d3 then bits w 48 16 else 1
    globRow := if one then 0 else (g.rdS (sIdx b + 1)).toInt
    spadRow := if one then 0 else bits (g.rdS (sIdx b + 2)).toNat 0 32
    spadPlane := if shape == .d3 then bits (g.rdS (sIdx b + 2)).toNat 32 32 else 0
    globPlane := if shape == .d3 then (g.rdS (sIdx b + 3)).toInt else 0 }

/-- Whether B names the registers of a shape: a 32-bit length alone, or four registers from a multiple of 4 on. -/
def Gang.CopyRegsOk (g : Gang) (shape : CopyShape) (b : Operand) : Prop :=
  match shape with
  | .d1 => (g.rdS (sIdx b)).toNat < 2 ^ 32
  | .d2 | .d3 => sIdx b % 4 = 0

/-- The rows that dimensions give: none when one of them is 0 (R158). -/
def CopyDims.copyRows (d : CopyDims) (glob spad : Nat) : CopyRows :=
  { len := d.len, rows := if d.len * d.rows * d.planes = 0 then [] else d.places glob spad }

/-- A copy's shape is three checks and then the rows of its dimensions. -/
theorem Gang.copyRows_eq (g : Gang) (shape : CopyShape) (b : Operand) (glob spad : Nat) :
    let d := g.copyDims shape b
    g.copyRows shape b glob spad = (do
      illegalOperandIf (if shape == .d1 then decide (2 ^ 32 ≤ (g.rdS (sIdx b)).toNat) else sIdx b % 4 != 0)
      illegalOperandIf (decide (2 ^ 24 < d.len * d.rows * d.planes))
      illegalOperandIf (spad % 4 != 0 || d.len % 4 != 0 || d.spadRow % 4 != 0 || d.spadPlane % 4 != 0)
      .ok (d.copyRows glob spad)) := rfl

/-- Dimensions within the limits give their rows. -/
theorem Gang.copyRows_fits {g : Gang} {shape : CopyShape} {b : Operand} (glob : Nat) {spad : Nat} (hb : g.CopyRegsOk shape b)
    (hd : (g.copyDims shape b).Fits spad) : g.copyRows shape b glob spad = .ok ((g.copyDims shape b).copyRows glob spad) := by
  obtain ⟨hsize, hplace, hlen, hrow, hplane⟩ := hd
  have hregs : (if shape == .d1 then decide (2 ^ 32 ≤ (g.rdS (sIdx b)).toNat) else sIdx b % 4 != 0) = false := by
    unfold Gang.CopyRegsOk at hb
    cases shape <;> simpa using hb
  rw [Gang.copyRows_eq, ill_ok hregs, ok_bind, ill_ok (by simpa using hsize), ok_bind, ill_ok (by simp [hplace, hlen, hrow, hplane]), ok_bind]

/-- One dimension: one row, or none when the length is 0. -/
theorem Gang.copyRows_d1 {g : Gang} {b : Operand} (glob : Nat) {spad : Nat} (hmax : (g.rdS (sIdx b)).toNat ≤ 2 ^ 24)
    (hlen : (g.rdS (sIdx b)).toNat % 4 = 0) (hspad : spad % 4 = 0) :
    g.copyRows .d1 b glob spad = .ok { len := (g.rdS (sIdx b)).toNat, rows := if (g.rdS (sIdx b)).toNat = 0 then [] else [(glob % 2 ^ 64, spad)] } := by
  have hlt : (g.rdS (sIdx b)).toNat < 2 ^ 32 := by omega
  have hd : g.copyDims .d1 b = { len := (g.rdS (sIdx b)).toNat, rows := 1, planes := 1, globRow := 0, spadRow := 0, globPlane := 0, spadPlane := 0 } := by
    simpa [Gang.copyDims] using hlt
  rw [Gang.copyRows_fits (g := g) (shape := .d1) glob hlt (hd ▸ ⟨by simpa using hmax, hspad, hlen, rfl, rfl⟩), hd]
  simp [CopyDims.copyRows, CopyDims.places]

/-- Two dimensions: the rows of one plane. -/
theorem CopyDims.places_onePlane {d : CopyDims} (h : d.planes = 1) (glob spad : Nat) :
    d.places glob spad = (List.range d.rows).map (fun (r : Nat) =>
      ((BitVec.ofInt 64 ((glob : Int) + (0 : Nat) * d.globPlane + r * d.globRow)).toNat, spad + 0 * d.spadPlane + r * d.spadRow)) := by
  simp [CopyDims.places, h]

/-- Dimensions that are not 0 give all their rows. -/
theorem CopyDims.copyRows_nonempty {d : CopyDims} (h : d.len * d.rows * d.planes ≠ 0) (glob spad : Nat) :
    d.copyRows glob spad = { len := d.len, rows := d.places glob spad } := by
  rw [CopyDims.copyRows, if_neg h]

-- issue (R13, R159, R289, R291)

/-- The operation that a copy of some rows issues: its segments are the rows' words in order; the yielding form has a continuation
and no abar. -/
def Issuer.copyOp (i : Issuer) (out yld : Bool) (c : Operand) (ctr : Option Nat) (goal : W64) (rows : CopyRows) : EngOp :=
  { gang := i.unit.gang, abar := if yld then none else some (i.g.rdS (sIdx c)).toNat, counter := ctr, cont := if yld then some goal else none
    arrives := false, charges := true
    segs := numberSegs (rows.rows.flatMap (fun p => wordSegs (if out then .store else .load) 0 p.1 p.2 rows.len)) }

/-- The checks of a copy (R158, R289 to R291), in which its counter, the yielding form's continuation and its rows are found. -/
structure CopyChecks (s : State) (i : Issuer) (shape : CopyShape) (out yld : Bool) (f : FmtT) (ctr : Option Nat) (goal : W64) (rows : CopyRows) : Prop where
  spad    : sOk f.d = true
  glob    : sOk f.a = true
  dims    : sOk f.b = true
  resume  : yld = true → dispTarget i.pc f.imm.toInt = .ok goal ∧ s.checkTarget i.tm.core i.tm.ctx goal = .ok ()
  abar    : yld = false → sOk f.c = true ∧ i.tm.abars.contains (i.g.rdS (sIdx f.c)).toNat = true
  counter : s.counterOf i f.e = .ok ctr
  shaped  : i.g.copyRows shape f.b (i.g.rdS (sIdx f.a)).toNat (i.g.rdS (sIdx f.d)).toNat = .ok rows
  apart   : out = false → disjointRuns rows.len (rows.rows.map (·.2)) = true
  ranges  : ∀ a ∈ rows.rows.map (·.2), a + rows.len ≤ i.tm.spadSize ∧
    (out = false → i.tm.guarded a rows.len = false ∧ i.tm.pendingAt a rows.len = false)
  room    : s.engineFull i.tm.core false = false

/-- What a copy that passes its checks leaves: the yielding form waits for its operation, a copy of no bytes is done, and any
other goes on with its operation issued. -/
def State.copied (s : State) (i : Issuer) (yld : Bool) (op : EngOp) : State :=
  if yld then (s.issueEngine i.unit.team op).waitAll i.performer (.copyYield s.nextId)
  else if op.segs = [] then (s.passUnit i).countDone op.counter
  else (s.passUnit i).issueEngine i.unit.team op

theorem State.copied_yielding {s : State} {i : Issuer} {yld : Bool} {op : EngOp} (hy : yld = true) :
    s.copied i yld op = (s.issueEngine i.unit.team op).waitAll i.performer (.copyYield s.nextId) := if_pos hy

theorem State.copied_issued {s : State} {i : Issuer} {yld : Bool} {op : EngOp} (hy : yld = false) (hsegs : op.segs ≠ []) :
    s.copied i yld op = (s.passUnit i).issueEngine i.unit.team op := by simp [State.copied, hy, hsegs]

theorem State.copied_nothing {s : State} {i : Issuer} {yld : Bool} {op : EngOp} (hy : yld = false) (hsegs : op.segs = []) :
    s.copied i yld op = (s.passUnit i).countDone op.counter := by simp [State.copied, hy, hsegs]

/-- A copy that passes its checks completes. -/
theorem copy_completes (h : Hdr) (shape : CopyShape) (out yld : Bool) (f : FmtT) (ctr : Option Nat) (goal : W64) (rows : CopyRows) :
    GangCompletes (.copy h shape out yld f) h (fun s i => CopyChecks s i shape out yld f ctr goal rows)
      (fun s i t => t = s.copied i yld (i.copyOp out yld f.c ctr goal rows)) := by
  refine gang_completes (fun _ => rfl) (fun _ s _ i _ _ hc => ⟨_, ?_, rfl⟩)
  have hrange : i.tm.engineCheck (!out) rows.len (rows.rows.map (·.2)) = .ok () :=
    engineCheck_ok (fun a ha => ⟨(hc.ranges a ha).1, fun ho => (hc.ranges a ha).2 (by simpa using ho)⟩)
  have hapart : (!out && !disjointRuns rows.len (rows.rows.map (·.2))) = false := by
    cases out with
    | true => rfl
    | false => simp [hc.apart rfl]
  cases yld with
  | true =>
    obtain ⟨hdisp, htarget⟩ := hc.resume rfl
    simp only [if_true, hdisp, htarget, hc.spad, hc.glob, hc.dims, hc.counter, hc.shaped, hapart, hrange, hc.room, ill_ok, ok_bind,
      Bool.not_true, Bool.false_and, Bool.or_self, Bool.false_eq_true, if_false]
    rfl
  | false =>
    obtain ⟨hreg, hlisted⟩ := hc.abar rfl
    simp only [hc.spad, hc.glob, hc.dims, hreg, hc.counter, hc.shaped, hapart, checkAbar_ok hlisted, hrange, hc.room, ill_ok, ok_bind,
      Bool.not_true, Bool.not_false, Bool.true_and, Bool.or_self, Bool.false_eq_true, if_false, State.copied]
    exact (apply_ite Except.ok _ _ _).symm

/-- Settles O37: a copy that passes its checks issues its rows' words, and the three shapes give their rows. -/
theorem copiesComplete : Obligations.CopiesComplete := by
  unfold Obligations.CopiesComplete
  refine ⟨fun h shape out yld f ctr goal rows => ?_, fun s i r => ⟨s.counterOf_zero i, State.counterOf_owned⟩, fun g b glob spad => ⟨?_, ?_, ?_⟩⟩
  · refine (copy_completes h shape out yld f ctr goal rows).mono (fun s i hok => ?_) (fun s i t ht => ?_)
    · obtain ⟨hd, ha, hb, hgoal, habar, hctr, hrows, hapart, hranges, hroom⟩ := hok
      exact ⟨hd, ha, hb, hgoal, habar, hctr, hrows, hapart, hranges, hroom⟩
    · subst ht
      exact ⟨State.copied_yielding, State.copied_issued, State.copied_nothing⟩
  · exact Gang.copyRows_d1 glob
  · intro hb hmax hspad hlen hrow hne
    have hfits : (g.copyDims .d2 b).Fits spad := ⟨(Nat.mul_one _).trans_le hmax, hspad, hlen, hrow, rfl⟩
    rw [Gang.copyRows_fits (g := g) (shape := .d2) glob hb hfits, CopyDims.copyRows_nonempty (d := g.copyDims .d2 b) ((Nat.mul_one _).trans_ne hne), CopyDims.places_onePlane rfl]
    rfl
  · intro hb hmax hspad hlen hrow hplane hne
    have hfits : (g.copyDims .d3 b).Fits spad := ⟨hmax, hspad, hlen, hrow, hplane⟩
    rw [Gang.copyRows_fits (g := g) (shape := .d3) glob hb hfits, CopyDims.copyRows_nonempty (d := g.copyDims .d3 b) hne]
    rfl

end Sys2Proof.Machine
end

section
/-! SUPPORT. The scope checks before an instruction is performed (R27, R29, R32, R225, R226): what each form answers at a scope that
it does not take, which instructions are of which form, and the statements about illegal scopes and about set membership. -/

namespace Sys2Proof.Machine

open Sys2Proof

-- what the forms answer outside their scope

section

variable {s : State} {i : Issuer} {h : Hdr}

/-- A trap at the scope of the header is the trap of R27, R29 and R32. -/
theorem trapsAtScope_of_scopeTrap {ins : Instr} {cause : Nat} (hx : exec ins s = s.scopeTrap i h cause) : TrapsAtScope ins s i h cause := hx

variable (hi : s.issuer? = some i)
include hi

/-- A LANE-scope instruction refuses every other scope (R226). -/
theorem State.lane_refuses (F : Issuer → Except Stop State) (hs : h.scp ∉ [Scope.lane]) : s.lane h F = s.scopeTrap i h cIllegalScope := by
  simp only [List.mem_singleton] at hs
  simp only [State.lane, hi, if_neg hs]

/-- A uniform transfer refuses every scope but that of its word (R226, R242). -/
theorem State.uniform_refuses (F : State → Issuer → Except Stop State) (hs : h.scp ∉ [Scope.lane]) : s.uniform h F = s.scopeTrap i h cIllegalScope := by
  simp only [List.mem_singleton] at hs
  simp only [State.uniform, hi, if_neg hs]

/-- A GANG-scope instruction refuses every other scope (R27). -/
theorem State.gangOp_refuses (F : State → Issuer → Except Stop State) (hs : h.scp ∉ [Scope.gang]) : s.gangOp h F = s.scopeTrap i h cIllegalScope := by
  simp only [List.mem_singleton] at hs
  simp only [State.gangOp, hi, if_neg hs]

/-- A scoped instruction refuses the scopes that the opcode map does not list (R225). -/
theorem State.wideOp_refuses {legal : List Scope} (n : Nat) (F : State → Wide → Except Stop State) (hs : h.scp ∉ legal) :
    s.wideOp h n legal F = s.scopeTrap i h cIllegalScope := by
  have hc : legal.contains h.scp = false := by simpa using hs
  simp only [State.wideOp, hi, hc, Bool.not_false, if_true]

/-- A SET-scope instruction refuses a gang that the set does not hold (R29). -/
theorem State.wideOp_nonmember {legal : List Scope} {n : Nat} (F : State → Wide → Except Stop State) (hs : h.scp = .set) (hl : .set ∈ legal)
    (hm : bitAt (i.tm.sets.getD n {}).mask i.unit.gang = false) : s.wideOp h n legal F = s.scopeTrap i h cIllegalOperand := by
  have hc : legal.contains Scope.set = true := by simpa using hl
  simp only [State.wideOp, hi, hs, hc, hm, Bool.not_true, Bool.not_false, Bool.false_eq_true, if_false, if_true]

/-- An instruction of LANE or GANG scope refuses the others, as its LANE form does. -/
theorem State.laneOrGang_refuses (G : Res) (F : Issuer → Except Stop State) (hs : h.scp ∉ [Scope.lane, .gang]) :
    (match h.scp with | .gang => G | _ => s.lane h F) = s.scopeTrap i h cIllegalScope := by
  simp only [List.mem_cons, List.not_mem_nil, or_false, not_or] at hs
  obtain ⟨hlane, hgang⟩ := hs
  split
  · next e => exact absurd e hgang
  · exact State.lane_refuses hi F (by simpa using hlane)

/-- Both forms of `MOV` are LANE-scope instructions. -/
theorem execMov_refuses (f : FmtR) (hs : h.scp ∉ [Scope.lane]) : execMov h f s = s.scopeTrap i h cIllegalScope := by
  unfold execMov
  split
  · exact State.lane_refuses hi _ hs
  · exact State.lane_refuses hi _ hs

/-- `PACK` to LNS6 and to a float type are both LANE-scope instructions. -/
theorem execPack_refuses (src : Ty) (f : FmtR) (hs : h.scp ∉ [Scope.lane]) : execPack h src f s = s.scopeTrap i h cIllegalScope := by
  unfold execPack
  split
  · exact State.lane_refuses hi _ hs
  · exact State.lane_refuses hi _ hs

/-- `REGANG` refuses every scope but that of its word (R226). -/
theorem execRegang_refuses (hs : h.scp ∉ [Scope.lane]) : execRegang h s = s.scopeTrap i h cIllegalScope := by
  simp only [List.mem_singleton] at hs
  simp only [execRegang, hi, bne_iff_ne, ne_eq, hs, not_false_eq_true, if_true]

/-- An atomic refuses SET and TEAM scope (R286). -/
theorem State.atomicOp_refuses (op : Option AtomOp) (ty : AtomTy) (space : Space) (mred : Bool) (f : FmtM) (hs : h.scp ∉ [Scope.lane, .gang]) :
    s.atomicOp h op ty space mred f = s.scopeTrap i h cIllegalScope := by
  simp only [List.mem_cons, List.not_mem_nil, or_false, not_or] at hs
  obtain ⟨hlane, hgang⟩ := hs
  unfold State.atomicOp
  split
  · next e => exact absurd e hgang
  · simp only [hi, ne_eq, hlane, not_false_eq_true, if_true]

end

-- the form of each instruction

/-- A scalar instruction is performed on the set that XT names (R227, R247). -/
theorem State.scalar_wide (s : State) (h : Hdr) (f : FmtR) (run : Gang → Wide → Except Stop (Gang → Gang)) :
    ∃ F, s.scalar h f run = s.wideOp h (f.xt.toNat % 8) (scalarScopes f) F := ⟨_, rfl⟩

theorem State.scalarInt_wide (s : State) (h : Hdr) (f : FmtR) (op : IntOp) :
    ∃ F, s.scalarInt h f op = s.wideOp h (f.xt.toNat % 8) (scalarScopes f) F := ⟨_, rfl⟩

/-- `BAR` outside handler state is performed at its scope (R324). -/
theorem execBar_wide {s : State} {i : Issuer} (hi : s.issuer? = some i) (h : Hdr) (f : FmtT) (hb : i.g.handler = false) :
    ∃ F, execBar h f s = s.wideOp h f.imm.toNat [.set, .team] F := by
  simp only [execBar, hi, hb, Bool.false_eq_true, if_false]
  exact ⟨_, rfl⟩

section

variable {ins : Instr} {h : Hdr} {legal : List Scope} {s : State} {i : Issuer}

/-- An instruction that names a set is performed at its scope on that set (R225, R227). -/
theorem exec_wide {n : Nat} (hsc : scopesOf ins = some (h, legal)) (hn : setNoOf ins = some n) (hi : s.issuer? = some i)
    (hb : barred ins i = false) : ∃ F, exec ins s = s.wideOp h n legal F := by
  cases ins with
  | smov _ _ _ | scmp _ _ | ssel _ _ _ =>
    cases hsc; cases hn
    unfold exec
    exact State.scalar_wide ..
  | sadd _ _ | ssub _ _ | smul _ _ _ | smad _ _ | sdiv _ _ | srem _ _ | slop _ _ _ | sshf _ _ _ | smin _ _ | smax _ _ | sbit _ _ _ =>
    cases hsc; cases hn
    unfold exec
    exact State.scalarInt_wide ..
  | sfop _ _ _ | sget _ _ _ | sset _ _ _ | mop _ _ _ | shfl _ _ _ | bcast _ _ | xvote _ _ _ | xred _ _ _ | xscan _ _ _ _ | xmov _ _
  | mma _ _ | gnew _ _ =>
    cases hsc; cases hn
    unfold exec
    exact ⟨_, rfl⟩
  | bar _ _ =>
    cases hsc; cases hn
    exact execBar_wide hi _ _ hb
  | _ => cases hn

/-- An instruction outside the scopes that the opcode map allows is refused (R225, R226). -/
theorem exec_refuses (hsc : scopesOf ins = some (h, legal)) (hi : s.issuer? = some i) (hb : barred ins i = false) (hs : h.scp ∉ legal) :
    exec ins s = s.scopeTrap i h cIllegalScope := by
  cases ins with
  | bra _ _ | bcc _ _ _ | bmz _ _ | bmnz _ _ | exit _ | yield _ | bkpt _ | trap _ _ | rte _
  | iadd _ _ | isub _ _ | imul _ _ _ | imad _ _ | imin _ _ | imax _ _ | iabs _ _ | ineg _ _ | lop _ _ _ | shf _ _ _ | icmp _ _ _ | sel _ _
  | ibit _ _ _ | bfx _ _ _ | lea _ _ | idiv _ _ _ | idot _ _
  | fadd _ _ | fsub _ _ | fmul _ _ | fma _ _ | fms _ _ | fnma _ _ | fnms _ _ | fmin _ _ | fmax _ _ | fsgn _ _ _ | fcmp _ _ _ | fclass _ _
  | fdiv _ _ | fsqrt _ _ | frcp _ _ | frsq _ _ | fexp2 _ _ | flog2 _ _ | fscale _ _ | frnd _ _ | cvtf _ _ _ | cvti _ _ _ | cvtn _ _ _
  | cvtl _ _ _ | unpk _ _ _ | ld _ _ | st _ _ | lds _ _ | sts _ _ | ldl _ _ | stl _ _ | pld _ _ _ | cmaint _ _ _ | sleep _ _ =>
    cases hsc
    unfold exec
    exact State.lane_refuses hi _ hs
  | mov _ _ =>
    cases hsc
    exact execMov_refuses hi _ hs
  | pack _ src _ =>
    cases hsc
    exact execPack_refuses hi src _ hs
  | regang _ =>
    cases hsc
    exact execRegang_refuses hi hs
  | bind _ _ | call _ _ | calli _ _ | ret _ | enter _ _ | leave _ =>
    cases hsc
    unfold exec
    exact State.uniform_refuses hi _ hs
  | confl _ _ | cmprs _ _ | expnd _ _ | ldu _ _ | stu _ _ | stash _ _ _ | copy _ _ _ _ _ | gather _ _ | scatter _ _ _
  | abinit _ _ | abarr _ _ | abwait _ _ | abexp _ _ | abtest _ _ | wpop _ _ _ | tdef _ _ _ _ | tldr _ _ | tstr _ _
  | tget _ _ _ | tmul _ _ | accrd _ _ _ | accwr _ _ _ | accz _ _ | accrel _ _ | mbatch _ _ | mwait _ _
  | cturn _ _ _ _ | tmv _ _ | tadd _ _ | tscl _ _ | trnd _ _ _ | tdense _ _ | tzero _ _ | tnorm _ _ | tpool _ _ _
  | tfree _ _ | ttrn _ _ | gjoin _ _ | gleave _ _ | gbar _ _ | gvote _ _ _ | gred _ _ _ | greset _ _ | ginfo _ _
  | qpush _ _ _ | qpop _ _ _ | xput _ _ | xget _ _ | trigarm _ _ | trigcnt _ _ | trigdis _ _ | launch _ _ | cjoin _ _
  | spanmap _ _ | spanst _ _ | labort _ _ | trq _ _ _ | perf _ _ _ =>
    cases hsc
    unfold exec
    exact State.gangOp_refuses hi _ hs
  | fence _ _ | wapp _ _ =>
    cases hsc
    unfold exec
    exact State.laneOrGang_refuses hi _ _ hs
  | atom _ _ _ _ | acas _ _ _ | mred _ _ _ _ | atoms _ _ _ _ | acass _ _ _ =>
    cases hsc
    unfold exec
    exact State.atomicOp_refuses hi _ _ _ _ _ hs
  | setdecl _ _ | qdef _ _ | coll _ _ _ _ =>
    cases hsc
    unfold exec
    exact State.wideOp_refuses hi _ _ hs
  | smov _ _ _ | sadd _ _ | ssub _ _ | smul _ _ _ | smad _ _ | sdiv _ _ | srem _ _ | slop _ _ _ | sshf _ _ _ | scmp _ _ | ssel _ _ _
  | smin _ _ | smax _ _ | sbit _ _ _ | sfop _ _ _ | sget _ _ _ | sset _ _ _ | mop _ _ _ | shfl _ _ _ | bcast _ _ | xvote _ _ _
  | xred _ _ _ | xscan _ _ _ _ | xmov _ _ | mma _ _ | gnew _ _ | bar _ _ =>
    obtain ⟨F, hF⟩ := exec_wide hsc rfl hi hb
    exact hF.trans (State.wideOp_refuses hi _ F hs)
  | _ => cases hsc

end

/-- Settles O53: every form of instruction raises illegal-scope outside the scopes that the opcode map gives it. -/
theorem illegalScopesTrap : Obligations.IllegalScopesTrap := by
  unfold Obligations.IllegalScopesTrap
  intro ins h legal s i hsc hi hb hs
  exact trapsAtScope_of_scopeTrap (exec_refuses hsc hi hb hs)

/-- Settles O54: an instruction that names a set looks at its members before it meets anyone, and an undeclared set has none. -/
theorem setMembershipIsChecked : Obligations.SetMembershipIsChecked := by
  unfold Obligations.SetMembershipIsChecked
  intro ins h legal n s i hsc hn hs hl hi hb hout
  obtain ⟨F, hF⟩ := exec_wide hsc hn hi hb
  have hm : bitAt (i.tm.sets.getD n {}).mask i.unit.gang = false := by
    rcases hout with hzero | hbit
    · rw [hzero]
      simp [bitAt]
    · exact hbit
  exact trapsAtScope_of_scopeTrap (hF.trans (State.wideOp_nonmember hi F hs hl hm))

end Sys2Proof.Machine
end

section
/-! SUPPORT. `REGANG`, `EXIT` and `YIELD` (R23, R25, R198, R243): what each leaves of the gang that issues it, and the statements
about them. -/

namespace Sys2Proof.Machine

open Sys2Proof

-- what they leave of a gang

/-- Counting an issue looks at no slice. -/
theorem Gang.modSlices_countIssue (g : Gang) (l r : List Nat) (f : Slice → Slice) :
    (g.countIssue l).modSlices r f = (g.modSlices r f).countIssue l := by
  induction r generalizing g with
  | nil => rfl
  | cons k r ih => exact ih (g.modSlice k f)

/-- Changing slices keeps what may differ where only issue counts and slices do. -/
theorem Gang.SameButIssue.modSlices {g g' : Gang} (h : g.SameButIssue g') (l : List Nat) (f : Slice → Slice) : g.SameButIssue (g'.modSlices l f) := by
  unfold Gang.SameButIssue at h ⊢
  rw [Gang.modSlices_only]
  generalize (g'.modSlices l f).slices = x
  rw [h]

/-- The gang that is left when some slices have gone for good (R25). -/
def Gang.exited (g : Gang) (l : List Nat) : Gang := (g.countIssue l).modSlices l (fun x => { x with live := false, wait := .ready })

/-- The gang of which some slices have stopped behind a `YIELD` for the save (R198). -/
def Gang.yielded (g : Gang) (l : List Nat) : Gang := (g.pass l).modSlices l (fun x => { x with wait := .yielded })

section

variable {g : Gang} {l : List Nat} (hn : l.Nodup) (hl : ∀ k ∈ l, (g.slice k).live = true)
include hn hl

/-- Slices that exit are counted, and nothing else of the gang changes. -/
theorem Gang.exited_spec :
    (∀ k ∈ l, (g.exited l).slice k = { g.slice k with live := false, wait := .ready }) ∧ (∀ k, k ∉ l → (g.exited l).slice k = g.slice k) ∧
    g.Counted (g.exited l) l ∧ g.SameButIssue (g.exited l) := by
  rw [Gang.exited, Gang.modSlices_countIssue]
  exact Gang.advance _ hn hl

/-- Slices that yield stand at the following slot and wait. -/
theorem Gang.yielded_spec :
    (∀ k ∈ l, (g.yielded l).slice k = { g.slice k with pc := nextSlot (g.slice k).pc, wait := .yielded }) ∧
    (∀ k, k ∉ l → (g.yielded l).slice k = g.slice k) ∧ g.Counted (g.yielded l) l ∧ g.SameButIssue (g.yielded l) := by
  obtain ⟨⟨hgone, hkept⟩, hcounted, hsame⟩ := Gang.wentOn_pass hn hl
  refine ⟨fun k hk => ?_, fun k hk => ?_, ?_, ?_⟩
  · have hlive : ((g.pass l).slice k).live = true := by rw [hgone k hk]; exact hl k hk
    rw [Gang.yielded, Gang.slice_modSlices_mem _ _ hk hn (Gang.live_lt _ hlive), hgone k hk]
  · rw [Gang.yielded, Gang.slice_modSlices_other _ _ hk, hkept k hk]
  · simpa [Gang.Counted, Gang.yielded] using hcounted
  · exact hsame.modSlices l _

end

-- REGANG (R23, R243)

/-- The one gang of a `REGANG`. -/
theorem passWide_regang (s : State) (t : Team) (i : Issuer) (hd : Option Hdr) (f : Gang → Gang) :
    s.passWide (t.performers i .regang hd) f =
      s.modGang i.unit.team i.unit.gang (fun g => (f g).pass (t.gang i.unit.gang).liveSlices) := rfl

/-- A ganged gang passes `REGANG`. -/
theorem regang_ganged {h : Hdr} {s : State} {i : Issuer} (hi : s.Issues i) (hs : h.scp = .lane) (hg : i.g.ganged = true) :
    Performs (.regang h) s i.performer (s.withGang i (i.g.pass i.slices)) := by
  change execRegang h s = _
  simp only [execRegang, hi.1, hs, bne_self_eq_false, Bool.false_eq_true, if_false, hg, if_true, settle_ok, State.passUnit, State.modGang_withGang hi.1]
  rfl

/-- The last slice of a parted gang to arrive performs `REGANG` for all of them. -/
theorem regang_meets {h : Hdr} {s s' : State} {i : Issuer} {t : Team} (hi : s.Issues i) (hs : h.scp = .lane) (hg : i.g.ganged = false)
    (hm : s.Meets i .regang s' t) : PerformsIn (.regang h) s s' (t.performers i .regang)
      (s'.modGang i.unit.team i.unit.gang (fun g => ({ g with ganged := true } : Gang).pass (t.gang i.unit.gang).liveSlices)) := by
  change execRegang h s = _
  simp only [execRegang, hi.1, hs, bne_self_eq_false, Bool.false_eq_true, if_false, hg, rendezvous_meets hm, settle_ok, passWide_regang]
  rfl

/-- Settles O18: a ganged gang passes; the slices that have met pass together in a gang that is ganged again. -/
theorem regangCompletes : Obligations.RegangCompletes := by
  unfold Obligations.RegangCompletes
  intro h s i hi hs
  constructor
  · intro hg
    exact ⟨_, regang_ganged hi hs hg, Gang.wentOn_pass hi.2.apart (fun k hk => (hi.2.slice k hk).2)⟩
  · intro s' t hg hm
    obtain ⟨hteam, -, hgangs⟩ := meets_met hm
    obtain ⟨hlt, hnodup, hlive⟩ := hgangs (i.unit.gang, (t.gang i.unit.gang).liveSlices) (by simp [Team.performers, Team.cover])
    have hafter : (s'.modGang i.unit.team i.unit.gang (fun g => ({ g with ganged := true } : Gang).pass (t.gang i.unit.gang).liveSlices)).gang
        i.unit.team i.unit.gang = ({ t.gang i.unit.gang with ganged := true } : Gang).pass (t.gang i.unit.gang).liveSlices := by
      rw [State.gang_modGang_same _ hteam hlt]
      simp only [State.gang, hteam]
    obtain ⟨hwent, -, hsame⟩ := Gang.wentOn_pass (g := { t.gang i.unit.gang with ganged := true }) hnodup (fun k hk => (hlive k hk).2)
    refine ⟨_, regang_meets hi hs hg hm, State.onlyGangs_modGang .., ?_⟩
    rw [hafter]
    exact ⟨Gang.pass_ganged _ _, hwent, hsame⟩

-- EXIT and YIELD (R25, R198, R243)

/-- `EXIT` outside handler state: a gang with no live slice left retires (R25). -/
theorem exit_performs {h : Hdr} {s : State} {i : Issuer} (hi : s.Issues i) (hs : h.scp = .lane) (hh : i.g.handler = false) :
    Performs (.exit h) s i.performer (if (i.g.exited i.slices).isLive then s.withGang i (i.g.exited i.slices)
      else (s.withGang i (i.g.exited i.slices)).gangRetired i.tm.ctx i.unit.team i.unit.gang) := by
  refine unit_completes (fun _ => rfl) hi hs ?_
  obtain ⟨hteam, -, -⟩ := Issuer.eq hi.1
  have hafter : (s.withGang i (i.g.exited i.slices)).gang i.unit.team i.unit.gang = i.g.exited i.slices :=
    State.gang_modGang_same _ hteam hi.2.gang
  have hchange : s.modGang i.unit.team i.unit.gang (fun g => (g.countIssue i.slices).modSlices i.slices (fun x => { x with live := false, wait := .ready })) =
      s.withGang i (i.g.exited i.slices) := State.modGang_withGang hi.1 _
  simp only [hh, trap_ok, ok_bind, hchange, hafter]
  exact (apply_ite Except.ok _ _ _).symm

/-- `YIELD` without a pending preemption request, or in handler state, is an ordering event (R198). -/
theorem yield_orders {h : Hdr} {s : State} {i : Issuer} (hi : s.Issues i) (hs : h.scp = .lane) (hq : i.tm.prq = false ∨ i.g.handler = true) :
    Performs (.yield h) s i.performer ((s.withGang i (i.g.pass i.slices)).dropL1 i.tm.core) := by
  refine unit_completes (fun _ => rfl) hi hs ?_
  have hstay : (i.tm.prq && !i.g.handler) = false := by rcases hq with hq | hq <;> simp [hq]
  simp only [hstay, Bool.false_eq_true, if_false, State.passUnit, State.modGang_withGang hi.1]

/-- `YIELD` with a pending preemption request stops its slices for the save (R198). -/
theorem yield_stops {h : Hdr} {s : State} {i : Issuer} (hi : s.Issues i) (hs : h.scp = .lane) (hq : i.tm.prq = true) (hh : i.g.handler = false) :
    Performs (.yield h) s i.performer (s.withGang i (i.g.yielded i.slices)) := by
  refine unit_completes (fun _ => rfl) hi hs ?_
  simp only [hq, hh, Bool.not_false, Bool.and_self, if_true, State.modGang_withGang hi.1]
  rfl

/-- Settles O19: the slices that exit are dead, and a gang left without any retires; the slices that yield go on or wait. -/
theorem exitAndYieldComplete : Obligations.ExitAndYieldComplete := by
  unfold Obligations.ExitAndYieldComplete
  intro h s i hi hs
  have hlive : ∀ k ∈ i.slices, (i.g.slice k).live = true := fun k hk => (hi.2.slice k hk).2
  refine ⟨fun hh => ⟨_, ?_, Gang.exited_spec hi.2.apart hlive⟩, fun hq => ⟨_, yield_orders hi hs hq, Gang.wentOn_pass hi.2.apart hlive⟩,
    fun hq hh => ⟨_, yield_stops hi hs hq hh, Gang.yielded_spec hi.2.apart hlive⟩⟩
  have hx := exit_performs hi hs hh
  split
  · next hany => rwa [if_pos hany] at hx
  · next hnone => rwa [if_neg hnone] at hx

end Sys2Proof.Machine
end

section
/-! SUPPORT. `SETDECL` (R33, R276): the set that it declares or undeclares, and the statement about it. -/

namespace Sys2Proof.Machine

open Sys2Proof

/-- The set of a team that a mask and a base declare, or that a mask of 0 undeclares (R33, R276). -/
def State.declareSet (s : State) (team n mask base : Nat) : State :=
  s.modTeam team (fun t => { t with sets := t.sets.set n (if mask = 0 then {} else { mask := mask, base := base }) })

/-- Declaring a set leaves the gangs that met as they were. -/
theorem Met.declareSet_found {s : State} {w : Wide} (hm : Met s w) (n mask base : Nat) :
    ∃ t, (s.declareSet w.p.team n mask base).team? w.p.team = some t ∧ t.gangs = w.tm.gangs :=
  ⟨{ w.tm with sets := w.tm.sets.set n (if mask = 0 then {} else { mask := mask, base := base }) },
    by rw [State.declareSet, State.team_modTeam_same, hm.found, Option.map_some], rfl⟩

/-- Every gang that met goes on in a state that still holds those gangs. -/
theorem Met.passAll_wentOn {s u : State} {w : Wide} {t : Team} (hm : Met s w) (hu : u.team? w.p.team = some t) (hgangs : t.gangs = w.tm.gangs) :
    ∀ q ∈ w.p.gangs, (w.tm.gang q.1).WentOn ((u.passAll w.p).gang w.p.team q.1) q.2 (fun k => nextSlot ((w.tm.gang q.1).slice k).pc) := by
  intro q hq
  have hgang : u.gang w.p.team q.1 = w.tm.gang q.1 := by simp only [State.gang, hu, Team.gang, hgangs]
  rw [passAll_eq, State.gang_modEach hu hm.once (fun x hx => hgangs ▸ hm.exist x hx) hq, hgang]
  obtain ⟨hnodup, hlive⟩ := hm.live q hq
  exact Gang.wentOn_pass hnodup (fun k hk => (hlive k hk).2)

/-- `SETDECL` with legal operands, a mask of gangs that exist and a base within the registers declares its set (R276). -/
theorem setdecl_performs {h : Hdr} {f : FmtT} {s s' : State} {i : Issuer} {w : Wide} (hi : s.Issues i) (hs : h.scp = .team)
    (hw : s.Starts i h 0 s' w) (ha : sSrcOk f.a = true) (hb : natSrcOk f.b = true)
    (hmask : (w.rep.rdScalar f.a).toNat % 2 ^ 32 < 2 ^ w.tm.gangs.length) (hbase : (w.rep.rdScalar f.b).toNat < w.tm.nregs) :
    PerformsIn (.setdecl h f) s s' w.p
      ((s'.declareSet w.p.team (f.imm.toNat % 8) ((w.rep.rdScalar f.a).toNat % 2 ^ 32) (w.rep.rdScalar f.b).toNat).passAll w.p) := by
  change execSetdecl h f s = _
  rw [execSetdecl, wideOp_starts hi.1 (by rw [hs]; rfl) hw]
  simp only [ha, hb, Bool.not_true, Bool.or_self, ill_ok, ok_bind, decide_eq_false (Nat.not_le.mpr hmask), decide_eq_false (Nat.not_le.mpr hbase), settle_ok]
  rfl

/-- Settles O15: the set is declared in the team, and then each gang that met passes. -/
theorem setDeclarationCompletes : Obligations.SetDeclarationCompletes := by
  unfold Obligations.SetDeclarationCompletes
  intro h f s i s' w hi hs hw ha hb mask base hmask hbase
  have hm : Met s' w := Starts.met hi hw
  obtain ⟨t, ht, hgangs⟩ := hm.declareSet_found (f.imm.toNat % 8) mask base
  exact ⟨_, setdecl_performs hi hs hw ha hb hmask hbase, State.onlyGangs_modEach .., hm.passAll_wentOn ht hgangs⟩

end Sys2Proof.Machine
end

section
/-! SUPPORT. Work lists (R43 to R46, R296, R297, R411): what an append and a pop that meet their checks leave, and the statement about
them, about landings and about quiescence. -/

namespace Sys2Proof.Machine

open Sys2Proof

-- appends (R43, R296)

/-- The items of an append: one of the gang at GANG scope, when a lane is active, else one of each active lane (R296). -/
def Issuer.appendItems (i : Issuer) (h : Hdr) (f : FmtT) : List (Nat × W64) :=
  (if h.scp = .gang then (if i.active h = [] then [] else [0]) else i.active h).map (i.g.appendItem f)

/-- The state in which some items of a unit are in flight (R43). -/
def State.putInFlight (s : State) (i : Issuer) (items : List (Nat × W64)) : State :=
  ({ s with nextId := s.nextId + 1 } : State).modCtx i.tm.ctx (fun c =>
    { c with inflight := Tab.put c.inflight s.nextId { team := i.unit.team, gang := i.unit.gang, items := items } })

/-- What an append of some items leaves: the unit goes on, or waits where a list is full until they have landed (R296). -/
def State.appended (s : State) (i : Issuer) (items : List (Nat × W64)) : State :=
  if items = [] then s.passUnit i
  else if (s.ctx i.tm.ctx).listFull items then (s.putInFlight i items).waitAll i.performer (.append s.nextId)
  else (s.putInFlight i items).passUnit i

theorem State.appended_none {s : State} {i : Issuer} {items : List (Nat × W64)} (h : items = []) : s.appended i items = s.passUnit i := if_pos h

theorem State.appended_some {s : State} {i : Issuer} {items : List (Nat × W64)} (h : items ≠ []) :
    s.appended i items = if (s.ctx i.tm.ctx).listFull items then (s.putInFlight i items).waitAll i.performer (.append s.nextId)
      else (s.putInFlight i items).passUnit i := if_neg h

/-- Lists that stand on online wings stall nobody (R411). -/
theorem State.listStall_ok {s : State} {ctx : Nat} {lists : List Nat} (h : ∀ l ∈ lists, s.listMoves ctx l = false) : s.listStall ctx lists = .ok () := by
  unfold State.listStall
  rw [if_neg]
  simpa using h

/-- The checks of an append (R296): its operands and lists, no list on the move, and no isolated task. -/
structure AppendChecks (s : State) (i : Issuer) (h : Hdr) (f : FmtT) : Prop where
  operands : appendOk i.tm.nregs (h.scp == .gang) f = true
  lists    : ∀ q ∈ i.appendItems h f, q.1 < 1024 ∧ s.listMoves i.tm.ctx q.1 = false
  shared   : s.isolated i.tm.launch = false

/-- An append that passes its checks. -/
theorem State.append_passes {s : State} {i : Issuer} {h : Hdr} {f : FmtT} (hc : AppendChecks s i h f) :
    s.append i h f = .ok (s.appended i (i.appendItems h f)) := by
  obtain ⟨hop, hlists, hshared⟩ := hc
  have hitems : ((if (h.scp == Scope.gang) = true then (if i.active h = [] then [] else [0]) else i.active h).map (i.g.appendItem f)) = i.appendItems h f := by
    simp only [Issuer.appendItems, beq_iff_eq]
  have hnumbers : (i.appendItems h f).any (fun q => decide (1024 ≤ q.1)) = false := by
    simp only [List.any_eq_false, decide_eq_true_eq, Nat.not_le]
    exact fun q hq => (hlists q hq).1
  have hstall : s.listStall i.tm.ctx ((i.appendItems h f).map (·.1)) = .ok () := by
    refine State.listStall_ok (fun l hl => ?_)
    obtain ⟨q, hq, rfl⟩ := List.mem_map.mp hl
    exact (hlists q hq).2
  unfold State.append
  simp only [hop, hitems, hnumbers, hshared, hstall, ill_ok, trap_ok, ok_bind, Bool.not_true]
  unfold State.appended
  split
  · rfl
  · rfl

/-- `WAPP` at LANE scope completes for the unit that issues it. -/
theorem wapp_unit_completes (h : Hdr) (f : FmtT) :
    UnitCompletes (.wapp h f) h (fun s i => AppendChecks s i h f) (fun s i t => t = s.appended i (i.appendItems h f)) := by
  intro s i hi hs hc
  refine ⟨_, ?_, rfl⟩
  change execWapp h f s = _
  unfold execWapp
  rw [hs]
  exact lane_ok hi.1 hs _ (State.append_passes hc)

/-- `WAPP` at GANG scope completes for the whole gang. -/
theorem wapp_gang_completes (h : Hdr) (f : FmtT) :
    GangCompletes (.wapp h f) h (fun s i => AppendChecks s i h f) (fun s i t => t = s.appended i (i.appendItems h f)) := by
  intro s i s' i' hi hs hg hc
  refine ⟨_, ?_, rfl⟩
  change execWapp h f s = _
  unfold execWapp
  rw [hs]
  change s.gangWide h _ = _
  rw [gangWide_starts hi.1 hg, State.append_passes hc]
  rfl

-- pops (R44, R45, R297)

/-- What a pop of list `l` leaves (R44, R45, R297): the steal form takes the newest item; the other form takes the oldest, or waits
for one, and its gang is the list's home consumer. -/
def State.popped (s : State) (i : Issuer) (steal : Bool) (d l : Nat) : State :=
  let me := some (i.unit.team, i.unit.gang)
  let w := s.wlist i.tm.ctx l
  if steal then
    match w.items.reverse with
    | [] => s.passWith i (wpopResult d 0 true false)
    | x :: r => ((s.modWlist i.tm.ctx l (fun w => { w with items := r.reverse })).passWith i (wpopResult d x false false)).dropL1 i.tm.core
  else
    match w.items with
    | x :: r => ((s.modWlist i.tm.ctx l (fun w => { w with items := r, home := me })).passWith i (wpopResult d x false false)).dropL1 i.tm.core
    | [] => (s.modWlist i.tm.ctx l (fun w => { w with home := me, waiting := some d })).waitAll i.performer (.list l)

section

variable {s : State} {i : Issuer} {d l : Nat}

theorem State.popped_steal_empty (h : (s.wlist i.tm.ctx l).items = []) : s.popped i true d l = s.passWith i (wpopResult d 0 true false) := by
  simp [State.popped, h]

theorem State.popped_steal {r : List W64} {x : W64} (h : (s.wlist i.tm.ctx l).items = r ++ [x]) :
    s.popped i true d l = ((s.modWlist i.tm.ctx l (fun w => { w with items := r })).passWith i (wpopResult d x false false)).dropL1 i.tm.core := by
  simp [State.popped, h]

theorem State.popped_oldest {r : List W64} {x : W64} (h : (s.wlist i.tm.ctx l).items = x :: r) :
    s.popped i false d l = ((s.modWlist i.tm.ctx l (fun w => { w with items := r, home := some (i.unit.team, i.unit.gang) })).passWith i
      (wpopResult d x false false)).dropL1 i.tm.core := by
  simp [State.popped, h]

theorem State.popped_waits (h : (s.wlist i.tm.ctx l).items = []) :
    s.popped i false d l = (s.modWlist i.tm.ctx l (fun w => { w with home := some (i.unit.team, i.unit.gang), waiting := some d })).waitAll
      i.performer (.list l) := by
  simp [State.popped, h]

end

/-- The checks of a pop of list `l` (R44, R45, R297): the steal form is not for the home consumer, the other form for no other gang
where there is one. -/
structure PopChecks (s : State) (i : Issuer) (steal : Bool) (f : FmtT) (l : Nat) : Prop where
  dest   : sOk f.d = true
  source : sSrcOk f.a = true
  list   : l = i.g.listNumber f.a 0
  number : l < 1024
  shared : s.isolated i.tm.launch = false
  stays  : s.listMoves i.tm.ctx l = false
  home   : if steal then (s.wlist i.tm.ctx l).home ≠ some (i.unit.team, i.unit.gang)
    else (s.wlist i.tm.ctx l).home = none ∨ (s.wlist i.tm.ctx l).home = some (i.unit.team, i.unit.gang)

/-- A pop that passes its checks completes. -/
theorem wpop_completes (h : Hdr) (steal : Bool) (f : FmtT) (l : Nat) :
    GangCompletes (.wpop h steal f) h (fun s i => PopChecks s i steal f l) (fun s i t => t = s.popped i steal (sIdx f.d) l) := by
  refine gang_completes (fun _ => rfl) (fun _ s _ i _ _ hc => ⟨_, ?_, rfl⟩)
  obtain ⟨hd, ha, rfl, hnumber, hshared, hstays, hhome⟩ := hc
  have hstall : s.listStall i.tm.ctx [i.g.listNumber f.a 0] = .ok () := State.listStall_ok (by simpa using hstays)
  simp only [hd, ha, hshared, decide_eq_false (Nat.not_le.mpr hnumber), hstall, ill_ok, trap_ok, ok_bind, Bool.not_true, Bool.or_self]
  cases steal with
  | true =>
    have hother : ((s.wlist i.tm.ctx (i.g.listNumber f.a 0)).home == some (i.unit.team, i.unit.gang)) = false := by simpa using hhome
    simp only [hother, ill_ok, ok_bind, State.popped, if_true]
    cases (s.wlist i.tm.ctx (i.g.listNumber f.a 0)).items.reverse with
    | nil => rfl
    | cons x r => rfl
  | false =>
    have hmine : ((s.wlist i.tm.ctx (i.g.listNumber f.a 0)).home.isSome &&
        (s.wlist i.tm.ctx (i.g.listNumber f.a 0)).home != some (i.unit.team, i.unit.gang)) = false := by
      rcases (show _ ∨ _ from hhome) with e | e <;> simp [e]
    simp only [hmine, ill_ok, ok_bind, State.popped, Bool.false_eq_true, if_false]
    cases (s.wlist i.tm.ctx (i.g.listNumber f.a 0)).items with
    | nil => rfl
    | cons x r => rfl

-- landings and quiescence (R43, R46)

/-- The next item of an append lands in a list with room that is not moved, and the last one ends it (R43, R44). -/
theorem wappLand_lands {s : State} {ctx idx l : Nat} {x : W64} {r : List (Nat × W64)} {a : Append} (ha : Tab.find? (s.ctx ctx).inflight idx = some a)
    (hitems : a.items = (l, x) :: r) (hroom : (s.wlist ctx l).items.length < (s.ctx ctx).wlcap) (hstays : s.listMoves ctx l = false) :
    let u := if (s.wlist ctx l).waiting.isSome then s.wpopDone ctx l x false false else s.modWlist ctx l (fun w => { w with items := w.items ++ [x] })
    exec (.wappLand ctx idx) s = .next (if r = [] then (u.modCtx ctx (fun c => { c with inflight := Tab.del c.inflight idx })).appendDone a idx
      else u.modCtx ctx (fun c => { c with inflight := Tab.modify c.inflight idx (fun a => { a with items := r }) })) := by
  intro u
  change execWappLand ctx idx s = _
  simp only [execWappLand, ha, hitems, hstays, decide_eq_false (Nat.not_le.mpr hroom), Bool.or_self, Bool.false_eq_true, if_false]
  rfl

/-- Settles O36: an append and a pop that pass their checks, a landing, and the pops of a quiescent context. -/
theorem workListsComplete : Obligations.WorkListsComplete := by
  unfold Obligations.WorkListsComplete
  intro h f steal items ok eff
  have hok : ∀ s i, ok s i → AppendChecks s i h f := fun s i hc => ⟨hc.1, hc.2.1, hc.2.2⟩
  have heff : ∀ s i, eff s i (s.appended i (i.appendItems h f)) := fun s i => ⟨State.appended_none, State.appended_some⟩
  refine ⟨fun s i hi hs hc => ?_, (wapp_gang_completes h f).mono hok (fun s i t ht => ht ▸ heff s i), fun l => (wpop_completes h steal f l).mono ?_ ?_,
    fun s ctx idx l x r a => wappLand_lands, fun s ctx hq => if_pos hq⟩
  · obtain ⟨t, hp, ht⟩ := wapp_unit_completes h f s i hi hs (hok s i hc)
    exact ⟨t, hp, ht ▸ heff s i⟩
  · rintro s i ⟨hd, ha, hl, hn, hshared, hstays, hhome⟩
    exact ⟨hd, ha, hl, hn, hshared, hstays, hhome⟩
  · rintro s i t rfl
    refine ⟨?_, fun r x => ?_, fun x r => ?_, ?_⟩
    · rintro rfl; exact State.popped_steal_empty
    · rintro rfl; exact State.popped_steal
    · rintro rfl; exact State.popped_oldest
    · rintro rfl; exact State.popped_waits

end Sys2Proof.Machine
end

section
/-! SUPPORT. `LAUNCH`, `CJOIN`, `LABORT`, `TRQ` and `PERF` (R38, R39, R190, R191, R255, R256, R348 to R351): what each leaves when its
checks pass, and the statement about them. -/

namespace Sys2Proof.Machine

open Sys2Proof

-- LAUNCH (R38, R39, R348, R349)

/-- The eight words of the launch record that A names (R348). -/
def Issuer.recordWords (i : Issuer) (a : Operand) : List LaneAcc :=
  (List.range 8).map (fun k => ({ lane := k, va := (i.g.rdS (sIdx a)).toNat + 8 * k, n := 8 } : LaneAcc))

/-- The launch record that eight loaded words make. -/
def recordOf (vals : List (Nat × Nat)) : LaunchRec := recOf (vals.flatMap (fun p => leBytes 8 p.2))

/-- What a `LAUNCH` of a record leaves (R349): a grid of the launch with the next number, counted with its parent while it runs, and the
number in sD; entry addresses that fail R212 are a context error. -/
def State.launched (u : State) (i : Issuer) (f : FmtT) (L : Launch) (parent : Grid) (x : LaunchRec) : State :=
  let n := L.grids.length
  let w := u.noteSets i.tm.ctx x
  let c := w.childGrid i L parent x
  let v := ((w.modLaunch i.tm.launch (fun L =>
    { L with grids := Tab.modify (Tab.put L.grids n c.1) i.tm.grid (fun p => if c.1.done then p else { p with kids := p.kids + 1 }) })).modTeam
      i.unit.team (fun t => { t with kids := t.kids ++ [n] })).passWith i (fun g => g.wrS (sIdx f.d) (BitVec.ofNat 64 n))
  if c.2 then v.contextError i.tm.launch else v

/-- The checks of a `LAUNCH` (R348, R349), in which its launch, its own grid and the words of the record are found. -/
structure LaunchChecks (s : State) (i : Issuer) (f : FmtT) (L : Launch) (parent : Grid) (vals : List (Nat × Nat)) (u : State) : Prop where
  dest   : sOk f.d = true
  source : sOk f.a = true
  align  : (i.g.rdS (sIdx f.a)).toNat % 64 = 0
  range  : (i.g.rdS (sIdx f.a)).toNat + 64 ≤ 2 ^ 56
  launch : s.launch? i.tm.launch = some L
  grid   : Tab.find? L.grids i.tm.grid = some parent
  depth  : parent.depth < 12
  room   : (L.grids.filter (fun p => !p.2.done)).length < 65535
  loads  : s.globalLoad i .weak .team (i.recordWords f.a) = .ok (vals, u)
  sets   : u.setsWait i.tm.ctx (recordOf vals) = false

/-- A `LAUNCH` that passes its checks completes. -/
theorem launch_completes (h : Hdr) (f : FmtT) (L : Launch) (parent : Grid) (vals : List (Nat × Nat)) (u : State) :
    GangCompletes (.launch h f) h (fun s i => LaunchChecks s i f L parent vals u) (fun _ i t => t = u.launched i f L parent (recordOf vals)) := by
  refine gang_completes (fun _ => rfl) (fun _ s _ i _ _ hc => ⟨_, ?_, rfl⟩)
  have halign : ((i.g.rdS (sIdx f.a)).toNat % 64 != 0) = false := by simpa using hc.align
  have hloads : s.globalLoad i .weak .team ((List.range 8).map (fun k => ({ lane := k, va := (i.g.rdS (sIdx f.a)).toNat + 8 * k, n := 8 } : LaneAcc))) =
    .ok (vals, u) := hc.loads
  have hsets : u.setsWait i.tm.ctx (recOf (vals.flatMap (fun p => leBytes 8 p.2))) = false := hc.sets
  simp only [hc.dest, hc.source, halign, hc.launch, Option.bind_some, hc.grid, Option.map_some, decide_eq_false (Nat.not_le.mpr hc.depth),
    decide_eq_false (Nat.not_lt.mpr hc.range), if_neg (Nat.not_le.mpr hc.room), hloads, hsets, ill_ok, trap_ok, ok_bind, Bool.not_true, Bool.or_self,
    Bool.false_eq_true, if_false]
  rfl

-- CJOIN (R120, R181, R350)

/-- The children that a `CJOIN` waits for: all of the team's, or the one that A names (R350). -/
def Issuer.joined (i : Issuer) (a : Operand) : List Nat := if (i.g.rdScalar a).toNat = 0 then i.tm.kids else [(i.g.rdScalar a).toNat]

/-- Every one of some grids of a launch has retired. -/
def Launch.Retired (L : Launch) (ns : List Nat) : Prop := ∀ k ∈ ns, ∀ g, Tab.find? L.grids k = some g → g.done = true

/-- Some grid runs on exactly where not every one has retired. -/
theorem Launch.retired_iff (L : Launch) (ns : List Nat) :
    ns.any (fun k => ((Tab.find? L.grids k).map (fun g => !g.done)).getD false) = false ↔ L.Retired ns := by
  rw [List.any_eq_false]
  refine forall₂_congr fun k _ => ?_
  cases Tab.find? L.grids k with
  | none => simp
  | some g => simp

/-- What a `CJOIN` of retired children leaves: their writes are merged, sD has the first nonzero status, and the core's L1 copies
are gone (R120, R181, R350). -/
def State.cjoined (s : State) (i : Issuer) (f : FmtT) (L : Launch) : State :=
  (((i.joined f.a).foldl (fun s k => s.mergeChild i.tm.launch k) s).passWith i
    (fun g => g.wrS (sIdx f.d) ((firstStatus L (i.joined f.a)).setWidth 64))).dropL1 i.tm.core

/-- The checks of a `CJOIN` (R350): a named child is one of the team's. -/
structure JoinChecks (s : State) (i : Issuer) (f : FmtT) (L : Launch) : Prop where
  dest   : sOk f.d = true
  source : natSrcOk f.a = true
  child  : (i.g.rdScalar f.a).toNat = 0 ∨ (i.g.rdScalar f.a).toNat ∈ i.tm.kids
  launch : s.launch? i.tm.launch = some L

/-- A `CJOIN` that passes its checks is performed when its children have retired, and waits until then. -/
theorem execCjoin_eq {h : Hdr} {f : FmtT} {s s' : State} {i i' : Issuer} {L : Launch} (hi : s.Issues i) (hs : h.scp = .gang) (hg : s.GangStarts i s' i')
    (hc : JoinChecks s' i' f L) :
    exec (.cjoin h f) s = s'.settle (i'.performer (some h))
      (if (i'.joined f.a).any (fun k => ((Tab.find? L.grids k).map (fun g => !g.done)).getD false) then .error (.wait (.join (i'.joined f.a)))
        else .ok (s'.cjoined i' f L)) := by
  have hchild : ((i'.g.rdScalar f.a).toNat != 0 && !i'.tm.kids.contains (i'.g.rdScalar f.a).toNat) = false := by
    rcases hc.child with e | e <;> simp [e]
  change execCjoin h f s = _
  rw [execCjoin, gangOp_starts hi.1 hs hg]
  simp only [hc.dest, hc.source, hchild, hc.launch, ill_ok, ok_bind, Bool.not_true, Bool.or_self]
  rfl

/-- A `CJOIN` of retired children is performed. -/
theorem cjoin_performs {h : Hdr} {f : FmtT} {s s' : State} {i i' : Issuer} {L : Launch} (hi : s.Issues i) (hs : h.scp = .gang) (hg : s.GangStarts i s' i')
    (hc : JoinChecks s' i' f L) (hr : L.Retired (i'.joined f.a)) : PerformsIn (.cjoin h f) s s' i'.performer (s'.cjoined i' f L) := by
  unfold PerformsIn
  rw [execCjoin_eq hi hs hg hc, if_neg (by simpa using (L.retired_iff _).mpr hr)]
  rfl

/-- A `CJOIN` of children that run on waits for them. -/
theorem cjoin_waits {h : Hdr} {f : FmtT} {s s' : State} {i i' : Issuer} {L : Launch} (hi : s.Issues i) (hs : h.scp = .gang) (hg : s.GangStarts i s' i')
    (hc : JoinChecks s' i' f L) (hr : ¬ L.Retired (i'.joined f.a)) :
    exec (.cjoin h f) s = .next ((s'.waitAll i'.performer (.join (i'.joined f.a))).trySave i'.unit.team) := by
  rw [← L.retired_iff, Bool.not_eq_false] at hr
  rw [execCjoin_eq hi hs hg hc, if_pos hr]
  rfl

-- LABORT (R190, R191, R351)

/-- A `LABORT` with a code of 16 bits aborts the launch. -/
theorem labort_completes (h : Hdr) (f : FmtT) :
    GangCompletes (.labort h f) h (fun _ i => natSrcOk f.a = true ∧ (i.g.rdScalar f.a).toNat < 2 ^ 16)
      (fun s i t => t = s.abortLaunch i.tm.launch stLabort (BitVec.ofNat 16 (i.g.rdScalar f.a).toNat)) := by
  refine gang_completes (fun _ => rfl) (fun _ _ _ i _ _ hc => ⟨_, ?_, rfl⟩)
  obtain ⟨ha, hcode⟩ := hc
  simp only [ha, decide_eq_false (Nat.not_le.mpr hcode), ill_ok, ok_bind, Bool.not_true]

-- TRQ (R255)

/-- A short immediate that is not negative reads as itself. -/
theorem Gang.rdScalar_imm (g : Gang) {b : BitVec 8} (hb : b.toNat < 128) : (g.rdScalar (.imm b)).toNat = b.toNat := by
  have hval : b.toInt = (b.toNat : Int) := BitVec.toInt_eq_toNat_of_lt (by omega)
  have hlt : b.toNat < 2 ^ 64 := by omega
  simp only [Gang.rdScalar, immVal, hval, BitVec.ofInt_natCast, BitVec.toNat_ofNat, Nat.mod_eq_of_lt hlt]

/-- In handler state `TRQ` reads a word of an entry into sD with Z clear, or 0 with Z set where there is no entry. -/
theorem trqRead_completes (h : Hdr) {f : FmtR} {b : BitVec 8} (hb : f.b = .op (.imm b)) (hword : b.toNat ≤ 4) :
    GangCompletes (.trq h false f) h (fun _ i => i.g.handler = true ∧ sSrcOk f.a = true ∧ sOk f.d = true)
      (fun s i t =>
        (∀ e, i.g.queue[(i.g.rdScalar f.a).toNat]? = some e → GangBecomes (fun _ _ g => (g.wrS (sIdx f.d) (e.word b.toNat)).setCc ccZ false) s i t) ∧
        (i.g.queue[(i.g.rdScalar f.a).toNat]? = none → GangBecomes (fun _ _ g => (g.wrS (sIdx f.d) 0).setCc ccZ true) s i t)) := by
  refine gang_completes (fun _ => rfl) (fun _ s _ i hi hg hc => ?_)
  obtain ⟨hhandler, ha, hd⟩ := hc
  have hk : (i.g.rdScalar (.imm b)).toNat = b.toNat := Gang.rdScalar_imm _ (by omega)
  simp only [hhandler, ha, hd, hb, isImm, hk, decide_eq_false (Nat.not_lt.mpr hword), ill_ok, trap_ok, ok_bind, Bool.not_true, Bool.not_false,
    Bool.or_self, Bool.false_eq_true, if_false]
  cases i.g.queue[(i.g.rdScalar f.a).toNat]? with
  | none =>
    exact ⟨_, rfl, nofun, fun _ => GangStarts.becomes hi hg _⟩
  | some e =>
    refine ⟨_, rfl, fun e' he => ?_, nofun⟩
    cases he
    exact GangStarts.becomes hi hg _

/-- In handler state `TRQ.drop` removes an entry behind the first. -/
theorem trqDrop_completes (h : Hdr) (f : FmtR) :
    GangCompletes (.trq h true f) h
      (fun _ i => i.g.handler = true ∧ sSrcOk f.a = true ∧ 0 < (i.g.rdScalar f.a).toNat ∧ (i.g.rdScalar f.a).toNat < i.g.queue.length)
      (GangBecomes (fun _ i g => { g with queue := g.queue.eraseIdx (i.g.rdScalar f.a).toNat })) := by
  refine gang_completes (fun _ => rfl) (fun _ s _ i hi hg hc => ⟨_, ?_, GangStarts.becomes hi hg _⟩)
  obtain ⟨hhandler, ha, hpos, hlt⟩ := hc
  simp only [hhandler, ha, decide_eq_false (Nat.pos_iff_ne_zero.mp hpos), decide_eq_false (Nat.not_le.mpr hlt), ill_ok, trap_ok, ok_bind,
    Bool.not_true, Bool.false_and, Bool.or_self, if_true]

-- PERF (R256)

/-- `PERF` reads a counter into sD. -/
theorem perf_completes (h : Hdr) (f : FmtR) (c : PerfCtr) :
    GangCompletes (.perf h c f) h (fun _ _ => sOk f.d = true)
      (fun s i t => t = (s.readPerf i c).2.passWith i (fun g => g.wrS (sIdx f.d) (s.readPerf i c).1)) := by
  refine gang_completes (fun _ => rfl) (fun _ _ _ _ _ _ hd => ⟨_, ?_, rfl⟩)
  simp only [hd, Bool.not_true, ill_ok, ok_bind]

/-- Settles O46: each instruction whose checks pass has its effect, and a join waits exactly while one of its children runs. -/
theorem launchesComplete : Obligations.LaunchesComplete := by
  unfold Obligations.LaunchesComplete
  intro h
  refine ⟨fun f L parent vals u => ?_, fun f L => ?_, labort_completes h,
    fun f => ⟨fun b hb hword => trqRead_completes h hb hword, trqDrop_completes h f⟩, fun f c => ?_⟩
  · refine (launch_completes h f L parent vals u).mono ?_ (fun _ _ _ ht => ht)
    rintro s i ⟨hd, ha, halign, hrange, hL, hgrid, hdepth, hroom, hloads, hsets⟩
    exact ⟨hd, ha, halign, hrange, hL, hgrid, hdepth, hroom, hloads, hsets⟩
  · intro n ns retired s i s' i' hi hs hg hd ha hchild hL
    have hc : JoinChecks s' i' f L := ⟨hd, ha, hchild, hL⟩
    exact ⟨cjoin_performs hi hs hg hc, cjoin_waits hi hs hg hc⟩
  · refine (perf_completes h f c).mono (fun _ _ => id) (fun s i t ht => ⟨ht, ?_, ?_⟩)
    · rintro rfl; rfl
    · rintro rfl; rfl

end Sys2Proof.Machine
end

section
/-! SUPPORT. Traps that end the launch (R75, R192, R196): what taking one leaves, a case at a time, and the statement about them. -/

namespace Sys2Proof.Machine

open Sys2Proof

section
variable {s : State} {team gang : Nat} {e : TrapEntry} {t : Team} (slices : List Nat)

/-- Poison aborts the launch, whatever state the gang is in (R196). -/
theorem State.takeTrap_poison (ht : s.team? team = some t) (he : e.cause = cPoison) :
    s.takeTrap team gang slices e = s.abortLaunch t.launch stPoison := by
  rw [State.takeTrap, ht]
  exact if_pos he

/-- Any other trap in handler state is a context error (R196). -/
theorem State.takeTrap_inHandler (ht : s.team? team = some t) (he : e.cause ≠ cPoison) (hh : (t.gang gang).handler = true) :
    s.takeTrap team gang slices e = s.contextError t.launch := by
  rw [State.takeTrap, ht]
  exact (if_neg he).trans (if_pos hh)

/-- A trap that finds eight entries waiting marks the overflow and is a context error (R196). -/
theorem State.takeTrap_queueFull (ht : s.team? team = some t) (he : e.cause ≠ cPoison) (hh : (t.gang gang).handler = false)
    (hq : 8 ≤ (t.gang gang).queue.length) :
    s.takeTrap team gang slices e = (s.modGang team gang Gang.overflowed).contextError t.launch := by
  rw [State.takeTrap, ht]
  exact (if_neg he).trans ((if_neg (by simp [hh])).trans (if_pos (decide_eq_true hq)))

end

/-- Settles O23: poison is looked at first, then handler state, then the room in the queue. -/
theorem trapsThatEndTheLaunch : Obligations.TrapsThatEndTheLaunch := by
  unfold Obligations.TrapsThatEndTheLaunch
  intro s team gang slices e t ht
  exact ⟨State.takeTrap_poison slices ht, State.takeTrap_inHandler slices ht, State.takeTrap_queueFull slices ht⟩

end Sys2Proof.Machine
end

section
/-! SUPPORT. `SSET` (R73, R100, R193, R232, R235, R252): a scoped instruction that makes one change in every gang that performs it,
the value it writes, and the statement about it. -/

namespace Sys2Proof.Machine

open Sys2Proof

/-- A scoped instruction that starts, and whose effect is one change of every performing gang at once, completes. -/
theorem wide_passes {ins : Instr} {h : Hdr} {setNo : Nat} {legal : List Scope} {F : State → Wide → Except Stop State} {s s' : State} {i : Issuer}
    {w : Wide} (hx : exec ins s = s.wideOp h setNo legal F) (hi : s.Issues i) (hl : legal.contains h.scp = true) (hw : s.Starts i h setNo s' w)
    (f : Gang → Gang) (hF : F s' w = .ok (s'.passWide w.p f)) : ∃ t, PerformsIn ins s s' w.p t ∧ s'.WidePassed t w f := by
  refine ⟨s'.passWide w.p f, ?_, (Starts.met hi hw).passWide rfl f⟩
  rw [PerformsIn, hx, wideOp_starts hi.1 hl hw, hF, settle_ok]

/-- A register that may be written but not read outside handler state is TRPC (R193, R235). -/
theorem sregWritable_handler {r : SReg} (hr : sregWritable r = true) (hs : sregHandler r = true) : r = .trpc := by
  cases r with
  | trpc => rfl
  | cc | fpmode | flags | stkptr | stklim => simp [sregHandler] at hs
  | _ => simp [sregWritable] at hr

theorem exec_sset (h : Hdr) (r : SReg) (f : FmtR) (s : State) : exec (.sset h r f) s = execSset h r f s := rfl

section
variable {h : Hdr} {r : SReg} {f : FmtR} {s s' : State} {i : Issuer} {w : Wide} (hi : s.Issues i) (hl : scopesGST.contains h.scp = true)
  (hw : s.Starts i h (f.xt.toNat % 8) s' w)
include hi hl hw

/-- `SSET` of a writable register with a legal scalar value writes it; TRPC in all slices. -/
theorem sset_scalar_passes (hr : sregWritable r = true) (hh : r = .trpc → w.rep.handler = true) (ha : sSrcOk f.a = true)
    (hval : ∀ j ∈ w.gangs, (w.tm.gang j).ssetOk r (s'.gridRec w.tm).stklim (w.rep.rdScalar f.a) = true) :
    ∃ t, PerformsIn (.sset h r f) s s' w.p t ∧ s'.WidePassed t w (fun m =>
      if r = .trpc then m.setTrpc (List.replicate 8 (w.rep.rdScalar f.a)) else m.sset r (w.rep.rdScalar f.a)) := by
  have hreg : (!sregWritable r || (sregHandler r && !w.rep.handler)) = false := by
    cases hs : sregHandler r with
    | false => simp [hr]
    | true => simp [hr, hh (sregWritable_handler hr hs)]
  have hall : w.gangs.all (fun j => (w.tm.gang j).ssetOk r (s'.gridRec w.tm).stklim (w.rep.rdScalar f.a)) = true := List.all_eq_true.mpr hval
  refine wide_passes (exec_sset h _ f s) hi hl hw _ ?_
  simp only [hreg, ha, hall, ill_ok, ok_bind, Bool.or_true, Bool.not_true]
  cases hfa : f.a with
  | s k => rfl
  | imm k => rfl
  | _ => simp [hfa, sSrcOk] at ha

/-- `SSET` of TRPC from a v pair writes each slice's address from its first lane. -/
theorem sset_pair_passes {k : BitVec 8} (ha : f.a = .v k) (hr : r = .trpc) (hh : w.rep.handler = true) (hpair : laneSrcOk w.tm.nregs true f.a = true) :
    ∃ t, PerformsIn (.sset h r f) s s' w.p t ∧
      s'.WidePassed t w (fun m => m.setTrpc ((List.range 8).map (fun n => m.rdV2 k.toNat (4 * n)))) := by
  subst hr
  refine wide_passes (exec_sset h _ f s) hi hl hw _ ?_
  rw [ha] at hpair
  have hall : ∀ n x, w.gangs.all (fun j => (w.tm.gang j).ssetOk .trpc n x) = true := fun n x => List.all_eq_true.mpr (fun _ _ => rfl)
  simp only [ha, hh, hpair, hall, sregWritable, ill_ok, ok_bind, Bool.not_true, Bool.and_false, Bool.or_self, beq_self_eq_true, Bool.and_self,
    Bool.true_or, if_true]

end

/-- Settles O11: a scalar source writes its value, and a v pair writes TRPC slice by slice. -/
theorem specialWritesComplete : Obligations.SpecialWritesComplete := by
  unfold Obligations.SpecialWritesComplete
  intro h r f s i s' w hi hl hw
  refine ⟨fun hr hh ha hval => ?_, fun k ha hr hh hpair => sset_pair_passes hi hl hw ha hr hh hpair⟩
  obtain ⟨t, hp, honly, hpassed⟩ := sset_scalar_passes hi hl hw hr hh ha hval
  refine ⟨t, hp, honly, fun q hq => (hpassed q hq).trans ?_⟩
  cases r with
  | cc | fpmode | flags | stkptr | stklim | trpc => rfl
  | _ => simp [sregWritable] at hr

end Sys2Proof.Machine
end

section
/-! SUPPORT. Scoped lane movements (R88, R89, R269 to R275): the late and the short form said once, what `SHFL`, `BCAST`, `XMOV` and
`XSCAN` give each lane, and the statement about them. -/

namespace Sys2Proof.Machine

open Sys2Proof

-- no exceptions

/-- FLAGS that gain no exception are as they were. -/
@[simp] theorem Gang.orFlags_none (g : Gang) : g.orFlags 0 = g := by simp [Gang.orFlags]

/-- Lanes without exceptions raise none together. -/
theorem noExc_fold (ls : List Nat) : ls.foldl (fun e _ => e ||| (0 : Exc)) 0 = 0 := by simp

/-- The check of R75 before a combining step finds no enabled exception. -/
theorem Wide.redTrap_ok {w : Wide} {e : Exc} (h : Hdr) (he : enabledExc w.rep.fpmode e = false) : w.redTrap h e = .ok () := by
  rw [Wide.redTrap, he]
  rfl

/-- Exceptions entering FLAGS are one change of every performing gang. -/
theorem Met.flagsWide {s : State} {w : Wide} (hm : Met s w) (e : Exc) : s.flagsWide w e = s.modEach w.p.team w.p.gangs (fun _ g => g.orFlags e) := by
  rw [State.flagsWide, ← hm.names, foldl_names]
  rfl

-- late results

/-- Late results are one change of every performing gang in any state, not only in that of the meeting. -/
theorem Met.lateWide_in {s : State} {w : Wide} (hm : Met s w) (u : State) (la : Nat) (ws : Nat → List (Dest × W64)) :
    u.lateWide w la ws = u.modEach w.p.team w.p.gangs (fun q g => g.passLate g.liveSlices la (ws (w.partOf q.1))) := by
  have h := parts_fold w.parts 0 (hm.parts ▸ hm.once) (fun s n g => s.modGang w.p.team g (fun m => m.passLate m.liveSlices la (ws n))) u
  rw [State.lateWide, List.range_eq_range']
  refine h.trans ?_
  rw [← hm.parts, foldl_names]
  simp only [Nat.zero_add]
  rfl

/-- The places that a movement writes in part `m` of the lane space: D in the part's active lanes. -/
def Wide.lateValues (w : Wide) (h : Hdr) (w64 : Bool) (d : Operand) (val : Nat → Nat) (m : Nat) : List (Dest × W64) :=
  ((w.active h).filter (fun l => l / 32 == m)).flatMap (fun l => lateLane w64 (w.reg d) (l % 32) (val l))

/-- What a movement's late results leave in a performing gang. -/
theorem Met.lateMoved {s : State} {w : Wide} (hm : Met s w) {q : Nat × List Nat} (hq : q ∈ w.p.gangs) (h : Hdr) (la : Nat) {w64 : Bool} {d : Operand}
    (hd : w.vecOk w64 d = true) (e : Exc) (val : Nat → Nat) :
    let g := (w.tm.gang q.1).orFlags e
    LateDone { w.unitOf q.1 q.2 with g := g } h la w64 (w.reg d) (fun x => (val (32 * w.partOf q.1 + x), 0))
      (g.passLate g.liveSlices la (w.lateValues h w64 d val (w.partOf q.1))) := by
  intro g
  have hlive : g.liveSlices = q.2 := (hm.all q hq).symm
  have hr : Issuer.Apart { w.unitOf q.1 q.2 with g := g } := ⟨(hm.apart hq).apart, (hm.apart hq).slice⟩
  have hdone := lateDone_of hr (h := h) (la := la) (w := w64) (res := fun x => (val (32 * w.partOf q.1 + x), 0)) (Wide.reg_laneReg hd) (fun _ _ => rfl)
  rw [noExc_fold, Gang.orFlags_none] at hdone
  rw [hlive, Wide.lateValues, hm.latePart h hq]
  exact hdone

/-- A movement that gives FLAGS no exception completes. -/
theorem lateMove_completes {ins : Instr} {h : Hdr} {f : FmtR} {ok : Wide → Prop} {val : Wide → Nat → Nat} {F : State → Wide → Except Stop State}
    (hx : ∀ s, exec ins s = s.wideOp h (f.xt.toNat % 8) scopesGST F) (hd : ∀ w, ok w → w.vecOk (tyPair f.ty) f.d = true)
    (hF : ∀ s w, ok w → F s w = .ok (s.lateWide w (w.moveLa h) (w.lateValues h (tyPair f.ty) f.d (val w)))) :
    LateMoveCompletes ins h f ok (fun _ => 0) val := by
  refine wide_completes (fun w q g => g.passLate g.liveSlices (w.moveLa h) (w.lateValues h (tyPair f.ty) f.d (val w) (w.partOf q.1))) hx (fun _ => id)
    (fun s w _ ho hm => (hF s w ho.1).trans (congrArg _ (hm.lateWide _ _))) (fun s w ho hm q hq => ?_)
  simpa only [Gang.orFlags_none] using hm.lateMoved hq h (w.moveLa h) (hd w ho.1) 0 (val w)

/-- A movement whose combining steps give FLAGS their exceptions completes. -/
theorem lateMove_completes_exc {ins : Instr} {h : Hdr} {f : FmtR} {ok : Wide → Prop} {exc : Wide → Exc} {val : Wide → Nat → Nat}
    {F : State → Wide → Except Stop State} (hx : ∀ s, exec ins s = s.wideOp h (f.xt.toNat % 8) scopesGST F)
    (hd : ∀ w, ok w → w.vecOk (tyPair f.ty) f.d = true)
    (hF : ∀ s w, ok w → enabledExc w.rep.fpmode (exc w) = false →
      F s w = .ok ((s.flagsWide w (exc w)).lateWide w (w.moveLa h) (w.lateValues h (tyPair f.ty) f.d (val w)))) :
    LateMoveCompletes ins h f ok exc val :=
  wide_completes_two (fun w _ g => g.orFlags (exc w))
    (fun w q g => g.passLate g.liveSlices (w.moveLa h) (w.lateValues h (tyPair f.ty) f.d (val w) (w.partOf q.1))) hx (fun _ => id)
    (fun s w _ ho hm => (hF s w ho.1 ho.2).trans (by rw [hm.lateWide_in, hm.flagsWide]))
    (fun _ w ho hm _ hq => hm.lateMoved hq h (w.moveLa h) (hd w ho.1) (exc w) (val w))

-- short results

/-- Writing lanes leaves the slices alive that were. -/
theorem Gang.wrLanes_liveSlices (g : Gang) (w64 : Bool) (d : Operand) (ls : List Nat) (val : Nat → Nat) :
    (g.wrLanes w64 d ls val).liveSlices = g.liveSlices := by
  rw [Gang.wrLanes_same]
  rfl

/-- What a movement of class S leaves in a performing gang. -/
theorem Met.shortMoved {s : State} {w : Wide} (hm : Met s w) {q : Nat × List Nat} (hq : q ∈ w.p.gangs) (h : Hdr) {w64 : Bool} {d : Operand}
    (hd : w.vecOk w64 d = true) {val : Nat → Nat} (hval : ∀ l, val l < 2 ^ (if w64 then 64 else 32)) :
    let g := w.tm.gang q.1
    let m := g.wrLanes w64 (w.reg d) (g.activeIn h (lanesOf g.liveSlices)) (fun l => val (32 * w.partOf q.1 + l))
    LaneDone (w.unitOf q.1 q.2) h w64 (w.reg d) (fun x => (val (32 * w.partOf q.1 + x), 0))
      ((m.shiftBypass (lanesOf m.liveSlices) (fun l => BitVec.ofNat 64 (m.rdReg w64 (w.reg d) l))).pass m.liveSlices) := by
  intro g m
  have hr := hm.apart hq
  obtain ⟨n, hdst⟩ := Wide.reg_dstOk hd
  have hactive : g.activeIn h (lanesOf g.liveSlices) = (w.unitOf q.1 q.2).active h := by
    simp only [Issuer.active, Issuer.lanes, Wide.unitOf, hm.all q hq, g]
  have hwrite := g.moved_eq (all := (w.unitOf q.1 q.2).lanes) (val := fun l => val (32 * w.partOf q.1 + l)) hdst (Wide.reg_laneReg hd)
    (fun l hl => hr.lane_lt (Issuer.active_mem (h := h) hl)) ((lanesOf_nodup hr.apart).filter _) (fun _ _ => hval _)
  have hdone := laneDone_of hr (h := h) (res := fun x => (val (32 * w.partOf q.1 + x), 0)) hdst (fun _ _ => rfl)
  rw [noExc_fold, Gang.orFlags_none] at hdone
  have hlive : m.liveSlices = q.2 := (Gang.wrLanes_liveSlices ..).trans (hm.all q hq).symm
  rw [hlive]
  simp only [m, hactive]
  exact hwrite ▸ hdone

/-- A movement of class S completes. -/
theorem shortMove_completes {ins : Instr} {h : Hdr} {f : FmtR} {legal : List Scope} {ok : Wide → Prop} {val : Wide → Nat → Nat}
    {F : State → Wide → Except Stop State} (hx : ∀ s, exec ins s = s.wideOp h (f.xt.toNat % 8) legal F)
    (hd : ∀ w, ok w → w.vecOk (tyPair f.ty) f.d = true) (hval : ∀ w, ok w → ∀ l, val w l < 2 ^ (if tyPair f.ty then 64 else 32))
    (hF : ∀ s w, ok w → F s w = .ok (s.shortWide w (tyPair f.ty) f.d (fun m g =>
      g.wrLanes (tyPair f.ty) (w.reg f.d) (g.activeIn h (lanesOf g.liveSlices)) (fun l => val w (32 * m + l))))) :
    ShortMoveCompletes ins h f legal ok val :=
  wide_completes (fun w q g =>
      let m := g.wrLanes (tyPair f.ty) (w.reg f.d) (g.activeIn h (lanesOf g.liveSlices)) (fun l => val w (32 * w.partOf q.1 + l))
      (m.shiftBypass (lanesOf m.liveSlices) (fun l => BitVec.ofNat 64 (m.rdReg (tyPair f.ty) (w.reg f.d) l))).pass m.liveSlices) hx (fun _ => id)
    (fun s w _ ho hm => (hF s w ho).trans (congrArg _ (hm.shortWide _ _ _)))
    (fun _ w ho hm _ hq => hm.shortMoved hq h (hd w ho) (hval w ho))

-- SHFL (R271)

theorem exec_shfl (h : Hdr) (k : ShflOp) (f : FmtR) (s : State) : exec (.shfl h k f) s = execShfl h k f s := rfl

/-- The lane that lane `l` takes its value from in a shuffle: its own where the source lies outside the space. -/
def shflFrom (k : ShflOp) (size l n : Nat) : Nat :=
  match k with
  | .idx => n % size
  | .up => if n ≤ l then l - n else l
  | .down => if l + n < size then l + n else l
  | .xor => if l ^^^ n < size then l ^^^ n else l

theorem shflSrc_getD (k : ShflOp) (size l n : Nat) : (shflSrc k size l n).getD l = shflFrom k size l n := by
  cases k with
  | idx => rfl
  | up | down | xor => simp only [shflSrc, shflFrom]; split <;> rfl

/-- `SHFL` with legal operands gives each active lane the value of its source lane. -/
theorem shfl_completes (h : Hdr) (k : ShflOp) (f : FmtR) {b : Operand} (hb : f.b = .op b) :
    LateMoveCompletes (.shfl h k f) h f
      (fun w => w.vecOk (tyPair f.ty) f.d = true ∧ w.vecOk (tyPair f.ty) f.a = true ∧ (w.vecOk false b = true ∨ laneSrcOk w.tm.nregs false b = true))
      (fun _ => 0) (fun w l => w.rdAt f.ty f.a (shflFrom k w.size l (w.rdAt .n32 b l))) := by
  refine lateMove_completes (exec_shfl h k f) (fun w ho => ho.1) (fun s w ho => ?_)
  obtain ⟨hd, ha, hsrc⟩ := ho
  have hbOk : (w.vecOk false b || laneSrcOk w.tm.nregs false b) = true := by simpa using hsrc
  simp only [hb, hd, ha, hbOk, ill_ok, ok_bind, Bool.not_true, Bool.or_self]
  congr 2
  funext m
  refine congrArg (List.flatMap · _) (funext fun l => congrArg _ ?_)
  change _ = w.rdAt f.ty f.a (shflFrom k w.size l (w.rdAt .n32 b l))
  rw [← shflSrc_getD]
  cases shflSrc k w.size l (w.rdAt .n32 b l) <;> rfl

-- BCAST, XMOV (R272, R275)

theorem exec_bcast (h : Hdr) (f : FmtR) (s : State) : exec (.bcast h f) s = execBcast h f s := rfl
theorem exec_xmov (h : Hdr) (f : FmtR) (s : State) : exec (.xmov h f) s = execXmov h f s := rfl

/-- The number that a uniform B operand gives; 0 stands for an operand that is not legal. -/
def Wide.uniformVal (w : Wide) (b : Src) : Nat := match w.uniformB b with | .ok n => n | .error _ => 0

/-- `BCAST` of a lane of the space into a lane register. -/
theorem bcast_lanes_completes (h : Hdr) (f : FmtR) :
    ShortMoveCompletes (.bcast h f) h f scopesGST
      (fun w => w.vecOk (tyPair f.ty) f.d = true ∧ w.vecOk (tyPair f.ty) f.a = true ∧ ∃ n, w.uniformB f.b = .ok n ∧ n < w.size)
      (fun w _ => w.rdAt f.ty f.a (w.uniformVal f.b)) := by
  refine shortMove_completes (exec_bcast h f) (fun w ho => ho.1) (fun w ho _ => Wide.rdAt_lt ho.2.1 _) (fun s w ho => ?_)
  obtain ⟨hd, ha, n, hn, hlt⟩ := ho
  simp only [hd, ha, hn, decide_eq_false (Nat.not_le.mpr hlt), Wide.uniformVal, ill_ok, ok_bind, Bool.true_or, Bool.not_true, Bool.or_self, if_true]
  rfl

/-- `BCAST` of a lane of the space into an s register. -/
theorem bcast_scalar_completes (h : Hdr) {f : FmtR} {k : BitVec 8} (hk : f.d = .s k) :
    WideCompletes (.bcast h f) h (f.xt.toNat % 8) scopesGST
      (fun w => k.toNat < 128 ∧ w.vecOk (tyPair f.ty) f.a = true ∧ ∃ n, w.uniformB f.b = .ok n ∧ n < w.size)
      (fun w _ l g g' => g.PassedWith g' l (fun m => m.wrS k.toNat (BitVec.ofNat 64 (w.rdAt f.ty f.a (w.uniformVal f.b))))) := by
  refine wide_completes (fun w q g => (g.wrS k.toNat (BitVec.ofNat 64 (w.rdAt f.ty f.a (w.uniformVal f.b)))).pass q.2) (exec_bcast h f) (fun _ => id)
    (fun s w _ ho _ => ?_) (fun _ _ _ _ _ _ => rfl)
  obtain ⟨hd, ha, n, hn, hlt⟩ := ho
  have hnotLanes : w.vecOk (tyPair f.ty) (.s k) = false := rfl
  have hdst : sOk (.s k) = true := decide_eq_true hd
  simp only [hk, hdst, hnotLanes, ha, hn, decide_eq_false (Nat.not_le.mpr hlt), Wide.uniformVal, ill_ok, ok_bind, Bool.not_true, Bool.or_true,
    Bool.or_self, Bool.false_eq_true, if_false]
  rfl

/-- `XMOV` gives each lane the value of the lane that stands some members further on in the set. -/
theorem xmov_completes (h : Hdr) {f : FmtR} {d a : BitVec 8} (hd : f.d = .x d) (ha : f.a = .x a) :
    ShortMoveCompletes (.xmov h f) h f [.set]
      (fun w => w.vecOk (tyPair f.ty) f.d = true ∧ w.vecOk (tyPair f.ty) f.a = true ∧ ∃ n, w.uniformB f.b = .ok n)
      (fun w l => w.rdAt f.ty f.a ((l + 32 * w.uniformVal f.b) % w.size)) := by
  refine shortMove_completes (exec_xmov h f) (fun w ho => ho.1) (fun w ho _ => Wide.rdAt_lt ho.2.1 _) (fun s w ho => ?_)
  obtain ⟨hdOk, haOk, n, hn⟩ := ho
  rw [hd] at hdOk
  rw [ha] at haOk
  simp only [hd, ha, hdOk, haOk, hn, Wide.uniformVal, ill_ok, ok_bind, Bool.not_true, Bool.or_self]
  rfl

-- XSCAN (R89, R273)

theorem exec_xscan (h : Hdr) (op : RedOp) (excl : Bool) (f : FmtR) (s : State) : exec (.xscan h op excl f) s = execXscan h op excl f s := rfl

/-- The result that a list of lanes and results gives a lane. -/
def laneResultOf (rs : List (Nat × Nat)) (l : Nat) : Nat := ((rs.find? (fun p => p.1 == l)).map (·.2)).getD 0

/-- In a list that gives each lane one result, a lane finds it. -/
theorem laneResultOf_map {ls : List Nat} (v : Nat → Nat) {l : Nat} (hl : l ∈ ls) : laneResultOf (ls.map (fun l => (l, v l))) l = v l := by
  induction ls with
  | nil => simp at hl
  | cons a r ih =>
    by_cases ha : a = l
    · simp [laneResultOf, ha]
    · have hr : l ∈ r := by simpa [Ne.symm ha] using hl
      simpa [laneResultOf, ha] using ih hr

/-- A scan has one result for each active lane. -/
theorem Wide.scan_lanes (w : Wide) (h : Hdr) (op : RedOp) (excl : Bool) (f : FmtR) :
    ∃ v : Nat → Nat, (w.scan h op excl f).1 = (w.active h).map (fun l => (l, v l)) :=
  ⟨_, List.map_map⟩

/-- The places that a scan writes are those of a movement that gives each active lane its result. -/
theorem Wide.scan_writes (w : Wide) (h : Hdr) (op : RedOp) (excl : Bool) (f : FmtR) (w64 : Bool) (d : Operand) (m : Nat) :
    ((w.scan h op excl f).1.filter (fun p => p.1 / 32 == m)).flatMap (fun p => lateLane w64 (w.reg d) (p.1 % 32) p.2) =
    w.lateValues h w64 d (laneResultOf (w.scan h op excl f).1) m := by
  obtain ⟨v, hv⟩ := w.scan_lanes h op excl f
  rw [hv, Wide.lateValues, List.filter_map, List.flatMap_map]
  exact List.flatMap_congr (fun l hl => by rw [laneResultOf_map v (List.mem_filter.mp hl).1])

/-- `XSCAN` gives each active lane its result, and FLAGS the exceptions of every combining step. -/
theorem xscan_completes (h : Hdr) (op : RedOp) (excl : Bool) (f : FmtR) :
    LateMoveCompletes (.xscan h op excl f) h f (fun w => w.vecOk (tyPair f.ty) f.d = true ∧ w.vecOk (tyPair f.ty) f.a = true)
      (fun w => (w.scan h op excl f).2) (fun w => laneResultOf (w.scan h op excl f).1) := by
  refine lateMove_completes_exc (exec_xscan h op excl f) (fun w ho => ho.1) (fun s w ho he => ?_)
  obtain ⟨hd, ha⟩ := ho
  simp only [hd, ha, Wide.redTrap_ok h he, Wide.scan_writes, ill_ok, ok_bind, Bool.not_true, Bool.or_self]

/-- Settles O12: each movement is a late or a short one, and the values it gives are those of the spec's rules. -/
theorem laneMovementCompletes : Obligations.LaneMovementCompletes := by
  unfold Obligations.LaneMovementCompletes
  intro h f w64
  exact ⟨fun k b hb => shfl_completes h k f hb, fun _ _ => bcast_lanes_completes h f, fun k hk => bcast_scalar_completes h hk,
    fun d a hd ha => xmov_completes h hd ha, fun op excl => xscan_completes h op excl f⟩

end Sys2Proof.Machine
end

section
/-! SUPPORT. Votes and reductions (R88, R273): one result in every gang that performs them, and the statement about them. -/

namespace Sys2Proof.Machine

open Sys2Proof

/-- A completion under some condition with some outcome is one under every stronger condition and with every outcome that follows. -/
theorem WideCompletes.mono {ins : Instr} {h : Hdr} {setNo : Nat} {legal : List Scope} {ok ok' : Wide → Prop}
    {R R' : Wide → Nat → List Nat → Gang → Gang → Prop} (hc : WideCompletes ins h setNo legal ok R) (hok : ∀ w, ok' w → ok w)
    (hR : ∀ w j l g g', R w j l g g' → R' w j l g g') : WideCompletes ins h setNo legal ok' R' := by
  intro s i s' w hi hl hw ho
  obtain ⟨t, hp, honly, hr⟩ := hc s i s' w hi hl hw (hok w ho)
  exact ⟨t, hp, honly, fun q hq => hR _ _ _ _ _ (hr q hq)⟩

/-- A scoped instruction that gives every performing gang the same late results completes. -/
theorem lateResult_completes {ins : Instr} {h : Hdr} {setNo : Nat} {legal : List Scope} {ok : Wide → Prop} {F : State → Wide → Except Stop State}
    (ws : Wide → List (Dest × W64)) (hx : ∀ s, exec ins s = s.wideOp h setNo scopesGST F)
    (hsub : ∀ x, legal.contains x = true → scopesGST.contains x = true)
    (hF : ∀ s w, legal.contains w.scope = true → ok w → F s w = .ok (s.lateWide w h.la.toNat (fun _ => ws w))) :
    WideCompletes ins h setNo legal ok (fun w _ l g g' => g' = g.passLate l h.la.toNat (ws w)) :=
  wide_completes (fun w _ g => g.passLate g.liveSlices h.la.toNat (ws w)) hx hsub
    (fun s w hl ho hm => (hF s w hl ho).trans (congrArg _ (hm.lateWide _ _))) (fun _ _ _ hm q hq => by rw [hm.all q hq])

/-- GANG scope is one of the scopes of a scoped instruction. -/
theorem gang_scoped : ∀ x, [Scope.gang].contains x = true → scopesGST.contains x = true := by
  intro x hx
  obtain rfl : x = .gang := by simpa using hx
  rfl

-- XVOTE (R273)

theorem exec_xvote (h : Hdr) (k : VoteOp) (f : FmtR) (s : State) : exec (.xvote h k f) s = execXvote h k f s := rfl

/-- The result of a vote of the active lanes of the space. -/
def Wide.vote (w : Wide) (h : Hdr) (k : VoteOp) (f : FmtR) : Nat := voteValue k ((w.active h).map (fun l => (l, w.rdAt f.ty f.a l)))

/-- Whether a vote that is not a ballot holds: of some active lane, of all, or as one value in all. -/
def Wide.voteHolds (w : Wide) (h : Hdr) (k : VoteOp) (f : FmtR) : Bool :=
  match k with
  | .any => (w.active h).any (fun x => w.rdAt f.ty f.a x != 0)
  | .all => (w.active h).all (fun x => w.rdAt f.ty f.a x != 0)
  | _ => (w.active h).all (fun x => (w.active h).all (fun y => w.rdAt f.ty f.a x == w.rdAt f.ty f.a y))

/-- A vote that is not a ballot is 1 where it holds. -/
theorem Wide.vote_flag (w : Wide) (h : Hdr) {k : VoteOp} (f : FmtR) (hk : k ≠ .ballot) :
    BitVec.ofNat 64 (w.vote h k f) = if w.voteHolds h k f then 1 else 0 := by
  have hvote : w.vote h k f = if w.voteHolds h k f then 1 else 0 := by
    cases k with
    | ballot => exact absurd rfl hk
    | any | all | uni => simp only [Wide.vote, voteValue, Wide.voteHolds, List.any_map, List.all_map]; rfl
  rw [hvote]
  split <;> rfl

/-- The mask of the active lanes that hold a value other than 0. -/
theorem Wide.vote_ballot (w : Wide) (h : Hdr) (f : FmtR) : w.vote h .ballot f = maskOf ((w.active h).filter (fun x => w.rdAt f.ty f.a x != 0)) := by
  rw [Wide.vote, voteValue]
  simp only [List.filter_map, List.map_map]
  exact congrArg maskOf (List.map_id _)

/-- `XVOTE` into an s register; a ballot only at GANG scope. -/
theorem xvote_scalar_completes (h : Hdr) (k : VoteOp) (f : FmtR) {legal : List Scope} (hsub : ∀ x, legal.contains x = true → scopesGST.contains x = true)
    (hballot : k = .ballot → legal = [.gang]) :
    WideCompletes (.xvote h k f) h (f.xt.toNat % 8) legal (fun w => w.vecOk (tyPair f.ty) f.a = true ∧ sOk f.d = true)
      (fun w _ l g g' => ScalarDone g g' l h.la.toNat (sIdx f.d) (BitVec.ofNat 64 (w.vote h k f)) none) := by
  refine (lateResult_completes (fun w => scalarWrites (sIdx f.d) (BitVec.ofNat 64 (w.vote h k f)) none) (exec_xvote h k f) hsub
    (fun s w hl ho => ?_)).mono (fun _ => id) (fun w _ l g g' hg => hg ▸ scalarDone_of ..)
  obtain ⟨ha, hd⟩ := ho
  have hdest : (if k = .ballot then w.scope != .gang || !(sOk f.d || mDstOk f.d) else !sOk f.d) = false := by
    by_cases hk : k = .ballot
    · have hscope : w.scope = .gang := by simpa [hballot hk] using hl
      simp [hk, hscope, hd]
    · simp [hk, hd]
  simp only [ha, hdest, ill_ok, ok_bind, Bool.not_true]
  cases hfd : f.d with
  | s r => rfl
  | _ => simp [hfd, sOk] at hd

/-- A ballot into a mask register, at GANG scope: one bit for each lane. -/
theorem xvote_mask_completes (h : Hdr) {f : FmtR} {m : BitVec 3} (hm : f.d = .m m) (hm0 : m ≠ 0) :
    WideCompletes (.xvote h .ballot f) h (f.xt.toNat % 8) [.gang] (fun w => w.vecOk (tyPair f.ty) f.a = true)
      (fun w _ l g g' => g' = g.passLate l h.la.toNat ((List.range 32).map (fun x => (.m m.toNat x, if bitAt (w.vote h .ballot f) x then 1 else 0)))) := by
  refine lateResult_completes (fun w => (List.range 32).map (fun x => (Dest.m m.toNat x, if bitAt (w.vote h .ballot f) x then 1 else 0)))
    (exec_xvote h .ballot f) gang_scoped (fun s w hl ha => ?_)
  have hscope : w.scope = .gang := by simpa using hl
  have hdest : mDstOk (.m m) = true := by simpa [mDstOk] using hm0
  simp only [ha, hm, hscope, hdest, ill_ok, ok_bind, Bool.not_true, Bool.or_true, bne_self_eq_false, Bool.or_self, if_true]
  rfl

-- XRED (R88, R273)

theorem exec_xred (h : Hdr) (op : RedOp) (f : FmtR) (s : State) : exec (.xred h op f) s = execXred h op f s := rfl

/-- `XRED` gives every gang the reduction of the lane space, and FLAGS the exceptions of every combining step. -/
theorem xred_completes (h : Hdr) (op : RedOp) (f : FmtR) :
    WideCompletes (.xred h op f) h (f.xt.toNat % 8) scopesGST
      (fun w => sOk f.d = true ∧ w.vecOk (tyPair f.ty) f.a = true ∧ enabledExc w.rep.fpmode (w.reduce h op f).2 = false)
      (fun w _ l g g' => ScalarDone (g.orFlags (w.reduce h op f).2) g' l h.la.toNat (sIdx f.d) (BitVec.ofNat 64 (w.reduce h op f).1) none) := by
  refine wide_completes_two (fun w _ g => g.orFlags (w.reduce h op f).2)
    (fun w _ g => g.passLate g.liveSlices h.la.toNat (scalarWrites (sIdx f.d) (BitVec.ofNat 64 (w.reduce h op f).1) none)) (exec_xred h op f) (fun _ => id)
    (fun s w _ ho hm => ?_) (fun _ w _ hm q hq => ?_)
  · obtain ⟨hd, ha, he⟩ := ho
    simp only [hd, ha, Wide.redTrap_ok h he, ill_ok, ok_bind, Bool.not_true, Bool.or_self]
    rw [hm.lateWide_in, hm.flagsWide]
    rfl
  · rw [hm.all q hq]
    exact scalarDone_of ..

/-- Settles O13: every gang of a vote or a reduction is given the same late result. -/
theorem laneReductionsComplete : Obligations.LaneReductionsComplete := by
  unfold Obligations.LaneReductionsComplete
  intro h f set
  refine ⟨fun k hk => ?_, ?_, fun m hm hm0 => ?_, fun op => xred_completes h op f⟩
  · exact (xvote_scalar_completes h k f (fun _ => id) (fun e => absurd e hk)).mono (fun _ => id) (fun w _ _ _ _ hd => w.vote_flag h f hk ▸ hd)
  · exact (xvote_scalar_completes h .ballot f gang_scoped (fun _ => rfl)).mono (fun _ => id) (fun w _ _ _ _ hd => w.vote_ballot h f ▸ hd)
  · exact (xvote_mask_completes h hm hm0).mono (fun _ => id) (fun w _ _ _ _ hg => w.vote_ballot h f ▸ hg)

end Sys2Proof.Machine
end

section
/-! SUPPORT. Stack frames (R100, R101, R244): the frame that `ENTER` opens, the link that `LEAVE` follows, and the statement about
them. -/

namespace Sys2Proof.Machine

open Sys2Proof

/-- `ENTER` of a frame of a legal size, with room below STKLIM, links and opens it. -/
theorem enter_completes (h : Hdr) (size : W32) :
    UniformCompletes (.enter h size) h
      (fun _ i => 64 ≤ size.toNat ∧ size.toNat ≤ 2 ^ 24 ∧ size.toNat % 64 = 0 ∧ i.g.stkptr.toNat + size.toNat ≤ i.g.stklim.toNat)
      (GangBecomes (fun _ i g =>
        { (lanesOf g.liveSlices).foldl (fun g l => g.setStack l (i.g.stkptr.toNat + size.toNat - 8) (leBytes 8 i.g.stkptr.toNat)) g with
          stkptr := BitVec.ofNat 64 (i.g.stkptr.toNat + size.toNat) })) := by
  refine uniform_completes (fun _ => rfl) (fun _ s _ i hi hg hok => ⟨_, ?_, GangStarts.becomes hi hg _⟩)
  obtain ⟨hmin, hmax, halign, hroom⟩ := hok
  simp only [decide_eq_false (Nat.not_lt.mpr hmin), decide_eq_false (Nat.not_lt.mpr hmax), halign, decide_eq_false (Nat.not_lt.mpr hroom),
    bne_self_eq_false, Bool.or_self, ill_ok, trap_ok, ok_bind]
  rfl

/-- The link of the innermost frame: the eight bytes below STKPTR in the lowest live lane (R101, R244). -/
def Gang.frameLink (g : Gang) : Nat :=
  leNat ((List.range 8).map (fun k => g.stackByte (4 * g.liveSlices.headD 0) (g.stkptr.toNat - 8 + k)))

/-- `LEAVE` of a frame whose link is aligned and at least a frame below STKPTR follows the link. -/
theorem leave_completes (h : Hdr) :
    UniformCompletes (.leave h) h (fun _ i => i.g.stkptr.toNat ≠ 0 ∧ i.g.frameLink % 64 = 0 ∧ i.g.frameLink + 64 ≤ i.g.stkptr.toNat)
      (GangBecomes (fun _ i g => { g with stkptr := BitVec.ofNat 64 i.g.frameLink })) := by
  refine uniform_completes (fun _ => rfl) (fun _ s _ i hi hg hok => ⟨_, ?_, GangStarts.becomes hi hg _⟩)
  obtain ⟨hframe, halign, hbelow⟩ := hok
  have hlink : (i.g.frameLink % 64 != 0 || decide (i.g.stkptr.toNat < i.g.frameLink + 64)) = false := by simpa [halign] using hbelow
  unfold Gang.frameLink at hlink
  simp only [decide_eq_false hframe, hlink, ill_ok, ok_bind]
  rfl

/-- Settles O20: a frame that fits is opened, and one with a sound link is left. -/
theorem framesComplete : Obligations.FramesComplete := by
  unfold Obligations.FramesComplete
  exact fun h size => ⟨enter_completes h size, leave_completes h⟩

end Sys2Proof.Machine
end

section
/-! SUPPORT. Atomics of global memory (R102, R119, R144, R286, R287): what an atomic whose pages all complete leaves, what one page
keeps of committed memory, and the statement about them. -/

namespace Sys2Proof.Machine

open Sys2Proof

section

variable (h : Hdr) (o : Option AtomOp) (ty : AtomTy) (mred : Bool) (f : FmtM)

/-- The accesses of a global atomic (R286). -/
def Issuer.atomAccesses (i : Issuer) : List LaneAcc := i.g.accesses f .global false (i.atomLanes h) (atomBytes ty)

/-- The pages of a global atomic, one after another (R144). -/
def State.atomRun (s : State) (i : Issuer) : State × List (Nat × Nat) × Bool × Option Stop :=
  s.atomPages i mred (i.atomJob o ty f (i.atomLanes h)) f.d 32 (i.atomAccesses h ty f) [] false

/-- The checks of a global atomic, in which no page stops it (R90, R144, R286). -/
structure AtomChecks (s : State) (i : Issuer) : Prop where
  operands : atomOperands i.tm f .global (h.scp == .gang) mred (atomBytes ty) = true
  places   : ∀ x ∈ i.atomAccesses h ty f, x.va + atomBytes ty ≤ 2 ^ 56 ∧ x.va % atomBytes ty = 0
  runs     : (s.atomRun h o ty mred f i).2.2.2 = none

/-- What a global atomic leaves after its last page: an acquire beyond the team has emptied the core's L1, and the destinations
receive the old values, now or with the lookahead (R112, R220, R286). -/
def AtomDone (s : State) (i : Issuer) (t : State) : Prop :=
  ∀ s1 olds wrote, s.atomRun h o ty mred f i = (s1, olds, wrote, none) →
    t = (if (f.ord = .acq ∨ f.ord = .acqRel) ∧ f.vis ≠ .team then s1.dropL1 i.tm.core else s1).passLate i h.la.toNat
      (atomDests h o ty mred f (i.atomLanes h) olds wrote)

variable {h o ty mred f}

/-- A global atomic that passes its checks is done. -/
theorem AtomChecks.done {s : State} {i : Issuer} (hc : AtomChecks h o ty mred f s i) :
    ∃ t, s.atomic i h o ty .global mred f = .ok (t, none) ∧ AtomDone h o ty mred f s i t := by
  obtain ⟨s1, olds, wrote, hrun⟩ := atomPages_ok hc.runs
  refine ⟨_, atomic_global hc.operands hc.places hrun, fun s2 olds2 wrote2 hrun2 => ?_⟩
  cases hrun.symm.trans hrun2
  rfl

variable {ins : Instr} (hx : ∀ s, exec ins s = s.atomicOp h o ty .global mred f)
include hx

/-- A global atomic completes at LANE scope. -/
theorem atomic_unit_completes : UnitCompletes ins h (AtomChecks h o ty mred f) (AtomDone h o ty mred f) := by
  intro s i hi hs hc
  obtain ⟨t, hrun, hdone⟩ := hc.done
  exact ⟨t, atomic_unit hx hi hs hrun, hdone⟩

/-- A global atomic completes at GANG scope. -/
theorem atomic_gang_completes : GangCompletes ins h (AtomChecks h o ty mred f) (AtomDone h o ty mred f) := by
  intro s i s' i' hi hs hg hc
  obtain ⟨t, hrun, hdone⟩ := hc.done
  exact ⟨t, atomic_gang hx hi hs hg hrun, hdone⟩

end

/-- One page of an atomic keeps committed memory outside the units that its lanes name and the page-table entries (R102, R407). -/
theorem atomPage_frame {s t : State} {i : Issuer} {mred : Bool} {j : AtomJob} {p : PageTr} {accs : List LaneAcc} {olds : List (Nat × Nat)} {wrote : Bool}
    (ht : (s.team? i.unit.team).isSome = true) (hpage : s.atomPage i mred j p accs = .ok (olds, wrote, t)) {loc : Nat}
    (hoff : OffEntries (s.entriesOf i.tm.core [p]) loc) (hunits : ∀ x ∈ accs, ∀ k < atomBytes j.ty, (pageOf [p] (x.va + k)).loc (x.va + k) ≠ loc) :
    t.commByte loc = s.commByte loc := by
  have htouch : Reads (s.entriesOf i.tm.core [p]) i.tm.core s (s.touchPages i.tm.core [p] accs) :=
    Reads.touchPages _ _ _ _ (fun q hq => List.mem_append_right _ (List.mem_map_of_mem hq))
  have hteam : ((s.touchPages i.tm.core [p] accs).team? i.unit.team).isSome = true := by rw [htouch.device]; exact ht
  have hread : (s.touchPages i.tm.core [p] accs).commByte loc = s.commByte loc :=
    (htouch.memory (fun e he => List.mem_append_left _ (List.mem_map_of_mem he))).2 loc hoff
  unfold State.atomPage at hpage
  simp only [bind, Except.bind] at hpage
  split at hpage
  · cases hpage
  · split at hpage
    · cases hpage
    · split at hpage
      · cases hpage
      · next r hr =>
        cases hpage
        obtain ⟨o, w, u⟩ := r
        refine (atomUnits_frame _ hteam hr loc (fun va hva => ?_)).trans hread
        obtain ⟨x, hmem, rfl⟩ := List.mem_map.mp (List.mem_eraseDups.mp hva)
        exact hunits x hmem

/-- Settles O29: an atomic that passes its checks is done at either scope, and a page keeps the bytes that no lane names. -/
theorem globalAtomicsComplete : Obligations.GlobalAtomicsComplete := by
  unfold Obligations.GlobalAtomicsComplete
  refine ⟨fun h op ty f => ?_, fun s i mred j p accs olds wrote t ht hpage loc => atomPage_frame ht hpage⟩
  intro n ok eff both
  have hboth : ∀ {ins : Instr} {o : Option AtomOp} {mred : Bool}, (∀ s, exec ins s = s.atomicOp h o ty .global mred f) → both ins o mred := fun hx =>
    ⟨fun s i hi hs hc => atomic_unit_completes hx s i hi hs ⟨hc.1, hc.2.1, hc.2.2⟩,
      (atomic_gang_completes hx).mono (fun _ _ hc => ⟨hc.1, hc.2.1, hc.2.2⟩) (fun _ _ _ hd => hd)⟩
  exact ⟨hboth fun _ => rfl, hboth fun _ => rfl, hboth fun _ => rfl⟩

end Sys2Proof.Machine
end

section
/-! SUPPORT. Transfers between devices (R103, R340 to R342, R408): what `XGET` and `XPUT` issue when their checks pass, what data and
requests of another device meet, and the statement about them. -/

namespace Sys2Proof.Machine

open Sys2Proof

-- issue (R289, R340 to R342)

/-- What the registers of a transfer name, with its length in register `r` (R340). -/
def Issuer.xfer (i : Issuer) (f : FmtT) (r : BitVec 8) : Xfer :=
  { len := (i.g.rdS r.toNat).toNat, spad := bits (i.g.rdS (sIdx f.d)).toNat 0 32, glob := (i.g.rdS (sIdx f.a)).toNat
    rank := (i.g.rdScalar f.b).toNat, abar := (i.g.rdS (sIdx f.c)).toNat }

/-- The checks of a transfer (R289, R340); one that writes the scratchpad meets no guarded range and no pending granule. -/
structure XferChecks (f : FmtT) (r : BitVec 8) (writes : Bool) (s : State) (i : Issuer) : Prop where
  spad       : sOk f.d = true
  glob       : sOk f.a = true
  rank       : natSrcOk f.b = true
  abar       : sOk f.c = true
  lenMin     : 4 ≤ (i.xfer f r).len
  lenMax     : (i.xfer f r).len ≤ 2 ^ 24
  lenAlign   : (i.xfer f r).len % 4 = 0
  spadAlign  : (i.xfer f r).spad % 4 = 0
  globAlign  : (i.xfer f r).glob % 4 = 0
  rankMax    : (i.xfer f r).rank ≤ 255
  rankKnown  : (i.xfer f r).rank < s.span.size
  registered : i.tm.abars.contains (i.xfer f r).abar = true
  fits       : (i.xfer f r).spad + (i.xfer f r).len ≤ i.tm.spadSize
  free       : writes = true → i.tm.guarded (i.xfer f r).spad (i.xfer f r).len = false ∧ i.tm.pendingAt (i.xfer f r).spad (i.xfer f r).len = false
  room       : s.engineFull i.tm.core false = false

section

variable {f : FmtT} {r : BitVec 8} (he : f.e = .s r) (hr : r.toNat < 128)
include he hr

/-- A transfer that passes its checks is the one its registers name. -/
theorem XferChecks.xferOf {s : State} {i : Issuer} {writes : Bool} (hc : XferChecks f r writes s i) : s.xferOf i f writes = .ok (i.xfer f r) := by
  have hrange : i.tm.engineCheck writes (i.xfer f r).len [(i.xfer f r).spad] = .ok () :=
    engineCheck_ok (by simpa using ⟨hc.fits, hc.free⟩)
  have hlen : (decide ((i.xfer f r).len < 4) || decide (2 ^ 24 < (i.xfer f r).len) || (i.xfer f r).len % 4 != 0 || (i.xfer f r).spad % 4 != 0 ||
      (i.xfer f r).glob % 4 != 0) = false := by
    simpa [hc.lenMin, hc.lenAlign, hc.spadAlign, hc.globAlign] using hc.lenMax
  have hrank : (decide (255 < (i.xfer f r).rank) || decide (s.span.size ≤ (i.xfer f r).rank)) = false := by simp [hc.rankMax, hc.rankKnown]
  unfold Issuer.xfer at hrange hlen hrank
  unfold State.xferOf
  simp only [he, hr, hc.spad, hc.glob, hc.rank, hc.abar, hlen, hrank, hrange, hc.room, checkAbar_ok hc.registered, Option.getD_some, Option.isNone_some,
    if_true, Bool.not_true, Bool.or_self, Bool.false_eq_true, if_false, ill_ok, ok_bind]
  rfl

/-- An `XGET` that passes its checks issues an operation that fetches its words in order (R341). -/
theorem xget_completes (h : Hdr) :
    GangCompletes (.xget h f) h (XferChecks f r true) (fun s i t => t = (s.passUnit i).issueEngine i.unit.team
      { gang := i.unit.gang, abar := some (i.xfer f r).abar, counter := none, cont := none, arrives := false, charges := true
        segs := wordSegs (.xget (i.xfer f r).rank) 0 (i.xfer f r).glob (i.xfer f r).spad (i.xfer f r).len }) := by
  refine gang_completes (fun _ => rfl) (fun _ s _ i _ _ hc => ⟨_, ?_, rfl⟩)
  simp only [hc.xferOf he hr, ok_bind]

/-- An `XPUT` that passes its checks issues an operation that sends its words in order and makes one arrival (R342). -/
theorem xput_completes (h : Hdr) :
    GangCompletes (.xput h f) h (XferChecks f r false) (fun s i t => t = (s.passUnit i).issueEngine i.unit.team
      { gang := i.unit.gang, abar := some (i.xfer f r).abar, counter := none, cont := none, arrives := true, charges := false
        notify := if f.imm.getLsbD 15 then some ((i.xfer f r).rank, ctrKey (bits f.imm.toNat 10 2) (bits f.imm.toNat 0 10)) else none
        segs := wordSegs (.xput (i.xfer f r).rank) 0 (i.xfer f r).glob (i.xfer f r).spad (i.xfer f r).len }) := by
  refine gang_completes (fun _ => rfl) (fun _ s _ i _ _ hc => ⟨_, ?_, rfl⟩)
  simp only [hc.xferOf he hr, ok_bind, bitAt_toNat]

end

-- data of another device's XPUT (R103, R342, R408)

section

variable {s : State} {asid : Nat} (addr : W64)

/-- Data for a context that is not resident are dropped; a notification without data needs no context. -/
theorem xputReceive_noContext (hslot : s.slotOfAsid asid = none) (data : List Byte) (notify : Option Nat) :
    exec (.xputReceive asid addr data notify) s = .next (if data = [] then s.countDone notify else s) := by
  change execXputReceive asid addr data notify s = _
  simp only [execXputReceive, hslot]

variable {t : State} {k : Nat} {data : List Byte} (notify : Option Nat) (hslot : s.slotOfAsid asid = some k)
include hslot

/-- Data of which every page takes its part, without use of the bounce ring, are performed at once when BNCRP covers what the
transfer put there before a stop. -/
theorem xputReceive_lands (hdata : data ≠ []) (hin : s.incoming k (pageRuns (data.length / 65536 + 2) addr.toNat data) false = .ok (t, false, []))
    (hring : (t.ctx k).bncSeq = (s.ctx k).bncSeq)
    (hread : (s.ctx k).usedSeq addr.toNat ≤ ((t.modCtx k (fun c => { c with partial_ := Tab.del c.partial_ addr.toNat })).ctx k).bncrp) :
    exec (.xputReceive asid addr data notify) s =
      .next ((t.modCtx k (fun c => { c with partial_ := Tab.del c.partial_ addr.toNat })).countDone notify) := by
  have hused : (decide ((t.ctx k).bncSeq = (s.ctx k).bncSeq) && data != []) = true := by simp [hring, hdata]
  change execXputReceive asid addr data notify s = _
  simp only [execXputReceive, hslot, hin, hused, if_true, Bool.false_eq_true, if_false]
  exact if_pos hread

/-- Data that have still to land come again, from the first byte that has not landed. -/
theorem xputReceive_stalls {va : Nat} {bs : List Byte} {r : List (Nat × List Byte)}
    (hin : s.incoming k (pageRuns (data.length / 65536 + 2) addr.toNat data) false = .ok (t, false, (va, bs) :: r)) :
    ∃ v : State, exec (.xputReceive asid addr data notify) s =
      .next { v with inbox := t.inbox ++ [.xputReceive asid (BitVec.ofNat 64 va) (bs ++ r.flatMap (·.2)) notify] } ∧ v.mem = t.mem := by
  change ∃ v : State, execXputReceive asid addr data notify s = _ ∧ _
  simp only [execXputReceive, hslot, hin]
  exact ⟨_, rfl, rfl⟩

end

-- requests of another device's XGET (R103, R341)

section

variable {s : State} {asid : Nat} (addr : W64)

/-- A request for a context that is not resident fails. -/
theorem xgetRequest_noContext (hslot : s.slotOfAsid asid = none) (n : Nat) :
    exec (.xgetRequest asid addr n) s = .next (s.send (.xgetData [] errFault)) := by
  change execXgetRequest asid addr n s = _
  simp only [execXgetRequest, hslot]

/-- An engine's read of unmarked places gives their bytes and no error. -/
theorem State.engineRead_unmarked (s : State) {marked : Nat → Bool} (byte : Nat → Byte) {locs : List Nat} (hm : ∀ a ∈ locs, marked a = false) :
    s.engineRead marked byte locs = (locs.map byte, 0, s) := by
  have hany : locs.any marked = false := by simpa using hm
  simp only [State.engineRead, hany, Bool.false_eq_true, if_false]

variable {k n : Nat} (hslot : s.slotOfAsid asid = some k)
include hslot

/-- A request that meets a POISON page is answered with zeros and POISON. -/
theorem xgetRequest_poison (hpages : s.segPages k .read addr.toNat n = .poison) :
    exec (.xgetRequest asid addr n) s = .next (s.send (.xgetData (List.replicate n 0) errPoison)) := by
  change execXgetRequest asid addr n s = _
  simp only [execXgetRequest, hslot, hpages]

/-- A request for bytes of which none is marked uncorrectable is answered with what committed memory holds. -/
theorem xgetRequest_reads {ps : List PageTr} (hpages : s.segPages k .read addr.toNat n = .ok ps)
    (hgood : ∀ j < n, (Tab.find? s.uncorr ((pageOf ps (addr.toNat + j)).loc (addr.toNat + j))).isSome = false) :
    exec (.xgetRequest asid addr n) s =
      .next (s.send (.xgetData ((List.range n).map (fun j => s.commByte ((pageOf ps (addr.toNat + j)).loc (addr.toNat + j)))) 0)) := by
  have hunmarked : ∀ va ∈ (List.range n).map (· + addr.toNat), (Tab.find? s.uncorr ((pageOf ps va).loc va)).isSome = false := by
    intro va hva
    obtain ⟨j, hj, rfl⟩ := List.mem_map.mp hva
    rw [Nat.add_comm]
    exact hgood j (List.mem_range.mp hj)
  change execXgetRequest asid addr n s = _
  simp only [execXgetRequest, hslot, hpages, s.engineRead_unmarked _ hunmarked, List.map_map]
  simp only [Function.comp_def, Nat.add_comm _ addr.toNat]

end

/-- Settles O40: a transfer that passes its checks is issued, and each case of data and of requests of another device is met. -/
theorem deviceTransfersComplete : Obligations.DeviceTransfersComplete := by
  unfold Obligations.DeviceTransfersComplete
  refine ⟨fun h f r he hr => ?_, fun s asid addr data notify hslot => ⟨xputReceive_noContext addr hslot data notify, xgetRequest_noContext addr hslot⟩,
    fun s t asid k addr data notify hslot hdata => ?_,
    fun s asid k addr n hslot => ⟨xgetRequest_poison addr hslot, fun ps => xgetRequest_reads addr hslot⟩⟩
  · intro x ok
    have hok : ∀ writes s i, ok writes s i → XferChecks f r writes s i := by
      rintro writes s i ⟨hd, ha, hb, hc, hmin, hmax, hlen, hspad, hglob, hrank, hsize, habar, hfits, hfree, hroom⟩
      exact ⟨hd, ha, hb, hc, hmin, hmax, hlen, hspad, hglob, hrank, hsize, habar, hfits, hfree, hroom⟩
    exact ⟨(xget_completes he hr h).mono (hok true) (fun _ _ _ ht => ht), (xput_completes he hr h).mono (hok false) (fun _ _ _ ht => ht)⟩
  · exact ⟨xputReceive_lands addr notify hslot hdata, fun va bs r => xputReceive_stalls addr notify hslot⟩

end Sys2Proof.Machine
end

section
/-! SUPPORT. `BAR` and `SLEEP` (R117, R127, R324, R334): what each leaves when its checks pass, what the expiry of a `SLEEP` leaves, and
the statement about them. -/

namespace Sys2Proof.Machine

open Sys2Proof

-- BAR (R127, R324)

/-- Outside handler state `BAR` is a scoped instruction whose gangs only go on. -/
theorem exec_bar (h : Hdr) (f : FmtT) {s : State} {i : Issuer} (hi : s.Issues i) (hh : i.g.handler = false) :
    exec (.bar h f) s = s.wideOp h f.imm.toNat [.set, .team] (fun s w => .ok (s.passAll w.p)) := by
  change execBar h f s = _
  simp only [execBar, hi.1, hh, Bool.false_eq_true, if_false]

/-- `BAR` that all gangs of its scope have reached lets them go on. -/
theorem bar_passes {h : Hdr} {f : FmtT} {s s' : State} {i : Issuer} {w : Wide} (hi : s.Issues i) (hs : h.scp = .set ∨ h.scp = .team)
    (hw : s.Starts i h f.imm.toNat s' w) (hh : i.g.handler = false) : ∃ t, PerformsIn (.bar h f) s s' w.p t ∧ s'.WidePassed t w id := by
  have hlegal : [Scope.set, Scope.team].contains h.scp = true := by rcases hs with hs | hs <;> rw [hs] <;> rfl
  exact wide_passes (exec_bar h f hi hh) hi hlegal hw id rfl

-- SLEEP (R117, R334)

/-- What a `SLEEP` with a count leaves: with 0 the unit goes on with an empty L1, else it waits for its expiry. -/
def State.slept (s : State) (i : Issuer) (count : Nat) : State :=
  if count = 0 then (s.passUnit i).dropL1 i.tm.core else s.waitAll i.performer .sleep

/-- `SLEEP` with a count of at most 2^24 completes. -/
theorem sleep_completes (h : Hdr) (f : FmtT) :
    UnitCompletes (.sleep h f) h (fun _ i => natSrcOk f.a = true ∧ (i.g.rdScalar f.a).toNat ≤ 2 ^ 24)
      (fun s i t => t = s.slept i (i.g.rdScalar f.a).toNat) := by
  rintro s i hi hs ⟨ha, hmax⟩
  refine ⟨_, unit_completes (fun _ => rfl) hi hs ?_, rfl⟩
  simp only [ha, decide_eq_false (Nat.not_lt.mpr hmax), Bool.not_true, ill_ok, ok_bind]
  exact (apply_ite Except.ok _ _ _).symm

/-- The expiry of a unit whose slices all sleep lets them go on with an empty L1. -/
theorem sleepExpiry_passes {s : State} {u : UnitId} {t : Team} (ht : s.team? u.team = some t) (hne : unitSlices (t.gang u.gang) u ≠ [])
    (hall : ∀ k ∈ unitSlices (t.gang u.gang) u, ((t.gang u.gang).slice k).live = true ∧ ((t.gang u.gang).slice k).wait = .sleep) :
    exec (.sleepExpiry u) s = .next ((s.modGang u.team u.gang (fun g => g.pass (unitSlices (t.gang u.gang) u))).dropL1 t.core) := by
  have hdue : (!(unitSlices (t.gang u.gang) u).all
      (fun k => ((t.gang u.gang).slice k).live && ((t.gang u.gang).slice k).wait == .sleep)) = false := by
    simpa using hall
  change execSleepExpiry u s = _
  simp only [execSleepExpiry, ht, hdue, List.isEmpty_eq_false_iff.mpr hne, Bool.or_self, Bool.false_eq_true, if_false]

/-- Settles O34: `BAR` is a scoped instruction that changes nothing but where its gangs stand; `SLEEP` goes on at once or at its expiry. -/
theorem barriersAndSleepComplete : Obligations.BarriersAndSleepComplete := by
  unfold Obligations.BarriersAndSleepComplete
  refine fun h f => ⟨fun s i s' w hi hs hw hh => bar_passes hi hs hw hh, fun s i hi hs hok => ?_, fun s u t ht => sleepExpiry_passes ht⟩
  obtain ⟨t, hp, rfl⟩ := sleep_completes h f s i hi hs hok
  exact ⟨_, hp, fun hz => if_pos hz, fun hz => if_neg hz⟩

end Sys2Proof.Machine
end

section
/-! SUPPORT. Abars (R120, R150 to R154, R293, R294): the checks of each instruction on them and what it leaves when they pass, and the
statement about them. -/

namespace Sys2Proof.Machine

open Sys2Proof

/-- The abar that A names (R293). -/
def Issuer.abarAt (i : Issuer) (f : FmtT) : Nat := (i.g.rdS (sIdx f.a)).toNat

/-- The count, the bytes or the phase that B names (R293). -/
def Issuer.abarArg (i : Issuer) (f : FmtT) : Nat := (i.g.rdScalar f.b).toNat

-- ABINIT (R150, R152, R293)

/-- The checks of `ABINIT` in their order (R293). -/
structure AbinitChecks (f : FmtT) (s : State) (i : Issuer) : Prop where
  addr      : sOk f.a = true
  count     : natSrcOk f.b = true
  align     : i.abarAt f % 16 = 0
  countMax  : i.abarArg f ≤ 65535
  idle      : i.tm.abars.contains (i.abarAt f) = true → s.abarBusy i.unit.team i.tm (i.abarAt f) = false
  room      : i.abarArg f ≠ 0 → i.tm.abars.contains (i.abarAt f) = false → i.tm.abars.length < 64
  fits      : i.abarAt f + 16 ≤ i.tm.spadSize
  unguarded : ({ i.tm with abars := [] } : Team).guarded (i.abarAt f) 16 = false
  landed    : i.tm.pendingAt (i.abarAt f) 16 = false

/-- A team with an abar set up for a count of arrivals as the last of the list, or with a count of 0 cleared and off the list. -/
def Team.initAbar (t : Team) (a count : Nat) (others : List Nat) : Team :=
  if count = 0 then { (t.setSpad a (List.replicate 16 0)) with abars := others }
  else { (t.setAbar a { expb := 0, arrv := count, inita := count, phase := 0, erro := 0, errl := 0, live := true }) with abars := others ++ [a] }

/-- An `ABINIT` that passes its checks sets the abar up or clears it. -/
theorem abinit_completes (h : Hdr) (f : FmtT) :
    GangCompletes (.abinit h f) h (AbinitChecks f) (fun s i t => t = (s.passUnit i).modTeam i.unit.team (fun t =>
      t.initAbar (i.abarAt f) (i.abarArg f) (i.tm.abars.filter (fun x => x != i.abarAt f)))) := by
  refine gang_completes (fun _ => rfl) (fun _ s _ i _ _ hc => ⟨_, ?_, rfl⟩)
  have hvalues : (i.abarAt f % 16 != 0 || decide (65535 < i.abarArg f)) = false := by simpa [hc.align] using hc.countMax
  have hidle : (i.tm.abars.contains (i.abarAt f) && s.abarBusy i.unit.team i.tm (i.abarAt f)) = false := by
    rw [Bool.and_eq_false_imp]; exact hc.idle
  have hroom : (i.abarArg f != 0 && !i.tm.abars.contains (i.abarAt f) && decide (64 ≤ i.tm.abars.length)) = false := by
    rw [Bool.and_eq_false_imp, Bool.and_eq_true, bne_iff_ne, Bool.not_eq_true']
    rintro ⟨hcount, hnew⟩
    exact decide_eq_false (Nat.not_le.mpr (hc.room hcount hnew))
  have hfits : decide (i.tm.spadSize < i.abarAt f + 16) = false := decide_eq_false (Nat.not_lt.mpr hc.fits)
  have hguard := hc.unguarded
  have hlanded := hc.landed
  unfold Issuer.abarAt Issuer.abarArg at *
  simp only [hc.addr, hc.count, hvalues, hidle, hroom, hfits, hguard, hlanded, Bool.not_true, Bool.or_self, ill_ok, trap_ok, ok_bind]
  rfl

-- ABARR and ABEXP (R96, R152, R293)

/-- The checks of an `ABARR` (R293). -/
structure AbarrChecks (f : FmtT) (i : Issuer) : Prop where
  addr   : sOk f.a = true
  listed : i.tm.abars.contains (i.abarAt f) = true
  due    : (i.tm.abar (i.abarAt f)).arrv ≠ 0
  landed : i.tm.pendingAt (i.abarAt f) 16 = false

/-- An `ABARR` that passes its checks makes one arrival, which may complete the phase (R153). -/
theorem abarr_completes (h : Hdr) (f : FmtT) :
    GangCompletes (.abarr h f) h (fun _ i => AbarrChecks f i) (fun s i t => t = (s.passUnit i).modTeam i.unit.team (fun t =>
      t.modAbar (i.abarAt f) (fun b => ({ b with arrv := b.arrv - 1 }).settle))) := by
  refine gang_completes (fun _ => rfl) (fun _ s _ i _ _ hc => ⟨_, ?_, rfl⟩)
  obtain ⟨haddr, hlisted, hdue, hlanded⟩ := hc
  unfold Issuer.abarAt at *
  simp only [haddr, checkAbar_ok hlisted, decide_eq_false hdue, hlanded, Bool.not_true, ill_ok, trap_ok, ok_bind]

/-- The checks of an `ABEXP` (R293). -/
structure AbexpChecks (f : FmtT) (i : Issuer) : Prop where
  addr     : sOk f.a = true
  bytes    : natSrcOk f.b = true
  listed   : i.tm.abars.contains (i.abarAt f) = true
  bytesMax : i.abarArg f < 2 ^ 32
  sumMax   : (i.tm.abar (i.abarAt f)).expb + i.abarArg f < 2 ^ 32
  landed   : i.tm.pendingAt (i.abarAt f) 16 = false

/-- An `ABEXP` that passes its checks adds to the bytes that the open phase expects. -/
theorem abexp_completes (h : Hdr) (f : FmtT) :
    GangCompletes (.abexp h f) h (fun _ i => AbexpChecks f i) (fun s i t => t = (s.passUnit i).modTeam i.unit.team (fun t =>
      t.modAbar (i.abarAt f) (fun b => ({ b with expb := b.expb + i.abarArg f }).settle))) := by
  refine gang_completes (fun _ => rfl) (fun _ s _ i _ _ hc => ⟨_, ?_, rfl⟩)
  obtain ⟨haddr, hbytes, hlisted, hmax, hsum, hlanded⟩ := hc
  unfold Issuer.abarAt Issuer.abarArg at *
  simp only [haddr, hbytes, checkAbar_ok hlisted, decide_eq_false (Nat.not_le.mpr hmax), decide_eq_false (Nat.not_le.mpr hsum), hlanded,
    Bool.not_true, Bool.or_self, ill_ok, trap_ok, ok_bind]

-- ABWAIT and ABTEST (R154, R293, R294)

/-- How many phases the open phase of the abar is past the one asked for, modulo 2^32 (R154). -/
def Issuer.phaseAge (i : Issuer) (f : FmtT) : Nat := ((i.tm.abar (i.abarAt f)).phase + 2 ^ 32 - i.abarArg f) % 2 ^ 32

/-- What a query finds (R154): nothing of the open phase, else the error byte of the last completed phase, or 0x80 of an older one. -/
def Issuer.phaseFound (i : Issuer) (f : FmtT) : Option Byte :=
  if i.phaseAge f = 0 then none else some (if i.phaseAge f = 1 then (i.tm.abar (i.abarAt f)).errl else 0x80)

/-- The checks of `ABWAIT` and `ABTEST`, whose destination is legal when `d` says so (R154, R293). -/
structure PhaseChecks (f : FmtT) (d : Bool) (i : Issuer) : Prop where
  dest     : d = true
  addr     : sOk f.a = true
  number   : natSrcOk f.b = true
  listed   : i.tm.abars.contains (i.abarAt f) = true
  phaseMax : i.abarArg f < 2 ^ 32
  opened   : i.phaseAge f < 2 ^ 31

/-- A query that passes its checks finds the abar and its answer. -/
theorem PhaseChecks.operands {f : FmtT} {d : Bool} {i : Issuer} (hc : PhaseChecks f d i) :
    i.phaseOperands f d = .ok (i.abarAt f, i.phaseFound f) := by
  have hoperands : (!d || !sOk f.a || !natSrcOk f.b) = false := by simp [hc.dest, hc.addr, hc.number]
  have hnumber : illegalOperandIf (decide (2 ^ 32 ≤ (i.g.rdScalar f.b).toNat)) = .ok () := ill_ok (decide_eq_false (Nat.not_le.mpr hc.phaseMax))
  have hquery : (i.tm.abar (i.abarAt f)).query (i.abarArg f) = .ok (i.phaseFound f) := query_ok hc.opened
  unfold Issuer.abarAt Issuer.abarArg at *
  rw [Issuer.phaseOperands, ill_ok hoperands, ok_bind, checkAbar_ok hc.listed, ok_bind]
  dsimp only
  rw [hnumber, ok_bind, hquery, ok_bind]

/-- An `ABTEST` that passes its checks reports what it finds. -/
theorem abtest_completes (h : Hdr) (f : FmtT) :
    GangCompletes (.abtest h f) h (fun _ i => PhaseChecks f (sOk f.d) i) (fun s i t => t = s.report i h f.d true (i.phaseFound f)) := by
  refine gang_completes (fun _ => rfl) (fun _ s _ i _ _ hc => ⟨_, ?_, rfl⟩)
  simp only [hc.operands, ok_bind]

section

variable {h : Hdr} {f : FmtT} {s s' : State} {i i' : Issuer} (hi : s.Issues i) (hs : h.scp = .gang) (hg : s.GangStarts i s' i')
  (hc : PhaseChecks f (sOk f.d || f.d == .zero) i')
include hi hs hg hc

/-- An `ABWAIT` for the open phase waits. -/
theorem abwait_waits (hage : i'.phaseAge f = 0) :
    exec (.abwait h f) s = .next ((s'.waitAll i'.performer (.abar (i'.abarAt f) (i'.abarArg f))).trySave i'.unit.team) := by
  change s.gangOp h _ = _
  simp only [gangOp_starts hi.1 hs hg, hc.operands, ok_bind, Issuer.phaseFound, hage, if_true]
  rfl

/-- An `ABWAIT` for a completed phase reports it. -/
theorem abwait_reports (hage : i'.phaseAge f ≠ 0) :
    PerformsIn (.abwait h f) s s' i'.performer
      (s'.report i' h f.d false (some (if i'.phaseAge f = 1 then (i'.tm.abar (i'.abarAt f)).errl else 0x80))) := by
  change s.gangOp h _ = _
  simp only [gangOp_starts hi.1 hs hg, hc.operands, ok_bind, Issuer.phaseFound, hage, if_false]
  rfl

end

/-- A gang that has received the error byte of a completed phase: in a scalar destination with bit 8 set, in TMO, and from `ABTEST`
with Z clear (R294). -/
def Gang.reported (g : Gang) (d : Operand) (test : Bool) (e : Byte) : Gang :=
  let r := (match d with | .s k => g.wrS k.toNat (BitVec.ofNat 64 (e.toNat + 2 ^ 8)) | _ => g).setCc ccTmo (e &&& errTimeout != 0)
  if test then r.setCc ccZ false else r

/-- A completed phase without an engine error is reported: the join empties the core's L1, and the gang goes on (R120, R154). -/
theorem State.report_completed (s : State) (i : Issuer) (h : Hdr) (d : Operand) (test : Bool) {e : Byte} (he : errTraps e = false) :
    s.report i h d test (some e) = (s.dropL1 i.tm.core).passWith i (fun g => g.reported d test e) :=
  if_neg (by simp [he])

/-- Settles O39: every instruction on an abar that passes its checks completes, and an `ABWAIT` for the open phase waits. -/
theorem abarsComplete : Obligations.AbarsComplete := by
  unfold Obligations.AbarsComplete
  intro h f at_ n others phase age error
  have hphase : ∀ {d : Bool} {i : Issuer}, phase d i → age i < 2 ^ 31 → PhaseChecks f d i :=
    fun ⟨hd, ha, hb, hlisted, hmax⟩ hage => ⟨hd, ha, hb, hlisted, hmax, hage⟩
  refine ⟨?_, ?_, ?_, fun s i s' i' hi hs hg hp hage => ⟨abwait_waits hi hs hg (hphase hp hage), abwait_reports hi hs hg (hphase hp hage)⟩, ?_,
    fun s i d test e he => s.report_completed i h d test he⟩
  · refine (abinit_completes h f).mono (fun s i hok => ?_) (fun _ _ _ ht => ht)
    obtain ⟨ha, hb, halign, hmax, hidle, hroom, hfits, hguard, hlanded⟩ := hok
    exact ⟨ha, hb, halign, hmax, hidle, hroom, hfits, hguard, hlanded⟩
  · exact (abarr_completes h f).mono (fun _ _ ⟨ha, hlisted, hdue, hlanded⟩ => ⟨ha, hlisted, hdue, hlanded⟩) (fun _ _ _ ht => ht)
  · refine (abexp_completes h f).mono (fun s i hok => ?_) (fun _ _ _ ht => ht)
    obtain ⟨ha, hb, hlisted, hmax, hsum, hlanded⟩ := hok
    exact ⟨ha, hb, hlisted, hmax, hsum, hlanded⟩
  · exact (abtest_completes h f).mono (fun _ _ ⟨hp, hage⟩ => hphase hp hage) (fun _ _ _ ht => ht)

end Sys2Proof.Machine
end

section
/-! SUPPORT. Prefetch, fences and L1 maintenance (R118, R123, R283 to R285): they change what cores hold and which free values are used,
and nothing else but where the issuing unit stands; and the statement about them. -/

namespace Sys2Proof.Machine

open Sys2Proof

-- what changes in the device

/-- Only the cores' own records and the number of free values used differ. -/
def State.OnlyCores (s t : State) : Prop := t = { s with cores := t.cores, free := t.free }

theorem State.OnlyCores.refl (s : State) : s.OnlyCores s := rfl

theorem State.OnlyCores.trans {s t u : State} (h : s.OnlyCores t) (h' : t.OnlyCores u) : s.OnlyCores u := by
  unfold State.OnlyCores at h h' ⊢
  rw [h', h]

theorem State.OnlyCores.modCore (s : State) (core : Nat) (f : CoreRec → CoreRec) : s.OnlyCores (s.modCore core f) := rfl

theorem State.OnlyCores.ite {s t u : State} {c : Prop} [Decidable c] (h : s.OnlyCores t) (h' : s.OnlyCores u) : s.OnlyCores (if c then t else u) := by
  split
  · exact h
  · exact h'

theorem State.OnlyCores.team {s t : State} (h : s.OnlyCores t) (id : Nat) : t.team? id = s.team? id := by rw [h]; rfl

theorem State.OnlyCores.foldl {α : Type} (l : List α) (f : State → α → State) (hf : ∀ (s : State), ∀ x ∈ l, s.OnlyCores (f s x)) (s : State) :
    s.OnlyCores (l.foldl f s) := by
  induction l generalizing s with
  | nil => exact .refl s
  | cons x r ih => exact (hf s x (List.mem_cons_self ..)).trans (ih (fun s y hy => hf s y (List.mem_cons_of_mem _ hy)) _)

theorem State.OnlyCores.evictL1 (s : State) (core loc : Nat) : s.OnlyCores (s.evictL1 core loc) := by
  unfold State.evictL1
  exact .ite (.refl s) rfl

theorem State.OnlyCores.refillL1 (s : State) (core : Nat) (w : Viewer) (imm : Bool) (loc : Nat) : s.OnlyCores (s.refillL1 core w imm loc) := by
  rw [refillL1_eq]
  exact (State.OnlyCores.modCore ..).trans (.evictL1 ..)

theorem State.OnlyCores.refillLine (s : State) (core : Nat) (w : Viewer) (imm : Bool) (loc : Nat) : s.OnlyCores (s.refillLine core w imm loc) :=
  State.OnlyCores.foldl _ _ (fun s k _ => State.OnlyCores.refillL1 s core w imm (loc / 128 * 128 + 32 * k)) s

-- going on

/-- The unit's gang is one of the state's, and the unit's slices are different live ones. -/
structure Issuer.Placed (s : State) (i : Issuer) : Prop where
  team  : s.team? i.unit.team = some i.tm
  gang  : i.g = i.tm.gang i.unit.gang
  apart : i.Apart

theorem Issues.placed {s : State} {i : Issuer} (hi : s.Issues i) : i.Placed s := by
  obtain ⟨hteam, hgang, -⟩ := Issuer.eq hi.1
  exact ⟨hteam, hgang, hi.2.toApart⟩

theorem GangStarts.placed {s s' : State} {i i' : Issuer} (hi : s.Issues i) (hg : s.GangStarts i s' i') : i'.Placed s' := by
  obtain ⟨hteam, hgang, -⟩ := GangStarts.issues hi hg
  exact ⟨hteam, hgang, GangStarts.apart hi hg⟩

/-- The unit has gone on, and of the rest of the device only cores' records and the number of free values used differ. -/
def State.WentOnly (s : State) (i : Issuer) (t : State) : Prop :=
  ∃ s1 g', t = s1.withGang i g' ∧ i.g.WentOn g' i.slices (fun k => nextSlot (i.g.slice k).pc) ∧ s.OnlyCores s1

/-- A unit goes on after a change of cores. -/
theorem State.OnlyCores.wentOnly {s s1 : State} {i : Issuer} (hc : s.OnlyCores s1) (hp : i.Placed s) : s.WentOnly i (s1.passUnit i) := by
  refine ⟨s1, i.g.pass i.slices, ?_, Gang.wentOn_pass hp.apart.apart (fun k hk => (hp.apart.slice k hk).2), hc⟩
  exact State.modGang_at ((hc.team _).trans hp.team) _ (fun _ => i.g.pass i.slices) (by rw [hp.gang])

/-- Emptying a core's L1 and going on may be exchanged. -/
theorem State.dropL1_passUnit (s : State) (i : Issuer) (core : Nat) : (s.passUnit i).dropL1 core = (s.dropL1 core).passUnit i := rfl

/-- A core whose copies are dropped has an empty L1, also after a unit has gone on. -/
theorem State.dropL1_empty (s : State) (i : Issuer) (core : Nat) : (((s.dropL1 core).passUnit i).core core).l1 = [] := by
  have hcore : ((s.dropL1 core).passUnit i).core core = (s.dropL1 core).core core := rfl
  rw [hcore, State.dropL1, State.core_modCore, if_pos rfl]

-- FENCE (R118, R284)

/-- A device before its unit passes a fence: an acquire beyond the team makes the core's L1 current. -/
def State.fenced (s : State) (i : Issuer) (f : FmtM) : State := if f.ord != .rel && f.vis != .team then s.dropL1 i.tm.core else s

/-- What a fence leaves. -/
def FenceDone (f : FmtM) (s : State) (i : Issuer) (t : State) : Prop :=
  s.WentOnly i t ∧ (f.ord ≠ .rel → f.vis ≠ .team → (t.core i.tm.core).l1 = [])

theorem fenced_done {f : FmtM} {s : State} {i : Issuer} (hp : i.Placed s) : FenceDone f s i ((s.fenced i f).passUnit i) := by
  unfold State.fenced
  by_cases hacq : (f.ord != .rel && f.vis != .team) = true
  · rw [if_pos hacq]
    exact ⟨(State.OnlyCores.modCore ..).wentOnly hp, fun _ _ => s.dropL1_empty i _⟩
  · rw [if_neg hacq]
    exact ⟨(State.OnlyCores.refl s).wentOnly hp, fun hord hvis => absurd (by simp [hord, hvis]) hacq⟩

/-- The effect of a fence as the model writes it: the unit goes on, then its core's L1 is made current. -/
theorem fenced_passUnit (s : State) (i : Issuer) (f : FmtM) :
    (if f.ord != .rel && f.vis != .team then (s.passUnit i).dropL1 i.tm.core else s.passUnit i) = (s.fenced i f).passUnit i := by
  rw [State.fenced, apply_ite (fun s : State => s.passUnit i), State.dropL1_passUnit]

theorem fence_unit_completes (h : Hdr) (f : FmtM) : UnitCompletes (.fence h f) h (fun _ _ => True) (FenceDone f) := by
  intro s i hi hs _
  refine ⟨_, ?_, fenced_done (Issues.placed hi)⟩
  change execFence h f s = _
  simp only [execFence, hs, fenced_passUnit]
  exact lane_ok hi.1 hs _ rfl

theorem fence_gang_completes (h : Hdr) (f : FmtM) : GangCompletes (.fence h f) h (fun _ _ => True) (FenceDone f) := by
  intro s i s' i' hi hs hg _
  refine ⟨_, ?_, fenced_done (GangStarts.placed hi hg)⟩
  change execFence h f s = _
  simp only [execFence, hs, fenced_passUnit]
  exact gangWide_starts hi.1 hg _

-- PLD and CMAINT (R283, R285)

/-- The operands of a global access that names no data are legal (R237). -/
structure AddressOk (f : FmtM) (i : Issuer) : Prop where
  base  : baseOk i.tm.nregs .global false f.a = true
  index : indexOk i.tm.nregs false f.b = true

theorem AddressOk.memOperands {f : FmtM} {i : Issuer} (ha : AddressOk f i) : memOperands i.tm f .global false true true = .ok () :=
  ill_ok (by simp [ha.base, ha.index])

/-- A prefetch completes; what its lanes bring in, or skip, changes L1 only. -/
theorem pld_completes (h : Hdr) (room : Bool) (f : FmtM) : UnitCompletes (.pld h room f) h (fun _ i => AddressOk f i) State.WentOnly := by
  intro s i hi hs ha
  refine ⟨?_, unit_completes (fun _ => rfl) hi hs ?runs, ?went⟩
  case runs =>
    simp only [ha.memOperands, ok_bind]
    rfl
  case went =>
    refine (State.OnlyCores.foldl _ _ (fun s x _ => ?_) s).wentOnly (Issues.placed hi)
    split
    · exact .ite (.refl s) (.foldl _ _ (fun s _ _ => .ite (.refillLine s ..) (.refl s)) s)
    · exact .refl s

/-- L1 maintenance on all lines empties the core's L1 when a lane is active. -/
theorem cmaint_all_completes (h : Hdr) (f : FmtM) :
    UnitCompletes (.cmaint h true f) h (fun _ _ => True) (fun s i t => s.WentOnly i t ∧ (i.active h ≠ [] → (t.core i.tm.core).l1 = [])) := by
  intro s i hi hs _
  refine ⟨_, unit_completes (fun _ => rfl) hi hs rfl, ?_⟩
  by_cases hact : i.active h = []
  · rw [if_pos hact]
    exact ⟨(State.OnlyCores.refl s).wentOnly (Issues.placed hi), fun hne => absurd hact hne⟩
  · rw [if_neg hact]
    exact ⟨(State.OnlyCores.modCore ..).wentOnly (Issues.placed hi), fun _ => s.dropL1_empty i _⟩

/-- L1 maintenance on the lines that the active lanes name drops lines from L1, and skips a lane whose translation fails. -/
theorem cmaint_lines_completes (h : Hdr) (f : FmtM) :
    UnitCompletes (.cmaint h false f) h (fun _ i => AddressOk f i) State.WentOnly := by
  intro s i hi hs ha
  refine ⟨?_, unit_completes (fun _ => rfl) hi hs ?runs, ?went⟩
  case runs =>
    simp only [ha.memOperands, ok_bind, Bool.false_eq_true, if_false]
    rfl
  case went =>
    refine (State.OnlyCores.foldl _ _ (fun s x _ => ?_) s).wentOnly (Issues.placed hi)
    split
    · exact .modCore s ..
    · exact .refl s

/-- Settles O28: each of them changes cores only and lets its unit go on, and dropping all copies leaves L1 empty. -/
theorem fencesComplete : Obligations.FencesComplete := by
  unfold Obligations.FencesComplete
  intro h f room all kept operands
  refine ⟨fun s i hi hs ⟨hbase, hindex⟩ => pld_completes h room f s i hi hs ⟨hbase, hindex⟩, fun s i hi hs hok => ?_,
    fence_unit_completes h f, fence_gang_completes h f⟩
  cases all with
  | true =>
    obtain ⟨t, hp, hwent, hempty⟩ := cmaint_all_completes h f s i hi hs trivial
    exact ⟨t, hp, hwent, fun _ => hempty⟩
  | false =>
    obtain ⟨hbase, hindex⟩ := hok.resolve_left Bool.false_ne_true
    obtain ⟨t, hp, hwent⟩ := cmaint_lines_completes h f s i hi hs ⟨hbase, hindex⟩
    exact ⟨t, hp, hwent, fun hall => absurd hall Bool.false_ne_true⟩

end Sys2Proof.Machine
end

section
/-! SUPPORT. `CONFL`, `CMPRS` and `EXPND` (R145, R274): the lanes and values that each of them packs, and the statement about them. -/

namespace Sys2Proof.Machine

open Sys2Proof

-- CONFL (R145)

/-- The conflict mask of some lanes' values names the lanes that a lower lane with the same value precedes (R145). -/
theorem conflMask_lanes (ls : List Nat) (val : Nat → Nat) :
    conflMask (ls.map (fun l => (l, val l))) = maskOf (ls.filter (fun l => ls.any (fun k => decide (k < l) && val k == val l))) := by
  simp only [conflMask, List.filter_map, List.map_map, Function.comp_def, List.any_map, List.map_id']

/-- `CONFL` gives its mask register the conflict mask of the active lanes. -/
theorem confl_completes (h : Hdr) (f : FmtR) :
    GangCompletes (.confl h f) h (fun _ i => mDstOk f.d = true ∧ isV f.a = true ∧ laneSrcOk i.tm.nregs (tyPair f.ty) f.a = true)
      (GangBecomes (fun _ i g => g.wrM (mIdx f.d) (BitVec.ofNat 32 (conflMask ((i.active h).map (fun l => (l, i.g.rdLane f.ty f.a l))))))) := by
  refine gang_completes (fun _ => rfl) (fun _ s _ i hi hg hok => ⟨_, ?_, GangStarts.becomes hi hg _⟩)
  obtain ⟨hd, hv, ha⟩ := hok
  simp only [hd, hv, ha, Bool.not_true, Bool.or_self, ill_ok, ok_bind]

-- CMPRS and EXPND (R274)

/-- A gang whose lanes of D have received values, its bypass file shifted to what D then holds (R258, R274). -/
def Gang.moved (g : Gang) (i : Issuer) (w64 : Bool) (d : Operand) (vals : List (Nat × Nat)) : Gang :=
  let m := vals.foldl (fun g p => g.wrLane w64 d p.1 p.2) g
  m.shiftBypass i.lanes (fun l => BitVec.ofNat 64 (m.rdReg w64 d l))

/-- The operands of a compression or an expansion: two v registers of the type (R274). -/
structure PackOk (f : FmtR) (i : Issuer) : Prop where
  dstV : isV f.d = true
  srcV : isV f.a = true
  src  : laneSrcOk i.tm.nregs (tyPair f.ty) f.a = true
  dst  : laneSrcOk i.tm.nregs (tyPair f.ty) f.d = true

/-- An instruction that checks its two v operands and moves values into lanes of D completes. -/
theorem pack_completes {ins : Instr} {h : Hdr} {f : FmtR} {vals : Issuer → List (Nat × Nat)}
    (hx : ∀ s, exec ins s = s.gangOp h (fun s i => do
      illegalOperandIf (!isV f.d || !isV f.a || !laneSrcOk i.tm.nregs (tyPair f.ty) f.a || !laneSrcOk i.tm.nregs (tyPair f.ty) f.d)
      .ok (s.writeMoved i (tyPair f.ty) f.d (vals i)))) :
    GangCompletes ins h (fun _ i => PackOk f i) (GangBecomes (fun _ i g => g.moved i (tyPair f.ty) f.d (vals i))) := by
  refine gang_completes hx (fun _ s _ i hi hg hok => ⟨_, ?_, GangStarts.becomes hi hg _⟩)
  obtain ⟨hdv, hav, ha, hd⟩ := hok
  simp only [hdv, hav, ha, hd, Bool.not_true, Bool.or_self, ill_ok, ok_bind]
  rfl

/-- `CMPRS` moves the active lanes' values, in lane order, to the lowest lanes of D. -/
theorem cmprs_completes (h : Hdr) (f : FmtR) :
    GangCompletes (.cmprs h f) h (fun _ i => PackOk f i) (GangBecomes (fun _ i g =>
      g.moved i (tyPair f.ty) f.d ((List.range (i.active h).length).zip ((i.active h).map (i.g.rdLive f.ty f.a))))) :=
  pack_completes (fun _ => rfl)

/-- `EXPND` moves the values of the lowest lanes, in lane order, to the active lanes of D. -/
theorem expnd_completes (h : Hdr) (f : FmtR) :
    GangCompletes (.expnd h f) h (fun _ i => PackOk f i) (GangBecomes (fun _ i g =>
      g.moved i (tyPair f.ty) f.d ((i.active h).zip ((List.range (i.active h).length).map (i.g.rdLive f.ty f.a))))) :=
  pack_completes (fun _ => rfl)

/-- Settles O14: the mask is that of the lanes with a lower equal lane, and the two moves write D lane by lane and shift the bypass file. -/
theorem lanePackingCompletes : Obligations.LanePackingCompletes := by
  unfold Obligations.LanePackingCompletes
  intro h f w64
  have hok : ∀ i : Issuer, (isV f.d = true ∧ isV f.a = true ∧ laneSrcOk i.tm.nregs w64 f.a = true ∧ laneSrcOk i.tm.nregs w64 f.d = true) → PackOk f i :=
    fun _ ⟨hdv, hav, ha, hd⟩ => ⟨hdv, hav, ha, hd⟩
  refine ⟨(confl_completes h f).mono (fun _ _ => id) (fun s i t ht => ?_), (cmprs_completes h f).mono (fun _ i => hok i) (fun _ _ _ => id),
    (expnd_completes h f).mono (fun _ i => hok i) (fun _ _ _ => id)⟩
  simpa only [conflMask_lanes] using ht

end Sys2Proof.Machine
end

section
/-! SUPPORT. Atomics of the scratchpad (R119, R142, R286 to R288): what their units change of a team and of the order of accesses, what an
atomic that passes its checks leaves, and the statement about them. -/

namespace Sys2Proof.Machine

open Sys2Proof

-- what the units change

theorem Team.SameMops.refl (t : Team) : t.SameMops t := rfl

theorem Team.SameMops.trans {t u v : Team} (h : t.SameMops u) (h' : u.SameMops v) : t.SameMops v := Eq.trans h' h

/-- Operations in flight keep the scratchpad bytes that are replaced, and are otherwise as they were (R65). -/
theorem Team.sameMops_replacing (t : Team) (as : List Nat) : t.SameMops (t.replacing as) := List.map_map

theorem Team.sameMops_setSpad (t : Team) (a : Nat) (bs : List Byte) : t.SameMops (t.setSpad a bs) := t.sameMops_replacing _

/-- The units of a scratchpad atomic change of the operations in flight only what they have kept. -/
theorem Team.sameMops_atomUnits (j : AtomJob) (accs : List LaneAcc) (units : List Nat) (t : Team) : t.SameMops (t.atomUnits j accs units).2.2 := by
  induction units generalizing t with
  | nil => exact .refl t
  | cons va r ih =>
    have hfirst : t.SameMops (match (unitAt t j accs va).2 with | some v => t.setSpad va (leBytes (atomBytes j.ty) v) | none => t) := by
      cases (unitAt t j accs va).2 with
      | none => exact .refl t
      | some v => exact t.sameMops_setSpad va _
    exact hfirst.trans (ih _)

/-- Recording the units of a scratchpad atomic changes the order of accesses and nothing else (R119). -/
theorem State.onlyOrder_spadAtomics (s : State) (i : Issuer) (j : AtomJob) (accs : List LaneAcc) (t : Team) (units : List Nat) :
    s.OnlyOrder (s.spadAtomics i j accs t units) := by
  unfold State.spadAtomics
  induction units generalizing s with
  | nil => rfl
  | cons va r ih =>
    refine State.OnlyOrder.trans ?_ (ih _)
    rfl

-- an atomic that passes its checks

section

variable (h : Hdr) (o : Option AtomOp) (ty : AtomTy) (f : FmtM)

/-- The accesses of a scratchpad atomic (R286). -/
def Issuer.spadAtoms (i : Issuer) : List LaneAcc := i.g.accesses f .spad false (i.atomLanes h) (atomBytes ty)

/-- What the lanes that name the unit at an address combine to: their old values, and the new value where one is written (R142). -/
def Issuer.spadUnit (i : Issuer) (va : Nat) : List (Nat × Nat) × Option Nat :=
  unitAt i.tm (i.atomJob o ty f (i.atomLanes h)) (i.spadAtoms h ty f) va

/-- The checks of a scratchpad atomic (R57, R90, R91, R96, R286). -/
structure SpadAtomChecks (i : Issuer) : Prop where
  operands : atomOperands i.tm f .spad (h.scp == .gang) false (atomBytes ty) = true
  places   : ∀ x ∈ i.spadAtoms h ty f, x.va + atomBytes ty ≤ i.tm.spadSize ∧ x.va % atomBytes ty = 0 ∧
    i.tm.guarded x.va (atomBytes ty) = false ∧ i.tm.pendingAt x.va (atomBytes ty) = false

/-- The team after a scratchpad atomic's units, with their old values and whether one was written (R142, R288). -/
structure SpadAtomUnits (i : Issuer) (u : Team) (olds : List (Nat × Nat)) (wrote : Bool) : Prop where
  mops  : i.tm.SameMops u
  olds  : ∀ q, q ∈ olds ↔ ∃ x ∈ i.spadAtoms h ty f, q ∈ (i.spadUnit h o ty f x.va).1
  wrote : wrote = true ↔ ∃ x ∈ i.spadAtoms h ty f, (i.spadUnit h o ty f x.va).2.isSome = true
  kept  : ∀ a, (∀ x ∈ i.spadAtoms h ty f, a < x.va ∨ x.va + atomBytes ty ≤ a) → u.spadByte a = i.tm.spadByte a
  units : ∀ x ∈ i.spadAtoms h ty f, u.spadNat x.va (atomBytes ty) =
    ((i.spadUnit h o ty f x.va).2.getD (i.tm.spadNat x.va (atomBytes ty))) % 2 ^ (8 * atomBytes ty)

/-- What a scratchpad atomic leaves: the order of accesses, the team's scratchpad and what operations in flight have kept of it,
BANKROUND, and the destinations with the old values, now or with the lookahead (R65, R93, R119, R142, R220, R286). -/
def SpadAtomDone (s : State) (i : Issuer) (t : State) : Prop :=
  ∃ s1 u olds wrote, s.OnlyOrder s1 ∧ SpadAtomUnits h o ty f i u olds wrote ∧
    t = ((s1.modTeam i.unit.team (fun t => { t with spad := u.spad, mops := u.mops })).countRounds i.tm.core (i.spadAtoms h ty f)).passLate i h.la.toNat
      (atomDests h o ty false f (i.atomLanes h) olds wrote)

variable {h o ty f}

/-- A number read from the scratchpad fits its bytes. -/
theorem Team.spadNat_lt (t : Team) (a n : Nat) : t.spadNat a n < 2 ^ (8 * n) := by
  have := leNat_lt (t.spadBytes a n)
  rwa [Team.spadBytes, List.length_map, List.length_range] at this

/-- The units of an atomic whose accesses are aligned: each is named once, so the units lie apart and none sees another's write. -/
theorem SpadAtomChecks.units {i : Issuer} (hc : SpadAtomChecks h ty f i) :
    let r := i.tm.atomUnits (i.atomJob o ty f (i.atomLanes h)) (i.spadAtoms h ty f) (((i.spadAtoms h ty f).map (·.va)).eraseDups)
    SpadAtomUnits h o ty f i r.2.2 r.1 r.2.1 := by
  intro r
  have hunits : ∀ va, va ∈ ((i.spadAtoms h ty f).map (·.va)).eraseDups ↔ ∃ x ∈ i.spadAtoms h ty f, x.va = va := by simp
  have hapart := units_apart (n := atomBytes ty) (eraseDups_nodup ((i.spadAtoms h ty f).map (·.va))) (fun va hva => by
    obtain ⟨x, hx, rfl⟩ := (hunits va).mp hva
    exact (hc.places x hx).2.1)
  obtain ⟨holds, hwrote, hkept, -, hnew⟩ := atomUnits_spec (i.atomJob o ty f (i.atomLanes h)) (i.spadAtoms h ty f) _ hapart i.tm
  refine ⟨i.tm.sameMops_atomUnits _ _ _, fun q => (holds q).trans ?_, hwrote.trans ?_, fun a ha => hkept a (fun va hva => ?_), fun x hx => ?_⟩
  · simp [hunits, Issuer.spadUnit]
  · simp [hunits, Issuer.spadUnit]
  · obtain ⟨x, hx, rfl⟩ := (hunits va).mp hva
    exact ha x hx
  · refine (hnew x.va ((hunits x.va).mpr ⟨x, hx, rfl⟩)).trans ?_
    change (match (i.spadUnit h o ty f x.va).2 with | some v => v % 2 ^ (8 * atomBytes ty) | none => i.tm.spadNat x.va (atomBytes ty)) = _
    cases (i.spadUnit h o ty f x.va).2 with
    | none => exact (Nat.mod_eq_of_lt (i.tm.spadNat_lt ..)).symm
    | some v => rfl

/-- A scratchpad atomic that passes its checks is done. -/
theorem SpadAtomChecks.done {s : State} {i : Issuer} (hc : SpadAtomChecks h ty f i) :
    ∃ t, s.atomic i h o ty .spad false f = .ok (t, none) ∧ SpadAtomDone h o ty f s i t := by
  refine ⟨_, ?_, _, _, _, _, s.onlyOrder_spadAtomics i (i.atomJob o ty f (i.atomLanes h)) (i.spadAtoms h ty f) i.tm
    (((i.spadAtoms h ty f).map (·.va)).eraseDups), hc.units, rfl⟩
  have hsize : ∀ x ∈ i.spadAtoms h ty f, x.n = atomBytes ty := fun x hx => (mem_accesses hx).1
  have hplace : i.tm.spadCheck (i.spadAtoms h ty f) = .ok () := Team.spadCheck_ok (fun x hx => by
    rw [hsize x hx]
    exact ⟨(hc.places x hx).1, (hc.places x hx).2.1⟩)
  have hfree : i.tm.spadStoreCheck (i.spadAtoms h ty f) = .ok () := Team.spadStoreCheck_ok (fun x hx => by
    rw [hsize x hx]
    exact (hc.places x hx).2.2)
  unfold Issuer.spadAtoms at hplace hfree
  simp only [State.atomic, hc.operands, hplace, hfree, Bool.not_true, ill_ok, ok_bind]
  rfl

variable {ins : Instr} (hx : ∀ s, exec ins s = s.atomicOp h o ty .spad false f)
include hx

/-- A scratchpad atomic completes at LANE scope. -/
theorem spadAtomic_unit_completes : UnitCompletes ins h (fun _ i => SpadAtomChecks h ty f i) (SpadAtomDone h o ty f) := by
  intro s i hi hs hc
  obtain ⟨t, hrun, hdone⟩ := hc.done
  exact ⟨t, atomic_unit hx hi hs hrun, hdone⟩

/-- A scratchpad atomic completes at GANG scope. -/
theorem spadAtomic_gang_completes : GangCompletes ins h (fun _ i => SpadAtomChecks h ty f i) (SpadAtomDone h o ty f) := by
  intro s i s' i' hi hs hg hc
  obtain ⟨t, hrun, hdone⟩ := hc.done
  exact ⟨t, atomic_gang hx hi hs hg hrun, hdone⟩

end

/-- Settles O30: an atomic that passes its checks is done at either scope, its units combined one by one. -/
theorem scratchpadAtomicsComplete : Obligations.ScratchpadAtomicsComplete := by
  unfold Obligations.ScratchpadAtomicsComplete
  intro h op ty f n ok eff both
  have heff : ∀ o s i t, SpadAtomDone h o ty f s i t → eff o s i t := by
    rintro o s i t ⟨s1, u, olds, wrote, horder, hunits, ht⟩
    exact ⟨s1, u, olds, wrote, horder, hunits.mops, ht, hunits.olds, hunits.wrote, hunits.kept, hunits.units⟩
  have hboth : ∀ {ins : Instr} {o : Option AtomOp}, (∀ s, exec ins s = s.atomicOp h o ty .spad false f) → both ins o := by
    intro ins o hx
    refine ⟨fun s i hi hs hc => ?_, (spadAtomic_gang_completes hx).mono (fun _ _ hc => ⟨hc.1, hc.2⟩) (heff o)⟩
    obtain ⟨t, hp, hdone⟩ := spadAtomic_unit_completes hx s i hi hs ⟨hc.1, hc.2⟩
    exact ⟨t, hp, heff o s i t hdone⟩
  exact ⟨hboth fun _ => rfl, hboth fun _ => rfl⟩

end Sys2Proof.Machine
end

section
/-! SUPPORT. Software queues (R139 to R141, R332, R333): the checks of `QDEF`, `QPUSH` and `QPOP` and what each leaves when they pass, and
the statement about them. -/

namespace Sys2Proof.Machine

open Sys2Proof

-- QDEF (R139, R332)

/-- The allowance that `QDEF` gives each producer (R139). -/
def Wide.queueAllow (w : Wide) (f : FmtT) : Nat := (w.rep.rdScalar f.c).toNat

/-- The queue that `QDEF` defines: its ring and its producers, each with its allowance (R139). -/
def Wide.newQueue (w : Wide) (f : FmtT) : QDef :=
  let mask := (w.rep.rdScalar f.a).toNat % 2 ^ 32
  { ring := (w.rep.rdScalar f.d).toNat, depth := (w.rep.rdScalar f.b).toNat, mask := mask,
    allow := (onesOf 32 mask).map (fun i => (i, w.queueAllow f)) }

/-- The checks of `QDEF` for queue `q` in their order (R139, R332). -/
structure QdefChecks (f : FmtT) (q : Nat) (w : Wide) : Prop where
  ring      : sOk f.d = true
  producers : sSrcOk f.a = true
  depth     : natSrcOk f.b = true
  allow     : natSrcOk f.c = true
  below     : (w.newQueue f).ring < 2 ^ 32
  align     : (w.newQueue f).ring % 8 = 0
  gangs     : (w.newQueue f).mask < 2 ^ w.tm.gangs.length
  depthMin  : 0 < (w.newQueue f).depth
  depthMax  : (w.newQueue f).depth ≤ 256
  allowMin  : 0 < w.queueAllow f
  allowMax  : w.queueAllow f ≤ 256
  allowSum  : w.queueAllow f * (onesOf 32 (w.newQueue f).mask).length ≤ (w.newQueue f).depth
  idle      : w.tm.queueBusy q = false
  apart     : ∀ p ∈ w.tm.queues, p.1 ≠ q → overlaps (w.newQueue f).ring (8 * (w.newQueue f).depth) p.2.ring (8 * p.2.depth) = false
  offLinks  : w.tm.onLinks (w.newQueue f).ring (8 * (w.newQueue f).depth) = false
  fits      : (w.newQueue f).ring + 8 * (w.newQueue f).depth ≤ w.tm.spadSize
  landed    : w.tm.pendingAt (w.newQueue f).ring (8 * (w.newQueue f).depth) = false

/-- A `QDEF` that passes its checks defines its queue, and every gang of the team goes on. -/
theorem qdef_performs {h : Hdr} {f : FmtT} {s s' : State} {i : Issuer} {w : Wide} (hi : s.Issues i) (hs : h.scp = .team)
    (hw : s.Starts i h 0 s' w) (hc : QdefChecks f (f.imm.toNat % 32) w) :
    PerformsIn (.qdef h f) s s' w.p
      ((s'.modTeam w.p.team (fun t => { t with queues := Tab.put t.queues (f.imm.toNat % 32) (w.newQueue f) })).passAll w.p) := by
  obtain ⟨hd, ha, hb, hcr, hbelow, halign, hgangs, hdepthMin, hdepthMax, hallowMin, hallowMax, hsum, hidle, hapart, hlinks, hfits, hlanded⟩ := hc
  have hplace : (decide (2 ^ 32 ≤ (w.newQueue f).ring) || (w.newQueue f).ring % 8 != 0) = false := by simpa [halign] using hbelow
  have hcounts : (decide ((w.newQueue f).depth = 0) || decide (256 < (w.newQueue f).depth) || decide (w.queueAllow f = 0) ||
      decide (256 < w.queueAllow f)) = false := by
    simp [Nat.pos_iff_ne_zero.mp hdepthMin, hdepthMax, Nat.pos_iff_ne_zero.mp hallowMin, hallowMax]
  have hrings : w.tm.queues.any (fun p => p.1 != f.imm.toNat % 32 &&
      overlaps (w.newQueue f).ring (8 * (w.newQueue f).depth) p.2.ring (8 * p.2.depth)) = false := by
    simpa using hapart
  change execQdef h f s = _
  rw [execQdef, wideOp_starts hi.1 (by rw [hs]; rfl) hw]
  unfold Wide.newQueue Wide.queueAllow at *
  simp only [hd, ha, hb, hcr, hplace, decide_eq_false (Nat.not_le.mpr hgangs), hcounts, decide_eq_false (Nat.not_lt.mpr hsum), hidle, hrings, hlinks,
    decide_eq_false (Nat.not_lt.mpr hfits), hlanded, Bool.not_true, Bool.or_self, ill_ok, trap_ok, ok_bind, settle_ok]

-- QPUSH (R140, R141, R333)

/-- The address of the slot of a queue that the next push fills. -/
def QDef.nextSlot (d : QDef) : Nat := d.ring + 8 * (d.pushes % d.depth)

/-- What a push of `x` leaves (R140, R333): with no allowance left the gang goes on with Z; else the next slot holds `x`, the gang has
spent one unit and goes on, and blocked pops have been served. -/
def State.pushed (s : State) (i : Issuer) (try_ : Bool) (q : Nat) (d : QDef) (x : W64) : State :=
  if Tab.get d.allow 0 i.unit.gang = 0 then s.passWith i (fun g => g.setCc ccZ true)
  else ((s.modTeam i.unit.team (fun t => (t.setSpad d.nextSlot (leBytes 8 x.toNat)).modQueue q (·.pushed i.unit.gang))).passWith i
    (fun g => if try_ then g.setCc ccZ false else g)).serveQueue i.unit.team q 33

/-- The checks of a push that does not wait (R140, R333): the gang is a producer of the queue, the other form than `try` has allowance,
and no operation's landing is pending on the slot. -/
structure PushChecks (f : FmtT) (try_ : Bool) (q : Nat) (d : QDef) (i : Issuer) : Prop where
  source   : sSrcOk f.a = true
  queue    : i.tm.queue? q = some d
  producer : bitAt d.mask i.unit.gang = true
  room     : try_ = true ∨ Tab.get d.allow 0 i.unit.gang ≠ 0
  landed   : Tab.get d.allow 0 i.unit.gang ≠ 0 → i.tm.pendingAt d.nextSlot 8 = false

/-- A push that passes its checks completes. -/
theorem qpush_completes (h : Hdr) (try_ : Bool) (f : FmtT) (d : QDef) :
    GangCompletes (.qpush h try_ f) h (fun _ i => PushChecks f try_ (f.imm.toNat % 32) d i)
      (fun s i t => t = s.pushed i try_ (f.imm.toNat % 32) d (i.g.rdScalar f.a)) := by
  refine gang_completes (fun _ => rfl) (fun _ s _ i _ _ hc => ⟨_, ?_, rfl⟩)
  obtain ⟨ha, hq, hproducer, hroom, hlanded⟩ := hc
  simp only [ha, hq, hproducer, Bool.not_true, ill_ok, ok_bind, State.pushed]
  by_cases hnone : Tab.get d.allow 0 i.unit.gang = 0
  · have htry : try_ = true := hroom.resolve_right (absurd hnone)
    simp only [hnone, htry, if_true]
  · have hfree := hlanded hnone
    unfold QDef.nextSlot at hfree ⊢
    simp only [hnone, if_false, hfree, trap_ok, ok_bind]

-- QPOP (R140, R141, R333)

/-- What a pop of a queue into `s r` leaves (R140, R141, R333): the oldest entry is taken; of an empty queue the `try` form, and any pop
when no producer is left, receives 0 with Z, and else the gang waits behind those that already do. -/
def State.queuePopped (s : State) (i : Issuer) (try_ : Bool) (r q : Nat) (d : QDef) : State :=
  match d.owners with
  | _ :: _ => (s.modTeam i.unit.team (fun t => t.modQueue q QDef.popped)).passWith i (fun g =>
      let g := g.wrS r (i.tm.queueHead d)
      if try_ then g.setCc ccZ false else g)
  | [] =>
    if try_ || !i.tm.producing d then s.passWith i (fun g => (g.wrS r 0).setCc ccZ true)
    else (s.modTeam i.unit.team (fun t => t.modQueue q (fun d => { d with waiters := d.waiters ++ [(i.unit.gang, r)] }))).waitAll
      i.performer (.queue q)

section

variable {s : State} {i : Issuer} {try_ : Bool} {r q : Nat} {d : QDef}

theorem State.queuePopped_entry {o : Nat} {rest : List Nat} (h : d.owners = o :: rest) :
    s.queuePopped i try_ r q d = (s.modTeam i.unit.team (fun t => t.modQueue q QDef.popped)).passWith i (fun g =>
      let g := g.wrS r (i.tm.queueHead d)
      if try_ then g.setCc ccZ false else g) := by
  simp only [State.queuePopped, h]

theorem State.queuePopped_empty (h : d.owners = []) (hend : try_ = true ∨ i.tm.producing d = false) :
    s.queuePopped i try_ r q d = s.passWith i (fun g => (g.wrS r 0).setCc ccZ true) := by
  simp only [State.queuePopped, h]
  exact if_pos (by simpa using hend)

theorem State.queuePopped_waits (h : d.owners = []) (htry : try_ = false) (hlive : i.tm.producing d = true) :
    s.queuePopped i try_ r q d = (s.modTeam i.unit.team (fun t =>
      t.modQueue q (fun d => { d with waiters := d.waiters ++ [(i.unit.gang, r)] }))).waitAll i.performer (.queue q) := by
  simp only [State.queuePopped, h]
  exact if_neg (by simp [htry, hlive])

end

/-- A pop of a queue that is defined completes. -/
theorem qpop_completes (h : Hdr) (try_ : Bool) (f : FmtT) (d : QDef) :
    GangCompletes (.qpop h try_ f) h (fun _ i => sOk f.d = true ∧ i.tm.queue? (f.imm.toNat % 32) = some d)
      (fun s i t => t = s.queuePopped i try_ (sIdx f.d) (f.imm.toNat % 32) d) := by
  refine gang_completes (fun _ => rfl) (fun _ s _ i _ _ hc => ⟨_, ?_, rfl⟩)
  obtain ⟨hd, hq⟩ := hc
  simp only [hd, hq, Bool.not_true, ill_ok, ok_bind, State.queuePopped]
  cases d.owners with
  | cons o rest => rfl
  | nil => exact (apply_ite Except.ok _ _ _).symm

-- blocked pops (R140)

/-- A queue with an entry gives it to the gang that blocked first, and then serves the others. -/
theorem State.serveQueue_entry {s : State} {team q : Nat} {t : Team} {d : QDef} {gi r : Nat} {rest : List (Nat × Nat)} (fuel : Nat)
    (ht : s.team? team = some t) (hq : t.queue? q = some d) (hw : d.waiters = (gi, r) :: rest) (ho : d.owners ≠ []) :
    s.serveQueue team q (fuel + 1) =
      ((s.modTeam team (fun t => t.modQueue q (fun d => { d.popped with waiters := rest }))).release team gi (fun g => g.wrS r (t.queueHead d))).serveQueue
        team q fuel := by
  obtain ⟨o, owners, ho⟩ := List.exists_cons_of_ne_nil ho
  simp only [State.serveQueue, ht, hq, hw, ho]

/-- Settles O35: a definition, a push and a pop that pass their checks, and an entry for a blocked pop. -/
theorem queuesComplete : Obligations.QueuesComplete := by
  unfold Obligations.QueuesComplete
  intro h f try_ q
  refine ⟨?_, fun d => (qpush_completes h try_ f d).mono ?_ ?_, fun d => (qpop_completes h try_ f d).mono (fun _ _ => id) ?_,
    fun s team t d gi r rest fuel => State.serveQueue_entry fuel⟩
  · intro s i s' w hi hs hw ring mask depth allow hd ha hb hc hbelow halign hgangs hdepthMin hdepthMax hallowMin hallowMax hsum hidle hapart
      hlinks hfits hlanded
    exact qdef_performs hi hs hw ⟨hd, ha, hb, hc, hbelow, halign, hgangs, hdepthMin, hdepthMax, hallowMin, hallowMax, hsum, hidle, hapart,
      hlinks, hfits, hlanded⟩
  · rintro s i ⟨ha, hq, hproducer, hroom, hlanded⟩
    exact ⟨ha, hq, hproducer, hroom, hlanded⟩
  · rintro s i t rfl
    exact ⟨fun hnone => if_pos hnone, fun hsome => if_neg hsome⟩
  · rintro s i t rfl
    exact ⟨fun _ _ => State.queuePopped_entry, State.queuePopped_empty, State.queuePopped_waits⟩

end Sys2Proof.Machine
end

section
/-! SUPPORT. `GATHER` and `SCATTER` (R160 to R162, R289, R292): the rows that their registers name, the checks that they share, and the
statement about them. -/

namespace Sys2Proof.Machine

open Sys2Proof

/-- The first register of the index block: place and count of the indices, and the bytes of a row (R292). -/
def Issuer.rowWord (i : Issuer) (f : FmtT) : Nat := (i.g.rdS (sIdx f.b)).toNat
/-- The place of the indices. -/
def Issuer.rowIndex (i : Issuer) (f : FmtT) : Nat := bits (i.rowWord f) 0 32
/-- The number of rows. -/
def Issuer.rowCount (i : Issuer) (f : FmtT) : Nat := bits (i.rowWord f) 32 13

/-- What the registers of a `GATHER` or `SCATTER` and the indices that they name say, with a counter (R292). -/
def Issuer.namedRows (i : Issuer) (f : FmtT) (ctr : Option Nat) : RowList :=
  { z := bits (i.rowWord f) 48 16, n := (i.g.rdS (sIdx f.b + 1)).toNat, data := (i.g.rdS (sIdx f.d)).toNat, base := (i.g.rdS (sIdx f.a)).toNat
    idx := (List.range (i.rowCount f)).map (fun k => i.tm.spadNat (i.rowIndex f + 4 * k) 4), abar := (i.g.rdS (sIdx f.c)).toNat, ctr := ctr }

/-- The checks that `GATHER` and `SCATTER` share, in the order of R289, for an instruction that writes the scratchpad or not and whose
elements are eight bytes wide or not (R292). -/
structure RowChecks (f : FmtT) (writes wide : Bool) (ctr : Option Nat) (s : State) (i : Issuer) : Prop where
  data        : sOk f.d = true
  base        : sOk f.a = true
  block       : sOk f.b = true
  abar        : sOk f.c = true
  pair        : sIdx f.b % 2 = 0
  counter     : s.counterOf i f.e = .ok ctr
  indexAlign  : i.rowIndex f % 4 = 0
  countMin    : 0 < i.rowCount f
  countMax    : i.rowCount f ≤ 4096
  reserved    : bits (i.rowWord f) 45 3 = 0
  sizeMin     : 4 ≤ (i.namedRows f ctr).z
  sizeMax     : (i.namedRows f ctr).z ≤ 4096
  sizeAlign   : (i.namedRows f ctr).z % 4 = 0
  dataAlign   : (i.namedRows f ctr).data % 4 = 0
  baseAlign   : (i.namedRows f ctr).base % 4 = 0
  wideAlign   : wide = true → (i.namedRows f ctr).z % 8 = 0 ∧ (i.namedRows f ctr).data % 8 = 0 ∧ (i.namedRows f ctr).base % 8 = 0
  registered  : i.tm.abars.contains (i.namedRows f ctr).abar = true
  indexFits   : i.rowIndex f + 4 * i.rowCount f ≤ i.tm.spadSize
  dataFits    : (i.namedRows f ctr).data + i.rowCount f * (i.namedRows f ctr).z ≤ i.tm.spadSize
  free        : writes = true → i.tm.guarded (i.namedRows f ctr).data (i.rowCount f * (i.namedRows f ctr).z) = false ∧
    i.tm.pendingAt (i.namedRows f ctr).data (i.rowCount f * (i.namedRows f ctr).z) = false
  indexLanded : i.tm.pendingAt (i.rowIndex f) (4 * i.rowCount f) = false
  room        : s.engineFull i.tm.core true = false

/-- An instruction that passes the checks is given the rows that its registers name. -/
theorem RowChecks.rowList {f : FmtT} {writes wide : Bool} {ctr : Option Nat} {s : State} {i : Issuer} (hc : RowChecks f writes wide ctr s i) :
    s.rowList i f writes wide = .ok (i.namedRows f ctr) := by
  have hregs : (!sOk f.d || !sOk f.a || !sOk f.b || !sOk f.c || sIdx f.b % 2 != 0) = false := by
    simp [hc.data, hc.base, hc.block, hc.abar, hc.pair]
  have hblock : (i.rowIndex f % 4 != 0 || decide (i.rowCount f = 0) || decide (4096 < i.rowCount f) || bits (i.rowWord f) 45 3 != 0 ||
      decide ((i.namedRows f ctr).z < 4) || decide (4096 < (i.namedRows f ctr).z) || (i.namedRows f ctr).z % 4 != 0) = false := by
    simp [hc.indexAlign, Nat.pos_iff_ne_zero.mp hc.countMin, hc.countMax, hc.reserved, hc.sizeMin, hc.sizeMax, hc.sizeAlign]
  have hplaces : ((i.namedRows f ctr).data % 4 != 0 || (i.namedRows f ctr).base % 4 != 0 ||
      (wide && ((i.namedRows f ctr).z % 8 != 0 || (i.namedRows f ctr).data % 8 != 0 || (i.namedRows f ctr).base % 8 != 0))) = false := by
    cases wide with
    | false => simp [hc.dataAlign, hc.baseAlign]
    | true => simp [hc.dataAlign, hc.baseAlign, hc.wideAlign rfl]
  have hindex : decide (i.tm.spadSize < i.rowIndex f + 4 * i.rowCount f) = false := decide_eq_false (Nat.not_lt.mpr hc.indexFits)
  have hdata : i.tm.engineCheck writes (i.rowCount f * (i.namedRows f ctr).z) [(i.namedRows f ctr).data] = .ok () :=
    engineCheck_ok (by simpa using ⟨hc.dataFits, hc.free⟩)
  have hgo : (i.tm.pendingAt (i.rowIndex f) (4 * i.rowCount f) || s.engineFull i.tm.core true) = false := by simp [hc.indexLanded, hc.room]
  have habar : i.tm.checkAbar (i.g.rdS (sIdx f.c)) = .ok (i.namedRows f ctr).abar := checkAbar_ok hc.registered
  unfold State.rowList
  rw [ill_ok hregs, ok_bind, hc.counter, ok_bind]
  unfold Issuer.namedRows Issuer.rowIndex Issuer.rowCount Issuer.rowWord at *
  simp only [hblock, hplaces, hindex, hdata, hgo, habar, ill_ok, trap_ok, ok_bind, Bool.false_eq_true, if_false]

/-- The operation of some rows' segments, for a `SCATTER` one that makes one arrival at its abar and charges no bytes (R153, R292). -/
def Issuer.rowOp (i : Issuer) (r : RowList) (arrives : Bool) (segs : List Seg) : EngOp :=
  { gang := i.unit.gang, abar := some r.abar, counter := r.ctr, cont := none, arrives := arrives, charges := !arrives, gather := true, segs := segs }

/-- A `GATHER` that passes its checks issues a load for each word of the rows in the table, and zeros for the others (R160, R161). -/
theorem gather_completes (h : Hdr) (f : FmtT) (ctr : Option Nat) :
    GangCompletes (.gather h f) h (RowChecks f true false ctr) (fun s i t => t = (s.passUnit i).issueEngine i.unit.team
      (i.rowOp (i.namedRows f ctr) false ((i.namedRows f ctr).segs 4 .load .zeros))) := by
  refine gang_completes (fun _ => rfl) (fun _ s _ i _ _ hc => ⟨_, ?_, rfl⟩)
  rw [hc.rowList, ok_bind]
  rfl

/-- Whether the elements of a `SCATTER` are eight bytes wide (R162). -/
def scatterWide (mode : ScatterMode) : Bool := mode == .addF64 || mode == .addI64

/-- A `SCATTER` that passes its checks issues a store or an addition for each element of the rows in the table, and skips the others
(R162). -/
theorem scatter_completes (h : Hdr) (mode : ScatterMode) (f : FmtT) (ctr : Option Nat) :
    GangCompletes (.scatter h mode f) h (RowChecks f false (scatterWide mode) ctr) (fun s i t => t = (s.passUnit i).issueEngine i.unit.team
      (i.rowOp (i.namedRows f ctr) true ((i.namedRows f ctr).segs (if scatterWide mode then 8 else 4) (if mode = .st then .store else .add mode) .skip))) := by
  refine gang_completes (fun _ => rfl) (fun _ s _ i _ _ hc => ⟨_, ?_, rfl⟩)
  exact congrArg (· >>= _) hc.rowList

/-- Settles O38: the two instructions share their checks, and each issues the segments of the rows that its registers name. -/
theorem gathersComplete : Obligations.GathersComplete := by
  unfold Obligations.GathersComplete
  intro h f mode ctr w at_ n z data base list ok wide op
  have hok : ∀ {wide writes : Bool} {s : State} {i : Issuer}, ok wide writes s i → RowChecks f writes wide ctr s i := by
    rintro wide writes s i ⟨hd, ha, hb, hc, hpair, hctr, halign, hmin, hmax, hreserved, hzMin, hzMax, hzAlign, hdata, hbase, hwide, habar,
      hindex, hrows, hfree, hlanded, hroom⟩
    exact ⟨hd, ha, hb, hc, hpair, hctr, halign, hmin, hmax, hreserved, hzMin, hzMax, hzAlign, hdata, hbase, hwide, habar, hindex, hrows,
      hfree, hlanded, hroom⟩
  exact ⟨(gather_completes h f ctr).mono (fun _ _ => hok) (fun _ _ _ ht => ht),
    (scatter_completes h mode f ctr).mono (fun _ _ => hok) (fun _ _ _ ht => ht)⟩

end Sys2Proof.Machine
end

section
/-! SUPPORT. Batches and `STASH` (R155, R203, R282, R314): what `MBATCH` and `MWAIT` leave when their checks pass, the checks of `STASH` and
its two copies, and the statement about them. -/

namespace Sys2Proof.Machine

open Sys2Proof

-- MBATCH and MWAIT (R155, R314)

/-- `MBATCH` gives its destination the number of the next batch, which is then the last. -/
theorem mbatch_completes (h : Hdr) (f : FmtT) :
    GangCompletes (.mbatch h f) h (fun _ i => sOk f.d = true ∧ i.g.lastBatch - i.tm.batchDone i.unit.gang < 16)
      (GangBecomes (fun _ i g => { (g.wrS (sIdx f.d) (BitVec.ofNat 64 (i.g.lastBatch + 1))) with lastBatch := i.g.lastBatch + 1 })) := by
  refine gang_completes (fun _ => rfl) (fun _ s _ i hi hg hok => ⟨_, ?_, GangStarts.becomes hi hg _⟩)
  obtain ⟨hd, hroom⟩ := hok
  simp only [hd, Bool.not_true, ill_ok, ok_bind, if_neg (Nat.not_le.mpr hroom)]

/-- The batch that `MWAIT` names. -/
def Issuer.batchArg (i : Issuer) (f : FmtT) : Nat := (i.g.rdScalar f.a).toNat

/-- The checks of `MWAIT`: it names a batch that is open or closed (R314). -/
structure MwaitChecks (f : FmtT) (i : Issuer) : Prop where
  number : natSrcOk f.a = true
  min    : 0 < i.batchArg f
  max    : i.batchArg f ≤ i.g.lastBatch

section

variable {h : Hdr} {f : FmtT} {s s' : State} {i i' : Issuer} (hi : s.Issues i) (hs : h.scp = .gang) (hg : s.GangStarts i s' i')
  (hc : MwaitChecks f i')
include hi hs hg hc

/-- A `MWAIT` that passes its checks goes on when its batch is done, and else waits. -/
theorem exec_mwait :
    exec (.mwait h f) s = s'.settle (i'.performer (some h))
      (if i'.batchArg f ≤ i'.tm.batchDone i'.unit.gang then .ok (s'.passUnit i') else .error (.wait (.batch (i'.batchArg f)))) := by
  obtain ⟨hnumber, hmin, hmax⟩ := hc
  have hbatch : (decide (i'.batchArg f = 0) || decide (i'.g.lastBatch < i'.batchArg f)) = false := by
    simp [Nat.pos_iff_ne_zero.mp hmin, hmax]
  unfold Issuer.batchArg at *
  change s.gangOp h _ = _
  simp only [gangOp_starts hi.1 hs hg, hnumber, hbatch, Bool.not_true, ill_ok, ok_bind]

/-- A `MWAIT` for a batch that has completed with every earlier one goes on. -/
theorem mwait_passes (hdone : i'.batchArg f ≤ i'.tm.batchDone i'.unit.gang) : PerformsIn (.mwait h f) s s' i'.performer (s'.passUnit i') := by
  rw [PerformsIn, exec_mwait hi hs hg hc, if_pos hdone, settle_ok]
  rfl

/-- A `MWAIT` for a later batch waits. -/
theorem mwait_waits (hopen : i'.tm.batchDone i'.unit.gang < i'.batchArg f) :
    exec (.mwait h f) s = .next ((s'.waitAll i'.performer (.batch (i'.batchArg f))).trySave i'.unit.team) := by
  rw [exec_mwait hi hs hg hc, if_neg (Nat.not_le.mpr hopen)]
  rfl

end

-- STASH: what its registers name (R282)

/-- The record of the tile that a `STASH` writes out. -/
def Issuer.stashRec (i : Issuer) (f : FmtM) : W128 := i.g.rdT (tIdx f.d)
/-- The place that a base register of a `STASH` names. -/
def Issuer.stashPlace (i : Issuer) (f : FmtM) (base : Operand) : Nat := (i.g.rdS (sIdx base) + f.off.signExtend 64).toNat
/-- The tile's elements in the format of the copies, row by row, with their exceptions. -/
def Issuer.stashRows (i : Issuer) (fmt : Fmt) (f : FmtM) : List (List (Nat × Exc)) := i.tm.stashElems (i.stashRec f) fmt
/-- The exceptions of all elements. -/
def Issuer.stashExc (i : Issuer) (fmt : Fmt) (f : FmtM) : Exc := (i.stashRows fmt f).foldl (fun e row => row.foldl (fun e x => e ||| x.2) e) 0
/-- The bytes of the plain copy: the rows in order. -/
def Issuer.stashPlain (i : Issuer) (fmt : Fmt) (f : FmtM) : List Byte :=
  (i.stashRows fmt f).flatMap (fun row => row.flatMap (fun x => leBytes (stashBytes fmt) x.1))
/-- The bytes of the transposed copy: the columns in order. -/
def Issuer.stashTurned (i : Issuer) (fmt : Fmt) (f : FmtM) : List Byte :=
  (List.range 32).flatMap (fun j => (i.stashRows fmt f).flatMap (fun row => leBytes (stashBytes fmt) (row.getD j (0, 0)).1))
/-- The rows with an exception that the gang has enabled (R75). -/
def Issuer.stashBad (i : Issuer) (fmt : Fmt) (f : FmtM) : List Nat :=
  (List.range 32).filter (fun k => ((i.stashRows fmt f).getD k []).any (fun x => enabledExc i.g.fpmode x.2))

/-- No element of the tile raises an exception that the gang has enabled. -/
def Issuer.StashMasked (i : Issuer) (fmt : Fmt) (f : FmtM) : Prop :=
  ∀ row ∈ i.stashRows fmt f, ∀ x ∈ row, enabledExc i.g.fpmode x.2 = false

/-- With every exception masked no row is bad. -/
theorem Issuer.StashMasked.bad {i : Issuer} {fmt : Fmt} {f : FmtM} (h : i.StashMasked fmt f) : i.stashBad fmt f = [] := by
  refine List.filter_eq_nil_iff.mpr (fun k _ => ?_)
  rw [List.getD_eq_getElem?_getD]
  cases hk : (i.stashRows fmt f)[k]? with
  | none => simp
  | some row => simpa using h row (List.mem_of_getElem? hk)

-- STASH: its checks (R203, R282)

/-- The checks of a `STASH`, both stalls among them. -/
structure StashChecks (fmt : Fmt) (f : FmtM) (i : Issuer) : Prop where
  tile        : tOk f.d = true
  plainBase   : sOk f.a = true
  turnedBase  : sOk f.b = true
  regsSteady  : i.tileStall [f.d] [] = .ok ()
  dataSteady  : i.tileStall [] [f.d] = .ok ()
  recOk       : i.tm.recOk false (i.stashRec f) = true
  kind        : tKind (i.stashRec f) < 2
  format      : tKind (i.stashRec f) = 1 → if tLoc (i.stashRec f) = 0 then fmt = tFmt (i.stashRec f) else slotFmtOk (i.stashRec f) fmt = true
  plainAlign  : i.stashPlace f f.a % 128 = 0
  turnedAlign : i.stashPlace f f.b % 128 = 0
  apart       : overlaps (i.stashPlace f f.a) (1024 * stashBytes fmt) (i.stashPlace f f.b) (1024 * stashBytes fmt) = false
  settled     : ∀ x ∈ i.tm.srcRuns (i.stashRec f), i.tm.pendingAt x.1 x.2 = false ∧ ∀ m ∈ i.tm.mops, ∀ y ∈ m.2.writes, overlaps x.1 x.2 y.1 y.2 = false

/-- The format check passes. -/
theorem StashChecks.format_ok {fmt : Fmt} {f : FmtM} {i : Issuer} (hc : StashChecks fmt f i) :
    (tKind (i.stashRec f) == 1 && (if tLoc (i.stashRec f) = 0 then fmt != tFmt (i.stashRec f) else !slotFmtOk (i.stashRec f) fmt)) = false := by
  rw [Bool.and_eq_false_imp, beq_iff_eq]
  intro hkind
  have := hc.format hkind
  split at this
  next hz => rw [if_pos hz]; exact bne_eq_false_iff_eq.mpr this
  next hz => rw [if_neg hz, this]; rfl

/-- Nothing that is still to be written holds the copies up. -/
theorem StashChecks.nothing_due {fmt : Fmt} {f : FmtM} {i : Issuer} (hc : StashChecks fmt f i) :
    (i.tm.srcRuns (i.stashRec f)).any (fun x => i.tm.pendingAt x.1 x.2 || i.tm.mops.any (fun m => m.2.writes.any (fun y => overlaps x.1 x.2 y.1 y.2))) =
      false := by
  simp only [List.any_eq_false, Bool.or_eq_true, List.any_eq_true, not_or, not_exists, not_and, Bool.not_eq_true]
  exact hc.settled

-- STASH: its copies (R203)

/-- The copies of a `STASH`: the plain one, unless PLAINDONE says that it is done, and the transposed one, which is made later where it
cannot be written yet. -/
def State.stashCopies (s : State) (i : Issuer) (h : Hdr) (fmt : Fmt) (f : FmtM) : Except Stop State :=
  if !i.g.plainDone && i.stashBad fmt f != [] then
    .error (.trapEach cArith [(i.unit.gang, BitVec.ofNat 64 (maskOf (i.stashBad fmt f)))] (i.stashExc fmt f))
  else if i.g.plainDone then do
    let v ← plainInfo true (s.stashCopy i (i.stashPlace f f.b) (i.stashTurned fmt f))
    .ok (v.passUnit i)
  else do
    let u ← s.stashCopy i (i.stashPlace f f.a) (i.stashPlain fmt f)
    let w := u.modGang i.unit.team i.unit.gang (fun g => g.orFlags (i.stashExc fmt f))
    match w.stashCopy i (i.stashPlace f f.b) (i.stashTurned fmt f) with
    | .ok v => .ok (v.passUnit i)
    | .error _ => .ok ((w.modGang i.unit.team i.unit.gang (fun g => { g with plainDone := true })).waitAll (i.performer (some h)) (.retry false))

/-- A `STASH` that passes its checks makes its copies. -/
theorem exec_stash {h : Hdr} {fmt : Fmt} {f : FmtM} {s s' : State} {i i' : Issuer} (hi : s.Issues i) (hs : h.scp = .gang) (hg : s.GangStarts i s' i')
    (hc : StashChecks fmt f i') : exec (.stash h fmt f) s = s'.settle (i'.performer (some h)) (s'.stashCopies i' h fmt f) := by
  have hread : i'.tileAt false f.d = .ok (i'.stashRec f) := tileAt_ok hc.tile hc.recOk
  have hkind : decide (2 ≤ tKind (i'.stashRec f)) = false := decide_eq_false (Nat.not_le.mpr hc.kind)
  have hformat := hc.format_ok
  have hdue := hc.nothing_due
  obtain ⟨htile, hplain, hturned, hregs, hdata, -, -, -, hplainAlign, hturnedAlign, hapart, -⟩ := hc
  unfold Issuer.stashPlace at hplainAlign hturnedAlign hapart
  change s.gangOp h _ = _
  rw [gangOp_starts hi.1 hs hg]
  simp only [hread, htile, tileTrap_ok, hkind, hplain, hturned, hregs, hdata, hformat, hplainAlign, hturnedAlign, hapart, hdue,
    bne_self_eq_false, Bool.and_false, Bool.not_true, Bool.or_self, Bool.false_eq_true, if_false, ill_ok, trap_ok, ok_bind]
  rfl

/-- A `STASH` that passes its checks completes when its copies can be made or put off. -/
theorem stash_completes (h : Hdr) (fmt : Fmt) (f : FmtM) (t : Issuer → State) :
    GangCompletes (.stash h fmt f) h (fun s i => StashChecks fmt f i ∧ s.stashCopies i h fmt f = .ok (t i)) (fun _ i u => u = t i) := by
  rintro s i s' i' hi hs hg ⟨hc, hcopies⟩
  refine ⟨_, ?_, rfl⟩
  rw [PerformsIn, exec_stash hi hs hg hc, hcopies, settle_ok]
  rfl

section

variable {s u v : State} {i : Issuer} (h : Hdr) {fmt : Fmt} {f : FmtM}

/-- With PLAINDONE only the transposed copy is written. -/
theorem State.stashCopies_second (hdone : i.g.plainDone = true)
    (hturned : s.stashCopy i (i.stashPlace f f.b) (i.stashTurned fmt f) = .ok v) : s.stashCopies i h fmt f = .ok (v.passUnit i) := by
  simp only [State.stashCopies, hdone, hturned, plainInfo, Bool.not_true, Bool.false_and, Bool.false_eq_true, if_true, if_false, ok_bind]

variable (hnew : i.g.plainDone = false) (hmasked : i.StashMasked fmt f)
  (hplain : s.stashCopy i (i.stashPlace f f.a) (i.stashPlain fmt f) = .ok u)
include hnew hmasked hplain

/-- Both copies are written. -/
theorem State.stashCopies_both
    (hturned : (u.modGang i.unit.team i.unit.gang (fun g => g.orFlags (i.stashExc fmt f))).stashCopy i (i.stashPlace f f.b) (i.stashTurned fmt f) = .ok v) :
    s.stashCopies i h fmt f = .ok (v.passUnit i) := by
  simp only [State.stashCopies, hnew, hmasked.bad, hplain, hturned, bne_self_eq_false, Bool.and_false, Bool.false_eq_true, if_false, ok_bind]

/-- A transposed copy that cannot be written is put off: PLAINDONE is set and the gang issues again. -/
theorem State.stashCopies_first {e : Stop}
    (hturned : (u.modGang i.unit.team i.unit.gang (fun g => g.orFlags (i.stashExc fmt f))).stashCopy i (i.stashPlace f f.b) (i.stashTurned fmt f) = .error e) :
    s.stashCopies i h fmt f = .ok (((u.modGang i.unit.team i.unit.gang (fun g => g.orFlags (i.stashExc fmt f))).modGang i.unit.team i.unit.gang
      (fun g => { g with plainDone := true })).waitAll (i.performer (some h)) (.retry false)) := by
  simp only [State.stashCopies, hnew, hmasked.bad, hplain, hturned, bne_self_eq_false, Bool.and_false, Bool.false_eq_true, if_false, ok_bind]

end

/-- Settles O42: a batch is opened, waited for or passed, and a `STASH` writes the copies that are due and can be written. -/
theorem batchesAndStashComplete : Obligations.BatchesAndStashComplete := by
  unfold Obligations.BatchesAndStashComplete
  refine fun h => ⟨mbatch_completes h, fun f s i s' i' hi hs hg hnumber hmin hmax =>
    ⟨mwait_passes hi hs hg ⟨hnumber, hmin, hmax⟩, mwait_waits hi hs hg ⟨hnumber, hmin, hmax⟩⟩, ?_⟩
  intro fmt f r p q rows exc plain turned legal
  have hlegal : ∀ i, legal i → StashChecks fmt f i := by
    rintro i ⟨htile, hplain, hturned, hregs, hdata, hrec, hkind, hformat, hplainAlign, hturnedAlign, -, -, hapart, hsettled⟩
    exact ⟨htile, hplain, hturned, hregs, hdata, hrec, hkind, hformat, hplainAlign, hturnedAlign, hapart, hsettled⟩
  refine ⟨fun u v => (stash_completes h fmt f (fun i => v.passUnit i)).mono ?_ (fun _ _ _ ht => ht),
    fun u e => (stash_completes h fmt f _).mono ?_ (fun _ _ _ ht => ht)⟩
  · rintro s i ⟨hl, hcopies⟩
    refine ⟨hlegal i hl, ?_⟩
    cases hdone : i.g.plainDone with
    | true =>
      rw [if_pos hdone] at hcopies
      exact State.stashCopies_second h hdone hcopies
    | false =>
      rw [if_neg (by simp [hdone])] at hcopies
      obtain ⟨hmasked, hplain, hturned⟩ := hcopies
      exact State.stashCopies_both h hdone hmasked hplain hturned
  · rintro s i ⟨hl, hnew, hmasked, hplain, hturned⟩
    exact ⟨hlegal i hl, State.stashCopies_first h hnew hmasked hplain hturned⟩

end Sys2Proof.Machine
end

section
/-! SUPPORT. Collectives and the span (R163 to R167, R335, R337 to R339): the checks of `COLL` and `SPANMAP` and what each leaves when they
pass, what `SPANST` reads, and the statement about them. -/

namespace Sys2Proof.Machine

open Sys2Proof

-- COLL (R163, R335, R337)

/-- The record of the buffer of a `COLL`. -/
def Wide.collBuffer (w : Wide) (f : FmtT) : W128 := w.rep.rdT (tIdx f.a)
/-- The word in register `k`: the number of elements and the root (R335). -/
def Wide.collWord (w : Wide) (k : BitVec 8) : Nat := (w.rep.rdS k.toNat).toNat
/-- The number of elements of a `COLL`. -/
def Wide.collCount (w : Wide) (k : BitVec 8) : Nat := bits (w.collWord k) 0 21
/-- The bytes of the buffer of a `COLL`. -/
def Wide.collBytes (w : Wide) (f : FmtT) (k : BitVec 8) : Nat := w.collCount k * stashBytes (tFmt (w.collBuffer f))
/-- The group whose ring a `COLL` runs over. -/
def Wide.collGroup (w : Wide) (f : FmtT) : Nat := (w.rep.rdScalar f.b).toNat
/-- The timeout of a `COLL`. -/
def Wide.collTimeout (w : Wide) (f : FmtT) : Nat := (w.rep.rdS (sIdx f.c)).toNat
/-- The abar at which a `COLL` arrives when it ends. -/
def Wide.collAbar (w : Wide) (f : FmtT) : Nat := (w.rep.rdS (sIdx f.d)).toNat

/-- The collective that a `COLL` starts, for the positions of this device and of the root in the ring (R163, R335). -/
def State.newColl (s : State) (w : Wide) (op : CollOp) (red : RedOp) (f : FmtT) (k : BitVec 8) (pos root : Nat) : Coll :=
  { ctx := w.tm.ctx, team := w.p.team, group := w.collGroup f, epoch := (s.ring w.tm.ctx (w.collGroup f)).epoch
    seq := (s.ring w.tm.ctx (w.collGroup f)).seq, op := op, red := red, fmt := tFmt (w.collBuffer f), n := w.collCount k
    base := tU (w.collBuffer f), root := root, abar := w.collAbar f, ring := s.ringOrder w.tm.ctx (w.collGroup f), pos := pos }

/-- A collective put in place: every gang goes on, the next one of the group is numbered after it, and its buffer's granules are
pending. -/
def State.collPut (s : State) (p : Performer) (c : Coll) : State :=
  let u := (s.passAll p).modRing c.ctx c.group (fun x => { x with seq := x.seq + 1 })
  { (u.fresh.2.modTeam p.team (fun t => t.addPending (granules c.base (c.n * stashBytes c.fmt)))) with colls := Tab.put u.colls u.nextId c }

/-- The root of a `COLL`: for a broadcast the position of its rank in the ring, else rank and position 0 (R335). -/
def CollRoot (op : CollOp) (ring : List Nat) (rank root : Nat) : Prop :=
  if op = .bcast then indexOf? (· == rank) ring = some root else rank = 0 ∧ root = 0

/-- The checks of a `COLL` (R289, R335), with its word in register `k`, in which the positions of this device and of the root are found. -/
structure CollChecks (op : CollOp) (f : FmtT) (k : BitVec 8) (pos root : Nat) (s : State) (w : Wide) : Prop where
  buffer      : tOk f.a = true
  abar        : sOk f.d = true
  group       : natSrcOk f.b = true
  timeout     : sOk f.c = true
  steady      : w.repIssuer.tileStall [f.a] [] = .ok ()
  recOk       : w.tm.recOk true (w.collBuffer f) = true
  dense       : tKind (w.collBuffer f) = 1
  inSpad      : tLoc (w.collBuffer f) = 0
  countMin    : 0 < w.collCount k
  countMax    : w.collCount k ≤ 2 ^ 20
  reservedLow : bits (w.collWord k) 21 11 = 0
  reserved    : bits (w.collWord k) 40 24 = 0
  rooted      : CollRoot op (s.ringOrder w.tm.ctx (w.collGroup f)) (bits (w.collWord k) 32 8) root
  groupMax    : w.collGroup f < 64
  timeoutMin  : 0 < w.collTimeout f
  timeoutMax  : w.collTimeout f < 2 ^ 32
  member      : indexOf? (· == s.span.rank) (s.ringOrder w.tm.ctx (w.collGroup f)) = some pos
  format      : collFmtOk op (tFmt (w.collBuffer f)) = true
  blocks      : op = .alltoall → w.collCount k % (s.ringOrder w.tm.ctx (w.collGroup f)).length = 0
  registered  : w.tm.abars.contains (w.collAbar f) = true
  fits        : tU (w.collBuffer f) + w.collBytes f k ≤ w.tm.spadSize
  unguarded   : w.tm.guarded (tU (w.collBuffer f)) (w.collBytes f k) = false
  landed      : w.tm.pendingAt (tU (w.collBuffer f)) (w.collBytes f k) = false

/-- The gang that represents a scope reads the buffer's record for its team. -/
theorem Wide.tileAt_collBuffer {w : Wide} {f : FmtT} (ht : tOk f.a = true) (hrec : w.tm.recOk true (w.collBuffer f) = true) :
    w.repIssuer.tileAt true f.a = .ok (w.collBuffer f) := tileAt_ok (i := w.repIssuer) ht hrec

/-- Only a broadcast may name a rank other than 0. -/
theorem CollRoot.rank_ok {op : CollOp} {ring : List Nat} {rank root : Nat} (h : CollRoot op ring rank root) :
    (!(op == .bcast) && rank != 0) = false := by
  unfold CollRoot at h
  split at h
  next hb => simp [hb]
  next hb => simp [h.1]

/-- A `COLL` that passes its checks puts its collective in place. -/
theorem coll_performs {h : Hdr} {op : CollOp} {red : RedOp} {f : FmtT} {k : BitVec 8} {pos root : Nat} {s s' : State} {i : Issuer} {w : Wide}
    (hi : s.Issues i) (hs : h.scp = .team) (hw : s.Starts i h 0 s' w) (he : f.e = .s k) (hk : k.toNat < 128) (hc : CollChecks op f k pos root s' w) :
    PerformsIn (.coll h op red f) s s' w.p (s'.collPut w.p (s'.newColl w op red f k pos root)) := by
  have hrecord : (tKind (w.collBuffer f) != 1 || tLoc (w.collBuffer f) != 0) = false := by simp [hc.dense, hc.inSpad]
  have hword : (decide (w.collCount k = 0) || decide (2 ^ 20 < w.collCount k) || bits (w.collWord k) 21 11 != 0 || bits (w.collWord k) 40 24 != 0 ||
      (!(op == .bcast) && bits (w.collWord k) 32 8 != 0)) = false := by
    simp only [hc.rooted.rank_ok, decide_eq_false (Nat.pos_iff_ne_zero.mp hc.countMin), decide_eq_false (Nat.not_lt.mpr hc.countMax), hc.reservedLow, hc.reserved,
      bne_self_eq_false, Bool.or_self]
  have hgroup : (decide (64 ≤ w.collGroup f) || decide (w.collTimeout f = 0) || decide (2 ^ 32 ≤ w.collTimeout f)) = false := by
    simp only [decide_eq_false (Nat.not_le.mpr hc.groupMax), decide_eq_false (Nat.pos_iff_ne_zero.mp hc.timeoutMin),
      decide_eq_false (Nat.not_le.mpr hc.timeoutMax), Bool.or_self]
  have hblocks : (op == .alltoall && w.collCount k % (s'.ringOrder w.tm.ctx (w.collGroup f)).length != 0) = false := by
    simpa using hc.blocks
  have habar : w.tm.checkAbar (w.rep.rdS (sIdx f.d)) = .ok (w.collAbar f) := checkAbar_ok hc.registered
  have hrange : w.tm.engineCheck true (w.collBytes f k) [tU (w.collBuffer f)] = .ok () :=
    engineCheck_ok (by simpa using ⟨hc.fits, hc.unguarded, hc.landed⟩)
  have htile := Wide.tileAt_collBuffer hc.buffer hc.recOk
  have hroot := hc.rooted
  have hpos := hc.member
  have hfmt := hc.format
  change execColl h op red f s = _
  rw [execColl, wideOp_starts hi.1 (by rw [hs]; rfl) hw]
  unfold State.collPut State.newColl
  simp only [he, hk, if_true, hc.steady, htile, hrecord, hc.buffer, hc.abar, hc.group, hc.timeout, Option.isNone_some, Option.getD_some,
    Bool.not_true, Bool.or_self, ill_ok, ok_bind]
  unfold Wide.collBytes Wide.collCount Wide.collWord Wide.collGroup Wide.collTimeout Wide.collAbar at *
  simp only [hword, hgroup, hpos, hfmt, hblocks, habar, hrange, Bool.not_true, ill_ok, ok_bind]
  unfold CollRoot at hroot
  split at hroot
  next hb =>
    simp only [hb, hroot, beq_self_eq_true, if_true, ok_bind, settle_ok]
    rfl
  next hb =>
    simp only [beq_eq_false_iff_ne.mpr hb, hroot.2, Bool.false_eq_true, if_false, ok_bind, settle_ok]
    rfl

-- SPANMAP (R163, R338, R383)

/-- The group that a `SPANMAP` gives a ring. -/
def Issuer.mapGroup (i : Issuer) (f : FmtT) : Nat := (i.g.rdScalar f.b).toNat
/-- The number of ranks of the ring, 0 for none. -/
def Issuer.mapCount (i : Issuer) (f : FmtT) : Nat := (i.g.rdScalar f.c).toNat
/-- The accesses to the ring's bytes, one for each rank. -/
def Issuer.mapBytes (i : Issuer) (f : FmtT) : List LaneAcc :=
  (List.range (i.mapCount f)).map (fun k => { lane := k, va := ((i.g.rdS (sIdx f.a)).toNat + k) % 2 ^ 64, n := 1 })

/-- The checks of a `SPANMAP` (R338). -/
structure SpanmapChecks (f : FmtT) (s : State) (i : Issuer) : Prop where
  place    : sOk f.a = true
  group    : natSrcOk f.b = true
  count    : natSrcOk f.c = true
  groupMax : i.mapGroup f < 64
  countMax : i.mapCount f ≤ 256
  idle     : ∀ x ∈ s.colls, ¬ (x.2.ctx = i.tm.ctx ∧ x.2.group = i.mapGroup f)
  space    : ∀ k < i.mapCount f, ((i.g.rdS (sIdx f.a)).toNat + k) % 2 ^ 64 < 2 ^ 56

/-- What a `SPANMAP` reads: no ranks, or the bytes of its ring, which are ranks of the span, all different, with this device among them. -/
def Issuer.MapRead (i : Issuer) (f : FmtT) (s : State) (vals : List (Nat × Nat)) (u : State) : Prop :=
  if i.mapCount f = 0 then vals = [] ∧ u = s
  else s.globalLoad i .weak .team (i.mapBytes f) = .ok (vals, u) ∧ (∀ x ∈ vals.map (·.2), x < u.span.size) ∧
    (vals.map (·.2)).eraseDups.length = (vals.map (·.2)).length ∧ u.span.rank ∈ vals.map (·.2)

/-- The reading as `SPANMAP` makes it. -/
theorem Issuer.MapRead.loads {i : Issuer} {f : FmtT} {s u : State} {vals : List (Nat × Nat)} (h : i.MapRead f s vals u) :
    (if i.mapCount f = 0 then .ok ([], s) else s.globalLoad i .weak .team (i.mapBytes f)) = (.ok (vals, u) : Except Stop (List (Nat × Nat) × State)) := by
  unfold Issuer.MapRead at h
  split at h
  next hz => obtain ⟨rfl, rfl⟩ := h; rw [if_pos hz]
  next hz => rw [if_neg hz, h.1]

/-- The ranks that are read are legal. -/
theorem Issuer.MapRead.legal {i : Issuer} {f : FmtT} {s u : State} {vals : List (Nat × Nat)} (h : i.MapRead f s vals u) :
    (i.mapCount f != 0 && ((vals.map (·.2)).any (fun r => decide (u.span.size ≤ r)) ||
      decide ((vals.map (·.2)).eraseDups.length ≠ (vals.map (·.2)).length) || !(vals.map (·.2)).contains u.span.rank)) = false := by
  unfold Issuer.MapRead at h
  split at h
  next hz => rw [hz]; rfl
  next hz =>
    obtain ⟨-, hsize, hapart, hself⟩ := h
    have hany : (vals.map (·.2)).any (fun r => decide (u.span.size ≤ r)) = false := by
      simpa only [List.any_eq_false, decide_eq_true_eq, Nat.not_le] using hsize
    rw [hany, decide_eq_false (not_not.mpr hapart), List.contains_iff_mem.mpr hself]
    simp

/-- A group with a new ring and the next epoch, its collectives numbered from 0, and the held chunks of its older epochs dropped, when a
gang goes on. -/
def State.mapRing (s : State) (i : Issuer) (g : Nat) (ranks : Option (List Nat)) : State :=
  let v := s.modRing i.tm.ctx g (fun r => { ranks := ranks, epoch := r.epoch + 1, seq := 0 })
  { (v.passUnit i) with chunks := v.chunks.filter (fun c =>
      !(c.ctx == i.tm.ctx && c.group == g && decide (c.epoch < (v.ring i.tm.ctx g).epoch))) }

/-- A `SPANMAP` that passes its checks gives the group the ring that it reads. -/
theorem spanmap_completes (h : Hdr) (f : FmtT) (vals : List (Nat × Nat)) (u : State) :
    GangCompletes (.spanmap h f) h (fun s i => SpanmapChecks f s i ∧ i.MapRead f s vals u)
      (fun _ i t => t = u.mapRing i (i.mapGroup f) (if i.mapCount f = 0 then none else some (vals.map (·.2)))) := by
  refine gang_completes (fun _ => rfl) (fun _ s _ i _ _ hc => ⟨_, ?_, rfl⟩)
  obtain ⟨⟨hplace, hgroup, hcount, hgroupMax, hcountMax, hidle, hspace⟩, hread⟩ := hc
  have hfree : s.colls.any (fun x => x.2.ctx == i.tm.ctx && x.2.group == i.mapGroup f) = false := by simpa using hidle
  have hmapped : globalSpaceOk (i.mapBytes f) = .ok () := globalSpaceOk_ok (by
    intro x hx
    obtain ⟨k, hk, rfl⟩ := List.mem_map.mp hx
    exact hspace k (List.mem_range.mp hk))
  have hloads := hread.loads
  have hlegal := hread.legal
  unfold State.mapRing
  unfold Issuer.mapBytes at hmapped hloads
  unfold Issuer.mapGroup Issuer.mapCount at *
  simp only [hplace, hgroup, hcount, decide_eq_false (Nat.not_le.mpr hgroupMax), decide_eq_false (Nat.not_lt.mpr hcountMax), hfree, hmapped, hloads,
    hlegal, Bool.not_true, Bool.or_self, Bool.false_eq_true, if_false, ill_ok, ok_bind]

-- SPANST (R339)

/-- `SPANST` gives its destination a word of the span state. -/
theorem spanst_completes (h : Hdr) (f : FmtT) {k : BitVec 8} (hb : f.b = .imm k) (hk : k.toNat ≤ 4) :
    GangCompletes (.spanst h f) h (fun _ _ => sOk f.d = true) (GangBecomes (fun s _ g => g.wrS (sIdx f.d) (s.spanWord k.toNat))) := by
  refine gang_completes (fun _ => rfl) (fun _ s _ i hi hg hd => ⟨_, ?_, GangStarts.becomes hi hg _⟩)
  simp only [hb, hk, hd, if_true, Option.isNone_some, Option.getD_some, Bool.not_true, Bool.or_self, ill_ok, ok_bind]

/-- Settles O44: a `COLL` and a `SPANMAP` that pass their checks have their effect, and `SPANST` reads each word. -/
theorem collectivesComplete : Obligations.CollectivesComplete := by
  unfold Obligations.CollectivesComplete
  refine fun h op red f => ⟨?_, fun vals u => ?_, fun k hb hk => spanst_completes h f hb hk⟩
  · intro s i s' w hi hs hw k pos root he hk r e n grp tmo ring bytes abar ha hd hb hc hsteady hrec hdense hspad hmin hmax hlow hhigh hroot hgrp
      htmoMin htmoMax hpos hfmt hblocks habar hfits hguard hlanded
    exact coll_performs hi hs hw he hk ⟨ha, hd, hb, hc, hsteady, hrec, hdense, hspad, hmin, hmax, hlow, hhigh, hroot, hgrp, htmoMin, htmoMax, hpos,
      hfmt, hblocks, habar, hfits, hguard, hlanded⟩
  · refine (spanmap_completes h f vals u).mono ?_ (fun _ _ _ ht => ht)
    rintro s i ⟨hplace, hgroup, hcount, hgroupMax, hcountMax, hidle, hspace, hread⟩
    exact ⟨⟨hplace, hgroup, hcount, hgroupMax, hcountMax, hidle, hspace⟩, hread⟩

end Sys2Proof.Machine
end

section
/-! SUPPORT. Triggers (R168 to R170, R343 to R347): the checks of `TRIGARM`, `TRIGCNT` and `TRIGDIS` and what each leaves when they pass,
what an update of a counter leaves, and the statement about them. -/

namespace Sys2Proof.Machine

open Sys2Proof

/-- The slot or the counter that A names (R343, R346, R347). -/
def Issuer.trigNumber (i : Issuer) (f : FmtT) : Nat := (i.g.rdScalar f.a).toNat
/-- The wing whose trigger unit a gang names. -/
def Issuer.wing (i : Issuer) : Nat := wingOfCore i.tm.core

/-- A state with the slots of the trigger units changed. -/
def State.modSlots (s : State) (f : List (Nat × Trigger) → List (Nat × Trigger)) : State :=
  { s with trig := { s.trig with slots := f s.trig.slots } }

-- TRIGARM (R168, R169, R343, R344)

/-- The place of the descriptor that B names (R343). -/
def Issuer.descriptor (i : Issuer) (f : FmtT) : Nat := (i.g.rdS (sIdx f.b)).toNat

/-- The checks of `TRIGARM` in their order, in which the trigger of its descriptor is found (R344). -/
structure TrigarmChecks (f : FmtT) (tr : Trigger) (s : State) (i : Issuer) : Prop where
  number  : natSrcOk f.a = true
  place   : sOk f.b = true
  align   : i.descriptor f % 16 = 0
  slotMax : i.trigNumber f ≤ 255
  fits    : i.descriptor f + 128 ≤ i.tm.spadSize
  landed  : i.tm.pendingAt (i.descriptor f) 128 = false
  vacant  : Tab.find? s.trig.slots (slotKey i.wing (i.trigNumber f)) = none
  owned   : s.ownsSlot i.tm.ctx i.wing (i.trigNumber f) = true
  reads   : triggerOf i.tm.ctx i.wing s.span.size (fun o => i.tm.spadNat (i.descriptor f + o) 8) = some tr
  counts  : s.triggerOwned i.wing tr = true

/-- Whether a trigger fires when it is armed: its wing is online and its predicate is true (R169, R411). -/
def State.firesAtOnce (s : State) (wing : Nat) (tr : Trigger) : Bool := (s.wing wing).state == .online && s.predicate wing tr

/-- What `TRIGARM` leaves: the gang goes on with Z telling whether the slot fires, the slot holds the trigger, and then it may fire. -/
def State.armed (s : State) (i : Issuer) (k : Nat) (tr : Trigger) : State :=
  let fires := s.firesAtOnce i.wing tr
  let v := (s.passWith i (fun g => g.setCc ccZ fires)).modSlots (fun l => Tab.put l (slotKey i.wing k) tr)
  if fires then v.fireSlot (slotKey i.wing k) else v

/-- A `TRIGARM` that passes its checks arms its slot. -/
theorem trigarm_completes (h : Hdr) (f : FmtT) (tr : Trigger) :
    GangCompletes (.trigarm h f) h (TrigarmChecks f tr) (fun s i t => t = s.armed i (i.trigNumber f) tr) := by
  refine gang_completes (fun _ => rfl) (fun _ s _ i _ _ hc => ⟨_, ?_, rfl⟩)
  have hslot : ((Tab.find? s.trig.slots (slotKey i.wing (i.trigNumber f))).isSome || !s.ownsSlot i.tm.ctx i.wing (i.trigNumber f)) = false := by
    simp [hc.vacant, hc.owned]
  obtain ⟨hnumber, hplace, halign, hmax, hfits, hlanded, -, -, hreads, hcounts⟩ := hc
  unfold State.armed State.firesAtOnce State.modSlots
  unfold Issuer.trigNumber Issuer.descriptor Issuer.wing at *
  simp only [hnumber, hplace, halign, decide_eq_false (Nat.not_lt.mpr hmax), decide_eq_false (Nat.not_lt.mpr hfits), hlanded, hslot, hreads, hcounts,
    bne_self_eq_false, Bool.not_true, Bool.or_self, Bool.false_eq_true, if_false, ill_ok, trap_ok, ok_bind]

-- TRIGCNT (R168, R346)

/-- The amount or the value that B gives a counter: 32 bits of it. -/
def Issuer.countArg (i : Issuer) (f : FmtT) : Nat := (i.g.rdScalar f.b).toNat % 2 ^ 32

/-- A counter after an update: set to the value, or raised by the amount up to the largest value (R168). -/
def State.countUpdated (s : State) (key : Nat) (set : Bool) (n : Nat) : Nat :=
  if set then n else min ((s.ctrVal key).toNat + n) (2 ^ 32 - 1)

/-- A gang that has received a count in a scalar destination; any other destination takes none. -/
def Gang.putCount (g : Gang) (d : Operand) (n : Nat) : Gang :=
  match d with
  | .s r => g.wrS r.toNat (BitVec.ofNat 64 n)
  | _ => g

/-- A state with one counter of the trigger units changed. -/
def State.setCtr (s : State) (key : Nat) (v : W32) : State := { s with trig := { s.trig with counters := Tab.set s.trig.counters 0 key v } }

/-- The checks of `TRIGCNT` in their order (R346). -/
structure TrigcntChecks (f : FmtT) (s : State) (i : Issuer) : Prop where
  dest       : f.d = .zero ∨ sOk f.d = true
  number     : natSrcOk f.a = true
  arg        : natSrcOk f.b = true
  counterMax : i.trigNumber f ≤ 1023
  owned      : s.ownsCtr i.tm.ctx i.wing (i.trigNumber f) = true

/-- A `TRIGCNT` that passes its checks gives its destination the updated count, and then updates the counter. -/
theorem trigcnt_completes (h : Hdr) (f : FmtT) :
    GangCompletes (.trigcnt h f) h (TrigcntChecks f) (fun s i t =>
      let set := f.imm.getLsbD 0
      t = (s.passWith i (fun g => g.putCount f.d (s.countUpdated (ctrKey i.wing (i.trigNumber f)) set (i.countArg f)))).updateCtr
        i.wing (i.trigNumber f) set (i.countArg f)) := by
  refine gang_completes (fun _ => rfl) (fun _ s _ i _ _ hc => ⟨_, ?_, rfl⟩)
  obtain ⟨hdest, hnumber, harg, hmax, howned⟩ := hc
  have hd : (f.d == .zero || sOk f.d) = true := by simpa using hdest
  have hset : (f.imm.toNat % 2 == 1) = f.imm.getLsbD 0 := by rw [← bitAt_toNat, bitAt, pow_zero, Nat.div_one]
  have hn : ∀ x : W64, bits x.toNat 0 32 = x.toNat % 2 ^ 32 := fun x => by rw [bits, pow_zero, Nat.div_one]
  unfold Issuer.trigNumber Issuer.wing Issuer.countArg State.countUpdated at *
  simp only [hd, hnumber, harg, decide_eq_false (Nat.not_lt.mpr hmax), howned, hset, hn, Bool.not_true, Bool.or_self, ill_ok, ok_bind]
  rfl

section

variable {s : State} {w c : Nat} (set : Bool) (n : Nat) (howned : bitAt (Tab.get s.trig.ctrown 0 (ctrKey w c)).toNat 8 = true)
include howned

/-- An assigned counter of a wing that is online takes an update, and the slots that name it are evaluated (R168). -/
theorem State.updateCtr_online (hw : (s.wing w).state = .online) :
    s.updateCtr w c set n =
      (s.setCtr (ctrKey w c) (BitVec.ofNat 32 (s.countUpdated (ctrKey w c) set n))).evaluate w (some c) := by
  simp only [State.updateCtr, State.countUpdated, State.setCtr, howned, hw, bne_self_eq_false, Bool.not_true, Bool.false_eq_true, if_false]

/-- An update of an assigned counter is queued at a wing that is not online (R411). -/
theorem State.updateCtr_offline (hw : (s.wing w).state ≠ .online) :
    s.updateCtr w c set n = s.modWing w (fun x => { x with queued := x.queued ++ [(c, set, n)] }) := by
  simp only [State.updateCtr, howned, bne_iff_ne.mpr hw, Bool.not_true, Bool.false_eq_true, if_true, if_false]

end

-- TRIGDIS (R169, R347)

/-- The checks of `TRIGDIS` in their order (R347). -/
structure TrigdisChecks (f : FmtT) (s : State) (i : Issuer) : Prop where
  dest    : sOk f.d = true
  number  : natSrcOk f.a = true
  slotMax : i.trigNumber f ≤ 255
  owned   : s.ownsSlot i.tm.ctx i.wing (i.trigNumber f) = true

/-- A `TRIGDIS` that passes its checks disarms its slot and says in its destination and in Z whether it was armed. -/
theorem trigdis_completes (h : Hdr) (f : FmtT) :
    GangCompletes (.trigdis h f) h (TrigdisChecks f) (fun s i t =>
      let key := slotKey i.wing (i.trigNumber f)
      let armed := (Tab.find? s.trig.slots key).isSome
      t = (s.passWith i (fun g => (g.wrS (sIdx f.d) (if armed then 1 else 0)).setCc ccZ (!armed))).modSlots (fun l => Tab.del l key)) := by
  refine gang_completes (fun _ => rfl) (fun _ s _ i _ _ hc => ⟨_, ?_, rfl⟩)
  obtain ⟨hdest, hnumber, hmax, howned⟩ := hc
  unfold State.modSlots
  unfold Issuer.trigNumber Issuer.wing at *
  simp only [hdest, hnumber, decide_eq_false (Nat.not_lt.mpr hmax), howned, Bool.not_true, Bool.or_self, ill_ok, ok_bind]

/-- Settles O45: each instruction whose checks pass has its effect, and a counter is updated or its update queued. -/
theorem triggersComplete : Obligations.TriggersComplete := by
  unfold Obligations.TriggersComplete
  intro h f k wing at_ n old new
  refine ⟨fun tr => (trigarm_completes h f tr).mono ?_ (fun _ _ _ ht => ht), (trigcnt_completes h f).mono ?_ (fun _ _ _ ht => ht),
    (trigdis_completes h f).mono ?_ (fun _ _ _ ht => ht), fun s w c m set howned => ⟨s.updateCtr_online set m howned, s.updateCtr_offline set m howned⟩⟩
  · rintro s i ⟨hnumber, hplace, halign, hmax, hfits, hlanded, hvacant, howned, hreads, hcounts⟩
    exact ⟨hnumber, hplace, halign, hmax, hfits, hlanded, hvacant, howned, hreads, hcounts⟩
  · rintro s i ⟨hdest, hnumber, harg, hmax, howned⟩
    exact ⟨hdest, hnumber, harg, hmax, howned⟩
  · rintro s i ⟨hdest, hnumber, hmax, howned⟩
    exact ⟨hdest, hnumber, hmax, howned⟩

end Sys2Proof.Machine
end

section
/-! SUPPORT. Traps that are queued (R192 to R195) and the instructions that take or return from one (R197, R245, R254): where an entry
joins the pending-trap queue, what taking a trap leaves when it has a handler and the queue has room, what a debug trap's entry
says, and the statements about them. -/

namespace Sys2Proof.Machine

open Sys2Proof

-- the pending-trap queue (R195)

/-- Whether an entry stays behind another that joins the queue: both are of a parted gang, and its slice is the higher one. -/
def TrapEntry.yieldsTo (x e : TrapEntry) : Bool := x.parted && e.parted && decide (e.slice < x.slice)

/-- An entry joins in front of the first that yields to it. -/
theorem queueTrap_eq (q : List TrapEntry) (e : TrapEntry) :
    queueTrap q e = q.takeWhile (fun x => !x.yieldsTo e) ++ [e] ++ q.dropWhile (fun x => !x.yieldsTo e) := by
  have hdrop : q.drop (q.takeWhile (fun x => !x.yieldsTo e)).length = q.dropWhile (fun x => !x.yieldsTo e) := by
    conv_lhs => arg 2; rw [← List.takeWhile_append_dropWhile (p := fun x => !x.yieldsTo e) (l := q)]
    exact List.drop_left
  rw [← hdrop]
  rfl

/-- An entry joins behind all entries that do not yield to it, up to the first that does. -/
theorem queueTrap_splits (q : List TrapEntry) (e : TrapEntry) :
    ∃ a b, q = a ++ b ∧ queueTrap q e = a ++ [e] ++ b ∧ (∀ x ∈ a, x.parted = false ∨ e.parted = false ∨ x.slice ≤ e.slice) ∧
      ∀ x, b.head? = some x → x.parted = true ∧ e.parted = true ∧ e.slice < x.slice := by
  refine ⟨_, _, (List.takeWhile_append_dropWhile (p := fun x => !x.yieldsTo e)).symm, queueTrap_eq q e, fun x hx => ?_, fun x hx => ?_⟩
  · have hstays : x.yieldsTo e = false := by simpa using List.mem_takeWhile_imp hx
    rw [TrapEntry.yieldsTo, Bool.and_eq_false_iff, Bool.and_eq_false_iff, decide_eq_false_iff_not, Nat.not_lt] at hstays
    exact or_assoc.mp hstays
  · have hyields := List.head?_dropWhile_not (fun x => !x.yieldsTo e) q
    rw [hx] at hyields
    simpa [TrapEntry.yieldsTo, and_assoc] using hyields

-- taking a trap that is queued (R192, R194, R195)

/-- Slices of a gang that are ready again, as those that trap are. -/
def Gang.readied (g : Gang) (l : List Nat) : Gang := g.modSlices l (fun x => { x with wait := .ready })

theorem Gang.sameButSlices_readied (g : Gang) (l : List Nat) : g.SameButSlices (g.readied l) :=
  Gang.sameButSlices_modSlices g l _ (fun _ => rfl) (fun _ => rfl)

theorem Gang.isLive_readied (g : Gang) (l : List Nat) : (g.readied l).isLive = g.isLive := Gang.isLive_modSlices g l _ (fun _ => rfl)

/-- A trap with a handler, outside handler state and with room in the queue: its slices stop, the team halts, the entry is queued. -/
theorem State.takeTrap_queued {s : State} {team gang : Nat} {e : TrapEntry} {t : Team} (slices : List Nat) (ht : s.team? team = some t)
    (hh : (t.gang gang).handler = false) (hq : (t.gang gang).queue.length < 8) (hv : t.trapvec ≠ 0) (hpoison : e.cause ≠ cPoison)
    (hpage : e.cause ≠ cPage) :
    s.takeTrap team gang slices e =
      ((s.modGang team gang (·.readied slices)).haltTeam team gang slices).modGang team gang (fun g => { g with queue := queueTrap g.queue e }) := by
  rw [State.takeTrap, ht]
  refine (if_neg hpoison).trans ((if_neg (by simp [hh])).trans ((if_neg (by simp [hq])).trans (if_neg ?_)))
  simpa using And.intro hv hpage

/-- Gangs that differ in their slices only, and then in their queues, have the same registers. -/
theorem Gang.SameButSlices.sameRegs {g g' : Gang} (h : g.SameButSlices g') (q : List TrapEntry) : g.SameRegs { g' with queue := q } := by
  rw [h.same]
  rfl

theorem Gang.SameButSlices.queue {g g' : Gang} (h : g.SameButSlices g') : g'.queue = g.queue := by rw [h.same]
theorem Gang.SameButSlices.handler {g g' : Gang} (h : g.SameButSlices g') : g'.handler = g.handler := by rw [h.same]
theorem Gang.SameButSlices.ganged {g g' : Gang} (h : g.SameButSlices g') : g'.ganged = g.ganged := by rw [h.same]

/-- Changing the slices of one gang of a team changes slices only. -/
theorem Team.sameButSlices_modGang (t : Team) (i : Nat) (f : Gang → Gang) (hf : ∀ g : Gang, g.SameButSlices (f g)) : t.SameButSlices (t.modGang i f) := by
  refine ⟨rfl, Team.modGang_length t i f, fun j => ?_⟩
  rw [Team.gang_modGang]
  split
  · exact hf _
  · exact .refl _

/-- What a queued trap leaves of the device and of its team, before the entry joins the queue: only slices have changed, and the
team is halted. -/
theorem State.haltedForTrap {s : State} {team gang : Nat} {t : Team} (slices : List Nat) (ht : s.team? team = some t) :
    HaltedFrom s ((s.modGang team gang (·.readied slices)).haltTeam team gang slices) team t := by
  have hready := Team.sameButSlices_modGang t gang (·.readied slices) (fun g => g.sameButSlices_readied slices)
  obtain ⟨honly, t', ht', hsame, hlen, hgangs⟩ := State.haltTeam_spec (gang := gang) (stopped := slices) (State.team_modGang (·.readied slices) ht)
  exact ⟨(State.onlyTeam_modTeam s team _).trans honly, t', ht', hsame, hlen.trans hready.length, fun j => (hready.gangs j).trans (hgangs j)⟩

/-- The slices that raised a trap have stopped. -/
theorem State.haltedForTrap_stops {s : State} {team gang : Nat} {slices : List Nat} {t : Team} (ht : s.team? team = some t)
    (hg : gang < t.gangs.length) (hlive : (t.gang gang).isLive = true) (hne : slices ≠ [])
    (hl : ∀ k ∈ slices, k < 8 ∧ ((t.gang gang).slice k).live = true) :
    ∀ k ∈ slices, ((((s.modGang team gang (·.readied slices)).haltTeam team gang slices).gang team gang).slice k).Halted := by
  have hgang : (t.modGang gang (·.readied slices)).gang gang = (t.gang gang).readied slices := Team.gang_modGang_same t _ hg
  refine State.haltTeam_stops (State.team_modGang (·.readied slices) ht) (by simpa using hg) ?_ hne (fun k hk => ?_)
  · rw [hgang, Gang.isLive_readied, hlive]
  · rw [hgang, ((t.gang gang).sameButSlices_readied slices).live]
    exact hl k hk

/-- Settles O22: the halt changes slices only and stops those that trap; then the entry joins its gang's queue. -/
theorem trapsHaltAndQueue : Obligations.TrapsHaltAndQueue := by
  unfold Obligations.TrapsHaltAndQueue
  intro s team gang slices e t ht hg hlive hne hl hh hq hv hpoison hpage u
  obtain ⟨honly, t1, ht1, hsame, hlen, hgangs⟩ := State.haltedForTrap (gang := gang) slices ht
  have hu : u = _ := State.takeTrap_queued slices ht hh hq hv hpoison hpage
  have hg1 : gang < t1.gangs.length := hlen ▸ hg
  have hstops := State.haltedForTrap_stops ht hg hlive hne hl
  rw [State.gang, ht1] at hstops
  obtain ⟨a, b, hab, hjoined, hbefore, hbehind⟩ := queueTrap_splits (t1.gang gang).queue e
  have hother : ∀ j, j ≠ gang → (t1.modGang gang (fun g => { g with queue := queueTrap g.queue e })).gang j = t1.gang j :=
    fun j hj => Team.gang_modGang_other t1 _ hj
  have hown : (t1.modGang gang (fun g => { g with queue := queueTrap g.queue e })).gang gang =
      { t1.gang gang with queue := queueTrap (t1.gang gang).queue e } := Team.gang_modGang_same t1 _ hg1
  refine ⟨hu ▸ honly.trans (State.onlyTeam_modTeam _ team _), _, hu ▸ State.team_modGang _ ht1, ?_, (Team.modGang_length ..).trans hlen,
    ⟨a, b, (hgangs gang).queue.symm.trans hab, by rw [hown, hjoined], hbefore, hbehind⟩, fun j => ?_, fun k hk => ?_⟩
  · rw [Team.modGang, hsame]
  · by_cases hj : j = gang
    · subst hj
      rw [hown]
      exact ⟨(hgangs j).sameRegs _, fun h => absurd rfl h, (hgangs j).handler, (hgangs j).ganged, fun k => ⟨(hgangs j).pc k, (hgangs j).live k⟩⟩
    · rw [hother j hj]
      exact ⟨(hgangs j).sameRegs _, fun _ => (hgangs j).queue, (hgangs j).handler, (hgangs j).ganged, fun k => ⟨(hgangs j).pc k, (hgangs j).live k⟩⟩
  · rw [hown]
    exact hstops k hk

-- BKPT, TRAP and RTE (R195, R197, R245, R254)

/-- A slice of the unit has an active lane by itself exactly where the unit has one in it (R9, R197). -/
theorem Issuer.active_in_slice {i : Issuer} {h : Hdr} {k : Nat} (hk : k ∈ i.slices) :
    (!(i.g.activeIn h (lanesOf [k])).isEmpty) = (i.active h).any (fun l => l / 4 == k) := by
  rw [Bool.eq_iff_iff]
  simp only [Bool.not_eq_true', List.isEmpty_eq_false_iff_exists_mem, List.any_eq_true, beq_iff_eq, Issuer.active, Gang.activeIn, Issuer.lanes,
    List.mem_filter, mem_lanesOf, List.mem_singleton]
  constructor
  · rintro ⟨l, hl, hbit⟩
    exact ⟨l, ⟨hl ▸ hk, hbit⟩, hl⟩
  · rintro ⟨l, ⟨-, hbit⟩, hl⟩
    exact ⟨l, hl, hbit⟩

/-- The slice of the issuing unit that raises a trap is the lowest with an active lane (R193, R197). -/
theorem Issuer.trapSlice_eq (i : Issuer) (h : Hdr) :
    i.g.trapSlice (some h) i.slices = (i.slices.find? (fun k => (i.active h).any (fun l => l / 4 == k))).getD (i.slices.headD 0) :=
  congrArg (·.getD (i.slices.headD 0)) (List.find?_congr fun _ hk => Issuer.active_in_slice hk)

/-- The entry of a debug trap has the following slot as the resume address of the slices that performed it, and of no other (R195). -/
theorem Gang.pastEntry_resume (g : Gang) (h : Hdr) (l : List Nat) (cause : Nat) (info : W64) {k : Nat} (hk : k < 8) :
    (g.pastEntry h l cause info).resume[k]? = some (if k ∈ l then some (nextSlot (g.slice k).pc) else none) := by
  simp [Gang.pastEntry, List.getElem?_map, List.getElem?_range hk]

/-- A debug trap counts the instruction of the issuing gang and takes the trap (R245, R256). -/
theorem State.debugTrap_eq {s : State} {i : Issuer} (hi : s.issuer? = some i) (h : Hdr) (cause : Nat) (info : W64) :
    s.debugTrap i h cause info = (s.withGang i (i.g.countIssue i.slices)).takeTrap i.unit.team i.unit.gang i.slices (i.g.pastEntry h i.slices cause info) :=
  congrArg (·.takeTrap i.unit.team i.unit.gang i.slices (i.g.pastEntry h i.slices cause info)) (State.modGang_withGang hi _)

section
variable {h : Hdr} {s : State} {i : Issuer} (hi : s.Issues i) (hs : h.scp = .lane)
include hi hs

/-- `BKPT` of a unit with an active lane traps (R197). -/
theorem bkpt_traps (hact : i.active h ≠ []) : Performs (.bkpt h) s i.performer (s.debugTrap i h cBreakpoint 0) :=
  unit_completes (fun _ => rfl) hi hs (congrArg Except.ok (if_neg hact))

/-- `BKPT` of a unit without an active lane passes as `NOP` (R197). -/
theorem bkpt_passes (hact : i.active h = []) : Performs (.bkpt h) s i.performer (s.withGang i (i.g.pass i.slices)) :=
  unit_completes (fun _ => rfl) hi hs (congrArg Except.ok ((if_pos hact).trans (State.modGang_withGang hi.1 _)))

/-- `TRAP` traps, whatever its lanes (R245). -/
theorem trap_traps (code : W32) : Performs (.trap h code) s i.performer (s.debugTrap i h cSoftware (code.setWidth 64)) :=
  unit_completes (fun _ => rfl) hi hs rfl

/-- `RTE` in handler state returns from the entry that is handled (R254). -/
theorem rte_returns (hh : i.g.handler = true) : Performs (.rte h) s i.performer (s.returnFromTrap i.unit.team i.unit.gang) := by
  refine unit_completes (fun _ => rfl) hi hs ?_
  simp only [hh, Bool.not_true, trap_ok, ok_bind]

end

/-- Settles O21: the gang is counted as having issued, and the entry resumes past the instruction. -/
theorem trapInstructionsComplete : Obligations.TrapInstructionsComplete := by
  unfold Obligations.TrapInstructionsComplete
  intro h s i hi hs raiser takes
  have taken : ∀ {ins cause info}, Performs ins s i.performer (s.debugTrap i h cause info) → takes ins cause info := by
    intro ins cause info hp
    have hslice : (i.g.pastEntry h i.slices cause info).slice = raiser := i.trapSlice_eq h
    have hpc : (i.g.pastEntry h i.slices cause info).pc = (i.g.slice raiser).pc := congrArg (fun k => (i.g.slice k).pc) hslice
    rw [State.debugTrap_eq hi.1] at hp
    exact ⟨_, _, hp, ⟨rfl, rfl⟩, rfl, rfl, rfl, hslice, rfl, rfl, hpc, rfl, fun _ hk => i.g.pastEntry_resume h i.slices cause info hk⟩
  exact ⟨fun hact => taken (bkpt_traps hi hs hact),
    fun hact => ⟨_, bkpt_passes hi hs hact, Gang.wentOn_pass hi.2.apart (fun k hk => (hi.2.slice k hk).2)⟩,
    fun code => taken (trap_traps hi hs code), rte_returns hi hs⟩

end Sys2Proof.Machine
end

section
/-! SUPPORT. Handler entry (R193, R195, R223): what landing pending results leaves of a gang, what the withdrawal of a gang's waits
leaves of queues, work lists and groups, what a gang is in handler state, and the statement about it. -/

namespace Sys2Proof.Machine

open Sys2Proof

-- landing pending results (R222, R223)

/-- Only what a late result may be written to has changed: v, n, s, m and CC. -/
def Gang.SameButDests (g g' : Gang) : Prop := g' = { g with v := g'.v, n := g'.n, s := g'.s, m := g'.m, cc := g'.cc }

theorem Gang.SameButDests.trans {a b c : Gang} (h : a.SameButDests b) (h' : b.SameButDests c) : a.SameButDests c := by
  unfold Gang.SameButDests at h h' ⊢
  rw [h] at h'
  exact h'

theorem Gang.sameButDests_wrM (g : Gang) (r : Nat) (x : W32) : g.SameButDests (g.wrM r x) := by
  unfold Gang.wrM
  split
  · rfl
  · rfl

theorem Gang.sameButDests_writeDest (g : Gang) (p : Dest × W64) : g.SameButDests (g.writeDest p) := by
  obtain ⟨d, x⟩ := p
  cases d with
  | m r l => exact g.sameButDests_wrM r _
  | v r l => rfl
  | n r l => rfl
  | s r => rfl
  | cc k => rfl

/-- A fold of changes of those registers is one. -/
theorem Gang.sameButDests_foldl {α : Type} (f : Gang → α → Gang) (hf : ∀ (g : Gang) (a : α), g.SameButDests (f g a)) (l : List α) (g : Gang) :
    g.SameButDests (l.foldl f g) := by
  induction l generalizing g with
  | nil => rfl
  | cons a r ih => exact (hf g a).trans (ih (f g a))

/-- Landing writes those registers and leaves nothing pending. -/
theorem Gang.land_eq (g : Gang) :
    g.land = { g with v := g.land.v, n := g.land.n, s := g.land.s, m := g.land.m, cc := g.land.cc, pend := [] } := by
  have h := Gang.sameButDests_foldl _ (fun g (p : Pending) => Gang.sameButDests_foldl _ Gang.sameButDests_writeDest p.writes g) g.pend g
  exact congrArg (fun x : Gang => { x with pend := [] }) h

@[simp] theorem Gang.land_slices (g : Gang) : g.land.slices = g.slices := by rw [Gang.land_eq]
@[simp] theorem Gang.land_queue (g : Gang) : g.land.queue = g.queue := by rw [Gang.land_eq]
@[simp] theorem Gang.land_handler (g : Gang) : g.land.handler = g.handler := by rw [Gang.land_eq]
@[simp] theorem Gang.land_slice (g : Gang) (k : Nat) : g.land.slice k = g.slice k := by rw [Gang.slice, Gang.land_slices, Gang.slice]
@[simp] theorem Gang.land_liveSlices (g : Gang) : g.land.liveSlices = g.liveSlices := Gang.liveSlices_congr fun k => by rw [Gang.land_slice]

-- the trap record (R193)

/-- TRCAUSE.CAUSE is the cause of the entry. -/
theorem trcauseOf_cause (e : TrapEntry) : (trcauseOf e).toNat % 2 ^ 8 = e.cause % 2 ^ 8 := by
  simp only [trcauseOf, BitVec.toNat_ofNat]
  split <;> split <;> split <;> omega

-- a gang in handler state (R195)

/-- The live slices of a gang at TRAPVEC, ready to issue, with every pending result written (R195, R223). -/
def Gang.toHandler (g : Gang) (trapvec : W64) : Gang := g.land.modSlices g.liveSlices (fun x => { x with pc := trapvec, wait := .ready })

theorem Gang.slice_toHandler (g : Gang) (trapvec : W64) {k : Nat} (hk : k ∈ g.liveSlices) :
    (g.toHandler trapvec).slice k = { g.slice k with pc := trapvec, wait := .ready } := by
  have hlive : (g.land.slice k).live = true := by rw [Gang.land_slice]; exact ((Gang.mem_liveSlices _).mp hk).2
  rw [Gang.toHandler, Gang.slice_modSlices_mem _ _ hk g.liveSlices_nodup (Gang.live_lt _ hlive), Gang.land_slice]

theorem Gang.live_toHandler (g : Gang) (trapvec : W64) (k : Nat) : ((g.toHandler trapvec).slice k).live = (g.slice k).live := by
  rw [Gang.toHandler, Gang.live_modSlices, Gang.land_slice]
  exact fun _ => rfl

@[simp] theorem Gang.toHandler_handler (g : Gang) (trapvec : W64) : (g.toHandler trapvec).handler = g.handler := by simp [Gang.toHandler]
@[simp] theorem Gang.toHandler_queue (g : Gang) (trapvec : W64) : (g.toHandler trapvec).queue = g.queue := by simp [Gang.toHandler]

/-- Going to the handler changes slices only, once the pending results have landed. -/
theorem Gang.toHandler_eq (g : Gang) (trapvec : W64) : g.toHandler trapvec = { g.land with slices := (g.toHandler trapvec).slices } :=
  Gang.modSlices_only _ _ _

/-- A gang with an entry waiting enters handler state for the first (R195). -/
theorem Gang.enterHandler_cons {g : Gang} {e : TrapEntry} {r : List TrapEntry} (hq : g.queue = e :: r) (trapvec : W64) :
    g.enterHandler trapvec = { g.toHandler trapvec with
      handler := true, savedGanged := g.ganged, ganged := true,
      savedApplied := g.applied, applied := 0, savedPlain := g.plainDone, plainDone := false, savedWaits := g.slices.map (·.wait),
      trec := trapRecord e (g.slices.map (·.pc)) g.skidWord } := by
  rw [Gang.enterHandler, hq, Gang.toHandler, ← Gang.land_liveSlices]

/-- What a gang with an entry waiting is in handler state (R193, R195): the registers, its form, its slices and the trap record. -/
structure HandlerEntered (g : Gang) (trapvec : W64) (e : TrapEntry) (g' : Gang) : Prop where
  regs    : g.land.SameRegs g'
  handler : g'.handler = true
  form    : g'.ganged = true ∧ g'.savedGanged = g.ganged
  queue   : g'.queue = g.queue
  slices  : ∀ k ∈ g.liveSlices, (g'.slice k).pc = trapvec ∧ (g'.slice k).wait = .ready
  record  : g'.trec.addr = e.addr ∧ g'.trec.info = e.info ∧ g'.trec.applied = e.applied ∧ g'.trec.cause.toNat % 2 ^ 8 = e.cause % 2 ^ 8
  saved   : g'.savedApplied = g.applied ∧ g'.savedPlain = g.plainDone ∧ g'.applied = 0 ∧ g'.plainDone = false
  stood   : ∀ k < g.slices.length, g'.trec.pcs[k]? = some (g.slice k).pc ∧ g'.savedWaits[k]? = some (g.slice k).wait

/-- A field of a gang's slices, listed. -/
theorem Gang.getElem?_map_slices {α : Type} (g : Gang) (p : Slice → α) {k : Nat} (hk : k < g.slices.length) :
    (g.slices.map p)[k]? = some (p (g.slice k)) := by
  simp [Gang.slice, hk]

theorem Gang.enterHandler_entered {g : Gang} {e : TrapEntry} {r : List TrapEntry} (hq : g.queue = e :: r) (trapvec : W64) :
    HandlerEntered g trapvec e (g.enterHandler trapvec) := by
  rw [Gang.enterHandler_cons hq]
  have hslice : ∀ k ∈ g.liveSlices, ((g.toHandler trapvec).slice k).pc = trapvec ∧ ((g.toHandler trapvec).slice k).wait = .ready :=
    fun k hk => by rw [g.slice_toHandler trapvec hk]; exact ⟨rfl, rfl⟩
  exact ⟨by rw [Gang.toHandler_eq]; rfl, rfl, ⟨rfl, rfl⟩, g.toHandler_queue trapvec, hslice, ⟨rfl, rfl, rfl, trcauseOf_cause e⟩, ⟨rfl, rfl, rfl, rfl⟩,
    fun k hk => ⟨g.getElem?_map_slices (·.pc) hk, g.getElem?_map_slices (·.wait) hk⟩⟩

-- what the gang waited for is withdrawn (R195)

/-- A group member as the withdrawal of a gang's waits leaves it. -/
def Member.withdrawn (team gang : Nat) (m : Member) : Member :=
  if m.team = team && m.gang = gang && !m.leaving then { m with arrived := none } else m

/-- A work list as the withdrawal of a gang's waits leaves it. -/
def WList.withdrawn (team gang : Nat) (w : WList) : WList := if w.home = some (team, gang) then { w with waiting := none } else w

/-- A member of the gang that is not leaving has not arrived. -/
theorem Member.withdrawn_arrived (team gang : Nat) (m : Member) : (m.withdrawn team gang).team = team → (m.withdrawn team gang).gang = gang →
    (m.withdrawn team gang).leaving = false → (m.withdrawn team gang).arrived = none := by
  rw [Member.withdrawn]
  split
  · exact fun _ _ _ => rfl
  · next hother => exact fun hteam hgang hleaving => absurd (by simp [hteam, hgang, hleaving]) hother

/-- A work list of the gang does not have it waiting. -/
theorem WList.withdrawn_waiting (team gang : Nat) (w : WList) : (w.withdrawn team gang).home = some (team, gang) → (w.withdrawn team gang).waiting = none := by
  rw [WList.withdrawn]
  split
  · exact fun _ => rfl
  · next hother => exact fun hhome => absurd hhome hother

/-- What the withdrawal leaves of the groups and the work lists of the context. -/
theorem State.cancelWaits_ctx (s : State) (ctx team gang : Nat) :
    ((s.cancelWaits ctx team gang).ctx ctx).groups =
      (s.ctx ctx).groups.map (fun p => (p.1, { p.2 with members := p.2.members.map (Member.withdrawn team gang) })) ∧
    ((s.cancelWaits ctx team gang).ctx ctx).wlists = (s.ctx ctx).wlists.map (fun p => (p.1, p.2.withdrawn team gang)) := by
  rw [State.cancelWaits, State.ctx_modCtx_same]
  exact ⟨rfl, rfl⟩

/-- The gang has arrived in no group of its context any more, but where it is leaving. -/
theorem State.cancelWaits_groups (s : State) (ctx team gang : Nat) : ∀ p ∈ ((s.cancelWaits ctx team gang).ctx ctx).groups, ∀ m ∈ p.2.members,
    m.team = team → m.gang = gang → m.leaving = false → m.arrived = none := by
  intro p hp m hm
  rw [(s.cancelWaits_ctx ctx team gang).1] at hp
  obtain ⟨q, -, rfl⟩ := List.mem_map.mp hp
  obtain ⟨x, -, rfl⟩ := List.mem_map.mp hm
  exact x.withdrawn_arrived team gang

/-- The gang's work lists have it waiting no more. -/
theorem State.cancelWaits_wlists (s : State) (ctx team gang : Nat) : ∀ p ∈ ((s.cancelWaits ctx team gang).ctx ctx).wlists,
    p.2.home = some (team, gang) → p.2.waiting = none := by
  intro p hp
  rw [(s.cancelWaits_ctx ctx team gang).2] at hp
  obtain ⟨q, -, rfl⟩ := List.mem_map.mp hp
  exact q.2.withdrawn_waiting team gang

/-- The withdrawal leaves the team's gangs as they are, and no queue has the gang among its waiters. -/
theorem State.cancelWaits_team {s : State} {team : Nat} {t : Team} (ctx gang : Nat) (ht : s.team? team = some t) :
    ∃ t0, (s.cancelWaits ctx team gang).team? team = some t0 ∧ t0.gangs = t.gangs ∧ ∀ p ∈ t0.queues, ∀ w ∈ p.2.waiters, w.1 ≠ gang := by
  refine ⟨_, (State.team_modTeam_same s team _).trans (congrArg _ ht), rfl, fun p hp w hw => ?_⟩
  obtain ⟨q, -, rfl⟩ := List.mem_map.mp hp
  simpa using (List.mem_filter.mp hw).2

/-- A gang of a running, stopped team with an entry waiting may enter handler state, unless its launch is held. -/
theorem State.mayEnter_of_stopped {s : State} {gang : Nat} {t : Team} {e : TrapEntry} {r : List TrapEntry} (hrun : t.status = .running)
    (hhalt : t.halted = true) (hstop : t.stopped = true) (hh : (t.gang gang).handler = false) (hq : (t.gang gang).queue = e :: r)
    (hheld : ∀ L, s.launch? t.launch = some L → L.held = false) : s.mayEnter t gang = true := by
  have hfree : (match s.launch? t.launch with | some L => !L.held | none => true) = true := by
    cases hL : s.launch? t.launch with
    | none => rfl
    | some L => simp [hheld L hL]
  simp only [State.mayEnter, hrun, hhalt, hstop, hh, hq]
  exact hfree

/-- `HANDLER_ENTRY` where the gang may enter and the entry of the handler is one: its waits are withdrawn, and it is in handler
state (R195, R212). -/
theorem handlerEntry_enters {s : State} {team gang : Nat} {t : Team} (ht : s.team? team = some t) (hmay : s.mayEnter t gang = true)
    (hentry : s.entryOk t.ctx t.trapvec = true) :
    exec (.handlerEntry team gang) s = .next ((s.cancelWaits t.ctx team gang).modGang team gang (·.enterHandler t.trapvec)) := by
  change execHandlerEntry team gang s = _
  simp only [execHandlerEntry, ht, hmay, hentry, Bool.not_true, Bool.false_eq_true, if_false, if_true]

/-- Settles O24: the gang's waits are withdrawn, and then it alone changes, as the entry of handler state says. -/
theorem handlerEntryCompletes : Obligations.HandlerEntryCompletes := by
  unfold Obligations.HandlerEntryCompletes
  intro s team gang t e r ht hg hrun hhalt hstop hh hq hheld hentry
  obtain ⟨t0, ht0, hsame, hqueues⟩ := State.cancelWaits_team t.ctx gang ht
  have hg0 : gang < t0.gangs.length := hsame ▸ hg
  have hgang : (s.cancelWaits t.ctx team gang).gang team gang = t.gang gang := by simp only [State.gang, ht0, Team.gang, hsame]
  refine ⟨_, handlerEntry_enters ht (State.mayEnter_of_stopped hrun hhalt hstop hh hq hheld) hentry, State.onlyGangs_modGang .., fun t' ht' => ?_,
    s.cancelWaits_groups t.ctx team gang, s.cancelWaits_wlists t.ctx team gang, ?_⟩
  · obtain rfl : t0.modGang gang (·.enterHandler t.trapvec) = t' := Option.some.inj ((State.team_modGang _ ht0).symm.trans ht')
    exact hqueues
  · rw [State.gang_modGang_same _ ht0 hg0, hgang]
    obtain ⟨hregs, hhandler, ⟨hganged, hform⟩, hqueue, hslices, ⟨haddr, hinfo, happlied, hcause⟩, ⟨hsa, hsp, ha, hp⟩, hstood⟩ :=
      Gang.enterHandler_entered hq t.trapvec
    exact ⟨hregs, hhandler, hganged, hform, hqueue, hslices, haddr, hinfo, happlied, hcause, hsa, hsp, ha, hp, hstood⟩

end Sys2Proof.Machine
end

section
/-! SUPPORT. Returning from the handler (R195, R196): where each slice resumes, what leaving handler state makes of the gang, what the
resumption of its team changes, the handling of a further entry, and the statement about them. -/

namespace Sys2Proof.Machine

open Sys2Proof

-- where the slices resume (R195)

/-- The address at which a slice resumes after an entry: the one past the instruction, where the entry says so, else its TRPC. -/
def Gang.resumeAddr (g : Gang) (e : TrapEntry) (k : Nat) : W64 := (e.resume.getD k none).getD (g.trec.pcs.getD k 0)

theorem resumed_getElem? (g : Gang) (e : TrapEntry) {k : Nat} (hk : k < 8) : (resumed e g.trec.pcs)[k]? = some (g.resumeAddr e k) := by
  simp [resumed, Gang.resumeAddr, List.getElem?_map, List.getElem?_range hk]

theorem resumed_getD (g : Gang) (e : TrapEntry) {k : Nat} (hk : k < 8) : (resumed e g.trec.pcs).getD k 0 = g.resumeAddr e k := by
  rw [List.getD_eq_getElem?_getD, resumed_getElem? g e hk, Option.getD_some]

/-- A slice has resumed at an address, where it waited for something when the handler was entered: it waits again for an append
that is in flight or for a yielded copy, has passed a `WAPP` whose append has landed, and is ready otherwise (R195, R296). -/
def Slice.Resumes (x : Slice) (inflight : Tab Append) (saved : Wait) (pc : W64) : Prop :=
  match saved with
  | .append n => if (Tab.find? inflight n).isSome then x.pc = pc ∧ x.wait = .append n else x.pc = nextSlot pc ∧ x.wait = .ready
  | .copyYield n => x.pc = pc ∧ x.wait = .copyYield n
  | _ => x.pc = pc ∧ x.wait = .ready

/-- It depends on the slice's address and wait only. -/
theorem Slice.Resumes.congr {x y : Slice} {inflight : Tab Append} {saved : Wait} {pc : W64} (h : x.Resumes inflight saved pc) (hpc : y.pc = x.pc)
    (hwait : y.wait = x.wait) : y.Resumes inflight saved pc := by
  unfold Slice.Resumes at h ⊢
  rw [hpc, hwait]
  exact h

-- leaving handler state (R195, R296)

/-- The gang out of handler state, before slices whose appends have landed pass their `WAPP`. -/
def Gang.outOfHandler (g : Gang) (pcs : List W64) : Gang :=
  { g with
    slices := (List.range 8).map (fun i =>
      let x := g.slice i
      { x with pc := (if x.live then pcs.getD i 0 else x.pc), wait := (g.savedWaits.getD i .ready).kept, skidMax := x.skid }),
    queue := [], handler := false, ganged := g.savedGanged, trec := {}, gissue := g.gissue + 1,
    applied := g.savedApplied, savedApplied := 0, plainDone := g.savedPlain, savedPlain := false, savedWaits := [] }

theorem Gang.leaveHandler_eq (g : Gang) (pcs : List W64) (inflight : Tab Append) :
    g.leaveHandler pcs inflight = if g.appended inflight = [] then g.outOfHandler pcs else (g.outOfHandler pcs).pass (g.appended inflight) := rfl

/-- A live slice has passed its `WAPP` exactly where it waited for an append that is in flight no more. -/
theorem Gang.mem_appended {g : Gang} {inflight : Tab Append} {k : Nat} (hk : k ∈ g.liveSlices) :
    k ∈ g.appended inflight ↔ ∃ n, g.savedWaits.getD k .ready = .append n ∧ Tab.find? inflight n = none := by
  rw [Gang.appended, List.mem_filter, and_iff_right hk]
  split
  · next n hw =>
    rw [Option.isNone_iff_eq_none]
    refine ⟨fun hnone => ⟨n, hw, hnone⟩, ?_⟩
    rintro ⟨m, hm, hnone⟩
    obtain rfl : n = m := Wait.append.inj (hw.symm.trans hm)
    exact hnone
  · next hother =>
    refine ⟨fun hfalse => Bool.noConfusion hfalse, ?_⟩
    rintro ⟨n, hw, -⟩
    exact absurd hw (hother n)

theorem Gang.appended_subset {g : Gang} {inflight : Tab Append} {k : Nat} (h : k ∈ g.appended inflight) : k ∈ g.liveSlices := List.mem_of_mem_filter h

/-- With every append still in flight, no slice has passed its `WAPP`. -/
theorem Gang.appended_nil {g : Gang} {inflight : Tab Append}
    (h : ∀ k n, g.savedWaits.getD k .ready = .append n → (Tab.find? inflight n).isSome = true) : g.appended inflight = [] := by
  rw [List.eq_nil_iff_forall_not_mem]
  intro k hk
  obtain ⟨n, hw, hnone⟩ := (Gang.mem_appended (Gang.appended_subset hk)).mp hk
  simpa [hnone] using h k n hw

section
variable (g : Gang) (pcs : List W64) (inflight : Tab Append) {k : Nat}

theorem Gang.slice_outOfHandler (hk : k < 8) : (g.outOfHandler pcs).slice k =
    { g.slice k with pc := if (g.slice k).live then pcs.getD k 0 else (g.slice k).pc, wait := (g.savedWaits.getD k .ready).kept, skidMax := (g.slice k).skid } := by
  rw [Gang.slice, Gang.outOfHandler, List.getD_eq_getElem?_getD, List.getElem?_map, List.getElem?_range hk]
  rfl

theorem Gang.live_outOfHandler (hk : k < 8) : ((g.outOfHandler pcs).slice k).live = (g.slice k).live := by rw [g.slice_outOfHandler pcs hk]

/-- Slices that passed their `WAPP` stand behind it. -/
theorem Gang.slice_leaveHandler_appended (hk : k ∈ g.appended inflight) :
    (g.leaveHandler pcs inflight).slice k =
      { (g.outOfHandler pcs).slice k with pc := nextSlot ((g.outOfHandler pcs).slice k).pc, wait := .ready } := by
  obtain ⟨hlt, hlive⟩ := (Gang.mem_liveSlices g).mp (Gang.appended_subset hk)
  rw [Gang.leaveHandler_eq, if_neg (List.ne_nil_of_mem hk)]
  exact Gang.slice_pass _ hk (g.liveSlices_nodup.filter _) ((g.live_outOfHandler pcs hlt).trans hlive)

/-- Every other slice is as it left handler state. -/
theorem Gang.slice_leaveHandler_other (hk : k ∉ g.appended inflight) : (g.leaveHandler pcs inflight).slice k = (g.outOfHandler pcs).slice k := by
  rw [Gang.leaveHandler_eq]
  split
  · rfl
  · exact Gang.slice_pass_other _ hk

theorem Gang.live_leaveHandler (hk : k < 8) : ((g.leaveHandler pcs inflight).slice k).live = (g.slice k).live := by
  by_cases happ : k ∈ g.appended inflight
  · rw [g.slice_leaveHandler_appended pcs inflight happ]
    exact g.live_outOfHandler pcs hk
  · rw [g.slice_leaveHandler_other pcs inflight happ]
    exact g.live_outOfHandler pcs hk

/-- Leaving handler state counts what is passed, and changes nothing else of the gang out of handler state but slices. -/
theorem Gang.sameButIssue_leaveHandler : (g.outOfHandler pcs).SameButIssue (g.leaveHandler pcs inflight) := by
  rw [Gang.leaveHandler_eq]
  split
  · rfl
  · exact Gang.pass_same _ _

/-- No register changes. -/
theorem Gang.sameRegs_leaveHandler : g.SameRegs (g.leaveHandler pcs inflight) := by
  have h := g.sameButIssue_leaveHandler pcs inflight
  unfold Gang.SameButIssue at h
  rw [Gang.SameRegs, h]
  rfl

/-- The gang has left handler state, in its old form, with an empty queue and trap record. -/
theorem Gang.leaveHandler_form : (g.leaveHandler pcs inflight).handler = false ∧ (g.leaveHandler pcs inflight).queue = [] ∧
    (g.leaveHandler pcs inflight).ganged = g.savedGanged ∧ (g.leaveHandler pcs inflight).trec = {} := by
  have h := g.sameButIssue_leaveHandler pcs inflight
  unfold Gang.SameButIssue at h
  rw [h]
  exact ⟨rfl, rfl, rfl, rfl⟩

/-- With every append still in flight, what the trap interrupted of an atomic or a `STASH` is in progress again (R195, R203). -/
theorem Gang.leaveHandler_progress (h : g.appended inflight = []) :
    (g.leaveHandler pcs inflight).applied = g.savedApplied ∧ (g.leaveHandler pcs inflight).plainDone = g.savedPlain := by
  rw [Gang.leaveHandler_eq, if_pos h]
  exact ⟨rfl, rfl⟩

theorem Gang.leaveHandler_resumes (hk : k ∈ g.liveSlices) :
    ((g.leaveHandler pcs inflight).slice k).Resumes inflight (g.savedWaits.getD k .ready) (pcs.getD k 0) := by
  set x := (g.leaveHandler pcs inflight).slice k
  obtain ⟨hlt, hlive⟩ := (Gang.mem_liveSlices g).mp hk
  have hout := g.slice_outOfHandler pcs hlt
  rw [hlive, if_pos rfl] at hout
  have hstays : k ∉ g.appended inflight → x.pc = pcs.getD k 0 ∧ x.wait = (g.savedWaits.getD k .ready).kept := by
    intro happ
    have hx : x = _ := (g.slice_leaveHandler_other pcs inflight happ).trans hout
    exact hx ▸ ⟨rfl, rfl⟩
  have hpasses : k ∈ g.appended inflight → x.pc = nextSlot (pcs.getD k 0) ∧ x.wait = .ready := by
    intro happ
    have hx : x = _ := g.slice_leaveHandler_appended pcs inflight happ
    rw [hout] at hx
    exact hx ▸ ⟨rfl, rfl⟩
  rw [Gang.mem_appended hk] at hstays hpasses
  cases hw : g.savedWaits.getD k .ready with
  | append n =>
    rw [hw] at hstays hpasses
    rw [Slice.Resumes]
    split
    · next hfly =>
      refine hstays ?_
      rintro ⟨m, hm, hnone⟩
      rw [← Wait.append.inj hm] at hnone
      simp [hnone] at hfly
    · next hlanded => exact hpasses ⟨n, rfl, by simpa using hlanded⟩
  | _ =>
    rw [hw] at hstays
    exact hstays (by simp)

end

-- the team resumes (R196)

/-- Only the halt counts of slices have changed. -/
structure Gang.SameButSkid (g g' : Gang) : Prop where
  slices : g.SameButSlices g'
  wait   : ∀ k, (g'.slice k).wait = (g.slice k).wait

/-- A change of slices keeps the registers. -/
theorem Gang.SameRegs.slices {g x g' : Gang} (h : g.SameRegs x) (h' : x.SameButSlices g') : g.SameRegs g' := by
  unfold Gang.SameRegs at h ⊢
  rw [h'.same]
  exact congrArg (fun y : Gang => { y with slices := g'.slices }) h

theorem Gang.SameButSlices.trec {g g' : Gang} (h : g.SameButSlices g') : g'.trec = g.trec := by rw [h.same]
theorem Gang.SameButSlices.applied {g g' : Gang} (h : g.SameButSlices g') : g'.applied = g.applied := by rw [h.same]
theorem Gang.SameButSlices.plainDone {g g' : Gang} (h : g.SameButSlices g') : g'.plainDone = g.plainDone := by rw [h.same]

theorem State.sameButSkid_resumeTeam (s : State) (team j : Nat) : (s.gang team j).SameButSkid ((s.resumeTeam team).gang team j) := by
  rw [State.gang, State.gang, State.resumeTeam, State.team_modTeam_same]
  cases s.team? team with
  | none => exact ⟨.refl _, fun _ => rfl⟩
  | some t =>
    rw [Option.map_some]
    dsimp only
    split
    · exact ⟨.refl _, fun _ => rfl⟩
    · rw [Team.gang, Team.gang, List.getD_eq_getElem?_getD, List.getD_eq_getElem?_getD, List.getElem?_map]
      cases t.gangs[j]? with
      | none => exact ⟨.refl _, fun _ => rfl⟩
      | some g => exact ⟨Gang.sameButSlices_modSlices g _ _ (fun _ => rfl) (fun _ => rfl), Gang.proj_modSlices g _ _ (·.wait) (fun _ => rfl)⟩

-- returning (R195)

/-- The gang when it handles the next entry: at TRAPVEC again, with the next entry's record and the slices' resume addresses (R195, R223). -/
def Gang.nextEntry (g : Gang) (trapvec : W64) (rest : List TrapEntry) (e' : TrapEntry) (pcs : List W64) : Gang :=
  { g.toHandler trapvec with ganged := true, queue := rest, trec := trapRecord e' pcs g.trec.skid, gissue := g.gissue + 1 }

section
variable {s : State} {team gang : Nat} {t : Team} {e : TrapEntry} (ht : s.team? team = some t)
include ht

/-- Returning from the last entry. -/
theorem State.returnFromTrap_last (hq : (t.gang gang).queue = [e]) : s.returnFromTrap team gang =
    (s.modGang team gang (·.leaveHandler (resumed e (t.gang gang).trec.pcs) (s.ctx t.ctx).inflight)).resumeTeam team := by
  simp only [State.returnFromTrap, ht, hq]

/-- Returning with another entry waiting. -/
theorem State.returnFromTrap_next {e' : TrapEntry} {r : List TrapEntry} (hq : (t.gang gang).queue = e :: e' :: r) : s.returnFromTrap team gang =
    s.modGang team gang (·.nextEntry t.trapvec (e' :: r) e' (resumed e (t.gang gang).trec.pcs)) := by
  simp only [State.returnFromTrap, ht, hq]
  rfl

end

/-- Settles O25: from the last entry the gang leaves handler state and its team may resume, which changes only halt counts; else it
handles the next entry. -/
theorem handlerReturnCompletes : Obligations.HandlerReturnCompletes := by
  unfold Obligations.HandlerReturnCompletes
  intro s team gang t e r ht hg hq g u g' at_ resumes
  have hgang : s.gang team gang = g := by rw [State.gang, ht]
  cases r with
  | nil =>
    have hu : u = _ := State.returnFromTrap_last ht hq
    set pcs := resumed e g.trec.pcs
    set inflight := (s.ctx t.ctx).inflight
    have hleft : (s.modGang team gang (·.leaveHandler pcs inflight)).gang team gang = g.leaveHandler pcs inflight := by
      rw [State.gang_modGang_same _ ht hg, hgang]
    obtain ⟨hskid, hwait⟩ : (g.leaveHandler pcs inflight).SameButSkid g' := by
      have h := State.sameButSkid_resumeTeam (s.modGang team gang (·.leaveHandler pcs inflight)) team gang
      rwa [hleft, ← hu] at h
    obtain ⟨hhandler, hqueue, hganged, htrec⟩ := g.leaveHandler_form pcs inflight
    refine ⟨hu ▸ (State.onlyTeam_modTeam s team _).trans (State.onlyTeam_modTeam _ team _),
      fun k hk => (hskid.live k).trans (g.live_leaveHandler pcs inflight hk), fun _ => ?_, fun e' r' h => by simp at h⟩
    refine ⟨(g.sameRegs_leaveHandler pcs inflight).slices hskid, hskid.handler.trans hhandler, hskid.queue.trans hqueue, hskid.ganged.trans hganged,
      hskid.trec.trans htrec, fun hfly => ?_, fun k hk hlive => ?_⟩
    · obtain ⟨happlied, hplain⟩ := g.leaveHandler_progress pcs inflight (Gang.appended_nil hfly)
      exact ⟨hskid.applied.trans happlied, hskid.plainDone.trans hplain⟩
    · have hstands := g.leaveHandler_resumes pcs inflight ((Gang.mem_liveSlices g).mpr ⟨hk, hlive⟩)
      rw [resumed_getD g e hk] at hstands
      exact hstands.congr (hskid.pc k) (hwait k)
  | cons e' r =>
    have hu : u = _ := State.returnFromTrap_next ht hq
    have hnext : g' = g.nextEntry t.trapvec (e' :: r) e' (resumed e g.trec.pcs) := by
      change u.gang team gang = _
      rw [hu, State.gang_modGang_same _ ht hg, hgang]
    have hslice : ∀ k, g'.slice k = (g.toHandler t.trapvec).slice k := fun k => by rw [hnext]; rfl
    refine ⟨hu ▸ State.onlyTeam_modTeam s team _, fun k _ => ?_, fun h => by simp at h, fun e'' r'' hr => ?_⟩
    · rw [hslice, g.live_toHandler]
    · obtain ⟨rfl, rfl⟩ := List.cons.inj hr
      have hpcs : g'.trec.pcs = resumed e g.trec.pcs := by rw [hnext]; rfl
      rw [hnext]
      refine ⟨?_, g.toHandler_handler t.trapvec, rfl, rfl, rfl, rfl, fun k hk => ?_, fun k hk => ?_⟩
      · rw [Gang.nextEntry, Gang.toHandler_eq]
        rfl
      · rw [← hnext, hslice, g.slice_toHandler t.trapvec hk]
      · rw [← hnext, hpcs]
        exact resumed_getElem? g e hk

end Sys2Proof.Machine
end

section
/-! SUPPORT. The round trip of the encoding (R204, R213 to R219, R225, R239): every encoded instruction has a raw word that fits a slot and
that the opcode map reads back, an event has none, and the statements about words and instructions. -/

namespace Sys2Proof.Laws.Encoding

open Sys2Proof

/-- The laws of the single instructions together, one for each constructor in the order of `Instr`. -/
theorem statement_holds (i : Instr) : Statement i :=
  Instr.casesOn (motive := Statement) i
    nop bra bcc bmz bmnz bind call calli ret regang exit yield enter leave bkpt trap smov sadd ssub smul smad sdiv srem slop sshf scmp ssel smin smax
    sbit sfop sget sset mop iadd isub imul imad imin imax iabs ineg lop shf icmp sel ibit bfx lea idiv idot mov fadd fsub fmul fma fms fnma fnms fmin
    fmax fsgn fcmp fclass fdiv fsqrt frcp frsq fexp2 flog2 fscale frnd cvtf cvti cvtn cvtl pack unpk shfl bcast xvote xred xscan confl cmprs expnd
    xmov setdecl ld st lds sts ldu stu ldl stl stash pld fence cmaint atom acas mred atoms acass copy gather scatter abinit abarr abwait abexp abtest
    wapp wpop tdef tldr tstr tget mma tmul accrd accwr accz accrel mbatch mwait cturn tmv tadd tscl trnd tdense tzero tnorm tpool tfree ttrn bar gnew
    gjoin gleave gbar gvote gred greset ginfo qdef qpush qpop sleep coll xput xget trigarm trigcnt trigdis launch cjoin spanmap spanst labort rte trq
    perf handlerEntry pageFaultResolved wappLand quiescenceDone matrixOpComplete sleepExpiry collStagingGrant chunkArrival collTimeout xputReceive
    xgetRequest triggerActionComplete engineLand engineArrival fixupReplay copyYieldResume dispatch teamPlace teamRetire launchCommit poolFull
    irrevocablePublish prqDeadline saveDrainTimeout parkPreempt teamRestore hdmRead hdmWrite qrsv qdb queuePollTimer qreset ckpt recompute replayNext
    registerWrite ctxLoad ctxSave ctxSaveDone ctxResume ctxKill ctxUnload ctxUpool tlbMark tlbMarkDrained tlbConfirm bncrp trgownWrite ctrownWrite
    wingDrain wingDrained wingReset wingResetDone wingOnline rowretGo rowCopyDone retrain retrainDone spanctlDisable corectlDis peerDeadTimeout
    livenessFlood spanrjGo modeWrite eccChangeDone clockCapChange thermalSample droopFlag droopHoldExpiry longLatencyResult remoteLineRequest
    signTokenRefill powerOn deviceReset bootctlGo bootImageLoaded getVersion getCapabilities negotiateAlgorithms getDigests getCertificate challenge
    getMeasurements idleFlit powerLoss cstopClear

end Sys2Proof.Laws.Encoding

namespace Sys2Proof

-- which instructions have a raw word

/-- The events are the instructions without a raw word (R225). -/
theorem Instr.isEvent_eq (i : Instr) : i.isEvent = i.toRaw.isNone := by cases i <;> rfl

/-- Only the arguments of events have bounds beside the checks of R239. -/
theorem Instr.isEvent_or_eventOk (i : Instr) : (i.isEvent || i.eventOk) = true := by cases i <;> rfl

/-- An encoded instruction is well-formed where its fields pass the checks of R239. -/
theorem Instr.wellFormed_of_encoded {i : Instr} (he : i.isEvent = false) : i.WellFormed = i.fieldsOk := by
  have hok := i.isEvent_or_eventOk
  rw [he, Bool.false_or] at hok
  rw [Instr.WellFormed, hok, Bool.and_true]

/-- An encoded instruction whose fields pass the checks has a raw word that the opcode map reads back and a slot can hold. -/
theorem Instr.toRaw_of_encoded {i : Instr} (he : i.isEvent = false) (hf : i.fieldsOk = true) :
    ∃ r, i.toRaw = some r ∧ r.toInstr = some i ∧ r.Fits := by
  have hlaw := Laws.Encoding.statement_holds i hf
  rw [Instr.isEvent_eq, Option.isNone_eq_false_iff, Option.isSome_iff_exists] at he
  obtain ⟨r, hr⟩ := he
  rw [hr] at hlaw
  exact ⟨r, hr, hlaw⟩

-- decoding

/-- A word decodes to an instruction exactly where its fields are those of a raw word that the opcode map gives the instruction,
and they pass the checks of R239. -/
theorem decodeSlot_eq_some {w : Nat} {i : Instr} :
    decodeSlot w = some i ↔ ∃ r, unpackSlot w = some r ∧ r.toInstr = some i ∧ i.fieldsOk = true := by
  unfold decodeSlot
  constructor
  · intro h
    split at h
    · next j hj =>
      obtain ⟨r, hr, hi⟩ := Option.bind_eq_some_iff.mp hj
      obtain ⟨hok, ⟨⟩⟩ := Option.ite_none_right_eq_some.mp h
      exact ⟨r, hr, hi, hok⟩
    · cases h
  · rintro ⟨r, hr, hi, hok⟩
    rw [hr, Option.bind_some, hi]
    exact if_pos hok

/-- A raw word that has been read from a slot is the one that the encoder gives its instruction. -/
theorem toRaw_of_unpackSlot {w : Nat} {r : RawWord} {i : Instr} (hr : unpackSlot w = some r) (hi : r.toInstr = some i) : i.toRaw = some r := by
  refine toRaw_toInstr hi ?_
  cases r with
  | r opc fn h f => exact unpackSlot_fn hr
  | i | m | b | t => trivial

/-- The word of a well-formed encoded instruction decodes to it. -/
theorem decode_encode {i : Instr} (hwf : i.WellFormed = true) (he : i.isEvent = false) :
    ∃ w, encodeSlot i = some w ∧ w < 2 ^ 96 ∧ decodeSlot w = some i := by
  have hf : i.fieldsOk = true := Instr.wellFormed_of_encoded he ▸ hwf
  obtain ⟨r, hr, hi, hfits⟩ := Instr.toRaw_of_encoded he hf
  exact ⟨r.pack, by rw [encodeSlot, hr, Option.map_some], r.pack_lt, decodeSlot_eq_some.mpr ⟨r, unpackSlot_pack hfits, hi, hf⟩⟩

/-- A word that decodes is the word of its instruction, which is well-formed. -/
theorem encode_decode {w : Nat} {i : Instr} (hw : w < 2 ^ 96) (h : decodeSlot w = some i) :
    i.WellFormed = true ∧ i.isEvent = false ∧ encodeSlot i = some w := by
  obtain ⟨r, hr, hi, hf⟩ := decodeSlot_eq_some.mp h
  have hraw := toRaw_of_unpackSlot hr hi
  have he : i.isEvent = false := by rw [Instr.isEvent_eq, hraw, Option.isNone_some]
  exact ⟨(Instr.wellFormed_of_encoded he).trans hf, he, by rw [encodeSlot, hraw, Option.map_some, unpackSlot_val hw hr]⟩

/-- Settles O56: packing a raw word that fits a slot and reading it again agree, and so do reading and packing again. -/
theorem encodingRoundTrips : Obligations.EncodingRoundTrips := by
  unfold Obligations.EncodingRoundTrips
  exact ⟨fun _ hwf he => decode_encode hwf he, fun _ _ hw h => encode_decode hw h⟩

/-- A word that is the encoding of a well-formed encoded instruction is read as it. -/
theorem decodeTableWord_of_encode {w : Nat} {i : Instr} (hwf : i.WellFormed = true) (he : i.isEvent = false) (h : encodeSlot i = some w) :
    decodeTableWord 96 w = some i := by
  obtain ⟨w', hw', hlt, hdec⟩ := decode_encode hwf he
  obtain rfl : w' = w := Option.some.inj (hw'.symm.trans h)
  rw [decodeTableWord, Nat.mod_mod, Nat.mod_eq_of_lt hlt, hdec]

/-- Settles O57: each word is the encoding of its instruction, which is well-formed. -/
theorem writtenWordsDecode : Obligations.WrittenWordsDecode := by
  unfold Obligations.WrittenWordsDecode
  exact ⟨decodeTableWord_of_encode rfl rfl rfl, decodeTableWord_of_encode rfl rfl rfl, decodeTableWord_of_encode rfl rfl rfl,
    decodeTableWord_of_encode rfl rfl rfl, decodeTableWord_of_encode rfl rfl rfl, decodeTableWord_of_encode rfl rfl rfl⟩

end Sys2Proof
end

section
/-! SUPPORT. `NOP` and the branches (R22, R211, R241): the target of a displacement, what a branch leaves of the gang that issues it, and
the statements about them. -/

namespace Sys2Proof.Machine

open Sys2Proof

-- linear indices and displacements (R211)

/-- The linear index of an address, as R211 writes it. -/
theorem linOf_eq (a : W64) : linOf a = (a >>> 6).toNat * 5 + (a &&& 7).toNat := by
  have hline : (a >>> 6).toNat = a.toNat / 64 := by rw [BitVec.toNat_ushiftRight, Nat.shiftRight_eq_div_pow]
  have hslot : (a &&& 7).toNat = a.toNat % 8 := Nat.and_two_pow_sub_one_eq_mod a.toNat 3
  rw [linOf, hline, hslot]

/-- The address of a linear index, as R211 writes it. -/
theorem addrOfLin_eq (l : Nat) : addrOfLin l = BitVec.ofNat 64 ((l / 5) <<< 6 ||| l % 5) := by
  have hslot : l % 5 < 2 ^ 6 := by omega
  rw [addrOfLin, ← Nat.shiftLeft_add_eq_or_of_lt hslot, Nat.shiftLeft_eq]

/-- Whether a linear index is one of the 5 · 2^50 slots (R211). -/
def LinInRange (l : Int) : Prop := 0 ≤ l ∧ l < (5 * 2 ^ 50 : Nat)

section

variable {pc : W64} {d : Int}

/-- The target of a displacement that stays among the slots. -/
theorem dispTarget_inside (h : LinInRange ((linOf pc : Int) + d)) : dispTarget pc d = .ok (addrOfLin ((linOf pc : Int) + d).toNat) := by
  obtain ⟨hlow, hhigh⟩ := h
  have hnot : ¬ ((decide ((linOf pc : Int) + d < 0) || decide (((5 * 2 ^ 50 : Nat) : Int) ≤ (linOf pc : Int) + d)) = true) := by
    simp only [Bool.or_eq_true, decide_eq_true_eq, not_or, not_lt, not_le]
    exact ⟨hlow, hhigh⟩
  exact if_neg hnot

/-- A displacement that leaves the slots raises illegal-branch. -/
theorem dispTarget_outside (h : ¬ LinInRange ((linOf pc : Int) + d)) : ∃ a, dispTarget pc d = .error (.trap cIllegalBranch a 0) := by
  have hout : (decide ((linOf pc : Int) + d < 0) || decide (((5 * 2 ^ 50 : Nat) : Int) ≤ (linOf pc : Int) + d)) = true := by
    simpa only [Bool.or_eq_true, decide_eq_true_eq, LinInRange, not_and_or, not_le, not_lt] using h
  exact ⟨_, if_pos hout⟩

end

section

variable {s : State} {i : Issuer} {disp : W32}

/-- The target of a branch whose index is in range and whose address passes the checks of R241. -/
theorem branchTarget_checked (h : LinInRange ((linOf i.pc : Int) + disp.toInt))
    (hcheck : s.checkTarget i.tm.core i.tm.ctx (addrOfLin ((linOf i.pc : Int) + disp.toInt).toNat) = .ok ()) :
    s.branchTarget i disp = .ok (addrOfLin ((linOf i.pc : Int) + disp.toInt).toNat) := by
  simp only [State.branchTarget, dispTarget_inside h, ok_bind, hcheck]

/-- The trap of a displacement is that of its branch. -/
theorem branchTarget_error {x : Stop} (h : dispTarget i.pc disp.toInt = .error x) : s.branchTarget i disp = .error x := by
  rw [State.branchTarget, h]
  rfl

end

-- parting (R22)

/-- Whether a slice of the unit takes a `BMZ` (`onZero`) or a `BMNZ` (R241). -/
def Issuer.takes (i : Issuer) (h : Hdr) (onZero : Bool) (k : Nat) : Bool := (i.g.activeIn h (lanesOf [k])).isEmpty == onZero

/-- Where no slice takes the branch its target does not matter. -/
theorem Gang.split_none {g : Gang} {l : List Nat} {take : Nat → Bool} (a b : W64) (h : l.any take = false) : g.split l take a = g.split l take b := by
  have hgo : l.filter take = [] := by simpa [List.filter_eq_nil_iff, List.any_eq_false] using h
  simp only [Gang.split, hgo]
  rfl

/-- Changing slices, counting an issue and parting change nothing else of a gang. -/
theorem Gang.SameButIssue.parted {g g' : Gang} (h : g.SameButIssue g') (l : List Nat) (b : Bool) :
    ({ g with ganged := b } : Gang).SameButIssue { g'.countIssue l with ganged := b } := by
  unfold Gang.SameButIssue at h ⊢
  unfold Gang.countIssue
  rw [h]

section

variable {g : Gang} {l : List Nat} (take : Nat → Bool) (a : W64)

/-- The slices that take the branch stand at its target, the others of the unit at the following slot. -/
theorem Gang.went_split (hn : l.Nodup) (hl : ∀ k ∈ l, (g.slice k).live = true) :
    g.Went (g.split l take a) l (fun k => if take k then a else nextSlot (g.slice k).pc) := by
  have hslice : ∀ k, (g.split l take a).slice k = ((g.modSlices (l.filter take) (fun x => { x with pc := a, wait := .ready })).modSlices
      (l.filter (fun k => !take k)) (fun x => { x with pc := nextSlot x.pc, wait := .ready })).slice k := fun _ => rfl
  constructor
  · intro k hk
    have hlt := g.live_lt (hl k hk)
    rw [hslice]
    cases ht : take k with
    | true =>
      rw [Gang.slice_modSlices_other _ _ (by simp [ht]), Gang.slice_modSlices_mem _ _ (List.mem_filter.mpr ⟨hk, ht⟩) (hn.filter _) hlt]
      simp only [ht, if_true]
    | false =>
      rw [Gang.slice_modSlices_mem _ _ (List.mem_filter.mpr ⟨hk, by simp [ht]⟩) (hn.filter _) (by simpa using hlt),
        Gang.slice_modSlices_other _ _ (by simp [ht])]
      simp only [ht, Bool.false_eq_true, if_false]
  · intro k hk
    rw [hslice, Gang.slice_modSlices_other _ _ (by simp [hk]), Gang.slice_modSlices_other _ _ (by simp [hk])]

/-- A branch of some slices counts once for the unit. -/
theorem Gang.counted_split : g.Counted (g.split l take a) l := by
  simp [Gang.Counted, Gang.split, Gang.countIssue]

/-- A ganged gang stays ganged where all its slices go one way, and nothing else of the gang changes. -/
theorem Gang.sameButIssue_split :
    ({ g with ganged := g.ganged && (l.all take || !l.any take) } : Gang).SameButIssue (g.split l take a) := by
  have hway : ((l.filter take).isEmpty || (l.filter (fun k => !take k)).isEmpty) = (l.all take || !l.any take) := by
    rw [Bool.or_comm, Bool.eq_iff_iff]
    simp only [Bool.or_eq_true, List.isEmpty_iff, List.filter_eq_nil_iff, List.all_eq_true, Bool.not_eq_true', List.any_eq_false, Bool.not_eq_true,
      Bool.not_eq_false]
  rw [← hway]
  have hsame : g.SameButIssue g := rfl
  exact ((hsame.modSlices _ _).modSlices _ _).parted l _

end

-- what the branches do

section

variable {h : Hdr} {s : State} {i : Issuer}

/-- `NOP` passes. -/
theorem nop_passes (hi : s.Issues i) : Performs .nop s i.performer (s.withGang i (i.g.pass i.slices)) := by
  unfold Performs
  rw [← State.modGang_withGang hi.1 (·.pass i.slices)]
  exact perform_ok hi.1 none (fun i => .ok (s.passUnit i)) rfl

/-- A mask branch is a LANE-scope instruction, which asks for its target where some slice takes it. -/
theorem exec_branchMask (onZero : Bool) (disp : W32) (s : State) :
    exec (if onZero then .bmz h disp else .bmnz h disp) s = s.lane h (fun i => do
      let a ← if i.slices.any (i.takes h onZero) then s.branchTarget i disp else .ok 0
      .ok (s.modGang i.unit.team i.unit.gang (fun g => g.split i.slices (i.takes h onZero) a))) := by
  cases onZero <;> rfl

section

variable (hi : s.Issues i) (hs : h.scp = .lane) {disp : W32} {a : W64}
include hi hs

/-- `BRA` goes to its target. -/
theorem bra_goes (ha : s.branchTarget i disp = .ok a) : Performs (.bra h disp) s i.performer (s.withGang i (i.g.goTo i.slices a)) := by
  refine unit_completes (fun _ => rfl) hi hs ?_
  simp only [ha, ok_bind, State.goUnit, State.modGang_withGang hi.1]

/-- `BCC` goes to its target where its condition holds. -/
theorem bcc_goes {cond : Cond} (hc : condHolds cond i.g.cc i.tm.prq = true) (ha : s.branchTarget i disp = .ok a) :
    Performs (.bcc h cond disp) s i.performer (s.withGang i (i.g.goTo i.slices a)) := by
  refine unit_completes (fun _ => rfl) hi hs ?_
  simp only [hc, if_true, ha, ok_bind, State.goUnit, State.modGang_withGang hi.1]

/-- `BCC` passes where its condition does not hold. -/
theorem bcc_passes {cond : Cond} (hc : condHolds cond i.g.cc i.tm.prq = false) :
    Performs (.bcc h cond disp) s i.performer (s.withGang i (i.g.pass i.slices)) := by
  refine unit_completes (fun _ => rfl) hi hs ?_
  simp only [hc, Bool.false_eq_true, if_false, State.passUnit, State.modGang_withGang hi.1]

/-- `BMZ` and `BMNZ` part their slices; a target is needed where some slice takes the branch. -/
theorem branchMask_splits {onZero : Bool} (ha : i.slices.any (i.takes h onZero) = true → s.branchTarget i disp = .ok a) :
    Performs (if onZero then .bmz h disp else .bmnz h disp) s i.performer (s.withGang i (i.g.split i.slices (i.takes h onZero) a)) := by
  refine unit_completes (exec_branchMask onZero disp) hi hs ?_
  cases hany : i.slices.any (i.takes h onZero) with
  | true => simp only [if_true, ha hany, ok_bind, State.modGang_withGang hi.1]
  | false => simp only [Bool.false_eq_true, if_false, ok_bind, State.modGang_withGang hi.1, Gang.split_none 0 a hany]

end

-- where they trap

/-- An instruction of the lane form that stops with a trap. -/
theorem lane_traps {ins : Instr} {F : State → Issuer → Except Stop State} {cause : Nat} {a : W64} (hx : ∀ s, exec ins s = s.lane h (F s))
    (hi : s.issuer? = some i) (hs : h.scp = .lane) (hF : F s i = .error (.trap cause a 0)) : Traps ins s i (some h) cause a := by
  unfold Traps
  simp only [hx, State.lane, hi, hs, if_true, hF]
  rfl

/-- A uniform transfer of a ganged gang that stops with a trap. -/
theorem uniform_traps {ins : Instr} {F : State → Issuer → Except Stop State} {cause : Nat} {a : W64} (hx : ∀ s, exec ins s = s.uniform h F)
    (hi : s.issuer? = some i) (hs : h.scp = .lane) (hg : i.g.ganged = true) (hF : F s i = .error (.trap cause a 0)) :
    Traps ins s i (some h) cause a := by
  unfold Traps
  rw [hx, uniform_starts hi hs (.inl ⟨hg, rfl, rfl⟩), hF]
  rfl

/-- `BMZ` and `BMNZ` raise the trap of their target where some slice takes the branch. -/
theorem branchMask_traps {onZero : Bool} {disp : W32} {cause : Nat} {a : W64} (hi : s.issuer? = some i) (hs : h.scp = .lane)
    (hany : ∃ k ∈ i.slices, (i.g.activeIn h (lanesOf [k])).isEmpty = onZero) (ha : s.branchTarget i disp = .error (.trap cause a 0)) :
    Traps (if onZero then .bmz h disp else .bmnz h disp) s i (some h) cause a := by
  obtain ⟨k, hk, htakes⟩ := hany
  have hsome : i.slices.any (i.takes h onZero) = true := List.any_eq_true.mpr ⟨k, hk, beq_iff_eq.mpr htakes⟩
  refine lane_traps (exec_branchMask onZero disp) hi hs ?_
  simp only [hsome, if_true, ha]
  rfl

end

/-- Settles O16: `NOP` passes; a branch that is taken goes to its target, and the slices of a mask branch go where each of them is sent. -/
theorem branchesComplete : Obligations.BranchesComplete := by
  unfold Obligations.BranchesComplete
  intro s i hi
  have hlive : ∀ k ∈ i.slices, (i.g.slice k).live = true := fun k hk => (hi.2.slice k hk).2
  have hpass := Gang.wentOn_pass hi.2.apart hlive
  refine ⟨⟨_, nop_passes hi, hpass⟩, ?_⟩
  intro h disp hs lin a ok
  have htarget : ok → s.branchTarget i disp = .ok a := fun ⟨hlow, hhigh, hcheck⟩ => branchTarget_checked ⟨hlow, hhigh⟩ hcheck
  have hgo := Gang.wentOn_goTo a hi.2.apart hlive
  refine ⟨fun hok => ⟨_, bra_goes hi hs (htarget hok), hgo⟩, fun cond hc hok => ⟨_, bcc_goes hi hs hc (htarget hok), hgo⟩,
    fun cond hc => ⟨_, bcc_passes hi hs hc, hpass⟩, ?_⟩
  intro onZero takes hok
  exact ⟨_, branchMask_splits hi hs (fun hany => htarget (hok (List.any_eq_true.mp hany))), Gang.sameButIssue_split takes a,
    Gang.went_split takes a hi.2.apart hlive, Gang.counted_split takes a⟩

/-- Settles O55: the two writings of an index and of an address agree, and a target outside the slots stops each branch that needs it. -/
theorem displacementsCountSlots : Obligations.DisplacementsCountSlots := by
  unfold Obligations.DisplacementsCountSlots
  refine ⟨linOf_eq, ?_⟩
  intro pc disp lin
  have hdisp : (disp.signExtend 64).toInt = disp.toInt := BitVec.toInt_signExtend_of_le (by decide)
  have hlin : (linOf pc : Int) + disp.toInt = lin := by rw [← hdisp]
  constructor
  · intro hlow hhigh
    rw [← addrOfLin_eq, ← hlin]
    exact dispTarget_inside ⟨hlin ▸ hlow, hlin ▸ hhigh⟩
  · rintro hout s i h hi rfl hs
    obtain ⟨a, ha⟩ : ∃ a, dispTarget i.pc disp.toInt = .error (.trap cIllegalBranch a 0) := by
      refine dispTarget_outside ?_
      rw [hlin, LinInRange]
      omega
    have htarget : s.branchTarget i disp = .error (.trap cIllegalBranch a 0) := branchTarget_error ha
    refine ⟨a, lane_traps (fun _ => rfl) hi hs ?_, fun hg => uniform_traps (fun _ => rfl) hi hs hg ?_,
      fun cond hc => lane_traps (fun _ => rfl) hi hs ?_, fun hany => branchMask_traps (onZero := true) hi hs hany htarget,
      fun hany => branchMask_traps (onZero := false) hi hs hany htarget⟩
    · rw [htarget]; rfl
    · rw [ha]; rfl
    · simp only [hc, if_true, htarget]; rfl

end Sys2Proof.Machine
end

section
/-! SUPPORT. Fetching, issuing and stepping (R204, R208, R209, R212, R222 to R224): what a fetch answers case by case, and the statement
about a step. -/

namespace Sys2Proof.Machine

open Sys2Proof

/-- The check of an entry is passed where a unit at an entry stands on a target (R212). -/
theorem entry_passes {i : Issuer} {line : Nat} (hentry : i.atEntry = true → lineTgt line 0 = true) : (i.atEntry && !lineTgt line 0) = false := by
  cases he : i.atEntry with
  | true => rw [hentry he]; rfl
  | false => rfl

section

variable {s : State} {i : Issuer} {line : Nat} {p : PageTr} (hline : s.readLine i.tm.core i.tm.ctx (lineOf i.pc) = .ok (line, p))
include hline

/-- A line that fails its checks raises illegal-line (R208). -/
theorem fetch_badLine (hbad : lineOk line = false) : s.fetch i = .error (.trap cIllegalLine (BitVec.ofNat 64 (lineOf i.pc)) 0) := by
  simp only [State.fetch, hline, ok_bind, hbad]
  rfl

variable (hgood : lineOk line = true)
include hgood

/-- An entry that is no target stops its unit (R212). -/
theorem fetch_noEntry (hentry : i.atEntry = true) (htgt : lineTgt line 0 = false) : s.fetch i = .error .entry := by
  simp only [State.fetch, hline, ok_bind, hgood, Bool.not_true, trap_ok, hentry, htgt, Bool.not_false, Bool.and_self, if_true]

variable (hentry : i.atEntry = true → lineTgt line 0 = true)
include hentry

/-- A slot that does not decode raises illegal-instruction (R239). -/
theorem fetch_illegal (hdec : decodeSlot (lineSlot line (i.pc.toNat % 8)) = none) : s.fetch i = .error (.trap cIllegalInstruction 0 0) := by
  simp only [State.fetch, hline, ok_bind, hgood, Bool.not_true, trap_ok, entry_passes hentry, Bool.false_eq_true, if_false, hdec]

/-- A slot that decodes, and is not held up by a matrix operation, is fetched. -/
theorem fetch_decoded {ins : Instr} (hdec : decodeSlot (lineSlot line (i.pc.toNat % 8)) = some ins)
    (hstall : i.matrixStall (lineSlot line (i.pc.toNat % 8)) ins = false) : s.fetch i = .ok (ins, p) := by
  simp only [State.fetch, hline, ok_bind, hgood, Bool.not_true, trap_ok, entry_passes hentry, Bool.false_eq_true, if_false, hdec, hstall]

end

section

variable {s : State} {u : UnitId} {i : Issuer} (hi : ({ s with cur := some u } : State).issuer? = some i)
include hi

/-- A unit whose fetch stops does not perform an instruction. -/
theorem issue_stops {x : Stop} (hf : ({ s with cur := some u } : State).fetch i = .error x) :
    issue u s = ({ s with cur := some u } : State).stop i.performer x := by
  simp only [issue, hi, hf]

/-- A unit performs the instruction that it has fetched. -/
theorem issue_performs {ins : Instr} {p : PageTr} (hf : ({ s with cur := some u } : State).fetch i = .ok (ins, p)) :
    issue u s = exec ins (({ s with cur := some u } : State).prepare i ins p) := by
  simp only [issue, hi, hf]

end

/-- With nothing that may happen a step changes nothing. -/
theorem step_idle {s : State} (h : s.choices = []) : step s = .next s := by
  simp only [step, h]

/-- One of the things that may happen does; a free value has been drawn where there are several (log entry 6). -/
theorem step_happens {s : State} (h : s.choices ≠ []) : ∃ c ∈ s.choices, ∃ s', (s' = s ∨ s' = s.pick.2) ∧ step s = happen c s' := by
  unfold step
  split
  · next hnone => exact absurd hnone h
  · next c hone => exact ⟨c, by simp [hone], s, .inl rfl, rfl⟩
  · next c cs _ hmany =>
    have hlt : (s.pickBelow (cs.length + 1)).1 < (c :: cs).length := State.pickBelow_lt s (Nat.succ_pos _)
    refine ⟨(c :: cs).getD (s.pickBelow (cs.length + 1)).1 c, ?_, (s.pickBelow (cs.length + 1)).2, .inr rfl, rfl⟩
    rw [hmany, List.getD_eq_getElem _ _ hlt]
    exact List.getElem_mem hlt

/-- Settles O58: each case of a fetch with what `issue` makes of it, and each case of a step. -/
theorem stepRunsDecoded : Obligations.StepRunsDecoded := by
  unfold Obligations.StepRunsDecoded
  refine ⟨fun s u i line p hi hline => ⟨fun hbad => issue_stops hi (fetch_badLine hline hbad),
    fun hgood hentry htgt => issue_stops hi (fetch_noEntry hline hgood hentry htgt),
    fun hgood hentry => ⟨fun hdec => issue_stops hi (fetch_illegal hline hgood hentry hdec),
      fun ins hdec hstall => issue_performs hi (fetch_decoded hline hgood hentry hdec hstall)⟩⟩,
    fun s => ⟨step_idle, step_happens, fun _ => rfl, fun _ => rfl, fun _ => rfl, fun ctx idx t hpost => ?_⟩⟩
  rw [happen, hpost, Option.getD_some]

end Sys2Proof.Machine
end

section
/-! SUPPORT. `SGET` (R229, R235, R236, R252): the state that a read sees, what it leaves in each gang that performs it, and the
statement about it. -/

namespace Sys2Proof.Machine

open Sys2Proof

-- the state that is read

/-- The state that a read of a special register sees: for CLOCK a later moment (R235, log entry 7). -/
def State.sgetFrom (s : State) (r : SReg) : State := if r = .clock then s.tick else s

/-- A later moment has the same teams. -/
theorem State.team?_sgetFrom (s : State) (r : SReg) (team : Nat) : (s.sgetFrom r).team? team = s.team? team := by
  unfold State.sgetFrom
  split
  · rfl
  · rfl

/-- The gangs that met are there at a later moment. -/
theorem Met.sgetFrom {s : State} {w : Wide} (hm : Met s w) (r : SReg) : Met (s.sgetFrom r) w :=
  { hm with found := (s.team?_sgetFrom r _).trans hm.found }

/-- A gang that met stands in the state as in its team. -/
theorem Met.gang_eq {s : State} {w : Wide} (hm : Met s w) (j : Nat) : s.gang w.p.team j = w.tm.gang j := by
  rw [State.gang, hm.found]

-- the value and its destination

/-- The B operand of the R form, which names the word of SETINFO (R236). -/
def wordOperand (b : Src) : Operand := match b with | .op o => o | .imm32 _ => .zero

/-- The value that the members' representative reads. -/
def State.sgetVal (s : State) (w : Wide) (r : SReg) (f : FmtR) : W64 :=
  s.sregValue w.tm (w.gangs.headD 0) r (w.rep.rdScalar f.a).toNat (w.rep.rdScalar (wordOperand f.b)).toNat

/-- What a lane reads: LANEID, SLICEID and TRPC differ by lane (R235). -/
def Gang.sgetLane (m : Gang) (r : SReg) (val : W64) (l : Nat) : Nat := match r with
  | .laneid => l
  | .sliceid => l / 4
  | .trpc => (m.trec.pcs.getD (l / 4) 0).toNat
  | _ => val.toNat

/-- The destinations of `SGET`: v registers of the register's width, or an s register for one that is not read by lane (R235). -/
def sgetDstOk (nregs : Nat) (r : SReg) (d : Operand) : Bool :=
  (match d with | .v _ => laneDstOk nregs (!sregSingle r) d | _ => false) || (sOk d && !sregSingle r)

/-- A gang with the value in its destination. -/
def Gang.sgot (m : Gang) (h : Hdr) (r : SReg) (d : Operand) (slices : List Nat) (val : W64) : Gang := match d with
  | .s i => m.wrS i.toNat val
  | d => m.writeLanes (!sregSingle r) d (lanesOf slices) (m.activeIn h (lanesOf slices)) (m.sgetLane r val)

theorem sgetDstOk_s {nregs : Nat} {r : SReg} {d : Operand} (hd : sOk d = true) (hr : sregSingle r = false) : sgetDstOk nregs r d = true := by
  simp [sgetDstOk, hd, hr]

theorem sgetDstOk_v {nregs : Nat} {r : SReg} {d : Operand} {k : BitVec 8} (hk : d = .v k) (hd : laneDstOk nregs (!sregSingle r) d = true) :
    sgetDstOk nregs r d = true := by
  subst hk
  simp [sgetDstOk, hd]

theorem Gang.sgot_s (m : Gang) (h : Hdr) (r : SReg) {d : Operand} (slices : List Nat) (val : W64) (hd : sOk d = true) :
    m.sgot h r d slices val = m.wrS (sIdx d) val := by
  cases d with
  | s i => rfl
  | _ => cases hd

/-- What a read into v registers leaves in a gang. -/
theorem Met.sgot_v {s : State} {w : Wide} (hm : Met s w) {q : Nat × List Nat} (hq : q ∈ w.p.gangs) (h : Hdr) {r : SReg} {d : Operand} {k : BitVec 8}
    (val : W64) (hk : d = .v k) (hd : laneDstOk w.tm.nregs (!sregSingle r) d = true) :
    LaneDone (w.unitOf q.1 q.2) h (!sregSingle r) d (fun l => ((w.tm.gang q.1).sgetLane r val l, 0))
      (((w.tm.gang q.1).sgot h r d q.2 val).pass q.2) := by
  subst hk
  have hdone := laneDone_of (hm.apart hq) (h := h) (res := fun l => ((w.tm.gang q.1).sgetLane r val l, 0)) hd (fun _ _ => rfl)
  rw [noExc_fold, Gang.orFlags_none] at hdone
  exact hdone

-- the instruction

/-- Going on after an operand check that finds nothing wrong. -/
theorem illegalOperandIf_bind {c : Bool} (hc : c = false) {α : Type} (f : Unit → Except Stop α) : (illegalOperandIf c >>= f) = f () := by
  rw [ill_ok hc, ok_bind]

/-- What `SGET` requires of its operands (R193, R235, R236). -/
structure SgetChecks (w : Wide) (r : SReg) (f : FmtR) : Prop where
  dest    : sgetDstOk w.tm.nregs r f.d = true
  handler : sregHandler r = true → w.rep.handler = true
  words   : r = .setinfo → sSrcOk f.a = true ∧ isImm (wordOperand f.b) = true ∧ (w.rep.rdScalar f.a).toNat < 8 ∧ (w.rep.rdScalar (wordOperand f.b)).toNat < 2

/-- A register other than SETINFO has no operands to check. -/
theorem SgetChecks.of_ne {w : Wide} {r : SReg} {f : FmtR} (hr : r ≠ .setinfo) (hd : sgetDstOk w.tm.nregs r f.d = true)
    (hh : sregHandler r = true → w.rep.handler = true) : SgetChecks w r f :=
  ⟨hd, hh, fun e => absurd e hr⟩

/-- `SGET` with legal operands gives every gang that performs it the value, and each of them passes. -/
theorem sget_reads {h : Hdr} {r : SReg} {f : FmtR} {s s' : State} {i : Issuer} {w : Wide} (hi : s.Issues i) (hl : scopesGST.contains h.scp = true)
    (hw : s.Starts i h (f.xt.toNat % 8) s' w) (hc : SgetChecks w r f) :
    ∃ t, PerformsIn (.sget h r f) s s' w.p t ∧ (s'.sgetFrom r).OnlyGangs t w.p.team (w.p.gangs.map Prod.fst) ∧
      ∀ q ∈ w.p.gangs, t.gang w.p.team q.1 =
        ((w.tm.gang q.1).sgot h r f.d q.2 ((s'.sgetFrom r).sgetVal w r f)).pass q.2 := by
  have hm := (Starts.met hi hw).sgetFrom r
  obtain ⟨honly, hgang⟩ := hm.modEach (fun q m => (m.sgot h r f.d q.2 ((s'.sgetFrom r).sgetVal w r f)).pass q.2)
  refine ⟨_, ?_, honly, fun q hq => (hgang q hq).trans (by rw [hm.gang_eq])⟩
  have hdest : (!sgetDstOk w.tm.nregs r f.d) = false := by rw [hc.dest]; rfl
  have hhandler : (sregHandler r && !w.rep.handler) = false :=
    Bool.and_eq_false_imp.mpr (fun hs => by rw [hc.handler hs]; rfl)
  have hgiven : (r == .setinfo && (!sSrcOk f.a || !isImm (wordOperand f.b))) = false :=
    Bool.and_eq_false_imp.mpr (fun hr => by obtain ⟨ha, hb, -, -⟩ := hc.words (eq_of_beq hr); rw [ha, hb]; rfl)
  have hrange : (r == .setinfo && (decide (7 < (w.rep.rdScalar f.a).toNat) || decide (1 < (w.rep.rdScalar (wordOperand f.b)).toNat))) = false :=
    Bool.and_eq_false_imp.mpr (fun hr => by
      obtain ⟨-, -, hset, hword⟩ := hc.words (eq_of_beq hr)
      rw [decide_eq_false (by omega), decide_eq_false (by omega), Bool.or_self])
  change execSget h r f s = _
  rw [execSget, wideOp_starts hi.1 hl hw, ← settle_ok]
  refine congrArg (s'.settle w.p) ?_
  exact (illegalOperandIf_bind hdest _).trans ((illegalOperandIf_bind hhandler _).trans ((illegalOperandIf_bind hgiven _).trans (illegalOperandIf_bind hrange _)))

/-- `SGET` of SETINFO reads a word of the declaration of one of the eight sets (R236). -/
theorem setinfo_completes (h : Hdr) {f : FmtR} {k : BitVec 8} (hb : f.b = .op (.imm k)) (hk : k.toNat < 2) :
    WideCompletes (.sget h .setinfo f) h (f.xt.toNat % 8) scopesGST
      (fun w => sOk f.d = true ∧ sSrcOk f.a = true ∧ (w.rep.rdScalar f.a).toNat < 8)
      (fun w _ l g g' => g.PassedWith g' l (fun m => m.wrS (sIdx f.d) (w.tm.setinfo (w.rep.rdScalar f.a).toNat k.toNat (w.gangs.headD 0)))) := by
  intro s i s' w hi hl hw ⟨hd, ha, hset⟩
  have hop : wordOperand f.b = .imm k := by rw [hb]; rfl
  have hword : (w.rep.rdScalar (wordOperand f.b)).toNat = k.toNat := by rw [hop, Gang.rdScalar_imm _ (by omega)]
  have hval : (s'.sgetFrom .setinfo).sgetVal w .setinfo f = w.tm.setinfo (w.rep.rdScalar f.a).toNat k.toNat (w.gangs.headD 0) := by
    rw [State.sgetVal, hword]
    rfl
  have hc : SgetChecks w .setinfo f := ⟨sgetDstOk_s hd rfl, nofun, fun _ => ⟨ha, by rw [hop]; rfl, hset, hword ▸ hk⟩⟩
  obtain ⟨t, hp, honly, hgot⟩ := sget_reads hi hl hw hc
  refine ⟨t, hp, honly, fun q hq => ?_⟩
  change t.gang w.p.team q.1 = ((s'.gang w.p.team q.1).wrS (sIdx f.d) (w.tm.setinfo (w.rep.rdScalar f.a).toNat k.toNat (w.gangs.headD 0))).pass q.2
  rw [hgot q hq, Gang.sgot_s _ _ _ _ _ hd, (Starts.met hi hw).gang_eq, hval]

/-- Settles O10: a read goes to an s register or, lane by lane, to v registers; SETINFO takes the words that its operands name. -/
theorem specialReadsComplete : Obligations.SpecialReadsComplete := by
  unfold Obligations.SpecialReadsComplete
  refine ⟨fun h r f s i s' w hi hl hw hr hh => ⟨fun hd hs => ?_, fun k hk hd => ?_⟩, fun h f k hb hk => setinfo_completes h hb hk⟩
  · obtain ⟨t, hp, honly, hgot⟩ := sget_reads hi hl hw (.of_ne hr (sgetDstOk_s hd hs) hh)
    refine ⟨t, hp, honly, fun q hq => (hgot q hq).trans ?_⟩
    rw [Gang.sgot_s _ _ _ _ _ hd]
    rfl
  · obtain ⟨t, hp, honly, hgot⟩ := sget_reads hi hl hw (.of_ne hr (sgetDstOk_v hk hd) hh)
    refine ⟨t, hp, honly, fun q hq => ?_⟩
    rw [hgot q hq]
    exact (Starts.met hi hw).sgot_v hq h _ hk hd

end Sys2Proof.Machine
end

section
/-! SUPPORT. Scalar integers (R246, R247, R249, R250): saturation, the late results that every performing gang receives, and the
statement about them. -/

namespace Sys2Proof.Machine

open Sys2Proof

-- the result of an operation (R249)

/-- The result in the type width is the exact value narrowed. -/
theorem satResult_fst (t : Ty) (sat : Bool) (e : Int) : (satResult t sat e).1 = narrowed t sat e := by
  cases sat <;> rfl

/-- A result saturates where the exact value lies outside the type's range. -/
theorem satResult_snd (t : Ty) (sat : Bool) (e : Int) : (satResult t sat e).2 = (sat && decide (e < tyMin t ∨ tyMax t < e)) := by
  cases sat with
  | false => rfl
  | true =>
    simp only [satResult, if_true, Bool.true_and]
    refine decide_eq_decide.mpr ?_
    split
    · omega
    · split <;> omega

/-- The exact value of an operation on a gang's scalar operands. -/
def IntOp.scalarExact (op : IntOp) (f : FmtR) (g : Gang) : Int :=
  op.exact f.ty (g.rdScalar f.a).toNat (g.rdScalarB f.ty f.b).toNat (g.rdScalar f.c).toNat

/-- The carry rule of an operation on a gang's scalar operands. -/
def IntOp.scalarCarry (op : IntOp) (f : FmtR) (g : Gang) : CarryRule :=
  op.carry f.ty (g.rdScalar f.a).toNat (g.rdScalarB f.ty f.b).toNat

-- the operand check (R246)

/-- The operands of a scalar instruction that names only legal ones pass their check. -/
theorem scalarOperands_ok {f : FmtR} {d b c : Bool} (hd : d = true → sOk f.d = true) (ha : sSrcOk f.a = true) (hb : b = true → sBOk f.b = true)
    (hc : c = true → sSrcOk f.c = true) : scalarOperands f d b c = .ok () := by
  refine ill_ok ?_
  simp only [Bool.or_eq_false_iff, Bool.and_eq_false_imp, Bool.not_eq_false']
  exact ⟨⟨⟨hd, ha⟩, hb⟩, hc⟩

-- the instructions

/-- The places that a scalar integer instruction writes, as the members' representative computes them. -/
def IntOp.scalarResult (op : IntOp) (f : FmtR) (g : Gang) : List (Dest × W64) :=
  scalarWrites (sIdx f.d) (scalarVal f (op.scalarExact f) g) (scalarCc f (op.scalarExact f) (op.scalarCarry f) g)

/-- A scalar integer instruction with legal operands gives every performing gang the same late result. -/
theorem scalarInt_completes {ins : Instr} {h : Hdr} {f : FmtR} (op : IntOp) (hx : ∀ s, exec ins s = s.scalarInt h f op) :
    ScalarCompletes ins h f op.usesB op.usesC (scalarVal f (op.scalarExact f)) (scalarCc f (op.scalarExact f) (op.scalarCarry f)) := by
  refine wide_completes (fun w q g => g.passLate q.2 h.la.toNat (op.scalarResult f w.rep)) hx (fun _ => id) (fun s w _ ho _ => ?_)
    (fun _ _ _ _ _ _ => scalarDone_of ..)
  obtain ⟨hd, ha, hb, hc⟩ := ho
  rw [scalarOperands_ok (fun _ => hd) ha hb hc, ok_bind]
  simp only [IntOp.scalarResult, scalarWrites, scalarVal, scalarCc, ← satResult_fst, ← satResult_snd]
  cases f.ccw <;> rfl

/-- Settles O7: each instruction is one of the shared integer operations, whose exact value and carry rule are those of R249 and R250. -/
theorem scalarIntegersComplete : Obligations.ScalarIntegersComplete := by
  unfold Obligations.ScalarIntegersComplete
  intro h f lut k sh x y done none
  exact ⟨scalarInt_completes .add (fun _ => rfl), scalarInt_completes .sub (fun _ => rfl), scalarInt_completes .mul (fun _ => rfl),
    scalarInt_completes .mulHi (fun _ => rfl), scalarInt_completes .mad (fun _ => rfl), scalarInt_completes .div (fun _ => rfl),
    scalarInt_completes .rem (fun _ => rfl), scalarInt_completes (.lut lut) (fun _ => rfl), scalarInt_completes (.shift sh) (fun _ => rfl),
    scalarInt_completes .min (fun _ => rfl), scalarInt_completes .max (fun _ => rfl), scalarInt_completes (.bit k) (fun _ => rfl)⟩

end Sys2Proof.Machine
end

section
/-! SUPPORT. Long-latency lane instructions (R222, R223, R250, R263; log entry 11): one completion for integer and one for float operations,
and the statement about them. -/

namespace Sys2Proof.Machine

open Sys2Proof

/-- An instruction of the late form completes, with results that are the spec's on every lane. -/
theorem late_completes {ins : Instr} {h : Hdr} {la : Gang → Nat} {w : Bool} {d : Operand} {ok : Team → Bool} {res res' : Gang → Nat → Nat × Exc}
    (hx : ∀ s, exec ins s = s.laneLate h la w d ok res) (hres : res = res') : LateCompletes ins h la w d ok res' := by
  subst hres
  intro s i hi hs hd ho he
  obtain ⟨g', hnext, hdone⟩ := laneLate_completes hi hs hd ho he
  exact ⟨g', (hx s).trans hnext, hdone⟩

/-- The exact value of an operation on a lane's operands. -/
def IntOp.laneExact (op : IntOp) (f : FmtR) (g : Gang) (l : Nat) : Int :=
  op.exact f.ty (g.rdLane f.ty f.a l) (g.rdSrc f.ty f.b l) (g.rdLane f.ty f.c l)

/-- The lane result of a shared integer operation is its exact value narrowed (R249, R260). -/
theorem laneIntRes_eq (f : FmtR) (op : IntOp) : laneIntRes f op = intRes f (op.laneExact f) := by
  funext g l
  rw [laneIntRes, satResult_fst, intRes, IntOp.laneExact]

/-- The operation of `IDIV` (R250, R260). -/
def idivOp (rem : Bool) : IntOp := if rem then .rem else .div

/-- `IDIV` gives each active lane the quotient or the remainder. -/
theorem idiv_completes (h : Hdr) (f : FmtR) (rem : Bool) :
    LateCompletes (.idiv h rem f) h (fun _ => h.la.toNat) (tyPair f.ty) f.d (laneIntOk f (idivOp rem)) (intRes f ((idivOp rem).laneExact f)) :=
  late_completes (fun _ => rfl) (laneIntRes_eq f _)

/-- A class-L float instruction completes with the lookahead that FPMODE leaves it (R223). -/
theorem laneFloatLate_completes {ins : Instr} {h : Hdr} {f : FmtR} {b : Bool} {op : Rm → FSpec → Nat → Nat → Nat → Nat × Exc}
    (hx : ∀ s, exec ins s = s.laneFloatLate h f b op) :
    LateCompletes ins h (fun g => laOf g h.la) (tyPair f.ty) f.d (laneFloatOk f b false) (floatRes f op) :=
  late_completes hx rfl

/-- Settles O4: each instruction is of the late form. -/
theorem longLatencyLanesComplete : Obligations.LongLatencyLanesComplete := by
  unfold Obligations.LongLatencyLanesComplete
  intro h f
  exact ⟨idiv_completes h f false, idiv_completes h f true,
    laneFloatLate_completes (fun _ => rfl), laneFloatLate_completes (fun _ => rfl), laneFloatLate_completes (fun _ => rfl),
    laneFloatLate_completes (fun _ => rfl), laneFloatLate_completes (fun _ => rfl), laneFloatLate_completes (fun _ => rfl)⟩

end Sys2Proof.Machine
end

section
/-! SUPPORT. Uniform transfers (R240 to R242): what a transfer to a checked address leaves, and the statement about them. -/

namespace Sys2Proof.Machine

open Sys2Proof

/-- The gang that a transfer sends on: a call has written its link to s1. -/
def Issuer.linked (i : Issuer) (link : Bool) : Gang := if link then i.g.wrS 1 (nextSlot i.pc) else i.g

/-- Writing the link leaves the slices as they were. -/
theorem Issuer.linked_slice (i : Issuer) (link : Bool) (k : Nat) : (i.linked link).slice k = i.g.slice k := by
  cases link <;> rfl

/-- A transfer whose target passes its checks sends the whole gang there. -/
theorem transfer_goes {s s' : State} {i i' : Issuer} (hi : s.Issues i) (hg : s.GangStarts i s' i') {a : W64} (link : Bool)
    (hcheck : s'.checkTarget i'.tm.core i'.tm.ctx a = .ok ()) :
    s'.transfer i' a link = .ok (s'.withGang i' ((i'.linked link).goTo i'.slices a)) := by
  rw [State.transfer, hcheck, ok_bind, GangStarts.modGang hi hg]
  rfl

/-- A uniform instruction that is a transfer to a checked address completes. -/
theorem transfer_completes {ins : Instr} {h : Hdr} {F : State → Issuer → Except Stop State} {ok : Issuer → Prop} (link : Bool) (dest : Issuer → W64)
    (hx : ∀ s, exec ins s = s.uniform h F) (hF : ∀ s i, ok i → F s i = s.transfer i (dest i) link) :
    UniformCompletes ins h (fun s i => ok i ∧ s.checkTarget i.tm.core i.tm.ctx (dest i) = .ok ())
      (fun s i t => ∃ g', t = s.withGang i g' ∧ (i.linked link).WentOn g' i.slices (fun _ => dest i)) := by
  refine uniform_completes hx (fun s s' i i' hi hg ho => ?_)
  obtain ⟨hok, hcheck⟩ := ho
  have hr := GangStarts.apart hi hg
  have hlive : ∀ k ∈ i'.slices, ((i'.linked link).slice k).live = true := fun k hk => (i'.linked_slice link k).symm ▸ (hr.slice k hk).2
  exact ⟨_, (hF s' i' hok).trans (transfer_goes hi hg link hcheck), _, rfl, Gang.wentOn_goTo (dest i') hr.apart hlive⟩

/-- Settles O17: each of them is a transfer to the address that its register or its displacement gives. -/
theorem transfersComplete : Obligations.TransfersComplete := by
  unfold Obligations.TransfersComplete
  intro h a disp goes
  refine ⟨transfer_completes false _ (fun _ => rfl) (fun s i ha => ?bind), transfer_completes true _ (fun _ => rfl) (fun s i ha => ?calli),
    transfer_completes false _ (fun _ => rfl) (fun _ _ _ => rfl), transfer_completes true _ (fun _ => rfl) (fun s i hin => ?call)⟩
  case bind | calli => rw [ha]; rfl
  case call => rw [dispTarget_inside hin]; rfl

end Sys2Proof.Machine
end

section
/-! SUPPORT. Scalar moves, comparisons, selections and mask operations (R246, R249, R253): what each does to every gang that performs it,
and the statement about them. -/

namespace Sys2Proof.Machine

open Sys2Proof

-- one change of every performing gang

/-- A scoped instruction whose effect is one change of every performing gang, after which it passes, completes. -/
theorem passed_completes {ins : Instr} {h : Hdr} {setNo : Nat} {legal : List Scope} {ok : Wide → Prop} {F : State → Wide → Except Stop State}
    {change : Wide → Gang → Gang} (hx : ∀ s, exec ins s = s.wideOp h setNo legal F)
    (hF : ∀ s w, ok w → F s w = .ok (s.passWide w.p (change w))) : WideCompletes ins h setNo legal ok (fun w _ l g g' => g.PassedWith g' l (change w)) :=
  wide_completes (fun w q g => (change w g).pass q.2) hx (fun _ => id) (fun s w _ ho _ => hF s w ho) (fun _ _ _ _ _ _ => rfl)

/-- A scalar instruction changes every performing gang as its representative's operands say (R247). -/
theorem scalar_completes {ins : Instr} {h : Hdr} {f : FmtR} {ok : Wide → Prop} {run : Gang → Wide → Except Stop (Gang → Gang)}
    {change : Wide → Gang → Gang} (hx : ∀ s, exec ins s = s.scalar h f run) (hrun : ∀ w, ok w → run w.rep w = .ok (change w)) :
    WideCompletes ins h (f.xt.toNat % 8) (scalarScopes f) ok (fun w _ l g g' => g.PassedWith g' l (change w)) :=
  passed_completes hx (fun s w ho => by rw [hrun w ho, ok_bind])

-- SMOV (R246, R249)

theorem exec_smov (h : Hdr) (hi : Bool) (f : FmtR) (s : State) : exec (.smov h hi f) s = execSmov h hi f s := rfl

/-- What `SMOV` does to a gang, for the value `a` of its source. -/
def Gang.smoved (m : Gang) (hi : Bool) (f : FmtR) (a : W64) : Gang :=
  let x := if hi then a.extractLsb' 0 32 ++ (m.rdScalar f.d).extractLsb' 0 32 else a
  if f.ccw then (m.wrScalar f.d x).setIntCc 64 x.toNat false .none else m.wrScalar f.d x

/-- The check of `SMOV` passes where it names an s register, an immediate, or a g register that it copies. -/
theorem smov_operands {hi imm : Bool} {d a : Operand} (hd : (if hi then sOk d else sgOk d) = true)
    (ha : imm = true ∨ sSrcOk a = true ∨ (hi = false ∧ sgOk a = true)) :
    (if hi then !sOk d || !(imm || sSrcOk a) else !sgOk d || !(imm || sgOk a || sSrcOk a)) = false := by
  cases hi with
  | true =>
    have hd : sOk d = true := hd
    have hsrc : (imm || sSrcOk a) = true := by simpa using ha
    rw [if_pos rfl, hd, hsrc]
    rfl
  | false =>
    have hd : sgOk d = true := hd
    have hsrc : (imm || sgOk a || sSrcOk a) = true := by simpa [or_assoc, or_comm (a := sSrcOk a = true)] using ha
    rw [if_neg nofun, hd, hsrc]
    rfl

/-- `SMOV` of an s register, of an immediate, or of a g register that is copied. -/
theorem smov_completes (h : Hdr) (hi : Bool) (f : FmtR) :
    WideCompletes (.smov h hi f) h (f.xt.toNat % 8) (scalarScopes f)
      (fun _ => (if hi then sOk f.d else sgOk f.d) = true ∧
        (match f.b with | .imm32 _ => True | .op _ => sSrcOk f.a = true ∨ (hi = false ∧ sgOk f.a = true)))
      (fun w _ l g g' => g.PassedWith g' l (fun m =>
        m.smoved hi f (match f.b with | .imm32 k => BitVec.ofNat 64 (imm32Bits .i64 k) | .op _ => w.rep.rdScalar f.a))) := by
  refine scalar_completes (exec_smov h hi f) (fun w ho => ?_)
  obtain ⟨hd, ha⟩ := ho
  cases hb : f.b with
  | op o =>
    rw [hb] at ha
    exact illegalOperandIf_bind (smov_operands hd (.inr ha)) _
  | imm32 k => exact illegalOperandIf_bind (smov_operands hd (.inl rfl)) _

/-- The insertion into a high half raises illegal-operand where it names a g register. -/
theorem smov_hi_traps {h : Hdr} {f : FmtR} {s s' : State} {i : Issuer} {w : Wide} {k : BitVec 3} {o : Operand} (hi : s.Issues i)
    (hl : scopesGST.contains h.scp = true) (hw : s.Starts i h (f.xt.toNat % 8) s' w) (hb : f.b = .op o) (hg : f.d = .g k ∨ f.a = .g k) :
    exec (.smov h true f) s = .next (s'.trapAll w.p cIllegalOperand 0 (fun _ => 0)) := by
  have hbad : (!sOk f.d || !(false || sSrcOk f.a)) = true := by
    obtain hd | ha := hg
    · rw [hd]; rfl
    · rw [ha, Bool.or_comm]; rfl
  have hlegal : (scalarScopes f).contains h.scp = true := by rw [scalarScopes, hb]; exact hl
  rw [exec_smov, execSmov, State.scalar, wideOp_starts hi.1 hlegal hw]
  simp only [hb, if_true, hbad]
  rfl

-- SCMP and SSEL (R249)

theorem exec_scmp (h : Hdr) (f : FmtR) (s : State) : exec (.scmp h f) s = execScmp h f s := rfl
theorem exec_ssel (h : Hdr) (cond : Cond) (f : FmtR) (s : State) : exec (.ssel h cond f) s = execSsel h cond f s := rfl

/-- `SCMP` sets the condition codes of a subtraction. -/
theorem scmp_completes (h : Hdr) (f : FmtR) :
    WideCompletes (.scmp h f) h (f.xt.toNat % 8) (scalarScopes f) (fun _ => sSrcOk f.a = true ∧ sBOk f.b = true)
      (fun w _ l g g' => g.PassedWith g' l (fun m =>
        let x := (w.rep.rdScalar f.a).toNat % 2 ^ tyWidth f.ty
        let y := (w.rep.rdScalarB f.ty f.b).toNat % 2 ^ tyWidth f.ty
        m.setIntCc (tyWidth f.ty) (patOf (tyWidth f.ty) ((x : Int) - y)) false (.sub x y))) :=
  scalar_completes (exec_scmp h f) (fun _ ⟨ha, hb⟩ => by
    rw [scalarOperands_ok (d := false) (b := true) (c := false) nofun ha (fun _ => hb) nofun, ok_bind])

/-- `SSEL` copies A where its condition holds, else B. -/
theorem ssel_completes (h : Hdr) (cond : Cond) (f : FmtR) :
    WideCompletes (.ssel h cond f) h (f.xt.toNat % 8) (scalarScopes f) (fun _ => sOk f.d = true ∧ sSrcOk f.a = true ∧ sBOk f.b = true)
      (fun w _ l g g' => g.PassedWith g' l (fun m =>
        m.wrS (sIdx f.d) (if condHolds cond w.rep.cc w.tm.prq then w.rep.rdScalar f.a else w.rep.rdScalarB .b64 f.b))) :=
  scalar_completes (exec_ssel h cond f) (fun _ ⟨hd, ha, hb⟩ => by
    rw [scalarOperands_ok (d := true) (b := true) (c := false) (fun _ => hd) ha (fun _ => hb) nofun, ok_bind])

-- MOP (R253)

theorem exec_mop (h : Hdr) (k : MaskOp) (f : FmtR) (s : State) : exec (.mop h k f) s = execMop h k f s := rfl

/-- What a mask operation does to a gang, for its value. -/
def Gang.mopped (m : Gang) (k : MaskOp) (f : FmtR) (v : W32) : Gang :=
  let m := if k = .mpopc ∨ k = .mtos then m.wrS (sIdx f.d) (v.setWidth 64) else m.wrM (mIdx f.d) v
  if f.ccw then m.setZncv (v == 0) v.msb false false else m

/-- `MOP` with legal operands writes its value to a mask register, or to an s register. -/
theorem mop_completes (h : Hdr) (k : MaskOp) {f : FmtR} {b : Operand} (hb : f.b = .op b) :
    WideCompletes (.mop h k f) h (f.xt.toNat % 8) scopesGST
      (fun _ => (if k = .mpopc ∨ k = .mtos then sOk f.d else mDstOk f.d) = true ∧
        (match k with | .mfroms => sOk f.a | .mset => isM f.a || isImm f.a | _ => isM f.a) = true ∧
        (k = .mand ∨ k = .mor ∨ k = .mxor → isM b = true))
      (fun w _ l g g' => g.PassedWith g' l (fun m =>
        m.mopped k f (mopValue k ((w.rep.rdScalar f.a).setWidth 32) ((w.rep.rdScalar b).setWidth 32)))) := by
  refine passed_completes (exec_mop h k f) (fun s w ho => ?_)
  obtain ⟨hd, ha, hmask⟩ := ho
  refine (illegalOperandIf_bind ?dest _).trans ((illegalOperandIf_bind ?source _).trans ((illegalOperandIf_bind ?second _).trans ?effect))
  case dest => simpa using hd
  case source => exact congrArg (!·) ha
  case second => simpa [hb, or_assoc] using hmask
  case effect => simp only [hb, Gang.mopped, Bool.or_eq_true, beq_iff_eq]

/-- Settles O8: each of them is one change of every performing gang, and an insertion that names a g register fails its check. -/
theorem scalarMovesComplete : Obligations.ScalarMovesComplete := by
  unfold Obligations.ScalarMovesComplete
  intro h f cond set
  exact ⟨fun hi => smov_completes h hi f, fun s i s' w k o hi hl hw hb hg => smov_hi_traps hi hl hw hb hg, scmp_completes h f,
    ssel_completes h cond f, fun k b hb => mop_completes h k hb⟩

end Sys2Proof.Machine
end

section
/-! SUPPORT. The scalar floating-point instruction (R251): its value and exceptions, what it does to every gang that performs it, and
the statement about it. -/

namespace Sys2Proof.Machine

open Sys2Proof

/-- The float format of a scalar floating-point type. -/
def sfopSpec (t : Ty) : FSpec := if t = .f64 then specF64 else specF32

/-- The type in which an `SFOP` reads A: `cvt` converts from the other one of f32 and f64. -/
def sfopSrc (k : SfopOp) (t : Ty) : Ty := if k = .cvt then (if t = .f64 then .f32 else .f64) else t

/-- A result with NV where one of some operands is a NaN (R251). -/
def withNan (F : FSpec) (r : Nat × Exc) (l : List Nat) : Nat × Exc := (r.1, if l.any F.isNan then r.2 ||| .nv else r.2)

/-- The value and the exceptions of an `SFOP` on the operands of a gang, operation by operation (R251). -/
def Gang.sfopRes (g : Gang) (k : SfopOp) (f : FmtR) : Nat × Exc :=
  let F := sfopSpec f.ty
  let rm := effRm g.fpmode f.rm
  let a := g.rdScalarF f.ty f.a
  let b := g.rdScalarFB f.ty f.b
  let c := g.rdScalarF f.ty f.c
  match k with
  | .add => withNan F (F.fadd rm a b) [a, b]
  | .sub => withNan F (F.fsub rm a b) [a, b]
  | .mul => withNan F (F.fmul rm a b) [a, b]
  | .fma => withNan F (F.fma rm false false a b c) [a, b, c]
  | .min => F.fminmax false a b
  | .max => F.fminmax true a b
  | .cmp => (0, (F.fcompare a b).2)
  | .cvt => fconv (if f.ty = .f64 then specF32 else specF64) F rm (g.rdScalarF (sfopSrc .cvt f.ty) f.a)

/-- NV enters with a NaN operand. -/
theorem withNan_eq (F : FSpec) (r : Nat × Exc) (l : List Nat) : withNan F r l = (r.1, r.2 ||| if l.any F.isNan then .nv else 0) := by
  rw [withNan]
  cases l.any F.isNan with
  | true => rfl
  | false => simp

/-- In arithmetic, and there alone, any NaN sets NV (R251). -/
theorem sfopResult_eq (g : Gang) (k : SfopOp) (f : FmtR) :
    sfopResult k f.ty (effRm g.fpmode f.rm) (g.rdScalarF (sfopSrc k f.ty) f.a) (g.rdScalarFB f.ty f.b) (g.rdScalarF f.ty f.c) = g.sfopRes k f := by
  cases k with
  | add | sub | mul | fma => simp [sfopResult, sfopNan, sfopArith, Gang.sfopRes, withNan_eq, sfopSpec, sfopSrc, Bool.or_assoc]
  | min | max | cmp | cvt => simp [sfopResult, sfopNan, sfopArith, Gang.sfopRes, sfopSpec, sfopSrc]

theorem exec_sfop (h : Hdr) (k : SfopOp) (f : FmtR) (s : State) : exec (.sfop h k f) s = execSfop h k f s := rfl

/-- What an `SFOP` does to a gang, for its value and exceptions and the order of its operands. -/
def Gang.sfopped (m : Gang) (k : SfopOp) (f : FmtR) (r : Nat × Exc) (o : Option Ordering) : Gang :=
  let m := m.orFlags r.2
  if k = .cmp then m.setCmpCc o
  else
    let m := m.wrS (sIdx f.d) (BitVec.ofNat 64 r.1)
    if f.ccw then m.setFloatCc (sfopSpec f.ty) r.1 else m

/-- `SFOP` with legal operands and no enabled exception completes. -/
theorem sfop_completes (h : Hdr) (k : SfopOp) (f : FmtR) :
    WideCompletes (.sfop h k f) h (f.xt.toNat % 8) (scalarScopes f)
      (fun w => (k ≠ .cmp → sOk f.d = true) ∧ sSrcOk f.a = true ∧ (k ≠ .cvt → sBOk f.b = true) ∧ (k = .fma → sSrcOk f.c = true) ∧
        enabledExc w.rep.fpmode (w.rep.sfopRes k f).2 = false)
      (fun w _ l g g' => g.PassedWith g' l (fun m => m.sfopped k f (w.rep.sfopRes k f)
        ((sfopSpec f.ty).fcompare (w.rep.rdScalarF f.ty f.a) (w.rep.rdScalarFB f.ty f.b)).1)) := by
  refine passed_completes (exec_sfop h k f) (fun s w ho => ?_)
  obtain ⟨hd, ha, hb, hc, he⟩ := ho
  have hops : scalarOperands f (k != .cmp) (k != .cvt) (k == .fma) = .ok () :=
    scalarOperands_ok (by simpa using hd) ha (by simpa using hb) (by simpa using hc)
  rw [hops, ok_bind]
  -- the model's result, and its change of a gang, under the names above
  change (if enabledExc w.rep.fpmode (sfopResult k f.ty _ (w.rep.rdScalarF (sfopSrc k f.ty) f.a) _ _).2 then _ else
    Except.ok (s.passWide w.p (fun m => m.sfopped k f (sfopResult k f.ty _ (w.rep.rdScalarF (sfopSrc k f.ty) f.a) _ _)
      ((sfopSpec f.ty).fcompare (w.rep.rdScalarF (sfopSrc k f.ty) f.a) _).1))) = _
  rw [sfopResult_eq, he, if_neg nofun]
  refine congrArg (fun c => Except.ok (s.passWide w.p c)) (funext fun m => ?_)
  by_cases hk : k = .cmp
  · subst hk
    rfl
  · simp only [Gang.sfopped, hk, if_false]

/-- Settles O9: it is one change of every performing gang, with the value and the exceptions that R251 gives each operation. -/
theorem scalarFloatsComplete : Obligations.ScalarFloatsComplete := by
  unfold Obligations.ScalarFloatsComplete
  intro h k f F b res
  exact sfop_completes h k f

end Sys2Proof.Machine
end

section
/-! SUPPORT. What every step keeps of the device (R416, R418, R420, R421): one arm for each constructor of `Instr`, each choice of what
may happen, and the statement about it. -/

namespace Sys2Proof.Machine

open Sys2Proof

/-- Every instruction and every event keeps it. -/
theorem exec_ok {b : Nat × Byte} (i : Instr) {s : State} (h0 : s.Ok b) : Res.Keeps b (exec i s) := by
  cases i with
  | nop => exact execNop_ok h0
  | bra h disp => exact execBra_ok h disp h0
  | bcc h cond disp => exact execBcc_ok h cond disp h0
  | bmz h disp => exact execBmz_ok h disp h0
  | bmnz h disp => exact execBmnz_ok h disp h0
  | bind h a => exact execBind_ok h a h0
  | call h disp => exact execCall_ok h disp h0
  | calli h a => exact execCalli_ok h a h0
  | ret h => exact execRet_ok h h0
  | regang h => exact execRegang_ok h h0
  | exit h => exact execExit_ok h h0
  | yield h => exact execYield_ok h h0
  | enter h size => exact execEnter_ok h size h0
  | leave h => exact execLeave_ok h h0
  | bkpt h => exact execBkpt_ok h h0
  | trap h code => exact execTrap_ok h code h0
  | smov h hi f => exact execSmov_ok h hi f h0
  | sadd h f => exact execSadd_ok h f h0
  | ssub h f => exact execSsub_ok h f h0
  | smul h hi f => exact execSmul_ok h hi f h0
  | smad h f => exact execSmad_ok h f h0
  | sdiv h f => exact execSdiv_ok h f h0
  | srem h f => exact execSrem_ok h f h0
  | slop h lut f => exact execSlop_ok h lut f h0
  | sshf h k f => exact execSshf_ok h k f h0
  | scmp h f => exact execScmp_ok h f h0
  | ssel h cond f => exact execSsel_ok h cond f h0
  | smin h f => exact execSmin_ok h f h0
  | smax h f => exact execSmax_ok h f h0
  | sbit h k f => exact execSbit_ok h k f h0
  | sfop h k f => exact execSfop_ok h k f h0
  | sget h r f => exact execSget_ok h r f h0
  | sset h r f => exact execSset_ok h r f h0
  | mop h k f => exact execMop_ok h k f h0
  | iadd h f => exact execIadd_ok h f h0
  | isub h f => exact execIsub_ok h f h0
  | imul h hi f => exact execImul_ok h hi f h0
  | imad h f => exact execImad_ok h f h0
  | imin h f => exact execImin_ok h f h0
  | imax h f => exact execImax_ok h f h0
  | iabs h f => exact execIabs_ok h f h0
  | ineg h f => exact execIneg_ok h f h0
  | lop h lut f => exact execLop_ok h lut f h0
  | shf h k f => exact execShf_ok h k f h0
  | icmp h p f => exact execIcmp_ok h p f h0
  | sel h f => exact execSel_ok h f h0
  | ibit h k f => exact execIbit_ok h k f h0
  | bfx h k f => exact execBfx_ok h k f h0
  | lea h f => exact execLea_ok h f h0
  | idiv h rem f => exact execIdiv_ok h rem f h0
  | idot h f => exact execIdot_ok h f h0
  | mov h f => exact execMov_ok h f h0
  | fadd h f => exact execFadd_ok h f h0
  | fsub h f => exact execFsub_ok h f h0
  | fmul h f => exact execFmul_ok h f h0
  | fma h f => exact execFma_ok h f h0
  | fms h f => exact execFms_ok h f h0
  | fnma h f => exact execFnma_ok h f h0
  | fnms h f => exact execFnms_ok h f h0
  | fmin h f => exact execFmin_ok h f h0
  | fmax h f => exact execFmax_ok h f h0
  | fsgn h k f => exact execFsgn_ok h k f h0
  | fcmp h p f => exact execFcmp_ok h p f h0
  | fclass h f => exact execFclass_ok h f h0
  | fdiv h f => exact execFdiv_ok h f h0
  | fsqrt h f => exact execFsqrt_ok h f h0
  | frcp h f => exact execFrcp_ok h f h0
  | frsq h f => exact execFrsq_ok h f h0
  | fexp2 h f => exact execFexp2_ok h f h0
  | flog2 h f => exact execFlog2_ok h f h0
  | fscale h f => exact execFscale_ok h f h0
  | frnd h f => exact execFrnd_ok h f h0
  | cvtf h src f => exact execCvtf_ok h src f h0
  | cvti h src f => exact execCvti_ok h src f h0
  | cvtn h src f => exact execCvtn_ok h src f h0
  | cvtl h enc f => exact execCvtl_ok h enc f h0
  | pack h src f => exact execPack_ok h src f h0
  | unpk h elt f => exact execUnpk_ok h elt f h0
  | shfl h k f => exact execShfl_ok h k f h0
  | bcast h f => exact execBcast_ok h f h0
  | xvote h k f => exact execXvote_ok h k f h0
  | xred h op f => exact execXred_ok h op f h0
  | xscan h op excl f => exact execXscan_ok h op excl f h0
  | confl h f => exact execConfl_ok h f h0
  | cmprs h f => exact execCmprs_ok h f h0
  | expnd h f => exact execExpnd_ok h f h0
  | xmov h f => exact execXmov_ok h f h0
  | setdecl h f => exact execSetdecl_ok h f h0
  | ld h f => exact execLd_ok h f h0
  | st h f => exact execSt_ok h f h0
  | lds h f => exact execLds_ok h f h0
  | sts h f => exact execSts_ok h f h0
  | ldu h f => exact execLdu_ok h f h0
  | stu h f => exact execStu_ok h f h0
  | ldl h f => exact execLdl_ok h f h0
  | stl h f => exact execStl_ok h f h0
  | stash h fmt f => exact execStash_ok h fmt f h0
  | pld h room f => exact execPld_ok h room f h0
  | fence h f => exact execFence_ok h f h0
  | cmaint h all f => exact execCmaint_ok h all f h0
  | atom h op ty f => exact execAtom_ok h op ty f h0
  | acas h ty f => exact execAcas_ok h ty f h0
  | mred h op ty f => exact execMred_ok h op ty f h0
  | atoms h op ty f => exact execAtoms_ok h op ty f h0
  | acass h ty f => exact execAcass_ok h ty f h0
  | copy h shape out yld f => exact execCopy_ok h shape out yld f h0
  | gather h f => exact execGather_ok h f h0
  | scatter h mode f => exact execScatter_ok h mode f h0
  | abinit h f => exact execAbinit_ok h f h0
  | abarr h f => exact execAbarr_ok h f h0
  | abwait h f => exact execAbwait_ok h f h0
  | abexp h f => exact execAbexp_ok h f h0
  | abtest h f => exact execAbtest_ok h f h0
  | wapp h f => exact execWapp_ok h f h0
  | wpop h steal f => exact execWpop_ok h steal f h0
  | tdef h kind fmt f => exact execTdef_ok h kind fmt f h0
  | tldr h f => exact execTldr_ok h f h0
  | tstr h f => exact execTstr_ok h f h0
  | tget h part f => exact execTget_ok h part f h0
  | mma h f => exact execMma_ok h f h0
  | tmul h f => exact execTmul_ok h f h0
  | accrd h fmt f => exact execAccrd_ok h fmt f h0
  | accwr h fmt f => exact execAccwr_ok h fmt f h0
  | accz h f => exact execAccz_ok h f h0
  | accrel h f => exact execAccrel_ok h f h0
  | mbatch h f => exact execMbatch_ok h f h0
  | mwait h f => exact execMwait_ok h f h0
  | cturn h fmt tr f => exact execCturn_ok h fmt tr f h0
  | tmv h f => exact execTmv_ok h f h0
  | tadd h f => exact execTadd_ok h f h0
  | tscl h f => exact execTscl_ok h f h0
  | trnd h abs f => exact execTrnd_ok h abs f h0
  | tdense h f => exact execTdense_ok h f h0
  | tzero h f => exact execTzero_ok h f h0
  | tnorm h f => exact execTnorm_ok h f h0
  | tpool h fmt f => exact execTpool_ok h fmt f h0
  | tfree h f => exact execTfree_ok h f h0
  | ttrn h f => exact execTtrn_ok h f h0
  | bar h f => exact execBar_ok h f h0
  | gnew h f => exact execGnew_ok h f h0
  | gjoin h f => exact execGjoin_ok h f h0
  | gleave h f => exact execGleave_ok h f h0
  | gbar h f => exact execGbar_ok h f h0
  | gvote h all f => exact execGvote_ok h all f h0
  | gred h op f => exact execGred_ok h op f h0
  | greset h f => exact execGreset_ok h f h0
  | ginfo h f => exact execGinfo_ok h f h0
  | qdef h f => exact execQdef_ok h f h0
  | qpush h try_ f => exact execQpush_ok h try_ f h0
  | qpop h try_ f => exact execQpop_ok h try_ f h0
  | sleep h f => exact execSleep_ok h f h0
  | coll h op red f => exact execColl_ok h op red f h0
  | xput h f => exact execXput_ok h f h0
  | xget h f => exact execXget_ok h f h0
  | trigarm h f => exact execTrigarm_ok h f h0
  | trigcnt h f => exact execTrigcnt_ok h f h0
  | trigdis h f => exact execTrigdis_ok h f h0
  | launch h f => exact execLaunch_ok h f h0
  | cjoin h f => exact execCjoin_ok h f h0
  | spanmap h f => exact execSpanmap_ok h f h0
  | spanst h f => exact execSpanst_ok h f h0
  | labort h f => exact execLabort_ok h f h0
  | rte h => exact execRte_ok h h0
  | trq h drop f => exact execTrq_ok h drop f h0
  | perf h ctr f => exact execPerf_ok h ctr f h0
  | handlerEntry team gang => exact execHandlerEntry_ok team gang h0
  | pageFaultResolved ctx page ok => exact execPageFaultResolved_ok ctx page ok h0
  | wappLand ctx idx => exact execWappLand_ok ctx idx h0
  | quiescenceDone ctx => exact execQuiescenceDone_ok ctx h0
  | matrixOpComplete team op => exact execMatrixOpComplete_ok team op h0
  | sleepExpiry u => exact execSleepExpiry_ok u h0
  | collStagingGrant coll => exact execCollStagingGrant_ok coll h0
  | chunkArrival c => exact execChunkArrival_ok c h0
  | collTimeout coll => exact execCollTimeout_ok coll h0
  | xputReceive ctx addr data notify => exact execXputReceive_ok ctx addr data notify h0
  | xgetRequest ctx addr len => exact execXgetRequest_ok ctx addr len h0
  | triggerActionComplete ctx idx err => exact execTriggerActionComplete_ok ctx idx err h0
  | engineLand team op seg => exact execEngineLand_ok team op seg h0
  | engineArrival team op => exact execEngineArrival_ok team op h0
  | fixupReplay team op => exact execFixupReplay_ok team op h0
  | copyYieldResume team op => exact execCopyYieldResume_ok team op h0
  | dispatch ctx idx => exact execDispatch_ok ctx idx h0
  | teamPlace launch grid core => exact execTeamPlace_ok launch grid core h0
  | teamRetire team => exact execTeamRetire_ok team h0
  | launchCommit launch => exact execLaunchCommit_ok launch h0
  | poolFull launch => exact execPoolFull_ok launch h0
  | irrevocablePublish launch => exact execIrrevocablePublish_ok launch h0
  | prqDeadline team => exact execPrqDeadline_ok team h0
  | saveDrainTimeout team => exact execSaveDrainTimeout_ok team h0
  | parkPreempt team => exact execParkPreempt_ok team h0
  | teamRestore team core => exact execTeamRestore_ok team core h0
  | hdmRead addr len => exact execHdmRead_ok addr len h0
  | hdmWrite addr data => exact execHdmWrite_ok addr data h0
  | qrsv slot queue => exact execQrsv_ok slot queue h0
  | qdb slot queue => exact execQdb_ok slot queue h0
  | queuePollTimer slot queue => exact execQueuePollTimer_ok slot queue h0
  | qreset slot queue val => exact execQreset_ok slot queue val h0
  | ckpt ctx idx => exact execCkpt_ok ctx idx h0
  | recompute ctx idx => exact execRecompute_ok ctx idx h0
  | replayNext ctx => exact execReplayNext_ok ctx h0
  | registerWrite bar off val => exact execRegisterWrite_ok bar off val h0
  | ctxLoad slot => exact execCtxLoad_ok slot h0
  | ctxSave slot => exact execCtxSave_ok slot h0
  | ctxSaveDone slot => exact execCtxSaveDone_ok slot h0
  | ctxResume slot => exact execCtxResume_ok slot h0
  | ctxKill slot => exact execCtxKill_ok slot h0
  | ctxUnload slot => exact execCtxUnload_ok slot h0
  | ctxUpool slot => exact execCtxUpool_ok slot h0
  | tlbMark val => exact execTlbMark_ok val h0
  | tlbMarkDrained => exact execTlbMarkDrained_ok h0
  | tlbConfirm val => exact execTlbConfirm_ok val h0
  | bncrp slot val => exact execBncrp_ok slot val h0
  | trgownWrite wing idx val => exact execTrgownWrite_ok wing idx val h0
  | ctrownWrite wing idx val => exact execCtrownWrite_ok wing idx val h0
  | wingDrain wing => exact execWingDrain_ok wing h0
  | wingDrained wing => exact execWingDrained_ok wing h0
  | wingReset wing => exact execWingReset_ok wing h0
  | wingResetDone wing => exact execWingResetDone_ok wing h0
  | wingOnline wing => exact execWingOnline_ok wing h0
  | rowretGo val => exact execRowretGo_ok val h0
  | rowCopyDone => exact execRowCopyDone_ok h0
  | retrain port => exact execRetrain_ok port h0
  | retrainDone port => exact execRetrainDone_ok port h0
  | spanctlDisable port on => exact execSpanctlDisable_ok port on h0
  | corectlDis core on => exact execCorectlDis_ok core on h0
  | peerDeadTimeout rank => exact execPeerDeadTimeout_ok rank h0
  | livenessFlood flood => exact execLivenessFlood_ok flood h0
  | spanrjGo rank running => exact execSpanrjGo_ok rank running h0
  | modeWrite val => exact execModeWrite_ok val h0
  | eccChangeDone => exact execEccChangeDone_ok h0
  | clockCapChange => exact execClockCapChange_ok h0
  | thermalSample core temp => exact execThermalSample_ok core temp h0
  | droopFlag core raised => exact execDroopFlag_ok core raised h0
  | droopHoldExpiry core => exact execDroopHoldExpiry_ok core h0
  | longLatencyResult u idx => exact execLongLatencyResult_ok u idx h0
  | remoteLineRequest ctx addr write => exact execRemoteLineRequest_ok ctx addr write h0
  | signTokenRefill => exact execSignTokenRefill_ok h0
  | powerOn => exact execPowerOn_ok h0
  | deviceReset => exact execDeviceReset_ok h0
  | bootctlGo => exact execBootctlGo_ok h0
  | bootImageLoaded image fetchFault => exact execBootImageLoaded_ok image fetchFault h0
  | getVersion box => exact execGetVersion_ok box h0
  | getCapabilities box => exact execGetCapabilities_ok box h0
  | negotiateAlgorithms box => exact execNegotiateAlgorithms_ok box h0
  | getDigests box => exact execGetDigests_ok box h0
  | getCertificate box slot => exact execGetCertificate_ok box slot h0
  | challenge box nonce => exact execChallenge_ok box nonce h0
  | getMeasurements box index signed nonce => exact execGetMeasurements_ok box index signed nonce h0
  | idleFlit rank => exact execIdleFlit_ok rank h0
  | powerLoss => exact execPowerLoss_ok h0
  | cstopClear slot queue => exact execCstopClear_ok slot queue h0

variable {b : Nat × Byte} {s : State}

/-- What a state has that a step keeps does not depend on who issues, on the order of accesses or on the inbox. -/
theorem State.forEvent_ok (k : OrderKind) (h0 : s.Ok b) : (s.forEvent k).Ok b := by
  unfold State.forEvent
  simp [h0]

/-- Something that waited for memory keeps it, once it can be done (R103). -/
theorem State.tryPost_ok (ctx idx : Nat) (h0 : s.Ok b) {t : State} (ht : s.tryPost ctx idx = some t) : t.Ok b := by
  obtain ⟨p, -, hp⟩ := Option.bind_eq_some_iff.mp ht
  exact State.doPost_ok ctx p (State.modCtx_ok _ _ h0) t hp

/-- A unit that issues keeps it, whether its fetch stops or it performs an instruction. -/
theorem issue_ok (u : UnitId) (h0 : s.Ok b) : Res.Keeps b (issue u s) := by
  have hu : State.Ok b { s with cur := some u } := by simp [h0]
  unfold issue
  dsimp only
  split
  · exact (keeps_next _).mpr hu
  · split
    · exact State.stop_ok _ _ hu
    · exact exec_ok _ (State.prepare_ok _ _ _ hu)

/-- Whatever may happen keeps it. -/
theorem happen_ok (c : Choice) (h0 : s.Ok b) : Res.Keeps b (happen c s) := by
  cases c with
  | unit u => exact issue_ok u h0
  | event i => exact exec_ok i (State.forEvent_ok _ h0)
  | post ctx idx =>
    refine (keeps_next _).mpr ?_
    cases ht : (s.forEvent .all).tryPost ctx idx with
    | none => exact h0
    | some t => exact State.tryPost_ok ctx idx (State.forEvent_ok _ h0) ht
  | release => exact (keeps_next _).mpr (State.releaseSigned_ok (State.forEvent_ok _ h0))
  | input i => exact exec_ok i (by simp [State.forEvent_ok _ h0])

/-- Every step keeps it. -/
theorem step_ok (h0 : s.Ok b) : Res.Keeps b (step s) := by
  unfold step
  split
  · exact (keeps_next _).mpr h0
  · exact happen_ok _ h0
  next c cs _ _ => exact happen_ok _ (State.pickBelow_ok (cs.length + 1) h0)

/-- Settles O59: a step keeps `State.Inv` together with the leaf counter and FLOOR that it starts from as lower bounds. -/
theorem stepsKeepDeviceState : Obligations.StepsKeepDeviceState := by
  unfold Obligations.StepsKeepDeviceState
  intro s t hs hstep
  have h0 : s.Ok (s.boot.leaf, s.boot.floor) := (State.ok_iff s).mpr ⟨hs, le_refl _, BitVec.le_refl _⟩
  exact (State.ok_iff t).mp (step_ok h0 t hstep)

end Sys2Proof.Machine
end

section
/-! SUPPORT. Class-S lane instructions, lane comparisons, conversions and packing (R257 to R268; log entries 11, 36 and 37): one completion
for each form, and the statements about the instructions of each. -/

namespace Sys2Proof.Machine

open Sys2Proof

-- the forms

/-- An instruction of the short form completes under every check that implies its own, with results that are the spec's on every lane. -/
theorem short_completes {ins : Instr} {h : Hdr} {w : Bool} {d : Operand} {ok ok' : Team → Bool} {res res' : Gang → Nat → Nat × Exc}
    (hx : ∀ s, exec ins s = s.laneShort h w d ok res) (hok : ∀ t, ok' t = true → ok t = true) (hres : res = res') :
    LaneCompletes ins h w d ok' res' := by
  subst hres
  intro s i hi hs hd ho he
  obtain ⟨g', hnext, hdone⟩ := laneShort_completes hi hs hd (hok i.tm ho) he
  exact ⟨g', (hx s).trans hnext, hdone⟩

/-- An instruction of the short form completes under its own check. -/
theorem short_completes_self {ins : Instr} {h : Hdr} {w : Bool} {d : Operand} {ok : Team → Bool} {res : Gang → Nat → Nat × Exc}
    (hx : ∀ s, exec ins s = s.laneShort h w d ok res) : LaneCompletes ins h w d ok res := short_completes hx (fun _ => id) rfl

/-- A lane comparison completes. -/
theorem mask_completes {ins : Instr} {h : Hdr} {d : Operand} {ok : Team → Bool} {res : Gang → Nat → Bool × Exc}
    (hx : ∀ s, exec ins s = s.laneMaskOp h d ok res) : MaskCompletes ins h d ok res := by
  intro s i hi hs hd ho he
  obtain ⟨g', hnext, hdone⟩ := laneMaskOp_completes hi hs hd ho he
  exact ⟨g', (hx s).trans hnext, hdone⟩

/-- A shared integer operation on lanes completes with its exact value, narrowed (R249, R260). -/
theorem laneInt_completes {ins : Instr} {h : Hdr} {f : FmtR} (op : IntOp) (hx : ∀ s, exec ins s = s.laneInt h f op) :
    LaneCompletes ins h (tyPair f.ty) f.d (laneIntOk f op) (intRes f (op.laneExact f)) :=
  short_completes hx (fun _ => id) (laneIntRes_eq f op)

/-- A class-S float operation completes on every element of its type (R263, R264). -/
theorem laneFloat_completes {ins : Instr} {h : Hdr} {f : FmtR} {b c : Bool} {op : Rm → FSpec → Nat → Nat → Nat → Nat × Exc}
    (hx : ∀ s, exec ins s = s.laneFloat h f b c op) : LaneCompletes ins h (tyPair f.ty) f.d (laneFloatOk f b c) (floatRes f op) :=
  short_completes hx (fun _ => id) rfl

-- integers (R260)

/-- Settles O1: each instruction is one of the shared integer operations, whose exact value is that of R249. -/
theorem integerLanesComplete : Obligations.IntegerLanesComplete := by
  unfold Obligations.IntegerLanesComplete
  intro h f lut k
  exact ⟨laneInt_completes .add (fun _ => rfl), laneInt_completes .sub (fun _ => rfl), laneInt_completes .mul (fun _ => rfl),
    laneInt_completes .mulHi (fun _ => rfl), laneInt_completes .mad (fun _ => rfl), laneInt_completes .min (fun _ => rfl),
    laneInt_completes .max (fun _ => rfl), laneInt_completes .abs (fun _ => rfl), laneInt_completes .neg (fun _ => rfl),
    laneInt_completes (.lut lut) (fun _ => rfl), laneInt_completes (.bit k) (fun _ => rfl)⟩

theorem exec_lea (h : Hdr) (f : FmtR) (s : State) : exec (.lea h f) s = execLea h f s := rfl
theorem exec_idot (h : Hdr) (f : FmtR) (s : State) : exec (.idot h f) s = execIdot h f s := rfl
theorem exec_mov (h : Hdr) (f : FmtR) (s : State) : exec (.mov h f) s = execMov h f s := rfl

/-- `LEA` by a scale below 8 adds the scaled offset to the base. -/
theorem lea_completes (h : Hdr) {f : FmtR} {k : BitVec 8} (hc : f.c = .imm k) (hk : k.toNat < 8) :
    LaneCompletes (.lea h f) h true f.d (fun t => laneSrcOk t.nregs true f.a && laneBOk t.nregs false f.b)
      (fun g l => (patOf 64 ((g.rdLane .n64 f.a l : Int) +
        (if f.ty = .i64 then tyInt .i32 (g.rdSrc .i32 f.b l) else tyInt .n32 (g.rdSrc .n32 f.b l)) * (2 : Int) ^ k.toNat), 0)) := by
  refine short_completes (fun s => by rw [exec_lea, execLea, hc]) (fun t ho => ?_) (funext fun g => funext fun l => ?_)
  · simp only [if_pos hk, ho, Option.isSome_some, Bool.and_true]
  · simp only [if_pos hk, Option.getD_some, Nat.cast_pow, Nat.cast_ofNat]

/-- Settles O2: each instruction is of the short form, `LEA` under a check that its scale passes. -/
theorem laneMovesComplete : Obligations.LaneMovesComplete := by
  unfold Obligations.LaneMovesComplete
  intro h f sh bf
  refine ⟨short_completes_self (fun _ => rfl), short_completes_self (fun _ => rfl), short_completes_self (fun _ => rfl),
    fun k => lea_completes h, short_completes (fun s => by rw [exec_idot, execIdot]) (fun _ => id) ?dot, fun o hb => short_completes_self (fun s => ?reg),
    fun x hb => short_completes_self (fun s => ?imm)⟩
  case dot =>
    funext g l
    rw [satResult_fst, intRes]
  case reg | imm => rw [exec_mov, execMov, hb]

-- floating point (R263, R264)

/-- Settles O3: each instruction is an operation on the elements of its type, or of the short form. -/
theorem floatLanesComplete : Obligations.FloatLanesComplete := by
  unfold Obligations.FloatLanesComplete
  intro h f k
  exact ⟨laneFloat_completes (fun _ => rfl), laneFloat_completes (fun _ => rfl), laneFloat_completes (fun _ => rfl),
    laneFloat_completes (fun _ => rfl), laneFloat_completes (fun _ => rfl), laneFloat_completes (fun _ => rfl),
    laneFloat_completes (fun _ => rfl), laneFloat_completes (fun _ => rfl), laneFloat_completes (fun _ => rfl),
    laneFloat_completes (fun _ => rfl), laneFloat_completes (fun _ => rfl), short_completes_self (fun _ => rfl),
    short_completes_self (fun _ => rfl)⟩

-- comparisons (R261, R264)

/-- Settles O5: both are lane comparisons. -/
theorem laneComparesComplete : Obligations.LaneComparesComplete := by
  unfold Obligations.LaneComparesComplete
  intro h p f
  exact ⟨mask_completes (fun _ => rfl), mask_completes (fun _ => rfl)⟩

-- conversions and packing (R266 to R268)

theorem exec_pack (h : Hdr) (src : Ty) (f : FmtR) (s : State) : exec (.pack h src f) s = execPack h src f s := rfl
theorem exec_unpk (h : Hdr) (src : Ty) (f : FmtR) (s : State) : exec (.unpk h src f) s = execUnpk h src f s := rfl

/-- An element index in range is the immediate that gives it. -/
theorem elemIndex_imm {t : Ty} {k : BitVec 8} (hk : k.toNat < (if t = .l6x4 then 4 else 2)) : elemIndex t (.imm k) = some k.toNat := if_pos hk

/-- `PACK` of two floats converts both. -/
theorem pack_floats_completes (h : Hdr) (src : Ty) {f : FmtR} (ht : f.ty ≠ .l6x4) :
    LaneCompletes (.pack h src f) h false f.d (fun t => laneSrcOk t.nregs false f.a && laneBOk t.nregs false f.b)
      (fun g l =>
        let G := if f.ty = .h16x2 then specF16 else specBF16
        let x := fconv specF32 G (effRm g.fpmode f.rm) (g.rdLane .f32 f.a l)
        let y := fconv specF32 G (effRm g.fpmode f.rm) (g.rdSrc .f32 f.b l)
        (x.1 + y.1 * 2 ^ 16, x.2 ||| y.2)) :=
  short_completes_self (fun s => by rw [exec_pack, execPack, if_neg ht])

/-- `PACK` of an LNS6 code puts it in the element that C names. -/
theorem pack_code_completes (h : Hdr) (src : Ty) {f : FmtR} {k : BitVec 8} (ht : f.ty = .l6x4) (hc : f.c = .imm k) (hk : k.toNat < 4) :
    LaneCompletes (.pack h src f) h false f.d (fun t => laneSrcOk t.nregs false f.a && laneBOk t.nregs false f.b)
      (fun g l => ((List.range 4).foldl (fun x q =>
        x + (if q = k.toNat then g.rdSrc .n32 f.b l % 64 else bits (g.rdLane f.ty f.a l) (8 * q) 6) * 2 ^ (8 * q)) 0, 0)) := by
  have hidx : elemIndex f.ty f.c = some k.toNat := by
    rw [hc]
    exact elemIndex_imm (by rwa [if_pos ht])
  refine short_completes (fun s => by rw [exec_pack, execPack, if_pos ht, hidx]) (fun t ho => ?_) (funext fun g => funext fun l => ?_)
  · simp only [ho, Option.isSome_some, Bool.and_true]
  · simp only [Option.some.injEq]

/-- `UNPK` gives the element that B names. -/
theorem unpk_completes (h : Hdr) (src : Ty) {f : FmtR} {k : BitVec 8} (hb : f.b = .op (.imm k)) (hk : k.toNat < (if f.ty = .l6x4 then 4 else 2)) :
    LaneCompletes (.unpk h src f) h false f.d (fun t => laneSrcOk t.nregs false f.a)
      (fun g l => if f.ty = .l6x4 then (bits (g.rdLane f.ty f.a l) (8 * k.toNat) 6, 0)
        else fconv (if f.ty = .h16x2 then specF16 else specBF16) specF32 .rne (bits (g.rdLane f.ty f.a l) (16 * k.toNat) 16)) := by
  refine short_completes (fun s => by rw [exec_unpk, execUnpk, hb]) (fun t ho => ?_) (funext fun g => funext fun l => ?_)
  · simp only [elemIndex_imm hk, ho, Option.isSome_some, Bool.and_true]
  · simp only [elemIndex_imm hk, Option.getD_some]

/-- Settles O6: each instruction is of the short form, `PACK` and `UNPK` for the element that their immediate names. -/
theorem conversionsComplete : Obligations.ConversionsComplete := by
  unfold Obligations.ConversionsComplete
  intro h src f
  exact ⟨short_completes_self (fun _ => rfl), short_completes_self (fun _ => rfl), short_completes_self (fun _ => rfl),
    short_completes_self (fun _ => rfl), short_completes_self (fun _ => rfl), pack_floats_completes h src, fun k => pack_code_completes h src,
    fun k => unpk_completes h src⟩

end Sys2Proof.Machine
end

section
/-! SUPPORT. The device after reset (R387, R401, R403, R411, R414, R421, R425, R427): every table is empty, so each of its registers reads the
value of an entry never written, and the statement about it. -/

namespace Sys2Proof.Machine

open Sys2Proof

/-- After reset each of the four wings is as a wing never touched. -/
theorem reset_wing {w : Nat} (hw : w < 4) : State.reset.wing w = {} := by
  rw [State.wing, List.getD_eq_getElem?_getD, State.reset, List.getElem?_replicate_of_lt hw, Option.getD_some]

/-- After reset every port is as a port never touched. -/
theorem reset_port {p : Nat} (hp : p < 16) : State.reset.port p = {} := by
  rw [State.port, List.getD_eq_getElem?_getD, State.reset, List.getElem?_replicate_of_lt hp, Option.getD_some]

/-- The memories of the device are empty, its mode is the one that R421 gives, no leaf is used and the bucket of tokens is full. -/
theorem reset_inv : State.reset.Inv := ⟨⟨rfl, rfl⟩, ⟨rfl, nofun⟩, le_refl 64, Nat.zero_le _⟩

/-- Nothing is due and no unit issues after reset. -/
theorem reset_choices : State.reset.choices = [] := by decide +kernel

/-- Settles O60: the tables of the reset state are empty, and its other registers are written out. -/
theorem resetLeaves : Obligations.ResetLeaves := by
  unfold Obligations.ResetLeaves
  refine ⟨reset_inv, rfl, rfl, rfl, reset_choices, fun k => ⟨rfl, rfl, rfl, fun q => ⟨rfl, rfl, rfl, rfl, rfl, rfl, rfl⟩⟩,
    ⟨rfl, rfl, rfl, rfl, rfl, rfl, rfl, rfl⟩, fun w hw => ?wing, ⟨rfl, rfl, rfl, rfl, fun _ => rfl⟩, fun p hp => ?port, fun _ => rfl,
    ⟨rfl, rfl, rfl, rfl, rfl, rfl⟩, by decide, ⟨rfl, rfl, rfl, rfl, rfl, rfl, rfl⟩⟩
  case wing =>
    rw [reset_wing hw]
    exact ⟨rfl, rfl, rfl, fun _ _ => rfl, fun _ _ => rfl⟩
  case port =>
    rw [reset_port hp]
    exact ⟨rfl, rfl, rfl⟩

end Sys2Proof.Machine
end

section
/-! SUPPORT. Loads and stores (R90 to R102, R111, R122, R173, R189, R277 to R281; log entries 8 to 11 and 27): the lane form and the GANG form of
each, and the statements about them. -/

namespace Sys2Proof.Machine

open Sys2Proof

/-- Legal operands of a load or a store pass their check. -/
theorem memOperands_ok {i : Issuer} {f : FmtM} {space : Space} {uniform data : Bool} (hbase : baseOk i.tm.nregs space uniform f.a = true)
    (hindex : indexOk i.tm.nregs uniform f.b = true) (hdata : data = true) : memOperands i.tm f space uniform true data = .ok () :=
  ill_ok (by simp only [hbase, hindex, hdata, Bool.not_true, Bool.and_false, Bool.or_false])

/-- The active lanes of an issuing unit are different. -/
theorem Issues.active_nodup {s : State} {i : Issuer} (hi : s.Issues i) (h : Hdr) : (i.active h).Nodup := (lanesOf_nodup hi.2.apart).filter _

/-- A lane load with legal operands completes with the values of its active lanes. -/
theorem laneLoad_completes {ins : Instr} {h : Hdr} {f : FmtM} {space : Space} (hx : ∀ s, exec ins s = s.laneLoad h f space) :
    UnitCompletes ins h
      (fun s i => baseOk i.tm.nregs space false f.a = true ∧ indexOk i.tm.nregs false f.b = true ∧ dataOk i.tm.nregs (sizeBytes f.sz) fileVN f.d = true ∧
        s.LoadOk i f space (i.active h))
      (fun s i t => ∃ vals s1, s.Loaded i f space (i.active h) vals s1 ∧ t = s1.passLate i h.la.toNat (vals.flatMap (fun p => loadLane f.sz f.d p.1 p.2))) := by
  intro s i hi hs ⟨hbase, hindex, hdata, hok⟩
  obtain ⟨vals, s1, hval, hdone⟩ := loadValues_done hok
  refine ⟨_, unit_completes hx hi hs ?_, vals, s1, hdone, rfl⟩
  rw [memOperands_ok hbase hindex hdata, ok_bind, hval]
  rfl

/-- A lane store with legal operands completes with the bytes of its active lanes. -/
theorem laneStore_completes {ins : Instr} {h : Hdr} {f : FmtM} {space : Space} (hx : ∀ s, exec ins s = s.laneStore h f space) :
    UnitCompletes ins h
      (fun s i => baseOk i.tm.nregs space false f.a = true ∧ indexOk i.tm.nregs false f.b = true ∧ dataOk i.tm.nregs (sizeBytes f.sz) fileVNBSI f.d = true ∧
        s.StoreOk i f space (i.active h))
      (fun s i t => ∃ s1, s.Stored i f space (i.active h) s1 ∧ t = s1.passUnit i) := by
  intro s i hi hs ⟨hbase, hindex, hdata, hok⟩
  obtain ⟨hteam, hgang, -⟩ := Issuer.eq hi.1
  obtain ⟨s1, hval, hdone⟩ := storeValues_done hteam hgang (Issues.active_nodup hi h) hok
  refine ⟨_, unit_completes hx hi hs ?_, s1, hdone, rfl⟩
  rw [memOperands_ok hbase hindex hdata, ok_bind, hval]
  rfl

/-- `LDU` with legal operands completes with one value for the gang. -/
theorem ldu_completes (h : Hdr) (f : FmtM) :
    GangCompletes (.ldu h f) h
      (fun s i => baseOk i.tm.nregs f.space true f.a = true ∧ indexOk i.tm.nregs true f.b = true ∧ dataOk i.tm.nregs (sizeBytes f.sz) fileS f.d = true ∧
        s.LoadOk i f f.space [0])
      (fun s i t => ∃ vals s1, s.Loaded i f f.space [0] vals s1 ∧ t = s1.passLate i h.la.toNat (vals.flatMap (fun p => loadScalar f.sz f.d p.2))) := by
  refine gang_completes (fun _ => rfl) (fun s s' i i' hi hg ⟨hbase, hindex, hdata, hok⟩ => ?_)
  obtain ⟨vals, s1, hval, hdone⟩ := loadValues_done hok
  refine ⟨_, ?_, vals, s1, hdone, rfl⟩
  rw [memOperands_ok hbase hindex hdata, ok_bind, hval]
  rfl

/-- `STU` with legal operands completes with one value of the gang. -/
theorem stu_completes (h : Hdr) (f : FmtM) :
    GangCompletes (.stu h f) h
      (fun s i => baseOk i.tm.nregs f.space true f.a = true ∧ indexOk i.tm.nregs true f.b = true ∧ dataOk i.tm.nregs (sizeBytes f.sz) fileSI f.d = true ∧
        s.StoreOk i f f.space [0])
      (fun s i t => ∃ s1, s.Stored i f f.space [0] s1 ∧ t = s1.passUnit i) := by
  refine gang_completes (fun _ => rfl) (fun s s' i i' hi hg ⟨hbase, hindex, hdata, hok⟩ => ?_)
  obtain ⟨hteam, hgang, -⟩ := GangStarts.issues hi hg
  obtain ⟨s1, hval, hdone⟩ := storeValues_done hteam hgang (List.nodup_singleton 0) hok
  refine ⟨_, ?_, s1, hdone, rfl⟩
  rw [memOperands_ok hbase hindex hdata, ok_bind, hval]
  rfl

/-- Settles O26: `LD`, `LDS` and `LDL` are lane loads of three spaces, and `LDU` is the load of the gang. -/
theorem loadsComplete : Obligations.LoadsComplete := by
  unfold Obligations.LoadsComplete
  intro h f lane
  exact ⟨laneLoad_completes (fun _ => rfl), laneLoad_completes (fun _ => rfl), laneLoad_completes (fun _ => rfl), ldu_completes h f⟩

/-- Settles O27: `ST`, `STS` and `STL` are lane stores of three spaces, and `STU` is the store of the gang. -/
theorem storesComplete : Obligations.StoresComplete := by
  unfold Obligations.StoresComplete
  intro h f lane
  exact ⟨laneStore_completes (fun _ => rfl), laneStore_completes (fun _ => rfl), laneStore_completes (fun _ => rfl), stu_completes h f⟩

end Sys2Proof.Machine
end

section
/-! SUPPORT. Named groups (R129 to R138, R326 to R328, R330, R331): what creating, joining, leaving, resetting and reading a group leave when
their checks pass, and the statement about them. -/

namespace Sys2Proof.Machine

open Sys2Proof

theorem exec_gnew (h : Hdr) (f : FmtT) (s : State) : exec (.gnew h f) s = execGnew h f s := rfl

-- GNEW (R130, R131, R326)

section
variable {h : Hdr} {f : FmtT} {s s' : State} {i : Issuer} {w : Wide} (hi : s.Issues i) (hl : scopesGST.contains h.scp = true)
  (hw : s.Starts i h f.imm.toNat s' w) (hd : gOk f.d = true)
include hi hl hw hd

/-- `GNEW` with a free slot gives every performing gang the handle of a new group of the next generation. -/
theorem gnew_creates {k : Nat} (hroom : s'.groupCount < 65536) (hfree : (s'.ctx w.tm.ctx).freeGroup = some k) :
    let gen := (s'.group w.tm.ctx k).gen + 1
    let u := s'.modGroup w.tm.ctx k (fun _ => { gen := gen, used := true, creator := w.p.team })
    ∃ t, PerformsIn (.gnew h f) s s' w.p t ∧ u.WidePassed t w (fun g => ((g.wrG (gIdx f.d) (handleOf k gen)).setCc ccZ false).setCc ccBrk false) := by
  intro gen u
  refine ⟨_, ?_, (Starts.met hi hw).passWide (u := u) rfl _⟩
  rw [PerformsIn, exec_gnew, execGnew, wideOp_starts hi.1 hl hw, illegalOperandIf_bind (by rw [hd]; rfl)]
  simp only [ge_iff_le, Nat.not_le.mpr hroom, if_false, hfree]
  rfl

/-- `GNEW` without a free slot gives every performing gang 0 and Z. -/
theorem gnew_full (hfull : 65536 ≤ s'.groupCount ∨ (s'.ctx w.tm.ctx).freeGroup = none) :
    ∃ t, PerformsIn (.gnew h f) s s' w.p t ∧ s'.WidePassed t w (fun g => ((g.wrG (gIdx f.d) 0).setCc ccZ true).setCc ccBrk false) := by
  have hnone : (if s'.groupCount ≥ 65536 then none else (s'.ctx w.tm.ctx).freeGroup) = none :=
    ite_eq_left_iff.mpr (fun hroom => hfull.resolve_left hroom)
  refine ⟨_, ?_, (Starts.met hi hw).passWide rfl _⟩
  rw [PerformsIn, exec_gnew, execGnew, wideOp_starts hi.1 hl hw, illegalOperandIf_bind (by rw [hd]; rfl)]
  simp only [hnone]
  rfl

end

-- instructions on one group

/-- A handle that names group `k` of the issuing gang's context, in a g register (R129, R325). -/
structure NamesGroup (s : State) (i : Issuer) (op : Operand) (k : Nat) : Prop where
  operand : gOk op = true
  handle  : s.checkHandle i.tm.ctx (i.g.rdG (gIdx op)) = .ok k

/-- The checks of a handle pass. -/
theorem NamesGroup.bind {s : State} {i : Issuer} {op : Operand} {k : Nat} (hn : NamesGroup s i op k) {α : Type} (F : Nat → Except Stop α) :
    (illegalOperandIf (!gOk op) >>= fun _ => s.checkHandle i.tm.ctx (i.g.rdG (gIdx op)) >>= F) = F k := by
  rw [illegalOperandIf_bind (by rw [hn.operand]; rfl), hn.handle, ok_bind]

/-- What `GJOIN` requires beside its handle (R133, R138, R327). -/
structure GjoinChecks (f : FmtT) (s : State) (i : Issuer) (k : Nat) : Prop where
  names    : NamesGroup s i f.a k
  dest     : sOk f.d = true
  slot     : f.imm = 1 → natSrcOk f.b = true ∧ (i.g.rdScalar f.b).toNat ≤ 4095
  stranger : (s.group i.tm.ctx k).member? i.unit.team i.unit.gang = none
  isolated : s.isolated i.tm.launch = true → ∀ m ∈ (s.group i.tm.ctx k).members, m.team = i.unit.team

/-- What `GJOIN` leaves: BRK on a broken group, Z where there is no room or the slot is taken, else the membership (R133, R327). -/
def State.gjoined (s : State) (i : Issuer) (f : FmtT) (k : Nat) : State :=
  let grp := s.group i.tm.ctx k
  let done := fun (u : State) (x : W64) (z brk : Bool) => u.passWith i (fun g => ((g.wrS (sIdx f.d) x).setCc ccZ z).setCc ccBrk brk)
  if grp.broken then done s 0 false true
  else if 4096 ≤ grp.members.length ∨ (f.imm = 1 ∧ ∃ m ∈ grp.members, m.slot = (i.g.rdScalar f.b).toNat) then done s 0 true false
  else
    let first := if grp.phase = 0 then 0 else grp.phase + 1
    let m : Member := { launch := i.tm.launch, team := i.unit.team, gang := i.unit.gang,
                        slot := if f.imm = 1 then (i.g.rdScalar f.b).toNat else grp.freeSlot, from_ := first }
    done (s.modGroup i.tm.ctx k (fun g => { g with joined := true, members := insertMember g.members m })) (BitVec.ofNat 64 first) false false

theorem gjoin_completes (h : Hdr) (f : FmtT) (k : Nat) :
    GangCompletes (.gjoin h f) h (fun s i => GjoinChecks f s i k) (fun s i t => t = s.gjoined i f k) := by
  refine gang_completes (fun _ => rfl) (fun _ s _ i _ _ hc => ⟨_, ?_, rfl⟩)
  have hoperands : (!sOk f.d || (f.imm == 1 && !natSrcOk f.b)) = false := by
    simp only [hc.dest, Bool.not_true, Bool.false_or, Bool.and_eq_false_imp, beq_iff_eq, Bool.not_eq_false']
    exact fun hreq => (hc.slot hreq).1
  have hrange : (f.imm == 1 && decide (4095 < (i.g.rdScalar f.b).toNat)) = false := by
    simp only [Bool.and_eq_false_imp, beq_iff_eq, decide_eq_false_iff_not, not_lt]
    exact fun hreq => (hc.slot hreq).2
  have hstranger : ((s.group i.tm.ctx k).member? i.unit.team i.unit.gang).isSome = false := by rw [hc.stranger]; rfl
  have hisolated : (s.isolated i.tm.launch && (s.group i.tm.ctx k).members.any (fun m => m.team != i.unit.team)) = false := by
    simp only [Bool.and_eq_false_imp, List.any_eq_false, bne_iff_ne, ne_eq, not_not]
    exact hc.isolated
  refine (hc.names.bind _).trans ((illegalOperandIf_bind hoperands _).trans ((illegalOperandIf_bind hrange _).trans
    ((illegalOperandIf_bind hstranger _).trans ?effect)))
  rw [trap_ok hisolated, ok_bind, State.gjoined]
  simp only [ge_iff_le, Bool.or_eq_true, decide_eq_true_eq, Bool.and_eq_true, beq_iff_eq, List.any_eq_true]
  split
  · rfl
  · split <;> rfl

/-- `GLEAVE` (R133, R136, R328). -/
theorem gleave_completes (h : Hdr) (f : FmtT) (k : Nat) :
    GangCompletes (.gleave h f) h (fun s i => NamesGroup s i f.a k ∧ (s.group i.tm.ctx k).active i = true)
      (fun s i t => t = (s.passWith i (fun g => g.setCc ccBrk (s.group i.tm.ctx k).broken)).leaveGroup i.tm.ctx k i.unit.team i.unit.gang) := by
  refine gang_completes (fun _ => rfl) (fun _ s _ i _ _ ⟨hn, hactive⟩ => ⟨_, ?_, rfl⟩)
  exact (hn.bind _).trans (illegalOperandIf_bind (by rw [hactive]; rfl) _)

/-- `GRESET` (R137, R330). -/
theorem greset_completes (h : Hdr) (f : FmtT) (k : Nat) :
    GangCompletes (.greset h f) h (fun s i => NamesGroup s i f.d k)
      (fun s i t =>
        let gen := (s.group i.tm.ctx k).gen + 1
        t = ((s.releaseBroken (s.group i.tm.ctx k).members).modGroup i.tm.ctx k (fun g => { g with gen := gen, broken := false, phase := 0, members := [] })).passWith i
          (fun g => (g.wrG (gIdx f.d) (handleOf k gen)).setCc ccBrk false)) :=
  gang_completes (fun _ => rfl) (fun _ _ _ _ _ _ hn => ⟨_, hn.bind _, rfl⟩)

/-- `GINFO` reads the word that its immediate names (R331). -/
theorem ginfo_completes (h : Hdr) {f : FmtT} (k : Nat) {b : BitVec 8} (hb : f.b = .imm b) :
    GangCompletes (.ginfo h f) h (fun s i => NamesGroup s i f.a k ∧ sOk f.d = true ∧ b.toNat ≤ 2)
      (GangBecomes (fun s i g => (g.wrS (sIdx f.d) (BitVec.ofNat 64 ((s.group i.tm.ctx k).info i.unit.team i.unit.gang b.toNat))).setCc ccBrk (s.group i.tm.ctx k).broken)) := by
  refine gang_completes (fun _ => rfl) (fun _ s _ i hi hg ⟨hn, hd, hword⟩ => ⟨_, ?_, GangStarts.becomes hi hg _⟩)
  have hval : (i.g.rdScalar f.b).toNat = b.toNat := by rw [hb, Gang.rdScalar_imm _ (by omega)]
  have hoperands : (!sOk f.d || !isImm f.b) = false := by rw [hd, hb]; rfl
  have hrange : decide (2 < (i.g.rdScalar f.b).toNat) = false := by rw [hval]; exact decide_eq_false (by omega)
  refine (hn.bind _).trans ((illegalOperandIf_bind hoperands _).trans ((illegalOperandIf_bind hrange _).trans ?_))
  rw [hval]

/-- Settles O32: each instruction passes its checks and has the effect that the statement gives it, `GJOIN` one of three. -/
theorem groupsComplete : Obligations.GroupsComplete := by
  unfold Obligations.GroupsComplete
  intro h f ok
  refine ⟨fun s i s' w hi hl hw hd => ⟨fun k => gnew_creates hi hl hw hd, gnew_full hi hl hw hd⟩, fun k => ?join, fun k => ?leave, fun k => ?reset,
    fun k b hb => ?info⟩
  case join =>
    refine (gjoin_completes h f k).mono (fun s i ⟨⟨hop, hhandle⟩, hd, hslot, hstranger, hisolated⟩ => ⟨⟨hop, hhandle⟩, hd, hslot, hstranger, hisolated⟩)
      (fun s i t ht => ?_)
    subst ht
    refine ⟨fun hb => ?_, fun hb hf => ?_, fun hb hf => ?_⟩
    · exact if_pos hb
    · exact (if_neg (by simp [hb])).trans (if_pos hf)
    · exact (if_neg (by simp [hb])).trans (if_neg hf)
  case leave => exact (gleave_completes h f k).mono (fun s i ⟨⟨hop, hhandle⟩, hactive⟩ => ⟨⟨hop, hhandle⟩, hactive⟩) (fun _ _ _ => id)
  case reset => exact (greset_completes h f k).mono (fun s i ⟨hop, hhandle⟩ => ⟨hop, hhandle⟩) (fun _ _ _ => id)
  case info => exact (ginfo_completes h k hb).mono (fun s i ⟨⟨hop, hhandle⟩, hrest⟩ => ⟨⟨hop, hhandle⟩, hrest⟩) (fun _ _ _ => id)

end Sys2Proof.Machine
end

section
/-! SUPPORT. Tile records (R50 to R63, R300, R304 to R308, R314; log entry 42): what each instruction on a record, on the factor pool and on a
slot leaves when its checks pass, and the statement about them. -/

namespace Sys2Proof.Machine

open Sys2Proof

/-- The record of the t register that D names. -/
def Issuer.tileD (i : Issuer) (f : FmtT) : W128 := i.g.rdT (tIdx f.d)

/-- The chain of a record that is overwritten is whole (R59). -/
def Issuer.Whole (i : Issuer) (f : FmtT) : Prop := 2 ≤ tKind (i.tileD f) → (i.tm.chainOf (i.tileD f)).isSome = true

-- TDEF (R304)

/-- What `TDEF` requires of the operands of each kind, and the record `r` that it makes. -/
def TdefMakes (kind : TdefKind) (fmt : Fmt) (f : FmtT) (i : Issuer) (r : W128) : Prop :=
  match kind with
  | .zero => r = zeroRec fmt
  | .acc => (fmt = .i8 ∨ fmt = .f32 ∨ fmt = .f64) ∧ r = slotRec fmt 0xFFFF
  | .dense =>
    let u := (i.g.rdS (sIdx f.a)).toNat
    sOk f.a = true ∧ (fmt = .l6 → sSrcOk f.b = true) ∧ u < 2 ^ 24 ∧ u % 256 = 0 ∧ u + setBytes fmt 32 ≤ i.tm.spadSize ∧
      r = mkRec 1 32 fmt 0 u 0 0xFFFF 0 (if fmt = .l6 then bits (i.g.rdScalar f.b).toNat 0 8 else 0)

/-- `TDEF` puts the record in its register and returns the chain that the old one owned. -/
theorem tdef_completes (h : Hdr) (kind : TdefKind) (fmt : Fmt) (f : FmtT) (r : W128) :
    GangCompletes (.tdef h kind fmt f) h
      (fun _ i => tOk f.d = true ∧ i.tileStall [f.d] [] = .ok () ∧ i.Whole f ∧ TdefMakes kind fmt f i r)
      (fun s i t => t = s.writeTile i (tIdx f.d) r (i.tm.owned (i.tileD f))) := by
  refine gang_completes (fun _ => rfl) (fun _ s _ i _ _ ⟨hd, hstall, hwhole, hmakes⟩ => ⟨_, ?_, rfl⟩)
  have howned := ownedBy_ok (reg := tIdx f.d) hwhole
  unfold Issuer.tileD at howned
  simp only [hd, hstall, howned, Bool.not_true, ill_ok, ok_bind]
  cases kind with
  | zero => rw [hmakes, Issuer.tileD]
  | acc =>
    obtain ⟨hfmt, rfl⟩ := hmakes
    refine illegalOperandIf_bind ?_ _
    rcases hfmt with rfl | rfl | rfl <;> rfl
  | dense =>
    obtain ⟨ha, hb, hlow, halign, hfits, rfl⟩ := hmakes
    refine (illegalOperandIf_bind ?operands _).trans (illegalOperandIf_bind ?range _)
    case operands => simpa [ha] using hb
    case range => simp only [halign, Nat.not_le.mpr hlow, Nat.not_lt.mpr hfits, decide_false, bne_self_eq_false, Bool.or_false]

-- TLDR and TSTR (R305)

/-- The address that `TLDR` and `TSTR` name, and the sixteen bytes there as an access. -/
def Issuer.tileAddr (i : Issuer) (f : FmtT) : Nat := (i.g.rdS (sIdx f.a) + f.imm.signExtend 64).toNat
def Issuer.tileAcc (i : Issuer) (f : FmtT) : List LaneAcc := [{ lane := 0, va := i.tileAddr f, n := 16 }]

/-- Legal operands of `TLDR` and `TSTR`, which name global memory or the scratchpad, and no stall. -/
structure TilePlace (f : FmtT) (gl : Bool) (i : Issuer) : Prop where
  space  : f.c = .imm (if gl then 1 else 0)
  tile   : tOk f.d = true
  base   : sOk f.a = true
  align  : i.tileAddr f % 16 = 0
  steady : i.tileStall [f.d] [] = .ok ()

/-- The address of `TLDR` and `TSTR` passes its checks. -/
theorem TilePlace.address {f : FmtT} {gl : Bool} {i : Issuer} (hp : TilePlace f gl i) : tileAddress i f = .ok (gl, i.tileAddr f) := by
  have hspace : (f.c != .imm 0 && f.c != .imm 1) = false := by rw [hp.space]; cases gl <;> rfl
  have hgl : (f.c == .imm 1) = gl := by rw [hp.space]; cases gl <;> rfl
  have halign : ((i.g.rdS (sIdx f.a) + f.imm.signExtend 64).toNat % 16 != 0) = false := by rw [bne_eq_false_iff_eq]; exact hp.align
  simp only [tileAddress, hspace, hgl, hp.tile, hp.base, halign, Bool.not_true, Bool.or_self, ill_ok, trap_ok, ok_bind]
  rfl

/-- Sixteen bytes that lie below 2^56 pass the check of the global space (R90). -/
theorem tileAcc_space {f : FmtT} {i : Issuer} (hend : i.tileAddr f + 16 ≤ 2 ^ 56) : globalSpaceOk (i.tileAcc f) = .ok () :=
  globalSpaceOk_ok (fun x hx => by rw [List.mem_singleton.mp hx]; exact hend)

/-- What a `TLDR` reads: `r`, with the state `u` that reading leaves. -/
def TldrReads (f : FmtT) (gl : Bool) (s : State) (i : Issuer) (r : W128) (u : State) : Prop :=
  if gl then i.tileAddr f + 16 ≤ 2 ^ 56 ∧ ∃ vals, s.globalLoad i .weak .team (i.tileAcc f) = .ok (vals, u) ∧ r = BitVec.ofNat 128 (vals.headD (0, 0)).2
  else i.tileAddr f + 16 ≤ i.tm.spadSize ∧ i.tm.pendingAt (i.tileAddr f) 16 = false ∧ u = s ∧ r = BitVec.ofNat 128 (i.tm.spadNat (i.tileAddr f) 16)

/-- `TLDR` puts the record that it reads in its register; the chain of the old one is returned, unless the new one owns it. -/
theorem tldr_completes (h : Hdr) (f : FmtT) (gl : Bool) (r : W128) (u : State) :
    GangCompletes (.tldr h f) h
      (fun s i => TilePlace f gl i ∧ i.Whole f ∧ i.tm.recOk false r = true ∧ TldrReads f gl s i r u)
      (fun _ i t => t = u.writeTile i (tIdx f.d) r
        (if (i.tm.owned r).headD 0xFFFF = (i.tm.owned (i.tileD f)).headD 0xFFFE then [] else i.tm.owned (i.tileD f))) := by
  refine gang_completes (fun _ => rfl) (fun _ s _ i _ _ ⟨hp, hwhole, hrec, hreads⟩ => ⟨_, ?_, rfl⟩)
  have howned := ownedBy_ok (reg := tIdx f.d) hwhole
  unfold Issuer.tileD at howned
  simp only [hp.address, hp.steady, howned, ok_bind]
  cases gl with
  | true =>
    obtain ⟨hend, vals, hload, rfl⟩ := hreads
    have hspace := tileAcc_space hend
    unfold Issuer.tileAcc at hspace hload
    simp only [if_true, hspace, hload, ok_bind, tileTrap_ok, hrec, Bool.not_true]
    rfl
  | false =>
    obtain ⟨hend, hpend, rfl, rfl⟩ := hreads
    simp only [Bool.false_eq_true, if_false, trap_ok, Nat.not_lt.mpr hend, decide_false, hpend, ok_bind, tileTrap_ok, hrec, Bool.not_true]
    rfl

/-- The memory that a `TSTR` may write: in global memory `u` is the state that its store leaves. -/
def TstrWrites (f : FmtT) (gl : Bool) (s : State) (i : Issuer) (u : State) : Prop :=
  if gl then i.tileAddr f + 16 ≤ 2 ^ 56 ∧ s.globalStore i .weak (i.tileAcc f) (fun _ => leBytes 16 (i.tileD f).toNat) = .ok u
  else i.tileAddr f + 16 ≤ i.tm.spadSize ∧ i.tm.guarded (i.tileAddr f) 16 = false ∧ i.tm.pendingAt (i.tileAddr f) 16 = false

/-- `TSTR` stores the sixteen bytes of the record. -/
theorem tstr_completes (h : Hdr) (f : FmtT) (gl : Bool) (u : State) :
    GangCompletes (.tstr h f) h (fun s i => TilePlace f gl i ∧ TstrWrites f gl s i u)
      (fun s i t => t = if gl then u.passUnit i
        else (s.passUnit i).modTeam i.unit.team (fun t => t.setSpad (i.tileAddr f) (leBytes 16 (i.tileD f).toNat))) := by
  refine gang_completes (fun _ => rfl) (fun _ s _ i _ _ ⟨hp, hwrites⟩ => ⟨_, ?_, rfl⟩)
  simp only [hp.address, hp.steady, ok_bind]
  cases gl with
  | true =>
    obtain ⟨hend, hstore⟩ := hwrites
    have hspace := tileAcc_space hend
    unfold Issuer.tileAcc at hspace hstore
    unfold Issuer.tileD at hstore
    simp only [if_true, hspace, hstore, ok_bind]
  | false =>
    obtain ⟨hend, hguard, hpend⟩ := hwrites
    simp only [Bool.false_eq_true, if_false, spadWrite_ok hend hguard hpend, ok_bind]
    rfl

-- TGET (R306)

/-- `TGET` reads a part of a record, late. -/
theorem tget_completes (h : Hdr) (part : TgetPart) (f : FmtT) :
    GangCompletes (.tget h part f) h (fun _ i => sOk f.d = true ∧ tOk f.a = true ∧ i.tileStall [f.a] [] = .ok ())
      (fun s i t => t = s.passLate i h.la.toNat [(.s (sIdx f.d), tgetValue part (i.g.rdT (tIdx f.a)))]) := by
  refine gang_completes (fun _ => rfl) (fun _ s _ i _ _ ⟨hd, ha, hstall⟩ => ⟨_, ?_, rfl⟩)
  rw [illegalOperandIf_bind (by rw [hd, ha]; rfl), hstall, ok_bind]

-- TPOOL (R57, R308)

/-- A pool that fits leaves room for every smaller one. -/
theorem poolFits_anti {size block m n : Nat} (hmn : m ≤ n) (hn : poolFits size block n = true) : poolFits size block m = true := by
  have hlinks : linkBytes m ≤ linkBytes n := Nat.mul_le_mul_right _ (Nat.div_le_div_right (by omega))
  have hblocks : m * block ≤ n * block := Nat.mul_le_mul_right _ hmn
  simp only [poolFits, decide_eq_true_eq] at hn ⊢
  omega

/-- The most blocks that fit are counted by trying every number. -/
theorem poolFits_count {size block n : Nat} (hmax : n ≤ 4095) (hfits : poolFits size block n = true) (hmore : poolFits size block (n + 1) = false) :
    ((List.range 4096).filter (fun k => poolFits size block (k + 1))).length = n := by
  have hiff : ∀ k, poolFits size block (k + 1) = decide (k < n) := by
    intro k
    by_cases hk : k < n
    · rw [poolFits_anti hk hfits, decide_eq_true hk]
    · rw [decide_eq_false hk, ← Bool.not_eq_true]
      exact fun hc => absurd (poolFits_anti (show n + 1 ≤ k + 1 by omega) hc) (by rw [hmore]; nofun)
  have hsplit : (4096 : Nat) = n + (4096 - n) := by omega
  rw [hsplit, List.range_add, List.filter_append, List.filter_eq_self.mpr (fun k hk => by rw [hiff]; exact decide_eq_true (List.mem_range.mp hk)),
    List.filter_eq_nil_iff.mpr (fun k hk => ?_), List.append_nil, List.length_range]
  obtain ⟨j, -, rfl⟩ := List.mem_map.mp hk
  rw [hiff, decide_eq_true_eq]
  omega

/-- The region that a `TPOOL` names. -/
def Issuer.poolBase (i : Issuer) (f : FmtT) : Nat := (i.g.rdS (sIdx f.a)).toNat
def Issuer.poolBytes (i : Issuer) (f : FmtT) : Nat := (i.g.rdS (sIdx f.b)).toNat

/-- The link table of a pool of `n` blocks: each block links to the next, the last to none, and zeros follow (R57). -/
def linkTable (n : Nat) : List Byte :=
  (List.range n).flatMap (fun k => leBytes 2 (if k + 1 < n then k + 1 else 0xFFFF)) ++ List.replicate (linkBytes n - 2 * n) 0

/-- What `TPOOL` requires: no block in use and, unless the pool is dropped, a legal region in which `n` blocks fit and no more. -/
structure TpoolChecks (fmt : Fmt) (f : FmtT) (n : Nat) (i : Issuer) : Prop where
  base   : sOk f.a = true
  size   : sOk f.b = true
  unused : ∀ p, i.tm.pool = some p → p.free.length = p.count
  room   : i.poolBytes f ≠ 0 → 0 < n ∧ n ≤ 4095 ∧ poolFits (i.poolBytes f) (colBlock fmt) n = true ∧ poolFits (i.poolBytes f) (colBlock fmt) (n + 1) = false ∧
    i.poolBase f % 256 = 0 ∧ i.poolBase f + i.poolBytes f ≤ i.tm.spadSize ∧
    ({ i.tm with pool := none } : Team).guarded (i.poolBase f) (linkBytes n) = false ∧ i.tm.pendingAt (i.poolBase f) (linkBytes n) = false

/-- The state that `TPOOL` leaves: no pool, or one of `n` free blocks in order. -/
def State.pooled (s : State) (i : Issuer) (fmt : Fmt) (f : FmtT) (n : Nat) : State :=
  if i.poolBytes f = 0 then (s.passUnit i).modTeam i.unit.team (fun t => { t with pool := none })
  else (s.passUnit i).modTeam i.unit.team (fun t => { t.setSpad (i.poolBase f) (linkTable n) with
    pool := some { base := i.poolBase f, fmt := fmt, block := colBlock fmt, count := n, free := List.range n } })

theorem tpool_completes (h : Hdr) (fmt : Fmt) (f : FmtT) (n : Nat) :
    GangCompletes (.tpool h fmt f) h (fun _ i => TpoolChecks fmt f n i) (fun s i t => t = s.pooled i fmt f n) := by
  refine gang_completes (fun _ => rfl) (fun _ s _ i _ _ hc => ⟨_, ?_, rfl⟩)
  have hunused : i.tm.poolInUse = false := by
    unfold Team.poolInUse
    cases hp : i.tm.pool with
    | none => rfl
    | some p => exact bne_eq_false_iff_eq.mpr (hc.unused p hp)
  refine (illegalOperandIf_bind (by rw [hc.base, hc.size]; rfl) _).trans ((illegalOperandIf_bind hunused _).trans ?_)
  by_cases hsize : i.poolBytes f = 0
  · rw [State.pooled, if_pos hsize]
    exact if_pos hsize
  · refine (if_neg hsize).trans ?_
    obtain ⟨hsome, hmax, hfits, hmore, halign, hend, hguard, hpend⟩ := hc.room hsize
    have hcount := poolFits_count hmax hfits hmore
    have hregion : (i.poolBase f % 256 != 0 || decide (n = 0) || decide (4095 < n)) = false := by
      simp only [halign, Nat.pos_iff_ne_zero.mp hsome, Nat.not_lt.mpr hmax, bne_self_eq_false, decide_false, Bool.or_self]
    have hlanding : i.tm.landingCheck [(i.poolBase f, linkBytes n)] = .ok () := landing_ok (fun r hr => by rw [List.mem_singleton.mp hr]; exact hpend)
    have hbounds : decide (i.tm.spadSize < i.poolBase f + i.poolBytes f) = false := decide_eq_false (Nat.not_lt.mpr hend)
    unfold Issuer.poolBase Issuer.poolBytes at *
    simp only [hcount, hregion, hbounds, hguard, hlanding, ill_ok, trap_ok, ok_bind]
    exact congrArg Except.ok (if_neg hsize).symm

-- TZERO, TFREE and ACCREL (R59, R63, R307, R314)

/-- The slot of the record that D names, if it has one. -/
def Issuer.tileSlot (i : Issuer) (f : FmtT) : Option Nat := (srcSlots (i.tileD f)).head?

/-- The state that `TZERO` leaves: the zero record, and the slot or the chain of the old one given back. -/
def State.tileZeroed (s : State) (i : Issuer) (f : FmtT) : State :=
  let z := zeroRec (tFmt (i.tileD f))
  match i.tileSlot f with
  | some n => (s.writeTile i (tIdx f.d) z []).modTeam i.unit.team (fun t => t.dropSlot (tFmt (i.tileD f)) n)
  | none => s.writeTile i (tIdx f.d) z (i.tm.owned (i.tileD f))

theorem tzero_completes (h : Hdr) (f : FmtT) :
    GangCompletes (.tzero h f) h
      (fun _ i => tOk f.d = true ∧ i.tileStall [f.d] (if tLoc (i.tileD f) = 1 then [] else [f.d]) = .ok () ∧ i.tm.recOk true (i.tileD f) = true ∧
        ∀ n, i.tileSlot f = some n → i.tm.slotWait n = .ok ())
      (fun s i t => t = s.tileZeroed i f) := by
  refine gang_completes (fun _ => rfl) (fun _ s _ i _ _ ⟨hd, hstall, hrec, hwait⟩ => ⟨_, ?_, rfl⟩)
  unfold Issuer.tileSlot at hwait
  unfold Issuer.tileD at *
  simp only [hd, hstall, tile_ok hd hrec, Bool.not_true, ill_ok, ok_bind, State.tileZeroed, Issuer.tileSlot, Issuer.tileD]
  cases hs : srcSlots (i.g.rdT (tIdx f.d)) with
  | nil => rfl
  | cons n l =>
    rw [hs] at hwait
    simp only [hwait n rfl, ok_bind]
    rfl

/-- `TFREE` leaves the zero record and gives back the chain that the old one owned. -/
theorem tfree_completes (h : Hdr) (f : FmtT) :
    GangCompletes (.tfree h f) h
      (fun _ i => tOk f.d = true ∧ i.tileStall [f.d] [f.d] = .ok () ∧ i.tm.recOk true (i.tileD f) = true ∧ tLoc (i.tileD f) ≠ 1)
      (fun s i t => t = s.writeTile i (tIdx f.d) (zeroRec (tFmt (i.tileD f))) (i.tm.owned (i.tileD f))) := by
  refine gang_completes (fun _ => rfl) (fun _ s _ i _ _ ⟨hd, hstall, hrec, hloc⟩ => ⟨_, ?_, rfl⟩)
  rw [← beq_eq_false_iff_ne] at hloc
  unfold Issuer.tileD at *
  simp only [hd, hstall, tile_ok hd hrec, tileTrap_ok hloc, Bool.not_true, ill_ok, ok_bind]

/-- The state that `ACCREL` leaves: the slot, if there is one, is given back, and the record names none. -/
def State.slotReleased (s : State) (i : Issuer) (f : FmtT) : State :=
  match i.tileSlot f with
  | none => s.passUnit i
  | some n => (s.passWith i (fun g => g.wrT (tIdx f.d) (slotRec (tFmt (i.tileD f)) 0xFFFF))).modTeam i.unit.team (fun t => t.dropSlot (tFmt (i.tileD f)) n)

theorem accrel_completes (h : Hdr) (f : FmtT) :
    GangCompletes (.accrel h f) h
      (fun _ i => tOk f.d = true ∧ i.tileStall [f.d] [] = .ok () ∧ i.tm.recOk false (i.tileD f) = true ∧ tLoc (i.tileD f) = 1 ∧
        ∀ n, i.tileSlot f = some n → i.tm.slotWait n = .ok ())
      (fun s i t => t = s.slotReleased i f) := by
  refine gang_completes (fun _ => rfl) (fun _ s _ i _ _ ⟨hd, hstall, hrec, hloc, hwait⟩ => ⟨_, ?_, rfl⟩)
  rw [← bne_eq_false_iff_eq] at hloc
  unfold Issuer.tileSlot at hwait
  unfold Issuer.tileD at *
  simp only [hd, hstall, tile_ok hd hrec, tileTrap_ok hloc, Bool.not_true, ill_ok, ok_bind, State.slotReleased, Issuer.tileSlot, Issuer.tileD]
  cases hs : srcSlots (i.g.rdT (tIdx f.d)) with
  | nil => rfl
  | cons n l =>
    rw [hs] at hwait
    simp only [hwait n rfl, ok_bind]
    rfl

/-- Settles O41: each instruction passes its checks and has the effect that the statement gives it. -/
theorem tileRecordsComplete : Obligations.TileRecordsComplete := by
  unfold Obligations.TileRecordsComplete
  intro h kind fmt part f d old whole at_ acc place slots
  have hplace : ∀ gl i, place i gl → TilePlace f gl i := fun gl i ⟨hspace, hd, ha, halign, hstall⟩ => ⟨hspace, hd, ha, halign, hstall⟩
  refine ⟨tdef_completes h kind fmt f, fun gl r u => ?load, fun gl u => ?store, ?get, fun n => ?pool, ?zero, tfree_completes h f, ?release⟩
  case load => exact (tldr_completes h f gl r u).mono (fun s i ⟨hp, hrest⟩ => ⟨hplace gl i hp, hrest⟩) (fun _ _ _ => id)
  case store => exact (tstr_completes h f gl u).mono (fun s i ⟨hp, hrest⟩ => ⟨hplace gl i hp, hrest⟩) (fun _ _ _ => id)
  case get =>
    refine (tget_completes h part f).mono (fun _ _ => id) (fun s i t ht => ?_)
    cases part <;> exact ht
  case pool =>
    refine (tpool_completes h fmt f n).mono (fun s i ⟨ha, hb, hunused, hroom⟩ => ⟨ha, hb, hunused, hroom⟩) (fun s i t ht => ⟨fun hz => ?_, fun hz => ?_⟩)
    · exact ht.trans (if_pos hz)
    · exact ht.trans (if_neg hz)
  case zero =>
    refine (tzero_completes h f).mono (fun _ _ => id) (fun s i t ht => ⟨fun n hn => ?_, fun hn => ?_⟩)
    · rw [ht, State.tileZeroed, show i.tileSlot f = some n from hn]
      rfl
    · rw [ht, State.tileZeroed, show i.tileSlot f = none from hn]
      rfl
  case release =>
    refine (accrel_completes h f).mono (fun _ _ => id) (fun s i t ht => ⟨fun hn => ?_, fun n hn => ?_⟩)
    · rw [ht, State.slotReleased, show i.tileSlot f = none from hn]
    · rw [ht, State.slotReleased, show i.tileSlot f = some n from hn]
      rfl

end Sys2Proof.Machine
end

section
/-! SUPPORT. Matrix and rank operations (R65, R87, R299, R300, R302, R309 to R313, R315 to R320; log entries 21, 37 and 42): the checks that the
instructions share, what each leaves at issue, what a ready operation leaves at its completion, and the statement about them. -/

namespace Sys2Proof.Machine

open Sys2Proof

/-- A check that passes hands its value on. -/
theorem bind_of_ok {α β : Type} {x : Except Stop α} {a : α} (hx : x = .ok a) (F : α → Except Stop β) : (x >>= F) = F a := by
  rw [hx, ok_bind]

-- operands (R302)

/-- A t operand with a consistent record and no stall. -/
structure OneTile (k11 : Bool) (o : Operand) (read : List Operand) (i : Issuer) : Prop where
  operand : tOk o = true
  steady  : i.tileStall [o] read = .ok ()
  record  : i.tm.recOk k11 (i.g.rdT (tIdx o)) = true

/-- The checks of one t operand pass. -/
theorem OneTile.bind {k11 : Bool} {o : Operand} {read : List Operand} {i : Issuer} (h1 : OneTile k11 o read i) {α : Type} (F : W128 → Except Stop α) :
    (illegalOperandIf (!tOk o) >>= fun _ => i.tileStall [o] read >>= fun _ => i.tile k11 o >>= F) = F (i.g.rdT (tIdx o)) := by
  rw [illegalOperandIf_bind (by rw [h1.operand]; rfl), h1.steady, ok_bind, tile_ok h1.operand h1.record, ok_bind]

/-- A source and a destination with consistent records and no stall. -/
structure TwoTiles (f : FmtT) (k11 : Bool) (i : Issuer) : Prop where
  srcOk  : tOk f.a = true
  dstOk  : tOk f.d = true
  steady : i.tileStall [f.a, f.d] [f.a] = .ok ()
  src    : i.tm.recOk k11 (i.g.rdT (tIdx f.a)) = true
  dst    : i.tm.recOk true (i.g.rdT (tIdx f.d)) = true

theorem TwoTiles.pair {f : FmtT} {k11 : Bool} {i : Issuer} (h2 : TwoTiles f k11 i) :
    i.tilePair k11 f = .ok (i.g.rdT (tIdx f.a), i.g.rdT (tIdx f.d)) := by
  simp only [Issuer.tilePair, h2.steady, tileAt_ok h2.srcOk h2.src, tileAt_ok h2.dstOk h2.dst, h2.srcOk, h2.dstOk, Bool.not_true, Bool.or_self,
    ill_ok, ok_bind]

/-- Two sources and a destination with consistent records and no stall. -/
structure ThreeTiles (f : FmtT) (i : Issuer) : Prop where
  aOk    : tOk f.a = true
  bOk    : tOk f.b = true
  dOk    : tOk f.d = true
  steady : i.tileStall [f.a, f.b, f.d] [f.a, f.b] = .ok ()
  a      : i.tm.recOk false (i.g.rdT (tIdx f.a)) = true
  b      : i.tm.recOk false (i.g.rdT (tIdx f.b)) = true
  d      : i.tm.recOk true (i.g.rdT (tIdx f.d)) = true

theorem ThreeTiles.triple {f : FmtT} {i : Issuer} (h3 : ThreeTiles f i) :
    i.tiles f = .ok (i.g.rdT (tIdx f.a), i.g.rdT (tIdx f.b), i.g.rdT (tIdx f.d)) := by
  simp only [Issuer.tiles, h3.steady, tileAt_ok h3.aOk h3.a, tileAt_ok h3.bOk h3.b, tileAt_ok h3.dOk h3.d, h3.aOk, h3.bOk, h3.dOk, Bool.not_true,
    Bool.or_self, ill_ok, ok_bind]

/-- An operation of the issuing gang, in its open batch (R155). -/
def Issuer.slotOp (i : Issuer) (op : MatOp) : MatOp := { op with gangs := [(i.unit.gang, i.g.openBatch)] }

-- slots (R62, R312, R313)

/-- `ACCZ` takes a slot for its destination and is issued. -/
theorem accz_completes (h : Hdr) (f : FmtT) (fmt : Fmt) (n : Nat) (new : Bool) :
    GangCompletes (.accz h f) h
      (fun s i => OneTile false f.d [] i ∧ tLoc (i.tileD f) = 1 ∧ s.placeDense i.tm (i.tileD f) (tFmt (i.tileD f)) = .ok (.dense fmt n new))
      (fun s i t => t = ((s.passUnit i).modTeam i.unit.team (fun t => t.takePlace (.dense fmt n new))).issueMat i.unit.team
        (i.slotOp { gangs := [], instr := .accz h f, recs := [i.tileD f], slots := [n],
                    dst := if new then .record (slotRec (tFmt (i.tileD f)) n) else .keep, treg := if new then some (tIdx f.d) else none })) := by
  refine gang_completes (fun _ => rfl) (fun _ s _ i _ _ ⟨hone, hloc, hplace⟩ => ⟨_, (hone.bind _).trans ?_, rfl⟩)
  rw [← bne_eq_false_iff_eq] at hloc
  unfold Issuer.tileD at *
  simp only [tileTrap_ok hloc, hplace, ok_bind]
  rfl

/-- `ACCWR` is issued with the elements of its active lanes. -/
theorem accwr_completes (h : Hdr) (fmt : Fmt) (f : FmtT) (n : Nat) :
    GangCompletes (.accwr h fmt f) h
      (fun _ i => OneTile false f.d [] i ∧ tLoc (i.tileD f) = 1 ∧ tSlot (i.tileD f) = some n ∧ accwrOk (tFmt (i.tileD f)) fmt = true ∧
        vRunOk i.tm.nregs (fmt == .f64) 32 f.a = true)
      (fun s i t => t = (s.passUnit i).issueMat i.unit.team
        (i.slotOp { gangs := [], instr := .accwr h fmt f, recs := [i.tileD f], slots := [n],
                    words := BitVec.ofNat 64 (laneMask (i.active h)) :: (List.range 1024).map (fun k =>
                      if (i.active h).contains (k / 32) then BitVec.ofNat 64 (i.g.runElem (fmt == .f64) f.a (k % 32) (k / 32)) else 0) })) := by
  refine gang_completes (fun _ => rfl) (fun _ s _ i _ _ ⟨hone, hloc, hslot, hfmt, hrun⟩ => ⟨_, (hone.bind _).trans ?_, rfl⟩)
  rw [← bne_eq_false_iff_eq] at hloc
  unfold Issuer.tileD at *
  simp only [tileTrap_ok hloc, hslot, hfmt, hrun, Bool.not_true, Bool.or_self, ill_ok, ok_bind]
  rfl

/-- What `ACCRD` requires of the record that it reads, and of the exceptions of its rows (R75, R313). -/
structure AccrdChecks (h : Hdr) (fmt : Fmt) (f : FmtT) (i : Issuer) : Prop where
  tile   : OneTile false f.a [f.a] i
  kind   : tKind (i.g.rdT (tIdx f.a)) < 2
  slot   : tKind (i.g.rdT (tIdx f.a)) = 1 → tLoc (i.g.rdT (tIdx f.a)) = 1 ∧ slotFmtOk (i.g.rdT (tIdx f.a)) fmt = true
  run    : vRunOk i.tm.nregs (fmt == .f64) 32 f.d = true
  masked : ∀ l ∈ i.active h, enabledExc i.g.fpmode (rowExc (i.tm.accRow (i.g.rdT (tIdx f.a)) fmt l)) = false

/-- `ACCRD` gives each active lane its row, late. -/
theorem accrd_completes (h : Hdr) (fmt : Fmt) (f : FmtT) :
    GangCompletes (.accrd h fmt f) h (fun _ i => AccrdChecks h fmt f i)
      (fun s i t => t = (s.modGang i.unit.team i.unit.gang (fun g =>
          g.orFlags ((i.active h).foldl (fun e l => e ||| rowExc (i.tm.accRow (i.g.rdT (tIdx f.a)) fmt l)) 0))).passLate i h.la.toNat
        ((i.active h).flatMap (fun l => accWrites fmt (Operand.idx f.d) l (i.tm.accRow (i.g.rdT (tIdx f.a)) fmt l)))) := by
  refine gang_completes (fun _ => rfl) (fun _ s _ i _ _ hc => ⟨_, (hc.tile.bind _).trans ?_, rfl⟩)
  have hslot := hc.slot
  have hexc := laneExc_ok i.g i.unit.gang (i.active h) (fun l => (0, rowExc (i.tm.accRow (i.g.rdT (tIdx f.a)) fmt l))) hc.masked
  have hkind : decide (2 ≤ tKind (i.g.rdT (tIdx f.a))) = false := decide_eq_false (Nat.not_le.mpr hc.kind)
  have hplane : (tKind (i.g.rdT (tIdx f.a)) == 1 && tLoc (i.g.rdT (tIdx f.a)) == 0) = false := by
    rw [Bool.and_eq_false_imp, beq_iff_eq]
    exact fun hk => by rw [(hslot hk).1]; rfl
  have hoperands : ((tKind (i.g.rdT (tIdx f.a)) == 1 && !slotFmtOk (i.g.rdT (tIdx f.a)) fmt) || !vRunOk i.tm.nregs (fmt == .f64) 32 f.d) = false := by
    rw [hc.run, Bool.not_true, Bool.or_false, Bool.and_eq_false_imp, beq_iff_eq]
    exact fun hk => by rw [(hslot hk).2]; rfl
  simp only [tileTrap_ok hplane, tileTrap_ok hkind, ill_ok hoperands, hexc, ok_bind]

-- CTURN (R309)

/-- What the plane-set form of `CTURN` requires of its registers and of the place it names. -/
structure TurnPlanesChecks (fmt : Fmt) (f : FmtT) (i : Issuer) : Prop where
  base   : sOk f.d = true
  min    : 4 ≤ f.imm.toNat
  max    : f.imm.toNat ≤ 32
  fours  : f.imm.toNat % 4 = 0
  run    : vRunOk i.tm.nregs (fmt == .f64) f.imm.toNat f.a = true
  align  : (i.g.rdS (sIdx f.d)).toNat % 16 = 0
  inside : (i.g.rdS (sIdx f.d)).toNat + setBytes fmt f.imm.toNat ≤ i.tm.spadSize
  open_  : i.tm.guarded (i.g.rdS (sIdx f.d)).toNat (setBytes fmt f.imm.toNat) = false
  landed : i.tm.pendingAt (i.g.rdS (sIdx f.d)).toNat (setBytes fmt f.imm.toNat) = false

/-- `CTURN` to the scratchpad is issued with the elements of its active lanes. -/
theorem cturn_planes_completes (h : Hdr) (fmt : Fmt) (tr : Bool) {f : FmtT} (hd : ∀ k, f.d ≠ .t k) :
    GangCompletes (.cturn h fmt tr f) h (fun _ i => TurnPlanesChecks fmt f i)
      (fun s i t => t = (s.passUnit i).issueMat i.unit.team
        (i.slotOp { gangs := [], instr := .cturn h fmt tr f, recs := [], writes := [((i.g.rdS (sIdx f.d)).toNat, setBytes fmt f.imm.toNat)],
                    words := BitVec.ofNat 64 (i.g.rdS (sIdx f.d)).toNat :: (List.range (32 * f.imm.toNat)).map (fun k =>
                      if (i.active h).contains (k / f.imm.toNat) then
                        BitVec.ofNat 64 (i.g.runElem (fmt == .f64) f.a (k % f.imm.toNat) (k / f.imm.toNat) % 2 ^ fmtWidth fmt) else 0) })) := by
  refine gang_completes (F := fun s i => s.turnPlanes i h fmt tr f) (fun s => ?form) (fun _ s _ i _ _ hc => ⟨_, ?_, rfl⟩)
  case form =>
    change execCturn h fmt tr f s = _
    unfold execCturn
    congr 1
    funext s i
    split
    · rename_i k hk
      exact absurd hk (hd k)
    · rfl
  have hoperands : (!sOk f.d || decide (f.imm.toNat < 4) || decide (32 < f.imm.toNat) || f.imm.toNat % 4 != 0 ||
      !vRunOk i.tm.nregs (fmt == .f64) f.imm.toNat f.a) = false := by
    simp only [hc.base, hc.run, hc.fours, Nat.not_lt.mpr hc.min, Nat.not_lt.mpr hc.max, decide_false, Bool.not_true, bne_self_eq_false, Bool.or_self]
  have halign := bne_eq_false_iff_eq.mpr hc.align
  simp only [State.turnPlanes, hoperands, halign, spadWrite_ok hc.inside hc.open_ hc.landed, ill_ok, trap_ok, ok_bind]
  rfl

/-- The elements of a factor's columns in the active lanes. -/
def Issuer.turnCols (i : Issuer) (h : Hdr) (fmt : Fmt) (f : FmtT) (o : Operand) : List W64 :=
  (List.range (32 * f.imm.toNat)).map (fun q =>
    if (i.active h).contains (q % 32) then BitVec.ofNat 64 (i.g.runElem false o (q / 32) (q % 32) % 2 ^ fmtWidth fmt) else (0 : W64))

/-- What the factor form of `CTURN` requires, with the chain that it takes. -/
structure TurnFactorsChecks (fmt : Fmt) (f : FmtT) (place : Place) (i : Issuer) : Prop where
  tile  : OneTile true f.d [f.d] i
  low   : fmt = .bf16 ∨ fmt = .f16 ∨ fmt = .f32
  min   : 0 < f.imm.toNat
  max   : f.imm.toNat ≤ 16
  runU  : vRunOk i.tm.nregs false f.imm.toNat f.a = true
  runV  : vRunOk i.tm.nregs false f.imm.toNat f.b = true
  block : ∀ p, i.tm.pool = some p → colBlock fmt ≤ p.block
  place : i.tm.placeChain fmt f.imm.toNat = .ok place

/-- `CTURN` to a chain of factors is issued with the elements of both factors. -/
theorem cturn_factors_completes (h : Hdr) (fmt : Fmt) {f : FmtT} (place : Place) {k : BitVec 8} (hd : f.d = .t k) :
    GangCompletes (.cturn h fmt false f) h (fun _ i => TurnFactorsChecks fmt f place i)
      (fun s i t => t = s.issueRank i (.cturn h fmt false f) (tIdx f.d) (i.tileD f) [] (i.turnCols h fmt f f.a ++ i.turnCols h fmt f f.b) place) := by
  refine gang_completes (F := fun s i => s.turnFactors i h fmt false f) (fun s => ?form) (fun _ s _ i _ _ hc => ⟨_, (hc.tile.bind _).trans ?_, rfl⟩)
  case form =>
    change execCturn h fmt false f s = _
    unfold execCturn
    rw [hd]
  have hlow : (fmt == .bf16 || fmt == .f16 || fmt == .f32) = true := by rcases hc.low with rfl | rfl | rfl <;> rfl
  have hblock : (match i.tm.pool with | some p => decide (p.block < colBlock fmt) | none => false) = false := by
    cases hp : i.tm.pool with
    | none => rfl
    | some p => exact decide_eq_false (Nat.not_lt.mpr (hc.block p hp))
  have hoperands : (false || !true || decide (f.imm.toNat = 0) || decide (16 < f.imm.toNat) || !vRunOk i.tm.nregs false f.imm.toNat f.a ||
      !vRunOk i.tm.nregs false f.imm.toNat f.b) = false := by
    simp only [hc.runU, hc.runV, Nat.pos_iff_ne_zero.mp hc.min, Nat.not_lt.mpr hc.max, decide_false, Bool.not_true, Bool.or_self]
  exact (bind_of_ok (tileTrap_ok (by rw [hlow, Bool.true_and]; exact hblock)) _).trans ((bind_of_ok (ill_ok (by rw [hlow]; exact hoperands)) _).trans
    (bind_of_ok hc.place _))

-- products and sums (R315, R316, R318, R319)

/-- The record that a gang's operand A names. -/
def Issuer.tileA (i : Issuer) (f : FmtT) : W128 := i.g.rdT (tIdx f.a)

/-- The record that a gang's operand B names. -/
def Issuer.tileB (i : Issuer) (f : FmtT) : W128 := i.g.rdT (tIdx f.b)

/-- Where `TMUL` puts the product of two records. -/
def State.mulPlace (s : State) (i : Issuer) (f : FmtT) : Except Stop Place :=
  if tKind (i.tileA f) = 0 ∨ tKind (i.tileB f) = 0 then .ok (.zero (tFmt (i.tileA f)))
  else if tKind (i.tileA f) = 1 ∧ tKind (i.tileB f) = 1 then s.placeDense i.tm (i.tileD f) (accFmt (tFmt (i.tileA f)))
  else i.tm.placeChain (tFmt (i.tileA f)) (if tKind (i.tileA f) = 1 then tRank (i.tileB f) else if tKind (i.tileB f) = 1 then tRank (i.tileA f)
    else min (tRank (i.tileA f)) (tRank (i.tileB f)))

theorem tmul_completes (h : Hdr) (f : FmtT) (place : Place) :
    GangCompletes (.tmul h f) h
      (fun s i => ThreeTiles f i ∧ tFmt (i.tileA f) = tFmt (i.tileB f) ∧ tLoc (i.tileA f) = 0 ∧ tLoc (i.tileB f) = 0 ∧ s.mulPlace i f = .ok place)
      (fun s i t => t = s.issueRank i (.tmul h f) (tIdx f.d) (i.tileD f) [i.tileA f, i.tileB f] [] place) := by
  refine gang_completes (fun _ => rfl) (fun _ s _ i _ _ ⟨hthree, hfmt, hlocA, hlocB, hplace⟩ => ⟨_, ?_, rfl⟩)
  unfold State.mulPlace at hplace
  unfold Issuer.tileA Issuer.tileB Issuer.tileD at *
  have hoperands : (tFmt (i.g.rdT (tIdx f.a)) != tFmt (i.g.rdT (tIdx f.b)) || tLoc (i.g.rdT (tIdx f.a)) != 0 || tLoc (i.g.rdT (tIdx f.b)) != 0) = false := by
    rw [hfmt, hlocA, hlocB, bne_self_eq_false]
    rfl
  simp only [hthree.triple, ill_ok hoperands, ok_bind, Bool.or_eq_true, Bool.and_eq_true, decide_eq_true_eq, hplace]

/-- Where `TADD` puts the sum of two records. -/
def State.addPlace (s : State) (i : Issuer) (f : FmtT) : Except Stop Place :=
  if tKind (i.tileA f) = 1 ∨ tKind (i.tileB f) = 1 then s.placeDense i.tm (i.tileD f) (accFmt (tFmt (i.tileA f)))
  else if tKind (i.tileA f) = 0 ∧ tKind (i.tileB f) = 0 then .ok (.zero (tFmt (i.tileA f)))
  else if 32 < tRank (i.tileA f) + tRank (i.tileB f) then s.placeDense i.tm (i.tileD f) (accFmt (tFmt (i.tileA f)))
  else i.tm.placeChain (tFmt (i.tileA f)) (tRank (i.tileA f) + tRank (i.tileB f))

theorem tadd_completes (h : Hdr) (f : FmtT) (place : Place) :
    GangCompletes (.tadd h f) h (fun s i => ThreeTiles f i ∧ taddFmtOk (i.tileA f) (i.tileB f) = true ∧ s.addPlace i f = .ok place)
      (fun s i t => t = s.issueRank i (.tadd h f) (tIdx f.d) (i.tileD f) [i.tileA f, i.tileB f] [] place) := by
  refine gang_completes (fun _ => rfl) (fun _ s _ i _ _ ⟨hthree, hfmt, hplace⟩ => ⟨_, ?_, rfl⟩)
  unfold State.addPlace at hplace
  unfold Issuer.tileA Issuer.tileB Issuer.tileD at *
  simp only [hthree.triple, hfmt, Bool.not_true, ill_ok, ok_bind, Bool.or_eq_true, Bool.and_eq_true, decide_eq_true_eq, beq_iff_eq, hplace]

theorem tscl_completes (h : Hdr) (f : FmtT) (place : Place) :
    GangCompletes (.tscl h f) h
      (fun s i => TwoTiles f false i ∧ sOk f.b = true ∧ s.placeLike i.tm (i.tileD f) (i.tileA f) = .ok place)
      (fun s i t => t = s.issueRank i (.tscl h f) (tIdx f.d) (i.tileD f) [i.tileA f] [i.g.rdS (sIdx f.b)] place) := by
  refine gang_completes (fun _ => rfl) (fun _ s _ i _ _ ⟨htwo, hs, hplace⟩ => ⟨_, ?_, rfl⟩)
  unfold Issuer.tileA Issuer.tileD at *
  simp only [htwo.pair, hs, hplace, Bool.not_true, ill_ok, ok_bind]

theorem ttrn_completes (h : Hdr) (f : FmtT) (place : Place) :
    GangCompletes (.ttrn h f) h (fun s i => TwoTiles f false i ∧ s.placeLike i.tm (i.tileD f) (i.tileA f) = .ok place)
      (fun s i t => t = s.issueRank i (.ttrn h f) (tIdx f.d) (i.tileD f) [i.tileA f] [] place) := by
  refine gang_completes (fun _ => rfl) (fun _ s _ i _ _ ⟨htwo, hplace⟩ => ⟨_, ?_, rfl⟩)
  unfold Issuer.tileA Issuer.tileD at *
  simp only [htwo.pair, hplace, ok_bind]

/-- `TDENSE` of a slot onto its own register passes; else it is issued. -/
theorem tdense_completes (h : Hdr) (f : FmtT) (place : Place) :
    GangCompletes (.tdense h f) h
      (fun s i => TwoTiles f true i ∧ (tLoc (i.tileA f) = 1 ∧ f.a = f.d ∨ s.placeDense i.tm (i.tileD f) (accFmt (tFmt (i.tileA f))) = .ok place))
      (fun s i t => t = if tLoc (i.tileA f) = 1 ∧ f.a = f.d then s.passUnit i
        else s.issueRank i (.tdense h f) (tIdx f.d) (i.tileD f) [i.tileA f] [] place) := by
  refine gang_completes (fun _ => rfl) (fun _ s _ i _ _ ⟨htwo, hplace⟩ => ⟨_, ?_, rfl⟩)
  unfold Issuer.tileA Issuer.tileD at *
  simp only [htwo.pair, ok_bind, Bool.and_eq_true, decide_eq_true_eq, beq_iff_eq]
  by_cases hown : tLoc (i.g.rdT (tIdx f.a)) = 1 ∧ f.a = f.d
  · rw [if_pos hown, if_pos hown]
  · rw [if_neg hown, if_neg hown, hplace.resolve_left hown, ok_bind]

/-- What `TMV` requires of its tile and of its v registers (R316). -/
structure TmvChecks (f : FmtT) (i : Issuer) : Prop where
  tile : OneTile false f.a [f.a] i
  dV   : ∃ k, f.d = .v k
  bV   : ∃ k, f.b = .v k
  d    : laneSrcOk i.tm.nregs (tFmt (i.tileA f) == .f64) f.d = true
  b    : laneSrcOk i.tm.nregs (tFmt (i.tileA f) == .f64) f.b = true
  fmt  : ¬ (tLoc (i.tileA f) = 1 ∧ tFmt (i.tileA f) = .i8)

/-- An INT32 slot is no operand of an operation whose result is a number (R316, R317). -/
theorem int_slot_eq_false {r : W128} (hr : ¬ (tLoc r = 1 ∧ tFmt r = .i8)) : (tLoc r == 1 && tFmt r == .i8) = false := by
  rw [Bool.and_eq_false_imp, beq_iff_eq, beq_eq_false_iff_ne]
  exact fun hl hf => hr ⟨hl, hf⟩

theorem tmv_completes (h : Hdr) (f : FmtT) :
    GangCompletes (.tmv h f) h (fun _ i => TmvChecks f i)
      (fun s i t => t = (s.passUnit i).issueMat i.unit.team
        ((i.slotOp { gangs := [], instr := .tmv h f, recs := [i.tileA f],
                     words := BitVec.ofNat 64 (laneMask (i.active h)) :: (List.range 32).map (fun l =>
                       if (i.active h).contains l then BitVec.ofNat 64 (i.g.rdReg (tFmt (i.tileA f) == .f64) f.b l) else 0) }).reading i.tm
          [i.tileA f])) := by
  refine gang_completes (fun _ => rfl) (fun _ s _ i _ _ hc => ⟨_, (hc.tile.bind _).trans ?_, rfl⟩)
  obtain ⟨_, ⟨kd, hkd⟩, ⟨kb, hkb⟩, hd, hb, hfmt⟩ := hc
  rw [hkd] at hd
  rw [hkb] at hb
  unfold Issuer.tileA at *
  simp only [hkd, hkb, hd, hb, int_slot_eq_false hfmt, Bool.not_true, Bool.or_self, ill_ok, ok_bind]
  rfl

-- rounding and norm (R317, R320, R321)

/-- What `TRND` requires, with the slot it may take. -/
structure RoundChecks (f : FmtT) (n : Nat) (s : State) (i : Issuer) : Prop where
  tile : OneTile true f.d [f.d] i
  kind : tKind (i.tileD f) ≠ 1
  sreg : sOk f.b = true
  tau  : tauOk ((i.g.rdS (sIdx f.b)).toNat % 2 ^ 32) = true
  room : if tKind (i.tileD f) = 0 then i.tm.ccBusy i.unit.gang = false
    else (∀ r ∈ i.tm.srcRuns (i.tileD f), i.tm.pendingAt r.1 r.2 = false) ∧ s.freeSlot i.tm .f32 = some n

/-- The rounding of a low-rank tile that may go to slot `n`. -/
def Issuer.roundOp (i : Issuer) (h : Hdr) (abs : Bool) (f : FmtT) (n : Nat) : MatOp :=
  { (i.slotOp { gangs := [], instr := .trnd h abs f, recs := [i.tileD f], words := [i.g.rdS (sIdx f.b)] }).reading i.tm [i.tileD f] with
    treg := some (tIdx f.d), dst := .round n, slots := [n], wblocks := i.tm.owned (i.tileD f), writes := i.tm.srcRuns (i.tileD f) }

/-- `TRND` clears DNS for a zero tile and is issued for a low-rank one. -/
theorem trnd_completes (h : Hdr) (abs : Bool) (f : FmtT) (n : Nat) :
    GangCompletes (.trnd h abs f) h (fun s i => RoundChecks f n s i)
      (fun s i t => t = if tKind (i.tileD f) = 0 then s.passWith i (fun g => g.setCc ccDns false)
        else ((s.passUnit i).modTeam i.unit.team (fun t => t.takeSlot .f32 n)).issueMat i.unit.team (i.roundOp h abs f n)) := by
  refine gang_completes (fun _ => rfl) (fun _ s _ i _ _ hc => ⟨_, (hc.tile.bind _).trans ?_, rfl⟩)
  obtain ⟨_, hkind, hsreg, htau, hroom⟩ := hc
  rw [← beq_eq_false_iff_ne] at hkind
  unfold Issuer.roundOp
  unfold Issuer.tileD at *
  simp only [tileTrap_ok hkind, hsreg, htau, Bool.not_true, ill_ok, ok_bind]
  by_cases hz : tKind (i.g.rdT (tIdx f.d)) = 0
  · rw [if_pos hz] at hroom
    simp only [hz, hroom, if_true, decide_true, Bool.and_false, Bool.false_eq_true, if_false]
  · rw [if_neg hz] at hroom
    simp only [hz, if_false, decide_false, Bool.false_and, Bool.false_eq_true, landing_ok hroom.1, hroom.2, ok_bind]
    rfl

theorem tnorm_completes (h : Hdr) (f : FmtT) :
    GangCompletes (.tnorm h f) h
      (fun _ i => OneTile false f.a [f.a] i ∧ sOk f.d = true ∧ ¬ (tLoc (i.tileA f) = 1 ∧ tFmt (i.tileA f) = .i8) ∧
        ∀ r ∈ i.tm.srcRuns (i.tileA f), i.tm.pendingAt r.1 r.2 = false)
      (fun s i t => t = s.passLate i h.la.toNat [(.s (sIdx f.d), BitVec.ofNat 64
        (if tKind (i.tileA f) = 0 then 0 else frobenius (tFmt (i.tileA f))
          (i.tm.values i.tm.spadByte (roundNum (resSpec (tFmt (i.tileA f)))) (i.tm.owned (i.tileA f)) (i.tileA f))))]) := by
  refine gang_completes (fun _ => rfl) (fun _ s _ i _ _ ⟨hone, hd, hfmt, hpending⟩ => ⟨_, (hone.bind _).trans ?_, rfl⟩)
  unfold Issuer.tileA at *
  have hlanded : (i.tm.srcRuns (i.g.rdT (tIdx f.a))).any (fun r => i.tm.pendingAt r.1 r.2) = false := by
    rw [List.any_eq_false]
    exact fun r hr => by rw [hpending r hr]; decide
  simp only [hd, int_slot_eq_false hfmt, hlanded, Bool.not_true, Bool.or_self, ill_ok, ok_bind, Bool.false_eq_true, if_false]

-- MMA (R87, R310, R311)

/-- The record that an operand of the representative names. -/
def Wide.tileRec (w : Wide) (o : Operand) : W128 := w.repIssuer.g.rdT (tIdx o)

/-- What `MMA` requires of its tiles, of the registers that it writes and of its format words. -/
structure MmaChecks (h : Hdr) (f : FmtT) (w : Wide) : Prop where
  a      : tOk f.a = true
  b      : tOk f.b = true
  d      : tOk f.d = true
  steady : w.repIssuer.tileStall [f.a, f.b, f.d] [] = .ok ()
  free   : ∀ g ∈ w.gangs, w.tm.tregBusy g (tIdx f.d) = false
  whole  : ∀ r ∈ [w.tileRec f.a, w.tileRec f.b, w.tileRec f.d], w.tm.recOk false r = true
  planes : ∀ r ∈ [w.tileRec f.a, w.tileRec f.b], tKind r < 2 ∧ tLoc r = 0
  kind   : tKind (w.tileRec f.d) = 1
  loc    : tLoc (w.tileRec f.d) = 1
  olds   : ∀ r ∈ w.mmaOlds f.d, 2 ≤ tKind r → (w.tm.chainOf r).isSome = true
  word   : w.wordOk f.c = true
  agree  : dissent w.scope (w.voters h f.c) = []
  fields : ∀ v ∈ w.voters h f.c, wordFieldsOk (w.tileRec f.a) (w.tileRec f.b) (w.tileRec f.d) v.word = true

/-- A product of `MMA` is read from plane sets. -/
theorem planes_trap_eq_false {r : W128} (hr : tKind r < 2 ∧ tLoc r = 0) : (decide (2 ≤ tKind r) || tLoc r != 0) = false := by
  rw [hr.2, decide_eq_false (Nat.not_le.mpr hr.1)]
  rfl

/-- The checks of `MMA` pass: with no active lane it goes on, else it needs a place and is issued. -/
theorem MmaChecks.mma {h : Hdr} {f : FmtT} {w : Wide} (hc : MmaChecks h f w) (s : State) (ins : Instr) :
    s.mma ins h f w = if w.voters h f.c = [] then .ok (s.passAll w.p)
      else s.placeDense w.tm (w.tileRec f.d) (tFmt (w.tileRec f.d)) >>= fun place =>
        let (n, new) := match place with | .dense _ n new => (n, new) | _ => (0, false)
        .ok (((s.passAll w.p).modTeam w.p.team (fun t => t.takePlace place)).issueMat w.p.team
          (w.mmaOp ins f (w.voters h f.c) (w.tileRec f.a) (w.tileRec f.b) (w.tileRec f.d) n new)) := by
  have hfree : (w.gangs.any (fun g => w.tm.tregBusy g (tIdx f.d))) = false := by
    rw [List.any_eq_false]
    exact fun g hg => by rw [hc.free g hg]; decide
  have holds : ((w.mmaOlds f.d).any (fun r => decide (2 ≤ tKind r) && (w.tm.chainOf r).isNone)) = false := by
    simp only [List.any_eq_false, Bool.and_eq_true, decide_eq_true_eq, not_and, Bool.not_eq_true, ← Option.not_isSome, Bool.not_eq_false']
    exact hc.olds
  have hfields : ((w.voters h f.c).any (fun v => !wordFieldsOk (w.tileRec f.a) (w.tileRec f.b) (w.tileRec f.d) v.word)) = false := by
    rw [List.any_eq_false]
    exact fun v hv => by rw [hc.fields v hv]; decide
  obtain ⟨hwa, hwb, hwd⟩ : w.tm.recOk false (w.tileRec f.a) = true ∧ w.tm.recOk false (w.tileRec f.b) = true ∧ w.tm.recOk false (w.tileRec f.d) = true := by
    simpa using hc.whole
  have hpa := planes_trap_eq_false (hc.planes (w.tileRec f.a) (by simp))
  have hpb := planes_trap_eq_false (hc.planes (w.tileRec f.b) (by simp))
  have hslot : (tKind (w.tileRec f.d) != 1 || tLoc (w.tileRec f.d) != 1) = false := by
    rw [hc.kind, hc.loc]
    rfl
  have ha : w.repIssuer.tileAt false f.a = .ok (w.tileRec f.a) := tileAt_ok hc.a hwa
  have hb : w.repIssuer.tileAt false f.b = .ok (w.tileRec f.b) := tileAt_ok hc.b hwb
  have hd : w.repIssuer.tileAt false f.d = .ok (w.tileRec f.d) := tileAt_ok hc.d hwd
  unfold State.mma
  simp only [hc.steady, hc.a, hc.b, hc.d, hfree, ha, hb, hd, hpa, hpb, hslot, holds, hc.word, hc.agree, hfields, tileTrap_ok, ill_ok, Bool.true_and,
    Bool.not_true, Bool.or_self, Bool.false_eq_true, if_true, if_false, ok_bind] <;> rfl

/-- `MMA` passes where no lane is active, and else is issued with the slot that its product takes. -/
theorem mma_completes {h : Hdr} {f : FmtT} {s s' : State} {i : Issuer} {w : Wide} (hi : s.Issues i) (hl : scopesGST.contains h.scp = true)
    (hw : s.Starts i h f.imm.toNat s' w) (hc : MmaChecks h f w) (fmt : Fmt) (n : Nat) (new : Bool) :
    (w.voters h f.c = [] → PerformsIn (.mma h f) s s' w.p (s'.passAll w.p)) ∧
    (w.voters h f.c ≠ [] → s'.placeDense w.tm (w.tileRec f.d) (tFmt (w.tileRec f.d)) = .ok (.dense fmt n new) →
      PerformsIn (.mma h f) s s' w.p (((s'.passAll w.p).modTeam w.p.team (fun t => t.takePlace (.dense fmt n new))).issueMat w.p.team
        (w.mmaOp (.mma h f) f (w.voters h f.c) (w.tileRec f.a) (w.tileRec f.b) (w.tileRec f.d) n new))) := by
  have hexec : exec (.mma h f) s = s'.settle w.p (s'.mma (.mma h f) h f w) := wideOp_starts hi.1 hl hw _
  rw [hc.mma] at hexec
  refine ⟨fun hnone => ?_, fun hsome hplace => ?_⟩
  · rw [PerformsIn, hexec, if_pos hnone, settle_ok]
  · rw [PerformsIn, hexec, if_neg hsome, hplace, ok_bind, settle_ok]

-- completion (R155, R299)

theorem matrixOpComplete_next {s : State} {team k : Nat} {t : Team} {o : MatOp} (ht : s.team? team = some t) (ho : Tab.find? t.mops k = some o)
    (hready : t.matReady k o = true) :
    let rd := fun a => (Tab.find? (s.mixBytes t o).1 a).getD (t.spadByte a)
    exec (.matrixOpComplete team k) s = .next (((s.mixBytes t o).2.countSkips t.core o rd).modTeam team (fun t => t.completeMat k o rd)) := by
  change execMatrixOpComplete team k s = _
  simp only [execMatrixOpComplete, ht, ho, hready, Bool.not_true, Bool.false_eq_true, if_false]

/-- Settles O43: at issue each operation passes its checks and takes its destination, and a ready one completes. -/
theorem matrixOperationsComplete : Obligations.MatrixOperationsComplete := by
  unfold Obligations.MatrixOperationsComplete
  intro h fmt tr abs f place n new A B D three two one issued slotOp
  have hone : ∀ k11 o read i, one k11 o read i → OneTile k11 o read i := fun _ _ _ _ ⟨h1, h2, h3⟩ => ⟨h1, h2, h3⟩
  have htwo : ∀ k11 i, two k11 i → TwoTiles f k11 i := fun _ _ ⟨h1, h2, h3, h4, h5⟩ => ⟨h1, h2, h3, h4, h5⟩
  have hthree : ∀ i, three i → ThreeTiles f i := fun _ ⟨h1, h2, h3, h4, h5, h6, h7⟩ => ⟨h1, h2, h3, h4, h5, h6, h7⟩
  refine ⟨?mma, ?accz, ?accwr, ?accrd, fun hd => ?planes, fun k hd => ?factors, ?tmul, ?tadd, ?tscl, ?ttrn, ?tdense, ?tmv, ?trnd, ?tnorm,
    fun s team k t o ht ho hready => matrixOpComplete_next ht ho hready⟩
  case mma =>
    intro s i s' w hi hl hw i' vs h1 h2 h3 h4 h5 h6 h7 h8 h9 h10 h11 h12 h13
    exact mma_completes hi hl hw ⟨h1, h2, h3, h4, h5, h6, h7, h8, h9, h10, h11, h12, h13⟩ fmt n new
  case accz => exact (accz_completes h f fmt n new).mono (fun _ i ⟨h1, hrest⟩ => ⟨hone _ _ _ i h1, hrest⟩) (fun _ _ _ => id)
  case accwr => exact (accwr_completes h fmt f n).mono (fun _ i ⟨h1, hrest⟩ => ⟨hone _ _ _ i h1, hrest⟩) (fun _ _ _ => id)
  case accrd =>
    exact (accrd_completes h fmt f).mono (fun _ i ⟨h1, hkind, hslot, hrun, hmasked⟩ => ⟨hone _ _ _ i h1, hkind, hslot, hrun, hmasked⟩)
      (fun _ _ _ => id)
  case planes =>
    exact (cturn_planes_completes h fmt tr hd).mono (fun _ i ⟨h1, h2, h3, h4, h5, h6, h7, h8, h9⟩ => ⟨h1, h2, h3, h4, h5, h6, h7, h8, h9⟩)
      (fun _ _ _ => id)
  case factors =>
    exact (cturn_factors_completes h fmt place hd).mono (fun _ i ⟨h1, h2, h3, h4, h5, h6, h7, h8⟩ => ⟨hone _ _ _ i h1, h2, h3, h4, h5, h6, h7, h8⟩)
      (fun _ _ _ => id)
  case tmul =>
    refine (tmul_completes h f place).mono (fun s i ⟨h3, hfmt, hlocA, hlocB, hplace⟩ => ⟨hthree i h3, hfmt, hlocA, hlocB, ?_⟩) (fun _ _ _ => id)
    rw [State.mulPlace, apply_ite (· = Except.ok place), apply_ite (· = Except.ok place), Except.ok.injEq, eq_comm (b := place)]
    exact hplace
  case tadd =>
    refine (tadd_completes h f place).mono (fun s i ⟨h3, hfmt, hplace⟩ => ⟨hthree i h3, hfmt, ?_⟩) (fun _ _ _ => id)
    rw [State.addPlace, apply_ite (· = Except.ok place), apply_ite (· = Except.ok place), apply_ite (· = Except.ok place), Except.ok.injEq,
      eq_comm (b := place)]
    exact hplace
  case tscl => exact (tscl_completes h f place).mono (fun _ i ⟨h2, hrest⟩ => ⟨htwo _ i h2, hrest⟩) (fun _ _ _ => id)
  case ttrn => exact (ttrn_completes h f place).mono (fun _ i ⟨h2, hrest⟩ => ⟨htwo _ i h2, hrest⟩) (fun _ _ _ => id)
  case tdense =>
    exact (tdense_completes h f place).mono (fun _ i ⟨h2, hrest⟩ => ⟨htwo _ i h2, hrest⟩)
      (fun _ _ _ ht => ⟨fun hown => ht.trans (if_pos hown), fun hown => ht.trans (if_neg hown)⟩)
  case tmv =>
    exact (tmv_completes h f).mono (fun _ i ⟨h1, hd, hb, hdok, hbok, hfmt⟩ => ⟨hone _ _ _ i h1, hd, hb, hdok, hbok, hfmt⟩) (fun _ _ _ => id)
  case trnd =>
    exact (trnd_completes h abs f n).mono (fun _ i ⟨h1, hkind, hs, htau, hroom⟩ => ⟨hone _ _ _ i h1, hkind, hs, htau, hroom⟩)
      (fun _ _ _ ht => ⟨fun hz => ht.trans (if_pos hz), fun hz => ht.trans (if_neg hz)⟩)
  case tnorm => exact (tnorm_completes h f).mono (fun _ i ⟨h1, hrest⟩ => ⟨hone _ _ _ i h1, hrest⟩) (fun _ _ _ => id)

end Sys2Proof.Machine
end

section
/-! SUPPORT. What engines, collectives and trigger actions do by themselves (R94, R103, R153, R162, R164 to R167, R170, R342, R345; log
entries 22, 23 and 38): one lemma per event, and the statement about them. -/

namespace Sys2Proof.Machine

open Sys2Proof

-- segments (R94, R103, R158, R162)

/-- A segment behind a skipped one with its bytes is skipped too. -/
theorem engineLand_behind {s : State} {team op seg : Nat} {t : Team} {o : EngOp} {q : Seg} (hop : s.engOp? team op = some (t, o))
    (hseg : o.segs.find? (fun q => q.ord == seg) = some q) (hfree : o.blocked q = false) (hbehind : o.behind q = true) :
    exec (.engineLand team op seg) s = .next (s.segSkipped team op q) := by
  change execEngineLand team op seg s = _
  simp [execEngineLand, hop, hseg, State.canLand, hfree, hbehind]

/-- A segment that no earlier one holds back is tried. -/
theorem engineLand_tried {s : State} {team op seg : Nat} {t : Team} {o : EngOp} {q : Seg} (hop : s.engOp? team op = some (t, o))
    (hseg : o.segs.find? (fun q => q.ord == seg) = some q) (hfree : o.blocked q = false) (hbehind : o.behind q = false) :
    (∀ s' e, s.trySeg team t q = .done s' e → exec (.engineLand team op seg) s = .next (s'.segDone team op q e)) ∧
    (∀ p, s.trySeg team t q = .fault p → exec (.engineLand team op seg) s = .next (s.segSkipped team op q)) ∧
    (s.trySeg team t q = .bad → exec (.engineLand team op seg) s = .next (s.segSkipped team op q)) := by
  change (∀ s' e, _ → execEngineLand team op seg s = _) ∧ (∀ p, _ → execEngineLand team op seg s = _) ∧ (_ → execEngineLand team op seg s = _)
  refine ⟨fun s' e htry => ?_, fun p htry => ?_, fun htry => ?_⟩ <;>
    simp [execEngineLand, hop, hseg, State.canLand, hfree, hbehind, htry]

/-- A fix-up list of one segment is replayed: the segment is performed, or fails with FAULT. -/
theorem fixupReplay_one {s : State} {team op : Nat} {t : Team} {o : EngOp} {q : Seg} (hop : s.engOp? team op = some (t, o))
    (hready : s.fixReady team t o = true) (hfix : o.fix = [q]) :
    (∀ s' e, s.trySeg team t q = .done s' e → exec (.fixupReplay team op) s = .next (s'.segDone team op q e)) ∧
    (∀ p, s.trySeg team t q = .fault p → exec (.fixupReplay team op) s = .next (s.segDone team op q errFault)) ∧
    (s.trySeg team t q = .bad → exec (.fixupReplay team op) s = .next (s.segDone team op q errFault)) := by
  have hreplay : exec (.fixupReplay team op) s = s.replayFix team op [q] := by
    change execFixupReplay team op s = _
    simp [execFixupReplay, hop, hready, hfix, sortSegs]
  rw [hreplay]
  refine ⟨fun s' e htry => ?_, fun p htry => ?_, fun htry => ?_⟩ <;> simp [State.replayFix, hop, htry]

-- completed operations (R13, R153, R289, R342)

/-- A finished operation that arrives makes its arrival, and notifies. -/
theorem engineArrival_next {s : State} {team op : Nat} {t : Team} {o : EngOp} (hop : s.engOp? team op = some (t, o)) (hfin : o.finished = true)
    (harr : o.arrives = true) :
    exec (.engineArrival team op) s =
      .next (((s.modTeam team (fun t => t.opArrives op o)).countDone o.counter).notifyEnd (s.ctx t.ctx).asid o) := by
  change execEngineArrival team op s = _
  simp [execEngineArrival, hop, hfin, harr]

/-- A yielded gang resumes at its continuation where its copy ended without FAULT, POISON or RANGE. -/
theorem copyYieldResume_next {s : State} {team op : Nat} {t : Team} {o : EngOp} {a : W64} (hop : s.engOp? team op = some (t, o))
    (hfin : o.finished = true) (hcont : o.cont = some a) (herr : errTraps o.err = false) (hh : (t.gang o.gang).handler = false) :
    exec (.copyYieldResume team op) s = .next
      ((((s.modTeam team (fun t => { t with ops := Tab.del t.ops op })).countDone o.counter).modGang team o.gang
        (fun g => g.goTo g.liveSlices a)).dropL1 t.core) := by
  change execCopyYieldResume team op s = _
  simp [execCopyYieldResume, hop, hcont, hfin, hh, herr]

-- collectives (R164 to R167, R201, R383)

/-- The collective that is the first to wait is granted its staging. -/
theorem collStagingGrant_next {s : State} {id : Nat} {c : Coll} {t : Team} (hc : Tab.find? s.colls id = some c) (ht : s.team? c.team = some t)
    (hgrant : s.grantable id c = true) :
    exec (.collStagingGrant id) s = .next
      (((({ s with colls := Tab.modify s.colls id (fun c => { c with granted := true }) } : State).collStart id c t).collCheck id).collHeld id c) := by
  change execCollStagingGrant id s = _
  simp [execCollStagingGrant, hc, ht, hgrant]

/-- A granted collective ends with TIMEOUT, at once or when its saved team is restored. -/
theorem collTimeout_next {s : State} {id : Nat} {c : Coll} {t : Team} (hc : Tab.find? s.colls id = some c) (ht : s.team? c.team = some t)
    (hgranted : c.granted = true) (hfresh : c.expired = false) :
    (t.status ≠ .saved → exec (.collTimeout id) s = .next (s.collEnd id c errTimeout)) ∧
    (t.status = .saved → exec (.collTimeout id) s = .next { s with colls := Tab.modify s.colls id (fun c => { c with expired := true }) }) := by
  change (_ → execCollTimeout id s = _) ∧ (_ → execCollTimeout id s = _)
  refine ⟨fun hstatus => ?_, fun hstatus => ?_⟩ <;> simp [execCollTimeout, hc, ht, hgranted, hfresh, hstatus]

/-- A chunk for no context that has a slot is discarded. -/
theorem chunkArrival_stray {s : State} {c : Chunk} (hctx : s.slotOfAsid c.ctx = none) : exec (.chunkArrival c) s = .next s := by
  change execChunkArrival c s = _
  simp [execChunkArrival, hctx]

/-- A chunk of an older epoch is discarded. -/
theorem chunkArrival_old {s : State} {c : Chunk} {k : Nat} (hctx : s.slotOfAsid c.ctx = some k) (hold : c.epoch < (s.ring k c.group).epoch) :
    exec (.chunkArrival c) s = .next s := by
  change execChunkArrival c s = _
  simp [execChunkArrival, hctx, hold]

/-- A chunk of a newer epoch is held where there is room for it. -/
theorem chunkArrival_newer {s : State} {c : Chunk} {k : Nat} (hctx : s.slotOfAsid c.ctx = some k) (hnew : (s.ring k c.group).epoch < c.epoch) :
    (s.chunks.length < 256 → exec (.chunkArrival c) s = .next { s with chunks := s.chunks ++ [{ c with ctx := k }] }) ∧
    (1024 ≤ s.chunks.length → exec (.chunkArrival c) s = .next s) := by
  change (_ → execChunkArrival c s = _) ∧ (_ → execChunkArrival c s = _)
  refine ⟨fun hroom => ?_, fun hfull => ?_⟩
  · simp [execChunkArrival, hctx, hnew, Nat.lt_asymm hnew, hroom]
  · simp [execChunkArrival, hctx, hnew, Nat.lt_asymm hnew, hfull, show ¬ s.chunks.length < 256 by omega]

/-- A chunk of a collective that stands here is taken, or held until the grant. -/
theorem chunkArrival_named {s : State} {c : Chunk} {k id : Nat} {x : Coll} (hctx : s.slotOfAsid c.ctx = some k)
    (hepoch : c.epoch = (s.ring k c.group).epoch) (hx : List.find? (fun p => chunkNames { c with ctx := k } p.2) s.colls = some (id, x)) :
    exec (.chunkArrival c) s = .next (if x.granted then s.collTake id { c with ctx := k }
      else { s with chunks := s.chunks ++ [{ c with ctx := k }] }) := by
  change execChunkArrival c s = _
  simp only [execChunkArrival, hctx, hepoch, Nat.lt_irrefl, if_false]
  simp only [← hepoch, hx]

/-- A chunk of no collective that stands here is discarded where that one has ended, and else held. -/
theorem chunkArrival_unnamed {s : State} {c : Chunk} {k : Nat} (hctx : s.slotOfAsid c.ctx = some k)
    (hepoch : c.epoch = (s.ring k c.group).epoch) (hx : List.find? (fun p => chunkNames { c with ctx := k } p.2) s.colls = none) :
    exec (.chunkArrival c) s = .next (if c.seq < (s.ring k c.group).seq then s
      else { s with chunks := s.chunks ++ [{ c with ctx := k }] }) := by
  change execChunkArrival c s = _
  simp only [execChunkArrival, hctx, hepoch, Nat.lt_irrefl, if_false]
  simp only [← hepoch, hx]

-- trigger actions (R103, R170, R345)

/-- A word that is performed moves the action past it. -/
theorem actRun_done {s s' : State} {t : Trigger} {n : Nat} {e : Byte} (hlen : t.len ≠ 0) (hw : s.actWord t t.src t.dst = .done s' e) :
    s.actRun t (n + 1) = s'.actRun (t.past e) n := by
  rw [State.actRun, if_neg hlen, hw]

/-- A word whose page faults is put on the fix-up list. -/
theorem actRun_skip {s : State} {t : Trigger} {n : Nat} (hlen : t.len ≠ 0)
    (hw : s.actWord t t.src t.dst = .bad ∨ ∃ p, s.actWord t t.src t.dst = .fault p) : s.actRun t (n + 1) = s.actRun t.skip n := by
  obtain hw | ⟨p, hw⟩ := hw <;> rw [State.actRun, if_neg hlen, hw]

/-- An action of a context after its words: done, or put back. -/
def State.actionGoes (s : State) (ctx idx : Nat) (t : Trigger) : State :=
  if t.len = 0 ∧ t.fix = [] then (s.modCtx ctx (fun c => { c with actions := c.actions.eraseIdx idx })).actDone t
  else s.modCtx ctx (fun c => { c with actions := c.actions.set idx t })

/-- The two ways in which the event ends are one state. -/
theorem actionGoes_next (s : State) (ctx idx : Nat) (t : Trigger) :
    (if decide (t.len = 0) && decide (t.fix = []) then
      .next ((s.modCtx ctx (fun c => { c with actions := c.actions.eraseIdx idx })).actDone t)
     else .next (s.modCtx ctx (fun c => { c with actions := c.actions.set idx t })) : Res) = .next (s.actionGoes ctx idx t) := by
  rw [State.actionGoes, apply_ite Host.Outcome.next]
  simp only [Bool.and_eq_true, decide_eq_true_eq]

/-- An action with words left goes on for a free number of them. -/
theorem triggerActionComplete_words {s : State} {ctx idx : Nat} {t : Trigger} (ht : (s.ctx ctx).actions[idx]? = some t)
    (hres : (s.ctx ctx).resident = true) (hpresent : s.actAbsent t = none) (hlen : t.len ≠ 0) (hw : s.actWord t t.src t.dst ≠ .waits) :
    let r := (s.pickBelow (t.len / 4)).2.actRun t ((s.pickBelow (t.len / 4)).1 + 1)
    exec (.triggerActionComplete ctx idx 0) s = .next (r.1.actionGoes ctx idx r.2) := by
  have hnext : s.actNext t = some 0 := by
    rw [State.actNext, if_neg hlen]
    split
    · exact absurd ‹_› hw
    · rfl
  intro r
  change execTriggerActionComplete ctx idx 0 s = _
  simp only [execTriggerActionComplete, ht, hres, hnext, hpresent, hlen, if_false, Bool.not_true, bne_self_eq_false, Bool.or_self, Bool.false_eq_true]
  exact actionGoes_next r.1 ctx idx r.2

/-- An action with no word left replays its fix-up list and completes. -/
theorem triggerActionComplete_replay {s : State} {ctx idx : Nat} {t : Trigger} (ht : (s.ctx ctx).actions[idx]? = some t)
    (hres : (s.ctx ctx).resident = true) (hpresent : s.actAbsent t = none) (hlen : t.len = 0) (hready : s.actReady t = true) :
    let r := s.actReplay t t.fix
    exec (.triggerActionComplete ctx idx (if s.actFails t then errFault else 0)) s =
      .next (r.1.actionGoes ctx idx { t with fix := [], err := r.2 }) := by
  have hnext : s.actNext t = some (if s.actFails t then errFault else 0) := by
    rw [State.actNext, if_pos hlen, if_pos hready]
  intro r
  change execTriggerActionComplete ctx idx _ s = _
  simp only [execTriggerActionComplete, ht, hres, hnext, hpresent, hlen, if_true, Bool.not_true, bne_self_eq_false, Bool.or_self, Bool.false_eq_true,
    if_false]
  exact (hlen ▸ actionGoes_next r.1 ctx idx { t with fix := [], err := r.2 } :)

/-- Settles O47: each event is enabled and leaves the state that the statement gives. -/
theorem engineEventsComplete : Obligations.EngineEventsComplete := by
  unfold Obligations.EngineEventsComplete
  refine ⟨?land, ?replay, ?finished, ?coll, ?chunk, ?words, ?action⟩
  case land =>
    exact fun s team op seg t o q hop hseg hfree => ⟨engineLand_behind hop hseg hfree, engineLand_tried hop hseg hfree⟩
  case replay => exact fun s team op t o q hop hready hfix => fixupReplay_one hop hready hfix
  case finished =>
    refine fun s team op t o hop hfin => ⟨fun a harr habar => ⟨fun t' => ?_, fun hnone => ?_, fun r c hsome => ?_⟩, fun a hcont herr hh =>
      copyYieldResume_next hop hfin hcont herr hh⟩
    · simp only [Team.opArrives, habar, Team.delivers]
    · rw [engineArrival_next hop hfin harr, State.notifyEnd, hnone]
    · rw [engineArrival_next hop hfin harr, State.notifyEnd, hsome]
  case coll => exact fun s id c t hc ht => ⟨collStagingGrant_next hc ht, collTimeout_next hc ht⟩
  case chunk =>
    exact fun s c => ⟨chunkArrival_stray, fun k hctx => ⟨chunkArrival_old hctx, chunkArrival_newer hctx, fun id x => chunkArrival_named hctx,
      chunkArrival_unnamed hctx⟩⟩
  case words => exact fun s s' t n hlen => ⟨fun e => actRun_done hlen, actRun_skip hlen⟩
  case action =>
    exact fun s ctx idx t ht hres hpresent => ⟨triggerActionComplete_words ht hres hpresent, triggerActionComplete_replay ht hres hpresent⟩

end Sys2Proof.Machine
end

section
/-! SUPPORT. What dispatchers and commits do to launches (R39 to R42, R174, R175, R182, R183, R187 to R189, R202, R390, R396 to R398, R404,
R411; log entries 32, 39 and 40): one lemma per event, and the statement about them. -/

namespace Sys2Proof.Machine

open Sys2Proof

-- taking a record (R40, R396)

/-- A SERIAL record that finds an earlier one of its queue ended without committing. -/
def State.Stops (s : State) (ctx : Nat) (r : ReadyRec) : Prop := recSerial r.lrec = true ∧ ∃ n ∈ (s.queue ctx r.queue).bad, n < r.ord

/-- The state in which a record has left the list of fetched records. -/
def State.taken (s : State) (ctx : Nat) (r : ReadyRec) : State :=
  s.modCtx ctx (fun c => { c with ready := c.ready.filter (fun x => x != r), turn := (r.queue + 1) % 64 })

theorem takeRec_stops {s : State} {ctx : Nat} {r : ReadyRec} (h : s.Stops ctx r) :
    s.takeRec ctx r = ((s.modQueue ctx r.queue (fun q => { q with cstop := true })).raiseIstat ctx istatCstop, false) := by
  obtain ⟨hserial, n, hn, hlt⟩ := h
  have hbad : (s.queue ctx r.queue).bad.any (fun n => decide (n < r.ord)) = true := List.any_eq_true.mpr ⟨n, hn, decide_eq_true hlt⟩
  rw [State.takeRec, hserial, hbad, Bool.and_self, if_pos rfl]

theorem takeRec_taken {s : State} {ctx : Nat} {r : ReadyRec} (h : ¬ s.Stops ctx r) : s.takeRec ctx r = (s.taken ctx r, true) := by
  rw [State.takeRec, if_neg]
  · rfl
  · intro hc
    obtain ⟨hserial, hbad⟩ := (Bool.and_eq_true _ _).mp hc
    obtain ⟨n, hn, hlt⟩ := List.any_eq_true.mp hbad
    exact h ⟨hserial, n, hn, of_decide_eq_true hlt⟩

-- DISPATCH, CKPT and RECOMPUTE (R171, R390, R396 to R398)

/-- A record that may be taken and is neither a CKPT nor a RECOMPUTE record. -/
structure LaunchRecTaken (s : State) (ctx idx : Nat) (r : ReadyRec) : Prop where
  turn    : s.mayTake ctx idx = some r
  notCkpt : recType r.lrec ≠ 1
  fresh   : recType r.lrec ≠ 2

theorem LaunchRecTaken.stops {s : State} {ctx idx : Nat} {r : ReadyRec} (hr : LaunchRecTaken s ctx idx r) (hs : s.Stops ctx r) :
    exec (.dispatch ctx idx) s = .next ((s.modQueue ctx r.queue (fun q => { q with cstop := true })).raiseIstat ctx istatCstop) := by
  change execDispatch ctx idx s = _
  simp [execDispatch, hr.turn, hr.notCkpt, hr.fresh, takeRec_stops hs]

/-- A record that passes its checks starts its launch. -/
theorem LaunchRecTaken.starts {s : State} {ctx idx : Nat} {r : ReadyRec} {sets : List SetDecl} (hr : LaunchRecTaken s ctx idx r)
    (hs : ¬ s.Stops ctx r) (hcheck : (s.taken ctx r).checkRec ctx r.lrec false = .ok sets) :
    exec (.dispatch ctx idx) s = .next (((s.taken ctx r).noteSets ctx r.lrec).startLaunch ctx r r.lrec sets none).2 := by
  change execDispatch ctx idx s = _
  simp [execDispatch, hr.turn, hr.notCkpt, hr.fresh, takeRec_taken hs, hcheck]

/-- A record that fails a check ends with its status. -/
theorem LaunchRecTaken.rejected {s : State} {ctx idx : Nat} {r : ReadyRec} {st : Byte} (hr : LaunchRecTaken s ctx idx r)
    (hs : ¬ s.Stops ctx r) (hcheck : (s.taken ctx r).checkRec ctx r.lrec false = .reject st) :
    exec (.dispatch ctx idx) s =
      .next ((((s.taken ctx r).newTag ctx).2.endRecord ctx r.queue r.ord r.lrec st 0 r.attempt).inQueueOrder ctx s.nextId) := by
  change execDispatch ctx idx s = _
  simp only [execDispatch, hr.turn, hr.notCkpt, hr.fresh, takeRec_taken hs, hcheck, decide_false, Bool.or_self, Bool.false_eq_true, if_false, Bool.not_true]
  rfl

/-- A CKPT record closes the open segment of its queue, and opens its own one empty. -/
theorem ckpt_next {s : State} {ctx idx : Nat} {r : ReadyRec} (hturn : s.mayTake ctx idx = some r) (hs : ¬ s.Stops ctx r)
    (htype : recType r.lrec = 1) (hcode : r.lrec.code = 0) (hframe : r.lrec.frame = 0) (htrap : r.lrec.trapvec = 0) (hdims : r.lrec.dims = 0)
    (hshape : r.lrec.shape = 0) (hset : r.lrec.setptr = 0) (hattr : bits r.lrec.attr.toNat 28 4 = 0) :
    exec (.ckpt ctx idx) s = .next (((s.taken ctx r).modCtx ctx (fun c =>
      if recSeg r.lrec = 15 then { c with openSeg := Tab.del c.openSeg r.queue }
      else { c with openSeg := Tab.put c.openSeg r.queue (recSeg r.lrec), segs := Tab.put c.segs (recSeg r.lrec) {} })).endRecord ctx r.queue r.ord
        r.lrec stCommitted 0 r.attempt) := by
  change execCkpt ctx idx s = _
  simp [execCkpt, hturn, htype, takeRec_taken hs, hcode, hframe, htrap, hdims, hshape, hset, hattr]

/-- A RECOMPUTE record of a complete segment starts a replay of its records. -/
theorem recompute_next {s : State} {ctx idx : Nat} {r : ReadyRec} {g : Segment} (hturn : s.mayTake ctx idx = some r) (hs : ¬ s.Stops ctx r)
    (htype : recType r.lrec = 2) (hok : ((s.taken ctx r).ctx ctx).recomputeOk r.lrec = true)
    (hseg : Tab.find? ((s.taken ctx r).ctx ctx).segs (recSeg r.lrec) = some g) :
    let p : Replay := { rr := r, lo := r.lrec.code.toNat, hi := r.lrec.frame.toNat, scratch := r.lrec.trapvec.toNat, todo := g.recs,
                        mem0 := s.mem, remote0 := s.remote }
    exec (.recompute ctx idx) s =
      .next (((s.taken ctx r).modCtx ctx (fun c => { c with replays := Tab.put c.replays r.queue p })).stampReady ctx r.queue) := by
  change execRecompute ctx idx s = _
  simp only [execRecompute, hturn, htype, takeRec_taken hs, hok, hseg, bne_self_eq_false, Bool.false_eq_true, if_false, Bool.not_true, Option.map_some,
    Option.getD_some]
  rfl

/-- The only replay of a context takes its next step. -/
theorem replayNext_next {s t : State} {ctx q : Nat} {p : Replay} (hp : (s.ctx ctx).replays = [(q, p)]) (hstep : s.replayStep ctx q p = some t) :
    exec (.replayNext ctx) s = .next (t.inQueueOrder ctx s.nextId) := by
  change execReplayNext ctx s = _
  simp [execReplayNext, hp, hstep]

-- teams (R39, R40, R42, R202)

/-- A grid whose next team may be placed on a core. -/
structure Placeable (s : State) (launch grid core : Nat) (L : Launch) (g : Grid) : Prop where
  launched : s.launch? launch = some L
  found    : Tab.find? L.grids grid = some g
  free     : L.held = false
  runs     : s.fleet.halt = false
  stays    : (s.ctx L.ctx).saving = false
  open_    : g.done = false
  left     : g.placed < g.total
  fits     : s.fits L.ctx g.lrec core = true
  next_    : s.heldBack launch grid = false
  first    : s.outranked launch grid = false

theorem Placeable.tryPlace {s : State} {launch grid core : Nat} {L : Launch} {g : Grid} (hp : Placeable s launch grid core L g) :
    s.tryPlace launch grid core = if recCohort g.lrec then s.placeAll launch grid L.ctx core g.lrec g.total
      else some (s.placeTeam launch grid core) := by
  have hleft : ¬ g.total ≤ g.placed := Nat.not_le.mpr hp.left
  simp [State.tryPlace, hp.launched, hp.found, hp.free, hp.runs, hp.stays, hp.open_, hleft, hp.fits, hp.next_]

theorem Placeable.next {s t : State} {launch grid core : Nat} {L : Launch} {g : Grid} (hp : Placeable s launch grid core L g)
    (ht : s.tryPlace launch grid core = some t) : exec (.teamPlace launch grid core) s = .next t := by
  change execTeamPlace launch grid core s = _
  simp [execTeamPlace, ht, hp.first]

/-- A team with nothing left to do retires. -/
theorem teamRetire_next {s : State} {team : Nat} {t : Team} (ht : s.team? team = some t) (hrun : t.status = .running) (hlive : t.liveGangs = [])
    (hops : t.ops = []) (hmops : t.mops = []) (hcolls : ∀ p ∈ s.colls, p.2.team ≠ team) :
    exec (.teamRetire team) s = .next (((s.modLaunch t.launch (fun L => { L with grids := Tab.modify L.grids t.grid (fun g =>
      { g with retired := g.retired + 1, wsets := (if L.it then Tab.put g.wsets t.index t.ws else g.wsets) }) })).removeTeams t.ctx [team]
        (fun _ => false)).checkGrid t.launch 14 t.grid) := by
  have hfree : s.colls.any (fun p => p.2.team == team) = false := by simpa using hcolls
  have hretire : s.canRetire team t = true := by
    rw [State.canRetire, hrun, hlive, hops, hmops, hfree]
    rfl
  change execTeamRetire team s = _
  simp only [execTeamRetire, ht, hretire, Bool.not_true, Bool.false_eq_true, if_false]

-- commits (R174, R175, R182, R183)

/-- Bytes whose places can all be reached can be committed. -/
theorem canCommit_of_reachable {s : State} {writes : Tab Byte} (hw : ∀ p ∈ writes, s.reachable p.1 = true) : s.canCommit writes = true := by
  rw [State.canCommit, List.all_eq_true]
  intro l hl
  obtain ⟨p, hp, rfl⟩ := List.mem_map.mp hl
  exact hw p hp

/-- A launch whose turn it is, that is not held and is no replay. -/
structure CommitsNext (s : State) (launch : Nat) (L : Launch) : Prop where
  launched : s.launch? launch = some L
  free     : L.held = false
  own      : L.replay = none
  turn     : s.commitTurn L.ctx L.readyAt = true

/-- A launch with a merge conflict reports it and ends. -/
theorem CommitsNext.clashes {s : State} {launch va lo hi : Nat} {L : Launch} (hl : CommitsNext s launch L) (hclash : L.clash = some (va, lo, hi)) :
    exec (.launchCommit launch) s = .next (((s.reportMerge L.ctx va lo hi).abortLaunch launch stMerge).inQueueOrder L.ctx s.nextId) := by
  change execLaunchCommit launch s = _
  simp [execLaunchCommit, State.mayCommit, hl.launched, hl.free, hl.own, hl.turn, hclash]

/-- A launch without one commits its writes. -/
theorem CommitsNext.commits {s : State} {launch : Nat} {L : Launch} (hl : CommitsNext s launch L) (hclash : L.clash = none)
    (hw : ∀ p ∈ L.finalWrites s.commByte, s.reachable p.1 = true) :
    exec (.launchCommit launch) s = .next
      (((((s.commitWrites L.ctx launch (L.finalWrites s.commByte)).appendSeg L).dropLaunch launch).endRecord L.ctx L.queue L.ord L.lrec stCommitted 0
        L.attempt).inQueueOrder L.ctx s.nextId) := by
  change execLaunchCommit launch s = _
  simp [execLaunchCommit, State.mayCommit, hl.launched, hl.free, hl.own, hl.turn, hclash, canCommit_of_reachable hw]

-- the pool and publication (R187 to R189)

/-- A launch for which the understory pool of its context is full. -/
structure PoolDue (s : State) (launch : Nat) (L : Launch) : Prop where
  launched : s.launch? launch = some L
  due      : s.poolDue L = true

/-- The pool is extended from the reserve. -/
theorem PoolDue.extends {s : State} {launch : Nat} {L : Launch} (hp : PoolDue s launch L) (hroom : (s.ctx L.ctx).upcnt < (s.ctx L.ctx).upmax) :
    let n := min ((s.ctx L.ctx).upcnt + 256) (s.ctx L.ctx).upmax
    exec (.poolFull launch) s = .next (((s.setCommAll (cellsAt (s.upcntAt L.ctx) (leBytes 2 n))).modCtx L.ctx
      (fun c => { c with upcnt := n })).modLaunch launch (fun L => { L with poolNeed := 0 })) := by
  change execPoolFull launch s = _
  simp [execPoolFull, hp.launched, hp.due, hroom]

/-- With the reserve used up the overflow policy applies: a launch publishes, or ends. -/
theorem PoolDue.overflows {s : State} {launch : Nat} {L : Launch} (hp : PoolDue s launch L) (hfull : (s.ctx L.ctx).upmax ≤ (s.ctx L.ctx).upcnt) :
    let u := s.raiseIstat L.ctx istatPool
    exec (.poolFull launch) s = .next (if L.overIrr && L.replay.isNone then u.modLaunch launch (fun L => { L with publishing := true, poolNeed := 0 })
      else (u.abortLaunch launch stOverflow).inQueueOrder L.ctx u.nextId) := by
  change execPoolFull launch s = _
  simp only [execPoolFull, hp.launched, hp.due, Nat.not_lt.mpr hfull, Bool.not_true, Bool.false_eq_true, if_false]

/-- The oldest launch of a context publishes. -/
theorem irrevocablePublish_next {s : State} {launch : Nat} {L : Launch} (hl : s.launch? launch = some L) (hheld : L.held = false)
    (hpub : L.publishing = true) (holdest : ∀ p ∈ s.launches, p.2.ctx = L.ctx → p.1 ≠ launch → L.disp ≤ p.2.disp ∧ p.2.irrev = false)
    (hw : ∀ p ∈ L.lines, s.reachable p.1 = true) :
    exec (.irrevocablePublish launch) s = .next (((s.commitWrites L.ctx launch L.lines).modLaunch launch (fun L =>
      { L with irrev := true, publishing := false, lines := [], sig := [] })).inQueueOrder L.ctx s.nextId) := by
  have hfirst : s.launches.all (fun p => p.2.ctx != L.ctx || p.1 == launch || (!decide (p.2.disp < L.disp) && !p.2.irrev)) = true := by
    rw [List.all_eq_true]
    intro p hp
    by_cases hctx : p.2.ctx = L.ctx
    · by_cases hself : p.1 = launch
      · simp [hself]
      · obtain ⟨hle, hirr⟩ := holdest p hp hctx hself
        simp [hle, hirr]
    · simp [hctx]
  have hmay : s.mayPublish launch L = true := by
    rw [State.mayPublish, hpub, hheld, hfirst, canCommit_of_reachable hw]
    rfl
  change execIrrevocablePublish launch s = _
  simp only [execIrrevocablePublish, hl, hmay, Bool.not_true, Bool.false_eq_true, if_false]

/-- Settles O48: each event is enabled and leaves the state that the statement gives. -/
theorem launchEventsComplete : Obligations.LaunchEventsComplete := by
  unfold Obligations.LaunchEventsComplete
  refine ⟨?records, fun s ctx q p t hp hstep => replayNext_next hp hstep, ?place, fun s team t ht hrun hlive hops hmops hcolls =>
    teamRetire_next ht hrun hlive hops hmops hcolls, ?launches⟩
  case records =>
    refine fun s ctx idx r hturn => ⟨fun hs h1 h2 => LaunchRecTaken.stops ⟨hturn, h1, h2⟩ hs, fun hs => ⟨fun sets h1 h2 hcheck => ?_,
      fun st h1 h2 hcheck => ?_, ckpt_next hturn hs, fun g htype hok hseg => recompute_next hturn hs htype hok hseg⟩⟩
    · exact LaunchRecTaken.starts ⟨hturn, h1, h2⟩ hs hcheck
    · exact LaunchRecTaken.rejected ⟨hturn, h1, h2⟩ hs hcheck
  case place =>
    intro s launch grid core L g h1 h2 h3 h4 h5 h6 h7 h8 h9 h10
    have hp : Placeable s launch grid core L g := ⟨h1, h2, h3, h4, h5, h6, h7, h8, h9, h10⟩
    refine ⟨fun hone => hp.next (hp.tryPlace.trans ?_), fun t hall ht => hp.next (hp.tryPlace.trans ?_)⟩
    · rw [hone, if_neg Bool.false_ne_true]
    · rw [hall, if_pos rfl, ht]
  case launches =>
    refine fun s launch L hl hheld => ⟨fun hown hturn => ⟨fun va lo hi hclash => ?_, fun hclash hw => ?_⟩, fun hneed hfull => ?_,
      irrevocablePublish_next hl hheld⟩
    · exact CommitsNext.clashes ⟨hl, hheld, hown, hturn⟩ hclash
    · exact CommitsNext.commits ⟨hl, hheld, hown, hturn⟩ hclash hw
    · intro c n at_ u hreach
      have hp : PoolDue s launch L := ⟨hl, by
        rw [State.poolDue, hheld, decide_eq_true hfull, bne_iff_ne.mpr hneed]
        exact hreach⟩
      refine ⟨hp.extends, fun hmax hends => (hp.overflows hmax).trans ?_, fun hmax hpub => (hp.overflows hmax).trans ?_⟩
      · rw [hends, if_neg Bool.false_ne_true]
      · rw [hpub, if_pos rfl]

end Sys2Proof.Machine
end

section
/-! SUPPORT. Pager answers, late results, saves and restorations (R36, R42, R102, R103, R147, R192, R198 to R201, R222, R403, R406, R410; log
entries 29 and 30): one lemma per event, and the statement about them. -/

namespace Sys2Proof.Machine

open Sys2Proof

-- late results (R222)

/-- A pending instruction writes the results of one place, whichever comes first. -/
theorem longLatencyResult_next {s : State} {u : UnitId} {idx : Nat} {p : Pending} (hp : (s.gang u.team u.gang).pend[idx]? = some p)
    (hne : p.writes ≠ []) :
    ∃ w ∈ p.writes,
      let rest := p.writes.filter (fun x => x.1.place ≠ w.1.place)
      exec (.longLatencyResult u idx) s = .next ((s.pickBelow p.writes.length).2.modGang u.team u.gang (fun g =>
        { ((p.writes.filter (fun x => x.1.place = w.1.place)).foldl Gang.writeDest g) with
          pend := if rest = [] then g.pend.eraseIdx idx else g.pend.set idx { p with writes := rest } })) := by
  have hpos : 0 < p.writes.length := List.length_pos_iff.mpr hne
  have hlt : (s.pickBelow p.writes.length).1 < p.writes.length := State.pickBelow_lt _ hpos
  refine ⟨p.writes[(s.pickBelow p.writes.length).1], List.getElem_mem hlt, ?_⟩
  intro rest
  have hmax : max p.writes.length 1 = p.writes.length := max_eq_left hpos
  change execLongLatencyResult u idx s = _
  simp only [execLongLatencyResult, hp, hmax, List.getElem?_eq_getElem hlt, Option.map_some, List.partition_eq_filter_filter, rest,
    Function.comp_def, beq_eq_decide, Option.some.injEq, decide_not]

-- saves (R198, R200, R201, R403)

/-- A team whose PRQ has stood to its deadline is saved, with the teams that are saved with it. -/
theorem prqDeadline_next {s u : State} {team : Nat} {t : Team} (ht : s.team? team = some t) (hprq : t.prq = true) (hrun : t.status ≠ .saved)
    (hsave : s.saveAll false (s.together team) = some u) : exec (.prqDeadline team) s = .next u := by
  rw [← beq_eq_false_iff_ne] at hrun
  change execPrqDeadline team s = _
  simp [execPrqDeadline, ht, hprq, hrun, hsave]

/-- What has not landed of a saved team goes on the fix-up lists. -/
theorem saveDrainTimeout_next {s : State} {team : Nat} {t : Team} (ht : s.team? team = some t) (hdrains : t.drains = true) :
    exec (.saveDrainTimeout team) s = .next (s.modTeam team (fun t => { t with ops := t.ops.map (fun (p : Nat × EngOp) =>
      (p.1, { p.2 with segs := p.2.segs.filter (fun q => !q.kind.lands), fix := p.2.fix ++ p.2.segs.filter (fun q => q.kind.lands) })) })) := by
  change execSaveDrainTimeout team s = _
  simp [execSaveDrainTimeout, ht, hdrains]

/-- A parked team is pre-empted where a team of its context wants room. -/
theorem parkPreempt_next {s : State} {team : Nat} {t : Team} (ht : s.team? team = some t) (hparked : t.parked = true) (hprq : t.prq = false)
    (hroom : s.wantsRoom t.ctx = true) :
    exec (.parkPreempt team) s = .next ((s.modTeam team (fun t => { t with parkedOut := true })).raisePrq [team]) := by
  change execParkPreempt team s = _
  simp [execParkPreempt, ht, hparked, hprq, hroom]

/-- The save of a context is done once no team of it runs. -/
theorem ctxSaveDone_next {s : State} {slot : Nat} (hbusy : s.drv.ctxBusy = true) (hslot : s.drv.ctxSlot = slot) (hsaving : (s.ctx slot).saving = true)
    (hstopped : ∀ p ∈ s.teams, p.2.ctx = slot → p.2.status ≠ .running) :
    exec (.ctxSaveDone slot) s =
      .next { s.modCtx slot (fun c => { c with saving := false }) with drv := { s.drv with ctxBusy := false, ctxDone := true } } := by
  have hnone : s.runningTeams (fun t => t.ctx == slot) = [] := by
    rw [State.runningTeams, List.map_eq_nil_iff, List.filter_eq_nil_iff]
    intro p hp hc
    obtain ⟨hrun, hctx⟩ := (Bool.and_eq_true _ _).mp hc
    exact hstopped p hp (beq_iff_eq.mp hctx) (beq_iff_eq.mp hrun)
  change execCtxSaveDone slot s = _
  simp [execCtxSaveDone, hbusy, hslot, hsaving, hnone]

-- restorations (R36, R42, R199 to R201)

/-- Whether a team runs. -/
def State.Runs (s : State) (team : Nat) : Prop := ∃ t, s.team? team = some t ∧ t.status = .running

theorem State.Runs.modTeam {s : State} {team j : Nat} {f : Team → Team} (h : s.Runs team) (hf : ∀ t, (f t).status = t.status) :
    (s.modTeam j f).Runs team := by
  obtain ⟨t, ht, hrun⟩ := h
  by_cases hj : team = j
  · exact ⟨f t, by rw [← hj, State.team_modTeam_same, ht]; rfl, (hf t).trans hrun⟩
  · exact ⟨t, by rw [State.team_modTeam_other _ _ hj, ht], hrun⟩

/-- Whether a team runs the teams alone say. -/
theorem State.Runs.congr {s u : State} {team : Nat} (h : s.Runs team) (hu : u.teams = s.teams) : u.Runs team := by
  rwa [State.Runs, State.team?, hu]

theorem State.Runs.collEnd {s : State} {team : Nat} (id : Nat) (c : Coll) (err : Byte) (h : s.Runs team) : (s.collEnd id c err).Runs team := by
  refine State.Runs.congr (s := s.modTeam c.team (fun t =>
    (t.dropPending (granules c.base (c.n * stashBytes c.fmt))).modAbar c.abar (fun b => b.arrive err))) (h.modTeam fun t => ?_) rfl
  rw [Team.modAbar, Team.setAbar, Team.setSpad]
  rfl

theorem State.Runs.endExpired {s : State} {team : Nat} (j : Nat) (h : s.Runs team) : (s.endExpired j).Runs team := by
  unfold State.endExpired
  generalize s.colls.filter (fun p => p.2.team == j && p.2.expired) = l
  induction l generalizing s with
  | nil => exact h
  | cons p l ih => exact ih (h.collEnd p.1 p.2 errTimeout)

/-- A saved team put on a core, with the waits that it goes on from. -/
def Team.placedAgain (t : Team) (core : Nat) (places : List Nat) : Team :=
  { t with status := .running, core := core, places := places, prq := false, parkedOut := false, saveAt := none,
           gangs := t.gangs.map (fun g => g.modSlices (List.range 8) (fun x => if x.wait = .yielded then { x with wait := .ready } else x)) }

/-- A team that stands runs once it is put on a core. -/
theorem State.runs_placedAgain {s : State} {team : Nat} {t : Team} (core n : Nat) (ht : s.team? team = some t) :
    (((((s.pickPlaces core n).2.modTeam team (fun t => t.placedAgain core (s.pickPlaces core n).1)).dropL1 core).endExpired team)).Runs team := by
  refine State.Runs.endExpired team (State.Runs.congr (s := (s.pickPlaces core n).2.modTeam team _) ?_ rfl)
  have hpick : (s.pickPlaces core n).2.team? team = some t := ht
  exact ⟨t.placedAgain core (s.pickPlaces core n).1, by rw [State.team_modTeam_same, hpick]; rfl, rfl⟩

/-- Reading a save record leaves teams and what it holds as they are. -/
theorem State.noteRead_image (s : State) (locs : List Nat) (t : Team) : (s.noteRead locs).imageOk t = s.imageOk t := by
  rw [State.noteRead_rest]
  rfl

theorem State.noteRead_team (s : State) (locs : List Nat) (id : Nat) : (s.noteRead locs).team? id = s.team? id := by
  rw [State.noteRead_rest]
  rfl

/-- A team whose save record holds what the save wrote runs once it is restored. -/
theorem restoreTeam_runs {s : State} {team : Nat} {t : Team} (core : Nat) (ht : s.team? team = some t) (himage : s.imageOk t = true) :
    (s.restoreTeam team core).Runs team := by
  unfold State.restoreTeam
  rw [ht]
  cases hat : t.saveAt with
  | none =>
    simp only [hat, himage, Bool.not_true, Bool.false_eq_true, if_false]
    exact State.runs_placedAgain core t.gangs.length ht
  | some place =>
    simp only [hat, State.noteRead_image, himage, Bool.not_true, Bool.false_eq_true, if_false]
    exact State.runs_placedAgain core t.gangs.length ((State.noteRead_team s _ team).trans ht)

/-- A saved team that may be restored on a core. -/
structure Restorable (s : State) (team core : Nat) (t : Team) : Prop where
  found    : s.team? team = some t
  saved    : t.status = .saved
  stays    : (s.ctx t.ctx).saving = false
  runs     : s.fleet.halt = false
  room     : s.coreFor t core = some core
  open_    : ∀ a n image, t.saveAt = some (a, n, image) → s.unitsOpen a n = true
  eligible : ∃ id ∈ s.together team, ∃ x, s.team? id = some x ∧ x.status = .saved ∧ s.eligible id x = true

theorem Restorable.restoreOne {s : State} {team core : Nat} {t : Team} (hr : Restorable s team core t) :
    s.restoreOne core team = some (s.restoreTeam team core) := by
  rw [State.restoreOne, hr.found]
  simp only [hr.saved, hr.room, reduceCtorEq, if_false]
  refine if_neg ?_
  split
  · rw [hr.open_ _ _ _ ‹_›]
    exact Bool.false_ne_true
  · exact Bool.false_ne_true

/-- Restoring a team gives what restoring those that belong with it gives after it. -/
theorem Restorable.next {s u : State} {team core : Nat} {t : Team} (hr : Restorable s team core t)
    (hall : (s.restoreTeam team core).restoreAll core (s.together team) = some u) : exec (.teamRestore team core) s = .next u := by
  have hany : (s.together team).any (fun id => ((s.team? id).map (fun u => u.status == .saved && s.eligible id u)).getD false) = true := by
    obtain ⟨id, hid, x, hx, hsaved, hel⟩ := hr.eligible
    exact List.any_eq_true.mpr ⟨id, hid, by rw [hx, Option.map_some, Option.getD_some, hsaved, hel]; rfl⟩
  have htry : s.tryRestore team core = some u := by
    rw [State.tryRestore, hr.found]
    simp only [hr.saved, hr.stays, hr.runs, hr.room, hany, hr.restoreOne, Option.bind_some, hall, bne_self_eq_false, Bool.or_self, Bool.false_eq_true,
      if_false, Bool.not_true]
  change execTeamRestore team core s = _
  rw [execTeamRestore, htry]

/-- A team of no COHORT grid is restored alone. -/
theorem Restorable.alone {s : State} {team core : Nat} {t : Team} (hr : Restorable s team core t) (hone : t.cohort = false)
    (himage : s.imageOk t = true) : (s.restoreTeam team core).restoreAll core (s.together team) = some (s.restoreTeam team core) := by
  obtain ⟨t', ht', hrun⟩ := restoreTeam_runs core hr.found himage
  have hself : s.together team = [team] := by rw [State.together, hr.found]; simp [hone]
  rw [hself, State.restoreAll, State.restoreOne, ht']
  simp only [hrun, if_true, State.restoreAll]

/-- Settles O49: each event is enabled and leaves the state that the statement gives. -/
theorem preemptionEventsComplete : Obligations.PreemptionEventsComplete := by
  unfold Obligations.PreemptionEventsComplete
  refine ⟨fun s ctx page => ⟨rfl, rfl⟩, fun s u idx p hp hne => longLatencyResult_next hp hne, fun s team t ht => ⟨fun u hprq hrun hsave =>
    prqDeadline_next ht hprq hrun hsave, saveDrainTimeout_next ht, parkPreempt_next ht, fun core hsaved hstays hhalt hroom hopen hel => ?_⟩,
    fun s slot => ctxSaveDone_next, fun s hbusy => ?_⟩
  · have hr : Restorable s team core t := ⟨ht, hsaved, hstays, hhalt, hroom, hopen, hel⟩
    exact ⟨fun hone himage => hr.next (hr.alone hone himage), fun u hall => hr.next hall⟩
  · change execTlbMarkDrained s = _
    simp [execTlbMarkDrained, hbusy]

end Sys2Proof.Machine
end

section
/-! SUPPORT. What the host and other devices do through windows and registers (R102, R125, R342, R386, R393 to R396, R400, R401, R408, R411,
R412; log entries 16 and 40): one lemma per access, and the statement about them. -/

namespace Sys2Proof.Machine

open Sys2Proof

/-- An access to a powered device takes effect (R414). -/
theorem State.whenOn_powered {s : State} (t : State) (hon : s.boot.powered = true) : s.whenOn t = .next t := by
  rw [State.whenOn, hon, if_pos rfl]

-- the HDM window (R125, R386, R411)

/-- Bytes of the window that can all be reached are read. -/
theorem hdmRead_bytes {s : State} {a n : Nat} (hon : s.boot.powered = true) (hin : a + n ≤ 4 * wingBytes)
    (hopen : ∀ k < n, s.present (k + a) = true ∧ s.reachable (k + a) = true) :
    let marked := s.markedWords ((List.range n).map (· + a))
    exec (.hdmRead a n) s = .next ((s.send (.hostData ((List.range n).map (fun k => s.commByte (k + a))) (marked != 0))).uncorrectable marked) := by
  intro marked
  have hpresent : ∀ l ∈ (List.range n).map (· + a), s.present l = true := by
    intro l hl
    obtain ⟨k, hk, rfl⟩ := List.mem_map.mp hl
    exact (hopen k (List.mem_range.mp hk)).1
  have hreach : ((List.range n).map (· + a)).any (fun l => s.present l && !s.reachable l) = false := by
    rw [List.any_eq_false]
    intro l hl
    obtain ⟨k, hk, rfl⟩ := List.mem_map.mp hl
    simp [(hopen k (List.mem_range.mp hk)).2]
  have habsent : ((List.range n).map (· + a)).any (fun l => !s.present l) = false := by
    rw [List.any_eq_false]
    exact fun l hl => by rw [hpresent l hl]; decide
  have hbytes : ((List.range n).map (· + a)).map (fun l => if s.present l then s.commByte l else BitVec.allOnes 8) =
      (List.range n).map (fun k => s.commByte (k + a)) := by
    rw [List.map_map]
    exact List.map_congr_left (fun k hk => if_pos (hopen k (List.mem_range.mp hk)).1)
  change execHdmRead a n s = _
  rw [execHdmRead, hdmBytes, if_neg (Nat.not_lt.mpr hin)]
  simp only [hreach, habsent, hbytes, List.filter_eq_self.mpr hpresent, Bool.or_false, Bool.false_eq_true, if_false]
  exact State.whenOn_powered _ hon

/-- A read of a wing that is not online is made again later. -/
theorem hdmRead_waits {s : State} {a n : Nat} (hon : s.boot.powered = true) (hin : a + n ≤ 4 * wingBytes)
    (hclosed : ∃ k < n, s.present (k + a) = true ∧ s.reachable (k + a) = false) :
    exec (.hdmRead a n) s = .next { s with inbox := s.inbox ++ [.hdmRead a n] } := by
  have hwait : ((List.range n).map (· + a)).any (fun l => s.present l && !s.reachable l) = true := by
    obtain ⟨k, hk, hp, hr⟩ := hclosed
    exact List.any_eq_true.mpr ⟨k + a, List.mem_map_of_mem (List.mem_range.mpr hk), by rw [hp, hr]; rfl⟩
  change execHdmRead a n s = _
  rw [execHdmRead, hdmBytes, if_neg (Nat.not_lt.mpr hin)]
  simp only [hwait, if_true]
  exact State.whenOn_powered _ hon

/-- The places of a write of the window with their bytes. -/
def hdmCells (a : Nat) (data : List Byte) : List (Nat × Byte) := (List.range data.length).zip data |>.map (fun p => (a + p.1, p.2))

/-- The places of a write are its addresses. -/
theorem hdmCells_at {a l : Nat} {data : List Byte} : (∃ v, (l, v) ∈ hdmCells a data) ↔ ∃ k < data.length, l = a + k := by
  unfold hdmCells
  constructor
  · rintro ⟨v, hv⟩
    obtain ⟨p, hp, heq⟩ := List.mem_map.mp hv
    exact ⟨p.1, List.mem_range.mp (List.of_mem_zip hp).1, (congrArg Prod.fst heq).symm⟩
  · rintro ⟨k, hk, rfl⟩
    have hz : k < ((List.range data.length).zip data).length := by simpa using hk
    refine ⟨data[k], List.mem_map.mpr ⟨((List.range data.length).zip data)[k], List.getElem_mem hz, ?_⟩⟩
    simp

/-- A write of a wing that is not online is made again later. -/
theorem hdmWrite_waits {s : State} {a : Nat} {data : List Byte} (hon : s.boot.powered = true) (hin : a + data.length ≤ 4 * wingBytes)
    (hclosed : ∃ k < data.length, s.present (a + k) = true ∧ s.reachable (a + k) = false) :
    exec (.hdmWrite a data) s = .next { s with inbox := s.inbox ++ [.hdmWrite a data] } := by
  have hwait : (hdmCells a data).any (fun p => s.present p.1 && !s.reachable p.1) = true := by
    obtain ⟨k, hk, hp, hr⟩ := hclosed
    obtain ⟨v, hv⟩ := hdmCells_at.mpr ⟨k, hk, rfl⟩
    exact List.any_eq_true.mpr ⟨_, hv, by rw [hp, hr]; rfl⟩
  change execHdmWrite a data s = _
  rw [execHdmWrite, hdmBytes, if_neg (Nat.not_lt.mpr hin)]
  exact (if_pos hwait).trans (State.whenOn_powered _ hon)

/-- Bytes of the window that can all be reached are written. -/
theorem hdmWrite_bytes {s : State} {a : Nat} {data : List Byte} (hon : s.boot.powered = true) (hin : a + data.length ≤ 4 * wingBytes)
    (hopen : ∀ k < data.length, s.present (a + k) = true ∧ s.reachable (a + k) = true) :
    exec (.hdmWrite a data) s = .next (s.setCommAll (hdmCells a data)) := by
  have hat : ∀ p ∈ hdmCells a data, s.present p.1 = true ∧ s.reachable p.1 = true := by
    intro p hp
    obtain ⟨k, hk, heq⟩ := hdmCells_at.mp ⟨p.2, hp⟩
    exact heq ▸ hopen k hk
  have hgo : ¬ (hdmCells a data).any (fun p => s.present p.1 && !s.reachable p.1) = true := by
    rw [Bool.not_eq_true, List.any_eq_false]
    exact fun p hp => by rw [(hat p hp).2, Bool.not_true, Bool.and_false]; exact Bool.false_ne_true
  have hall : (hdmCells a data).filter (fun p => s.present p.1) = hdmCells a data := List.filter_eq_self.mpr (fun p hp => (hat p hp).1)
  change execHdmWrite a data s = _
  rw [execHdmWrite, hdmBytes, if_neg (Nat.not_lt.mpr hin)]
  refine (if_neg hgo).trans ((State.whenOn_powered _ hon).trans ?_)
  rw [hdmCells] at hall
  rw [hall, hdmCells]

/-- Bytes that another device writes enter committed memory (R102). -/
theorem remoteLineRequest_writes {s : State} {asid addr k : Nat} {bs : List Byte} {ps : List PageTr} (hk : s.slotOfAsid asid = some k)
    (hps : s.segPages k .write addr bs.length = .ok ps) :
    exec (.remoteLineRequest asid addr (some bs)) s =
      .next (s.setCommAll ((List.range bs.length).zip bs |>.map (fun q => ((pageOf ps (addr + q.1)).loc (addr + q.1), q.2)))) := by
  change execRemoteLineRequest asid addr (some bs) s = _
  simp [execRemoteLineRequest, hk, hps]

-- launch queues (R342, R393 to R396, R408)

theorem qrsv_next {s : State} {slot q : Nat} (hq : s.hasQueue slot q = true) :
    exec (.qrsv slot q) s = .next ((s.reserveSlot slot q).2.send (.qrsv (BitVec.ofNat 64 (s.queue slot q).qwp))) := by
  change execQrsv slot q s = _
  simp only [execQrsv, hq, Bool.not_true, Bool.false_eq_true, if_false]
  rfl

theorem qdb_next {s : State} {slot q : Nat} (hq : s.hasQueue slot q = true) : exec (.qdb slot q) s = .next (s.lookQueue slot q) := by
  change execQdb slot q s = _
  rw [execQdb, hq, if_pos rfl]

theorem queuePollTimer_next {s : State} {slot q : Nat} (hq : s.hasQueue slot q = true) (hfetch : (s.queue slot q).fetches = true) :
    exec (.queuePollTimer slot q) s = .next (s.lookQueue slot q) := by
  change execQueuePollTimer slot q s = _
  rw [execQueuePollTimer, hq, hfetch, Bool.and_self, if_pos rfl]

/-- QRESET takes a write of 1 while EN is 0. -/
theorem qreset_next {s : State} {slot q : Nat} (val : W64) (hq : s.hasQueue slot q = true) :
    exec (.qreset slot q val) s = .next (if val = 1 ∧ (s.queue slot q).en = false then
      s.modQueue slot q (fun q => { q with qrp := q.qwp, ovr := false, cstop := false, wait := false, bad := [] }) else s) := by
  change execQreset slot q val s = _
  simp only [execQreset, hq, Bool.true_and, Bool.and_eq_true, beq_iff_eq, Bool.not_eq_true']

/-- A stopped queue goes on, and failures of earlier records no longer count. -/
theorem cstopClear_next {s : State} {slot q : Nat} (hq : s.hasQueue slot q = true) (hstop : (s.queue slot q).cstop = true) :
    exec (.cstopClear slot q) s = .next (s.modQueue slot q (fun x => { x with
      cstop := false, bad := match (s.ctx slot).nextOrd q with | some n => x.bad.filter (fun m => decide (n < m)) | none => [] })) := by
  change execCstopClear slot q s = _
  exact congrArg Host.Outcome.next (if_pos (by rw [hq, hstop]; rfl))

/-- BNCRP finishes the bounce slots that it covers. -/
theorem bncrp_next {s : State} {slot : Nat} {val : W64} (hres : (s.ctx slot).resident = true) (hval : val.toNat ≤ (s.ctx slot).bncSeq) :
    exec (.bncrp slot val) s = .next (((s.ctx slot).bounces.filter (fun b => decide (b.upto ≤ val.toNat))).foldl (fun s b => s.countDone b.notify)
      (s.modCtx slot (fun c => { c with bncrp := val.toNat, bounces := c.bounces.filter (fun b => decide (val.toNat < b.upto)) }))) := by
  change execBncrp slot val s = _
  simp [execBncrp, hres, Nat.not_lt.mpr hval]

-- register writes (R401)

theorem registerWrite_odd {s : State} {off : Nat} {val : W64} (hoff : off % 8 ≠ 0) (bar : Bool) : exec (.registerWrite bar off val) s = .next s := by
  change execRegisterWrite bar off val s = _
  rw [execRegisterWrite, if_pos (bne_iff_ne.mpr hoff)]

/-- A register of BAR0 that only holds its value takes it from a powered device's host. -/
theorem registerWrite_holds {s : State} {val : W64} (hon : s.boot.powered = true) :
    exec (.registerWrite false 0x0 val) s = .next { s with drv := { s.drv with ctxbase := val } } ∧
    exec (.registerWrite false 0x28 val) s = .next { s with drv := { s.drv with savebase := val } } ∧
    exec (.registerWrite false 0xC008 val) s = .next { s with boot := { s.boot with addr := val } } :=
  ⟨State.whenOn_powered _ hon, State.whenOn_powered _ hon, State.whenOn_powered _ hon⟩

/-- CTXCMD is the event that its command names (R403). -/
theorem registerWrite_ctxcmd (s : State) (val : W64) :
    exec (.registerWrite false 0x8 val) s = (match bits val.toNat 8 4 with
      | 1 => exec (.ctxLoad (bits val.toNat 0 8)) s | 2 => exec (.ctxSave (bits val.toNat 0 8)) s | 3 => exec (.ctxResume (bits val.toNat 0 8)) s
      | 4 => exec (.ctxKill (bits val.toNat 0 8)) s | 5 => exec (.ctxUnload (bits val.toNat 0 8)) s | 6 => exec (.ctxUpool (bits val.toNat 0 8)) s
      | _ => .next (if s.boot.powered then { s with drv := { s.drv with ctxErr := true } } else s)) := rfl

/-- A trigger slot's owner is written by its own event (R409). -/
theorem registerWrite_trgown (s : State) (val : W64) {w k : Nat} (hw : w < 4) (hk : k < 256) :
    exec (.registerWrite false (0x2000 + w * 0x800 + 8 * k) val) s = exec (.trgownWrite w k val) s := by
  have haligned : (0x2000 + w * 0x800 + 8 * k) % 8 = 0 := by omega
  have hrange : (0x2000 ≤ 0x2000 + w * 0x800 + 8 * k) ∧ 0x2000 + w * 0x800 + 8 * k < 0x4000 := by omega
  have hwing : (0x2000 + w * 0x800 + 8 * k - 0x2000) / 0x800 = w := by omega
  have hslot : (0x2000 + w * 0x800 + 8 * k - 0x2000) % 0x800 / 8 = k := by omega
  change execRegisterWrite false (0x2000 + w * 0x800 + 8 * k) val s = execTrgownWrite w k val s
  simp only [execRegisterWrite, haligned, hrange, hwing, hslot, bne_self_eq_false, Bool.false_eq_true, if_false, decide_true, Bool.and_self, if_true]

/-- A counter's owner is written by its own event (R409). -/
theorem registerWrite_ctrown (s : State) (val : W64) {w k : Nat} (hw : w < 4) (hk : k < 1024) :
    exec (.registerWrite false (0x4000 + w * 0x2000 + 8 * k) val) s = exec (.ctrownWrite w k val) s := by
  have haligned : (0x4000 + w * 0x2000 + 8 * k) % 8 = 0 := by omega
  have hother : ¬ 0x4000 + w * 0x2000 + 8 * k < 0x4000 := by omega
  have hrange : (0x4000 ≤ 0x4000 + w * 0x2000 + 8 * k) ∧ 0x4000 + w * 0x2000 + 8 * k < 0xC000 := by omega
  have hwing : (0x4000 + w * 0x2000 + 8 * k - 0x4000) / 0x2000 = w := by omega
  have hslot : (0x4000 + w * 0x2000 + 8 * k - 0x4000) % 0x2000 / 8 = k := by omega
  change execRegisterWrite false (0x4000 + w * 0x2000 + 8 * k) val s = execCtrownWrite w k val s
  simp only [execRegisterWrite, haligned, hother, hrange, hwing, hslot, bne_self_eq_false, Bool.false_eq_true, if_false, decide_true, decide_false,
    Bool.and_self, Bool.and_false, if_true]

/-- The registers of a queue stand in the page of its context's slot (R387, R393). -/
structure QueueReg (s : State) (slot q : Nat) : Prop where
  inPages  : slot < 256
  inPage   : q < 64
  resident : (s.ctx slot).resident = true

/-- Where the register of a queue at an offset stands. -/
theorem queueReg_at (slot : Nat) {q o : Nat} (hq : q < 64) (ho : o < 64) :
    (8192 * slot + 64 * q + o) / 8192 = slot ∧ (8192 * slot + 64 * q + o) % 8192 = 64 * q + o ∧ 64 * q + o < 4096 ∧ (64 * q + o) / 64 = q ∧
    (64 * q + o) % 64 = o := by omega

/-- A write of QBASE, QCFG or QDB of a queue (R393, R394). -/
theorem QueueReg.write {s : State} {slot q : Nat} (val : W64) (hr : QueueReg s slot q) :
    exec (.registerWrite true (8192 * slot + 64 * q) val) s =
      .next (s.modQueue slot q (fun x => { x with qbase := BitVec.ofNat 64 (val.toNat / 4096 * 4096) })) ∧
    exec (.registerWrite true (8192 * slot + 64 * q + 8) val) s =
      .next (s.modQueue slot q (fun x => { x with qcfg := BitVec.ofNat 64 (val.toNat % 64) })) ∧
    exec (.registerWrite true (8192 * slot + 64 * q + 0x30) val) s = exec (.qdb slot q) s := by
  obtain ⟨hslot, hq, hres⟩ := hr
  have hwrite : ∀ o, o % 8 = 0 → exec (.registerWrite true (8192 * slot + 64 * q + o) val) s = s.writeQueue (8192 * slot + 64 * q + o) val := by
    intro o ho
    have haligned : (8192 * slot + 64 * q + o) % 8 = 0 := by omega
    change execRegisterWrite true (8192 * slot + 64 * q + o) val s = _
    rw [execRegisterWrite, haligned, if_neg (by decide), if_pos rfl]
  have hopen : (!(s.ctx slot).resident || decide (256 ≤ slot)) = false := by rw [hres, decide_eq_false (Nat.not_le.mpr hslot)]; rfl
  refine ⟨(hwrite 0 rfl).trans ?_, (hwrite 8 rfl).trans ?_, (hwrite 0x30 rfl).trans ?_⟩
  · obtain ⟨hs, hp, hlow, hn, hrest⟩ := queueReg_at slot hq (o := 0) (by decide)
    simp only [State.writeQueue, hs, hp, hlow, hn, hrest, hopen, Bool.false_eq_true, if_false, if_true]
  · obtain ⟨hs, hp, hlow, hn, hrest⟩ := queueReg_at slot hq (o := 8) (by decide)
    simp only [State.writeQueue, hs, hp, hlow, hn, hrest, hopen, Bool.false_eq_true, if_false, if_true]
  · obtain ⟨hs, hp, hlow, hn, hrest⟩ := queueReg_at slot hq (o := 0x30) (by decide)
    simp only [State.writeQueue, hs, hp, hlow, hn, hrest, hopen, Bool.false_eq_true, if_false, if_true]
    rfl

-- register reads (R400, R401, R412)

theorem readReg_odd (s : State) {off len : Nat} (bar : Bool) (h : off % 8 ≠ 0 ∨ len ≠ 8) : s.readReg bar off len = BitVec.allOnes 64 := by
  rw [State.readReg, if_pos]
  rwa [Bool.or_eq_true, bne_iff_ne, bne_iff_ne]

/-- One bit of each of `n` flags, as a number. -/
def flagSum (b : Nat → Bool) (n : Nat) : Nat := ((List.range n).map (fun i => flag (b i) * 2 ^ i)).sum

theorem flagSum_succ (b : Nat → Bool) (n : Nat) : flagSum b (n + 1) = 2 ^ n * flag (b n) + flagSum b n := by
  simp [flagSum, List.range_succ, Nat.add_comm, Nat.mul_comm]

theorem flagSum_lt (b : Nat → Bool) (n : Nat) : flagSum b n < 2 ^ n := by
  induction n with
  | zero => exact Nat.one_pos
  | succ n ih =>
    have hflag : flag (b n) ≤ 1 := by cases b n <;> decide
    calc flagSum b (n + 1) = 2 ^ n * flag (b n) + flagSum b n := flagSum_succ b n
      _ < 2 ^ n * 1 + 2 ^ n := Nat.add_lt_add_of_le_of_lt (Nat.mul_le_mul_left _ hflag) ih
      _ = 2 ^ (n + 1) := by ring

/-- Each flag is the bit of its number. -/
theorem flagSum_testBit (b : Nat → Bool) {n k : Nat} (hk : k < n) : (flagSum b n).testBit k = b k := by
  induction n with
  | zero => exact absurd hk (Nat.not_lt_zero k)
  | succ n ih =>
    rw [flagSum_succ, Nat.testBit_two_pow_mul_add _ (flagSum_lt b n)]
    split
    case isTrue hlt => exact ih hlt
    case isFalse hge =>
      obtain rfl : k = n := Nat.le_antisymm (Nat.le_of_lt_succ hk) (Nat.not_lt.mp hge)
      rw [Nat.sub_self]
      cases b k <;> rfl

/-- QSUM has the bit of a queue that overran or stopped. -/
theorem qsum_getLsbD (c : Ctx) {q : Nat} (hq : q < 64) :
    c.qsum.getLsbD q = ((Tab.get c.queues {} q).ovr || (Tab.get c.queues {} q).cstop) := by
  have hsum : c.qsum = BitVec.ofNat 64 (flagSum (fun q => (Tab.get c.queues {} q).ovr || (Tab.get c.queues {} q).cstop) 64) := by
    rw [Ctx.qsum, fields, List.map_map]
    rfl
  rw [hsum, BitVec.getLsbD_ofNat, flagSum_testBit _ hq, decide_eq_true hq, Bool.true_and]

theorem QueueReg.reads {s : State} {slot q : Nat} (hr : QueueReg s slot q) :
    s.readReg true (8192 * slot + 64 * q) 8 = (s.queue slot q).qbase ∧
    (s.readReg true (8192 * slot + 0x1010) 8).getLsbD q = ((s.queue slot q).ovr || (s.queue slot q).cstop) := by
  obtain ⟨hslot, hq, hres⟩ := hr
  have hread : ∀ o, o % 8 = 0 → s.readReg true (8192 * slot + o) 8 = s.readQueue (8192 * slot + o) := by
    intro o ho
    have haligned : (8192 * slot + o) % 8 = 0 := by omega
    rw [State.readReg, haligned, if_neg (by decide), if_pos rfl]
  have hopen : (!(s.ctx slot).resident || decide (256 ≤ slot)) = false := by rw [hres, decide_eq_false (Nat.not_le.mpr hslot)]; rfl
  constructor
  · obtain ⟨hs, hp, hlow, hn, hrest⟩ := queueReg_at slot hq (o := 0) (by decide)
    simp only [Nat.add_zero] at hs hp hlow hn hrest
    rw [hread (64 * q) (by omega)]
    simp only [State.readQueue, hs, hp, hlow, hn, hrest, hopen, Bool.false_eq_true, if_false, if_true]
  · have hs : (8192 * slot + 0x1010) / 8192 = slot := by omega
    have hp : (8192 * slot + 0x1010) % 8192 = 0x1010 := by omega
    rw [hread 0x1010 rfl]
    simp only [State.readQueue, hs, hp, hopen, Bool.false_eq_true, if_false]
    exact qsum_getLsbD (s.ctx slot) hq

/-- CORECTL's EMPTY stands while no team runs on the core. -/
theorem readReg_coreEmpty (s : State) {core : Nat} (hcore : core < 640) :
    (s.readReg false (0x400 + 8 * core) 8).getLsbD 1 = (s.runningTeams (fun t => t.core == core)).isEmpty := by
  have haligned : (0x400 + 8 * core) % 8 = 0 := by omega
  have hreg : s.readReg false (0x400 + 8 * core) 8 = s.readCore core := by
    have hcoreAt : (0x400 + 8 * core - 0x400) / 8 = core := by omega
    simp (disch := omega) only [State.readReg, State.readDriver, haligned, hcoreAt, Bool.or_eq_true, Bool.and_eq_true, decide_eq_true_eq, bne_iff_ne,
      ne_eq, not_true_eq_false, Bool.false_eq_true, or_self, if_false, if_neg, if_pos]
  rw [hreg, State.readCore]
  cases (s.core core).dis <;> cases (s.runningTeams (fun t => t.core == core)).isEmpty <;> rfl

/-- Settles O50: each access takes effect, or is read, as the statement gives it. -/
theorem hostWindowCompletes : Obligations.HostWindowCompletes := by
  unfold Obligations.HostWindowCompletes
  refine ⟨fun s a n data hon => ⟨hdmRead_bytes hon, hdmRead_waits hon, hdmWrite_waits hon, hdmWrite_bytes hon⟩,
    fun s asid addr k bs ps => remoteLineRequest_writes, fun s slot q val hq => ⟨qrsv_next hq, qdb_next hq, queuePollTimer_next hq,
      qreset_next val hq, cstopClear_next hq⟩, fun s slot val => bncrp_next, fun s off val => ?registers⟩
  intro write
  exact ⟨registerWrite_odd, registerWrite_holds, registerWrite_ctxcmd s val, fun w k => registerWrite_trgown s val,
    fun w k => registerWrite_ctrown s val, rfl, fun slot q hslot hq hres => QueueReg.write val ⟨hslot, hq, hres⟩,
    fun bar len => readReg_odd s bar, rfl, rfl, rfl, fun slot q hslot hq hres => QueueReg.reads ⟨hslot, hq, hres⟩,
    fun core => readReg_coreEmpty s⟩

end Sys2Proof.Machine
end

section
/-! SUPPORT. The driver's commands (R105, R106, R136, R198, R402, R403, R406, R409, R411 to R413, R421, R422, R427; log entries 40 and 41): one
lemma per command, and the statement about them. -/

namespace Sys2Proof.Machine

open Sys2Proof

-- context commands (R402, R403)

/-- The state in which a context command for a slot executes. -/
def State.commanded (s : State) (slot : Nat) : State := { s with drv := { s.drv with ctxSlot := slot, ctxDone := false, ctxErr := false } }

/-- A context command is refused while another one executes. -/
theorem ctxCommand_busy {s : State} (slot : Nat) (f : State → Option State) (hon : s.boot.powered = true) (hbusy : s.drv.ctxBusy = true) :
    s.ctxCommand slot f = { s with drv := { s.drv with ctxErr := true } } := by
  rw [State.ctxCommand, hon, hbusy, if_neg (by decide), if_pos rfl]

/-- A context command that succeeds is done unless it goes on. -/
theorem ctxCommand_some {s t : State} {slot : Nat} {f : State → Option State} (hon : s.boot.powered = true) (hfree : s.drv.ctxBusy = false)
    (hslot : slot < 256) (hf : f (s.commanded slot) = some t) : s.ctxCommand slot f = { t with drv := { t.drv with ctxDone := !t.drv.ctxBusy } } := by
  rw [State.ctxCommand, hon, hfree, if_neg (by decide), if_neg (by decide), Nat.mod_eq_of_lt hslot]
  rw [State.commanded] at hf
  simp only [hf]

/-- A command that reads the entry of a slot, while another one executes. -/
theorem entryCommand_busy {s : State} (slot : Nat) (e : Instr) (f : State → State) (hbusy : s.drv.ctxBusy = true) :
    s.entryCommand slot e f = .next (f s) := by
  rw [State.entryCommand, hbusy, Bool.or_true, if_pos rfl]

/-- The places of a slot's entry. -/
def State.entryBytes (s : State) (slot : Nat) : List Nat := (List.range 64).map (· + s.entryAt slot)

/-- The state after the entry of a slot has been read. -/
theorem entryCommand_reads {s : State} {slot : Nat} (e : Instr) (f : State → State) (hon : s.boot.powered = true) (hfree : s.drv.ctxBusy = false)
    (hslot : slot < 256) (hpresent : s.present (s.entryAt slot) = true) (hreach : s.reachable (s.entryAt slot) = true) :
    s.entryCommand slot e f = .next (f (s.noteRead (s.entryBytes slot))) := by
  rw [State.entryCommand, Nat.mod_eq_of_lt hslot]
  simp only [hon, hfree, hpresent, hreach, Bool.not_true, Bool.or_self, Bool.false_eq_true, if_false]
  rfl

/-- A command whose entry stands on a wing that is not online is made again later. -/
theorem entryCommand_waits {s : State} {slot : Nat} (e : Instr) (f : State → State) (hon : s.boot.powered = true) (hfree : s.drv.ctxBusy = false)
    (hslot : slot < 256) (hpresent : s.present (s.entryAt slot) = true) (hclosed : s.reachable (s.entryAt slot) = false) :
    s.entryCommand slot e f = .next (s.later e) := by
  rw [State.entryCommand, Nat.mod_eq_of_lt hslot]
  simp only [hon, hfree, hpresent, hclosed, Bool.not_true, Bool.not_false, Bool.or_self, Bool.false_eq_true, if_false, if_true]

/-- No context command starts while one executes. -/
theorem ctxCommands_busy {s : State} (slot : Nat) (hon : s.boot.powered = true) (hbusy : s.drv.ctxBusy = true) :
    ∀ ins ∈ [Instr.ctxLoad slot, .ctxSave slot, .ctxResume slot, .ctxKill slot, .ctxUnload slot, .ctxUpool slot],
      exec ins s = .next { s with drv := { s.drv with ctxErr := true } } := by
  have hrefuse : ∀ f, (.next (s.ctxCommand slot f) : Res) = .next { s with drv := { s.drv with ctxErr := true } } :=
    fun f => congrArg Host.Outcome.next (ctxCommand_busy slot f hon hbusy)
  intro ins hins
  simp only [List.mem_cons, List.not_mem_nil, or_false] at hins
  rcases hins with rfl | rfl | rfl | rfl | rfl | rfl
  · change execCtxLoad slot s = _
    exact (entryCommand_busy slot (.ctxLoad slot) _ hbusy).trans (hrefuse _)
  · exact hrefuse _
  · exact hrefuse _
  · exact hrefuse _
  · exact hrefuse _
  · change execCtxUpool slot s = _
    exact (entryCommand_busy slot (.ctxUpool slot) _ hbusy).trans (hrefuse _)

/-- A slot whose context command may start. -/
structure CommandFree (s : State) (slot : Nat) : Prop where
  powered : s.boot.powered = true
  free    : s.drv.ctxBusy = false
  inRange : slot < 256

/-- The state after the entry of a slot has been read, with the command started. -/
def State.entryRead (s : State) (slot : Nat) : State := { s.noteRead (s.entryBytes slot) with drv := (s.commanded slot).drv }

/-- A command that reads its entry and succeeds. -/
theorem CommandFree.entry_done {s t : State} {slot : Nat} (e : Instr) {f : State → Option State} (hc : CommandFree s slot)
    (hpresent : s.present (s.entryAt slot) = true) (hreach : s.reachable (s.entryAt slot) = true)
    (hf : f (s.entryRead slot) = some t) (hdone : t.drv.ctxBusy = false) :
    s.entryCommand slot e (fun s => s.ctxCommand slot f) = .next { t with drv := { t.drv with ctxDone := true } } := by
  obtain ⟨hon, hfree, hslot⟩ := hc
  have hrest := State.noteRead_rest s (s.entryBytes slot)
  have hboot : (s.noteRead (s.entryBytes slot)).boot = s.boot := by rw [hrest]
  have hdrv : (s.noteRead (s.entryBytes slot)).drv = s.drv := by rw [hrest]
  have hstart : (s.noteRead (s.entryBytes slot)).commanded slot = s.entryRead slot := by rw [State.commanded, hdrv]; rfl
  rw [entryCommand_reads e _ hon hfree hslot hpresent hreach,
    ctxCommand_some (t := t) (by rw [hboot, hon]) (by rw [hdrv, hfree]) hslot (by rw [hstart, hf]), hdone, Bool.not_false]

/-- Reading an entry changes neither memory nor the contexts. -/
theorem entryRead_rest (s : State) (slot k : Nat) :
    (s.entryRead slot).ctxEntry k = s.ctxEntry k ∧ (s.entryRead slot).ctx k = s.ctx k ∧ (∀ a, (s.entryRead slot).slotOfAsid a = s.slotOfAsid a) ∧
    (s.entryRead slot).closedWings = s.closedWings ∧ (s.entryRead slot).drv.ctxBusy = s.drv.ctxBusy := by
  rw [State.entryRead, State.noteRead_rest]
  exact ⟨rfl, rfl, fun _ => rfl, rfl, rfl⟩

/-- A free slot is loaded from a valid entry whose ASID is not resident. -/
theorem CommandFree.load {s : State} {slot : Nat} (hc : CommandFree s slot) (hpresent : s.present (s.entryAt slot) = true)
    (hreach : s.reachable (s.entryAt slot) = true) (hvalid : entryValid (s.ctxEntry slot) = true) (hempty : (s.ctx slot).resident = false)
    (hasid : s.slotOfAsid (bits (s.ctxEntry slot) 0 16) = none) :
    let t := (s.entryRead slot).modCtx slot (fun c => c.load (s.ctxEntry slot) s.closedWings)
    exec (.ctxLoad slot) s = .next { t with drv := { t.drv with ctxDone := true } } := by
  obtain ⟨hentry, hctx, hslots, hwings, hbusy⟩ := entryRead_rest s slot slot
  refine hc.entry_done (.ctxLoad slot) hpresent hreach ?_ (hbusy.trans hc.free)
  simp only [Nat.mod_eq_of_lt hc.inRange, hentry, hctx, hslots, hwings, hvalid, hempty, hasid, Option.isSome_none, Bool.not_true, Bool.or_self,
    Bool.false_eq_true, if_false]

/-- A load whose entry stands on a wing that is not online is made again later. -/
theorem CommandFree.load_waits {s : State} {slot : Nat} (hc : CommandFree s slot) (hpresent : s.present (s.entryAt slot) = true)
    (hclosed : s.reachable (s.entryAt slot) = false) : exec (.ctxLoad slot) s = .next { s with inbox := s.inbox ++ [.ctxLoad slot] } := by
  change execCtxLoad slot s = _
  exact entryCommand_waits (.ctxLoad slot) _ hc.powered hc.free hc.inRange hpresent hclosed

/-- The understory pool of a resident context takes the bounds of its entry. -/
theorem CommandFree.upool {s : State} {slot : Nat} (hc : CommandFree s slot) (hres : (s.ctx slot).resident = true)
    (hpresent : s.present (s.entryAt slot) = true) (hreach : s.reachable (s.entryAt slot) = true)
    (hcnt : (s.ctx slot).upcnt ≤ bits (s.ctxEntry slot) 464 16) (hmax : bits (s.ctxEntry slot) 464 16 ≤ 32768)
    (htab : bits (s.ctxEntry slot) 384 64 % 8 = 0) :
    let t := (s.entryRead slot).modCtx slot (fun c => { c with uptab := bits (s.ctxEntry slot) 384 64, upmax := bits (s.ctxEntry slot) 464 16 })
    exec (.ctxUpool slot) s = .next { t with drv := { t.drv with ctxDone := true } } := by
  obtain ⟨hentry, hctx, -, -, hbusy⟩ := entryRead_rest s slot slot
  refine hc.entry_done (.ctxUpool slot) hpresent hreach ?_ (hbusy.trans hc.free)
  simp only [Nat.mod_eq_of_lt hc.inRange, hentry, hctx, hres, Nat.not_lt.mpr hcnt, Nat.not_lt.mpr hmax, htab, decide_false, bne_self_eq_false,
    Bool.not_true, Bool.or_self, Bool.false_eq_true, if_false]

/-- A context command that succeeds without reading an entry. -/
theorem CommandFree.done {s t : State} {slot : Nat} {f : State → Option State} (hc : CommandFree s slot) (hf : f (s.commanded slot) = some t) :
    (.next (s.ctxCommand slot f) : Res) = .next { t with drv := { t.drv with ctxDone := !t.drv.ctxBusy } } :=
  congrArg Host.Outcome.next (ctxCommand_some hc.powered hc.free hc.inRange hf)

/-- The save of a resident context starts: PRQ is raised in its running teams. -/
theorem CommandFree.save {s : State} {slot : Nat} (hc : CommandFree s slot) (hres : (s.ctx slot).resident = true) :
    let u : State := { s.commanded slot with drv := { (s.commanded slot).drv with ctxBusy := true } }
    let t := (u.modCtx slot (fun c => { c with saving := true })).raisePrq (s.runningTeams (fun t => t.ctx == slot))
    exec (.ctxSave slot) s = .next { t with drv := { t.drv with ctxDone := !t.drv.ctxBusy } } := by
  intro u t
  have hctx : ((s.commanded slot).ctx slot).resident = true := hres
  refine hc.done ?_
  simp only [Nat.mod_eq_of_lt hc.inRange, hctx, Bool.not_true, Bool.false_eq_true, if_false]
  rfl

/-- The held launches of a resident context are released. -/
theorem CommandFree.resume {s : State} {slot : Nat} (hc : CommandFree s slot) (hres : (s.ctx slot).resident = true) :
    let t := ((s.launches.filter (fun p => p.2.ctx == slot && p.2.held)).map (·.1)).foldl (fun s id => s.resumeHeld id) (s.commanded slot)
    exec (.ctxResume slot) s = .next { t with drv := { t.drv with ctxDone := !t.drv.ctxBusy } } := by
  have hctx : ((s.commanded slot).ctx slot).resident = true := hres
  refine hc.done ?_
  simp only [Nat.mod_eq_of_lt hc.inRange, hctx, Bool.not_true, Bool.false_eq_true, if_false]
  rfl

/-- Everything of a resident context is killed. -/
theorem CommandFree.kill {s : State} {slot : Nat} (hc : CommandFree s slot) (hres : (s.ctx slot).resident = true) :
    let t := (s.commanded slot).killAll slot
    exec (.ctxKill slot) s = .next { t with drv := { t.drv with ctxDone := !t.drv.ctxBusy } } := by
  have hctx : ((s.commanded slot).ctx slot).resident = true := hres
  refine hc.done ?_
  simp only [Nat.mod_eq_of_lt hc.inRange, hctx, Bool.not_true, Bool.false_eq_true, if_false]

/-- A resident context of which nothing is left is unloaded. -/
theorem CommandFree.unload {s : State} {slot : Nat} (hc : CommandFree s slot) (hres : (s.ctx slot).resident = true)
    (hteams : ∀ p ∈ s.teams, p.2.ctx ≠ slot) (hlaunches : ∀ p ∈ s.launches, p.2.ctx ≠ slot) (hreplays : (s.ctx slot).replays = [])
    (hready : (s.ctx slot).ready = []) :
    let t : State := { (s.commanded slot).modCtx slot Ctx.unload with chunks := s.chunks.filter (fun ch => ch.ctx != slot) }
    exec (.ctxUnload slot) s = .next { t with drv := { t.drv with ctxDone := true } } := by
  intro t
  have hctx : (s.commanded slot).ctx slot = s.ctx slot := rfl
  have hnoTeam : (s.commanded slot).teams.any (fun p => p.2.ctx == slot) = false :=
    List.any_eq_false.mpr (fun p hp => fun hc => hteams p hp (beq_iff_eq.mp hc))
  have hnoLaunch : (s.commanded slot).launches.any (fun p => p.2.ctx == slot) = false :=
    List.any_eq_false.mpr (fun p hp => fun hc => hlaunches p hp (beq_iff_eq.mp hc))
  refine (hc.done (t := t) ?_).trans ?_
  · simp only [Nat.mod_eq_of_lt hc.inRange, hctx, hres, hreplays, hready, hnoTeam, hnoLaunch, List.isEmpty_nil, Bool.not_true, Bool.or_self,
      Bool.false_eq_true, if_false]
    rfl
  · rw [show t.drv.ctxBusy = false from hc.free, Bool.not_false]

-- removing translations (R106, R406)

/-- The driver's registers after a write of TLBOP. -/
def Driver.tlbop (d : Driver) (val : W64) : Driver :=
  { d with tlbAsid := bits val.toNat 0 16, tlbAll := bitAt val.toNat 18, tlbErr := d.tlbErr && !bitAt val.toNat 62 }

theorem tlbCommand_next {s : State} {val : W64} {cmd : Nat} (f : State → State) (hon : s.boot.powered = true) (hfree : s.drv.tlbBusy = false)
    (hcmd : bits val.toNat 16 2 = cmd) : s.tlbCommand val cmd f = f { s with drv := s.drv.tlbop val } := by
  simp only [State.tlbCommand, hon, hfree, hcmd, bne_self_eq_false, Bool.not_true, Bool.or_self, Bool.false_eq_true, if_false, Driver.tlbop]

/-- The translations that an operation names are marked. -/
theorem tlbMark_next {s : State} {val : W64} (hon : s.boot.powered = true) (hfree : s.drv.tlbBusy = false) (hcmd : bits val.toNat 16 2 = 1) :
    exec (.tlbMark val) s = .next { s.mapTlbs (fun l => l.map (fun e => if (s.drv.tlbop val).names e then { e with drain := true } else e)) with
      drv := { s.drv.tlbop val with tlbBusy := true } } := by
  change Host.Outcome.next (s.tlbCommand val 1 _) = _
  rw [tlbCommand_next _ hon hfree hcmd]
  rfl

/-- What every confirmation does in the end: marked translations that it names go. -/
def State.dropMarked (s : State) (d : Driver) : State := s.mapTlbs (fun l => l.filter (fun e => !(d.names e && e.drain)))

theorem tlbConfirm_stray {s : State} {val : W64} (hon : s.boot.powered = true) (hfree : s.drv.tlbBusy = false) (hcmd : bits val.toNat 16 2 = 2)
    (hslot : s.slotOfAsid (s.drv.tlbop val).tlbAsid = none) :
    exec (.tlbConfirm val) s = .next (({ s with drv := s.drv.tlbop val } : State).dropMarked (s.drv.tlbop val)) := by
  have hctx : ({ s with drv := s.drv.tlbop val } : State).slotOfAsid (s.drv.tlbop val).tlbAsid = none := hslot
  change Host.Outcome.next (s.tlbCommand val 2 _) = _
  rw [tlbCommand_next _ hon hfree hcmd]
  simp only [hctx]
  rfl

theorem tlbConfirm_all {s : State} {val : W64} {k : Nat} (hon : s.boot.powered = true) (hfree : s.drv.tlbBusy = false)
    (hcmd : bits val.toNat 16 2 = 2) (hslot : s.slotOfAsid (s.drv.tlbop val).tlbAsid = some k) (hall : (s.drv.tlbop val).tlbAll = true) :
    exec (.tlbConfirm val) s = .next ((({ s with drv := s.drv.tlbop val } : State).dropMarked (s.drv.tlbop val)).releaseWalks k) := by
  have hctx : ({ s with drv := s.drv.tlbop val } : State).slotOfAsid (s.drv.tlbop val).tlbAsid = some k := hslot
  change Host.Outcome.next (s.tlbCommand val 2 _) = _
  rw [tlbCommand_next _ hon hfree hcmd]
  simp only [hctx, hall, if_true]
  rfl

/-- A page that is mapped again takes its bytes along, where no tracked launch has read or written them. -/
theorem tlbConfirm_page {s : State} {val : W64} {k : Nat} {m : FrameMove} (hon : s.boot.powered = true) (hfree : s.drv.tlbBusy = false)
    (hcmd : bits val.toNat 16 2 = 2) (hslot : s.slotOfAsid (s.drv.tlbop val).tlbAsid = some k) (hone : (s.drv.tlbop val).tlbAll = false)
    (hmove : ({ s with drv := s.drv.tlbop val } : State).frameMove k = some m)
    (hquiet : ∀ p ∈ s.launches, p.2.ctx = k → p.2.tracked = true → ∀ j < 2 ^ m.size / 128,
      p.2.hit (pteLoc (s.drv.tlbop val).tlbold m.size (s.drv.tlbop val).tlbAsid ((s.drv.tlbop val).tlbva.toNat / 2 ^ m.size * 2 ^ m.size + 128 * j)) = false) :
    exec (.tlbConfirm val) s = .next
      ((((({ s with drv := s.drv.tlbop val } : State).moveFrame m).inQueueOrder k s.nextId).dropMarked (s.drv.tlbop val)).releaseWalks k) := by
  have hctx : ({ s with drv := s.drv.tlbop val } : State).slotOfAsid (s.drv.tlbop val).tlbAsid = some k := hslot
  have hhit : s.launches.filter (fun p => p.2.ctx == k && p.2.tracked && ((List.range (2 ^ m.size / 128)).map (fun j =>
      pteLoc (s.drv.tlbop val).tlbold m.size (s.drv.tlbop val).tlbAsid ((s.drv.tlbop val).tlbva.toNat / 2 ^ m.size * 2 ^ m.size + 128 * j))).any p.2.hit) =
      [] := by
    rw [List.filter_eq_nil_iff]
    intro p hp hc
    obtain ⟨hmine, hany⟩ := (Bool.and_eq_true _ _).mp hc
    obtain ⟨hk, htracked⟩ := (Bool.and_eq_true _ _).mp hmine
    obtain ⟨l, hl, hit⟩ := List.any_eq_true.mp hany
    obtain ⟨j, hj, rfl⟩ := List.mem_map.mp hl
    exact Bool.false_ne_true ((hquiet p hp (beq_iff_eq.mp hk) htracked j (List.mem_range.mp hj)).symm.trans hit)
  change Host.Outcome.next (s.tlbCommand val 2 _) = _
  rw [tlbCommand_next _ hon hfree hcmd]
  simp only [hctx, hone, hmove, hhit, Option.map_some, Option.getD_some, List.map_nil, List.foldl_nil, Bool.false_eq_true, if_false]
  rfl

-- trigger ownership (R409)

theorem trgownWrite_next {s : State} {w k : Nat} (val : W64) (hon : s.boot.powered = true) (hw : w < 4) (hk : k < 256) :
    exec (.trgownWrite w k val) s = .next { s with trig := { s.trig with
      trgown := Tab.set s.trig.trgown 0 (slotKey w k) (ownField val),
      slots := if ownerLost (Tab.get s.trig.trgown 0 (slotKey w k)) (ownField val) then Tab.del s.trig.slots (slotKey w k) else s.trig.slots } } := by
  change execTrgownWrite w k val s = _
  rw [execTrgownWrite, if_neg (by simp [hw, hk])]
  exact State.whenOn_powered _ hon

theorem ctrownWrite_next {s : State} {w k : Nat} (val : W64) (hon : s.boot.powered = true) (hw : w < 4) (hk : k < 1024) :
    let old := (Tab.get s.trig.ctrown 0 (ctrKey w k)).toNat
    let new := (ownField val).toNat
    exec (.ctrownWrite w k val) s = .next { s with trig := { s.trig with
      ctrown := Tab.set s.trig.ctrown 0 (ctrKey w k) (ownField val),
      counters := if bits new 0 8 ≠ bits old 0 8 ∨ (bitAt new 8 = true ∧ bitAt old 8 = false) then Tab.del s.trig.counters (ctrKey w k)
        else s.trig.counters } } := by
  change execCtrownWrite w k val s = _
  rw [execCtrownWrite, if_neg (by simp [hw, hk])]
  refine (State.whenOn_powered _ hon).trans ?_
  simp only [Bool.or_eq_true, Bool.and_eq_true, bne_iff_ne, Bool.not_eq_true']

-- wings (R136, R411)

/-- A command to a wing of the device. -/
structure WingCommand (s : State) (w : Nat) : Prop where
  powered : s.boot.powered = true
  inRange : w < 4

/-- A wing drains: its ports close and its teams are pre-empted. -/
theorem WingCommand.drain {s : State} {w : Nat} (hc : WingCommand s w) (hstate : (s.wing w).state = .online) (hothers : 1 < s.onlineWings) :
    let u := (portsOf w).foldl (fun s p => s.modPort p (fun x => { x with state := 0 })) (s.setWing w .draining false)
    exec (.wingDrain w) s = .next (u.raisePrq (u.runningTeams (fun t => wingOfCore t.core == w))) := by
  change execWingDrain w s = _
  rw [execWingDrain, if_neg (Nat.not_le.mpr hc.inRange), if_neg (by simp [hstate, hothers])]
  exact State.whenOn_powered _ hc.powered

theorem WingCommand.drain_refused {s : State} {w : Nat} (hc : WingCommand s w) (hstate : (s.wing w).state ≠ .online) :
    exec (.wingDrain w) s = .next (s.wingRefuses w) := by
  change execWingDrain w s = _
  rw [execWingDrain, if_neg (Nat.not_le.mpr hc.inRange), if_pos (by simp [hstate])]
  exact State.whenOn_powered _ hc.powered

/-- A wing resets: launches with a team still there end KILLED, and its cores keep nothing. -/
theorem WingCommand.reset {s : State} {w : Nat} (hc : WingCommand s w) (hstate : (s.wing w).state = .offline) :
    let lost := ((s.runningTeams (fun t => wingOfCore t.core == w)).filterMap (fun id => (s.team? id).map (·.launch))).eraseDups
    let gone := lost.foldl (fun u l => u.abortLaunch l stKilled) (s.setWing w .resetting false)
    let u := (Tab.keys gone.ctxs).foldl (fun u k => u.inQueueOrder k s.nextId) gone
    exec (.wingReset w) s = .next { u with cores := u.cores.map (fun (p : Nat × CoreRec) =>
      (p.1, if wingOfCore p.1 = w then { p.2 with tlb := [], l1 := [] } else p.2)) } := by
  change execWingReset w s = _
  rw [execWingReset, if_neg (Nat.not_le.mpr hc.inRange), if_neg (by simp [hstate])]
  exact State.whenOn_powered _ hc.powered

/-- A wing comes online: its ports train, and what its counters missed is applied in order. -/
theorem WingCommand.online {s : State} {w : Nat} (hc : WingCommand s w) (hstate : (s.wing w).state = .offline) :
    exec (.wingOnline w) s = .next (((s.wing w).queued.foldl (fun s u => s.applyCtr w u)
      ((portsOf w).foldl (fun s p => s.modPort p (fun x => if x.disable then x else { x with state := 1 }))
        ((s.setWing w .online false).modWing w (fun x => { x with queued := [] })))).evaluate w none) := by
  change execWingOnline w s = _
  rw [execWingOnline, if_neg (Nat.not_le.mpr hc.inRange), if_neg (by simp [hstate])]
  exact State.whenOn_powered _ hc.powered

-- rows, ports and cores (R412, R413)

/-- The channel that a write of ROWRET names. -/
theorem rowret_channel (val : W64) : bits (BitVec.ofNat 64 (bits val.toNat 0 32)).toNat 2 8 = bits val.toNat 2 8 := by
  simp only [bits, BitVec.toNat_ofNat]
  omega

/-- A GO while a copy is in progress, or for a channel that does not exist, starts nothing. -/
theorem rowretGo_idle {s : State} {val : W64} (hon : s.boot.powered = true) (h : s.rep.busy = true ∨ 160 ≤ bits val.toNat 2 8) :
    exec (.rowretGo val) s = .next { s with rep := s.rep.write val } := by
  have hidle : ((s.rep.write val).busy || decide (160 ≤ bits (s.rep.write val).rowret.toNat 2 8)) = true := by
    rw [Bool.or_eq_true, decide_eq_true_eq, Repair.write, rowret_channel]
    exact h
  change execRowretGo val s = _
  refine (State.whenOn_powered _ hon).trans ?_
  rw [if_pos hidle]

/-- A GO fails where the bank has no spare row left, and else starts the copy. -/
theorem rowretGo_starts {s : State} {val : W64} (hon : s.boot.powered = true) (hfree : s.rep.busy = false) (hchannel : bits val.toNat 2 8 < 160) :
    exec (.rowretGo val) s = .next { s with rep := if 16 ≤ Tab.get s.rep.spares 0 (bankKey (s.rep.write val).rowret)
      then { s.rep.write val with fail := true } else { s.rep.write val with busy := true, copying := (s.rep.write val).rowret } } := by
  have hgo : ((s.rep.write val).busy || decide (160 ≤ bits (s.rep.write val).rowret.toNat 2 8)) = false := by
    rw [Bool.or_eq_false_iff, decide_eq_false_iff_not, Repair.write, rowret_channel]
    exact ⟨hfree, Nat.not_le.mpr hchannel⟩
  change execRowretGo val s = _
  refine (State.whenOn_powered _ hon).trans ?_
  rw [hgo, if_neg Bool.false_ne_true]
  rfl

theorem corectlDis_next {s : State} {core : Nat} (on : Bool) (hon : s.boot.powered = true) (hcore : core < 640) :
    let t := s.modCore core (fun c => { c with dis := on })
    exec (.corectlDis core on) s = .next (if on then t.raisePrq (t.runningTeams (fun x => x.core == core)) else t) := by
  change execCorectlDis core on s = _
  rw [execCorectlDis, if_neg (Nat.not_le.mpr hcore)]
  exact State.whenOn_powered _ hon

-- rejoining the span (R427)

/-- A rank is returned to service where it runs, is a rank of the span, and can be reached. -/
theorem spanrjGo_next {s : State} (r : Nat) (running : Bool) (hon : s.boot.powered = true) :
    exec (.spanrjGo r running) s = .next (if running = true ∧ r % 256 < s.span.size ∧ s.reaches (r % 256) = true then
      { s with span := { s.span with rjRank := r % 256 }, inbox := s.inbox ++ [.livenessFlood ⟨0, BitVec.ofNat 256 (2 ^ (r % 256))⟩] }
      else { s with span := { s.span with rjRank := r % 256, rjErr := true } }) := by
  change execSpanrjGo r running s = _
  refine (State.whenOn_powered _ hon).trans ?_
  simp only [Bool.and_eq_true, decide_eq_true_eq, and_assoc]

-- modes (R421, R422)

/-- A write of the mode word that is refused. -/
def ModeRefused (s : State) (val : W64) : Prop :=
  modeOk val = false ∨ s.fleet.busy = true ∨ modeEcc val ≠ modeEcc s.fleet.mode ∧ ∃ p ∈ s.ctxs, p.2.resident = true

/-- The check of a write of the mode word. -/
theorem modeRefused_iff (s : State) (val : W64) :
    (!modeOk val || s.fleet.busy || (modeEcc val != modeEcc s.fleet.mode && s.ctxs.any (fun p => p.2.resident))) = true ↔ ModeRefused s val := by
  rw [Bool.or_eq_true, Bool.or_eq_true, Bool.and_eq_true, Bool.not_eq_true', bne_iff_ne, List.any_eq_true, or_assoc]
  rfl

theorem modeWrite_refused {s : State} {val : W64} (hon : s.boot.powered = true) (h : ModeRefused s val) :
    exec (.modeWrite val) s = .next { s with fleet := { s.fleet with err := true } } := by
  change execModeWrite val s = _
  refine (State.whenOn_powered _ hon).trans ?_
  rw [if_pos ((modeRefused_iff s val).mpr h)]

/-- A write that is not refused starts a change of the ECC mode, or is in force at once. -/
theorem modeWrite_taken {s : State} {val : W64} (hon : s.boot.powered = true) (h : ¬ ModeRefused s val) :
    exec (.modeWrite val) s = .next (if modeEcc val = modeEcc s.fleet.mode then s.modeInForce val
      else { s with fleet := { s.fleet with busy := true, next := val } }) := by
  change execModeWrite val s = _
  refine (State.whenOn_powered _ hon).trans ?_
  rw [if_neg (fun hc => h ((modeRefused_iff s val).mp hc))]
  by_cases hecc : modeEcc val = modeEcc s.fleet.mode
  · rw [if_pos hecc, if_neg (by simp [hecc])]
  · rw [if_neg hecc, if_pos (bne_iff_ne.mpr hecc)]

/-- Settles O51: each command is refused, or has its effect, as the statement gives it. -/
theorem driverCommandsComplete : Obligations.DriverCommandsComplete := by
  unfold Obligations.DriverCommandsComplete
  intro s val hon
  refine ⟨?context, ?tlb, fun w k hw hk => trgownWrite_next val hon hw hk, fun w k hw hk => ctrownWrite_next val hon hw hk, ?wings, ?rows,
    fun p => ⟨State.whenOn_powered _ hon, fun on => State.whenOn_powered _ hon⟩, fun core on hcore => ⟨_, rfl, corectlDis_next on hon hcore⟩,
    ?rejoin, ?mode⟩
  case context =>
    intro slot hslot c ready done read
    refine ⟨ctxCommands_busy slot hon, fun hfree => ?_⟩
    have hc : CommandFree s slot := ⟨hon, hfree, hslot⟩
    refine ⟨hc.load, hc.load_waits, fun hres => ⟨⟨_, rfl, hc.save hres⟩,
      ⟨_, rfl, hc.resume hres⟩, ⟨_, rfl, hc.kill hres⟩, hc.unload hres, hc.upool hres⟩⟩
  case tlb =>
    rintro d rfl hfree
    exact ⟨tlbMark_next hon hfree, tlbConfirm_stray hon hfree, fun k => tlbConfirm_all hon hfree, fun k m => tlbConfirm_page hon hfree⟩
  case wings =>
    intro w hw
    have hc : WingCommand s w := ⟨hon, hw⟩
    exact ⟨fun hstate hothers => ⟨_, rfl, hc.drain hstate hothers⟩, hc.drain_refused, fun hstate => ⟨_, rfl, hc.reset hstate⟩, hc.online⟩
  case rows =>
    refine ⟨rowretGo_idle hon, fun hfree hchannel => ⟨fun hnone => ?_, fun hroom => ?_⟩⟩
    · exact (rowretGo_starts hon hfree hchannel).trans (congrArg (fun r => Host.Outcome.next { s with rep := r }) (if_pos hnone))
    · exact (rowretGo_starts hon hfree hchannel).trans (congrArg (fun r => Host.Outcome.next { s with rep := r }) (if_neg (Nat.not_le.mpr hroom)))
  case rejoin =>
    refine fun r => ⟨(spanrjGo_next r false hon).trans ?_, fun hbad => (spanrjGo_next r true hon).trans ?_, fun hsize hreach =>
      (spanrjGo_next r true hon).trans ?_⟩
    · rw [if_neg (fun h => Bool.false_ne_true h.1)]
    · rw [if_neg]
      rintro ⟨-, hsize, hreach⟩
      exact hbad.elim (fun hle => Nat.not_le.mpr hsize hle) (fun hno => Bool.false_ne_true (hno.symm.trans hreach))
    · rw [if_pos ⟨rfl, hsize, hreach⟩]
  case mode =>
    rintro _ rfl
    have htaken : modeOk val = true → s.fleet.busy = false → (modeEcc val ≠ modeEcc s.fleet.mode → ∀ p ∈ s.ctxs, p.2.resident = false) →
        ¬ ModeRefused s val := by
      rintro hok hfree hempty (hbad | hbusy | ⟨hecc, p, hp, hres⟩)
      · exact Bool.false_ne_true (hbad.symm.trans hok)
      · exact Bool.false_ne_true (hfree.symm.trans hbusy)
      · exact Bool.false_ne_true ((hempty hecc p hp).symm.trans hres)
    refine ⟨fun hbad => modeWrite_refused hon (.inl hbad), fun hbusy => modeWrite_refused hon (.inr (.inl hbusy)),
      fun hecc hres => modeWrite_refused hon (.inr (.inr ⟨hecc, hres⟩)), fun hok hfree hecc hempty => ?_, fun hok hfree hecc => ?_⟩
    · exact (modeWrite_taken hon (htaken hok hfree (fun _ => hempty))).trans (by rw [if_neg hecc])
    · exact (modeWrite_taken hon (htaken hok hfree (fun hne => absurd hecc hne))).trans (by rw [if_pos hecc])

end Sys2Proof.Machine
end

section
/-! SUPPORT. What happens to the device by itself and at its edges (R41, R339, R382, R411 to R420, R422 to R428; log entries 33, 34, 35 and
41): one lemma per event, and the statement about them. -/

namespace Sys2Proof.Machine

open Sys2Proof

-- wings, rows and ports (R411 to R413)

theorem wingDrained_next {s : State} {w : Nat} (hstate : (s.wing w).state = .draining) (hempty : s.wingEmpty w = true) :
    exec (.wingDrained w) s = .next ((s.setWing w .offline true).moveLists w (s.otherWing w)) := by
  change execWingDrained w s = _
  rw [execWingDrained, if_neg (by rw [hstate, hempty]; decide)]

theorem wingResetDone_next {s : State} {w : Nat} (hstate : (s.wing w).state = .resetting) :
    exec (.wingResetDone w) s = .next (s.setWing w .offline true) := by
  change execWingResetDone w s = _
  rw [execWingResetDone, if_neg (by rw [hstate]; decide)]

theorem rowCopyDone_next {s : State} (hbusy : s.rep.busy = true) :
    exec .rowCopyDone s = .next { s with rep := { s.rep with
      busy := false, spares := Tab.adjust s.rep.spares 0 (bankKey s.rep.copying) (· + 1), rows := min (s.rep.rows + 1) (2 ^ 64 - 1) } } := by
  change execRowCopyDone s = _
  rw [execRowCopyDone, if_neg (by rw [hbusy]; decide)]

/-- A port that trains comes up, with the rank that its first training found. -/
theorem retrainDone_next {s : State} {p : Nat} (hstate : (s.port p).state = 1) :
    exec (.retrainDone p) s = .next (((s.pickBelow 256).2.modPort p (fun x => { x with
      state := 2, known := true, peer := if x.known then x.peer else (s.pickBelow 256).1 })).sendWaiting) := by
  change execRetrainDone p s = _
  rw [execRetrainDone, if_neg (by rw [hstate]; decide)]

-- liveness (R339, R382)

theorem peerDeadTimeout_next {s : State} {r : Nat} (hother : r ≠ s.span.rank) (hlive : s.rankLive r = true)
    (hheard : (Tab.find? s.span.quiet r).isSome = false) :
    exec (.peerDeadTimeout r) s = .next { s with
      span := { s.span with quiet := Tab.put s.span.quiet r () }, inbox := s.inbox ++ [.livenessFlood ⟨BitVec.ofNat 256 (2 ^ r), 0⟩] } := by
  change execPeerDeadTimeout r s = _
  rw [execPeerDeadTimeout, if_neg (by simp [hother, hlive, hheard])]

/-- A flit starts the silence count of a peer again; link errors may have been corrected on some port. -/
theorem idleFlit_next (s : State) (r : Nat) :
    ∃ port n, port < 16 ∧ exec (.idleFlit r) s = .next (({ s.pick.2 with span := { s.span with quiet := Tab.del s.span.quiet r } } : State).modPort port
      (fun x => if x.state = 2 then { x with errcnt := min (x.errcnt + n) 65535 } else x)) :=
  ⟨s.pick.1.toNat % 16, s.pick.1.toNat / 16, Nat.mod_lt _ (by decide), rfl⟩

/-- A flood that changes nothing leaves the device as it is. -/
theorem livenessFlood_same {s : State} {f : Flood} (hsame : s.span.flooded f = s.span.live) (hup : f.up = 0) :
    exec (.livenessFlood f) s = .next s := by
  change execLivenessFlood f s = _
  simp only [execLivenessFlood, hsame, hup, decide_true, Bool.and_self, if_true]

/-- The device with a new liveness set. -/
def State.withLive (s : State) (f : Flood) : State :=
  { s with span := { s.span with live := s.span.flooded f, epoch := s.span.epoch + 1, quiet := s.span.quiet.filter (fun p => !f.up.getLsbD p.1) } }

/-- Any other flood takes effect at one instant, and LIVE is raised where the set changes. -/
theorem livenessFlood_changes {s : State} {f : Flood} (hchange : s.span.flooded f ≠ s.span.live ∨ f.up ≠ 0) :
    exec (.livenessFlood f) s = .next (if s.span.flooded f = s.span.live then s.withLive f else (s.withLive f).raiseEvent evLive) := by
  have hgo : ¬ (decide (s.span.flooded f = s.span.live) && decide (f.up = 0)) = true := by
    rw [Bool.and_eq_true, decide_eq_true_eq, decide_eq_true_eq]
    exact fun ⟨hsame, hup⟩ => hchange.elim (· hsame) (· hup)
  change execLivenessFlood f s = _
  rw [execLivenessFlood, if_neg hgo]
  rfl

-- modes, clocks, heat and droop (R41, R422 to R428)

theorem eccChangeDone_next {s : State} (hbusy : s.fleet.busy = true) :
    exec .eccChangeDone s =
      .next (({ s with mem := [], uncorr := [], fleet := { s.fleet with busy := false } } : State).modeInForce s.fleet.next) := by
  change execEccChangeDone s = _
  rw [execEccChangeDone, if_neg (by rw [hbusy]; decide)]

theorem clockCapChange_next {s : State} (hpending : s.fleet.capPending = true) :
    exec .clockCapChange s = .next { s with fleet := { s.fleet with
      mclk := (clockCaps s.fleet.mode).1, vclk := (clockCaps s.fleet.mode).2, capPending := false } } := by
  change execClockCapChange s = _
  rw [execClockCapChange, if_neg (by rw [hpending]; decide)]

/-- The state after a thermal sample, halts apart. -/
def State.sampled (s : State) (core temp : Nat) : State := ((s.exclude core temp).protect (wingOfCore core)).telemetry (wingOfCore core)

/-- A sample of 120 degrees or more halts a device that runs. -/
theorem thermalSample_next {s : State} {core : Nat} (temp : Nat) (hcore : core < 640) (hon : s.boot.powered = true) :
    exec (.thermalSample core temp) s =
      .next (if 120 ≤ temp ∧ s.fleet.halt = false then (s.sampled core temp).haltAll else s.sampled core temp) := by
  change execThermalSample core temp s = _
  rw [execThermalSample, if_neg (Nat.not_le.mpr hcore)]
  refine (State.whenOn_powered _ hon).trans ?_
  simp only [Bool.and_eq_true, decide_eq_true_eq, Bool.not_eq_true']
  rfl

theorem droopFlag_next {s : State} {core : Nat} (b : Bool) (hcore : core < 640) (hon : s.boot.powered = true) :
    exec (.droopFlag core b) s = .next (s.modCore core (fun c => { c with droop := b, droopHold := !b && (c.droop || c.droopHold) })) := by
  change execDroopFlag core b s = _
  rw [execDroopFlag, if_neg (Nat.not_le.mpr hcore)]
  exact State.whenOn_powered _ hon

theorem droopHoldExpiry_next {s : State} {core : Nat} (hhold : (s.core core).droopHold = true) :
    exec (.droopHoldExpiry core) s = .next (s.modCore core (fun c => { c with droopHold := false })) := by
  change execDroopHoldExpiry core s = _
  rw [execDroopHoldExpiry, if_neg (by rw [hhold]; decide)]

-- power and boot (R414 to R417, R420)

theorem signTokenRefill_next {s : State} (htokens : s.boot.tokens < 64) :
    exec .signTokenRefill s = .next { s with boot := { s.boot with tokens := s.boot.tokens + 1 } } := by
  change execSignTokenRefill s = _
  rw [execSignTokenRefill, if_neg (Nat.not_le.mpr htokens)]

/-- GO starts the copy of the image in STATE 000 and 100, and is ignored in any other. -/
theorem bootctlGo_next {s : State} (hon : s.boot.powered = true) :
    exec .bootctlGo s = .next (if s.boot.state = 0 ∨ s.boot.state = 4 then { s with boot := { s.boot with state := 1, err := 0 } } else s) := by
  change execBootctlGo s = _
  refine (State.whenOn_powered _ hon).trans ?_
  simp only [Bool.or_eq_true, decide_eq_true_eq]

/-- A copy that faults ends the boot with error 6. -/
theorem bootImageLoaded_fault {s : State} (hstate : s.boot.state = 1) :
    exec (.bootImageLoaded [] true) s = .next { s with boot := { s.boot with state := 4, err := 6 } } := by
  change execBootImageLoaded [] true s = _
  have hgo : (s.boot.state != 1 || (!true && ([] : List Byte).length != s.boot.len.toNat)) = false := by rw [hstate, Bool.not_true, Bool.false_and]; rfl
  rw [execBootImageLoaded, hgo, if_neg Bool.false_ne_true]
  rfl

/-- The device that runs an image. -/
def State.booted (u : State) (img : List Byte) : State :=
  { u with boot := { u.boot with
      state := 3, err := 0, svn := imageSvn img, sram := img, meas := u.measures img,
      floor := if bitAt (img.getD 13 0).toNat 0 && decide (u.boot.floor.toNat < (imageSvn img).toNat) then imageSvn img else u.boot.floor } }

/-- An image that was copied runs, or ends the boot with its error. -/
theorem bootImageLoaded_next {s : State} {img : List Byte} (hstate : s.boot.state = 1) (hlen : img.length = s.boot.len.toNat) :
    let u := s.hostHolds s.boot.addr.toNat img
    exec (.bootImageLoaded img false) s = .next (if u.imageErr img ≠ 0 then { u with boot := { u.boot with state := 4, err := u.imageErr img } }
      else u.booted img) := by
  intro u
  have hgo : (s.boot.state != 1 || (!false && img.length != s.boot.len.toNat)) = false := by
    rw [hstate, hlen, bne_self_eq_false, bne_self_eq_false, Bool.and_false, Bool.or_self]
  change execBootImageLoaded img false s = _
  rw [execBootImageLoaded, hgo, if_neg Bool.false_ne_true]
  by_cases herr : u.imageErr img = 0
  · rw [if_neg (not_not.mpr herr)]
    exact if_neg (not_not.mpr herr)
  · rw [if_pos herr]
    exact if_pos herr

-- SPDM (R417 to R420)

/-- A device that answers requests. -/
structure Answers (s : State) : Prop where
  powered : s.boot.powered = true
  runs    : s.boot.state = 3

theorem Answers.next {s : State} (ha : Answers s) (box : Nat) (f : State → State) : s.spdm box f = .next (f s) := by
  rw [State.spdm, ha.runs]
  exact State.whenOn_powered _ ha.powered

/-- What a committed signature leaves behind is the state with none, which has the same leaf counter and tokens. -/
theorem releaseSigned_boot (s : State) : s.releaseSigned.boot = { s.boot with signing := none } := by
  cases hs : s.boot.signing with
  | none =>
    rw [State.releaseSigned, hs]
    exact congrArg (fun x => { s.boot with signing := x }) hs
  | some c => rw [State.releaseSigned, hs]; rfl

/-- The answers to the requests that sign nothing. -/
theorem Answers.plain {s : State} (ha : Answers s) (box slot : Nat) (nonce : List Byte) :
    exec (.getVersion box) s = .next (s.send (.spdm box 0x04 [0x13])) ∧
    exec (.getCapabilities box) s = .next (s.send (.spdm box 0x61 (leBytes 4 0x16))) ∧
    exec (.negotiateAlgorithms box) s = .next (s.send (.spdm box 0x63 (leBytes 4 1 ++ [Config.vendorRegistry, 0] ++ leBytes 2 1))) ∧
    exec (.getDigests box) s = .next (s.send (.spdm box 0x01 (digestBytes (sha256 Config.certChain)))) ∧
    exec (.getCertificate box slot) s =
      .next (s.send (if slot = 0 then .spdm box 0x02 Config.certChain else .spdmError box spdmInvalid)) ∧
    exec (.getMeasurements box 0 false nonce) s = .next (s.send (.spdm box 0x60 [5])) := by
  change execGetVersion box s = _ ∧ execGetCapabilities box s = _ ∧ execNegotiateAlgorithms box s = _ ∧ execGetDigests box s = _ ∧
    execGetCertificate box slot s = _ ∧ execGetMeasurements box 0 false nonce s = _
  refine ⟨ha.next box _, ha.next box _, ha.next box _, ha.next box _, (ha.next box _).trans ?_, ha.next box _⟩
  exact congrArg Host.Outcome.next (apply_ite s.send _ _ _).symm

/-- A challenge is a request to sign the digest of the chain. -/
theorem Answers.challenge {s : State} (ha : Answers s) (box : Nat) (nonce : List Byte) :
    exec (.challenge box nonce) s =
      .next (s.signed box 0x03 (digestBytes (sha256 Config.certChain)) (digestBytes (sha256 Config.certChain) ++ nonce)) := by
  exact ha.next box (fun s => s.signed box 0x03 (digestBytes (sha256 Config.certChain)) (digestBytes (sha256 Config.certChain) ++ nonce))

/-- A request to sign commits the next leaf. -/
theorem signed_commits {s : State} (box : Nat) (code : Byte) (body msg : List Byte) (hleaf : s.boot.leaf < 2 ^ 40) (htokens : s.boot.tokens ≠ 0) :
    s.signed box code body msg = { s.releaseSigned with boot := { s.boot with
      leaf := s.boot.leaf + 1, tokens := s.boot.tokens - 1, signing := some (box, code, s.boot.leaf, body, msg) } } := by
  rw [State.signed]
  simp only [releaseSigned_boot, Nat.not_le.mpr hleaf, htokens, if_false]

/-- Without a token the answer is Busy. -/
theorem signed_busy {s : State} (box : Nat) (code : Byte) (body msg : List Byte) (hleaf : s.boot.leaf < 2 ^ 40) (htokens : s.boot.tokens = 0) :
    s.signed box code body msg = s.releaseSigned.send (.spdmError box spdmBusy) := by
  rw [State.signed]
  simp only [releaseSigned_boot, Nat.not_le.mpr hleaf, htokens, if_false, if_true]

/-- A counter that is used up signs nothing more. -/
theorem signed_spent {s : State} (box : Nat) (code : Byte) (body msg : List Byte) (hleaf : 2 ^ 40 ≤ s.boot.leaf) :
    s.signed box code body msg = s.releaseSigned.send (.spdmError box spdmUnspecified) := by
  rw [State.signed]
  simp only [releaseSigned_boot, hleaf, if_true]

/-- The answer to a request for one of the five measurements. -/
theorem Answers.measurement {s : State} (ha : Answers s) (box : Nat) (signed : Bool) (nonce : List Byte) {index : Nat} (hlo : 1 ≤ index) (hhi : index ≤ 5) :
    exec (.getMeasurements box index signed nonce) s = .next (if signed then s.signed box 0x60 (s.measBlock index) (s.measBlock index ++ nonce)
      else s.send (.spdm box 0x60 (s.measBlock index))) := by
  have hcount : index ≠ 0 := Nat.pos_iff_ne_zero.mp hlo
  have hall : index ≠ 0xFF := by omega
  change execGetMeasurements box index signed nonce s = _
  refine (ha.next box _).trans ?_
  simp only [hcount, hall, hhi, if_false, if_true]

/-- A committed signature leaves when it may. -/
theorem release_sends {s : State} {box leaf : Nat} {code : Byte} {body msg : List Byte} (hs : s.boot.signing = some (box, code, leaf, body, msg)) :
    happen .release s = .next (({ s with cur := none, boot := { s.boot with signing := none } } : State).send
      (.spdm box code (body ++ Config.hssSign (leaf / 2 ^ 20) (leaf % 2 ^ 20) msg))) := by
  change Host.Outcome.next (State.releaseSigned { s with cur := none }) = _
  simp only [State.releaseSigned, hs]

/-- Settles O52: each event leaves the state that the statement gives. -/
theorem deviceEventsComplete : Obligations.DeviceEventsComplete := by
  unfold Obligations.DeviceEventsComplete
  refine ⟨fun s w => ⟨wingDrained_next, wingResetDone_next⟩, fun s => rowCopyDone_next, fun s p => retrainDone_next,
    fun s r => ⟨peerDeadTimeout_next, idleFlit_next s r⟩, ?flood, fun s => ⟨eccChangeDone_next, clockCapChange_next⟩, ?heat, ?boot, ?spdm⟩
  case flood =>
    rintro s down up new rfl
    exact ⟨livenessFlood_same (f := ⟨down, up⟩), fun hchange => ⟨_, rfl, livenessFlood_changes (f := ⟨down, up⟩) hchange⟩⟩
  case heat =>
    refine fun s core temp hcore hon => ⟨fun hcool => (thermalSample_next temp hcore hon).trans ?_, fun hhot hruns =>
      (thermalSample_next temp hcore hon).trans ?_, fun b => droopFlag_next b hcore hon, droopHoldExpiry_next⟩
    · rw [if_neg]
      · rfl
      · rintro ⟨hhot, hruns⟩
        exact hcool.elim (fun hlt => Nat.not_lt.mpr hhot hlt) (fun hhalt => Bool.false_ne_true (hruns.symm.trans hhalt))
    · rw [if_pos ⟨hhot, hruns⟩]
      rfl
  case boot =>
    refine fun s => ⟨rfl, rfl, rfl, signTokenRefill_next, fun hon hstate => (bootctlGo_next hon).trans (by rw [if_pos hstate]),
      fun hon h0 h4 => (bootctlGo_next hon).trans (by rw [if_neg (fun h => h.elim h0 h4)]), bootImageLoaded_fault, fun img hstate hlen =>
      ⟨_, rfl, fun herr => (bootImageLoaded_next hstate hlen).trans (by rw [if_pos herr]), fun herr => (bootImageLoaded_next hstate hlen).trans ?_⟩⟩
    rw [if_neg (not_not.mpr herr)]
    rfl
  case spdm =>
    intro s box slot index nonce hon hstate digest commits
    have ha : Answers s := ⟨hon, hstate⟩
    obtain ⟨hversion, hcaps, halgs, hdigests, hchain, hcount⟩ := ha.plain box slot nonce
    refine ⟨hversion, hcaps, halgs, hdigests, hchain, fun hleaf htokens => ⟨(ha.challenge box nonce).trans ?_, fun hlo hhi =>
      (ha.measurement box true nonce hlo hhi).trans ?_⟩, fun hleaf htokens => (ha.challenge box nonce).trans ?_, fun hleaf =>
      (ha.challenge box nonce).trans ?_, fun b code leaf body msg => release_sends, ha.measurement box false nonce, hcount⟩
    · exact congrArg Host.Outcome.next (signed_commits box _ _ _ hleaf htokens)
    · exact congrArg Host.Outcome.next (signed_commits box _ _ _ hleaf htokens)
    · exact congrArg Host.Outcome.next (signed_busy box _ _ _ hleaf htokens)
    · exact congrArg Host.Outcome.next (signed_spent box _ _ _ hleaf)

end Sys2Proof.Machine
end
